-- ==== Sys2Proof/Word.lean ====
section
/-! DEFINITION. Word and lane types, and the sparse map that holds registers and units by number. -/
namespace Sys2Proof

abbrev Byte := BitVec 8
abbrev W16 := BitVec 16
abbrev W32 := BitVec 32
abbrev W64 := BitVec 64

/-- One payload lane of a run: `none` is an empty lane (R30). -/
abbrev Lane := Option W32

/-- A table indexed by number; a number that is not listed reads as the default its reader names. -/
abbrev SMap (α : Type) := List (Nat × α)

namespace SMap
variable {α : Type}

def find? : SMap α → Nat → Option α
  | [], _ => none
  | (k, v) :: t, n => if k = n then some v else find? t n

def get (d : α) (m : SMap α) (n : Nat) : α := (find? m n).getD d

def set : SMap α → Nat → α → SMap α
  | [], n, v => [(n, v)]
  | (k, x) :: t, n, v =>
    if k = n then (n, v) :: t
    else if n < k then (n, v) :: (k, x) :: t
    else (k, x) :: set t n v

def erase (m : SMap α) (n : Nat) : SMap α := m.filter fun e => e.1 != n

theorem find?_set_self (m : SMap α) (n : Nat) (v : α) : find? (set m n v) n = some v := by
  induction m with
  | nil => simp [set, find?]
  | cons e t ih =>
    obtain ⟨k, x⟩ := e
    by_cases h : k = n
    · simp [set, h, find?]
    · by_cases h2 : n < k
      · simp [set, h, h2, find?]
      · simp [set, h, h2, find?, ih]

theorem find?_set_ne (m : SMap α) {n j : Nat} (v : α) (hj : j ≠ n) :
    find? (set m n v) j = find? m j := by
  induction m with
  | nil => simp [set, find?, hj.symm]
  | cons e t ih =>
    obtain ⟨k, x⟩ := e
    by_cases h : k = n
    · subst h; simp [set, find?, hj.symm]
    · by_cases h2 : n < k
      · simp [set, h, h2, find?, hj.symm]
      · simp [set, h, h2, find?, ih]

@[simp] theorem get_set_self (d : α) (m : SMap α) (n : Nat) (v : α) : get d (set m n v) n = v := by
  simp [get, find?_set_self]

theorem get_set_ne (d : α) (m : SMap α) {n j : Nat} (v : α) (hj : j ≠ n) :
    get d (set m n v) j = get d m j := by
  simp [get, find?_set_ne m v hj]

theorem get_set (d : α) (m : SMap α) (n j : Nat) (v : α) :
    get d (set m n v) j = if j = n then v else get d m j := by
  by_cases h : j = n
  · subst h; simp
  · simp [h, get_set_ne]

end SMap

end Sys2Proof
end

