-- ==== Sys2Proof/Syntax.lean ====
section
/-! DEFINITION. The instructions and events of spec/opcode_table.json, one constructor per row. -/
namespace Sys2Proof

/-- Data formats (R32); the codes 0x0 EMPTY and 0x1 MARK are not data formats and 0x5 is reserved. -/
inductive Fmt where
  | i32 | n32 | f32 | bf16x2 | f16x2 | e4m3x4 | e5m2x4 | i8x4 | n8x4 | bs4x8 | mx4x8 | q16x8 | i4x8
deriving DecidableEq, Repr

/-- Mark classes 1 to 9 (R35). -/
inductive MarkClass where
  | er | eg | es | eb | eos | u0 | u1 | u2 | u3
deriving DecidableEq, Repr

/-- The MC field of MTCH: a mark class or ANY (R66). -/
inductive MarkSel where
  | one (c : MarkClass)
  | any
deriving DecidableEq, Repr

/-- The MC field of BRM: DATA, a mark class or ANY (R66). -/
inductive LookSel where
  | data
  | one (c : MarkClass)
  | any
deriving DecidableEq, Repr

/-- Ports of a block instruction (R83). -/
inductive Port where
  | a | b | c | w
deriving DecidableEq, Repr

/-- An 11-bit target (R85, R194). -/
inductive Target where
  | same (i : BitVec 7) (p : Port)
  | next (i : BitVec 7) (p : Port)
  | chan (n : BitVec 6)
  | nowhere
  | seq
deriving DecidableEq, Repr

/-- Rounding modes 0 to 6 (R47). -/
inductive Rnd where
  | rne | rtz | rup | rdn | rna | sto | dyn
deriving DecidableEq, Repr

/-- Saturation codes 0 to 2 (R50). -/
inductive Sat where
  | off | clamp | finite
deriving DecidableEq, Repr

/-- Empty policies (R98). -/
inductive EmptyPol where
  | absorb | forward | zero | imm
deriving DecidableEq, Repr

/-- Memory scopes (R21, R171). -/
inductive Scope where
  | tile | die | package | ring | system
deriving DecidableEq, Repr

/-- Orders of an element access (R178). -/
inductive Order where
  | plain | acquire | release | acqRel
deriving DecidableEq, Repr

/-- Cache policy hints (R201). -/
inductive Pol where
  | normal | stream | keep | last
deriving DecidableEq, Repr

/-- Recovery levels of RCVR (R387). -/
inductive RecLevel where
  | off | er | eg | es | eb | eos
deriving DecidableEq, Repr

/-- Lane-0 sources of FIRE (R66). -/
inductive FireSrc where
  | zero | o1 | o2 | o3 | o4 | lanes | dcnt | mpay
deriving DecidableEq, Repr

/-- Payload sources of EMK (R66). -/
inductive EmkSrc where
  | zero | o1 | o2 | o3 | o4 | mpay
deriving DecidableEq, Repr

/-- The two targets of a block instruction (R198). -/
structure Dst where
  ta : Target
  tb : Target
deriving DecidableEq, Repr

/-- Fields of an instruction of the XA layout (R200). -/
structure XA where
  d : Dst
  ty : Fmt
  rnd : Rnd
  sat : Sat
  empty : EmptyPol
  cond : BitVec 3
  imm : BitVec 20
deriving DecidableEq, Repr

/-- Fields of the XM layout (R201). -/
structure XM where
  d : Dst
  base : BitVec 3
  scope : Scope
  order : Order
  pol : Pol
  aop : BitVec 4
  off : BitVec 16
deriving DecidableEq, Repr

/-- The value of a MOVI (R203): an immediate or a constant of the block. -/
inductive MoviVal where
  | imm (v : BitVec 29)
  | pool (i : BitVec 3)
deriving DecidableEq, Repr

/-- The half of a 64-bit register that SRD, SWR and TIME name (R401, R416). -/
inductive Half where
  | lo | hi | both
deriving DecidableEq, Repr

/-- The action field of TRET (R420). -/
inductive TretAct where
  | retry | skip | kill
deriving DecidableEq, Repr

/-- What TCNT reads (R415). -/
inductive CntSel where
  | ack | late | live | ahead | chead | free
deriving DecidableEq, Repr

/-- System registers (R402). -/
inductive SysReg where
  | almanac | prio | floor | handler | fpmode | fpflags | base (n : BitVec 3)
  | sram | limit | htab | ways | bw | vcw | trigger | kvpool | clk | kvgive | vigil | ringNext | unmap
deriving DecidableEq, Repr

/-- Where an uncorrectable error strikes (R159): a DRAM granule, a granule of an L2 line, of an L1 line or of a scratchpad. -/
inductive ErrSite where
  | dram (pa : Nat)
  | l2 (asid line gran : Nat)
  | l1 (die tile asid line gran : Nat)
  | scratch (die tile off : Nat)
deriving DecidableEq, Repr

/-- A unit that a snapshot freezes or an unmap marker passes: a context of a tile, an operator unit, an island by its number, a
streamer's queue (R233, R154). -/
inductive UnitRef where
  | ctx (die tile c : Nat)
  | op (die tile u : Nat)
  | island (die isl : Nat)
  | queue (die str q : Nat)
deriving DecidableEq, Repr

/-- One row of spec/opcode_table.json each: 16 grammar rows, 95 block opcodes, 81 events.
The events carry the place they happen at; the spec gives them no encoding. -/
inductive Instr where
  -- grammar words (R66) and the turn of a recovery discard loop (R72)
  | mtch (m : MarkSel)
  | brm (m : LookSel) (l : BitVec 12)
  | swm (l : BitVec 12)
  | jmpn (l : BitVec 12)
  | calln (l : BitVec 12)
  | retn
  | take (i : BitVec 7) (p : Port)
  | takeDrop
  | fire (src : FireSrc) (key : BitVec 2) (i : BitVec 7) (p : Port)
  | emk (c : MarkClass) (src : EmkSrc) (ch : BitVec 6)
  | rcvr (lev : RecLevel) (l : BitVec 12)
  | gwait (c : BitVec 3)
  | acpt
  | acptRestart (l : BitVec 12)
  | gtrap (code : BitVec 12)
  | recoveryDiscard
  -- block instructions (R205)
  | nop (d : Dst)
  | fan (x : XA)
  | steer (x : XA)
  | merge (x : XA)
  | drop
  | movi (d : Dst) (ty : Fmt) (v : MoviVal)
  | tagr (x : XA)
  | mask (x : XA)
  | fill (x : XA)
  | hget (d : Dst) (ty : Fmt) (reg : BitVec 4) (idx : Bool) (lane : BitVec 5)
  | hset (d : Dst) (ty : Fmt) (reg : BitVec 4) (idx : Bool) (lane : BitVec 5)
  | emit (d : Dst) (cls : MarkClass) (payA : Bool) (pay : BitVec 12)
  | add (x : XA)
  | sub (x : XA)
  | mul (x : XA)
  | mulh (x : XA)
  | div (x : XA)
  | rem (x : XA)
  | min (x : XA)
  | max (x : XA)
  | abs (x : XA)
  | neg (x : XA)
  | cmp (x : XA)
  | clz (x : XA)
  | popc (x : XA)
  | and (x : XA)
  | or (x : XA)
  | xor (x : XA)
  | andn (x : XA)
  | shl (x : XA)
  | shr (x : XA)
  | sar (x : XA)
  | fma (x : XA)
  | rcp (x : XA)
  | rsq (x : XA)
  | nrcp (x : XA)
  | nrsq (x : XA)
  | exp2 (x : XA)
  | log2 (x : XA)
  | tanh (x : XA)
  | class (x : XA)
  | rnd (x : XA)
  | cvt (x : XA)
  | pack (x : XA)
  | unpk (x : XA)
  | qdec (x : XA)
  | qenc (x : XA)
  | bsq (x : XA)
  | shfl (x : XA)
  | lred (x : XA)
  | lscn (x : XA)
  | lbct (x : XA)
  | ld (ty : Fmt) (x : XM)
  | st (ty : Fmt) (x : XM)
  | atom (ty : Fmt) (x : XM)
  | cas (ty : Fmt) (x : XM)
  | pref (x : XM)
  | disc (x : XM)
  | wbk (x : XM)
  | inv (x : XM)
  | kvap (ty : Fmt) (x : XM)
  | kvfk (x : XM)
  | xfen (d : Dst) (before after : BitVec 6) (scope : Scope)
  | sbar (d : Dst) (units : BitVec 5) (scope : Scope)
  | bar (d : Dst) (obj : BitVec 6) (scope : Scope) (n : BitVec 8)
  | wload (d : Dst) (obj : BitVec 2) (base : BitVec 3) (wfmt : Fmt) (krows : BitVec 9) (ncols : BitVec 7)
  | wbind (d : Dst) (obj : BitVec 2) (key : BitVec 12) (q : BitVec 9)
  | gath (d : Dst) (chunks : BitVec 4) (fmt : Fmt) (key : BitVec 12)
  | mout (d : Dst) (first count : BitVec 8) (clr : Bool)
  | mclr (d : Dst) (first count : BitVec 8)
  | attn (d : Dst) (obj : BitVec 6) (emit : Bool) (base : BitVec 3)
  | selk (d : Dst) (k : BitVec 6) (gsz : BitVec 3)
  | opset (d : Dst) (obj : BitVec 6) (word : BitVec 5)
  | opget (d : Dst) (obj : BitVec 6) (word : BitVec 5)
  | chset (d : Dst) (obj : BitVec 6) (out : Bool) (sel : BitVec 2)
  | arm (d : Dst) (queue : BitVec 6) (str : BitVec 4) (tpl : BitVec 5) (unbind : Bool)
  | cpy (d : Dst) (tpl : BitVec 6) (str : BitVec 4)
  | wtil (d : Dst) (tpl : BitVec 6) (str : BitVec 4)
  | time (d : Dst) (part : Half)
  | rota (d : Dst) (obj : BitVec 6) (n : BitVec 10) (chain : Bool) (base : BitVec 3)
  | rgrt (d : Dst) (obj : BitVec 6) (slot : BitVec 3) (recur : Bool)
  | rsnd (d : Dst) (obj : BitVec 6) (base : BitVec 3)
  | rstat (d : Dst) (obj : BitVec 6) (hi : Bool)
  | tres (d : Dst) (depth : BitVec 6) (srcA : Bool) (n : BitVec 8)
  | trel (d : Dst) (depth : BitVec 6) (srcA : Bool) (n : BitVec 8)
  | tcnt (d : Dst) (sel : CntSel) (clr : Bool)
  | trap (d : Dst) (code : BitVec 12)
  | tret (d : Dst) (act : TretAct) (srcA : Bool)
  | bkpt (d : Dst) (obj : BitVec 6)
  | halt
  | yld (d : Dst)
  | snap (d : Dst) (base : BitVec 3) (pre : Bool)
  | srd (d : Dst) (obj : BitVec 6) (oth : Bool) (ctx : BitVec 3) (part : Half) (reg : SysReg)
  | swr (d : Dst) (obj : BitVec 6) (oth : Bool) (ctx : BitVec 3) (part : Half) (reg : SysReg)
  | prio (d : Dst) (obj : BitVec 3) (srcA : Bool) (val : BitVec 3)
  -- events of a tile's channels, frames and elements
  | channelTokenArrival (die tile ch : Nat)
  | creditReturn (die tile ch : Nat)
  | boundChannelDelivery (die tile ch : Nat)
  | handlerTableServe (die tile : Nat)
  | frameCommit (die tile ctx : Nat)
  | outputTokenSend (die tile ch : Nat)
  | tagExhausted (die tile ctx : Nat)
  | firingAging (die tile ctx ins frame : Nat)
  | yieldExpiry (die tile ctx : Nat)
  | barEpisodeFill (ep : Nat)
  | faultDelivery (die tile ctx : Nat)
  -- events of the operator units
  | readEmit (die tile unit : Nat)
  | writeStore (die tile unit : Nat)
  | queueToken (die tile : Nat) (send : Bool)
  | fanoutToken (die tile : Nat)
  | routeToken (die tile : Nat)
  | mergeJoinStreams (die tile : Nat)
  | reorderToken (die tile : Nat)
  | gatherIndex (die tile : Nat)
  | intersectPair (die tile : Nat)
  | selectSet (die tile : Nat)
  | reduceToken (die tile : Nat)
  | convertToken (die tile : Nat)
  | parameterWriteEffect (die tile unit : Nat)
  -- events of the islands and streamers
  | chunkIssue (die isl : Nat)
  | islandMarkPass (die isl : Nat)
  | weightFillComplete (die isl : Nat)
  | gathRowCollect (die isl : Nat)
  | templateFire (die str queue : Nat)
  | copyWordLand (die str copy word : Nat)
  | copyFault (die str copy word : Nat)
  | promiseCheck (die tile ctx ins frame : Nat)
  -- events of the carillon
  | grantArrival (die eng : Nat)
  | ringRowArrival (die eng : Nat)
  | rotationEmit (die eng : Nat)
  | queryRowLatch (die eng : Nat)
  | chainPositionRequest (die tile : Nat)
  -- events of the memory system
  | translationWalkComplete (die n : Nat)
  | memoryResponse (die n : Nat)
  | sliceWindowRestart (slice : Nat)
  | routerArbitration (die tile port : Nat)
  | uncorrectableError (site : ErrSite)
  -- launch, snapshot, Vigil
  | launch (part : Nat) (value : W64)
  | restore (part : Nat) (value : W64)
  | launchStart (part : Nat)
  | placement (part die : Nat)
  | sourceStart (part die : Nat)
  | spliceConfig (die tile ctx : Nat)
  | spliceApply (die tile ctx : Nat)
  | launchFinish (part : Nat)
  | snapshotRequest (part slot : Nat) (pre : Bool) (va : Nat)
  | lanternMarkerArrival (u : UnitRef) (ch : Nat)
  | unitSaveComplete (u : UnitRef)
  | snapshotComplete (part : Nat)
  | vigilExpiry (die tile ctx : Nat)
  -- host, boot, health
  | unmap (fn : Nat) (value : W64)
  | unmapMarkerPass (u : UnitRef)
  | unmapComplete
  | handOver (part : Nat) (value : W64)
  | clockChange (part : Nat) (value : W64)
  | clockTakesEffect (part : Nat)
  | reportQueueConsume (part : Nat) (value : W64)
  | checkpoint (value : W64)
  | checkpointWriteComplete
  | checkpointRestore (value : W64)
  | psetup
  | pfree
  | partitionRelease (part : Nat)
  | root
  | fwload
  | install (part : Nat)
  | remove (part : Nat)
  | registerWrite (fn off : Nat) (half : Bool) (value : W64)
  | deviceReset
  | recoveryFetchComplete (image : List Byte)
  | almanacCorrection (die : Nat)
  | healthEvaluation
  | thermalLimit (src : W16)
  | l2SliceRequest (slice : Nat)
  | checkpointReadComplete (ok : Bool)
  | thermalSensorBelowLimit (src : W16)
deriving DecidableEq, Repr

end Sys2Proof
end

