-- ==== Sys2Proof/WellFormed.lean ====
section
/-! DEFINITION. Which instructions are well formed: the type sets, target rules and field ranges that R66, R85 and R206
and the entries of the reference chapters set for one word, and the places an event may name. What a word means beside
the rest of its block (R83, R84, R86, R102) is checked by the block front end, in Machine/Image.lean. -/
namespace Sys2Proof

/-- Elements per lane (R32). -/
def Fmt.epl : Fmt → Nat
  | .i32 | .n32 | .f32 => 1
  | .bf16x2 | .f16x2 => 2
  | .e4m3x4 | .e5m2x4 | .i8x4 | .n8x4 => 4
  | .bs4x8 | .mx4x8 | .q16x8 | .i4x8 => 8

def Fmt.isFloat : Fmt → Bool
  | .f32 | .bf16x2 | .f16x2 | .e4m3x4 | .e5m2x4 => true
  | _ => false

def Fmt.isInt : Fmt → Bool
  | .i32 | .n32 | .i8x4 | .n8x4 | .i4x8 => true
  | _ => false

/-- The type sets of R206 and of the encoding tables R311, R340, R362, R385, R410. -/
inductive TySet where
  | g | i | f | d | zero | classRnd | cvt | scaled | code | bf | word | word32 | mark
deriving DecidableEq, Repr

def TySet.has : TySet → Fmt → Bool
  | .g, t => t.isInt || t.isFloat
  | .i, t => t.isInt
  | .f, t => t == .f32 || t == .bf16x2 || t == .f16x2
  | .d, _ => true
  | .zero, _ => false
  | .classRnd, t => t.isFloat
  | .cvt, t => t.isInt || t.isFloat
  | .scaled, t => t == .bs4x8 || t == .mx4x8
  | .code, t => t == .q16x8
  | .bf, t => t == .bf16x2
  | .word, t => t == .i32 || t == .n32
  | .word32, t => t == .i32 || t == .n32 || t == .f32
  | .mark, _ => false

/-- Which targets an entry admits (R85, R337, R338, R349, R373). -/
inductive DstRule where
  /-- any target -/
  | free
  /-- both targets `none`: DROP, HALT -/
  | bare
  /-- output channels or `none`: EMIT -/
  | mark
  /-- `none` or a port in this or the next frame: NOP, BKPT, TRAP, YLD, whose result has port a's format -/
  | pass
deriving DecidableEq, Repr

def DstRule.allows : DstRule → Target → Bool
  | .free, _ => true
  | .bare, .nowhere => true
  | .bare, _ => false
  | .mark, .chan _ => true
  | .mark, .nowhere => true
  | .mark, _ => false
  | .pass, .same _ _ => true
  | .pass, .next _ _ => true
  | .pass, .nowhere => true
  | .pass, _ => false

def Dst.ok (r : DstRule) (d : Dst) : Bool := r.allows d.ta && r.allows d.tb

/-- Rounding field of an entry: must be 0; 0 to 6 for a float type and 0 otherwise; 0 to 6. -/
inductive RndRule where
  | zero | float | any
deriving DecidableEq, Repr

/-- What the bits of the immediate field of an XA word hold (R200, R311, R357, R398). -/
inductive ImmRule where
  /-- the immediate of R84 when port b is omitted -/
  | r84
  /-- zero, or the replacement in [7:0] when the empty policy is 3 -/
  | x8
  /-- always zero -/
  | zero
  /-- CVT: source format in [19:16] -/
  | cvt
  /-- LBCT, LRED, LSCN and SHFL: group size in [15:13], lane in [12:8] -/
  | lane
deriving DecidableEq, Repr

/-- One row of the encoding tables of the XA entries. `cond` is the number of values of the cond field. -/
structure XARule where
  tys : TySet
  rnd : RndRule
  sat : Bool
  empties : List EmptyPol
  cond : Nat
  imm : ImmRule
deriving DecidableEq, Repr

def allEmpties : List EmptyPol := [.absorb, .forward, .zero, .imm]

/-- Source format of a CVT, X[19:16] (R334): the codes of the types it converts. -/
def cvtSource (imm : BitVec 20) : Option Fmt :=
  match (imm.extractLsb' 16 4).toNat with
  | 0x2 => some .i32 | 0x3 => some .n32 | 0x4 => some .f32 | 0x6 => some .bf16x2 | 0x7 => some .f16x2
  | 0x8 => some .e4m3x4 | 0x9 => some .e5m2x4 | 0xA => some .i8x4 | 0xB => some .n8x4 | 0xF => some .i4x8
  | _ => none

/-- Fields of the lane entries (R357, R398): reserved bits zero and a group of at most 32 frames. -/
def laneImmOk (imm : BitVec 20) : Bool :=
  imm.extractLsb' 16 4 == 0 && imm.extractLsb' 0 8 == 0 && decide ((imm.extractLsb' 13 3).toNat ≤ 5)

def laneGroup (imm : BitVec 20) : Nat := 2 ^ (imm.extractLsb' 13 3).toNat
def laneArg (imm : BitVec 20) : Nat := (imm.extractLsb' 8 5).toNat

def ImmRule.ok (r : ImmRule) (x : XA) : Bool :=
  match r with
  | .r84 => true
  | .x8 => if x.empty = .imm then x.imm.extractLsb' 8 12 == 0 else x.imm == 0
  | .zero => x.imm == 0
  | .cvt =>
    (match cvtSource x.imm with
      | some s => decide (x.cond.toNat < max 1 (s.epl / x.ty.epl))
      | none => false) &&
    x.imm.extractLsb' 8 8 == 0 && (x.empty == .imm || x.imm.extractLsb' 0 8 == 0)
  | .lane => laneImmOk x.imm

/-- The X-field part of an XA row (reason 7). -/
def XARule.fieldsOk (r : XARule) (x : XA) : Bool :=
  (match r.rnd with
    | .zero => x.rnd == .rne
    | .float => x.ty.isFloat || x.rnd == .rne
    | .any => true) &&
  (r.sat || x.sat == .off) && r.empties.contains x.empty && decide (x.cond.toNat < r.cond) && r.imm.ok x

def XA.ok (r : XARule) (x : XA) : Bool := r.tys.has x.ty && r.fieldsOk x

/-- Row of the tables for an element entry `y := Op(x, z)` with port b. -/
def rule2 (tys : TySet) (rnd : RndRule) (sat : Bool) : XARule := ⟨tys, rnd, sat, allEmpties, 1, .r84⟩
/-- Row of the tables for an entry with port a only. -/
def rule1 (tys : TySet) (rnd : RndRule) (sat : Bool) (cond : Nat) : XARule := ⟨tys, rnd, sat, allEmpties, cond, .x8⟩
/-- Row of the tables for an entry whose empty policy is fixed. -/
def ruleFixed (tys : TySet) (rnd : RndRule) (cond : Nat) (imm : ImmRule) : XARule := ⟨tys, rnd, false, [.absorb], cond, imm⟩
/-- Row of the lane entries (R357). -/
def ruleLane (sat : Bool) (rnd : RndRule) (cond : Nat) : XARule := ⟨.d, rnd, sat, [.absorb, .zero], cond, .lane⟩
/-- Row of CVT: every format but the block-scaled and the codebook ones, source format and part in the immediate (R334). -/
def ruleCvt : XARule := ⟨.cvt, .any, true, allEmpties, 8, .cvt⟩
def ruleQdec : XARule := ⟨.bf, .zero, false, [.absorb, .forward, .zero], 4, .zero⟩

/-- PACK and UNPK name no cond for the one-element types (R379, R421). -/
def halvesOk (t : Fmt) : Bool := decide (t.epl ≠ 1)

/-- The pairing of cond with TY and the range of the lane field for LRED and LSCN (R357). -/
def foldOk (x : XA) : Bool :=
  (if x.cond.toNat < 3 then TySet.g.has x.ty else TySet.i.has x.ty) &&
  (x.cond == 0 || x.sat == .off) && decide (laneArg x.imm = 0)

def shflOk (x : XA) : Bool :=
  decide (laneArg x.imm < laneGroup x.imm) && (x.cond != 0 || decide (laneArg x.imm = 0))

/-- Fields of the XM entries: orders, scopes, policy and the largest aop (R178, R201 and the entries). -/
structure XMRule where
  orders : List Order
  scopes : List Scope
  pol : Bool
  aop : Nat
deriving DecidableEq, Repr

def allScopes : List Scope := [.tile, .die, .package, .ring, .system]

def XM.ok (r : XMRule) (x : XM) : Bool :=
  r.orders.contains x.order && r.scopes.contains x.scope && (r.pol || x.pol == .normal) && decide (x.aop.toNat ≤ r.aop)

def ruleLd : XMRule := ⟨[.plain, .acquire], allScopes, true, 0⟩
def ruleSt : XMRule := ⟨[.plain, .release], allScopes, true, 0⟩
def ruleAtom : XMRule := ⟨[.plain, .acquire, .release, .acqRel], allScopes, true, 6⟩
def ruleCas : XMRule := ⟨[.plain, .acquire, .release, .acqRel], allScopes, true, 0⟩
def rulePref : XMRule := ⟨[.plain], [.tile, .die], true, 15⟩
def ruleRange : XMRule := ⟨[.plain, .release], allScopes, false, 15⟩
def ruleInv : XMRule := ⟨[.plain], [.tile], false, 15⟩
def ruleKvap : XMRule := ⟨[.plain, .release], [.die, .package, .ring, .system], true, 7⟩
def ruleKvfk : XMRule := ⟨[.plain, .release], [.die, .package, .ring, .system], true, 0⟩

/-- Width in bits of a system register and whether an SRD or SWR may name a half of it (R401, R402). -/
def SysReg.wide : SysReg → Bool
  | .almanac | .floor | .base _ | .limit | .htab | .trigger | .kvpool | .kvgive | .vigil | .ringNext | .unmap => true
  | .prio | .handler | .fpmode | .fpflags | .sram | .ways | .bw | .vcw | .clk => false

def sysOk (obj : BitVec 6) (oth : Bool) (ctx : BitVec 3) (part : Half) (reg : SysReg) : Bool :=
  (reg == .htab || obj == 0) && (oth || ctx == 0) && (reg.wide || part == .lo)

/-- Format a weight word may name, and the largest krows field of it (R279); q16x8 is decoded to bf16, whose chunks are 128 deep (R127). -/
def wloadDepth : Fmt → Option Nat
  | .bf16x2 | .f16x2 | .q16x8 => some 127
  | .e4m3x4 | .e5m2x4 => some 255
  | .bs4x8 | .mx4x8 => some 511
  | _ => none

def gathFmtOk : Fmt → Bool
  | .bf16x2 | .f16x2 | .e4m3x4 | .e5m2x4 => true
  | _ => false

/-- The H bit of an XFEN set stands only with system scope, and neither set is empty (R428). -/
def xfenOk (before after : BitVec 6) (scope : Scope) : Bool :=
  before != 0 && after != 0 && (scope == .system || (before ||| after).getLsbD 5 == false)

def dies : Nat := 4
def tilesPerDie : Nat := 144

def UnitRef.ok : UnitRef → Bool
  | .ctx d t c => decide (d < dies ∧ t < tilesPerDie ∧ c < 8)
  | .op d t u => decide (d < dies ∧ t < tilesPerDie ∧ 18 ≤ u ∧ u < 32)
  | .island d t => decide (d < dies ∧ t < 44)
  | .queue d s q => decide (d < dies ∧ s < 12 ∧ q < 64)

def tileOk (d t : Nat) : Bool := decide (d < dies ∧ t < tilesPerDie)

/-- A channel ends at a tile or at a streamer island (R20, R109). -/
def endOk (d t c : Nat) : Bool := (tileOk d t || decide (d < dies ∧ 176 ≤ t ∧ t < 188)) && decide (c < 64)

/-- The instruction is one that a word of the spec, or an event at an existing place, stands for. -/
def Instr.wf : Instr → Bool
  | .mtch _ | .brm _ _ | .swm _ | .jmpn _ | .calln _ | .retn | .take _ _ | .takeDrop | .fire _ _ _ _ | .emk _ _ _
  | .gwait _ | .acpt | .acptRestart _ | .gtrap _ | .recoveryDiscard => true
  | .rcvr lev l => lev != .off || l == 0
  | .nop d => d.ok .pass
  | .fan x => x.ok (rule1 .d .zero false 1)
  | .steer x => x.ok (ruleFixed .d .zero 1 .r84)
  | .merge x => x.ok (ruleFixed .d .zero 1 .r84)
  | .drop => true
  | .movi _ ty _ => TySet.word32.has ty
  | .tagr x => x.ok (rule1 .word .zero false 8)
  | .mask x => x.ok (ruleFixed .d .zero 2 .zero)
  | .fill x => x.ok (ruleFixed .d .zero 1 .r84)
  | .hget _ _ _ idx lane => !idx || lane == 0
  | .hset _ _ _ idx lane => !idx || lane == 0
  | .emit d _ payA pay => d.ok .mark && (!payA || pay == 0)
  | .add x | .sub x | .mul x => x.ok (rule2 .g .float true)
  | .min x | .max x => x.ok (rule2 .g .zero true)
  | .mulh x | .rem x | .and x | .or x | .xor x | .andn x | .shl x | .shr x | .sar x => x.ok (rule2 .i .zero false)
  | .div x => x.ok (rule2 .i .zero true)
  | .abs x | .neg x => x.ok (rule1 .g .zero true 1)
  | .cmp x => x.ok { rule2 .g .zero false with cond := 8 } && (x.ty.isFloat || decide (x.cond.toNat < 6))
  | .clz x | .popc x => x.ok (rule1 .i .zero false 1)
  | .fma x => x.ok { rule2 .f .any true with cond := 4 }
  | .rcp x | .rsq x => x.ok (rule1 .f .zero true 1)
  | .nrcp x | .nrsq x => x.ok (rule2 .f .any true)
  | .exp2 x | .log2 x => x.ok (rule1 .f .any true 1)
  | .tanh x => x.ok (rule1 .f .any false 1)
  | .class x => x.ok (rule1 .classRnd .zero false 1)
  | .rnd x => x.ok (rule1 .classRnd .any false 2)
  | .cvt x => x.ok ruleCvt
  | .pack x => x.ok { rule2 .d .zero false with cond := 4 } && halvesOk x.ty
  | .unpk x => x.ok (rule1 .d .zero false 4) && halvesOk x.ty
  | .qdec x => x.ok ruleQdec
  | .qenc x => x.ok (ruleFixed .code .zero 1 .zero)
  | .bsq x => x.ok (ruleFixed .scaled .any 1 .zero)
  | .shfl x => x.ok (ruleLane false .zero 5) && shflOk x
  | .lred x | .lscn x => x.ok (ruleLane true .float 6) && foldOk x
  | .lbct x => x.ok (ruleLane false .zero 1) && decide (laneArg x.imm < laneGroup x.imm)
  | .ld _ x => x.ok ruleLd
  | .st _ x => x.ok ruleSt
  | .atom ty x => TySet.word32.has ty && x.ok ruleAtom && (ty != .f32 || decide (x.aop.toNat ≤ 3))
  | .cas ty x => TySet.word32.has ty && x.ok ruleCas
  | .pref x => x.ok rulePref
  | .disc x | .wbk x => x.ok ruleRange
  | .inv x => x.ok ruleInv
  | .kvap _ x => x.ok ruleKvap
  | .kvfk x => x.ok ruleKvfk
  | .xfen _ b a sc => xfenOk b a sc
  | .sbar _ u _ => u != 0
  | .bar _ _ _ _ => true
  | .wload _ _ _ f k _ => (match wloadDepth f with | some m => decide (k.toNat ≤ m) | none => false)
  | .wbind _ _ _ _ => true
  | .gath _ _ f _ => gathFmtOk f
  | .mout _ a c _ | .mclr _ a c => decide (a.toNat + c.toNat ≤ 255)
  | .attn _ o _ _ => decide (o.toNat ≤ 21)
  | .selk _ k g => decide (g.toNat ≤ 5 ∧ k.toNat < 2 ^ g.toNat)
  | .opset _ o w | .opget _ o w => decide (18 ≤ o.toNat ∧ o.toNat ≤ 32 ∧ w.toNat ≤ 16)
  | .chset _ _ _ sel => decide (sel.toNat ≤ 2)
  | .arm _ _ s t u => decide (s.toNat ≤ 11) && (!u || t == 0)
  | .cpy _ t s | .wtil _ t s => decide (t.toNat ≤ 31 ∧ s.toNat ≤ 11)
  | .time _ _ => true
  | .rota _ o _ _ _ | .rgrt _ o _ _ | .rsnd _ o _ | .rstat _ o _ => decide (o.toNat ≤ 21)
  | .tres _ dp a n | .trel _ dp a n => decide (dp.toNat ≤ 5) && (!a || n == 0)
  | .tcnt _ sel clr => !clr || sel == .ack || sel == .late
  | .trap d _ => d.ok .pass
  | .tret _ act a => !a || act == .retry
  | .bkpt d _ => d.ok .pass
  | .halt => true
  | .yld d => d.ok .pass
  | .snap _ _ _ => true
  | .srd _ obj oth c part reg => sysOk obj oth c part reg
  | .swr _ obj oth c part reg => sysOk obj oth c part reg && (reg != .trigger || part == .both)
  | .prio _ _ a v => !a || v == 0
  | .channelTokenArrival d t c => endOk d t c
  | .creditReturn d t c | .boundChannelDelivery d t c | .outputTokenSend d t c => tileOk d t && decide (c < 64)
  | .handlerTableServe d t | .queueToken d t _ | .fanoutToken d t | .routeToken d t | .mergeJoinStreams d t
  | .reorderToken d t | .gatherIndex d t | .intersectPair d t | .selectSet d t | .reduceToken d t | .convertToken d t =>
    tileOk d t
  | .frameCommit d t c | .tagExhausted d t c | .yieldExpiry d t c | .faultDelivery d t c | .spliceConfig d t c
  | .spliceApply d t c | .vigilExpiry d t c => tileOk d t && decide (c < 8)
  | .firingAging d t c i _ | .promiseCheck d t c i _ => tileOk d t && decide (c < 8 ∧ i < 128)
  | .barEpisodeFill _ => true
  | .readEmit d t u => tileOk d t && decide (u < 2)
  | .writeStore d t u => tileOk d t && decide (u < 2)
  | .parameterWriteEffect d t u => tileOk d t && decide (18 ≤ u ∧ u ≤ 32)
  | .chunkIssue d t | .islandMarkPass d t | .weightFillComplete d t | .gathRowCollect d t => decide (d < dies ∧ t < 44)
  | .templateFire d s q => decide (d < dies ∧ s < 12 ∧ q < 64)
  | .copyWordLand _ _ _ _ | .copyFault _ _ _ _ => true
  | .grantArrival d e | .ringRowArrival d e | .rotationEmit d e | .queryRowLatch d e => decide (d < dies ∧ e < 22)
  | .chainPositionRequest d t => tileOk d t
  | .translationWalkComplete d _ | .memoryResponse d _ => decide (d < dies)
  | .sliceWindowRestart s | .l2SliceRequest s => decide (s < 128)
  | .routerArbitration d t p => decide (d < dies ∧ t < 256 ∧ p < 6)
  | .uncorrectableError _ => true
  | .launch p _ | .restore p _ | .launchStart p | .launchFinish p | .snapshotRequest p _ _ _ | .snapshotComplete p
  | .handOver p _ | .clockChange p _ | .clockTakesEffect p | .reportQueueConsume p _ | .partitionRelease p
  | .install p | .remove p => decide (p < 32)
  | .placement p d | .sourceStart p d => decide (p < 32 ∧ d < dies)
  | .lanternMarkerArrival u _ | .unitSaveComplete u | .unmapMarkerPass u => u.ok
  | .unmap f _ | .registerWrite f _ _ _ => decide (f ≤ 32)
  | .unmapComplete | .checkpoint _ | .checkpointWriteComplete | .checkpointRestore _ | .psetup | .pfree | .root | .fwload
  | .deviceReset | .recoveryFetchComplete _ | .healthEvaluation | .thermalLimit _ | .checkpointReadComplete _
  | .thermalSensorBelowLimit _ => true
  | .almanacCorrection d => decide (d < dies)

end Sys2Proof
end

