-- ==== Sys2Proof/Decode.lean ====
section
/-! DEFINITION. Decoding of grammar words (R65, R66) and block instruction words (R198 to R206), total on any bits and
refusing by the reasons of R208; after it the encoder, written from the same tables. The events of the opcode table have
no encoding. -/
namespace Sys2Proof

/-- Why a word, a header or a grammar region is refused (R208). -/
inductive Reason where
  | magic | header | bitmap | opcode | format | target | xfield | immediate | commit
  | grammarOp | grammarField | label | table | recovery
deriving DecidableEq, Repr

def Reason.code : Reason → Nat
  | .magic => 1 | .header => 2 | .bitmap => 3 | .opcode => 4 | .format => 5 | .target => 6 | .xfield => 7
  | .immediate => 8 | .commit => 9 | .grammarOp => 16 | .grammarField => 17 | .label => 18 | .table => 19
  | .recovery => 20

/-! ### Codes of the enumerated fields -/

def Fmt.code : Fmt → BitVec 4
  | .i32 => 0x2 | .n32 => 0x3 | .f32 => 0x4 | .bf16x2 => 0x6 | .f16x2 => 0x7 | .e4m3x4 => 0x8 | .e5m2x4 => 0x9
  | .i8x4 => 0xA | .n8x4 => 0xB | .bs4x8 => 0xC | .mx4x8 => 0xD | .q16x8 => 0xE | .i4x8 => 0xF

/-- Format words of R32; EMPTY, MARK and the reserved code are no data format. -/
def Fmt.ofCode (c : BitVec 4) : Option Fmt :=
  match c.toNat with
  | 0x2 => some .i32 | 0x3 => some .n32 | 0x4 => some .f32 | 0x6 => some .bf16x2 | 0x7 => some .f16x2
  | 0x8 => some .e4m3x4 | 0x9 => some .e5m2x4 | 0xA => some .i8x4 | 0xB => some .n8x4 | 0xC => some .bs4x8
  | 0xD => some .mx4x8 | 0xE => some .q16x8 | 0xF => some .i4x8 | _ => none

def MarkClass.code : MarkClass → BitVec 4
  | .er => 1 | .eg => 2 | .es => 3 | .eb => 4 | .eos => 5 | .u0 => 6 | .u1 => 7 | .u2 => 8 | .u3 => 9

def MarkClass.ofCode (c : BitVec 4) : Option MarkClass :=
  match c.toNat with
  | 1 => some .er | 2 => some .eg | 3 => some .es | 4 => some .eb | 5 => some .eos | 6 => some .u0 | 7 => some .u1
  | 8 => some .u2 | 9 => some .u3 | _ => none

def MarkSel.code : MarkSel → BitVec 4
  | .one c => c.code
  | .any => 15

def MarkSel.ofCode (c : BitVec 4) : Option MarkSel :=
  if c = 15 then some .any else (MarkClass.ofCode c).map .one

def LookSel.code : LookSel → BitVec 4
  | .data => 0
  | .one c => c.code
  | .any => 15

def LookSel.ofCode (c : BitVec 4) : Option LookSel :=
  if c = 0 then some .data else if c = 15 then some .any else (MarkClass.ofCode c).map .one

def Port.code : Port → BitVec 2
  | .a => 0 | .b => 1 | .c => 2 | .w => 3

def Port.ofCode (c : BitVec 2) : Port :=
  match c.toNat with
  | 0 => .a | 1 => .b | 2 => .c | _ => .w

/-- The 11-bit encoding of a target (R85, R194). -/
def Target.bits : Target → BitVec 11
  | .same i p => (0 : BitVec 2) ++ i ++ p.code
  | .next i p => (1 : BitVec 2) ++ i ++ p.code
  | .chan n => (2 : BitVec 2) ++ n ++ (0 : BitVec 3)
  | .nowhere => 0x600
  | .seq => 0x604

/-- A target as R85 checks it; a reserved special, a set bit [2] of a channel or a port field other than 0 there is none. -/
def Target.ofBits (t : BitVec 11) : Option Target :=
  match (t.extractLsb' 9 2).toNat with
  | 0 => some (.same (t.extractLsb' 2 7) (Port.ofCode (t.extractLsb' 0 2)))
  | 1 => some (.next (t.extractLsb' 2 7) (Port.ofCode (t.extractLsb' 0 2)))
  | 2 => if t.extractLsb' 0 3 = 0 then some (.chan (t.extractLsb' 3 6)) else none
  | _ => if t = 0x600 then some .nowhere else if t = 0x604 then some .seq else none

def Rnd.code : Rnd → BitVec 3
  | .rne => 0 | .rtz => 1 | .rup => 2 | .rdn => 3 | .rna => 4 | .sto => 5 | .dyn => 6

def Rnd.ofCode (c : BitVec 3) : Option Rnd :=
  match c.toNat with
  | 0 => some .rne | 1 => some .rtz | 2 => some .rup | 3 => some .rdn | 4 => some .rna | 5 => some .sto
  | 6 => some .dyn | _ => none

def Sat.code : Sat → BitVec 2
  | .off => 0 | .clamp => 1 | .finite => 2

def Sat.ofCode (c : BitVec 2) : Option Sat :=
  match c.toNat with
  | 0 => some .off | 1 => some .clamp | 2 => some .finite | _ => none

def EmptyPol.code : EmptyPol → BitVec 2
  | .absorb => 0 | .forward => 1 | .zero => 2 | .imm => 3

def EmptyPol.ofCode (c : BitVec 2) : EmptyPol :=
  match c.toNat with
  | 0 => .absorb | 1 => .forward | 2 => .zero | _ => .imm

def Scope.code : Scope → BitVec 3
  | .tile => 0 | .die => 1 | .package => 2 | .ring => 3 | .system => 4

def Scope.ofCode (c : BitVec 3) : Option Scope :=
  match c.toNat with
  | 0 => some .tile | 1 => some .die | 2 => some .package | 3 => some .ring | 4 => some .system | _ => none

def Order.code : Order → BitVec 2
  | .plain => 0 | .acquire => 1 | .release => 2 | .acqRel => 3

def Order.ofCode (c : BitVec 2) : Order :=
  match c.toNat with
  | 0 => .plain | 1 => .acquire | 2 => .release | _ => .acqRel

def Pol.code : Pol → BitVec 2
  | .normal => 0 | .stream => 1 | .keep => 2 | .last => 3

def Pol.ofCode (c : BitVec 2) : Pol :=
  match c.toNat with
  | 0 => .normal | 1 => .stream | 2 => .keep | _ => .last

def RecLevel.code : RecLevel → BitVec 3
  | .off => 0 | .er => 1 | .eg => 2 | .es => 3 | .eb => 4 | .eos => 7

def RecLevel.ofCode (c : BitVec 3) : Option RecLevel :=
  match c.toNat with
  | 0 => some .off | 1 => some .er | 2 => some .eg | 3 => some .es | 4 => some .eb | 7 => some .eos | _ => none

def FireSrc.code : FireSrc → BitVec 3
  | .zero => 0 | .o1 => 1 | .o2 => 2 | .o3 => 3 | .o4 => 4 | .lanes => 5 | .dcnt => 6 | .mpay => 7

def FireSrc.ofCode (c : BitVec 3) : FireSrc :=
  match c.toNat with
  | 0 => .zero | 1 => .o1 | 2 => .o2 | 3 => .o3 | 4 => .o4 | 5 => .lanes | 6 => .dcnt | _ => .mpay

def EmkSrc.code : EmkSrc → BitVec 3
  | .zero => 0 | .o1 => 1 | .o2 => 2 | .o3 => 3 | .o4 => 4 | .mpay => 7

def EmkSrc.ofCode (c : BitVec 3) : Option EmkSrc :=
  match c.toNat with
  | 0 => some .zero | 1 => some .o1 | 2 => some .o2 | 3 => some .o3 | 4 => some .o4 | 7 => some .mpay | _ => none

def Half.code : Half → BitVec 2
  | .lo => 0 | .hi => 1 | .both => 2

def Half.ofCode (c : BitVec 2) : Option Half :=
  match c.toNat with
  | 0 => some .lo | 1 => some .hi | 2 => some .both | _ => none

def TretAct.code : TretAct → BitVec 2
  | .retry => 0 | .skip => 1 | .kill => 2

def TretAct.ofCode (c : BitVec 2) : Option TretAct :=
  match c.toNat with
  | 0 => some .retry | 1 => some .skip | 2 => some .kill | _ => none

def CntSel.code : CntSel → BitVec 6
  | .ack => 0 | .late => 1 | .live => 2 | .ahead => 3 | .chead => 4 | .free => 5

def CntSel.ofCode (c : BitVec 6) : Option CntSel :=
  match c.toNat with
  | 0 => some .ack | 1 => some .late | 2 => some .live | 3 => some .ahead | 4 => some .chead | 5 => some .free
  | _ => none

def SysReg.id : SysReg → BitVec 12
  | .almanac => 0x000 | .prio => 0x010 | .floor => 0x011 | .handler => 0x012 | .fpmode => 0x013 | .fpflags => 0x014
  | .base n => (0x3 : BitVec 9) ++ n
  | .sram => 0x020 | .limit => 0x021 | .htab => 0x040 | .ways => 0x080 | .bw => 0x081 | .vcw => 0x082
  | .trigger => 0x083 | .kvpool => 0x084 | .clk => 0x085 | .kvgive => 0x086 | .vigil => 0x087 | .ringNext => 0x088
  | .unmap => 0x0C0

/-- Register ids of R402. -/
def SysReg.ofId (c : BitVec 12) : Option SysReg :=
  if c.extractLsb' 3 9 = 0x3 then some (.base (c.extractLsb' 0 3)) else
  match c.toNat with
  | 0x000 => some .almanac | 0x010 => some .prio | 0x011 => some .floor | 0x012 => some .handler
  | 0x013 => some .fpmode | 0x014 => some .fpflags | 0x020 => some .sram | 0x021 => some .limit
  | 0x040 => some .htab | 0x080 => some .ways | 0x081 => some .bw | 0x082 => some .vcw | 0x083 => some .trigger
  | 0x084 => some .kvpool | 0x085 => some .clk | 0x086 => some .kvgive | 0x087 => some .vigil
  | 0x088 => some .ringNext | 0x0C0 => some .unmap | _ => none

/-! ### Grammar words -/

/-- The fields of a grammar word (R65). -/
structure GFields where
  gop : BitVec 5
  mc : BitVec 4
  lv : BitVec 3
  aux : BitVec 4
  lbl : BitVec 16
deriving DecidableEq, Repr

def GFields.split (w : W32) : GFields :=
  ⟨w.extractLsb' 27 5, w.extractLsb' 23 4, w.extractLsb' 20 3, w.extractLsb' 16 4, w.extractLsb' 0 16⟩

def GFields.join (f : GFields) : W32 := f.gop ++ f.mc ++ f.lv ++ f.aux ++ f.lbl

/-- MC, LV and AUX are zero. -/
def GFields.plain (f : GFields) : Bool := f.mc == 0 && f.lv == 0 && f.aux == 0

/-- A word address of R65: bits [15:12] are zero. -/
def labelOf (l : BitVec 16) : Option (BitVec 12) := if l.extractLsb' 12 4 = 0 then some (l.extractLsb' 0 12) else none

/-- A kind 00 target in LBL (R66). -/
def takeTarget (l : BitVec 16) : Option (BitVec 7 × Port) :=
  if l.extractLsb' 9 7 = 0 then some (l.extractLsb' 2 7, Port.ofCode (l.extractLsb' 0 2)) else none

/-- The instruction of a grammar word with GOP in range, by the table of R66; `none` where a field is outside its range. -/
def grammarOf (f : GFields) : Option Instr :=
  match f.gop.toNat with
  | 0x01 => if f.lv == 0 && f.aux == 0 && f.lbl == 0 then (MarkSel.ofCode f.mc).map .mtch else none
  | 0x02 =>
    if f.lv == 0 && f.aux == 0 then
      match LookSel.ofCode f.mc, labelOf f.lbl with
      | some m, some l => some (.brm m l)
      | _, _ => none
    else none
  | 0x03 => if f.plain then (labelOf f.lbl).map .swm else none
  | 0x04 => if f.plain then (labelOf f.lbl).map .jmpn else none
  | 0x05 => if f.plain then (labelOf f.lbl).map .calln else none
  | 0x06 => if f.plain && f.lbl == 0 then some .retn else none
  | 0x07 =>
    if f.mc == 0 && f.aux == 0 then
      if f.lv == 0 then (takeTarget f.lbl).map fun t => .take t.1 t.2
      else if f.lv == 1 && f.lbl == 0 then some .takeDrop else none
    else none
  | 0x08 =>
    if f.mc == 0 && f.aux.extractLsb' 2 2 == 0 then
      (takeTarget f.lbl).map fun t => .fire (FireSrc.ofCode f.lv) (f.aux.extractLsb' 0 2) t.1 t.2
    else none
  | 0x09 =>
    if f.aux == 0 && f.lbl.extractLsb' 6 10 == 0 then
      match MarkClass.ofCode f.mc, EmkSrc.ofCode f.lv with
      | some c, some s => some (.emk c s (f.lbl.extractLsb' 0 6))
      | _, _ => none
    else none
  | 0x0A =>
    if f.mc == 0 && f.aux == 0 then
      match RecLevel.ofCode f.lv, labelOf f.lbl with
      | some v, some l => if v == .off && l != 0 then none else some (.rcvr v l)
      | _, _ => none
    else none
  | 0x0B =>
    if f.mc.extractLsb' 3 1 == 0 && f.lv == 0 && f.aux == 0 && f.lbl == 0 then some (.gwait (f.mc.extractLsb' 0 3))
    else none
  | 0x0C =>
    if f.mc == 0 && f.aux == 0 then
      if f.lv == 0 && f.lbl == 0 then some .acpt
      else if f.lv == 1 then (labelOf f.lbl).map .acptRestart else none
    else none
  | 0x0D => if f.plain then (labelOf f.lbl).map .gtrap else none
  | _ => none

def decodeGrammar (w : W32) : Except Reason Instr :=
  let f := GFields.split w
  if f.gop = 0 ∨ 0x0E ≤ f.gop.toNat then .error .grammarOp
  else match grammarOf f with
    | some i => .ok i
    | none => .error .grammarField

/-! ### Block words -/

/-- The fields of a block word (R198). -/
structure Fields where
  op : BitVec 8
  ty : BitVec 4
  ta : BitVec 11
  tb : BitVec 11
  x : BitVec 30
deriving DecidableEq, Repr

def Fields.split (w : W64) : Fields :=
  ⟨w.extractLsb' 56 8, w.extractLsb' 52 4, w.extractLsb' 41 11, w.extractLsb' 30 11, w.extractLsb' 0 30⟩

def Fields.join (f : Fields) : W64 := f.op ++ f.ty ++ f.ta ++ f.tb ++ f.x

/-- The opcode map (R205): the type set of each opcode (R206) and the rule for its targets; `none` is a reserved cell. -/
def opcodeMap (op : BitVec 8) : Option (TySet × DstRule) :=
  match op.toNat with
  | 0x00 | 0xF0 | 0xF2 | 0xF4 => some (.zero, .pass)
  | 0x01 | 0x02 | 0x03 | 0x07 | 0x08 | 0x09 | 0x0A | 0x41 | 0x42 | 0x50 | 0x51 | 0x52 | 0x53 | 0x60 | 0x61 | 0x68 =>
  some (.d, .free)
  | 0x04 | 0xF3 => some (.zero, .bare)
  | 0x05 | 0x62 | 0x63 => some (.word32, .free)
  | 0x06 => some (.word, .free)
  | 0x0B => some (.mark, .mark)
  | 0x10 | 0x11 | 0x12 | 0x16 | 0x17 | 0x18 | 0x19 | 0x1A => some (.g, .free)
  | 0x13 | 0x14 | 0x15 | 0x1B | 0x1C | 0x20 | 0x21 | 0x22 | 0x23 | 0x24 | 0x25 | 0x26 => some (.i, .free)
  | 0x30 | 0x31 | 0x32 | 0x33 | 0x34 | 0x35 | 0x36 | 0x37 => some (.f, .free)
  | 0x38 | 0x39 => some (.classRnd, .free)
  | 0x40 => some (.cvt, .free)
  | 0x43 => some (.bf, .free)
  | 0x44 => some (.code, .free)
  | 0x45 => some (.scaled, .free)
  | 0x64 | 0x65 | 0x66 | 0x67 | 0x69 | 0x70 | 0x71 | 0x72 | 0x80 | 0x81 | 0x82 | 0x83 | 0x84 | 0x85 | 0x86 | 0x90 |
  0x91 | 0x92 | 0x93 | 0x94 | 0x95 | 0x96 | 0xA0 | 0xA1 | 0xA2 | 0xA3 | 0xB0 | 0xB1 | 0xB2 | 0xF1 | 0xF5 | 0xF6 |
  0xF7 | 0xF8 => some (.zero, .free)
  | _ => none

/-- The TY field lies in the opcode's type set (reason 5). -/
def tyOk (s : TySet) (ty : BitVec 4) : Bool :=
  match s with
  | .zero => ty == 0
  | .mark => ty == 1
  | s => match Fmt.ofCode ty with
    | some t => s.has t
    | none => false

/-- The XA layout (R200). -/
def XA.ofBits (d : Dst) (ty : Fmt) (x : BitVec 30) : Option XA :=
  match Rnd.ofCode (x.extractLsb' 27 3), Sat.ofCode (x.extractLsb' 25 2) with
  | some r, some s =>
    some ⟨d, ty, r, s, EmptyPol.ofCode (x.extractLsb' 23 2), x.extractLsb' 20 3, x.extractLsb' 0 20⟩
  | _, _ => none

def XA.bits (x : XA) : BitVec 30 := x.rnd.code ++ x.sat.code ++ x.empty.code ++ x.cond ++ x.imm

/-- The XM layout (R201). -/
def XM.ofBits (d : Dst) (x : BitVec 30) : Option XM :=
  (Scope.ofCode (x.extractLsb' 24 3)).map fun sc =>
    ⟨d, x.extractLsb' 27 3, sc, Order.ofCode (x.extractLsb' 22 2), Pol.ofCode (x.extractLsb' 20 2),
      x.extractLsb' 16 4, x.extractLsb' 0 16⟩

def XM.bits (x : XM) : BitVec 30 := x.base ++ x.scope.code ++ x.order.code ++ x.pol.code ++ x.aop ++ x.off

def xaOf (mk : XA → Instr) (d : Dst) (ty : BitVec 4) (x : BitVec 30) : Option Instr :=
  (Fmt.ofCode ty).bind fun t => (XA.ofBits d t x).map mk

def xmOf (mk : XM → Instr) (d : Dst) (x : BitVec 30) : Option Instr := (XM.ofBits d x).map mk

def xmtOf (mk : Fmt → XM → Instr) (d : Dst) (ty : BitVec 4) (x : BitVec 30) : Option Instr :=
  (Fmt.ofCode ty).bind fun t => (XM.ofBits d x).map (mk t)

/-- The bits [lo + n - 1 : lo] of an X field are zero. -/
def clear (x : BitVec 30) (lo n : Nat) : Bool := x.extractLsb' lo n == 0

def bit (x : BitVec 30) (i : Nat) : Bool := x.getLsbD i

def bit1 (b : Bool) : BitVec 1 := BitVec.ofBool b

/-- HGET and HSET (R350). -/
def holdOf (mk : Dst → Fmt → BitVec 4 → Bool → BitVec 5 → Instr) (d : Dst) (ty : BitVec 4) (x : BitVec 30) : Option Instr :=
  if clear x 28 2 && clear x 5 18 then
    (Fmt.ofCode ty).map fun t => mk d t (x.extractLsb' 24 4) (bit x 23) (x.extractLsb' 0 5)
  else none

/-- SRD and SWR (R401). -/
def sysOf (mk : Dst → BitVec 6 → Bool → BitVec 3 → Half → SysReg → Instr) (d : Dst) (x : BitVec 30) : Option Instr :=
  if clear x 18 6 then
    match Half.ofCode (x.extractLsb' 12 2), SysReg.ofId (x.extractLsb' 0 12) with
    | some h, some r => some (mk d (x.extractLsb' 24 6) (bit x 17) (x.extractLsb' 14 3) h r)
    | _, _ => none
  else none

/-- The instruction of an opcode, with the X field read in the opcode's layout; `none` where a field holds no value. -/
def decodeX (op : BitVec 8) (ty : BitVec 4) (d : Dst) (x : BitVec 30) : Option Instr :=
  match op.toNat with
  | 0x00 => if x = 0 then some (.nop d) else none
  | 0x04 => if x = 0 then some .drop else none
  | 0x05 =>
    (Fmt.ofCode ty).bind fun t =>
      if bit x 29 then if clear x 3 26 then some (.movi d t (.pool (x.extractLsb' 0 3))) else none
      else some (.movi d t (.imm (x.extractLsb' 0 29)))
  | 0x09 => holdOf .hget d ty x
  | 0x0A => holdOf .hset d ty x
  | 0x0B =>
    if clear x 24 6 && clear x 19 1 && clear x 12 6 then
      (MarkClass.ofCode (x.extractLsb' 20 4)).map fun c => .emit d c (bit x 18) (x.extractLsb' 0 12)
    else none
  | 0x01 => xaOf .fan d ty x
  | 0x02 => xaOf .steer d ty x
  | 0x03 => xaOf .merge d ty x
  | 0x06 => xaOf .tagr d ty x
  | 0x07 => xaOf .mask d ty x
  | 0x08 => xaOf .fill d ty x
  | 0x10 => xaOf .add d ty x
  | 0x11 => xaOf .sub d ty x
  | 0x12 => xaOf .mul d ty x
  | 0x13 => xaOf .mulh d ty x
  | 0x14 => xaOf .div d ty x
  | 0x15 => xaOf .rem d ty x
  | 0x16 => xaOf .min d ty x
  | 0x17 => xaOf .max d ty x
  | 0x18 => xaOf .abs d ty x
  | 0x19 => xaOf .neg d ty x
  | 0x1A => xaOf .cmp d ty x
  | 0x1B => xaOf .clz d ty x
  | 0x1C => xaOf .popc d ty x
  | 0x20 => xaOf .and d ty x
  | 0x21 => xaOf .or d ty x
  | 0x22 => xaOf .xor d ty x
  | 0x23 => xaOf .andn d ty x
  | 0x24 => xaOf .shl d ty x
  | 0x25 => xaOf .shr d ty x
  | 0x26 => xaOf .sar d ty x
  | 0x30 => xaOf .fma d ty x
  | 0x31 => xaOf .rcp d ty x
  | 0x32 => xaOf .rsq d ty x
  | 0x33 => xaOf .nrcp d ty x
  | 0x34 => xaOf .nrsq d ty x
  | 0x35 => xaOf .exp2 d ty x
  | 0x36 => xaOf .log2 d ty x
  | 0x37 => xaOf .tanh d ty x
  | 0x38 => xaOf .class d ty x
  | 0x39 => xaOf .rnd d ty x
  | 0x40 => xaOf .cvt d ty x
  | 0x41 => xaOf .pack d ty x
  | 0x42 => xaOf .unpk d ty x
  | 0x43 => xaOf .qdec d ty x
  | 0x44 => xaOf .qenc d ty x
  | 0x45 => xaOf .bsq d ty x
  | 0x50 => xaOf .shfl d ty x
  | 0x51 => xaOf .lred d ty x
  | 0x52 => xaOf .lscn d ty x
  | 0x53 => xaOf .lbct d ty x
  | 0x60 => xmtOf .ld d ty x
  | 0x61 => xmtOf .st d ty x
  | 0x62 => xmtOf .atom d ty x
  | 0x63 => xmtOf .cas d ty x
  | 0x64 => xmOf .pref d x
  | 0x65 => xmOf .disc d x
  | 0x66 => xmOf .wbk d x
  | 0x67 => xmOf .inv d x
  | 0x68 => xmtOf .kvap d ty x
  | 0x69 => xmOf .kvfk d x
  | 0x70 =>
    if clear x 0 15 then
      (Scope.ofCode (x.extractLsb' 15 3)).map (.xfen d (x.extractLsb' 24 6) (x.extractLsb' 18 6))
    else none
  | 0x71 =>
    if clear x 29 1 && clear x 0 21 then (Scope.ofCode (x.extractLsb' 21 3)).map (.sbar d (x.extractLsb' 24 5))
    else none
  | 0x72 =>
    if clear x 0 13 then
      (Scope.ofCode (x.extractLsb' 21 3)).map fun sc => .bar d (x.extractLsb' 24 6) sc (x.extractLsb' 13 8)
    else none
  | 0x80 =>
    if clear x 26 4 && clear x 0 1 then
      (Fmt.ofCode (x.extractLsb' 17 4)).map fun f =>
        .wload d (x.extractLsb' 24 2) (x.extractLsb' 21 3) f (x.extractLsb' 8 9) (x.extractLsb' 1 7)
    else none
  | 0x81 =>
    if clear x 26 4 && clear x 0 3 then
      some (.wbind d (x.extractLsb' 24 2) (x.extractLsb' 12 12) (x.extractLsb' 3 9))
    else none
  | 0x82 =>
    if clear x 24 6 && clear x 0 4 then
      (Fmt.ofCode (x.extractLsb' 16 4)).map fun f => .gath d (x.extractLsb' 20 4) f (x.extractLsb' 4 12)
    else none
  | 0x83 =>
    if clear x 24 6 && clear x 0 7 then some (.mout d (x.extractLsb' 16 8) (x.extractLsb' 8 8) (bit x 7)) else none
  | 0x84 =>
    if clear x 24 6 && clear x 0 8 then some (.mclr d (x.extractLsb' 16 8) (x.extractLsb' 8 8)) else none
  | 0x85 => if clear x 0 20 then some (.attn d (x.extractLsb' 24 6) (bit x 23) (x.extractLsb' 20 3)) else none
  | 0x86 => if clear x 0 21 then some (.selk d (x.extractLsb' 24 6) (x.extractLsb' 21 3)) else none
  | 0x90 => if clear x 0 19 then some (.opset d (x.extractLsb' 24 6) (x.extractLsb' 19 5)) else none
  | 0x91 => if clear x 0 19 then some (.opget d (x.extractLsb' 24 6) (x.extractLsb' 19 5)) else none
  | 0x92 => if clear x 0 21 then some (.chset d (x.extractLsb' 24 6) (bit x 23) (x.extractLsb' 21 2)) else none
  | 0x93 =>
    if clear x 0 14 then
      some (.arm d (x.extractLsb' 24 6) (x.extractLsb' 20 4) (x.extractLsb' 15 5) (bit x 14))
    else none
  | 0x94 => if clear x 0 20 then some (.cpy d (x.extractLsb' 24 6) (x.extractLsb' 20 4)) else none
  | 0x95 => if clear x 0 20 then some (.wtil d (x.extractLsb' 24 6) (x.extractLsb' 20 4)) else none
  | 0x96 => if clear x 24 6 && clear x 0 22 then (Half.ofCode (x.extractLsb' 22 2)).map (.time d) else none
  | 0xA0 =>
    if clear x 0 10 then
      some (.rota d (x.extractLsb' 24 6) (x.extractLsb' 14 10) (bit x 13) (x.extractLsb' 10 3))
    else none
  | 0xA1 => if clear x 0 20 then some (.rgrt d (x.extractLsb' 24 6) (x.extractLsb' 21 3) (bit x 20)) else none
  | 0xA2 => if clear x 0 21 then some (.rsnd d (x.extractLsb' 24 6) (x.extractLsb' 21 3)) else none
  | 0xA3 => if clear x 0 23 then some (.rstat d (x.extractLsb' 24 6) (bit x 23)) else none
  | 0xB0 =>
    if clear x 20 3 && clear x 0 12 then some (.tres d (x.extractLsb' 24 6) (bit x 23) (x.extractLsb' 12 8)) else none
  | 0xB1 =>
    if clear x 20 3 && clear x 0 12 then some (.trel d (x.extractLsb' 24 6) (bit x 23) (x.extractLsb' 12 8)) else none
  | 0xB2 => if clear x 0 23 then (CntSel.ofCode (x.extractLsb' 24 6)).map fun s => .tcnt d s (bit x 23) else none
  | 0xF0 => if clear x 24 6 && clear x 0 12 then some (.trap d (x.extractLsb' 12 12)) else none
  | 0xF1 =>
    if clear x 24 6 && clear x 0 21 then (TretAct.ofCode (x.extractLsb' 22 2)).map fun a => .tret d a (bit x 21)
    else none
  | 0xF2 => if clear x 0 24 then some (.bkpt d (x.extractLsb' 24 6)) else none
  | 0xF3 => if x = 0 then some .halt else none
  | 0xF4 => if x = 0 then some (.yld d) else none
  | 0xF5 => if clear x 24 6 && clear x 0 20 then some (.snap d (x.extractLsb' 21 3) (bit x 20)) else none
  | 0xF6 => sysOf .srd d x
  | 0xF7 => sysOf .swr d x
  | 0xF8 =>
    if clear x 27 3 && clear x 0 20 then some (.prio d (x.extractLsb' 24 3) (bit x 23) (x.extractLsb' 20 3)) else none
  | _ => none

/-- A block word (R198); the reasons of R208 are tried in ascending order, as R209 reports them. -/
def decodeBlock (w : W64) : Except Reason Instr :=
  let f := Fields.split w
  match opcodeMap f.op with
  | none => .error .opcode
  | some (tys, dr) =>
    if !tyOk tys f.ty then .error .format else
    match Target.ofBits f.ta, Target.ofBits f.tb with
    | some ta, some tb =>
      if !Dst.ok dr ⟨ta, tb⟩ then .error .target else
      match decodeX f.op f.ty ⟨ta, tb⟩ f.x with
      | some i => if i.wf then .ok i else .error .xfield
      | none => .error .xfield
    | _, _ => .error .target

/-! ### The encoder -/

def gword (gop : BitVec 5) (mc : BitVec 4) (lv : BitVec 3) (aux : BitVec 4) (lbl : BitVec 16) : W32 :=
  GFields.join ⟨gop, mc, lv, aux, lbl⟩

def label16 (l : BitVec 12) : BitVec 16 := (0 : BitVec 4) ++ l
def target16 (i : BitVec 7) (p : Port) : BitVec 16 := (0 : BitVec 7) ++ i ++ p.code

/-- The grammar word of an instruction (R66); `none` for the others. -/
def encodeGrammar : Instr → Option W32
  | .mtch m => some (gword 0x01 m.code 0 0 0)
  | .brm m l => some (gword 0x02 m.code 0 0 (label16 l))
  | .swm l => some (gword 0x03 0 0 0 (label16 l))
  | .jmpn l => some (gword 0x04 0 0 0 (label16 l))
  | .calln l => some (gword 0x05 0 0 0 (label16 l))
  | .retn => some (gword 0x06 0 0 0 0)
  | .take i p => some (gword 0x07 0 0 0 (target16 i p))
  | .takeDrop => some (gword 0x07 0 1 0 0)
  | .fire s k i p => some (gword 0x08 0 s.code ((0 : BitVec 2) ++ k) (target16 i p))
  | .emk c s ch => some (gword 0x09 c.code s.code 0 ((0 : BitVec 10) ++ ch))
  | .rcvr v l => some (gword 0x0A 0 v.code 0 (label16 l))
  | .gwait c => some (gword 0x0B ((0 : BitVec 1) ++ c) 0 0 0)
  | .acpt => some (gword 0x0C 0 0 0 0)
  | .acptRestart l => some (gword 0x0C 0 1 0 (label16 l))
  | .gtrap c => some (gword 0x0D 0 0 0 (label16 c))
  | _ => none

def fields (op : BitVec 8) (ty : BitVec 4) (d : Dst) (x : BitVec 30) : Fields := ⟨op, ty, d.ta.bits, d.tb.bits, x⟩
def xaFields (op : BitVec 8) (x : XA) : Fields := fields op x.ty.code x.d x.bits
def xmFields (op : BitVec 8) (ty : BitVec 4) (x : XM) : Fields := fields op ty x.d x.bits

/-- The fields of a block instruction's word (R198 to R206); `none` for the others. -/
def blockFields : Instr → Option Fields
  | .nop d => some (fields 0x00 0 d 0)
  | .drop => some (fields 0x04 0 ⟨.nowhere, .nowhere⟩ 0)
  | .movi d t (.imm v) => some (fields 0x05 t.code d ((0 : BitVec 1) ++ v))
  | .movi d t (.pool i) => some (fields 0x05 t.code d ((1 : BitVec 1) ++ (0 : BitVec 26) ++ i))
  | .hget d t r m l => some (fields 0x09 t.code d ((0 : BitVec 2) ++ r ++ bit1 m ++ (0 : BitVec 18) ++ l))
  | .hset d t r m l => some (fields 0x0A t.code d ((0 : BitVec 2) ++ r ++ bit1 m ++ (0 : BitVec 18) ++ l))
  | .emit d c p v =>
    some (fields 0x0B 1 d ((0 : BitVec 6) ++ c.code ++ (0 : BitVec 1) ++ bit1 p ++ (0 : BitVec 6) ++ v))
  | .fan x => some (xaFields 0x01 x)
  | .steer x => some (xaFields 0x02 x)
  | .merge x => some (xaFields 0x03 x)
  | .tagr x => some (xaFields 0x06 x)
  | .mask x => some (xaFields 0x07 x)
  | .fill x => some (xaFields 0x08 x)
  | .add x => some (xaFields 0x10 x)
  | .sub x => some (xaFields 0x11 x)
  | .mul x => some (xaFields 0x12 x)
  | .mulh x => some (xaFields 0x13 x)
  | .div x => some (xaFields 0x14 x)
  | .rem x => some (xaFields 0x15 x)
  | .min x => some (xaFields 0x16 x)
  | .max x => some (xaFields 0x17 x)
  | .abs x => some (xaFields 0x18 x)
  | .neg x => some (xaFields 0x19 x)
  | .cmp x => some (xaFields 0x1A x)
  | .clz x => some (xaFields 0x1B x)
  | .popc x => some (xaFields 0x1C x)
  | .and x => some (xaFields 0x20 x)
  | .or x => some (xaFields 0x21 x)
  | .xor x => some (xaFields 0x22 x)
  | .andn x => some (xaFields 0x23 x)
  | .shl x => some (xaFields 0x24 x)
  | .shr x => some (xaFields 0x25 x)
  | .sar x => some (xaFields 0x26 x)
  | .fma x => some (xaFields 0x30 x)
  | .rcp x => some (xaFields 0x31 x)
  | .rsq x => some (xaFields 0x32 x)
  | .nrcp x => some (xaFields 0x33 x)
  | .nrsq x => some (xaFields 0x34 x)
  | .exp2 x => some (xaFields 0x35 x)
  | .log2 x => some (xaFields 0x36 x)
  | .tanh x => some (xaFields 0x37 x)
  | .class x => some (xaFields 0x38 x)
  | .rnd x => some (xaFields 0x39 x)
  | .cvt x => some (xaFields 0x40 x)
  | .pack x => some (xaFields 0x41 x)
  | .unpk x => some (xaFields 0x42 x)
  | .qdec x => some (xaFields 0x43 x)
  | .qenc x => some (xaFields 0x44 x)
  | .bsq x => some (xaFields 0x45 x)
  | .shfl x => some (xaFields 0x50 x)
  | .lred x => some (xaFields 0x51 x)
  | .lscn x => some (xaFields 0x52 x)
  | .lbct x => some (xaFields 0x53 x)
  | .ld t x => some (xmFields 0x60 t.code x)
  | .st t x => some (xmFields 0x61 t.code x)
  | .atom t x => some (xmFields 0x62 t.code x)
  | .cas t x => some (xmFields 0x63 t.code x)
  | .pref x => some (xmFields 0x64 0 x)
  | .disc x => some (xmFields 0x65 0 x)
  | .wbk x => some (xmFields 0x66 0 x)
  | .inv x => some (xmFields 0x67 0 x)
  | .kvap t x => some (xmFields 0x68 t.code x)
  | .kvfk x => some (xmFields 0x69 0 x)
  | .xfen d b a s => some (fields 0x70 0 d (b ++ a ++ s.code ++ (0 : BitVec 15)))
  | .sbar d u s => some (fields 0x71 0 d ((0 : BitVec 1) ++ u ++ s.code ++ (0 : BitVec 21)))
  | .bar d o s n => some (fields 0x72 0 d (o ++ s.code ++ n ++ (0 : BitVec 13)))
  | .wload d o b f k n => some (fields 0x80 0 d ((0 : BitVec 4) ++ o ++ b ++ f.code ++ k ++ n ++ (0 : BitVec 1)))
  | .wbind d o k q => some (fields 0x81 0 d ((0 : BitVec 4) ++ o ++ k ++ q ++ (0 : BitVec 3)))
  | .gath d c f k => some (fields 0x82 0 d ((0 : BitVec 6) ++ c ++ f.code ++ k ++ (0 : BitVec 4)))
  | .mout d a c z => some (fields 0x83 0 d ((0 : BitVec 6) ++ a ++ c ++ bit1 z ++ (0 : BitVec 7)))
  | .mclr d a c => some (fields 0x84 0 d ((0 : BitVec 6) ++ a ++ c ++ (0 : BitVec 8)))
  | .attn d o e b => some (fields 0x85 0 d (o ++ bit1 e ++ b ++ (0 : BitVec 20)))
  | .selk d k g => some (fields 0x86 0 d (k ++ g ++ (0 : BitVec 21)))
  | .opset d o w => some (fields 0x90 0 d (o ++ w ++ (0 : BitVec 19)))
  | .opget d o w => some (fields 0x91 0 d (o ++ w ++ (0 : BitVec 19)))
  | .chset d o z s => some (fields 0x92 0 d (o ++ bit1 z ++ s ++ (0 : BitVec 21)))
  | .arm d q s t u => some (fields 0x93 0 d (q ++ s ++ t ++ bit1 u ++ (0 : BitVec 14)))
  | .cpy d t s => some (fields 0x94 0 d (t ++ s ++ (0 : BitVec 20)))
  | .wtil d t s => some (fields 0x95 0 d (t ++ s ++ (0 : BitVec 20)))
  | .time d p => some (fields 0x96 0 d ((0 : BitVec 6) ++ p.code ++ (0 : BitVec 22)))
  | .rota d o n c b => some (fields 0xA0 0 d (o ++ n ++ bit1 c ++ b ++ (0 : BitVec 10)))
  | .rgrt d o s r => some (fields 0xA1 0 d (o ++ s ++ bit1 r ++ (0 : BitVec 20)))
  | .rsnd d o b => some (fields 0xA2 0 d (o ++ b ++ (0 : BitVec 21)))
  | .rstat d o h => some (fields 0xA3 0 d (o ++ bit1 h ++ (0 : BitVec 23)))
  | .tres d p a n => some (fields 0xB0 0 d (p ++ bit1 a ++ (0 : BitVec 3) ++ n ++ (0 : BitVec 12)))
  | .trel d p a n => some (fields 0xB1 0 d (p ++ bit1 a ++ (0 : BitVec 3) ++ n ++ (0 : BitVec 12)))
  | .tcnt d s c => some (fields 0xB2 0 d (s.code ++ bit1 c ++ (0 : BitVec 23)))
  | .trap d c => some (fields 0xF0 0 d ((0 : BitVec 6) ++ c ++ (0 : BitVec 12)))
  | .tret d a s => some (fields 0xF1 0 d ((0 : BitVec 6) ++ a.code ++ bit1 s ++ (0 : BitVec 21)))
  | .bkpt d o => some (fields 0xF2 0 d (o ++ (0 : BitVec 24)))
  | .halt => some (fields 0xF3 0 ⟨.nowhere, .nowhere⟩ 0)
  | .yld d => some (fields 0xF4 0 d 0)
  | .snap d b p => some (fields 0xF5 0 d ((0 : BitVec 6) ++ b ++ bit1 p ++ (0 : BitVec 20)))
  | .srd d o h c p r => some (fields 0xF6 0 d (o ++ (0 : BitVec 6) ++ bit1 h ++ c ++ p.code ++ r.id))
  | .swr d o h c p r => some (fields 0xF7 0 d (o ++ (0 : BitVec 6) ++ bit1 h ++ c ++ p.code ++ r.id))
  | .prio d o a v => some (fields 0xF8 0 d ((0 : BitVec 3) ++ o ++ bit1 a ++ v ++ (0 : BitVec 20)))
  | _ => none

def encodeBlock (i : Instr) : Option W64 := (blockFields i).map Fields.join

/-- The little-endian bytes of a word of `n` bytes (R80). -/
def leBytes (n v : Nat) : List Byte := (List.range n).map fun k => BitVec.ofNat 8 (v / 2 ^ (8 * k))

/-- The words of an instruction as they are stored: one 32-bit grammar word or one 64-bit block word, least significant
byte first (R80); an event has none. -/
def encode (i : Instr) : List Byte :=
  match encodeGrammar i with
  | some w => leBytes 4 w.toNat
  | none => match encodeBlock i with
    | some w => leBytes 8 w.toNat
    | none => []

/-- The value of bytes, least significant first. -/
def leValue : List Byte → Nat
  | [] => 0
  | b :: t => b.toNat + 256 * leValue t

/-- Decoding of stored bytes: four bytes are a grammar word, eight a block word. -/
def decode (bytes : List Byte) : Except Reason Instr :=
  if bytes.length = 4 then decodeGrammar (BitVec.ofNat 32 (leValue bytes))
  else if bytes.length = 8 then decodeBlock (BitVec.ofNat 64 (leValue bytes))
  else .error .opcode

/-- The instruction the decoder reads from an instruction of `nbits` bits whose value is `w`, its bytes laid out as they
are stored. -/
def decodeTableWord (nbits w : Nat) : Option Instr := (decode (leBytes (nbits / 8) w)).toOption

end Sys2Proof
end

