-- ==== Sys2Proof/Config.lean ====
section
/-! DEFINITION. What an implementation of the architecture fixes, and the free values: opaque constants without a body,
applied to what they depend on or to a counter of the state. Each is named in notes/assumptions. -/
namespace Sys2Proof.Config

/-- A value the spec leaves open, met as the `n`-th of a run (log 7). -/
opaque freeWord : Nat → W32

/-- A 64-bit value the spec leaves open (log 7). -/
opaque freeWide : Nat → W64

/-- The result of EXP2, LOG2 or TANH where an enclosure of 2^-400 does not decide the rounding (log 11): the operation's
number, the format's code and the operand's bits. -/
opaque freeRounding : Nat → Nat → Nat → Nat

/-- Which of the entries that may be replaced a cache or a gate replaces (R143, R148, R156), met as the `n`-th choice of a
run, in view of the hints that the lines carry (R381, log 6). -/
opaque victim : Nat → List Pol → Nat

/-- The set of an L2 slice, and of an L1 bank, to which a line goes (R143, R156, log 6). -/
opaque sliceSet : Nat → Nat
opaque bankSet : Nat → Nat

/-- How many entries of the output buffer the die scheduler gives a context beyond the two that R103 promises (log 7). -/
opaque outputQuota : Nat → Nat

/-- A promised time of a streamer (R135), met as the `n`-th open value of a run (log 12). -/
opaque promise : Nat → W64

/-- Whether a ring port of a package is wired straight to another package: package, port, package (log 14). -/
opaque joins : BitVec 8 → Nat → BitVec 8 → Bool

/-- Whether the keep cores can read a run of host memory: bus address and length (R264, log 16). -/
opaque hostReadable : Nat → Nat → Bool

/-- The four key digests fused into the hub die (R267, log 9). -/
opaque keyDigest : Nat → List (BitVec 8)

/-- The days to end of life that the keep cores predict (R273, log 13): the `n`-th evaluation of a run, and the source. -/
opaque lifeDays : Nat → Nat → BitVec 16

/-- How many bytes of the checkpoint stream a failed read has reached (R271, log 17), met as the `n`-th open value of a run. -/
opaque storageReach : Nat → Nat

/-- Where the scheduler memory's share of a graph slot ends, in bytes of that memory (R271, log 17): partition and slot. -/
opaque slotEnd : Nat → Nat → Nat

end Sys2Proof.Config
end

