-- ==== Sys2Proof/Machine/Flags.lean ====
section
/-! DEFINITION. The floating-point flags (R52), the trap enables (R53, R54) and the stochastic generator (R49). -/
namespace Sys2Proof.Machine
open Sys2Proof

/-- Flags in the layout of fpflags: IV 4, DZ 3, OF 2, UF 1, NX 0 (R52). -/
abbrev FpFlags := BitVec 5

def flagNX : FpFlags := 1
def flagUF : FpFlags := 2
def flagOF : FpFlags := 4
def flagDZ : FpFlags := 8
def flagIV : FpFlags := 16

def flagIf (c : Bool) (f : FpFlags) : FpFlags := if c then f else 0

/-- The flags that a ctx.fpmode value traps on: teIV to teNX stand in bits [7:3] in the order of fpflags (R53). -/
def trapEnables (fpmode : W32) : FpFlags := fpmode.extractLsb' 3 5

/-- A firing with these flags reaches FPTRAP (R54). -/
def fpTraps (fpmode : W32) (f : FpFlags) : Bool := trapEnables fpmode &&& f != 0

/-- ORs flags into the fpflags register (R52). -/
def raiseFlags (fpflags : W32) (f : FpFlags) : W32 := fpflags ||| f.zeroExtend 32

/-- One advance of a generator (R49). -/
def genNext (g : W32) : W32 :=
  let g := g ^^^ (g <<< 13)
  let g := g ^^^ (g >>> 17)
  g ^^^ (g <<< 5)

/-- The draw that an advanced generator gives: bits [31:16] (R49). -/
def genDraw (g : W32) : Nat := (g.extractLsb' 16 16).toNat

/-- The state at device reset of the generator with source number `src` (R49). -/
def genReset (src : Nat) : W32 := 0x9E3779B9 ^^^ BitVec.ofNat 32 src

end Sys2Proof.Machine
end

