-- ==== Sys2Proof/Machine/Float.lean ====
section
/-! DEFINITION. Exact arithmetic on floating-point values and its one rounding (R39 to R41, R47 to R52), the seeds of
R386 and the enclosures from which EXP2, LOG2 and TANH are rounded (R340, R414). A value is exact until `roundTo`. -/
namespace Sys2Proof.Machine
open Sys2Proof

/-- An element value: a NaN, an infinity, or (-1)^neg * m * 2^e. -/
inductive FVal where
  | nan (signalling : Bool)
  | inf (neg : Bool)
  | fin (neg : Bool) (m : Nat) (e : Int)
deriving DecidableEq, Repr

/-- Parameters of an element format (R39): exponent bits, bias, trailing significand bits, largest finite value as
`lm * 2^le`, its bits, and the bits of the infinity and of the canonical NaN where the format has them. -/
structure FParam where
  exp : Nat
  bias : Nat
  sig : Nat
  lm : Nat
  le : Int
  largest : Nat
  infBits : Option Nat
  nanBits : Option Nat
deriving DecidableEq, Repr

def fpF32 : FParam := ⟨8, 127, 23, 2 ^ 24 - 1, 104, 0x7F7FFFFF, some 0x7F800000, some 0x7FC00000⟩
def fpBf16 : FParam := ⟨8, 127, 7, 255, 120, 0x7F7F, some 0x7F80, some 0x7FC0⟩
def fpF16 : FParam := ⟨5, 15, 10, 2047, 5, 0x7BFF, some 0x7C00, some 0x7E00⟩
def fpE4m3 : FParam := ⟨4, 7, 3, 14, 5, 0x7E, none, some 0x7F⟩
def fpE5m2 : FParam := ⟨5, 15, 2, 7, 13, 0x7B, some 0x7C, some 0x7E⟩
def fpE2m1 : FParam := ⟨2, 1, 1, 3, 1, 0x7, none, none⟩
/-- TY′ of f32 (R386): 15 significant bits with the exponent range of binary32. -/
def fpSeed : FParam := ⟨8, 127, 14, 2 ^ 15 - 1, 113, 0x3FBFFF, some 0x3FC000, some 0x3FE000⟩

/-- The parameters of a format's elements; the integer formats and the codebook have none of their own and read as f32. -/
def fparam : Fmt → FParam
  | .bf16x2 => fpBf16
  | .f16x2 => fpF16
  | .e4m3x4 => fpE4m3
  | .e5m2x4 => fpE5m2
  | .bs4x8 | .mx4x8 => fpE2m1
  | _ => fpF32

def FParam.width (p : FParam) : Nat := 1 + p.exp + p.sig
/-- Exponent of the smallest normal value. -/
def FParam.emin (p : FParam) : Int := 1 - (p.bias : Int)
def FParam.signBit (p : FParam) (neg : Bool) : Nat := if neg then 2 ^ (p.width - 1) else 0

/-- The value of an element's bits (R39, R40, R41). -/
def FParam.decode (p : FParam) (bits : Nat) : FVal :=
  let b := bits % 2 ^ p.width
  let neg := decide (2 ^ (p.width - 1) ≤ b)
  let ef := b / 2 ^ p.sig % 2 ^ p.exp
  let t := b % 2 ^ p.sig
  let top := ef == 2 ^ p.exp - 1
  if top && p.infBits.isSome then
    if t = 0 then .inf neg
    else .nan (p != fpE5m2 && t / 2 ^ (p.sig - 1) == 0)
  else if top && p.nanBits.isSome && t == 2 ^ p.sig - 1 then .nan false
  else if ef = 0 then .fin neg t (p.emin - p.sig)
  else .fin neg (t + 2 ^ p.sig) ((ef : Int) - p.bias - p.sig)

/-- 2^k for an integer exponent that is not negative; 1 below. -/
def pow2 (k : Int) : Nat := 2 ^ k.toNat

/-- `(kept, rem, den)` of `m * 2^e` cut at the quantum `2^q`: `m * 2^(e - q) = kept + rem / den`. -/
def cut (m : Nat) (e q : Int) : Nat × Nat × Nat :=
  if q ≤ e then (m * pow2 (e - q), 0, 1)
  else
    let d := pow2 (q - e)
    (m / d, m % d, d)

/-- Whether the discarded part rounds the magnitude up (R47, R49). `sticky` says that the value lies strictly above its
recorded digits, by less than the last of them; `r` is the stochastic draw. -/
def roundUp (mode : Rnd) (neg : Bool) (kept rem den : Nat) (sticky : Bool) (r : Nat) : Bool :=
  let above := decide (den < 2 * rem) || (decide (2 * rem = den) && sticky)
  let tie := decide (2 * rem = den) && !sticky
  let inexact := rem != 0 || sticky
  match mode with
  | .rne | .dyn => above || (tie && kept % 2 == 1)
  | .rtz => false
  | .rup => inexact && !neg
  | .rdn => inexact && neg
  | .rna => above || tie
  | .sto => decide (r * den < rem * 65536) || (decide (rem * 65536 = r * den) && sticky)

/-- What `roundTo` gives: the magnitude `m * 2^e` or an infinity, and whether the value overflowed. -/
structure Rounded where
  val : FVal
  ovf : Bool
  flags : FpFlags
deriving DecidableEq, Repr

def bitLen (m : Nat) : Nat := if m = 0 then 0 else m.log2 + 1

/-- `a * 2^ea < b * 2^eb`. -/
def ltMag (a : Nat) (ea : Int) (b : Nat) (eb : Int) : Bool :=
  let lo := min ea eb
  decide (a * pow2 (ea - lo) < b * pow2 (eb - lo))

/-- The overflow result of R48. -/
def overflowVal (p : FParam) (mode : Rnd) (neg : Bool) : FVal :=
  match mode with
  | .rne | .rna | .sto | .dyn => .inf neg
  | .rtz => .fin neg p.lm p.le
  | .rup => if neg then .fin neg p.lm p.le else .inf neg
  | .rdn => if neg then .inf neg else .fin neg p.lm p.le

/-- `Round` of R48 on a finite magnitude, with `sticky` as in `roundUp`; tininess is judged after rounding. -/
def roundTo (p : FParam) (mode : Rnd) (neg : Bool) (m : Nat) (e : Int) (sticky : Bool) (r : Nat) : Rounded :=
  if m = 0 then ⟨.fin neg 0 0, false, 0⟩ else
  let top : Int := e + bitLen m - 1
  let q : Int := max top p.emin - p.sig
  let (kept, rem, den) := cut m e q
  let inexact := rem != 0 || sticky
  let y := if roundUp mode neg kept rem den sticky r then kept + 1 else kept
  let qu : Int := top - p.sig
  let (ku, ru, du) := cut m e qu
  let yu := if roundUp mode neg ku ru du sticky r then ku + 1 else ku
  let tiny := ltMag yu qu 1 p.emin
  let fl := flagIf inexact flagNX ||| flagIf (inexact && tiny) flagUF
  if ltMag p.lm p.le y q then ⟨overflowVal p mode neg, true, fl ||| flagOF ||| flagNX⟩
  else ⟨.fin neg y q, false, fl⟩

/-- The bits of a value that the format holds (R39). -/
def FParam.encode (p : FParam) : FVal → Nat
  | .nan _ => p.nanBits.getD 0
  | .inf neg => p.signBit neg + p.infBits.getD p.largest
  | .fin neg m e =>
    if m = 0 then p.signBit neg else
    let top : Int := e + bitLen m - 1
    let q : Int := max top p.emin - p.sig
    let k := if q ≤ e then m * pow2 (e - q) else m / pow2 (q - e)
    let ef : Nat := if k < 2 ^ p.sig then 0 else (max top p.emin + p.bias).toNat
    p.signBit neg + ef * 2 ^ p.sig + k % 2 ^ p.sig

/-- `Sat` of R50 on the value `Round` returned: the element's bits and any flag that the format adds. -/
def satBits (p : FParam) (sat : Sat) (v : FVal) (ovf : Bool) : Nat × FpFlags :=
  match v with
  | .fin _ _ _ => (p.encode v, 0)
  | .nan _ =>
    match p.nanBits with
    | none => (0, flagIV)
    | some n => if sat = .finite then (0, 0) else (n, 0)
  | .inf neg =>
    match p.infBits with
    | some _ => if sat = .finite || (sat = .clamp && ovf) then (p.signBit neg + p.largest, 0) else (p.encode v, 0)
    | none =>
      let fl := flagIf (!ovf) flagIV
      match p.nanBits with
      | none => (p.signBit neg + p.largest, fl)
      | some n =>
        if sat = .finite || (sat = .clamp && ovf) then (p.signBit neg + p.largest, fl) else (n, fl)

/-- Bits, flags and generator after an element operation. -/
structure EltRes where
  bits : Nat
  flags : FpFlags
  gen : W32
deriving DecidableEq, Repr

/-- Draws for a value rounded under `mode`: the draw and the generator afterwards (R49). -/
def drawFor (mode : Rnd) (g : W32) : Nat × W32 :=
  match mode with
  | .sto => let g' := genNext g; (genDraw g', g')
  | _ => (0, g)

/-- `Sat(Round(v, fmt, mode), fmt, sat)` for an exact value (R48, R50). A NaN or an infinity is not rounded and makes no
draw; an exact finite value makes one (R49). -/
def roundSat (p : FParam) (mode : Rnd) (sat : Sat) (g : W32) (v : FVal) : EltRes :=
  match v with
  | .fin neg m e =>
    let (r, g') := drawFor mode g
    let y := roundTo p mode neg m e false r
    let (b, f) := satBits p sat y.val y.ovf
    ⟨b, y.flags ||| f, g'⟩
  | v => let (b, f) := satBits p sat v false; ⟨b, f, g⟩

/-- The canonical NaN through Sat (R312), with IV where `iv` says so. -/
def nanRes (p : FParam) (sat : Sat) (g : W32) (iv : Bool) : EltRes :=
  let (b, f) := satBits p sat (.nan false) false
  ⟨b, f ||| flagIf iv flagIV, g⟩

namespace FVal

def isNan : FVal → Bool
  | nan _ => true
  | _ => false

def isSignalling : FVal → Bool
  | nan s => s
  | _ => false

def isZero : FVal → Bool
  | fin _ m _ => m == 0
  | _ => false

def isInf : FVal → Bool
  | inf _ => true
  | _ => false

def neg? : FVal → Bool
  | nan _ => false
  | inf n => n
  | fin n _ _ => n

def negate : FVal → FVal
  | nan s => nan s
  | inf n => inf (!n)
  | fin n m e => fin (!n) m e

def magnitude : FVal → FVal
  | nan s => nan s
  | inf _ => inf false
  | fin _ m e => fin false m e

end FVal

/-- The sign of an exact zero sum of operands of opposite sign (R48). -/
def zeroSumNeg (mode : Rnd) : Bool := match mode with
  | .rdn => true
  | _ => false

/-- Signed integer of a finite value at the quantum `2^q`, `q` at most its exponent. -/
def scaled (neg : Bool) (m : Nat) (e q : Int) : Int :=
  let k : Int := (m * pow2 (e - q) : Nat)
  if neg then -k else k

/-- The finite value `k * 2^q`; a zero takes the sign `zneg`. -/
def ofScaled (k : Int) (q : Int) (zneg : Bool) : FVal :=
  if k = 0 then .fin zneg 0 0 else .fin (decide (k < 0)) k.natAbs q

/-- Exact sum (R315, R48, R52); `none` is ∞ − ∞. -/
def fadd (mode : Rnd) : FVal → FVal → Option FVal
  | .nan s, _ => some (.nan s)
  | _, .nan s => some (.nan s)
  | .inf a, .inf b => if a = b then some (.inf a) else none
  | .inf a, .fin _ _ _ => some (.inf a)
  | .fin _ _ _, .inf b => some (.inf b)
  | .fin a m e, .fin b n f =>
    if m = 0 ∧ n = 0 then some (.fin (if a = b then a else zeroSumNeg mode) 0 0) else
    let q := min e f
    some (ofScaled (scaled a m e q + scaled b n f q) q (zeroSumNeg mode))

/-- Exact product (R370); `none` is 0 × ∞. -/
def fmul : FVal → FVal → Option FVal
  | .nan s, _ => some (.nan s)
  | _, .nan s => some (.nan s)
  | .inf a, .inf b => some (.inf (a != b))
  | .inf a, .fin b n _ => if n = 0 then none else some (.inf (a != b))
  | .fin a m _, .inf b => if m = 0 then none else some (.inf (a != b))
  | .fin a m e, .fin b n f => some (.fin (a != b) (m * n) (if m * n = 0 then 0 else e + f))

/-- `a < b` on numbers, with −0 = +0; the NaNs are excluded by the caller. -/
def fltNum : FVal → FVal → Bool
  | .inf a, .inf b => a && !b
  | .inf a, _ => a
  | _, .inf b => !b
  | .fin a m e, .fin b n f =>
    let q := min e f
    decide (scaled a m e q < scaled b n f q)
  | _, _ => false

def feqNum (a b : FVal) : Bool := !fltNum a b && !fltNum b a

/-- `a < b` with −0 < +0 (R318, R364). -/
def fltTotal (a b : FVal) : Bool := fltNum a b || (feqNum a b && a.isZero && a.neg? && !b.neg?)

/-- A float element rounded to an integer of range `lo` to `hi` (R51). -/
def roundToInt (lo hi : Int) (width : Nat) (mode : Rnd) (g : W32) (v : FVal) : EltRes :=
  let enc (k : Int) : Nat := (k % 2 ^ width).toNat
  match v with
  | .nan _ => ⟨0, flagIV, g⟩
  | .inf neg => ⟨enc (if neg then lo else hi), flagIV, g⟩
  | .fin neg m e =>
    let (r, g') := drawFor mode g
    let (kept, rem, den) := cut m e 0
    let y := if roundUp mode neg kept rem den false r then kept + 1 else kept
    let k : Int := if neg then -(y : Int) else y
    if k < lo then ⟨enc lo, flagIV, g'⟩
    else if hi < k then ⟨enc hi, flagIV, g'⟩
    else ⟨enc k, flagIf (rem != 0) flagNX, g'⟩

/-- A float element rounded to an integral value of its own format (R390): the value, whether it changed, the generator. -/
def roundIntegral (mode : Rnd) (g : W32) (v : FVal) : FVal × Bool × W32 :=
  match v with
  | .fin neg m e =>
    let (kept, rem, den) := cut m e 0
    if rem = 0 then (v, false, g)
    else
      let (r, g') := drawFor mode g
      (.fin neg (if roundUp mode neg kept rem den false r then kept + 1 else kept) 0, true, g')
  | v => (v, false, g)

/-! ### Reciprocal and reciprocal-square-root seeds (R386) -/

/-- Largest `s` with `s * s ≤ n`, found bit by bit from bit `k` down. -/
def isqrtFrom (n : Nat) : Nat → Nat → Nat
  | 0, acc => if (acc + 1) * (acc + 1) ≤ n then acc + 1 else acc
  | k + 1, acc =>
    let t := acc + 2 ^ (k + 1)
    isqrtFrom n k (if t * t ≤ n then t else acc)

def isqrt (n : Nat) : Nat := isqrtFrom n (bitLen n / 2 + 1) 0

/-- The estimate is rounded to TY′ and its bits placed in TY: for f32 the significand of TY′ is followed by nine zeros. -/
def seedBits (ty : Fmt) (sat : Sat) (g : W32) (neg : Bool) (m : Nat) (e : Int) (sticky : Bool) : EltRes :=
  match ty with
  | .f32 =>
    let y := roundTo fpSeed .rne neg m e sticky 0
    let (b, f) := satBits fpF32 sat y.val y.ovf
    ⟨b, y.flags ||| f, g⟩
  | ty =>
    let y := roundTo (fparam ty) .rne neg m e sticky 0
    let (b, f) := satBits (fparam ty) sat y.val y.ovf
    ⟨b, y.flags ||| f, g⟩

def rcpElt (ty : Fmt) (sat : Sat) (g : W32) (v : FVal) : EltRes :=
  let p := fparam ty
  match v with
  | .nan s => nanRes p sat g s
  | .inf neg => ⟨p.signBit neg, 0, g⟩
  | .fin neg m e =>
    if m = 0 then let (b, f) := satBits p sat (.inf neg) false; ⟨b, f ||| flagDZ, g⟩
    else
      let k := bitLen m + 64
      seedBits ty sat g neg (2 ^ k / m) (-e - k) (2 ^ k % m != 0)

def rsqElt (ty : Fmt) (sat : Sat) (g : W32) (v : FVal) : EltRes :=
  let p := fparam ty
  match v with
  | .nan s => nanRes p sat g s
  | .inf neg => if neg then nanRes p sat g true else ⟨0, 0, g⟩
  | .fin neg m e =>
    if m = 0 then let (b, f) := satBits p sat (.inf neg) false; ⟨b, f ||| flagDZ, g⟩
    else if neg then nanRes p sat g true
    else
      let (m', e') := if e % 2 = 0 then (m, e) else (2 * m, e - 1)
      let k := bitLen m' + 64
      let s := isqrt (2 ^ (2 * k) / m')
      seedBits ty sat g false s (-(e' / 2) - k) (s * s * m' != 2 ^ (2 * k))

/-! ### Newton steps (R374) -/

/-- A product inside `Op` of R374: 0 × ∞ is an exact zero with the XOR of the signs. -/
def fmul0 (a b : FVal) : FVal := (fmul a b).getD (.fin (a.neg? != b.neg?) 0 0)

/-- `k − p` for a small integer `k`; an infinite `p` gives the infinity of the opposite sign. -/
def subFrom (k : Nat) (mode : Rnd) (p : FVal) : FVal := (fadd mode (.fin false k 0) p.negate).getD (.nan false)

def halve : FVal → FVal
  | .fin n m e => .fin n m (if m = 0 then 0 else e - 1)
  | v => v

/-- `Op` of R374 for operands that are no NaN: x is port a, z the estimate. -/
def newtonOp (sqrt : Bool) (mode : Rnd) (x z : FVal) : FVal :=
  if z.isZero || z.isInf then z
  else if sqrt then halve (fmul0 z (subFrom 3 mode (fmul0 (fmul0 x z) z)))
  else fmul0 z (subFrom 2 mode (fmul0 x z))

/-! ### Enclosures of the elementary functions

Numbers are fixed point with `P` fraction bits. `Ival` holds a lower and an upper bound of a value that is never exact. -/

structure Ival where
  lo : Nat
  hi : Nat
deriving DecidableEq, Repr

def divUp (a b : Nat) : Nat := (a + b - 1) / b

def Ival.mul (P : Nat) (a b : Ival) : Ival := ⟨a.lo * b.lo / 2 ^ P, divUp (a.hi * b.hi) (2 ^ P)⟩

/-- ln 2 as the sum of 1 / (k 2^k). -/
def ln2Sum (P : Nat) : Nat → Nat
  | 0 => 0
  | k + 1 => 2 ^ P / ((k + 1) * 2 ^ (k + 1)) + ln2Sum P k

def ln2 (P : Nat) : Ival :=
  let s := ln2Sum P P
  ⟨s, s + P + 2⟩

/-- Taylor sum of e^s: `term` is the current term, `k` its number; the rest of the series is below the last term while
s is at most 1. -/
def expSum (P : Nat) (s : Ival) : Nat → Nat → Ival → Ival → Ival
  | 0, _, term, acc => ⟨acc.lo, acc.hi + 2 * term.hi + 2⟩
  | n + 1, k, term, acc =>
    let t := Ival.mul P term s
    let t : Ival := ⟨t.lo / (k + 1), divUp t.hi (k + 1)⟩
    expSum P s n (k + 1) t ⟨acc.lo + t.lo, acc.hi + t.hi⟩

def expI (P : Nat) (s : Ival) : Ival := expSum P s (P / 3 + 8) 0 ⟨2 ^ P, 2 ^ P⟩ ⟨2 ^ P, 2 ^ P⟩

def sqN (P : Nat) : Nat → Ival → Ival
  | 0, a => a
  | n + 1, a => sqN P n (Ival.mul P a a)

/-- A dyadic `m * 2^e` that is not negative, as bounds. -/
def fixI (P : Nat) (m : Nat) (e : Int) : Ival :=
  if 0 ≤ e + P then ⟨m * pow2 (e + P), m * pow2 (e + P)⟩
  else ⟨m / pow2 (-(e + P)), divUp m (pow2 (-(e + P)))⟩

/-- 2^f for 0 ≤ f < 1. -/
def exp2I (P : Nat) (f : Ival) : Ival := expI P (Ival.mul P f (ln2 P))

/-- atanh z for z ≤ 1/3, by its series. -/
def atanhSum (P : Nat) (z2 : Ival) : Nat → Nat → Ival → Ival → Ival
  | 0, _, pw, acc => ⟨acc.lo, acc.hi + pw.hi + 2⟩
  | n + 1, k, pw, acc =>
    let t : Ival := ⟨pw.lo / (2 * k + 1), divUp pw.hi (2 * k + 1)⟩
    atanhSum P z2 n (k + 1) (Ival.mul P pw z2) ⟨acc.lo + t.lo, acc.hi + t.hi⟩

/-- log2 of a significand y = m / 2^(bitLen m - 1), 1 ≤ y < 2. -/
def log2I (P : Nat) (m : Nat) : Ival :=
  let d := 2 ^ (bitLen m - 1)
  let z : Ival := ⟨(m - d) * 2 ^ P / (m + d), divUp ((m - d) * 2 ^ P) (m + d)⟩
  let a := atanhSum P (Ival.mul P z z) (P / 3 + 8) 0 z ⟨0, 0⟩
  let l := ln2 P
  ⟨2 * a.lo * 2 ^ P / l.hi, divUp (2 * a.hi * 2 ^ P) l.lo⟩

/-- tanh of a positive dyadic, by the size of its argument. -/
def tanhI (P : Nat) (m : Nat) (e : Int) : Ival × Int :=
  let top : Int := e + bitLen m - 1
  if 6 ≤ top then (⟨2 ^ P - 2 ^ (P - 120), 2 ^ P⟩, -(P : Int))
  else if top < -25 then
    -- x - x^3 < tanh x < x
    let k := 2 * bitLen m + 2 * (-e).toNat + P
    let big := m * 2 ^ k
    (⟨big - divUp (big * (m * m)) (2 ^ (2 * (-e).toNat)), big⟩, e - k)
  else
    let t := fixI P m (e + 1 - 8)
    let x := sqN P 8 (expI P t)
    let one := 2 ^ P
    (⟨(x.lo - one) * 2 ^ P / (x.lo + one), divUp ((x.hi - one) * 2 ^ P) (x.hi + one)⟩, -(P : Int))

/-- An enclosed magnitude rounded at both ends: `none` where they differ. -/
def roundIval (p : FParam) (mode : Rnd) (sat : Sat) (neg : Bool) (iv : Ival) (e : Int) (r : Nat) : Option (Nat × FpFlags) :=
  let f (m : Nat) : Nat × FpFlags :=
    let y := roundTo p mode neg m e true r
    let (b, fl) := satBits p sat y.val y.ovf
    (b, y.flags ||| fl)
  let a := f iv.lo
  if a = f (iv.hi - 1) then some a else none

/-- The correctly rounded value from enclosures of two precisions; where neither decides, a free value with NX. -/
def roundIvals (p : FParam) (mode : Rnd) (sat : Sat) (g : W32) (neg : Bool) (enc : Nat → Ival × Int) (free : Nat) : EltRes :=
  let (r, g') := drawFor mode g
  let try1 := roundIval p mode sat neg (enc 160).1 (enc 160).2 r
  let try2 := roundIval p mode sat neg (enc 400).1 (enc 400).2 r
  match try1 with
  | some (b, f) => ⟨b, f, g'⟩
  | none => match try2 with
    | some (b, f) => ⟨b, f, g'⟩
    | none => ⟨free % 2 ^ p.width, flagNX, g'⟩

/-- 2^x (R340). A magnitude of 4096 or more overflows or underflows like 2^±4096. -/
def exp2Elt (ty : Fmt) (mode : Rnd) (sat : Sat) (g : W32) (bits : Nat) (v : FVal) : EltRes :=
  let p := fparam ty
  match v with
  | .nan s => nanRes p sat g s
  | .inf neg => if neg then ⟨0, 0, g⟩ else roundSat p mode sat g v
  | .fin neg m e =>
    let pow (n : Int) := roundSat p mode sat g (.fin false 1 n)
    if m = 0 then pow 0
    else if 12 ≤ e + bitLen m - 1 then pow (if neg then -4096 else 4096)
    else if 0 ≤ e then pow (scaled neg m e 0)
    else
      let d := pow2 (-e)
      let whole := m / d
      let part := m % d
      if part = 0 then pow (if neg then -(whole : Int) else whole)
      else
        let n : Int := if neg then -(whole : Int) - 1 else whole
        let f := if neg then d - part else part
        roundIvals p mode sat g false (fun P => (exp2I P (fixI P f e), n - P)) (Config.freeRounding 0 ty.epl bits)

/-- log2 x (R340, R359). -/
def log2Elt (ty : Fmt) (mode : Rnd) (sat : Sat) (g : W32) (bits : Nat) (v : FVal) : EltRes :=
  let p := fparam ty
  match v with
  | .nan s => nanRes p sat g s
  | .inf neg => if neg then nanRes p sat g true else roundSat p mode sat g v
  | .fin neg m e =>
    if m = 0 then let (b, f) := satBits p sat (.inf true) false; ⟨b, f ||| flagDZ, g⟩
    else if neg then nanRes p sat g true
    else
      let n : Int := e + bitLen m - 1
      if m = 2 ^ (bitLen m - 1) then roundSat p mode sat g (ofScaled n 0 false)
      else if 0 ≤ n then
        roundIvals p mode sat g false
          (fun P => let l := log2I P m; (⟨l.lo + n.toNat * 2 ^ P, l.hi + n.toNat * 2 ^ P⟩, -(P : Int)))
          (Config.freeRounding 1 ty.epl bits)
      else
        roundIvals p mode sat g true
          (fun P => let l := log2I P m; (⟨(-n).toNat * 2 ^ P - l.hi, (-n).toNat * 2 ^ P - l.lo⟩, -(P : Int)))
          (Config.freeRounding 1 ty.epl bits)

/-- tanh x (R414). -/
def tanhElt (ty : Fmt) (mode : Rnd) (g : W32) (bits : Nat) (v : FVal) : EltRes :=
  let p := fparam ty
  match v with
  | .nan s => nanRes p .off g s
  | .inf neg => ⟨p.encode (.fin neg 1 0), 0, g⟩
  | .fin neg m e =>
    if m = 0 then ⟨p.signBit neg, 0, g⟩
    else roundIvals p mode .off g neg (fun P => tanhI P m e) (Config.freeRounding 2 ty.epl bits)

/-! ### The codebook (R45, R46) -/

/-- Codebook values over 256. -/
def codebook256 (q : Nat) : Int :=
  match q % 16 with
  | 0 => -256 | 1 => -188 | 2 => -142 | 3 => -107 | 4 => -78 | 5 => -51 | 6 => -25 | 7 => 0
  | 8 => 22 | 9 => 44 | 10 => 66 | 11 => 89 | 12 => 114 | 13 => 144 | 14 => 186 | _ => 256

def codebook (q : Nat) : FVal := ofScaled (codebook256 q) (-8) false

/-- The scale `t` of R46: Round(s × (c + 1), f32, rne) with its flags. -/
def scaleOf (s : Nat) (c : Nat) : EltRes :=
  let v := fpF32.decode s
  match v with
  | .nan sg => nanRes fpF32 .off 0 sg
  | v => roundSat fpF32 .rne .off 0 (fmul0 v (.fin false (c + 1) 0))

/-- Decode of code `q` under superscale bits `s` and scale code `c` to bfloat16 bits (R46). -/
def decodeQ16 (q s c : Nat) : Nat × FpFlags :=
  let t := scaleOf s c
  match fpF32.decode t.bits with
  | .nan _ => (0x7FC0, t.flags)
  | .inf neg =>
    if q % 16 = 7 then (0, t.flags) else (fpBf16.encode (.inf ((codebook q).neg? != neg)), t.flags)
  | .fin neg m e =>
    if q % 16 = 7 then (0, t.flags)
    else
      let y := roundSat fpBf16 .rne .off 0 (fmul0 (codebook q) (.fin neg m (e - 8)))
      (y.bits, t.flags ||| y.flags)

end Sys2Proof.Machine
end

