-- ==== Sys2Proof/Machine/Operands.lean ====
section
/-! DEFINITION. The operands of a firing: elements of packed lanes (R32), the validity of the final lane (R34, R97), the
immediate of an omitted port b (R84) and the empty policies (R98). -/
namespace Sys2Proof.Machine
open Sys2Proof

def elemWidth (t : Fmt) : Nat := 32 / t.epl

/-- Element `e` of a lane of `w`-bit elements (R32). -/
def elt (w e : Nat) (v : W32) : Nat := v.toNat / 2 ^ (w * e) % 2 ^ w

/-- The lane of `w`-bit elements, element 0 lowest. -/
def packElts (w : Nat) (l : List Nat) : W32 := BitVec.ofNat 32 (l.foldr (fun b acc => b % 2 ^ w + acc * 2 ^ w) 0)

/-- Valid elements of a lane of `n` elements whose token's count is `c` (R34): 0, and a count of `n` or more, mean all. -/
def validElts (n c : Nat) : Nat := if c = 0 then n else min c n

/-- Integer value of an element's bits. -/
def intVal (signed : Bool) (w bits : Nat) : Int :=
  if signed ∧ 2 ^ (w - 1) ≤ bits then (bits : Int) - 2 ^ w else bits

def Fmt.signed (t : Fmt) : Bool := t == .i32 || t == .i8x4 || t == .i4x8

def intLo (signed : Bool) (w : Nat) : Int := if signed then -(2 ^ (w - 1)) else 0
def intHi (signed : Bool) (w : Nat) : Int := if signed then 2 ^ (w - 1) - 1 else 2 ^ w - 1

/-- Narrowing of an exact integer result: wraps under code 0, clamps under 1 and 2 (R50). -/
def narrow (signed : Bool) (w : Nat) (sat : Sat) (k : Int) : Nat :=
  let k := match sat with
    | .off => k
    | _ => max (intLo signed w) (min (intHi signed w) k)
  (k % 2 ^ w).toNat

/-- The lane value of an omitted port b (R84); `none` where a bit that must be zero is set. -/
def immLane (t : Fmt) (imm : BitVec 20) : Option W32 :=
  match t with
  | .i32 => some (imm.signExtend 32)
  | .n32 => some (imm.zeroExtend 32)
  | .f32 => some (imm ++ (0 : BitVec 12))
  | t =>
    let w := elemWidth t
    if imm.toNat < 2 ^ w then some (packElts w (List.replicate t.epl imm.toNat)) else none

/-- The element that stands for the replacement `X[7:0]` in a format (R98 code 3). An element of q16x8 is a codebook index, neither integer
nor float, for which R98 states no conversion: it takes the value modulo 16, as an integer element does (DESIGN CHOICE, log 55). -/
def replElt (t : Fmt) (v : BitVec 8) : Nat :=
  let k := v.toInt
  let w := elemWidth t
  match t with
  | .f32 | .bf16x2 | .f16x2 | .e4m3x4 | .e5m2x4 | .bs4x8 | .mx4x8 =>
    (roundSat (fparam t) .rne .clamp 0 (ofScaled k 0 false)).bits
  | _ => (k % 2 ^ w).toNat

def replLane (t : Fmt) (v : BitVec 8) : W32 := packElts (elemWidth t) (List.replicate t.epl (replElt t v))

/-- What an empty policy makes of one lane: a result already decided, or the operands to compute with. -/
inductive Policy where
  | decided (l : Lane)
  | compute (a b c : W32)
deriving DecidableEq, Repr

/-- The empty policy of R98 on the lanes of ports a, b and c; `repl` is the replacement of code 3. A port the entry does
not have holds a full lane. -/
def emptyPolicy (pol : EmptyPol) (repl : W32) (a b c : Lane) : Policy :=
  match a, b, c with
  | some a, some b, some c => .compute a b c
  | a, b, c =>
    match pol with
    | .absorb => .decided none
    | .forward => .decided a
    | .zero => .compute (a.getD 0) (b.getD 0) (c.getD 0)
    | .imm => .compute (a.getD repl) (b.getD repl) (c.getD repl)

/-- What the firing's frames recorded of one lane's frame (R64, R411). -/
structure FrameTag where
  o1 : W32
  o2 : W32
  o3 : W32
  o4 : W32
  number : Nat
  depth : Nat
deriving DecidableEq, Repr

/-- The operands of one firing (R97). `fin` holds for each lane of port a the count of its token when the lane was the
token's final lane, and 0 otherwise. -/
structure Opnds where
  k : Nat
  a : List Lane
  b : List Lane
  c : List Lane
  fin : List Nat
  key : BitVec 12
  count : BitVec 4
  keyB : BitVec 12
  countB : BitVec 4
  gen : W32
  mode : Rnd
  tags : List FrameTag
  consts : List W32
deriving DecidableEq, Repr

namespace Opnds

/-- Lane `j` of a port; a lane the port does not hold is a full lane of zeros. -/
def lane (l : List Lane) (j : Nat) : Lane := l.getD j (some 0)

def validAt (o : Opnds) (n j : Nat) : Nat := validElts n (o.fin.getD j 0)

/-- Whether any lane of port a holds a value. -/
def anyLane (o : Opnds) : Bool := o.a.any Option.isSome

/-- The lowest non-empty lane of port a and its number. -/
def firstLane : List Lane → Nat → Option (Nat × W32)
  | [], _ => none
  | some v :: _, j => some (j, v)
  | none :: t, j => firstLane t (j + 1)

end Opnds

/-- One result run: its lanes, key and count. -/
structure Run where
  lanes : List Lane
  key : BitVec 12
  count : BitVec 4
deriving DecidableEq, Repr

/-- The results of a firing for TA and TB, its flags and the generator afterwards. -/
structure Res where
  ta : Run
  tb : Run
  flags : FpFlags
  gen : W32
deriving DecidableEq, Repr

/-- The same run to both targets (R199). -/
def Res.both (r : Run) (flags : FpFlags) (gen : W32) : Res := ⟨r, r, flags, gen⟩

end Sys2Proof.Machine
end

