-- ==== Sys2Proof/Machine/Alu.lean ====
section
/-! DEFINITION. What the XA instructions compute: the element rule of R312, the moves, conversions and packings, the lane
instructions of R357 and the block quantisers. Each function gives the result runs of one firing from its operands. -/
namespace Sys2Proof.Machine
open Sys2Proof

/-- The effective rounding mode: dyn takes the mode of ctx.fpmode (R47, R53). -/
def effRnd (r mode : Rnd) : Rnd := match r with
  | .dyn => mode
  | r => r

/-- An element operation: bits of x, z and y (ports a, b, c) and the generator. -/
abbrev EltOp := Nat → Nat → Nat → W32 → EltRes

/-- Elements `e` to `e + n - 1` of a lane in ascending order; an invalid element gives zero bits, no flag and no draw. -/
def eltLoop (lim : Nat) (f : Nat → W32 → EltRes) : Nat → Nat → W32 → List Nat × FpFlags × W32
  | 0, _, g => ([], 0, g)
  | n + 1, e, g =>
    let r := if e < lim then f e g else ⟨0, 0, g⟩
    let (t, fl, g') := eltLoop lim f n (e + 1) r.gen
    (r.bits :: t, r.flags ||| fl, g')

/-- One lane of an element operation of `ty`, its results `ow` bits apart in the result lane. -/
def eltLane (ty : Fmt) (ow lim : Nat) (op : EltOp) (a b c : W32) (g : W32) : W32 × FpFlags × W32 :=
  let w := elemWidth ty
  let (l, fl, g') := eltLoop lim (fun e g => op (elt w e a) (elt w e b) (elt w e c) g) ty.epl 0 g
  (packElts ow l, fl, g')

/-- Lanes `j` to `j + n - 1` in ascending order. -/
def laneLoop (f : Nat → W32 → Lane × FpFlags × W32) : Nat → Nat → W32 → List Lane × FpFlags × W32
  | 0, _, g => ([], 0, g)
  | n + 1, j, g =>
    let (l, fl, g) := f j g
    let (t, fl', g) := laneLoop f n (j + 1) g
    (l :: t, fl ||| fl', g)

/-- Lanes under the empty policy of the word (R98), then `f` on the lanes that it computes. -/
def policyLanes (x : XA) (opTy : Fmt) (o : Opnds) (f : Nat → W32 → W32 → W32 → W32 → Lane × FpFlags × W32) :
    List Lane × FpFlags × W32 :=
  let repl := replLane opTy (x.imm.extractLsb' 0 8)
  laneLoop (fun j g =>
    match emptyPolicy x.empty repl (Opnds.lane o.a j) (Opnds.lane o.b j) (Opnds.lane o.c j) with
    | .decided l => (l, 0, g)
    | .compute a b c => f j a b c g) o.k 0 o.gen

/-- The result of lanes with port a's key and count (R34). -/
def resA (o : Opnds) (r : List Lane × FpFlags × W32) : Res := .both ⟨r.1, o.key, o.count⟩ r.2.1 r.2.2

/-- R312: an element operation on every valid element, results packed `ow` bits apart. -/
def runElts (x : XA) (ow : Nat) (o : Opnds) (op : EltOp) : Res :=
  resA o (policyLanes x x.ty o fun j a b c g =>
    let (l, fl, g) := eltLane x.ty ow (o.validAt x.ty.epl j) op a b c g
    (some l, fl, g))

def runXA (x : XA) (o : Opnds) (op : EltOp) : Res := runElts x (elemWidth x.ty) o op

/-! ### Integer and float element operations -/

/-- `y := Op(x, z)` with an exact integer and an exact float form (R312). -/
def arithOp (x : XA) (mode : Rnd) (iop : Int → Int → Int) (fop : FVal → FVal → Option FVal) : EltOp := fun a b _ g =>
  let w := elemWidth x.ty
  if x.ty.isInt then
    ⟨narrow (Fmt.signed x.ty) w x.sat (iop (intVal (Fmt.signed x.ty) w a) (intVal (Fmt.signed x.ty) w b)), 0, g⟩
  else
    let p := fparam x.ty
    let u := p.decode a
    let v := p.decode b
    if u.isNan || v.isNan then nanRes p x.sat g (u.isSignalling || v.isSignalling)
    else match fop u v with
      | none => nanRes p x.sat g true
      | some y => roundSat p mode x.sat g y

def addOp (x : XA) (m : Rnd) : EltOp := arithOp x m (· + ·) (fadd m)
def subOp (x : XA) (m : Rnd) : EltOp := arithOp x m (· - ·) fun u v => fadd m u v.negate
def mulOp (x : XA) (m : Rnd) : EltOp := arithOp x m (· * ·) fmul

/-- An operation on the element's bits alone. -/
def bitOp (f : Nat → Nat → Nat) : EltOp := fun a b _ g => ⟨f a b, 0, g⟩

/-- An integer operation whose result and flags come from the signed or unsigned values (R371, R336, R388). -/
def intOp (ty : Fmt) (f : Int → Int → Int × FpFlags) (sat : Sat) : EltOp := fun a b _ g =>
  let w := elemWidth ty
  let s := Fmt.signed ty
  let (k, fl) := f (intVal s w a) (intVal s w b)
  ⟨narrow s w sat k, fl, g⟩

/-- Quotient rounded toward zero, with the cases of R336. -/
def divVal (ty : Fmt) (x z : Int) : Int × FpFlags :=
  let w := elemWidth ty
  let s := Fmt.signed ty
  if z = 0 then (if s ∧ x < 0 then intLo s w else intHi s w, flagDZ) else (x.tdiv z, 0)

/-- Remainder with the sign of x (R388). -/
def remVal (x z : Int) : Int × FpFlags := if z = 0 then (x, flagDZ) else (x.tmod z, 0)

def mulhOp (ty : Fmt) : EltOp := intOp ty (fun x z => ((x * z).fdiv (2 ^ elemWidth ty), 0)) .off
def divOp (x : XA) : EltOp := intOp x.ty (divVal x.ty) x.sat
def remOp (x : XA) : EltOp := intOp x.ty remVal .off

def shlBits (w a c : Nat) : Nat := if c < w then a * 2 ^ c % 2 ^ w else 0
def shrBits (w a c : Nat) : Nat := if c < w then a / 2 ^ c else 0
/-- Arithmetic shift: copies of the top bit enter, whatever the type's signedness (R394). -/
def sarBits (w a c : Nat) : Nat := ((intVal true w a).fdiv (2 ^ min c w) % 2 ^ w).toNat

def andnBits (w a b : Nat) : Nat := a &&& (2 ^ w - 1 - b % 2 ^ w)
def clzBits (w a : Nat) : Nat := w - bitLen a
def popBits : Nat → Nat → Nat
  | 0, _ => 0
  | w + 1, a => a % 2 + popBits w (a / 2)

/-- MAX and MIN (R364). -/
def pickOp (x : XA) (larger : Bool) : EltOp := fun a b _ g =>
  let w := elemWidth x.ty
  if x.ty.isInt then
    let s := Fmt.signed x.ty
    let bGreater := decide (intVal s w a < intVal s w b)
    ⟨if bGreater = larger then b else a, 0, g⟩
  else
    let p := fparam x.ty
    let u := p.decode a
    let v := p.decode b
    if u.isNan || v.isNan then nanRes p x.sat g (u.isSignalling || v.isSignalling)
    else
      let y := if fltTotal u v = larger then v else u
      let (bits, fl) := satBits p x.sat y false
      ⟨bits, fl, g⟩

/-- ABS and NEG: a sign change, never a rounding (R313, R372). -/
def signOp (x : XA) (neg : Bool) : EltOp := fun a _ _ g =>
  let w := elemWidth x.ty
  if x.ty.isInt then
    let k := intVal (Fmt.signed x.ty) w a
    ⟨narrow (Fmt.signed x.ty) w x.sat (if neg then -k else k.natAbs), 0, g⟩
  else
    let p := fparam x.ty
    match p.decode a with
    | .nan s => nanRes p x.sat g s
    | v =>
      let (bits, fl) := satBits p x.sat (if neg then v.negate else v.magnitude) false
      ⟨bits, fl, g⟩

/-- CMP: one bit (R331). -/
def cmpOp (ty : Fmt) (cond : Nat) : EltOp := fun a b _ g =>
  let w := elemWidth ty
  let test (lt eq : Bool) : Bool := match cond with
    | 0 => eq
    | 1 => !eq
    | 2 => lt
    | 3 => lt || eq
    | 4 => !lt && !eq
    | 5 => !lt
    | 6 => true
    | _ => false
  if ty.isInt then
    let s := Fmt.signed ty
    let u := intVal s w a
    let v := intVal s w b
    ⟨(test (decide (u < v)) (decide (u = v))).toNat, 0, g⟩
  else
    let p := fparam ty
    let u := p.decode a
    let v := p.decode b
    if u.isNan || v.isNan then
      let iv := u.isSignalling || v.isSignalling || (2 ≤ cond && cond ≤ 5)
      ⟨if cond = 1 ∨ cond = 7 then 1 else 0, flagIf iv flagIV, g⟩
    else ⟨(test (fltNum u v) (feqNum u v)).toNat, 0, g⟩

/-- CLASS: a 4-bit code (R329). -/
def classOp (ty : Fmt) : EltOp := fun a _ _ g =>
  let p := fparam ty
  let code := match p.decode a with
    | .nan s => if s then 1 else 2
    | .inf n => if n then 3 else 10
    | .fin n m _ =>
      if m = 0 then if n then 6 else 7
      else
        let sub := a / 2 ^ p.sig % 2 ^ p.exp == 0
        if n then if sub then 5 else 4 else if sub then 8 else 9
  ⟨code, 0, g⟩

/-- FMA: one rounding, one draw for each valid element under sto (R344). -/
def fmaOp (x : XA) (mode : Rnd) : EltOp := fun a b c g =>
  let p := fparam x.ty
  let u := p.decode a
  let v := p.decode b
  let z := p.decode c
  let zeroInf := (u.isZero && v.isInf) || (u.isInf && v.isZero)
  let sig := u.isSignalling || v.isSignalling || z.isSignalling
  let g' := (drawFor mode g).2
  if u.isNan || v.isNan || z.isNan || zeroInf then { nanRes p x.sat g' (sig || zeroInf) with gen := g' }
  else
    let prod := fmul0 u v
    let prod := if x.cond.toNat = 2 ∨ x.cond.toNat = 3 then prod.negate else prod
    let z := if x.cond.toNat = 1 ∨ x.cond.toNat = 3 then z.negate else z
    match fadd mode prod z with
    | none => { nanRes p x.sat g' true with gen := g' }
    | some y => { roundSat p mode x.sat g y with gen := g' }

/-- NRCP and NRSQ (R374). -/
def newtonEltOp (x : XA) (sqrt : Bool) (mode : Rnd) : EltOp := fun a b _ g =>
  let p := fparam x.ty
  let u := p.decode a
  let z := p.decode b
  if u.isNan || z.isNan then nanRes p x.sat g (u.isSignalling || z.isSignalling)
  else roundSat p mode x.sat g (newtonOp sqrt mode u z)

/-- RND (R390). -/
def rndOp (x : XA) (mode : Rnd) : EltOp := fun a _ _ g =>
  let p := fparam x.ty
  match p.decode a with
  | .nan s => nanRes p .off g s
  | v =>
    let (y, changed, g') := roundIntegral mode g v
    if changed then ⟨p.encode y, flagIf (x.cond == 0) flagNX, g'⟩ else ⟨a, 0, g'⟩

/-- A result run without the TY-typed Sat: the whole lane is one function of the lanes. -/
def runLanes (x : XA) (o : Opnds) (f : Nat → W32 → W32 → W32 → Lane) : Res :=
  resA o (policyLanes x x.ty o fun j a b c g => (f j a b c, 0, g))

/-! ### Moves (R100, R341, R342, R363, R367, R411) -/

/-- A run of lanes chosen by lane number. -/
def pickLanes (o : Opnds) (f : Nat → Lane) : List Lane := (List.range o.k).map f

/-- The key and count of a result without a flag. -/
def moveRes (o : Opnds) (l : List Lane) : Res := .both ⟨l, o.key, o.count⟩ 0 o.gen

def steerRes (o : Opnds) : Res :=
  let side (taken : Bool) : List Lane := pickLanes o fun j =>
    match Opnds.lane o.a j, Opnds.lane o.b j with
    | some v, some p => if (p != 0) = taken then some v else none
    | _, _ => none
  ⟨⟨side true, o.key, o.count⟩, ⟨side false, o.key, o.count⟩, 0, o.gen⟩

def mergeRes (o : Opnds) : Res :=
  let l := pickLanes o fun j => (Opnds.lane o.a j).or (Opnds.lane o.b j)
  if o.anyLane then .both ⟨l, o.key, o.count⟩ 0 o.gen else .both ⟨l, o.keyB, o.countB⟩ 0 o.gen

def maskRes (x : XA) (o : Opnds) : Res :=
  moveRes o (pickLanes o fun j =>
    match Opnds.lane o.a j, Opnds.lane o.b j with
    | some v, some p => if (p != 0) = (x.cond == 0) then some v else none
    | _, _ => none)

/-- Port a's lane with its invalid elements taken from port b, or zero when b is empty (R342). -/
def fillLane (ty : Fmt) (lim : Nat) (a b : Lane) : Lane :=
  match a with
  | none => b
  | some v =>
    let w := elemWidth ty
    some (packElts w ((List.range ty.epl).map fun e => if e < lim then elt w e v else elt w e (b.getD 0)))

def fillRes (x : XA) (o : Opnds) : Res :=
  .both ⟨pickLanes o fun j => fillLane x.ty (o.validAt x.ty.epl j) (Opnds.lane o.a j) (Opnds.lane o.b j), o.key, 0⟩ 0 o.gen

def fanRes (x : XA) (o : Opnds) : Res :=
  moveRes o (pickLanes o fun j =>
    match Opnds.lane o.a j with
    | some v => some v
    | none => match x.empty with
      | .absorb | .forward => none
      | .zero => some 0
      | .imm => some (replLane x.ty (x.imm.extractLsb' 0 8)))

def tagValue (cond : Nat) (o : Opnds) (t : FrameTag) : W32 :=
  match cond with
  | 0 => t.o1
  | 1 => t.o2
  | 2 => t.o3
  | 3 => t.o4
  | 4 => BitVec.ofNat 32 t.number
  | 5 => BitVec.ofNat 32 t.depth
  | 6 => o.key.zeroExtend 32
  | _ => o.count.zeroExtend 32

def tagrRes (x : XA) (o : Opnds) : Res :=
  runLanes x o fun j _ _ _ => some (tagValue x.cond.toNat o (o.tags.getD j ⟨0, 0, 0, 0, 0, 0⟩))

/-- The constant of a MOVI (R368). -/
def moviValue (ty : Fmt) (v : MoviVal) (consts : List W32) : W32 :=
  match v with
  | .pool i => consts.getD i.toNat 0
  | .imm n => match ty with
    | .f32 => n ++ (0 : BitVec 3)
    | _ => n.signExtend 32

def moviRes (ty : Fmt) (v : MoviVal) (o : Opnds) : Res :=
  .both ⟨pickLanes o fun j => (Opnds.lane o.a j).map fun _ => moviValue ty v o.consts, o.key, 0⟩ 0 o.gen

/-! ### Packing (R379, R421) -/

/-- The positions that cond names, in order (R379). -/
def halfPos (n cond e : Nat) : Nat :=
  match cond with
  | 0 => e
  | 1 => n / 2 + e
  | 2 => 2 * e
  | _ => 2 * e + 1

/-- Element of a lane, zero when it is invalid. -/
def validElt (w lim e : Nat) (v : W32) : Nat := if e < lim then elt w e v else 0

/-- PACK; only port a's lanes can hold invalid elements (R97). -/
def packRes (x : XA) (o : Opnds) : Res :=
  let n := x.ty.epl
  let w := elemWidth x.ty
  let r := policyLanes x x.ty o fun j a b _ g =>
    let lim := o.validAt n j
    let half (lim : Nat) (v : W32) := (List.range (n / 2)).map fun e => validElt w lim (halfPos n x.cond.toNat e) v
    (some (packElts w (half lim a ++ half n b)), 0, g)
  .both ⟨r.1, o.key, 0⟩ 0 o.gen

/-- One half of UNPK; a lane none of whose source elements is valid is empty. -/
def unpkLane (ty : Fmt) (cond lim : Nat) (second : Bool) (v : W32) : Lane :=
  let n := ty.epl
  let w := elemWidth ty
  let base := if second then n / 2 else 0
  if lim ≤ base then none
  else
    some (packElts w ((List.range n).map fun p =>
      match (List.range (n / 2)).find? fun e => halfPos n cond e = p with
      | some e => validElt w lim (base + e) v
      | none => 0))

def unpkRes (x : XA) (o : Opnds) : Res :=
  let side (second : Bool) := (policyLanes x x.ty o fun j a _ _ g =>
    (unpkLane x.ty x.cond.toNat (o.validAt x.ty.epl j) second a, 0, g)).1
  ⟨⟨side false, o.key, 0⟩, ⟨side true, o.key, 0⟩, 0, o.gen⟩

/-! ### Conversions (R334, R383) -/

/-- The conversion of one element from `src` to the type of the word (R51, R312). -/
def cvtElt (src ty : Fmt) (mode : Rnd) (sat : Sat) (bits : Nat) (g : W32) : EltRes :=
  let w := elemWidth ty
  let s := Fmt.signed ty
  let sv := intVal (Fmt.signed src) (elemWidth src) bits
  if src.isInt then
    if ty.isInt then ⟨narrow s w sat sv, 0, g⟩
    else roundSat (fparam ty) mode sat g (ofScaled sv 0 false)
  else
    let v := (fparam src).decode bits
    if ty.isInt then roundToInt (intLo s w) (intHi s w) w mode g v
    else match v with
      | .nan sg => nanRes (fparam ty) sat g sg
      | v => roundSat (fparam ty) mode sat g v

/-- Valid elements of a result lane whose source lane has `lim` of `ni` valid elements (R334). -/
def cvtValid (ni no part lim : Nat) : Nat :=
  if no ≤ ni then min no (lim - part * no)
  else if lim < ni then lim else no

/-- One lane of CVT: the result lane, whether it has a valid element, flags and generator. -/
def cvtLane (src : Fmt) (x : XA) (mode : Rnd) (lim : Nat) (v : W32) (g : W32) : Lane × FpFlags × W32 :=
  let ni := src.epl
  let no := x.ty.epl
  let part := x.cond.toNat
  let valid := cvtValid ni no part lim
  let (l, fl, g) := eltLoop valid (fun e g =>
    let s := if no ≤ ni then part * no + e else e
    if s < ni then cvtElt src x.ty mode x.sat (elt (elemWidth src) s v) g else ⟨0, 0, g⟩) no 0 g
  (if valid = 0 then none else some (packElts (elemWidth x.ty) l), fl, g)

def cvtRes (x : XA) (o : Opnds) : Res :=
  let src := (cvtSource x.imm).getD .i32
  let mode := effRnd x.rnd o.mode
  let r := policyLanes x src o fun j a _ _ g => cvtLane src x mode (o.validAt src.epl j) a g
  let lastLim := o.validAt src.epl (o.k - 1)
  let valid := cvtValid src.epl x.ty.epl x.cond.toNat lastLim
  let count : BitVec 4 := if valid = x.ty.epl || r.1.getLast? == some none then 0 else BitVec.ofNat 4 valid
  .both ⟨r.1, o.key, count⟩ r.2.1 r.2.2

def qdecLane (part lim : Nat) (a s c : W32) : Lane × FpFlags :=
  let one (k : Nat) : Nat × FpFlags :=
    let e := 2 * part + k
    if e < lim then decodeQ16 (elt 4 e a) s.toNat (c.toNat % 256) else (0, 0)
  let (b0, f0) := one 0
  let (b1, f1) := one 1
  (if lim ≤ 2 * part then none else some (packElts 16 [b0, b1]), f0 ||| f1)

def qdecRes (x : XA) (o : Opnds) : Res :=
  let part := x.cond.toNat
  let r := policyLanes x x.ty o fun j a b c g =>
    let (l, f) := qdecLane part (o.validAt 8 j) a b c
    (l, f, g)
  let lim := o.validAt 8 (o.k - 1)
  .both ⟨r.1, o.key, if lim = 2 * part + 1 && r.1.getLast? != some none then 1 else 0⟩ r.2.1 r.2.2

/-! ### Lane instructions (R357, R360, R361, R398, R397) -/

/-- Source lane of SHFL (R398). -/
def shflSource (cond g d j : Nat) (idx : Lane) : Option Nat :=
  match cond with
  | 0 => match idx with
    | none => none
    | some v => let i := v.toNat % 32; if i < g then some i else none
  | 1 => some (j ^^^ d)
  | 2 => if j < d then none else some (j - d)
  | 3 => if j + d < g then some (j + d) else none
  | _ => some ((j + g - d) % g)

/-- A lane with its invalid elements as zero bits. -/
def validLane (ty : Fmt) (lim : Nat) (v : W32) : W32 :=
  packElts (elemWidth ty) ((List.range ty.epl).map fun e => validElt (elemWidth ty) lim e v)

def shflRes (x : XA) (o : Opnds) : Res :=
  let zero := x.empty == .zero
  let l := pickLanes o fun j =>
    let idx := if x.cond = 0 then Opnds.lane o.b j else some 0
    if idx = none then (if zero then some 0 else none)
    else match shflSource x.cond.toNat o.k (laneArg x.imm) j idx with
      | none => none
      | some s => match Opnds.lane o.a s with
        | some v => some (validLane x.ty (o.validAt x.ty.epl s) v)
        | none => if zero then some 0 else none
  .both ⟨l, o.key, 0⟩ 0 o.gen

def lbctRes (x : XA) (o : Opnds) : Res :=
  let s := laneArg x.imm
  let v := match Opnds.lane o.a s with
    | some v => some (validLane x.ty (o.validAt x.ty.epl s) v)
    | none => if x.empty = .zero then some 0 else none
  .both ⟨pickLanes o fun _ => v, o.key, 0⟩ 0 o.gen

/-- Step of LRED and LSCN (R360). -/
def foldStep (x : XA) (mode : Rnd) (acc v : Nat) (g : W32) : EltRes :=
  match x.cond.toNat with
  | 0 => addOp x mode acc v 0 g
  | 1 => pickOp { x with sat := .off } false acc v 0 g
  | 2 => pickOp { x with sat := .off } true acc v 0 g
  | 3 => ⟨acc &&& v, 0, g⟩
  | 4 => ⟨acc ||| v, 0, g⟩
  | _ => ⟨acc ^^^ v, 0, g⟩

/-- Lane `j` takes part in a fold: it is not empty, or an empty lane counts as zero. -/
def foldTakes (x : XA) (o : Opnds) (j : Nat) : Bool := (Opnds.lane o.a j).isSome || x.empty == .zero

/-- The fold of element `e` over `n` lanes from `j` on, in ascending order: the accumulator after each lane (R360). -/
def foldElt (x : XA) (mode : Rnd) (o : Opnds) (e : Nat) :
    Nat → Nat → Option Nat → W32 → List (Option Nat) × FpFlags × W32
  | 0, _, _, g => ([], 0, g)
  | n + 1, j, acc, g =>
    let r : Option Nat × FpFlags × W32 :=
      if foldTakes x o j && decide (e < o.validAt x.ty.epl j) then
        let b := elt (elemWidth x.ty) e ((Opnds.lane o.a j).getD 0)
        match acc with
        | none => (some b, 0, g)
        | some a => let y := foldStep x mode a b g; (some y.bits, y.flags, y.gen)
      else (acc, 0, g)
    let (t, fl, g') := foldElt x mode o e n (j + 1) r.1 r.2.2
    (r.1 :: t, r.2.1 ||| fl, g')

/-- The folds of the elements from `e` on, one element after the other. -/
def foldElts (x : XA) (mode : Rnd) (o : Opnds) : Nat → Nat → W32 → List (List (Option Nat)) × FpFlags × W32
  | 0, _, g => ([], 0, g)
  | n + 1, e, g =>
    let (l, fl, g) := foldElt x mode o e o.k 0 none g
    let (t, fl', g) := foldElts x mode o n (e + 1) g
    (l :: t, fl ||| fl', g)

def foldAll (x : XA) (o : Opnds) : List (List (Option Nat)) × FpFlags × W32 :=
  foldElts x (effRnd x.rnd o.mode) o x.ty.epl 0 o.gen

/-- The lane of the accumulators after lane `j`. -/
def accLane (ty : Fmt) (l : List (List (Option Nat))) (j : Nat) : W32 :=
  packElts (elemWidth ty) (l.map fun c => (c.getD j none).getD 0)

def lredRes (x : XA) (o : Opnds) : Res :=
  let (l, fl, g) := foldAll x o
  let met := (List.range o.k).any (foldTakes x o)
  .both ⟨pickLanes o fun _ => if met then some (accLane x.ty l (o.k - 1)) else none, o.key, 0⟩ fl g

def lscnRes (x : XA) (o : Opnds) : Res :=
  let (l, fl, g) := foldAll x o
  .both ⟨pickLanes o fun j => if foldTakes x o j then some (accLane x.ty l j) else none, o.key, 0⟩ fl g

/-- A score is a NaN (R124). -/
def scoreNan (u : W32) : Bool := (fpF32.decode u.toNat).isNan

/-- Delay code of a score: a higher score never arrives later (R124). -/
def raceDelay (u : W32) : Nat :=
  let key := if u.getLsbD 31 then ~~~u else u ||| 0x80000000
  0xFFFF - (key.extractLsb' 16 16).toNat

/-- Insert a candidate by (delay, index). -/
def raceInsert (c : Nat × Nat) : List (Nat × Nat) → List (Nat × Nat)
  | [] => [c]
  | h :: t => if c.1 < h.1 ∨ (c.1 = h.1 ∧ c.2 < h.2) then c :: h :: t else h :: raceInsert c t

/-- Live candidates in race order: every score that is present, no NaN and not dead. -/
def raceOrder (scores : List Lane) (dead : Nat → Bool) : List Nat :=
  let live := (List.range scores.length).filterMap fun i =>
    match scores.getD i none with
    | some u => if scoreNan u || dead i then none else some (raceDelay u, i)
    | none => none
  (live.foldl (fun acc c => raceInsert c acc) []).map (·.2)

/-- Candidates in race order, skipping those whose group of `gs` already holds `lim` choices (R124; 0 is no limit). -/
def raceTake (gs lim : Nat) : Nat → List Nat → List Nat → List Nat
  | 0, _, taken => taken
  | _, [], taken => taken
  | k + 1, c :: t, taken =>
    if lim ≠ 0 ∧ lim ≤ (taken.filter fun d => d / gs = c / gs).length then raceTake gs lim (k + 1) t taken
    else raceTake gs lim k t (taken ++ [c])

def selkRes (k : Nat) (o : Opnds) : Res :=
  let ch := raceTake 256 0 k (raceOrder o.a fun _ => false) []
  let ta := pickLanes o fun m =>
    match ch[m]? with
    | some i => some (BitVec.ofNat 32 i)
    | none => if m < k then some 0x80000000 else none
  let tb := pickLanes o fun m =>
    match ch[m]? with
    | some i => Opnds.lane o.a i
    | none => none
  ⟨⟨ta, o.key, 0⟩, ⟨tb, o.key, 0⟩, 0, o.gen⟩

/-! ### Block quantisers (R324, R384) -/

/-- A magnitude as a multiple of 2^-320, which holds every finite f32 value times 2^-8 exactly. -/
def mag320 : FVal → Nat
  | .fin _ m e => m * pow2 (e + 320)
  | _ => 0

def laneVals (l : List Lane) : List (Option FVal) := l.map fun v => v.map fun b => fpF32.decode b.toNat

def amaxOf (l : List (Option FVal)) : Nat := l.foldl (fun acc v => match v with | some f => max acc (mag320 f) | none => acc) 0

/-- The smallest bs4x8 scale field with 6 × scale ≥ amax, from field `n` on; the largest scale if none (R324). -/
def bsScale (amax : Nat) : Nat → Nat → Nat
  | 0, _ => 509
  | fuel + 1, n =>
    if amax * 2 ≤ 6 * ((2 + n % 2) * pow2 ((n / 2 : Nat) - 127 + 320)) then n else bsScale amax fuel (n + 1)

/-- mx4x8: min(254, max(0, floor(log2 amax) − 2 + 127)) (R324). -/
def mxScale (amax : Nat) : Nat :=
  if amax = 0 then 0 else min 254 ((bitLen amax : Int) - 1 - 320 - 2 + 127).toNat

/-- One E2M1 element of a block: v ÷ S rounded, S = sm × 2^se (R324). -/
def bsqElt (mode : Rnd) (sm : Nat) (se : Int) (v : FVal) (g : W32) : EltRes :=
  match v with
  | .fin neg m e =>
    let (r, g') := drawFor mode g
    let n := m * 2 ^ 64
    let y := roundTo fpE2m1 mode neg (n / sm) (e - 64 - se) (n % sm != 0) r
    let (b, f) := satBits fpE2m1 .finite (if m = 0 then .fin neg 0 0 else y.val) y.ovf
    ⟨b, y.flags ||| f, g'⟩
  | _ => ⟨0, 0, g⟩

def bsqElts (mode : Rnd) (sm : Nat) (se : Int) : List (Option FVal) → W32 → List Nat × FpFlags × W32
  | [], g => ([], 0, g)
  | none :: t, g =>
    let (l, fl, g') := bsqElts mode sm se t g
    (0 :: l, fl, g')
  | some v :: t, g =>
    let r := bsqElt mode sm se v g
    let (l, fl, g') := bsqElts mode sm se t r.gen
    (r.bits :: l, r.flags ||| fl, g')

/-- Elements packed eight to a lane, the first lanes of a run of `k`, the rest empty. -/
def packBlock (els : List Nat) (lanes k : Nat) : List Lane :=
  (List.range k).map fun q => if q < lanes then some (packElts 4 ((els.drop (8 * q)).take 8)) else none

def firstOf (v : W32) (k : Nat) : List Lane := (List.range k).map fun j => if j = 0 then some v else none

def emptyRun (key : BitVec 12) (k : Nat) : Run := ⟨List.replicate k none, key, 0⟩

def bsqRes (x : XA) (o : Opnds) : Res :=
  let vals := laneVals o.a
  let present := vals.filterMap id
  if present.isEmpty then .both (emptyRun o.key 32) 0 o.gen
  else if present.any fun v => v.isNan || v.isInf then
    let scale : W32 := if x.ty = .bs4x8 then 0x1FE else 0xFF
    let fl := flagIf (present.any fun v => v.isInf || v.isSignalling) flagIV
    ⟨⟨packBlock (List.replicate 32 0) 4 32, o.key, 0⟩, ⟨firstOf scale 32, o.key, 0⟩, fl, o.gen⟩
  else
    let amax := amaxOf vals
    let (scale, sm, se) : Nat × Nat × Int :=
      if x.ty = .bs4x8 then
        let n := if amax = 0 then 0 else bsScale amax 510 0
        (n, 2 + n % 2, ((n / 2 : Nat) : Int) - 128)
      else
        let n := mxScale amax
        (n, 1, (n : Int) - 127)
    let (els, fl, g) := bsqElts (effRnd x.rnd o.mode) sm se vals o.gen
    ⟨⟨packBlock els 4 32, o.key, 0⟩, ⟨firstOf (BitVec.ofNat 32 scale) 32, o.key, 0⟩, fl, g⟩

/-- t(c) × 2^-8 as a multiple of 2^-320, `none` where t(c) is not finite (R384). -/
def qencBound (s c : Nat) : Option Nat :=
  match fpF32.decode (scaleOf s c).bits with
  | .fin _ m e => some (m * pow2 (e - 8 + 320))
  | _ => none

/-- The smallest code from `c` on whose bound reaches amax, or the last finite one. -/
def qencCode (s amax : Nat) : Nat → Nat → Nat → Nat
  | 0, _, best => best
  | fuel + 1, c, best =>
    match qencBound s c with
    | none => best
    | some b => if amax ≤ b then c else qencCode s amax fuel (c + 1) c

/-- The code whose value lies nearest to `v`, all in units of 2^-328; on a tie the smaller magnitude. -/
def nearestCode (bound : Nat) (v : Int) : Nat → Nat → Nat
  | 0, best => best
  | n + 1, best =>
    let q := 15 - n
    let d (q : Nat) : Nat := (codebook256 q * bound - v * 256).natAbs
    let better := d q < d best ∨ (d q = d best ∧ (codebook256 q).natAbs < (codebook256 best).natAbs)
    nearestCode bound v n (if better then q else best)

def qencElt (bound : Nat) : Option FVal → Nat × FpFlags
  | none => (7, 0)
  | some (.nan _) => (7, flagIV)
  | some (.inf neg) => (if neg then 0 else 15, flagIV)
  | some (.fin neg m e) =>
    let u := mag320 (.fin neg m e)
    let v : Int := if neg then -(u : Int) else u
    let q := nearestCode bound v 15 0
    (q, flagIf (codebook256 q * bound != v * 256) flagNX ||| flagIf (decide (bound < u)) flagOF)

def qencRes (o : Opnds) : Res :=
  let vals := laneVals o.a
  let out (codes : List Nat) (c : Nat) (fl : FpFlags) : Res :=
    ⟨⟨packBlock codes 8 32, o.key, 0⟩, ⟨firstOf (BitVec.ofNat 32 c) 32, o.key, 0⟩, fl, o.gen⟩
  if vals.all Option.isNone then .both (emptyRun o.key 32) 0 o.gen
  else
    let bad := out (List.replicate 64 7) 0 flagIV
    match Opnds.lane o.b 0 with
    | none => bad
    | some s => match fpF32.decode s.toNat with
      | .fin false m _ =>
        if m = 0 then bad
        else
          let c := qencCode s.toNat (amaxOf vals) 256 0 0
          let bound := (qencBound s.toNat c).getD 0
          let r := vals.map (qencElt bound)
          out (r.map (·.1)) c (r.foldl (fun f e => f ||| e.2) 0)
      | _ => bad

/-! ### One result function for each entry -/

def resAdd (x : XA) (o : Opnds) : Res := runXA x o (addOp x (effRnd x.rnd o.mode))
def resSub (x : XA) (o : Opnds) : Res := runXA x o (subOp x (effRnd x.rnd o.mode))
def resMul (x : XA) (o : Opnds) : Res := runXA x o (mulOp x (effRnd x.rnd o.mode))
def resMulh (x : XA) (o : Opnds) : Res := runXA x o (mulhOp x.ty)
def resDiv (x : XA) (o : Opnds) : Res := runXA x o (divOp x)
def resRem (x : XA) (o : Opnds) : Res := runXA x o (remOp x)
def resMin (x : XA) (o : Opnds) : Res := runXA x o (pickOp x false)
def resMax (x : XA) (o : Opnds) : Res := runXA x o (pickOp x true)
def resAbs (x : XA) (o : Opnds) : Res := runXA x o (signOp x false)
def resNeg (x : XA) (o : Opnds) : Res := runXA x o (signOp x true)
def resCmp (x : XA) (o : Opnds) : Res := runElts x 1 o (cmpOp x.ty x.cond.toNat)
def resClz (x : XA) (o : Opnds) : Res := runXA x o (bitOp fun a _ => clzBits (elemWidth x.ty) a)
def resPopc (x : XA) (o : Opnds) : Res := runXA x o (bitOp fun a _ => popBits (elemWidth x.ty) a)
def resAnd (x : XA) (o : Opnds) : Res := runXA x o (bitOp fun a b => a &&& b)
def resOr (x : XA) (o : Opnds) : Res := runXA x o (bitOp fun a b => a ||| b)
def resXor (x : XA) (o : Opnds) : Res := runXA x o (bitOp fun a b => a ^^^ b)
def resAndn (x : XA) (o : Opnds) : Res := runXA x o (bitOp (andnBits (elemWidth x.ty)))
def resShl (x : XA) (o : Opnds) : Res := runXA x o (bitOp (shlBits (elemWidth x.ty)))
def resShr (x : XA) (o : Opnds) : Res := runXA x o (bitOp (shrBits (elemWidth x.ty)))
def resSar (x : XA) (o : Opnds) : Res := runXA x o (bitOp (sarBits (elemWidth x.ty)))
def resFma (x : XA) (o : Opnds) : Res := runXA x o (fmaOp x (effRnd x.rnd o.mode))
def resRcp (x : XA) (o : Opnds) : Res := runXA x o fun a _ _ g => rcpElt x.ty x.sat g ((fparam x.ty).decode a)
def resRsq (x : XA) (o : Opnds) : Res := runXA x o fun a _ _ g => rsqElt x.ty x.sat g ((fparam x.ty).decode a)
def resNrcp (x : XA) (o : Opnds) : Res := runXA x o (newtonEltOp x false (effRnd x.rnd o.mode))
def resNrsq (x : XA) (o : Opnds) : Res := runXA x o (newtonEltOp x true (effRnd x.rnd o.mode))
def resExp2 (x : XA) (o : Opnds) : Res :=
  runXA x o fun a _ _ g => exp2Elt x.ty (effRnd x.rnd o.mode) x.sat g a ((fparam x.ty).decode a)
def resLog2 (x : XA) (o : Opnds) : Res :=
  runXA x o fun a _ _ g => log2Elt x.ty (effRnd x.rnd o.mode) x.sat g a ((fparam x.ty).decode a)
def resTanh (x : XA) (o : Opnds) : Res :=
  runXA x o fun a _ _ g => tanhElt x.ty (effRnd x.rnd o.mode) g a ((fparam x.ty).decode a)
def resClass (x : XA) (o : Opnds) : Res := runElts x 4 o (classOp x.ty)
def resRnd (x : XA) (o : Opnds) : Res := runXA x o (rndOp x (effRnd x.rnd o.mode))

end Sys2Proof.Machine
end

