-- ==== Sys2Proof/Machine/State.lean ====
section
/-! DEFINITION. The state of the machine: everything the spec gives a package, as plain data, and the state after reset.
Places are numbered: a place is die × 256 + tile index (R20; indices 144 up are slices and streamer islands); a context
is place × 8 + context; a channel end is place × 64 + channel; a unit of a tile is place × 64 + unit. -/
namespace Sys2Proof.Machine
open Sys2Proof

/-! ### Places -/

def placeOf (die tile : Nat) : Nat := die * 256 + tile
def ctxId (die tile c : Nat) : Nat := placeOf die tile * 8 + c
def chanId (die tile ch : Nat) : Nat := placeOf die tile * 64 + ch
def unitId (die tile u : Nat) : Nat := placeOf die tile * 64 + u

/-- Source number of a unit (R20). -/
def sourceNo (die tile unit : Nat) : BitVec 16 :=
  BitVec.ofNat 2 die ++ BitVec.ofNat 8 tile ++ BitVec.ofNat 6 unit

/-! ### Memory -/

/-- A memory: bytes by address, addresses strictly rising, no entry 0; an address that is not listed reads 0 (R180). -/
abbrev Memory := List Host.Cell

/-- One line of an L1 or L2 (R138, R150, R156, R159): its canonical name, its 128 bytes, one poison bit for each 8 bytes,
one dirty bit for each byte, the scope recorded with it, the W bit of its page, its slice and way, the physical address
it fills from and its replacement hint (R381). -/
structure Line where
  asid : BitVec 8
  line : Nat
  data : List Byte
  poison : BitVec 16
  dirty : BitVec 128
  scope : Scope
  w : Bool
  slice : Nat
  way : Nat
  pa : Nat
  hint : Pol := .normal
deriving DecidableEq, Repr

/-! ### Tokens and channels -/

/-- A token (R28 to R31, R35). A data token whose format word is 0 is an EMPTY token. -/
inductive Token where
  | data (ctx : BitVec 3) (frame : BitVec 12) (fmt : BitVec 4) (key : BitVec 12) (count : BitVec 4) (lanes : List Lane)
  | mark (ctx : BitVec 3) (cls : MarkClass) (pay : BitVec 12)
deriving DecidableEq, Repr, Inhabited

/-- What an input channel feeds (R63, R95, R222, R112, R127). -/
inductive Sink where
  | idle
  | lead (c : Nat)
  | bound (c ins : Nat) (p : Port) (word : Option Nat)
  | entry (c : Nat)
  | unit (u port : Nat)
deriving DecidableEq, Repr

/-- What sends on an output channel. -/
inductive Producer where
  | idle
  | context (c : Nat)
  | unit (u port : Nat)
deriving DecidableEq, Repr

/-- The consumer's end of a channel (R109, R136, R233): its descriptor, the queued tokens, the tokens still on the link,
the received count, the word counter and declared count of a copy channel, what it feeds, the eligible frames that await
a lane of a bound channel (R95), the count of a lantern marker under way and of one that has arrived, and whether the last
token consumed was EOS; `cut`: lanes of the head token have been taken, its tail stands there (R68, R96). -/
structure InChan where
  desc : W64 := 0
  queue : List Token := []
  flight : List Token := []
  received : W32 := 0
  words : W32 := 0
  want : W32 := 0
  sink : Sink := .idle
  await : List Nat := []
  coming : Option W32 := none
  marker : Option W32 := none
  eos : Bool := false
  cut : Bool := false
deriving DecidableEq, Repr

/-- The producer's end of a channel (R109, R233): descriptor, credits held, credits on their way back on VC1, sent count,
what produces for it, and whether the last token sent was EOS. -/
structure OutChan where
  desc : W64 := 0
  credits : Nat := 0
  returning : Nat := 0
  sent : W32 := 0
  src : Producer := .idle
  eos : Bool := false
deriving DecidableEq, Repr

/-! ### Contexts -/

/-- One operand lane in the token store (R88, R97): the instruction and port it waits at, its value (a status at a w
port), whether a run boundary stands before it, its token's format word and key, and the token's count if it was the final lane. -/
structure Slot where
  ins : Nat
  port : Port
  lane : Lane
  start : Bool
  fmt : BitVec 4
  key : BitVec 12
  fin : BitVec 4
deriving DecidableEq, Repr

/-- A frame (R64, R88, R106). `num` counts allocations since configuration; the frame's number is `num` modulo 4096 (R90).
`word` is the grammar word that allocated it (R95). -/
structure Frame where
  num : Nat
  depth : Nat := 0
  word : Option Nat := none
  o1 : W32 := 0
  o2 : W32 := 0
  o3 : W32 := 0
  o4 : W32 := 0
  fired : BitVec 128 := 0
  poisoned : Bool := false
  slots : List Slot := []
deriving DecidableEq, Repr

inductive SeqRun where
  | running | accepted | stopped
deriving DecidableEq, Repr

/-- A stack entry (R62). -/
structure StackEntry where
  ret : BitVec 12 := 0
  rlbl : BitVec 12 := 0
  rv : Bool := false
  rlev : BitVec 3 := 0
deriving DecidableEq, Repr

/-- The sequencer state of a context (R61, R62). The stack's first element is entry `depth`, its last the base entry.
`closing`: ACPT has consumed its EOS and waits for commits. `gwait`: the launch and allocation head that a begun GWAIT recorded (R348); `goal`: the head that a restored one had recorded, as its
number, until the context that it names has its restored state (R79).
`wait`: since when the current allocation has been throttled (R104), and `entry`: the handler-table entry whose allocation it is (R223). -/
structure Seq where
  pc : BitVec 12 := 0
  run : SeqRun := .running
  mcls : BitVec 4 := 0
  mpay : BitVec 12 := 0
  recov : Bool := false
  o1 : W32 := 0
  o2 : W32 := 0
  o3 : W32 := 0
  o4 : W32 := 0
  lanes : W32 := 0
  dcnt : W32 := 0
  stack : List StackEntry := [{}]
  closing : Bool := false
  gwait : Option (Nat × Nat) := none
  goal : Option Nat := none
  wait : Option Nat := none
  entry : Option Nat := none
deriving DecidableEq, Repr

/-- A fault record (R228); w5 to w7 are zero. -/
structure Record where
  code : BitVec 8
  source : BitVec 16
  ctx : BitVec 3
  frame : BitVec 12
  index : BitVec 12
  part : BitVec 5
  time : W64
  aux : W64
  detail : W64
  snap : W64
deriving DecidableEq, Repr

/-- Where a faulting firing goes on after a retry: the lanes already performed, their results, revised times by lane (R426),
the address or row within the lane where it stopped (R320, R335, R391, R424), and of an SBAR that has taken its cut, the units whose last
access a fault has stopped (R396). -/
structure Resume where
  lane : Nat := 0
  ta : List Lane := []
  tb : List Lane := []
  times : List (Nat × W64) := []
  at' : Option Nat := none
  flags : FpFlags := 0
  cut : Option (List Nat) := none
deriving DecidableEq, Repr

/-- What a stop of a context stands for (R76, R227, R434). -/
inductive StopSite where
  | grammar (reason : Nat)
  | tags
  | duplicate
  | firing (ins frame k : Nat) (resume : Resume)
  | stored
  | unit (u : Nat)
  | copy (die str n word : Nat)
  | ring (die eng slot : Nat)
  | gather (ins frame lane : Nat)
  | rotation (die eng ins frame k : Nat)
  | send (die eng slot ins frame k : Nat) (resume : Resume)
  | snapshot
deriving DecidableEq, Repr

/-- A record of a context that no TRET has answered (R76, R227). `base` is the frame it waits on (its number since
configuration), `none` for a fault outside a firing; `delivered`: its handler has it (R229). -/
structure Stop where
  record : Record
  site : StopSite
  base : Option Nat
  delivered : Bool := false
deriving DecidableEq, Repr

/-- What a firing under way waits for. -/
inductive Work where
  /-- BAR: the lanes whose episodes have filled (R287) -/
  | barrier (done : List Nat)
  /-- WTIL: its lanes still to pass, with their times, the next first, and the times that a retry has revised (R426) -/
  | promise (left : List (Nat × Nat)) (revised : List (Nat × W64))
  /-- WLOAD: its latch tile and the lane whose fill is under way (R422) -/
  | weights (tile lane : Nat)
  /-- GATH (R345) -/
  | gather
  /-- ROTA (R295) -/
  | rotation (eng : Nat)
  /-- ATTN: the lane and row where it waits for its turn or for the query latch (R320) -/
  | attend (lane row : Nat)
  /-- OPSET: its unit and word, and the lane whose write is queued (R376) -/
  | parameter (unit word lane : Nat)
deriving DecidableEq, Repr

/-- A firing under way: its instruction, first frame, run length and what it waits for. -/
structure Inflight where
  ins : Nat
  frame : Nat
  k : Nat
  work : Work
deriving DecidableEq, Repr

/-- An entry of the output buffer (R103, R77): channel, base frame, instruction (0 for an EMK mark, one more than its
index for a token), TB, the commit head it waits for, the token, and whether it has been released. -/
structure OutEntry where
  chan : Nat
  base : Nat
  ins : Nat
  tb : Bool
  need : Nat
  tok : Token
  released : Bool
deriving DecidableEq, Repr

/-- A grammar region (R60, R66): as loaded, or in a graph image with its entry and tables counted from its base (R207). -/
structure Region where
  base : Nat := 0
  len : Nat := 0
  tables : List Nat := []
  entry : Nat := 0
deriving DecidableEq, Repr

/-- What one configuration of a context carries (R216, R220); in a graph image, the labels of `words` count from the region's base
(R207). -/
structure CtxConf where
  image : List W64 := []
  grammar : Option Region := none
  words : List W32 := []
  prio : W32 := 0
  floor : W64 := 0xFFF0000000000001
  fpmode : W32 := 0
  handler : W32 := 0
  bases : List W64 := List.replicate 8 0
deriving DecidableEq, Repr

/-- A Vigil window (R238 to R240): since when the context has been stalled, its three counters then, and the log2 of its length. -/
structure Watch where
  since : Nat
  firings : W32
  commits : W32
  marks : W32
  lw : Nat
deriving DecidableEq, Repr

/-- A context of a tile (03, 04, 09). -/
structure Ctx where
  active : Bool := false
  killed : Bool := false
  halting : Option Nat := none
  part : Nat := 0
  launch : Nat := 0
  image : List W64 := []
  grammar : Option Region := none
  seq : Seq := {}
  prio : W32 := 0
  floor : W64 := 0xFFF0000000000001
  fpmode : W32 := 0
  fpflags : W32 := 0
  handler : W32 := 0
  bases : List W64 := List.replicate 8 0
  holds : List (List Lane) := List.replicate 16 (List.replicate 32 none)
  ahead : Nat := 0
  chead : Nat := 0
  frames : List Frame := []
  ack : W32 := 0
  late : W32 := 0
  out : List OutEntry := []
  quota : Nat := 2
  stops : List Stop := []
  answering : Option Nat := none
  inflight : List Inflight := []
  resumes : List (Nat × Nat × Nat × Resume) := []
  ages : List (Nat × Nat × Nat) := []
  yielding : Bool := false
  firings : W32 := 0
  commits : W32 := 0
  marks : W32 := 0
  splice : Option (Nat × CtxConf) := none
  started : Bool := false
  frozen : Bool := false
  lastCommit : Nat := 0
  watch : Option Watch := none
deriving DecidableEq, Repr

/-! ### Operator units (R112 to R126) -/

/-- A parameter write that waits for its unit's boundary (R376): word, value, and the OPSET firing that waits for it. -/
structure ParamWrite where
  word : Nat
  value : W32
  ctx : Nat
  ins : Nat
  frame : Nat
deriving DecidableEq, Repr

/-- An operator unit: its parameter words, event count, owning context, and the state its kind keeps between two tokens.
Which fields a kind uses stands at its event in Machine/Units.lean. -/
structure OpUnit where
  active : Bool := false
  p : List W32 := List.replicate 16 0
  cnt : BitVec 24 := 0
  owner : Nat := 0
  /-- the launch that configured it, and whether another launch's parameters wait for its EOS (R220) -/
  launch : Nat := 0
  spliced : Bool := false
  /-- parameter writes that wait for the gap between two tokens; word 16 is the status word (R112) -/
  writes : List ParamWrite := []
  /-- tokens made, each waiting for a credit of its output port -/
  out : List (Nat × Token) := []
  started : Bool := false
  ended : Bool := false
  stopped : Bool := false
  /-- a fault stopped the unit inside a token that it has not handled since (R112, R396, R434) -/
  halfway : Bool := false
  skipping : Nat := 0
  frozen : Bool := false
  /-- READ, WRITE: i0 to i3 of the next position; `dim`: marks of the current step already sent; `past`: past the shape -/
  i0 : Nat := 0
  i1 : Nat := 0
  i2 : Nat := 0
  i3 : Nat := 0
  dim : Nat := 0
  past : Bool := false
  status : BitVec 8 := 0
  /-- ROUTE in replay mode: the current row -/
  toks : List (Nat × Token) := []
  /-- QUEUE, REORDER: the tokens that lie in the scratchpad, oldest first: sequence number (REORDER) and byte offset -/
  store : List (Nat × Nat) := []
  /-- REDUCE: accumulator lanes, and whether a data or EMPTY token has arrived since the last mark of level L -/
  acc : List Lane := []
  got : Bool := false
  /-- MERGE: current input and the inputs that have ended -/
  cur : Nat := 0
  done : List Nat := []
  /-- SELECT: rows of the container so far; CONVERT: output elements not yet sent -/
  rows : List (List Lane) := []
  elts : List (Option Nat) := []
  key : BitVec 12 := 0
  /-- SELECT: containers since start; ROUTE: rows since start; REDUCE: lanes of the row so far; CONVERT: element positions of the
  stream so far, and in i1 how many of the last ones hold no valid element -/
  n : Nat := 0
  /-- INTERSECT: the last coordinate of each side; CONVERT: scale lanes; ROUTE: the entry half read -/
  last : List (Option W32) := [none, none]
deriving DecidableEq, Repr

/-! ### Matrix islands (R127 to R132) and attention engines (R244 to R252) -/

/-- A tile of the weight latch (R128): the format it was filled with, its columns of element bits, the scale of each block
of each column, its binding, whether a fill is under way, and a binding that waits for the fill. -/
structure LatchTile where
  fmt : Option Fmt := none
  cols : List (List Nat) := []
  scales : List (List Nat) := []
  bind : Option (BitVec 12 × Nat) := none
  loading : Bool := false
  pending : Option (BitVec 12 × Nat) := none
deriving DecidableEq, Repr

/-- One row of A, or a mark in its place among the rows (R129, R282). `complete` when its ER has come; `next` is the next
chunk to issue; `sum` its accumulators in the default output mode once a chunk has issued; `l0` is its first lane's number in the
stream of A (R42); `place`: in hold mode, its number in the group, once a chunk has issued. -/
structure IslandRow where
  mark : Option (MarkClass × BitVec 12) := none
  ctx : BitVec 3 := 0
  key : BitVec 12 := 0
  fmt : BitVec 4 := 0
  lanes : List Lane := []
  valid : List Nat := []
  l0 : Nat := 0
  complete : Bool := false
  gathered : Bool := false
  next : Nat := 0
  sum : List W32 := []
  place : Option Nat := none
deriving DecidableEq, Repr

/-- A set of rows that GATH has armed (R345): its fields and the next row to collect. -/
structure GatherSet where
  ctx : Nat
  ins : Nat
  frame : Nat
  lane : Nat
  chunks : Nat
  fmt : BitVec 4
  key : BitVec 12
  n : Nat
  total : Nat
  ivec : Nat
  table : Nat
  next : Nat := 0
  padded : Bool := false
deriving DecidableEq, Repr

/-- A matrix island. `out` is the output stage, each token with
whether it ends a row that cnt counts; `loads` are the WLOAD firings accepted (context, index, frame); `slanes` counts the lanes of A
since its stream began, and `scaleBuf`, `scaleEos`, `scaleSkip` follow the scale stream (R43). -/
structure Island where
  engine : Bool := false
  active : Bool := false
  owner : Nat := 0
  launch : Nat := 0
  spliced : Bool := false
  p : List W32 := List.replicate 16 0
  cnt : BitVec 24 := 0
  writes : List ParamWrite := []
  latch : List LatchTile := List.replicate 4 {}
  acc : SMap (List W32) := []
  n : Nat := 0
  rows : List IslandRow := []
  out : List (Token × Bool) := []
  sets : List GatherSet := []
  loads : List (Nat × Nat × Nat) := []
  slanes : Nat := 0
  scaleBuf : List W32 := []
  scaleEos : Bool := false
  scaleSkip : Bool := false
  ended : Bool := false
  frozen : Bool := false
deriving DecidableEq, Repr

/-- What travels between two members of a ring (R246), and the lantern marker behind it (R256). -/
inductive RingItem where
  | header (h : W64)
  | row (k v : List Nat)
  | close
  | marker
deriving DecidableEq, Repr

/-- A receive slot (R249): its grant, the header of its block, how many of its rows have come into the slot's memory (R244), and its
EG; `doubled`: a block of the same step stood in another slot when it came (R251). -/
structure RingSlot where
  granted : Bool := false
  recurring : Bool := false
  header : Option W64 := none
  rows : Nat := 0
  closed : Bool := false
  doubled : Bool := false
deriving DecidableEq, Repr

/-- A rotation that ROTA has armed (R250, R295): the firing, the steps, the current step, the own block's header, its source
and its rows read so far (`chain`: rows of a chain have still to come; `requested`: rows asked for), the rows of the current
block applied and sent on, and the successor's slot that its header has gone to. -/
structure Rotation where
  ctx : Nat
  ins : Nat
  frame : Nat
  steps : Nat
  step : Nat := 0
  header : W64
  chain : Bool
  va : W64
  own : List (List Nat × List Nat) := []
  requested : Nat := 0
  applied : Nat := 0
  sent : Nat := 0
  slot : Option Nat := none
  emitting : Bool := false
deriving DecidableEq, Repr

/-- An attention engine (R244 to R252). -/
structure Engine where
  query : List (List Nat) := []
  row : List Lane := []
  latched : Bool := false
  m : List W32 := List.replicate 128 0xFF800000
  l : List W32 := List.replicate 128 0
  o : List (List W32) := List.replicate 128 (List.replicate 128 0)
  bad : List Bool := List.replicate 128 false
  rot : Option Rotation := none
  slots : List RingSlot := List.replicate 8 {}
  held : List Nat := []
  arriving : List (Nat × RingItem) := []
  /-- items on the way that stood before the lantern marker, once it has arrived (R256) -/
  marked : Option Nat := none
  grants : List Nat := []
  /-- the ATTN firings accepted, in order: context, index and frame (R320) -/
  jobs : List (Nat × Nat × Nat) := []
deriving DecidableEq, Repr

/-! ### Streamer islands (R133 to R136) -/

/-- A queue's arming (R134): template, the context that armed it (place × 8 + context), and the
index and frame of its ARM; `olds`: how many of the tokens at its channel's head arrived before a rewrite of the template, and the words
that they fire with. -/
structure Queue where
  armed : Option (Nat × Nat × Nat × Nat) := none
  olds : List (Nat × List W64) := []
  frozen : Bool := false
deriving DecidableEq, Repr

/-- A copy (R133 to R135, R333): the context that issued or armed it (place × 8 + context), the index and frame of its CPY or
ARM, its launch and partition, its template's number and words as they stood at issue, its element offsets, the words to land
and those landed, and its promised time. `armed`: a queue fired it; `bad`: R133 lets no copy of its template be made;
`paused`: a record of it stands; `dead`: its remaining words are abandoned. -/
structure Copy where
  ctx : Nat
  ins : Nat
  frame : Nat
  launch : Nat
  part : Nat
  armed : Bool
  bad : Bool
  paused : Bool := false
  dead : Bool := false
  tpl : Nat
  w : List W64
  soff : Int
  doff : Int
  total : Nat
  landed : List Nat := []
  promise : W64
deriving DecidableEq, Repr

structure Streamer where
  queues : SMap Queue := []
  templates : SMap (List W64) := []
  copies : SMap Copy := []
  nextCopy : Nat := 0
deriving DecidableEq, Repr

/-! ### Tiles and dies -/

/-- What a tile holds beside its contexts, channels and units. `rr`: the context that its sequencer served last; before it has served
any, 0 stands there, so that context 1 comes first among equals (R59 names no start: DESIGN CHOICE, log 45). `burst`: the idle words
served to it in a row; `barred`: a context that waits until the listed ones have been served (R354). -/
structure Tile where
  gmem : SMap W32 := []
  sram : W32 := 0
  limit : W64 := 0
  htab : SMap W64 := []
  scratch : Memory := []
  poison : List Nat := []
  l1 : List Line := []
  windows : List (Nat × Nat) := []
  gens : SMap W32 := []
  rr : Nat := 0
  burst : Nat := 0
  barred : Option (Nat × List Nat) := none
  /-- corrected single-bit errors; the entries of units that are no tile hold only this (R159) -/
  margin : Nat := 0
  chain : List (Nat × Nat × Nat) := []
deriving DecidableEq, Repr

/-! ### The memory system -/

/-- A cached translation (R148). -/
structure TlbEntry where
  asid : BitVec 8
  va : Nat
  size : Nat
  pa : Nat
  s : Bool
  w : Bool
deriving DecidableEq, Repr

/-- An outstanding fill: its requester's line, the tile whose L1 it also fills, its partition, the context that asked (R154), its hint
(R381), and once it is translated the physical address, W, the canonical name under which the L2 holds the line (R151), and the module
that holds it (R23). -/
structure Fill where
  asid : BitVec 8
  line : Nat
  part : Nat
  tile : Option Nat
  slice : Nat
  who : Option UnitRef := none
  hint : Pol := .normal
  pa : Nat := 0
  w : Bool := false
  canon : Option (BitVec 8 × Nat) := none
  bank : Nat := 0
deriving DecidableEq, Repr

/-- An L2 slice's front (R145): waiting requests, requests served in this window by partition, cycles of the window; `refused`: an
access asked for a slot that its partition's capped allotment of none will never give (runTurn takes such a turn back). -/
structure Slice where
  queue : List Fill := []
  used : SMap Nat := []
  last : Nat := 0
  cycle : Nat := 0
  refused : Bool := false
deriving DecidableEq, Repr

/-- What travels on the links (R166). -/
inductive Traffic where
  | token
  | credit
  | request
  | response
  | control
  | marker
deriving DecidableEq, Repr

/-- The virtual channel of each kind of traffic (R166). -/
def Traffic.vc : Traffic → Nat
  | .token => 0
  | .credit => 1
  | .request => 2
  | .response => 3
  | .control => 4
  | .marker => 5

/-- A packet at a router output (R166, R167): its kind, partition and flits, and the unit it goes to, by the die and tile-index fields of
its source number (R20); from index 240 on that is a unit of the hub die. -/
structure Packet where
  kind : Traffic
  part : Nat
  flits : Nat
  die : Nat
  index : Nat
deriving DecidableEq, Repr

def Packet.vc (x : Packet) : Nat := x.kind.vc

/-- A router output (R167): its packets in arrival order, the shares left in this round, the pointer, the deficits (by VC × 32 +
partition) and the partition whose turn it is on each VC. -/
structure Router where
  queue : List Packet := []
  shares : List Nat := [4, 4, 3, 5]
  pointer : Nat := 0
  deficits : SMap Nat := []
  turns : SMap Nat := []
deriving DecidableEq, Repr

/-! ### Launch, snapshots, host -/

/-- A graph image's tile, with coordinates relative to the die's origin (R189). Channel ends name tiles by index relative to
the origin, as the descriptors do before placement. -/
structure ChanConf where
  ch : Nat
  desc : W64
  sink : Sink := .idle
  src : Producer := .idle
  words : W32 := 0
deriving DecidableEq, Repr

structure UnitConf where
  u : Nat
  owner : Nat := 0
  engine : Bool := false
  params : List (Nat × W32) := []
deriving DecidableEq, Repr

structure TileConf where
  x : Nat
  y : Nat
  sram : W32 := 0
  limit : W64 := 0
  htab : List (Nat × W64) := []
  windows : List (Nat × Nat) := []
  ins : List ChanConf := []
  outs : List ChanConf := []
  units : List UnitConf := []
  ctxs : List (Nat × CtxConf) := []
deriving DecidableEq, Repr

/-- A field that a patch id names (R192); places are relative to the origin of the die. -/
inductive PatchField where
  | param (die x y u n : Nat)
  | base (die x y c k : Nat)
  | floor (die x y c : Nat)
deriving DecidableEq, Repr

/-- A queue of a streamer that the graph arms at placement, its template words, and its input channel (R218). -/
structure StreamConf where
  die : Nat
  str : Nat
  queue : Nat
  tpl : Nat
  words : List W64
  desc : W64
  ctx : Nat
deriving DecidableEq, Repr

/-- The part of a graph on one die: its origin and its tiles. -/
structure DieConf where
  die : Nat
  ox : Nat
  oy : Nat
  tiles : List TileConf := []
  streams : List StreamConf := []
deriving DecidableEq, Repr

/-- A graph image (R212). -/
structure GraphImage where
  size : Nat := 0
  data : List (Nat × List Byte) := []
  patches : List (Nat × PatchField) := []
  dies : List DieConf := []
deriving DecidableEq, Repr

/-- A launch or restore that part.trigger has queued (R213); `held`: written after a clock that is still pending (R259). -/
structure Launch where
  slot : Nat
  rs : Bool
  plist : Nat
  held : Bool := false
deriving DecidableEq, Repr

/-- A running launch: its serial number, its graph, the patches of its list, the dies that have acknowledged and that have
been started, the contexts (numbered as places) it holds, the units (place and number) that have still to take its parameters, behind
the EOS of what they run (R220), whether the dies of every other package of a ring graph have acknowledged (R218), the bytes of the image it restores, and how it ends: refused with an outcome, killed or pre-empted
(R214). -/
structure Running where
  id : Nat
  launch : Launch
  graph : GraphImage
  patches : List (Nat × W64) := []
  acked : List Nat := []
  started : List Nat := []
  ctxs : List Nat := []
  later : List (Nat × Nat) := []
  others : Bool := false
  image : List Byte := []
  refused : Option Nat := none
  killed : Bool := false
  preempted : Bool := false
deriving DecidableEq, Repr

/-- A snapshot that is queued or in progress (R233, R234): its launch, image address, mode and issuer; whether its markers have
been injected, and when; all its units, the units still to be injected, the units whose records are not written yet, in ascending
order of their source numbers, the records that wait for an earlier one, the image's size so far and its records written, and the records of type 5 that follow them (log 15). -/
structure Snapshot where
  launch : Nat
  va : Nat
  pre : Bool
  issuer : Option Nat
  /-- asked for by a checkpoint (R270), and whole: its graph stays frozen until every image is written -/
  ckpt : Bool := false
  whole : Bool := false
  injected : Bool := false
  time : W64 := 0
  all : List UnitRef := []
  inject : List UnitRef := []
  units : List UnitRef := []
  saved : List (UnitRef × List Byte) := []
  size : Nat := 64
  nrec : Nat := 0
  rest : List Byte := []
deriving DecidableEq, Repr

structure Mailbox where
  cmd : W64 := 0
  args : List W64 := List.replicate 6 0
deriving DecidableEq, Repr

/-- A service partition's registers and queues. -/
structure Part where
  live : Bool := false
  asid : BitVec 8 := 0
  bound : Bool := false
  smem : Nat := 0
  rports : BitVec 16 := 0
  ways : W32 := 0xFFFF
  bw : W32 := 0
  vcw : W32 := 0x10101010
  kvpool : W64 := 0
  clk : W32 := 2250
  clkNext : Option W32 := none
  kvgive : W64 := 0
  lastSlot : BitVec 6 := 0
  ovf : Bool := false
  st : BitVec 3 := 0
  vigil : W64 := 0x6000000000000000
  slots : SMap GraphImage := []
  queue : List Launch := []
  running : List Running := []
  snaps : List Snapshot := []
  nextId : Nat := 1
  prod : W32 := 0
  cons : W32 := 0
  reports : SMap Record := []
  waiting : List (Record × Option Nat) := []
  setup : List Byte := []
  freeing : Bool := false
deriving DecidableEq, Repr

/-- An episode of a barrier (R179, R287): its key, the count of its first arrival, each arrival's firing and lane, and how many
arrivals of other packages it holds (R321). -/
structure Episode where
  id : Nat
  part : Nat
  obj : Nat
  scope : Scope
  inst : Nat
  need : Nat
  arrivals : List (Nat × Nat × Nat × Nat)
  far : Nat := 0
deriving DecidableEq, Repr

/-- An unmap in progress (R154): its range and the units whose marker has not emerged. -/
structure Unmap where
  asid : BitVec 8
  va : Nat
  size : Nat
  pending : List UnitRef
deriving DecidableEq, Repr

/-- The checkpoint stream on the storage node (R271). -/
structure Stream where
  version : BitVec 16
  time : W64
  parts : List (Nat × BitVec 8 × List Byte × List (Nat × Nat))
  slots : List (Nat × SMap GraphImage)
  mem : Memory
  poison : List Nat
deriving DecidableEq, Repr

/-- A checkpoint or restore in progress (R270, R271): the ports it uses, the time of its first step, the images written so far:
partition, slot and address; whether a write of the stream has failed; and whether the stream was written well, once that has ended and
the graphs are being restored. -/
structure Checkpoint where
  restore : Bool
  ports : Nat
  time : W64
  images : List (Nat × Nat × Nat) := []
  failed : Bool := false
  written : Option Bool := none
deriving DecidableEq, Repr

/-! ### Whose turn -/

/-- The place and firing of the instruction that exec runs. `frame` counts allocations since configuration. -/
structure Focus where
  die : Nat := 0
  tile : Nat := 0
  ctx : Nat := 0
  ins : Nat := 0
  frame : Nat := 0
  k : Nat := 1
deriving DecidableEq, Repr

/-- What acts next: time passes, a die's copy of it slips by a tick, a read of the SRAM of a unit
corrects a single-bit error (R159), a tile's sequencer, an element, an event; or what comes from outside: a token from another package
on the link of an input channel or a lantern marker of its producer, a row or a grant from a ring member on another package, the arrival of
a BAR lane of another package of a ring graph or its withdrawal (R287, R321), the acknowledgement of a launch by the other packages of its
ring graph (R218), a packet that a unit of a die, by its tile index, puts on the mesh, an access of
the host to device memory or a read of a register, a failed write of the storage node (R270), the host's own changes of its memory and of the graph images in it, and what the
keep cores and system software write without a transport that the spec names: page tables in main memory (R146), ring.next (R242),
a copy template (R133) and the package's number. -/
inductive Turn where
  | wait (ticks : Nat)
  | slip (die : Nat) (ahead : Bool)
  | corrected (die tile : Nat)
  | sequencer (die tile : Nat)
  | element (die tile e : Nat)
  | event (i : Instr)
  | inject (die tile ch : Nat) (t : Token)
  | marker (die tile ch : Nat) (count : W32)
  | ringItem (die eng slot : Nat) (x : RingItem)
  | ringGrant (die eng slot : Nat)
  | barArrival (part obj : Nat) (scope : Scope) (need : Nat) (packages : List (BitVec 8))
  | barWithdraw (part obj : Nat) (packages : List (BitVec 8))
  | acknowledged (part id : Nat)
  | packet (die index : Nat) (p : Packet)
  | hostStore (part va : Nat) (bytes : List Byte)
  | hostRead (fn off : Nat)
  | storageFails
  | hostMemory (addr : Nat) (bytes : List Byte)
  | tableStore (pa : Nat) (bytes : List Byte)
  | ringNext (die : Nat) (value : W64)
  | template (die str n : Nat) (words : List W64)
  | packageNumber (n : BitVec 8)
  | busImage (addr : Nat) (g : GraphImage)
deriving DecidableEq, Repr, Inhabited

/-- The whole state of a package. -/
structure State where
  /-- the model's own: turns to come, turns taken from Config.turn, free values used, where exec acts -/
  agenda : List Turn := []
  turns : Nat := 0
  draws : Nat := 0
  focus : Focus := {}
  /-- the highest source number that has acted in the current tick (R26) -/
  acted : Nat := 0
  /-- time: the hub's count and the dies' copies (R272) -/
  almanac : W64 := 0
  copies : List W64 := [0, 0, 0, 0]
  /-- host.state (R269): stage, version, fetches -/
  stage : BitVec 4 := 0
  version : BitVec 16 := 0
  fetches : BitVec 8 := 0
  failures : Nat := 0
  flash : List Byte := []
  /-- host.ckpt (R270), gate.unmap (R153) -/
  ckpt : W64 := 0x0200000000000000
  ckptRun : Option Checkpoint := none
  storage : Option Stream := none
  unmapReg : W64 := 0
  unmapRun : Option Unmap := none
  /-- host side: mailboxes, host memory, graph images at bus addresses, MSI-X signals raised -/
  mailboxes : SMap Mailbox := []
  hostMem : Memory := []
  busImages : SMap GraphImage := []
  msix : List (Nat × Nat) := []
  /-- gates: root entries, translation caches by die, walks in progress by die, remap filter (oldest first) -/
  roots : SMap W64 := []
  tlbs : SMap (List TlbEntry) := []
  walks : SMap (List Fill) := []
  filter : List (Nat × BitVec 8 × Nat) := []
  /-- L2 lines, slice fronts, outstanding responses by die, routers -/
  l2 : List Line := []
  slices : SMap Slice := []
  responses : SMap (List Fill) := []
  routers : SMap Router := []
  /-- main memory and its poisoned 64-byte granules -/
  mem : Memory := []
  dramPoison : List Nat := []
  health : SMap W32 := []
  hot : List W16 := []
  /-- partitions, owners of tiles, streamer grants (die, island, kind, number, partition) -/
  parts : SMap Part := []
  owners : SMap Nat := []
  streamGrants : List (Nat × Nat × Bool × Nat × Nat) := []
  fabric : SMap Nat := [(0, 2250), (1, 2250), (2, 2250), (3, 2250)]
  ringNext : SMap W64 := []
  /-- the number the keep cores give the package (R109) -/
  package : BitVec 8 := 0
  episodes : List Episode := []
  nextEpisode : Nat := 0
  /-- per place -/
  tiles : SMap Tile := []
  ctxs : SMap Ctx := []
  ins : SMap InChan := []
  outs : SMap OutChan := []
  units : SMap OpUnit := []
  islands : SMap Island := []
  engines : SMap Engine := []
  streamers : SMap Streamer := []
deriving DecidableEq, Repr

/-- The machine right after reset: every field at the value the spec gives, or the one the assumption log names (log 4). -/
def State.reset : State := {}

/-- Why the machine stops without a next state. -/
inductive Fault where
  /-- Raised by step: a word fetched from grammar memory or from a block image decodes to no instruction. The spec refuses
  such words at load (R66, R208); pc meets one only on a table word or outside its region, of which the spec does not speak (log 60).
  Safe: the machine stops. -/
  | undecodable (word : Nat)
deriving DecidableEq, Repr

/-- Why the model gives an instruction no meaning. -/
inductive Refusal where
  /-- Raised by exec for an instruction without a meaning yet, with its mnemonic. Safe: the machine stops. -/
  | notModelled (mnemonic : String)
deriving DecidableEq, Repr

abbrev Out := Host.Outcome State Fault Refusal

end Sys2Proof.Machine
end

