-- ==== Sys2Proof/Machine/Image.lean ====
section
/-! DEFINITION. Block images and grammar regions as a whole: the header (R80), the ports and formats of each instruction
(R83, R86 and the entries), and the checks of the block front end and the die scheduler in the order of R209 (R66, R67, R81
to R86, R89, R98, R102, R208). -/
namespace Sys2Proof.Machine
open Sys2Proof

/-! ### The header (R80) -/

abbrev Image := List W64

namespace Image

def word (im : Image) (n : Nat) : W64 := im.getD n 0
def count (im : Image) : Nat := ((word im 0).extractLsb' 49 7).toNat + 1
def slotField (im : Image) : Nat := ((word im 0).extractLsb' 40 9).toNat
def constCount (im : Image) : Nat := ((word im 0).extractLsb' 36 4).toNat
def lead (im : Image) : Nat := ((word im 0).extractLsb' 30 6).toNat
def th (im : Image) : Bool := (word im 0).getLsbD 29
def imb (im : Image) : Bool := (word im 0).getLsbD 28
def gate (im : Image) : BitVec 128 := word im 2 ++ word im 1
def commit (im : Image) : BitVec 128 := word im 4 ++ word im 3
def immMap (im : Image) : BitVec 128 := if imb im then word im 6 ++ word im 5 else 0
def constWords (im : Image) : List Nat := if imb im then [7] else [5, 6, 7]
def allConsts (im : Image) : List W32 :=
  (constWords im).flatMap fun n => [(word im n).extractLsb' 0 32, (word im n).extractLsb' 32 32]
def consts (im : Image) : List W32 := (allConsts im).take (constCount im)
/-- Instruction word `i`. -/
def code (im : Image) (i : Nat) : W64 := word im (8 + i)
def gated (im : Image) (i : Nat) : Bool := (gate im).getLsbD i
def omitted (im : Image) (i : Nat) : Bool := (immMap im).getLsbD i
/-- The decoded instruction `i`, if its word is sound. -/
def instr (im : Image) (i : Nat) : Option Instr :=
  if i < count im then match decodeBlock (code im i) with
    | .ok x => some x
    | .error _ => none
  else none

end Image

/-! ### Ports and formats -/

/-- Ports among a, b and c that the entry of an opcode lists (R83); SHFL (R398), HSET (R350) and SWR (R401) take b by their
X field. -/
def rawPorts (op : BitVec 8) (x : BitVec 30) : List Port :=
  match op.toNat with
  | 0x50 => if x.extractLsb' 20 3 = 0 then [.a, .b] else [.a]
  | 0x0A => if bit x 23 then [.a, .b] else [.a]
  | 0xF7 => if x.extractLsb' 12 2 = 2 then [.a, .b] else [.a]
  | 0x30 | 0x43 | 0x63 => [.a, .b, .c]
  | 0x02 | 0x03 | 0x07 | 0x08 | 0x10 | 0x11 | 0x12 | 0x13 | 0x14 | 0x15 | 0x16 | 0x17 | 0x1A | 0x20 | 0x21 | 0x22 | 0x23
  | 0x24 | 0x25 | 0x26 | 0x33 | 0x34 | 0x41 | 0x44 | 0x61 | 0x62 | 0x68 | 0x69 | 0x82 | 0x94 => [.a, .b]
  | _ => if (opcodeMap op).isSome then [.a] else []

/-- Opcodes whose port b may be omitted: the XA rows with R84 in their immediate column. -/
def mayOmit (op : BitVec 8) : Bool :=
  match op.toNat with
  | 0x02 | 0x03 | 0x08 | 0x10 | 0x11 | 0x12 | 0x13 | 0x14 | 0x15 | 0x16 | 0x17 | 0x1A | 0x20 | 0x21 | 0x22 | 0x23 | 0x24
  | 0x25 | 0x26 | 0x30 | 0x33 | 0x34 | 0x41 => true
  | _ => false

/-- Format of a port (R33, R86): one format, i32 or n32, or any. -/
inductive PortFmt where
  | one (f : Fmt)
  | word
  | any
deriving DecidableEq, Repr

/-- Format of a result: one format, a mark, port a's format, or nothing. -/
inductive ResFmt where
  | one (f : Fmt)
  | mark
  | pass
  | bare
deriving DecidableEq, Repr

def PortFmt.of (f : Fmt) : PortFmt := if f = .i32 ∨ f = .n32 then .word else .one f

/-- R86: the result's format fits the port. -/
def fits (r : ResFmt) (p : PortFmt) : Bool :=
  match p, r with
  | .any, _ => true
  | .word, .one f => f == .i32 || f == .n32
  | .one g, .one f => g == f
  | _, _ => false

/-- Opcodes of the XA layout (R200, R205). -/
def isXA (op : BitVec 8) : Bool :=
  match op.toNat with
  | 0x01 | 0x02 | 0x03 | 0x06 | 0x07 | 0x08 => true
  | n => decide (0x10 ≤ n ∧ n ≤ 0x45) || decide (0x50 ≤ n ∧ n ≤ 0x53)

/-- Format of port `p` of a block word. -/
def portFmt? (f : Fields) (p : Port) : PortFmt :=
  let ty : PortFmt := match Fmt.ofCode f.ty with
    | some t => .of t
    | none => .any
  let wordIf (b : Bool) : PortFmt := if b then .word else .any
  match p, f.op.toNat with
  | .w, _ => .any
  | .a, 0x06 => .any
  | .a, 0x40 => match cvtSource (f.x.extractLsb' 0 20) with
    | some t => .of t
    | none => .any
  | .a, 0x44 | .a, 0x45 | .a, 0x86 => .one .f32
  | .a, 0x43 => .one .q16x8
  | .a, 0x09 => wordIf (bit f.x 23)
  | .a, 0xB0 | .a, 0xB1 => wordIf (bit f.x 23)
  | .a, 0xF1 => wordIf (bit f.x 21)
  | .a, 0x60 | .a, 0x61 | .a, 0x62 | .a, 0x63 | .a, 0x64 | .a, 0x65 | .a, 0x66 | .a, 0x67 | .a, 0x68 | .a, 0x69 | .a, 0x82
  | .a, 0x85 | .a, 0x90 | .a, 0x92 | .a, 0x94 | .a, 0x95 | .a, 0xA2 | .a, 0xF5 | .a, 0xF7 => .word
  | .a, _ => if isXA f.op || f.op == 0x0A then ty else .any
  | .b, 0x43 | .b, 0x44 => .one .f32
  | .b, 0x61 | .b, 0x62 | .b, 0x63 => ty
  | .b, 0x02 | .b, 0x07 | .b, 0x50 => .word
  | .b, _ => if isXA f.op then ty else .word
  | .c, 0x43 => .word
  | .c, _ => ty

/-- Formats of the results for TA and TB. -/
def resultsOf (f : Fields) : ResFmt × ResFmt :=
  let ty : ResFmt := match Fmt.ofCode f.ty with
    | some t => .one t
    | none => .bare
  match f.op.toNat with
  | 0x00 | 0xF0 | 0xF2 | 0xF4 => (.pass, .pass)
  | 0x04 | 0xF3 => (.bare, .bare)
  | 0x0B => (.mark, .mark)
  | 0x1A | 0x38 => (.one .n32, .one .n32)
  | 0x44 | 0x45 | 0x60 | 0x62 | 0x63 => (ty, .one .n32)
  | 0x86 => (.one .n32, .one .f32)
  | 0x05 | 0x09 => (ty, ty)
  | _ => if isXA f.op then (ty, ty) else (.one .n32, .one .n32)

/-- Frames that a firing of the instruction must cover exactly; 0 where R97 forms the run (R324, R357, R384, R397, R398). -/
def groupOf : Instr → Nat
  | .lbct x | .lred x | .lscn x | .shfl x => laneGroup x.imm
  | .selk _ _ g => 2 ^ g.toNat
  | .bsq _ => 32
  | .qenc _ => 64
  | _ => 0

/-- SELK has no port w (R83, R397). -/
def hasW : Instr → Bool
  | .selk _ _ _ => false
  | _ => true

/-- The targets of a block instruction. -/
def dstOf : Instr → Dst
  | .nop d | .movi d _ _ | .hget d _ _ _ _ | .hset d _ _ _ _ | .emit d _ _ _ | .xfen d _ _ _ | .sbar d _ _
  | .bar d _ _ _ | .wload d _ _ _ _ _ | .wbind d _ _ _ | .gath d _ _ _ | .mout d _ _ _ | .mclr d _ _ | .attn d _ _ _
  | .selk d _ _ | .opset d _ _ | .opget d _ _ | .chset d _ _ _ | .arm d _ _ _ _ | .cpy d _ _ | .wtil d _ _ | .time d _
  | .rota d _ _ _ _ | .rgrt d _ _ _ | .rsnd d _ _ | .rstat d _ _ | .tres d _ _ _ | .trel d _ _ _ | .tcnt d _ _
  | .trap d _ | .tret d _ _ | .bkpt d _ | .yld d | .snap d _ _ | .srd d _ _ _ _ _ | .swr d _ _ _ _ _ | .prio d _ _ _ => d
  | .fan x | .steer x | .merge x | .tagr x | .mask x | .fill x | .add x | .sub x | .mul x | .mulh x | .div x | .rem x
  | .min x | .max x | .abs x | .neg x | .cmp x | .clz x | .popc x | .and x | .or x | .xor x | .andn x | .shl x | .shr x
  | .sar x | .fma x | .rcp x | .rsq x | .nrcp x | .nrsq x | .exp2 x | .log2 x | .tanh x | .class x | .rnd x | .cvt x
  | .pack x | .unpk x | .qdec x | .qenc x | .bsq x | .shfl x | .lred x | .lscn x | .lbct x => x.d
  | .ld _ x | .st _ x | .atom _ x | .cas _ x | .pref x | .disc x | .wbk x | .inv x | .kvap _ x | .kvfk x => x.d
  | _ => ⟨.nowhere, .nowhere⟩

namespace Image

/-- Ports of instruction `i` that hold slots: its ports without an omitted b (R89), read from the raw word. -/
def slotPorts (im : Image) (i : Nat) : List Port :=
  let f := Fields.split (code im i)
  let ps := rawPorts f.op f.x
  if omitted im i then ps.filter (· != .b) else ps

/-- Every port a firing of instruction `i` waits for (R83). -/
def firePorts (im : Image) (i : Nat) : List Port :=
  if gated im i then slotPorts im i ++ [.w] else slotPorts im i

/-- Slot count of the block (R89). -/
def slotCount (im : Image) : Nat := ((List.range (count im)).map fun i => (slotPorts im i).length).sum

/-- Frame cost u: the largest number of slots on one element, at least 1 (R82, R89). -/
def cost (im : Image) : Nat :=
  ((List.range 16).map fun e =>
    ((List.range (count im)).map fun i => if i % 16 = e then (slotPorts im i).length else 0).sum).foldl max 1

def isNext : Target → Bool
  | .next _ _ => true
  | _ => false

def targetsOf (w : W64) : List Target := [Target.ofBits (Fields.split w).ta, Target.ofBits (Fields.split w).tb].filterMap id

/-- The block has a next-frame target, so that its context holds a carry frame (R91). -/
def hasNext (im : Image) : Bool := (List.range (count im)).any fun i => (targetsOf (code im i)).any isNext

/-- The lane that stands for an omitted port b of instruction `i` (R84, R406). -/
def immOf (im : Image) (i : Nat) : W32 :=
  let f := Fields.split (code im i)
  let ty := if f.op = 0x02 then .i32 else (Fmt.ofCode f.ty).getD .i32
  (immLane ty (f.x.extractLsb' 0 20)).getD 0

/-! ### The checks of the block front end -/

/-- Header offences: header word and reason (R81, R83, R208, R209). -/
def headerFaults (im : Image) : List (Nat × Reason) :=
  let n := count im
  let maps : List (Nat × BitVec 128) := [(1, gate im), (3, commit im)] ++ (if imb im then [(5, immMap im)] else [])
  (if (word im 0).extractLsb' 56 8 = 0xB1 then [] else [(0, .magic)]) ++
  (if (if imb im then 2 else 6) < constCount im ∨ (word im 0).extractLsb' 0 28 ≠ 0 ∨ slotCount im ≠ slotField im
    then [(0, .header)] else []) ++
  (maps.flatMap fun (k, m) =>
    (if n < 64 ∧ (m.extractLsb' 0 64 : W64) >>> n ≠ 0 then [(k, Reason.bitmap)] else []) ++
    (if (m.extractLsb' 64 64 : W64) >>> (n - 64) ≠ 0 then [(k + 1, Reason.bitmap)] else [])) ++
  ((List.range n).flatMap fun i =>
    if gated im i ∧ (Fields.split (code im i)).op = 0x86 then [(1 + i / 64, Reason.bitmap)] else []) ++
  (if commit im = 0 then [(3, .bitmap)] else []) ++
  ((List.range (allConsts im).length).flatMap fun k =>
    if constCount im ≤ k ∧ (allConsts im).getD k 0 ≠ 0 then [((constWords im).getD (k / 2) 5, Reason.header)] else [])

/-- R85 and R86 on one target of instruction `i`, whose result has format `r`. A word that the opcode map leaves undefined has no
port but the one that its gate bit gives. Only BKPT may pass its run to a port of its own (R322, R373). -/
def targetOk (im : Image) (i : Nat) (r : ResFmt) (t : Target) : Bool :=
  let at' (j : Nat) (p : Port) : Bool :=
    decide (j < count im) && (if p = .w then gated im j else (slotPorts im j).contains p) &&
      fits r (portFmt? (Fields.split (code im j)) p)
  match t with
  | .same j p => (r != .pass || j.toNat != i || (Fields.split (code im i)).op == 0xF2) && at' j.toNat p
  | .next j p => at' j.toNat p
  | _ => true

/-- R84 and R98 on instruction `i` when its immediate-map bit is set. -/
def immOk (im : Image) (i : Nat) : Bool :=
  !omitted im i ||
    (let f := Fields.split (code im i)
     let ty := if f.op = 0x02 then some .i32 else Fmt.ofCode f.ty
     mayOmit f.op && (f.x.extractLsb' 23 2 != 3) &&
      (match ty with
        | some t => (immLane t (f.x.extractLsb' 0 20)).isSome
        | none => false))

/-- The immediate field of an instruction that may omit port b: the replacement of policy 3 with zeros above it, else the immediate
of an omitted port, else zero (R311). -/
def unusedImmOk (im : Image) (i : Nat) : Bool :=
  let f := Fields.split (code im i)
  !mayOmit f.op ||
    (if f.x.extractLsb' 23 2 = 3 then f.x.extractLsb' 8 12 == 0 else omitted im i || f.x.extractLsb' 0 20 == 0)

/-- What the X field may hold only in some blocks: a pool index below consts, TRET only with TH (R208, R420). -/
def contextOk (im : Image) : Instr → Bool
  | .movi _ _ (.pool k) => decide (k.toNat < constCount im)
  | .tret _ _ _ => th im
  | _ => true

/-- R102: an output-channel or next-frame target stands in the commit bitmap. -/
def commitOk (im : Image) (i : Nat) : Bool :=
  (commit im).getLsbD i ||
    !((targetsOf (code im i)).any fun t => match t with
      | .next _ _ => true
      | .chan _ => true
      | _ => false)

/-- Reasons that apply to instruction word `i`. -/
def wordFaults (im : Image) (i : Nat) : List Reason :=
  let f := Fields.split (code im i)
  match opcodeMap f.op with
  | none => [.opcode]
  | some (tys, dr) =>
    if !tyOk tys f.ty then [.format] else
    (match Target.ofBits f.ta, Target.ofBits f.tb with
      | some ta, some tb =>
        (if Dst.ok dr ⟨ta, tb⟩ then [] else [.target]) ++
        (if targetOk im i (resultsOf f).1 ta && targetOk im i (resultsOf f).2 tb then [] else [.target]) ++
        (match decodeX f.op f.ty ⟨ta, tb⟩ f.x with
          | some d => if d.wf && contextOk im d && unusedImmOk im i then [] else [.xfield]
          | none => [.xfield])
      | _, _ => [.target]) ++
    (if immOk im i then [] else [.immediate]) ++ (if commitOk im i then [] else [.commit])

def minReason (l : List Reason) : Option Reason :=
  l.foldl (fun acc r => match acc with
    | none => some r
    | some q => if r.code < q.code then some r else acc) none

def firstWord (im : Image) : Nat → Nat → Option (Nat × Reason)
  | 0, _ => none
  | n + 1, i => match minReason (wordFaults im i) with
    | some r => some (i, r)
    | none => firstWord im n (i + 1)

/-- The offence a block image is refused for: its index (0x100 + header word, or instruction) and reason (R209). -/
def check (im : Image) : Option (Nat × Reason) :=
  let hf := headerFaults im
  match (List.range 8).findSome? fun k => (minReason ((hf.filter fun e => e.1 = k).map (·.2))).map fun r => (0x100 + k, r) with
  | some e => some e
  | none => firstWord im (count im) 0

end Image

/-! ### Grammar regions -/

/-- Label `c` of the table at `t` (R67). -/
def tableEntry (mem : Nat → W32) (t c : Nat) : BitVec 16 :=
  if c % 2 = 0 then (mem (t + c / 2)).extractLsb' 0 16 else (mem (t + c / 2)).extractLsb' 16 16

def Region.has (r : Region) (a : Nat) : Bool := decide (r.base ≤ a ∧ a < r.base + r.len)
def Region.tableWord (r : Region) (a : Nat) : Bool := r.tables.any fun t => decide (t ≤ a ∧ a < t + 8)

/-- The label that a grammar instruction names. -/
def labelIn : Instr → Option (BitVec 12)
  | .brm _ l | .swm l | .jmpn l | .calln l | .acptRestart l => some l
  | .rcvr v l => if v = .off then none else some l
  | _ => none

/-- Reasons that apply to the grammar word at `a` (R66). -/
def grammarFaults (r : Region) (mem : Nat → W32) (a : Nat) : List Reason :=
  match decodeGrammar (mem a) with
  | .error e => [e]
  | .ok i =>
    (match labelIn i with
      | some l => if r.has l.toNat then [] else [.label]
      | none => []) ++
    (match i with
      | .swm l => if r.tables.contains l.toNat then [] else [.table]
      | .rcvr v l =>
        if v = .off then [] else
        if r.tableWord l.toNat then [.recovery] else
        (match decodeGrammar (mem l.toNat) with
          | .ok (.fire _ _ _ _) => []
          | _ => [.recovery])
      | _ => [])

/-- Reasons that apply to the table word at `t + k` (R66, R67). R209 does not say which word holds an offence between tables: of two that
overlap it is the start of the one that begins inside the other, and of a table that runs past the region's end its first word (DESIGN
CHOICE, log 71). -/
def tableFaults (r : Region) (mem : Nat → W32) (t k : Nat) : List Reason :=
  let bad (c : Nat) : Bool :=
    let e := tableEntry mem t c
    e != 0xFFFF && (decide (10 ≤ c ∧ c ≤ 14) || e.extractLsb' 12 4 != 0 || !r.has e.toNat)
  (if k = 0 ∧ !(decide (r.base ≤ t ∧ t + 8 ≤ r.base + r.len)) then [.label] else []) ++
  (if k = 0 ∧ 2 ≤ (r.tables.filter fun u => decide (u ≤ t ∧ t < u + 8)).length then [.table] else []) ++
  (if bad (2 * k) || bad (2 * k + 1) then [.table] else [])

/-- Some checked word of the region is an SWM that names the table at `t`. -/
def swmNames (r : Region) (mem : Nat → W32) (t : Nat) : Bool :=
  (List.range r.len).any fun n => !r.tableWord (r.base + n) && (match decodeGrammar (mem (r.base + n)) with
    | .ok (.swm l) => l.toNat == t
    | _ => false)

/-- Reasons that apply to the word at `a`. A label that no word of the region holds is an offence of the region's first word: its
entry (R60), and a listed table outside it that no SWM names. -/
def regionFaults (r : Region) (mem : Nat → W32) (a : Nat) : List Reason :=
  (if r.tableWord a then [] else grammarFaults r mem a) ++
  (r.tables.flatMap fun t => if t ≤ a ∧ a < t + 8 then tableFaults r mem t (a - t) else []) ++
  (if a = r.base ∧ (!r.has r.entry ∨ (r.tables.any fun t => !r.has t && !swmNames r mem t)) then [.label] else [])

/-- The offence a grammar region is refused for: the lowest word address that holds one, with its lowest reason (R209). -/
def checkRegion (r : Region) (mem : Nat → W32) : Option (Nat × Reason) :=
  if r.len = 0 then some (r.base, .label) else
  (List.range r.len).findSome? fun k =>
    (Image.minReason (regionFaults r mem (r.base + k))).map fun e => (r.base + k, e)

/-- A grammar word moved with its region: the base is added to the label that it holds (R207). -/
def movedWord (base : Nat) (w : W32) : W32 :=
  match decodeGrammar w with
  | .ok i => match labelIn i with
    | some l => (w >>> 12) <<< 12 ||| (l + BitVec.ofNat 12 base).setWidth 32
    | none => w
  | .error _ => w

/-- A table word moved with its region: the base is added to each entry other than 0xFFFF (R207), modulo 2^16, and the checks of R67 read
the sum: an entry that becomes 0xFFFF counts as no entry (DESIGN CHOICE, log 70). -/
def movedTableWord (base : Nat) (w : W32) : W32 :=
  let f (e : BitVec 16) : BitVec 16 := if e = 0xFFFF then e else e + BitVec.ofNat 16 base
  f (w.extractLsb' 16 16) ++ f (w.extractLsb' 0 16)

/-- A region and its words as the die scheduler loads them: pyhild counts labels, tables and the entry from 0 (R207). -/
def movedRegion (r : Region) (words : List W32) : Region × List W32 :=
  let listed (n : Nat) : Bool := r.tables.any fun t => decide (t ≤ n ∧ n < t + 8)
  ({ r with tables := r.tables.map (· + r.base), entry := r.entry + r.base },
    words.zipIdx.map fun w => if listed w.2 then movedTableWord r.base w.1 else movedWord r.base w.1)

end Sys2Proof.Machine
end

