-- ==== Sys2Proof/Machine/Memory.lean ====
section
/-! DEFINITION. Memories as sorted lists of cells: reading and writing a byte, a little-endian value and a run of bytes
(R3, R180). -/
namespace Sys2Proof.Machine
open Sys2Proof

/-- What an address that no write has reached reads as (R180). -/
def initialByte : Byte := 0

namespace Memory

/-- The canonical form: addresses strictly rising, and no entry equal to what an unlisted address reads as. -/
abbrev wf (m : Memory) : Prop := m.Pairwise (fun x y => x.1 < y.1) ∧ ∀ x ∈ m, x.2 ≠ initialByte

def read : Memory → Nat → Byte
  | [], _ => initialByte
  | (b, v) :: t, a => if b = a then v else read t a

/-- Inserts a cell before the first higher address. -/
def place (a : Nat) (v : Byte) : Memory → Memory
  | [] => [(a, v)]
  | (b, x) :: t => if a < b then (a, v) :: (b, x) :: t else (b, x) :: place a v t

def write (m : Memory) (a : Nat) (v : Byte) : Memory :=
  let m' := m.filter fun c => c.1 != a
  if v = initialByte then m' else place a v m'

/-- `n` bytes from `a`. -/
def bytes (m : Memory) (a n : Nat) : List Byte := (List.range n).map fun i => read m (a + i)

/-- Writes bytes from `a` up; a byte that is `none` is left alone. -/
def writeBytes (m : Memory) (a : Nat) : List (Option Byte) → Memory
  | [] => m
  | some v :: t => writeBytes (write m a v) (a + 1) t
  | none :: t => writeBytes m (a + 1) t

end Memory

/-- Little-endian value of bytes (R3). -/
def leNat : List Byte → Nat
  | [] => 0
  | b :: t => b.toNat + 256 * leNat t

/-- The `n` low bytes of a value, lowest first. -/
def natBytes : Nat → Nat → List Byte
  | 0, _ => []
  | n + 1, v => BitVec.ofNat 8 v :: natBytes n (v / 256)

def Memory.word32 (m : Memory) (a : Nat) : W32 := BitVec.ofNat 32 (leNat (m.bytes a 4))
def Memory.word64 (m : Memory) (a : Nat) : W64 := BitVec.ofNat 64 (leNat (m.bytes a 8))
def Memory.put (m : Memory) (a n v : Nat) : Memory := m.writeBytes a ((natBytes n v).map some)

end Sys2Proof.Machine
end

