-- ==== Sys2Proof/Machine/Params.lean ====
section
/-! DEFINITION. Parameter words of operator units and matrix islands: their fields, reset values and reserved values (R4, R113
to R126, R130, R244). Units bear the numbers of R20: 18 to 31, and 32 for the island. -/
namespace Sys2Proof.Machine
open Sys2Proof

/-- A field of a parameter word: lowest bit, width, and the values it admits. -/
abbrev PField := Nat × Nat × (Nat → Bool)

def anyVal : Nat → Bool := fun _ => true

/-- Format codes of data formats (R32). -/
def dataFmt (n : Nat) : Bool := decide (2 ≤ n ∧ n ≤ 15 ∧ n ≠ 5)

/-- Output formats of CONVERT (R126). -/
def convertFmt (n : Nat) : Bool := decide (2 ≤ n ∧ n ≤ 15 ∧ n ≠ 5 ∧ ¬(12 ≤ n ∧ n ≤ 14))

def word32 : List PField := [(0, 32, anyVal)]
def nonZero : List PField := [(0, 32, fun n => n != 0)]

/-- The map that READ and WRITE share (R114). -/
def streamFields : Nat → List PField
  | 0 => [(29, 3, anyVal), (25, 4, dataFmt), (23, 2, anyVal), (11, 12, anyVal)]
  | 1 => [(28, 4, (· ≤ 9)), (24, 4, (· ≤ 9)), (20, 4, (· ≤ 9)), (16, 4, (· ≤ 9))]
  | 2 => word32
  | 3 | 4 | 5 => nonZero
  | 6 | 7 | 8 | 9 | 10 => word32
  | _ => []

/-- Fields of word `n` of unit `u` of a tile; a word without fields is reserved. -/
def unitFields (u n : Nat) : List PField :=
  match u, n with
  | 18, n | 19, n | 20, n | 21, n => streamFields n
  | 22, 0 => [(0, 17, fun v => 1 ≤ v && v ≤ 65536)]
  | 22, 1 => word32
  | 23, 0 => [(0, 4, anyVal)]
  | 24, 0 => [(0, 2, (· ≤ 2)), (4, 3, anyVal), (7, 1, anyVal)]
  | 24, n => if 2 ≤ n ∧ n ≤ 9 then word32 else []
  | 25, 0 => [(0, 1, anyVal), (4, 4, anyVal)]
  | 26, 0 | 26, 1 => word32
  | 27, 0 => streamFields 0
  | 27, 2 | 27, 9 => word32
  | 29, 0 => [(30, 2, (· ≤ 1)), (21, 9, fun v => 1 ≤ v && v ≤ 256), (17, 4, fun v => 1 ≤ v && v ≤ 9), (16, 1, anyVal)]
  | 29, 1 => [(24, 8, anyVal), (16, 8, anyVal)]
  | 29, 2 => [(12, 20, anyVal), (0, 8, anyVal)]
  | 29, n => if 3 ≤ n ∧ n ≤ 10 then word32 else []
  | 30, 0 => [(28, 4, fun v => 2 ≤ v && v ≤ 4), (25, 3, (· ≤ 5)), (24, 1, anyVal), (21, 3, (· ≤ 4)),
      (4, 3, fun v => (1 ≤ v && v ≤ 4) || v == 7)]
  | 31, 0 => [(28, 4, convertFmt), (25, 3, (· ≤ 6)), (23, 2, (· ≤ 2))]
  | _, _ => []

/-- Fields of word `n` of an island in row mode (R130) or of an engine's island (R244); the odd island of an engine has none. -/
def islandFields (engine odd : Bool) (n : Nat) : List PField :=
  if engine && odd then [] else
  match engine, n with
  | false, 0 => [(23, 1, anyVal), (22, 1, anyVal), (18, 4, fun v => 2 ≤ v && v ≤ 5), (0, 8, anyVal)]
  | true, 0 => [(30, 2, (· ≤ 2)), (23, 7, anyVal), (20, 3, anyVal)]
  | true, 1 => word32
  | true, 2 => nonZero
  | true, 3 => [(0, 14, anyVal)]
  | _, _ => []

/-- A word written over `old`: a reserved value keeps the old field, a reserved field is zero (R4, R376). -/
def writeFields (fs : List PField) (old v : W32) : W32 :=
  fs.foldl (fun acc f =>
    let m : W32 := BitVec.ofNat 32 ((2 ^ f.2.1 - 1) * 2 ^ f.1)
    acc ||| ((if f.2.2 (v.toNat / 2 ^ f.1 % 2 ^ f.2.1) then v else old) &&& m)) 0

/-- Parameter words of a unit before anything writes them: the tables' reset values. -/
def resetParams (u : Nat) : List W32 :=
  if 18 ≤ u ∧ u ≤ 21 then [0, 0, 0, 1, 1, 1] ++ List.replicate 10 0
  else if u = 29 then 0x00220000 :: List.replicate 15 0
  else if u = 30 then 0x00000010 :: List.replicate 15 0
  else List.replicate 16 0

def resetIslandParams (engine odd : Bool) : List W32 :=
  (if engine then (if odd then [0, 0, 0] else [0x00100000, 0, 1]) else [0x00080000, 0, 0]) ++ List.replicate 13 0

/-- Operator unit `u` of a tile before a placement configures it. -/
def OpUnit.reset (u : Nat) : OpUnit := { p := resetParams u }

def Island.reset : Island := { p := resetIslandParams false false }

/-- Word `n` written into a unit; word 16 is the status word, whose cnt it sets (R112, R376). -/
def OpUnit.put (o : OpUnit) (u n : Nat) (v : W32) : OpUnit :=
  if n = 16 then { o with cnt := v.extractLsb' 0 24 }
  else { o with p := o.p.set n (writeFields (unitFields u n) (o.p.getD n 0) v) }

/-- Word `n` written into an island; `odd`: it is the second of its pair. -/
def Island.put (x : Island) (odd : Bool) (n : Nat) (v : W32) : Island :=
  if n = 16 then { x with cnt := v.extractLsb' 0 24 }
  else { x with p := x.p.set n (writeFields (islandFields x.engine odd n) (x.p.getD n 0) v) }

end Sys2Proof.Machine
end

