-- ==== Sys2Proof/Machine/Access.lean ====
section
/-! DEFINITION. Access to the parts of the state by place, tokens (R28 to R35) and channels (R109, R110). -/
namespace Sys2Proof.Machine
open Sys2Proof

/-! ### Access -/

namespace State

def ctx (s : State) (i : Nat) : Ctx := SMap.get {} s.ctxs i
def setCtx (s : State) (i : Nat) (c : Ctx) : State := { s with ctxs := SMap.set s.ctxs i c }
def tile (s : State) (p : Nat) : Tile := SMap.get {} s.tiles p
def setTile (s : State) (p : Nat) (t : Tile) : State := { s with tiles := SMap.set s.tiles p t }
def inc (s : State) (i : Nat) : InChan := SMap.get {} s.ins i
def setInc (s : State) (i : Nat) (c : InChan) : State := { s with ins := SMap.set s.ins i c }
def outc (s : State) (i : Nat) : OutChan := SMap.get {} s.outs i
def setOutc (s : State) (i : Nat) (c : OutChan) : State := { s with outs := SMap.set s.outs i c }
def unit (s : State) (i : Nat) : OpUnit := SMap.get (OpUnit.reset (i % 64)) s.units i
def setUnit (s : State) (i : Nat) (u : OpUnit) : State := { s with units := SMap.set s.units i u }
def island (s : State) (p : Nat) : Island := SMap.get Island.reset s.islands p
def setIsland (s : State) (p : Nat) (x : Island) : State := { s with islands := SMap.set s.islands p x }
def engine (s : State) (i : Nat) : Engine := SMap.get {} s.engines i
def setEngine (s : State) (i : Nat) (x : Engine) : State := { s with engines := SMap.set s.engines i x }
def streamer (s : State) (i : Nat) : Streamer := SMap.get {} s.streamers i
def setStreamer (s : State) (i : Nat) (x : Streamer) : State := { s with streamers := SMap.set s.streamers i x }
def part (s : State) (i : Nat) : Part := SMap.get {} s.parts i
def setPart (s : State) (i : Nat) (x : Part) : State := { s with parts := SMap.set s.parts i x }

def mapIns (s : State) (f : Nat → InChan → InChan) : State := { s with ins := s.ins.map fun e => (e.1, f e.1 e.2) }
def mapCtxs (s : State) (f : Nat → Ctx → Ctx) : State := { s with ctxs := s.ctxs.map fun e => (e.1, f e.1 e.2) }
def mapUnits (s : State) (f : Nat → OpUnit → OpUnit) : State := { s with units := s.units.map fun e => (e.1, f e.1 e.2) }
def mapIslands (s : State) (f : Nat → Island → Island) : State := { s with islands := s.islands.map fun e => (e.1, f e.1 e.2) }
def mapTiles (s : State) (f : Nat → Tile → Tile) : State := { s with tiles := s.tiles.map fun e => (e.1, f e.1 e.2) }

/-- Almanac time as a die reads it (R272). -/
def time (s : State) (die : Nat) : W64 := s.copies.getD die 0

end State

namespace Focus
def place (f : Focus) : Nat := placeOf f.die f.tile
def ctxId (f : Focus) : Nat := f.place * 8 + f.ctx
end Focus

def State.here (s : State) : Ctx := s.ctx s.focus.ctxId
def State.setHere (s : State) (c : Ctx) : State := s.setCtx s.focus.ctxId c

/-- Source number of unit `u` at a place. -/
def sourceAt (place u : Nat) : BitVec 16 := sourceNo (place / 256) (place % 256) u

/-! ### Tokens (R28 to R35) -/

namespace Token

def lanes : Token → List Lane
  | .data _ _ _ _ _ l => l
  | .mark _ _ _ => []

def isMark : Token → Bool
  | .data _ _ _ _ _ _ => false
  | .mark _ _ _ => true

def isEos : Token → Bool
  | .mark _ .eos _ => true
  | _ => false

def key : Token → BitVec 12
  | .data _ _ _ k _ _ => k
  | .mark _ _ _ => 0

def count : Token → BitVec 4
  | .data _ _ _ _ n _ => n
  | .mark _ _ _ => 0

def fmt : Token → BitVec 4
  | .data _ _ f _ _ _ => f
  | .mark _ _ _ => 1

def ctx : Token → BitVec 3
  | .data c _ _ _ _ _ => c
  | .mark c _ _ => c

/-- Class of a lookahead (R63): 0 for a data or EMPTY token. -/
def cls : Token → BitVec 4
  | .data _ _ _ _ _ _ => 0
  | .mark _ c _ => c.code

/-- The 64-bit header (R28) of a token on channel `chan`, or delivered inside a tile to `target`. -/
def header (t : Token) (chan : BitVec 6) (target : BitVec 11) : W64 :=
  match t with
  | .data c f fm k n l =>
    c ++ f ++ BitVec.ofNat 5 (l.length - 1) ++ fm ++ (k ++ n) ++ chan ++ target ++ (0 : BitVec 7)
  | .mark c m p =>
    c ++ (0 : BitVec 12) ++ (0 : BitVec 5) ++ (1 : BitVec 4) ++ (m.code ++ p) ++ chan ++ target ++ (0 : BitVec 7)

/-- A data token, sent as an EMPTY token when every lane is empty (R31, R98). -/
def make (ctx : BitVec 3) (frame : BitVec 12) (fmt : BitVec 4) (key : BitVec 12) (count : BitVec 4) (l : List Lane) : Token :=
  if l.all Option.isNone then .data ctx frame 0 key 0 l else .data ctx frame fmt key count l

/-- The lanes from `n` on, as a smaller run with the same key and count (R68, R96). -/
def drop (t : Token) (n : Nat) : Token :=
  match t with
  | .data c f fm k ct l => .data c f fm k ct (l.drop n)
  | t => t

/-- The first `n` lanes; a head that ends before the final lane carries count 0 (R412). -/
def take (t : Token) (n : Nat) : Token :=
  match t with
  | .data c f fm k ct l => .data c f fm k (if n < l.length then 0 else ct) (l.take n)
  | t => t

end Token

/-- Mark level (R35). -/
def markLevel : MarkClass → Nat
  | .er => 1 | .eg => 2 | .es => 3 | .eb => 4 | .eos => 7 | _ => 0

/-! ### Channel descriptors (R109) -/

def descEn (d : W64) : Bool := d.getLsbD 63
def descFmt (d : W64) : BitVec 4 := d.extractLsb' 59 4
def descDepth (d : W64) : Nat := (d.extractLsb' 53 6).toNat + 1
/-- Channel end of the peer on this package. -/
def descPeer (d : W64) : Nat :=
  chanId (d.extractLsb' 51 2).toNat (d.extractLsb' 43 8).toNat (d.extractLsb' 37 6).toNat
def descWc (d : W64) : Bool := d.getLsbD 35
def descXp (d : W64) : Bool := d.getLsbD 34

/-- The consumer's end of a channel, if it lies on this package. -/
def consumerEnd (i : Nat) (out : Bool) (d : W64) : Option Nat := if !out then some i else if descXp d then none else some (descPeer d)

/-- The channel holds tokens; of a channel to another package, the credits that the producer is short of say so. -/
def holdsTokens (s : State) (i : Nat) (out : Bool) (d : W64) : Bool :=
  match consumerEnd i out d with
  | some e => !(s.inc e).queue.isEmpty || !(s.inc e).flight.isEmpty
  | none => decide ((s.outc i).credits < descDepth d)

/-- Sends a token from channel end `i`, using a credit; a token with xp leaves the package (R109, R110, R217). -/
def sendOn (s : State) (i : Nat) (t : Token) : State :=
  let oc := s.outc i
  let s := s.setOutc i { oc with credits := oc.credits - 1, sent := oc.sent + 1, eos := t.isEos }
  if descXp oc.desc then s
  else
    let p := descPeer oc.desc
    let ic := s.inc p
    s.setInc p { ic with flight := ic.flight ++ [t] }

/-- Whether channel end `i` holds a credit. -/
def canSend (s : State) (i : Nat) : Bool := descEn (s.outc i).desc && decide (0 < (s.outc i).credits)

/-- The consumer of channel end `i` is done with its head token: the slot is freed and a credit goes back (R109). -/
def consume (s : State) (i : Nat) : State :=
  match (s.inc i).queue with
  | [] => s
  | t :: rest =>
    let ic := s.inc i
    let s := s.setInc i { ic with queue := rest, eos := t.isEos, cut := false }
    if descXp ic.desc || descWc ic.desc then s
    else
      let p := descPeer ic.desc
      let oc := s.outc p
      s.setOutc p { oc with returning := oc.returning + 1 }

/-- Replaces the head token by its tail, which is marked as one (R68, R96). -/
def shrinkHead (s : State) (i n : Nat) : State :=
  let ic := s.inc i
  match ic.queue with
  | [] => s
  | t :: rest => s.setInc i { ic with queue := t.drop n :: rest, cut := true }

/-- Consumes and discards tokens up to and including EOS (R232, R349). -/
def sinkTokens (s : State) (i : Nat) : Nat → State
  | 0 => s
  | n + 1 => if (s.inc i).eos || (s.inc i).queue.isEmpty then s else sinkTokens (consume s i) i n


end Sys2Proof.Machine
end

