-- ==== Sys2Proof/Machine/Caches.lean ====
section
/-! DEFINITION. The memory system as one access meets it: the slice hash (R141), translation (R146 to R149), the remap filter
(R151), lines of the L2 and the L1 (R143, R156 to R158), the scratchpad (R140), and poison (R159 to R161). An access runs to its
end within the step that makes it (log 5). -/
namespace Sys2Proof.Machine
open Sys2Proof

/-- Why an access fails: the fault's code and the address its record carries (R149, R160). -/
structure MemFault where
  code : BitVec 8
  va : Nat
deriving DecidableEq, Repr

/-- What an access gives: the state afterwards, and its value or its fault. -/
abbrev Acc (α : Type) := State × Except MemFault α

def faultTranslation (va : Nat) : MemFault := ⟨0x05, va⟩
def faultProtection (va : Nat) : MemFault := ⟨0x06, va⟩
def faultAlign (va : Nat) : MemFault := ⟨0x07, va⟩
def faultPoison (va : Nat) : MemFault := ⟨0x08, va⟩

/-- Who makes an access: the tile, its partition, whether it goes through an L1 (classes E and S, R170), and its scope; the context or
unit whose unmap marker divides its accesses (R154), and whether it is performed at the owning slice, for which the tile's bank gives up
its copy first (R164). -/
structure Via where
  place : Nat
  part : Nat
  l1 : Bool
  scope : Scope
  who : Option UnitRef := none
  atSlice : Bool := false
deriving DecidableEq, Repr

/-- The memory path of a context, by its number (R154). -/
def ctxRef (id : Nat) : UnitRef := .ctx (id / 2048) (id / 8 % 256) (id % 8)

def Via.die (v : Via) : Nat := v.place / 256
def Via.asid (v : Via) (s : State) : BitVec 8 := (s.part v.part).asid

/-! ### Names and slices -/

def lineOf (va : Nat) : Nat := va % 2 ^ 56 / 128

/-- The XOR of `n` seven-bit groups of a line number, from the lowest up. -/
def foldGroups (line : Nat) : Nat → Nat
  | 0 => 0
  | n + 1 => foldGroups line n ^^^ (line / 2 ^ (7 * n) % 128)

/-- The slice that the hash of R141 gives a line. -/
def hashSlice (asid : BitVec 8) (line : Nat) : Nat := asid.toNat % 128 ^^^ foldGroups line 7

/-- The package slice of a line for a request of a partition (R141, R142). -/
def sliceOf (s : State) (part die : Nat) (asid : BitVec 8) (line : Nat) : Nat :=
  let h := hashSlice asid line
  if (s.part part).ways.getLsbD 16 then die * 32 + h % 32 else h

/-- Set of a slice, of 2,048, that holds a line (log 6). -/
def setOf (line : Nat) : Nat := Config.sliceSet line % 2048

/-- A choice among the entries that may be replaced (log 6). -/
def choose (s : State) (n : Nat) : State × Nat := ({ s with draws := s.draws + 1 }, Config.victim s.draws [] % n)

/-- A choice among lines, in view of the hints that they carry (R381, log 6). -/
def chooseLine (s : State) (l : List Line) : State × Nat :=
  ({ s with draws := s.draws + 1 }, Config.victim s.draws (l.map Line.hint) % l.length)

/-! ### Bytes and poison (R159, R161) -/

/-- Byte mask of one granule of a line. -/
def granMask (g : Nat) : BitVec 128 := BitVec.ofNat 128 (255 * 2 ^ (8 * g))

/-- Poison bits after a merge of the masked bytes, where `src` are the source's poison bits and `whole` tells whether a
granule that the mask covers whole gets fresh ECC. -/
def mergePoison (old src : BitVec 16) (mask : BitVec 128) : BitVec 16 :=
  (List.range 16).foldl (fun acc g =>
    let m := mask &&& granMask g
    if m = 0 then acc
    else
      let keep := old.getLsbD g && m != granMask g
      let bit : BitVec 16 := BitVec.twoPow 16 g
      if src.getLsbD g || keep then acc ||| bit else acc &&& ~~~bit) old

def mergeBytes (old new : List Byte) (mask : BitVec 128) : List Byte :=
  (List.range 128).map fun i => if mask.getLsbD i then new.getD i 0 else old.getD i 0

/-- The line with the masked bytes of `data` in it; `dirty` are its dirty bits afterwards. -/
def Line.merge (l : Line) (data : List Byte) (poison : BitVec 16) (mask dirty : BitVec 128) : Line :=
  { l with data := mergeBytes l.data data mask, poison := mergePoison l.poison poison mask, dirty := dirty }

/-! ### Main memory -/

/-- The die and the module of that die that a physical address selects (R23). -/
def memDie (pa : Nat) : Nat := pa / 2 ^ 41 % 4
def memModule (pa : Nat) : Nat := pa % 2 ^ 41 / 4096 % 12

/-- The line at a physical address, as a fill finds it (R159). -/
def dramLine (s : State) (pa : Nat) : List Byte × BitVec 16 :=
  let b := pa / 128 * 128
  let lo : BitVec 16 := if s.dramPoison.contains (b / 64) then 0x00FF else 0
  let hi : BitVec 16 := if s.dramPoison.contains (b / 64 + 1) then 0xFF00 else 0
  (s.mem.bytes b 128, lo ||| hi)

def setPoison (l : List Nat) (g : Nat) (p : Bool) : List Nat :=
  if p then (if l.contains g then l else l ++ [g]) else l.filter (· != g)

/-- Writes a line to main memory whole (R159). -/
def writeDram (s : State) (l : Line) : State :=
  let b := l.pa / 128 * 128
  { s with
    mem := s.mem.writeBytes b (l.data.map some)
    dramPoison := setPoison (setPoison s.dramPoison (b / 64) (l.poison.extractLsb' 0 8 != 0)) (b / 64 + 1)
      (l.poison.extractLsb' 8 8 != 0) }

/-! ### The L2 -/

def Line.named (l : Line) (asid : BitVec 8) (line : Nat) : Bool := l.asid == asid && l.line == line

def l2Find (s : State) (asid : BitVec 8) (line : Nat) : Option Line := s.l2.find? fun l => l.named asid line

def l2Drop (s : State) (asid : BitVec 8) (line : Nat) : State :=
  { s with l2 := s.l2.filter fun l => !l.named asid line }

def l2Put (s : State) (x : Line) : State :=
  { s with l2 := s.l2.map fun l => if l.named x.asid x.line then x else l }

/-- A line leaves the L2 by replacement (R143). -/
def l2Evict (s : State) (l : Line) : State :=
  let s := l2Drop s l.asid l.line
  if l.dirty = 0 then s else writeDram s l

/-- Ways that a partition's misses may fill (R144). -/
def fillWays (s : State) (part : Nat) : List Nat := (List.range 16).filter fun w => (s.part part).ways.getLsbD w

/-- A way for a fill: an allowed way that is empty, or one that replacement frees (R143, R144). -/
def l2Way (s : State) (part slice line : Nat) : State × Nat :=
  let set := s.l2.filter fun l => l.slice = slice ∧ setOf l.line = setOf line
  let ways := fillWays s part
  match ways.find? fun w => set.all fun l => l.way ≠ w with
  | some w => (s, w)
  | none =>
    let (s, n) := chooseLine s (ways.filterMap fun w => set.find? fun l => l.way = w)
    let w := ways.getD n 0
    match set.find? fun l => l.way = w with
    | some l => (l2Evict s l, w)
    | none => (s, w)

/-- Fills a line of the L2 from main memory (R24, R143, R159). -/
def l2Fill (s : State) (part slice : Nat) (asid : BitVec 8) (line pa : Nat) (w : Bool) : State × Line :=
  let (s, way) := l2Way s part slice line
  let d := dramLine s pa
  let l : Line := { asid := asid, line := line, data := d.1, poison := d.2, dirty := 0, scope := .package, w := w
                    slice := slice, way := way, pa := pa / 128 * 128 }
  ({ s with l2 := s.l2 ++ [l] }, l)

/-! ### Translation (R146 to R149) -/

/-- An address of a hole (R23). -/
def isHole (pa : Nat) : Bool := decide (2 ^ 43 ≤ pa ∨ 3 * 2 ^ 39 ≤ pa % 2 ^ 41)

/-- Slots per window that a partition is promised at each slice, and whether it never takes more (R145). -/
def bwSlots (s : State) (part : Nat) : Nat := ((s.part part).bw.extractLsb' 0 11).toNat
def bwCap (s : State) (part : Nat) : Bool := (s.part part).bw.getLsbD 31

/-- A slice whose window of 1,024 cycles is over begins the next: its usage counts restart (R145). -/
def Slice.window (q : Slice) : Slice := if 1024 ≤ q.cycle then { q with used := [], cycle := 0 } else q

/-- A slot of a slice is granted: one cycle, counted for a partition (R145). -/
def takeSlot (s : State) (slice part : Nat) : State :=
  let q := (SMap.get {} s.slices slice).window
  { s with slices := SMap.set s.slices slice { q with
      used := SMap.set q.used part (SMap.get 0 q.used part + 1), last := part, cycle := q.cycle + 1 } }

/-- Partition number under which the keep cores' own requests count. -/
def keepCores : Nat := 32

/-- Eight bytes of a table and whether they are poisoned: in the L2 under the keep cores' ASID 0xFF, else in main memory (R148). -/
def tableLine (s : State) (pa : Nat) : List Byte × BitVec 16 :=
  match l2Find s 0xFF (pa / 128) with
  | some l => (l.data, l.poison)
  | none => dramLine s pa

def tableWordAt (s : State) (pa : Nat) : W64 := BitVec.ofNat 64 (leNat (((tableLine s pa).1.drop (pa % 128)).take 8))
def tablePoison (s : State) (pa : Nat) : Bool := (tableLine s pa).2.getLsbD (pa % 128 / 8)

/-- A read of a walk goes through the slice of the table's line, and fills it there (R148). -/
def readTable (s : State) (pa : Nat) : State :=
  let line := pa / 128
  let slice := hashSlice 0xFF line
  let s := takeSlot s slice keepCores
  if isHole pa ∨ (l2Find s 0xFF line).isSome then s else (l2Fill s keepCores slice 0xFF line pa true).1

/-- A store to main memory past the gates, as the keep cores and system software write page tables (R146): the slice that holds the
line of a table sees it (R148). -/
def storeTable (s : State) (pa : Nat) (bytes : List Byte) : State :=
  { s with
    mem := s.mem.writeBytes pa (bytes.map some)
    l2 := s.l2.map fun l => if l.asid = 0xFF then
        { l with data := l.data.zipIdx.map fun e =>
            let a := l.line * 128 + e.2
            if pa ≤ a ∧ a < pa + bytes.length then bytes.getD (a - pa) 0 else e.1 }
      else l }

inductive PteKind where
  | bad
  | table (pa : Nat)
  | leaf (pa : Nat) (s w : Bool)
deriving DecidableEq, Repr

/-- A page-table entry at level 0 (A) to 3 (D) (R147). -/
def pteKind (level : Nat) (e : W64) : PteKind :=
  let pa := (e.extractLsb' 16 36).toNat * 65536
  let leaf := e.getLsbD 1
  if !e.getLsbD 0 || e.extractLsb' 52 12 ≠ 0 || e.extractLsb' 4 12 ≠ 0 then .bad
  else if leaf then
    if level = 0 ∨ (level = 1 ∧ pa % 2 ^ 30 ≠ 0) ∨ (level = 2 ∧ pa % 2 ^ 21 ≠ 0) then .bad
    else .leaf pa (e.getLsbD 3) (e.getLsbD 2)
  else if level = 3 then .bad else .table pa

/-- Levels of the tables (R146): lowest index bit and index width. -/
def levels : List (Nat × Nat) := [(43, 13), (30, 13), (21, 9), (16, 5)]

/-- Walks from a table: the page's size in address bits, its physical address, S and W. -/
def walkFrom (s : State) (va table : Nat) : Nat → List (Nat × Nat) → Option (Nat × Nat × Bool × Bool)
  | _, [] => none
  | lv, (lo, n) :: rest =>
    match pteKind lv (tableWordAt s (table + 8 * (va / 2 ^ lo % 2 ^ n))) with
    | .bad => none
    | .leaf pa sh w => some (lo, pa, sh, w)
    | .table pa => walkFrom s va pa (lv + 1) rest

/-- The entries that a walk from a table reads. -/
def walkReads (s : State) (va table : Nat) : Nat → List (Nat × Nat) → List Nat
  | _, [] => []
  | lv, (lo, n) :: rest =>
    let a := table + 8 * (va / 2 ^ lo % 2 ^ n)
    a :: match pteKind lv (tableWordAt s a) with
      | .table pa => walkReads s va pa (lv + 1) rest
      | _ => []

/-- A whole walk (R146, R149): none when it fails with TRANSLATION. -/
def walk (s : State) (asid : BitVec 8) (va : Nat) : Option TlbEntry :=
  let r := SMap.get 0 s.roots asid.toNat
  if r.getLsbD 63 then
    match walkFrom s va ((r.extractLsb' 16 36).toNat * 65536) 0 levels with
    | some (n, pa, sh, w) =>
      if isHole (pa + va % 2 ^ n) then none else some ⟨asid, va / 2 ^ n, n, pa, sh, w⟩
    | none => none
  else none

/-- A gate walks (R148): its reads go through the L2. A table entry that is poisoned gives the access POISON, with the address that it
translates (R160; DEDUCED, log 56). -/
def gateWalk (s : State) (asid : BitVec 8) (va : Nat) : Acc TlbEntry :=
  let r := SMap.get 0 s.roots asid.toNat
  let reads := if r.getLsbD 63 then walkReads s va ((r.extractLsb' 16 36).toNat * 65536) 0 levels else []
  let t := reads.foldl readTable s
  if reads.any (tablePoison s) then (t, .error (faultPoison va))
  else match walk s asid va with
    | none => (t, .error (faultTranslation va))
    | some e => (t, .ok e)

def TlbEntry.covers (e : TlbEntry) (asid : BitVec 8) (va : Nat) : Bool := e.asid == asid && e.va == va / 2 ^ e.size

def TlbEntry.phys (e : TlbEntry) (va : Nat) : Nat := e.pa + va % 2 ^ e.size

/-- Entries of a gate for pages of the size of `e` (R148). -/
def tlbRoom (e : TlbEntry) : Nat := if e.size = 30 then 2048 else 16384

/-- A gate caches a translation, replacing one of the same kind when it is full (R148). -/
def tlbInsert (s : State) (gate : Nat) (e : TlbEntry) : State :=
  let l := (SMap.get [] s.tlbs gate).filter fun x => !(x.asid == e.asid && x.va == e.va && x.size == e.size)
  let same := l.filter fun x => (x.size == 30) == (e.size == 30)
  if same.length < tlbRoom e then { s with tlbs := SMap.set s.tlbs gate (l ++ [e]) }
  else
    let (s, n) := choose s same.length
    let out := same.getD n e
    { s with tlbs := SMap.set s.tlbs gate (l.filter (· ≠ out) ++ [e]) }

def tlbForget (s : State) (gate : Nat) (asid : BitVec 8) (va : Nat) : State :=
  { s with tlbs := SMap.set s.tlbs gate ((SMap.get [] s.tlbs gate).filter fun e => !e.covers asid va) }

/-! ### Synonyms (R151) -/

/-- Every cached copy of the lines of a page (64 KiB of an address space) is written back and invalidated. -/
def Line.inPage (l : Line) (asid : BitVec 8) (page : Nat) : Bool := l.asid == asid && l.line / 512 == page

/-! ### The L1 of a tile (R156) -/

def l1Steps (t : Tile) : Nat := (t.sram.extractLsb' 0 4).toNat
/-- Bytes of the scratchpad (R140). -/
def scratchSize (t : Tile) : Nat := (12 - l1Steps t) * 131072
/-- Sets of the bank, 8 ways of 128 bytes each (R156). -/
def l1Sets (t : Tile) : Nat := l1Steps t * 128

def l1Find (t : Tile) (asid : BitVec 8) (line : Nat) : Option Line := t.l1.find? fun l => l.named asid line

def l1Set (s : State) (place : Nat) (g : List Line → List Line) : State :=
  let t := s.tile place
  s.setTile place { t with l1 := g t.l1 }

def l1Drop (s : State) (place : Nat) (asid : BitVec 8) (line : Nat) : State :=
  l1Set s place fun ls => ls.filter fun l => !l.named asid line

def l1Put (s : State) (place : Nat) (x : Line) : State :=
  l1Set s place fun ls => ls.map fun l => if l.named x.asid x.line then x else l

/-- The L2's line under a name, filled at a physical address where it is missing or comes from another one. -/
def l2At (s : State) (part slice : Nat) (x : Line) : State × Line :=
  match l2Find s x.asid x.line with
  | some l => if l.pa = x.pa then (s, l) else l2Fill (l2Evict s l) part slice x.asid x.line x.pa x.w
  | none => l2Fill s part slice x.asid x.line x.pa x.w

/-- The dirty bytes of an L1 line reach the L2's line, with their poison; the L1 line stays, clean (R158, R159). -/
def l1WriteBack (s : State) (place : Nat) (x : Line) : State :=
  let part := SMap.get 0 s.owners place
  let slice := sliceOf s part (place / 256) x.asid x.line
  let (s, l) := l2At (takeSlot s slice part) part slice x
  let s := l2Put s (l.merge x.data x.poison x.dirty (l.dirty ||| x.dirty))
  l1Put s place { x with dirty := 0 }

/-- Writes back every dirty line of a bank that `p` picks. -/
def l1WriteBackAll (s : State) (place : Nat) (p : Line → Bool) : State :=
  ((s.tile place).l1.filter fun l => l.dirty != 0 && p l).foldl (fun s l => l1WriteBack s place l) s

/-- What the L2, or behind it main memory, holds of a line now. -/
def backing (s : State) (x : Line) : List Byte × BitVec 16 :=
  match (l2Find s x.asid x.line).filter fun l => l.pa = x.pa with
  | some l => (l.data, l.poison)
  | none => dramLine s x.pa

/-- A line of a bank keeps its dirty bytes and takes every other byte from what lies behind it. -/
def Line.refresh (x : Line) (b : List Byte × BitVec 16) : Line :=
  { x with data := mergeBytes b.1 x.data x.dirty, poison := mergePoison b.2 x.poison x.dirty }

/-- Invalidates the clean lines of a bank (R158), and the clean bytes of a line that holds dirty ones: a later read of them is
synchronised as well (R181), and takes them from the L2. -/
def l1InvalidateClean (s : State) (place : Nat) : State :=
  l1Set s place fun ls => (ls.filter fun l => l.dirty != 0).map fun l => l.refresh (backing s l)

/-- Writes back and invalidates the lines of a bank that `p` picks. -/
def l1Flush (s : State) (place : Nat) (p : Line → Bool) : State :=
  l1Set (l1WriteBackAll s place p) place fun ls => ls.filter fun l => !p l

/-- A line enters a bank; a full set gives up one of its eight ways (R156). -/
def l1Insert (s : State) (place : Nat) (x : Line) : State :=
  let t := s.tile place
  let set := t.l1.filter fun l => Config.bankSet l.line % l1Sets t = Config.bankSet x.line % l1Sets t
  if set.length < 8 then l1Set s place fun ls => ls ++ [x]
  else
    let (s, n) := chooseLine s set
    let out := set.getD n x
    let s := if out.dirty = 0 then s else l1WriteBack s place out
    l1Set (l1Drop s place out.asid out.line) place fun ls => ls ++ [x]

def placesOf (s : State) : List Nat := s.tiles.map (·.1)

/-- The remap filter is full: its oldest entry goes, with every cached line of its canonical page (R151). -/
def filterEvict (s : State) : State :=
  match s.filter with
  | [] => s
  | (_, asid, page) :: rest =>
    let s := (placesOf s).foldl (fun s p => l1Flush s p fun l => l.inPage asid page) s
    let s := (s.l2.filter fun l => l.inPage asid page).foldl l2Evict s
    { s with filter := rest }

/-- The canonical name under which the caches hold a line of a page (R151): address space and line number. -/
def canonical (s : State) (asid : BitVec 8) (va : Nat) (e : TlbEntry) : State × BitVec 8 × Nat :=
  let line := lineOf va
  if e.s then
    let granule := e.phys va / 65536
    match s.filter.find? fun f => f.1 = granule with
    | some (_, a, page) => (s, a, page * 512 + line % 512)
    | none =>
      let s := if s.filter.length < 8192 then s else filterEvict s
      ({ s with filter := s.filter ++ [(granule, asid, line / 512)] }, asid, line)
  else (s, asid, line)

/-! ### Translation at a gate, and the walks that requests wait for (R148, R150) -/

/-- Pages of an address space that lie in an unmap's range. -/
def Unmap.holds (u : Unmap) (asid : BitVec 8) (va : Nat) : Bool := u.asid == asid && decide (u.va ≤ va ∧ va < u.va + u.size)

/-- The translation of an address that a gate has cached. -/
def tlbFind (s : State) (gate : Nat) (asid : BitVec 8) (va : Nat) : Option TlbEntry :=
  (SMap.get [] s.tlbs gate).find? fun e => e.covers asid va

/-- A gate caches what a walk found. While an unmap of the page runs, a translation that it has cached stays, for the accesses whose
marker has not passed (R155, R184). -/
def tlbKeep (s : State) (gate : Nat) (va : Nat) (e : TlbEntry) : State :=
  if (s.unmapRun.any fun u => u.holds e.asid va) && (tlbFind s gate e.asid va).isSome then s
  else tlbInsert (tlbForget s gate e.asid va) gate e

/-- Walks in progress at a gate: the pages of 64 KiB they are for (R148). -/
def walkPages (s : State) (die : Nat) : List (BitVec 8 × Nat) :=
  ((SMap.get [] s.walks die).map fun f => (f.asid, f.line / 512)).dedup

/-- A translated request goes to the memory of the die and module that its physical address selects, over the die-to-die fabric where that
is another die, and is not translated again (R23, R24); it carries the canonical name of the line, its physical address and W. -/
def translated (s : State) (f : Fill) (e : TlbEntry) : State :=
  let (s, ca, cl) := canonical s f.asid (f.line * 128) e
  let pa := e.phys (f.line * 128)
  let f := { f with pa := pa, w := e.w, canon := some (ca, cl), bank := memModule pa }
  { s with responses := SMap.set s.responses (memDie pa) (SMap.get [] s.responses (memDie pa) ++ [f]) }

/-- The walk of a request's page ends, for every request that joined it (R148). A failed walk caches nothing, and a PREF behind it has no
effect (R381). -/
def finishWalk (s : State) (die : Nat) (f : Fill) : Acc TlbEntry :=
  let l := SMap.get [] s.walks die
  let same (g : Fill) : Bool := g.asid == f.asid && g.line / 512 == f.line / 512
  match gateWalk { s with walks := SMap.set s.walks die (l.filter fun g => !same g) } f.asid (f.line * 128) with
  | (s, .error e) => (s, .error e)
  | (s, .ok e) => ((l.filter same).foldl (fun s g => translated s g e) (tlbKeep s die (f.line * 128) e), .ok e)

/-- A gate makes room for a walk: with sixteen in progress, the oldest ends first (R148). -/
def walkRoom (s : State) (gate : Nat) : State :=
  if (walkPages s gate).length < 16 then s
  else match SMap.get [] s.walks gate with
    | f :: _ => (finishWalk s gate f).1
    | [] => s

/-- A miss walks, or joins the walk of its page that is in progress (R148). An access runs to its end within its step (log 5): the walk
that it joins ends with it. -/
def walkOrJoin (s : State) (gate : Nat) (asid : BitVec 8) (va : Nat) : Acc TlbEntry :=
  match (SMap.get [] s.walks gate).find? fun f => f.asid = asid ∧ f.line / 512 = va / 65536 with
  | some f => finishWalk s gate f
  | none => match gateWalk (walkRoom s gate) asid va with
    | (s, .error e) => (s, .error e)
    | (s, .ok e) => (tlbKeep s gate va e, .ok e)

/-- A gate walks and caches what it finds; a failed walk leaves the cache as it was (R148, R149). -/
def walkAgain (s : State) (gate : Nat) (asid : BitVec 8) (va : Nat) (write : Bool) : Acc TlbEntry :=
  match walkOrJoin s gate asid va with
  | (s, .error e) => (s, .error { e with va := va })
  | (s, .ok e) => if !write || e.w then (s, .ok e) else (s, .error (faultProtection va))

/-- Translation at a gate (R148, R149): a cached translation that denies a write is walked again. -/
def translate (s : State) (gate : Nat) (asid : BitVec 8) (va : Nat) (write : Bool) : Acc TlbEntry :=
  let va := va % 2 ^ 56
  match tlbFind s gate asid va with
  | some e => if !write || e.w then (s, .ok e) else walkAgain s gate asid va write
  | none => walkAgain s gate asid va write

/-! ### Accesses on either side of an unmap marker (R154, R155, R184) -/

/-- Which tables an access is translated under: what the gate has cached or walks, or, in the range of an unmap that runs, the old ones
before the marker of the access's stream has passed and the new ones behind it. -/
inductive Tables where
  | cached | old | new
deriving DecidableEq, Repr

def tablesFor (s : State) (asid : BitVec 8) (who : Option UnitRef) (va : Nat) : Tables :=
  match s.unmapRun, who with
  | some u, some w => if u.holds asid (va % 2 ^ 56) then (if u.pending.contains w then .old else .new) else .cached
  | _, _ => .cached

/-- The translation of an access under its tables. Behind its marker the tables are walked, and what the gate has cached stays for the
accesses before theirs; before it, a cached translation stays as it is, and the current entry decides about a write that it denies. -/
def translateFor (s : State) (gate : Nat) (asid : BitVec 8) (who : Option UnitRef) (va : Nat) (write : Bool) : Acc TlbEntry :=
  let a := va % 2 ^ 56
  match tablesFor s asid who va, tlbFind s gate asid a with
  | .new, _ => match gateWalk s asid a with
    | (s, .error e) => (s, .error e)
    | (s, .ok e) => if !write || e.w then (s, .ok e) else (s, .error (faultProtection a))
  | .old, some e =>
    if !write || e.w then (s, .ok e)
    else match gateWalk s asid a with
      | (s, .error e) => (s, .error e)
      | (s, .ok n) => if n.w then (s, .ok { e with w := true }) else (s, .error (faultProtection a))
  | _, _ => translate s gate asid va write

/-- The gate's check of a write that hits a line whose W is 0: by the current page-table entry (R150). -/
def gateCheck (s : State) (gate : Nat) (asid : BitVec 8) (who : Option UnitRef) (va : Nat) : Acc Unit :=
  let a := va % 2 ^ 56
  match (if tablesFor s asid who va = .cached then walkAgain s gate asid a true else gateWalk s asid a) with
  | (s, .error e) => (s, .error e)
  | (s, .ok e) => if e.w then (s, .ok ()) else (s, .error (faultProtection a))

/-- The copies of the lines that `p` picks which a translation contradicts leave the caches: written back to where they came from. -/
def dropOther (s : State) (p : Line → Bool) (e : TlbEntry) (strict : Bool) : State :=
  let bad (l : Line) : Bool := p l && (l.pa != e.phys (l.line * 128) / 128 * 128 || (strict && l.w && !e.w))
  let s := (s.tiles.map (·.1)).foldl (fun s q => if (s.tile q).l1.any bad then l1Flush s q bad else s) s
  (s.l2.filter bad).foldl l2Evict s

/-- Before an access on either side of a marker: what the caches hold of its line under the other tables goes, so that the access finds
what its own tables name. It fails where the new tables hold no valid entry. -/
def settleLine (s : State) (gate : Nat) (asid : BitVec 8) (who : Option UnitRef) (va : Nat) : Acc Unit :=
  let a := va % 2 ^ 56
  let here (l : Line) : Bool := l.named asid (lineOf va)
  match tablesFor s asid who va with
  | .cached => (s, .ok ())
  | .old => (match tlbFind s gate asid a with
    | some e => dropOther s here e false
    | none => s, .ok ())
  | .new => match gateWalk s asid a with
    | (s, .error e) => (s, .error e)
    | (s, .ok e) => (dropOther s here e true, .ok ())

/-! ### The L2 as an access meets it -/

/-- The L2's line for an access (R24, R143, R149 to R151), and whether it bears the requester's own name. A redirected request goes to the
slice that R141 gives for the canonical name. -/
def l2Line (s : State) (v : Via) (va : Nat) (write : Bool) : Acc (Line × Bool) :=
  let asid := v.asid s
  let line := lineOf va
  let slice := sliceOf s v.part v.die asid line
  match l2Find s asid line with
  | some l =>
    if !write || l.w then (s, .ok (l, true))
    else match gateCheck s (slice / 32) asid v.who va with
      | (s, .error e) => (s, .error e)
      | (s, .ok _) => (l2Put s { l with w := true }, .ok ({ l with w := true }, true))
  | none =>
    match translateFor s (slice / 32) asid v.who va write with
    | (s, .error e) => (s, .error e)
    | (s, .ok e) =>
      let (s, ca, cl) := canonical s asid va e
      let own := ca == asid && cl == line
      match l2Find s ca cl with
      | some l => (s, .ok (l, own))
      | none =>
        let (s, l) := l2Fill s v.part (if own then slice else hashSlice ca cl) ca cl (e.phys va) (own && e.w)
        (s, .ok (l, own))

/-! ### A slice and the requests that wait at it (R145) -/

/-- The next partition after `last`, round-robin, among those that qualify. -/
def roundRobin (last : Nat) (ok : Nat → Bool) : Option Nat :=
  ((List.range 32).map fun n => (last + 1 + n) % 32).find? ok

/-- The partition that a slice serves in this cycle (R145), among those for which `pending` holds. -/
def slicePick (s : State) (q : Slice) (pending : Nat → Bool) : Option Nat :=
  match roundRobin q.last fun p => pending p && decide (SMap.get 0 q.used p < bwSlots s p) with
  | some p => some p
  | none => roundRobin q.last fun p => pending p && !bwCap s p

/-- A request of the partition waits in the slice's queue. -/
def Slice.asks (q : Slice) (p : Nat) : Bool := q.queue.any fun f => f.part == p

/-- A line of the L2 also enters the bank of the tile that asked for it at tile scope, unless it bears another name or holds a poisoned
granule (R157, R381). -/
def fillBank (s : State) (f : Fill) (l : Line) : State :=
  match f.tile with
  | some p =>
    if l1Steps (s.tile p) = 0 ∨ !l.named f.asid f.line ∨ l.poison ≠ 0 ∨ (l1Find (s.tile p) f.asid f.line).isSome then s
    else l1Insert s p { l with dirty := 0, scope := .tile, hint := f.hint }
  | none => s

/-- The slice serves a request: a hit answers it, a miss goes to the gate of the slice's die, where it is translated or waits for a
walk. -/
def serveRequest (s : State) (f : Fill) : State :=
  let die := f.slice / 32
  match settleLine s die f.asid f.who (f.line * 128) with
  | (s, .error _) => s
  | (s, .ok _) =>
    match l2Find s f.asid f.line with
    | some l => fillBank s f l
    | none =>
      match (if tablesFor s f.asid f.who (f.line * 128) = .new then none else tlbFind s die f.asid (f.line * 128)) with
      | some e => translated s f e
      | none => { s with walks := SMap.set s.walks die (SMap.get [] s.walks die ++ [f]) }

/-- The gate that a request would wait at performs sixteen walks already, none of them for its page (R148). -/
def gateFull (s : State) (f : Fill) : Bool :=
  let die := f.slice / 32
  (l2Find s f.asid f.line).isNone && (tlbFind s die f.asid (f.line * 128)).isNone && decide (16 ≤ (walkPages s die).length) &&
    !(walkPages s die).contains (f.asid, f.line / 512)

/-- The requests of the partitions that steps 1 and 2 of R145 prefer are served before the access of partition `part` has its own slot;
where it has used a capped allotment, its slot comes in a later window, and with a capped allotment of nothing never. -/
def waitSlot (s : State) (slice part : Nat) : Nat → State
  | 0 => takeSlot s slice part
  | n + 1 =>
    let q := (SMap.get {} s.slices slice).window
    let put (x : Slice) : State := { s with slices := SMap.set s.slices slice x }
    match slicePick s q fun p => q.asks p || p == part with
    | none =>
      if bwSlots s part = 0 then put { q with refused := true } else waitSlot (put { q with used := [], cycle := 0 }) slice part n
    | some p => match q.queue.find? fun f => f.part = p with
      | none => takeSlot s slice part
      | some f =>
        let s := takeSlot (put { q with queue := q.queue.erase f }) slice p
        waitSlot (serveRequest (if gateFull s f then walkRoom s (f.slice / 32) else s) f) slice part n

/-- A request of an access to the L2: it takes a slot of its slice (R145). -/
def l2Access (s : State) (v : Via) (va : Nat) (write : Bool) : Acc (Line × Bool) :=
  let slice := sliceOf s v.part v.die (v.asid s) (lineOf va)
  l2Line (waitSlot s slice v.part (2 * (SMap.get {} s.slices slice).queue.length + 2)) v va write

/-! ### Where an access goes (R140, R157, R158, R170) -/

inductive Route where
  | scratch (off : Nat)
  | bank (place : Nat)
  | l2
deriving DecidableEq, Repr

def isWindow (va : Nat) : Bool := va % 2 ^ 56 / 2 ^ 21 == 2 ^ 35 - 1

/-- Virtual address of an offset of the scratchpad (R140). -/
def scratchVa (off : Nat) : Nat := (2 ^ 35 - 1) * 2 ^ 21 + off

/-- The tile of a bound-mode partition whose window holds an address (R157). -/
def windowTile (s : State) (part va : Nat) : Option Nat :=
  (placesOf s).find? fun p =>
    SMap.find? s.owners p = some part ∧ (s.tile p).windows.any fun w => decide (w.1 ≤ va % 2 ^ 56 ∧ va % 2 ^ 56 < w.1 + w.2)

def routeOf (s : State) (v : Via) (va : Nat) : Route :=
  if isWindow va then .scratch (va % 2 ^ 21)
  else if !v.l1 then .l2
  else if (s.part v.part).bound then
    match windowTile s v.part va with
    | some p => if l1Steps (s.tile p) = 0 then .l2 else .bank p
    | none => .l2
  else if l1Steps (s.tile v.place) = 0 then .l2 else .bank v.place

/-- Slot memory of an engine whose rotation is armed, on the tile of island 2e (R244): first and last byte plus one. -/
def slotArea (p : List W32) : Nat × Nat :=
  let lo := ((p.getD 3 0).extractLsb' 0 14).toNat * 128
  (lo, lo + (((p.getD 0 0).extractLsb' 20 3).toNat + 1) * 65536)

/-- Perimeter tile of matrix island `i` of a die (R15). -/
def islandTile (i : Nat) : Nat :=
  if i < 12 then i
  else if i < 22 then (i - 11) * 12 + 11
  else if i < 34 then 143 - (i - 22)
  else (10 - (i - 34)) * 12

/-- The island of a perimeter tile, and whether it is the odd one of its pair (R15, R16). -/
def islandRef (p : Nat) : Nat := ((List.range 44).find? fun i => islandTile i = p % 256).getD 0
def oddIsland (p : Nat) : Bool := islandRef p % 2 == 1

/-- The rotation of the engine on a tile is armed and the offset lies in its slot memory. -/
def inArmedSlot (s : State) (place off : Nat) : Bool :=
  (List.range 22).any fun j =>
    islandTile (2 * j) == place % 256 && (s.engine (place / 256 * 32 + j)).rot.isSome &&
      decide ((slotArea (s.island place).p).1 ≤ off ∧ off < (slotArea (s.island place).p).2)

def scratchOk (s : State) (place off : Nat) : Bool :=
  decide (off < scratchSize (s.tile place) ∧ place % 256 < 144) && !inArmedSlot s place off

/-! ### Reading and writing one granule of 8 bytes -/

/-- What a granule holds: its bytes, and whether it is poisoned. -/
abbrev Granule := List Byte × Bool

def Line.granule (l : Line) (g : Nat) : Granule := ((l.data.drop (8 * g)).take 8, l.poison.getLsbD g)

/-! ### What comes before an access of one granule -/

/-- Before an access at the owning slice, the bank that could hold the line gives up its copy (R164, R182). -/
def giveUp (s : State) (v : Via) (va : Nat) : State :=
  if v.atSlice then
    match routeOf s { v with l1 := true } va with
    | .bank p => l1Flush s p fun l => l.named (v.asid s) (lineOf va)
    | _ => s
  else s

/-- What comes before an access of one granule. -/
def beforeAccess (s : State) (v : Via) (va : Nat) : Acc Unit :=
  let s := giveUp s v va
  if isWindow va then (s, .ok ()) else settleLine s (sliceOf s v.part v.die (v.asid s) (lineOf va) / 32) (v.asid s) v.who va

/-- The line of a bank for an access, filled from the L2 on a miss; none when the line is not the requester's own. -/
def bankLine (s : State) (v : Via) (place va : Nat) : Acc (Line × Bool) :=
  match l1Find (s.tile place) (v.asid s) (lineOf va) with
  | some l => (s, .ok (l, true))
  | none =>
    match l2Access s v va false with
    | (s, .error e) => (s, .error e)
    | (s, .ok (l, false)) => (s, .ok (l, false))
    | (s, .ok (l, true)) =>
      let x : Line := { l with dirty := 0, scope := v.scope }
      (l1Insert s place x, .ok (x, true))

/-- Bound mode keeps every store in its bank; scoped mode keeps a store at tile scope only (R157, R158). -/
def staysInBank (s : State) (v : Via) : Bool := (s.part v.part).bound || v.scope == .tile

/-- Reads the granule that holds an address. -/
def loadGranule (s : State) (v : Via) (va : Nat) : Acc Granule :=
  let g := va % 128 / 8
  match beforeAccess s v va with
  | (s, .error e) => (s, .error e)
  | (s, .ok _) =>
  match routeOf s v va with
  | .scratch off =>
    if scratchOk s v.place off then
      let t := s.tile v.place
      (s, .ok (t.scratch.bytes (off / 8 * 8) 8, t.poison.contains (off / 8)))
    else (s, .error (faultProtection va))
  | .l2 =>
    match l2Access s v va false with
    | (s, .error e) => (s, .error e)
    | (s, .ok (l, _)) => (s, .ok (l.granule g))
  | .bank p =>
    match bankLine s v p va with
    | (s, .error e) => (s, .error e)
    | (s, .ok (l, _)) => (s, .ok (l.granule g))

/-- The check of a write without the write (R404): translation and permission (R149, R150), the scratchpad's size, slot memory. A store
that goes on to the L2 is checked there as well. -/
def checkWrite (s : State) (v : Via) (va : Nat) : Acc Unit :=
  let viaL2 (s : State) : Acc Unit := match l2Line s v va true with
    | (s, .error e) => (s, .error e)
    | (s, .ok _) => (s, .ok ())
  match beforeAccess s v va with
  | (s, .error e) => (s, .error e)
  | (s, .ok _) =>
  match routeOf s v va with
  | .scratch off => if scratchOk s v.place off then (s, .ok ()) else (s, .error (faultProtection va))
  | .l2 => viaL2 s
  | .bank p =>
    match l1Find (s.tile p) (v.asid s) (lineOf va) with
    | some l =>
      if l.w then (if staysInBank s v then (s, .ok ()) else viaL2 s)
      else match gateCheck s (sliceOf s v.part v.die (v.asid s) (lineOf va) / 32) (v.asid s) v.who va with
        | (s, .error e) => (s, .error e)
        | (s, .ok _) => match viaL2 s with
          | (s, .ok _) => (l1Put s p { l with w := true }, .ok ())
          | r => r
    | none => viaL2 s

/-- The bytes of a granule as a line's bytes and mask. -/
def granuleBytes (g : Nat) (bs : List (Option Byte)) : List Byte × BitVec 128 :=
  (List.replicate (8 * g) 0 ++ bs.map (·.getD 0) ++ List.replicate (120 - 8 * g) 0,
    (bs.zipIdx).foldl (fun m e => if e.1.isSome then m ||| BitVec.twoPow 128 (8 * g + e.2) else m) 0)

/-- Merges bytes into a line of the L2; answers whether the granule kept its poison (R161). -/
def l2Store (s : State) (l : Line) (g : Nat) (bs : List (Option Byte)) : State × Bool :=
  let (d, m) := granuleBytes g bs
  let x := l.merge d 0 m (l.dirty ||| m)
  (l2Put s x, m != 0 && x.poison.getLsbD g)

/-- Merges bytes into a granule of the scratchpad (R140, R159, R161). -/
def scratchStore (s : State) (place off : Nat) (bs : List (Option Byte)) : State × Bool :=
  let t := s.tile place
  let b := off / 8 * 8
  let keep := t.poison.contains (off / 8) && bs.any Option.isNone
  let poison := if bs.all Option.isSome then t.poison.filter (· != off / 8) else t.poison
  (s.setTile place { t with scratch := t.scratch.writeBytes b bs, poison := poison }, keep && bs.any Option.isSome)

/-- Writes bytes of one granule; answers whether the granule kept its poison (R157 to R161). -/
def storeGranule (s : State) (v : Via) (va : Nat) (bs : List (Option Byte)) : Acc Bool :=
  let g := va % 128 / 8
  let ok (r : State × Bool) : Acc Bool := (r.1, .ok r.2)
  let direct (s : State) : Acc Bool := match l2Access s v va true with
    | (s, .error e) => (s, .error e)
    | (s, .ok (l, _)) => ok (l2Store s l g bs)
  match beforeAccess s v va with
  | (s, .error e) => (s, .error e)
  | (s, .ok _) =>
  match routeOf s v va with
  | .scratch off => if scratchOk s v.place off then ok (scratchStore s v.place off bs) else (s, .error (faultProtection va))
  | .l2 => direct s
  | .bank p =>
    match checkWrite s v va with
    | (s, .error e) => (s, .error e)
    | (s, .ok _) =>
      match bankLine s v p va with
      | (s, .error e) => (s, .error e)
      | (s, .ok (_, false)) => direct s
      | (s, .ok (x, true)) =>
        let (d, m) := granuleBytes g bs
        if staysInBank s v then
          let y := { x.merge d 0 m (x.dirty ||| m) with scope := .tile, w := true }
          (l1Put s p y, .ok (m != 0 && y.poison.getLsbD g))
        else
          let s := l1Put s p { x with w := true }
          match direct s with
          | (s, .error e) => (s, .error e)
          | (s, .ok kept) =>
            let y := x.merge d (if kept then BitVec.twoPow 16 g else 0) m (x.dirty &&& ~~~m)
            let y := { y with w := true, scope := if y.dirty = 0 then v.scope else y.scope }
            (l1Put s p y, .ok (kept || (m != 0 && y.poison.getLsbD g)))

/-! ### Words and runs of bytes -/

/-- Reads a 4-byte word; POISON carries the granule's address (R160). -/
def loadWord (s : State) (v : Via) (va : Nat) : Acc W32 :=
  match loadGranule s v va with
  | (s, .error e) => (s, .error e)
  | (s, .ok (b, true)) => (s, .error (faultPoison (if b.isEmpty then va else va / 8 * 8)))
  | (s, .ok (b, false)) => (s, .ok (BitVec.ofNat 32 (leNat ((b.drop (va % 8)).take 4))))

/-- The bytes of a word at its place in its granule. -/
def wordInGranule (va : Nat) (w : W32) : List (Option Byte) :=
  List.replicate (va % 8) none ++ (natBytes 4 w.toNat).map some ++ List.replicate (4 - va % 8) none

def storeWord (s : State) (v : Via) (va : Nat) (w : W32) : Acc Bool := storeGranule s v va (wordInGranule va w)

/-- Reads `n` words from an address that is a multiple of 4. -/
def loadWords (s : State) (v : Via) (va : Nat) : Nat → Acc (List W32)
  | 0 => (s, .ok [])
  | n + 1 => match loadWord s v va with
    | (s, .error e) => (s, .error e)
    | (s, .ok w) => match loadWords s v (va + 4) n with
      | (s, .error e) => (s, .error e)
      | (s, .ok l) => (s, .ok (w :: l))

/-- The bytes of a run that lie in the granule at `g`. -/
def granulePart (va : Nat) (bs : List Byte) (g : Nat) : List (Option Byte) :=
  (List.range 8).map fun i => if va ≤ g + i then bs[g + i - va]? else none

/-- Writes a run of bytes from an address, granule by granule from the one at `g` up. -/
def storeFrom (s : State) (v : Via) (va : Nat) (bs : List Byte) (g : Nat) : Nat → Acc Unit
  | 0 => (s, .ok ())
  | n + 1 => match storeGranule s v g (granulePart va bs g) with
    | (s, .error e) => (s, .error e)
    | (s, .ok _) => storeFrom s v va bs (g + 8) n

def storeBytes (s : State) (v : Via) (va : Nat) (bs : List Byte) : Acc Unit :=
  if bs.isEmpty then (s, .ok ())
  else storeFrom s v va bs (va / 8 * 8) ((va + bs.length - 1) / 8 - va / 8 + 1)

def wordsBytes (l : List W32) : List Byte := l.flatMap fun w => natBytes 4 w.toNat

/-! ### Releases, acquires and fences (R157, R158, R176, R178) -/

/-- The banks that an access of a partition may have filled: its own tile's, or in bound mode those of the partition. -/
def banksOf (s : State) (v : Via) : List Nat :=
  if (s.part v.part).bound then (placesOf s).filter fun p => decide (SMap.find? s.owners p = some v.part) else [v.place]

def writeBackBanks (s : State) (v : Via) (p : Line → Bool) : State :=
  (banksOf s v).foldl (fun s q => l1WriteBackAll s q p) s

/-- Release at a scope: dirty lines recorded narrower are written back; in bound mode, every dirty line from package scope up. -/
def releaseAt (s : State) (v : Via) (scope : Scope) : State :=
  if (s.part v.part).bound then (if 2 ≤ scope.code.toNat then writeBackBanks s v fun _ => true else s)
  else writeBackBanks s v fun l => decide (l.scope.code.toNat < scope.code.toNat)

def invalidateBanks (s : State) (v : Via) : State := (banksOf s v).foldl l1InvalidateClean s

/-- Acquire: the clean lines go (R158, R178). R158 says so from die scope up; at tile scope they go as well, since every read behind an
acquire or a BAR on its tile is synchronised (R181), whatever its scope (DEDUCED, log 64). -/
def acquireAt (s : State) (v : Via) : State := invalidateBanks s v

/-- Steps 1 and 2 of an XFEN (R176). -/
def fence (s : State) (v : Via) (before after : BitVec 6) (scope : Scope) : State :=
  let far (m : BitVec 6) : Bool := m.extractLsb' 2 4 != 0
  let s := if (s.part v.part).bound then (if far before || far after then writeBackBanks s v fun _ => true else s)
    else if far after then writeBackBanks s v fun _ => true
    else releaseAt s v scope
  if scope ≠ .tile || far before then invalidateBanks s v else s

end Sys2Proof.Machine
end

