-- ==== Sys2Proof/Machine/Slots.lean ====
section
/-! DEFINITION. Receive slots and grants of the carillon (R249, R250), and the step count of a rotation. -/
namespace Sys2Proof.Machine
open Sys2Proof

/-- Engine `e` of a die. -/
def engineId (die e : Nat) : Nat := die * 32 + e

def ringReg (s : State) (die : Nat) : W64 := SMap.get 0 s.ringNext die
def ringEn (w : W64) : Bool := w.getLsbD 63
def ringIdx (w : W64) : Nat := (w.extractLsb' 53 10).toNat
def ringCount (w : W64) : Nat := (w.extractLsb' 43 10).toNat + 1

/-- Die of the successor, if it lies in this package (R242). -/
def successor (s : State) (die : Nat) : Option Nat :=
  let w := ringReg s die
  if w.extractLsb' 35 8 = s.package then some (w.extractLsb' 33 2).toNat else none

/-- Die of the predecessor, if it lies in this package (R242). -/
def predecessor (s : State) (die : Nat) : Option Nat :=
  let w := ringReg s die
  if w.extractLsb' 21 8 = s.package then some (w.extractLsb' 19 2).toNat else none

/-- A grant of slot `k` leaves on VC1 for the predecessor (R249). -/
def sendGrant (s : State) (die e k : Nat) : State :=
  match predecessor s die with
  | some p =>
    let g := s.engine (engineId p e)
    s.setEngine (engineId p e) { g with grants := g.grants ++ [k] }
  | none => s

def slotFree (x : RingSlot) : Bool := !x.granted && x.header.isNone

/-- SLOT_FREE (R249): the slot is freed; a recurring grant is sent again unless the block was the rotation's last (R296). -/
def freeSlot (s : State) (die e k : Nat) (last : Bool) : State :=
  let g := s.engine (engineId die e)
  let x := g.slots.getD k {}
  let again := x.recurring && !last
  let s := s.setEngine (engineId die e) { g with slots := g.slots.set k { granted := again, recurring := again } }
  if again then sendGrant s die e k else s

/-- The next step of a rotation, or the emission after its last one (R250). -/
def Rotation.advance (r : Rotation) : Rotation :=
  if r.step + 1 < r.steps then { r with step := r.step + 1, own := [], applied := 0, sent := 0, slot := none }
  else { r with emitting := true }

/-! ### Block headers (R246) -/

def headerFirst (h : W64) : W32 := h.extractLsb' 32 32
def headerEmp (h : W64) : Bool := h.getLsbD 4
def headerRows (h : W64) : Nat := if headerEmp h then 0 else (h.extractLsb' 25 7).toNat + 1
def headerOrigin (h : W64) : Nat := (h.extractLsb' 15 10).toNat
def headerStep (h : W64) : Nat := (h.extractLsb' 5 10).toNat
def headerOk (h : W64) : Bool := h.extractLsb' 0 4 == 0 && !(headerEmp h && h.extractLsb' 25 7 != 0)

/-- Header of a block of `n` rows; a block with no row has emp 1. -/
def makeHeader (first : W32) (n origin step : Nat) : W64 :=
  first ++ BitVec.ofNat 7 (n - 1) ++ BitVec.ofNat 10 origin ++ BitVec.ofNat 10 step ++ BitVec.ofBool (n == 0) ++ (0 : BitVec 4)

/-! ### The blocks of a rotation -/

/-- Slot `j` holds the block that the rotation takes at its step: the first of that step to come (R250, R391). -/
def holdsStep (g : Engine) (r : Rotation) (j : Nat) : Bool :=
  let x := g.slots.getD j {}
  !x.doubled && x.header.any fun h => headerStep h == r.step

/-- The block of a slot breaks R246 or R250 for the rotation: it is of no step to come, its step has its block, or its step has come
and its header or its origin is wrong (R251). -/
def breaksRotation (n m : Nat) (r : Rotation) (x : RingSlot) (h : W64) : Bool :=
  x.doubled || decide (headerStep h = 0 ∨ headerStep h < r.step ∨ r.steps ≤ headerStep h) ||
    (headerStep h == r.step && (!headerOk h || headerOrigin h != (m + n - r.step % n) % n))

/-- The slot of the offending block that the engine reports next, and its header. -/
def badSlot (s : State) (die e : Nat) (r : Rotation) : Option (Nat × W64) :=
  let g := s.engine (engineId die e)
  let w := ringReg s die
  (List.range 8).findSome? fun k =>
    let x := g.slots.getD k {}
    x.header.bind fun h => if breaksRotation (ringCount w) (ringIdx w) r x h then some (k, h) else none

/-- Discarding the block of slot `k` makes the rotation's step count as applied, unless that step has another block (R251, DEDUCED,
log 66). -/
def countsStep (g : Engine) (r : Rotation) (k : Nat) : Bool :=
  decide (0 < r.step) && !(g.slots.getD k {}).doubled && !(List.range 8).any fun j => j != k && holdsStep g r j

/-- An item of a block leaves for slot `k` of the successor (R246, R250). -/
def sendItem (s : State) (die e k : Nat) (x : RingItem) : State :=
  match successor s die with
  | some q =>
    let g := s.engine (engineId q e)
    s.setEngine (engineId q e) { g with arriving := g.arriving ++ [(k, x)] }
  | none => s

/-- The offending block of slot `k` is discarded, and its step counts as applied (R251, retry and skip of reason 5); a block that has
begun to be sent on is closed (R392). -/
def discardBlock (s : State) (die e k : Nat) : State :=
  let g := s.engine (engineId die e)
  match g.rot with
  | none => freeSlot s die e k false
  | some r =>
    if !countsStep g r k then freeSlot s die e k false else
    let s := match r.slot with
      | some t => sendItem s die e t .close
      | none => s
    let g := s.engine (engineId die e)
    let s := s.setEngine (engineId die e) { g with rot := some r.advance }
    freeSlot s die e k (decide (r.steps ≤ r.step + 1))

def slotFor (l : List (Nat × RingItem)) (k : Nat) : Bool := l.any fun x => x.1 == k && (match x.2 with | .header _ => true | _ => false)

/-- The slots whose grants no block has used, nor is on its way to use. -/
def unusedSlots (g : Engine) : List Nat := (List.range 8).filter fun k => (g.slots.getD k {}).granted && !slotFor g.arriving k

/-- The predecessor's grants of these slots are withdrawn (R249). -/
def withdrawGrants (s : State) (die e : Nat) (ks : List Nat) : State :=
  match predecessor s die with
  | some p =>
    let g := s.engine (engineId p e)
    s.setEngine (engineId p e) { g with held := g.held.filter (!ks.contains ·), grants := g.grants.filter (!ks.contains ·) }
  | none => s

/-- A rotation ends on this member (R249, R251, R295): its unused grants are withdrawn, its requests to a chain dropped. -/
def endRotation (s : State) (die e : Nat) : State :=
  let g := s.engine (engineId die e)
  let ks := unusedSlots g
  let s := s.setEngine (engineId die e) { g with
    rot := none
    slots := g.slots.zipIdx.map fun x => if ks.contains x.2 then {} else x.1 }
  let s := s.mapTiles fun p t => if p / 256 = die then { t with chain := t.chain.filter fun c => c.1 ≠ e } else t
  withdrawGrants s die e ks

end Sys2Proof.Machine
end

