-- ==== Sys2Proof/Machine/Ops.lean ====
section
/-! DEFINITION. The named operations over the state of a tile: frames and their storage (R88 to R93), delivery (R87, R106),
firing (R88, R97), the output buffer (R103), commit (R101), and taking, delivering and answering a fault (R226 to R232). -/
namespace Sys2Proof.Machine
open Sys2Proof

/-! ### Frames (R88 to R93) -/

namespace Ctx

def find (c : Ctx) (num : Nat) : Option Frame := c.frames.find? fun f => f.num = num
def update (c : Ctx) (num : Nat) (g : Frame → Frame) : Ctx :=
  { c with frames := c.frames.map fun f => if f.num = num then g f else f }
def liveFrames (c : Ctx) : List Frame := c.frames.filter fun f => f.num < c.ahead
def live (c : Ctx) : Nat := c.liveFrames.length
/-- Live frames of a depth class; depths 5 and above form one class (R93). -/
def liveAt (c : Ctx) (d : Nat) : Nat := (c.liveFrames.filter fun f => min f.depth 5 = d).length
def cost (c : Ctx) : Nat := Image.cost c.image
def carries (c : Ctx) : Bool := Image.hasNext c.image
def carryCount (c : Ctx) : Nat := if c.carries then 1 else 0
def cap (c : Ctx) : Nat := (c.floor.extractLsb' 52 12).toNat
def fd (c : Ctx) (d : Nat) : Nat := (c.floor.extractLsb' (8 * d) 8).toNat
/-- The floor L (R92). -/
def floorSum (c : Ctx) : Nat := ((List.range 6).map c.fd).sum + c.carryCount
/-- Slot words that the context occupies on every element (R89, R91). -/
def occupied (c : Ctx) : Nat := if c.active then c.frames.length * c.cost else 0
/-- What the context's floor reserves against the other contexts (R93). -/
def reserve (c : Ctx) : Nat := if c.active then (c.floorSum - c.live) * c.cost else 0
/-- The frame number that records and targets carry (R90). -/
def number (num : Nat) : BitVec 12 := BitVec.ofNat 12 num

end Ctx

/-- Slot words of the pool that nothing occupies (R88, R93). -/
def freeWords (s : State) (place : Nat) : Nat :=
  16384 - ((List.range 8).map fun c => (s.ctx (place * 8 + c)).occupied).sum

/-- free − others − inner of R93, at depth class d. -/
def room (s : State) (place c d : Nat) : Int :=
  let x := s.ctx (place * 8 + c)
  let others := ((List.range 8).map fun q => if q = c then 0 else (s.ctx (place * 8 + q)).reserve).sum
  let inner := ((List.range 6).map fun e => if e = d then 0 else (x.fd e - x.liveAt e) * x.cost).sum
  (freeWords s place : Int) - others - inner

/-- No stop stands that keeps the context from allocating (R76, R227, R434). -/
def Stop.holdsContext (x : Stop) : Bool :=
  match x.site with
  | .unit _ | .snapshot => false
  | _ => true

/-- R93, with R76, R234, R349: the context may allocate one frame at a nesting depth. -/
def mayAllocate (s : State) (place c depth : Nat) : Bool :=
  let x := s.ctx (place * 8 + c)
  let need := if x.carries && x.frames.isEmpty then 2 * x.cost else x.cost
  x.active && !x.killed && !x.frozen && x.halting.isNone && !(x.stops.any Stop.holdsContext) &&
    decide (x.live + x.carryCount < x.cap) && decide ((need : Int) ≤ room s place c (min depth 5))

/-- Channels bound to a context remember a new frame that is eligible for a lane (R95). -/
def noteBound (s : State) (place c num : Nat) (word : Option Nat) : Nat → State
  | 0 => s
  | n + 1 =>
    let s := noteBound s place c num word n
    let ic := s.inc (place * 64 + n)
    match ic.sink with
    | .bound q _ _ w =>
      if q = c ∧ (w = none ∨ w = word) then s.setInc (place * 64 + n) { ic with await := ic.await ++ [num] } else s
    | _ => s

/-- Allocates the frame at the allocation head (R90, R91); `fr` gives its depth, word and ordinals. -/
def allocate (s : State) (place c : Nat) (fr : Frame) : State :=
  let i := place * 8 + c
  let x := s.ctx i
  let f := x.ahead
  let body (old : Frame) : Frame :=
    { old with depth := fr.depth, word := fr.word, o1 := fr.o1, o2 := fr.o2, o3 := fr.o3, o4 := fr.o4 }
  let fs := if (x.find f).isSome then x.frames.map fun g => if g.num = f then body g else g
    else x.frames ++ [body { num := f }]
  let fs := if x.carries then fs ++ [{ num := f + 1 }] else fs
  noteBound (s.setCtx i { x with frames := fs, ahead := f + 1 }) place c f fr.word 64

/-! ### Raising a fault (R7, R227, R228) -/

/-- Fault codes (R226). -/
def codeIllegal : BitVec 8 := 0x01
def codeGrammar : BitVec 8 := 0x02
def codeTags : BitVec 8 := 0x03
def codeDuplicate : BitVec 8 := 0x04
def codeTranslation : BitVec 8 := 0x05
def codeProtection : BitVec 8 := 0x06
def codeAlign : BitVec 8 := 0x07
def codePoison : BitVec 8 := 0x08
def codePromise : BitVec 8 := 0x09
def codeRingslot : BitVec 8 := 0x0A
def codeWatchdog : BitVec 8 := 0x0B
def codeSoftware : BitVec 8 := 0x0C
def codeBreak : BitVec 8 := 0x0D
def codeFptrap : BitVec 8 := 0x0E
def codeLantern : BitVec 8 := 0x0F

/-- The eight words of a record (R228). -/
def Record.words (r : Record) : List W64 :=
  [r.code ++ r.source ++ r.ctx ++ r.frame ++ r.index ++ r.part ++ (0 : BitVec 8), r.time, r.aux, r.detail, r.snap, 0, 0, 0]

/-- A word of a record: what a rule gives, or a free value where none does (log 7). -/
def openWord (s : State) : Option W64 → State × W64
  | some w => (s, w)
  | none => ({ s with draws := s.draws + 1 }, Config.freeWide s.draws)

/-- Takes a fault: the record of context `id` stands as a stop of it until it is answered (R76, R227, R228). `aux` and
`detail` are what the fault's rule gives for them. -/
def takeFault (s : State) (id : Nat) (code : BitVec 8) (source : BitVec 16) (frame index : Nat) (aux detail : Option W64)
    (site : StopSite) (base : Option Nat) : State :=
  let (s, aux) := openWord s aux
  let (s, detail) := openWord s detail
  let x := s.ctx id
  let r : Record := {
    code := code, source := source, ctx := BitVec.ofNat 3 (id % 8), frame := Ctx.number frame,
    index := BitVec.ofNat 12 index, part := BitVec.ofNat 5 x.part, time := s.time (id / 2048), aux := aux,
    detail := detail, snap := 0 }
  s.setCtx id { x with stops := x.stops ++ [{ record := r, site := site, base := base }] }

/-- The firing in focus stops at a fault whose record names `site` (R7, R227): its base frame is marked. -/
def faultAt (s : State) (code : BitVec 8) (aux detail : Option W64) (site : StopSite) : State :=
  let f := s.focus
  let c := s.here
  let s := s.setHere { c with resumes := c.resumes.filter fun x => !(x.1 = f.ins ∧ x.2.1 = f.frame) }
  takeFault s f.ctxId code (sourceAt f.place (f.ins % 16)) f.frame f.ins aux detail site (some f.frame)

/-- A firing reaches Fault(code) (R7, R227); a retry goes on where `resume` says. -/
def faultFiring (s : State) (code : BitVec 8) (aux detail : Option W64) (resume : Resume) : State :=
  let f := s.focus
  faultAt s code aux detail (.firing f.ins f.frame f.k resume)

/-- Where the firing in focus goes on: after the lanes already performed, or at its start. -/
def resumeHere (s : State) : Resume :=
  let f := s.focus
  match s.here.resumes.find? fun x => x.1 = f.ins ∧ x.2.1 = f.frame with
  | some x => x.2.2.2
  | none => {}

/-! ### Delivery (R87, R88, R97, R101, R106) -/

/-- A duplicate lane: its frame, its value and the value already there. -/
abbrev Dup := Option (Nat × Lane × Lane)

def satAdd (a : W32) (n : Nat) : W32 := if 2 ^ 32 ≤ a.toNat + n then 0xFFFFFFFF else a + BitVec.ofNat 32 n

/-- One lane into one port of one frame. -/
def putLane (c : Ctx) (num ins : Nat) (p : Port) (l : Lane) (start : Bool) (fmt : BitVec 4) (key : BitVec 12) (fin : BitVec 4) :
    Ctx × Dup :=
  match c.find num with
  | none => ({ c with late := satAdd c.late 1 }, none)
  | some fr =>
    let old := fr.slots.find? fun x => x.ins = ins ∧ x.port = p
    if fr.fired.getLsbD ins ∨ old.isSome then
      let held : Lane := match old with
        | some x => if p = .w then some 0 else x.lane
        | none => some 0
      (c.update num fun g => { g with poisoned := true }, some (num, l, held))
    else (c.update num fun g => { g with slots := g.slots ++ [⟨ins, p, l, start, fmt, key, fin⟩] }, none)

/-- A run from frame `num` on; the oldest duplicate is kept. -/
def putRun (c : Ctx) (num ins : Nat) (p : Port) (fmt : BitVec 4) (key : BitVec 12) (count : BitVec 4) (start : Bool) :
    List Lane → Ctx × Dup
  | [] => (c, none)
  | l :: t =>
    let (c, d) := putLane c num ins p l start fmt key (if t.isEmpty then count else 0)
    let (c, d') := putRun c (num + 1) ins p fmt key count false t
    (c, match d with | some x => some x | none => d')

/-- DUPLICATE for the oldest poisoned frame of a run (R106). -/
def raiseDup (s : State) (id ins : Nat) (hdr : W64) : Dup → State
  | none => s
  | some (num, l, held) =>
    takeFault s id codeDuplicate (sourceAt (id / 8) (ins % 16)) num ins (some hdr) (some (l.getD 0 ++ held.getD 0)) .duplicate
      (some num)

/-- Delivers a run to a port of context `id` (R87, R106); `fmt` is the format word of the run. A run whose every lane is empty is an
EMPTY token: format 0 and count 0 (R31, R98). The header that a duplicate's record carries names its port by a target of kind 00 and
the receiving frame, for a lane to the next frame as well (DESIGN CHOICE, log 46). -/
def deliverRun (s : State) (id num : Nat) (ins : BitVec 7) (p : Port) (fmt : BitVec 4) (key : BitVec 12) (count : BitVec 4)
    (l : List Lane) : State :=
  let empty := l.all Option.isNone
  let fmt := if empty then 0 else fmt
  let count := if empty then 0 else count
  let r := putRun (s.ctx id) num ins.toNat p fmt key count true l
  let hdr := (Token.make (BitVec.ofNat 3 (id % 8)) (Ctx.number num) fmt key count l).header 0 (Target.same ins p).bits
  raiseDup (s.setCtx id r.1) id ins.toNat hdr r.2

/-! ### Operands and results of a firing (R97, R98) -/

def slotAt (fr : Frame) (ins : Nat) (p : Port) : Option Slot := fr.slots.find? fun x => x.ins = ins ∧ x.port = p

def slotIn (c : Ctx) (num ins : Nat) (p : Port) : Option Slot := (c.find num).bind fun fr => slotAt fr ins p

/-- The lanes of a port over frames num .. num + k − 1; a frame that holds none gives an empty lane (R357). -/
def portLanes (c : Ctx) (num k ins : Nat) (p : Port) : List Lane :=
  (List.range k).map fun j => (slotIn c (num + j) ins p).bind Slot.lane

def portKey (c : Ctx) (num ins : Nat) (p : Port) : BitVec 12 := ((slotIn c num ins p).map Slot.key).getD 0
def portFmt (c : Ctx) (num ins : Nat) (p : Port) : BitVec 4 := ((slotIn c num ins p).map Slot.fmt).getD 0
def portCount (c : Ctx) (num k ins : Nat) (p : Port) : BitVec 4 := ((slotIn c (num + k - 1) ins p).map Slot.fin).getD 0

def tagOf (c : Ctx) (num : Nat) : FrameTag :=
  match c.find num with
  | some f => ⟨f.o1, f.o2, f.o3, f.o4, num % 4096, f.depth⟩
  | none => ⟨0, 0, 0, 0, num % 4096, 0⟩

/-- The rounding mode that dyn selects (R53). -/
def dynMode (fpmode : W32) : Rnd := (Rnd.ofCode (fpmode.extractLsb' 0 3)).getD .rne

/-- Generator of element or CONVERT unit `u` at a place (R49). -/
def genOf (s : State) (place u : Nat) : W32 :=
  SMap.get (genReset (sourceAt place u).toNat) (s.tile place).gens u

def setGen (s : State) (place u : Nat) (g : W32) : State :=
  let t := s.tile place
  s.setTile place { t with gens := SMap.set t.gens u g }

/-- The operands of the firing in focus. -/
def operands (s : State) : Opnds :=
  let f := s.focus
  let c := s.here
  let ps := Image.slotPorts c.image f.ins
  let opt (p : Port) : List Lane := if ps.contains p then portLanes c f.frame f.k f.ins p else []
  let b := if Image.omitted c.image f.ins then List.replicate f.k (some (Image.immOf c.image f.ins)) else opt .b
  { k := f.k
    a := portLanes c f.frame f.k f.ins .a
    b := b
    c := opt .c
    fin := (List.range f.k).map fun j => (((slotIn c (f.frame + j) f.ins .a).map Slot.fin).getD 0).toNat
    key := portKey c f.frame f.ins .a
    count := portCount c f.frame f.k f.ins .a
    keyB := portKey c f.frame f.ins .b
    countB := portCount c f.frame f.k f.ins .b
    gen := genOf s f.place (f.ins % 16)
    mode := dynMode c.fpmode
    tags := (List.range f.k).map fun j => tagOf c (f.frame + j)
    consts := Image.consts c.image }

/-- Clears the operands of the firing's instruction and sets its fired bits (R88). -/
def markFired (c : Ctx) (ins num k : Nat) : Ctx :=
  { c with
    frames := c.frames.map fun fr =>
      if num ≤ fr.num ∧ fr.num < num + k ∧ fr.num < c.ahead then
        { fr with slots := fr.slots.filter (fun x => x.ins ≠ ins), fired := fr.fired ||| BitVec.twoPow 128 ins }
      else fr
    firings := c.firings + 1
    inflight := c.inflight.filter fun x => !(x.ins = ins ∧ x.frame = num)
    resumes := c.resumes.filter fun x => !(x.1 = ins ∧ x.2.1 = num)
    ages := c.ages.filter fun x => !(x.1 = ins ∧ x.2.1 = num) }

/-- Frames of a firing that exist (R357). -/
def existing (c : Ctx) (num k : Nat) : Nat := min k (c.ahead - num)

def outLess (x y : OutEntry) : Bool :=
  decide (x.base < y.base) || (x.base == y.base && (decide (x.ins < y.ins) || (x.ins == y.ins && (!x.tb && y.tb))))

/-- Puts an entry behind every entry that is not after it (R103). -/
def insertOut (e : OutEntry) : List OutEntry → List OutEntry
  | [] => [e]
  | h :: t => if outLess e h then e :: h :: t else h :: insertOut e t

/-- Sends a result run to a target (R87, R103, R357). -/
def sendResult (s : State) (fmt : BitVec 4) (tb : Bool) (r : Run) (t : Target) : State :=
  let f := s.focus
  let c := s.here
  let n := existing c f.frame f.k
  let l := r.lanes.take n
  let count := if n < f.k then 0 else r.count
  let lateBy (s : State) : State :=
    let c := s.here
    s.setHere { c with late := satAdd c.late (f.k - n) }
  match t with
  | .nowhere => s
  | .seq => s.setHere { c with ack := c.ack + BitVec.ofNat 32 (l.filter Option.isSome).length }
  | .same i p => lateBy (deliverRun s f.ctxId f.frame i p fmt r.key count l)
  | .next i p => lateBy (deliverRun s f.ctxId (f.frame + 1) i p fmt r.key count l)
  | .chan ch =>
    let tok := Token.make (BitVec.ofNat 3 f.ctx) (Ctx.number f.frame) fmt r.key count l
    let e : OutEntry := ⟨ch.toNat, f.frame, f.ins + 1, tb, f.frame + n, tok, false⟩
    s.setHere { c with out := insertOut e c.out }

/-- The end of a firing: its operands are consumed, it has fired, and its results go to TA and TB (R88, R199). -/
def finish (s : State) (d : Dst) (fmtA fmtB : BitVec 4) (ta tb : Run) : State :=
  let f := s.focus
  let s := s.setHere (markFired s.here f.ins f.frame f.k)
  sendResult (sendResult s fmtA false ta d.ta) fmtB true tb d.tb

/-- A firing of an instruction whose results are a function of its operands: flags, the trap of R54, and the results. -/
def fireWith (s : State) (d : Dst) (fmtA fmtB : BitVec 4) (res : Opnds → Res) : State :=
  let f := s.focus
  let r := res (operands s)
  let c := s.here
  let s := s.setHere { c with fpflags := raiseFlags c.fpflags r.flags }
  let s := if r.gen = genOf s f.place (f.ins % 16) then s else setGen s f.place (f.ins % 16) r.gen
  if fpTraps c.fpmode r.flags then faultFiring s codeFptrap none (some (r.flags.zeroExtend 64)) {}
  else finish s d fmtA fmtB r.ta r.tb

/-- The format word of n32 lanes. -/
def fmtN32 : BitVec 4 := 3

def inTileTarget : Target → Target
  | .chan _ => .nowhere
  | t => t

def channelTarget : Target → Target
  | .chan c => .chan c
  | _ => .nowhere

/-- Lane `j` of the firing in focus goes by itself to the targets inside the tile, as n32 with the key and count of no operand
(R287, R422). -/
def sendLane (s : State) (d : Dst) (j : Nat) (v : Lane) : State :=
  let f := s.focus
  let s := { s with focus := { f with frame := f.frame + j, k := 1 } }
  { sendResult (sendResult s fmtN32 false ⟨[v], 0, 0⟩ (inTileTarget d.ta)) fmtN32 true ⟨[v], 0, 0⟩ (inTileTarget d.tb) with focus := f }

/-- The end of a firing whose lanes have gone to the targets inside the tile one by one: it has fired, and each channel target gets
its one run (R97, R287). -/
def finishLanes (s : State) (d : Dst) (l : List Lane) : State :=
  finish s ⟨channelTarget d.ta, channelTarget d.tb⟩ fmtN32 fmtN32 ⟨l, 0, 0⟩ ⟨l, 0, 0⟩

/-- The same n32 lanes to TA and TB with the key and count of no operand (R34). -/
def finishN32 (s : State) (d : Dst) (l : List Lane) : State :=
  finish s d fmtN32 fmtN32 ⟨l, 0, 0⟩ ⟨l, 0, 0⟩

/-- A firing goes on without its element: it waits for `w` (R287, R345, R376, R422, R426, R295). -/
def beginWork (s : State) (w : Work) : State :=
  let f := s.focus
  let c := s.here
  if c.inflight.any fun x => x.ins = f.ins ∧ x.frame = f.frame then s
  else s.setHere { c with
    inflight := c.inflight ++ [⟨f.ins, f.frame, f.k, w⟩]
    resumes := c.resumes.filter fun x => !(x.1 = f.ins ∧ x.2.1 = f.frame) }

/-! ### Commit and release (R101, R103, R77) -/

/-- Marks as released, channel by channel, every entry whose frames have committed and whose predecessors are released. -/
def releaseFrom (chead : Nat) : List OutEntry → List Nat → List OutEntry
  | [], _ => []
  | e :: t, blocked =>
    if e.released then e :: releaseFrom chead t blocked
    else if e.need ≤ chead ∧ !blocked.contains e.chan then { e with released := true } :: releaseFrom chead t blocked
    else e :: releaseFrom chead t (e.chan :: blocked)

def Ctx.release (c : Ctx) : Ctx := { c with out := releaseFrom c.chead c.out [] }

/-- The head frame may commit: every instruction of the commit bitmap has fired, it is not poisoned, and no record marks it. -/
def Ctx.canCommit (c : Ctx) : Bool :=
  !c.frozen && !c.killed && decide (c.chead < c.ahead) &&
  (match c.find c.chead with
    | some f =>
      !f.poisoned && f.fired &&& Image.commit c.image == Image.commit c.image &&
        !(c.stops.any fun x => x.base = some c.chead)
    | none => false)

/-- An EOS entry for channel `ch` behind everything already queued (R232, R349). -/
def eosEntry (c : Ctx) (ctx ch : Nat) : OutEntry :=
  ⟨ch, c.ahead, 0, false, 0, .mark (BitVec.ofNat 3 ctx) .eos 0, true⟩

/-- Queues EOS on every output channel of the context: on each for a kill (R232), and under `once` on those that have not released
one (R349). -/
def queueEos (s : State) (id : Nat) (once : Bool) : Nat → State
  | 0 => s
  | n + 1 =>
    let s := queueEos s id once n
    let oc := s.outc (id / 8 * 64 + n)
    let c := s.ctx id
    if oc.src = .context (id % 8) ∧ !(once && (oc.eos || c.out.any fun e => e.chan = n ∧ e.tok.isEos ∧ e.released)) then
      s.setCtx id { c with out := c.out ++ [eosEntry c (id % 8) n] }
    else s

def feedsCtx (sk : Sink) (c : Nat) : Bool :=
  match sk with
  | .lead q | .entry q => q == c
  | .bound q _ _ _ => q == c
  | _ => false

/-- Discards what stands on the context's input channels up to and including EOS. -/
def sinkInputs (s : State) (id : Nat) : Nat → State
  | 0 => s
  | n + 1 =>
    let s := sinkInputs s id n
    let i := id / 8 * 64 + n
    if feedsCtx (s.inc i).sink (id % 8) then sinkTokens s i (s.inc i).queue.length else s

/-- The context accepts once its last frame has committed (R68, CONTEXT_ACCEPT). -/
def Ctx.accept (c : Ctx) : Ctx :=
  if c.seq.closing && c.chead == c.ahead then { c with seq := { c.seq with run := .accepted } } else c

/-- The end of HALT: EOS on the outputs, the inputs to their EOS, and the context counts as accepted (R349). -/
def finishHalt (s : State) (id : Nat) : State :=
  let s := sinkInputs (queueEos s id true 64) id 64
  let c := s.ctx id
  s.setCtx id { c with seq := { c.seq with run := .accepted } }

/-- A resume whose first lane's frame has committed (R101): its other lanes go on. -/
def Resume.tail (r : Resume) : Resume :=
  { r with
    lane := r.lane - 1, ta := r.ta.drop 1, tb := r.tb.drop 1
    times := r.times.filterMap fun x => if x.1 = 0 then none else some (x.1 - 1, x.2)
    at' := if r.lane = 0 then none else r.at' }

/-- What no longer fires once frame `num` has committed (R101): a firing that waits to go on loses the frame, and one all of whose
frames have committed is gone. -/
def Ctx.dropFired (c : Ctx) (num : Nat) : Ctx :=
  { c with
    resumes := c.resumes.filterMap fun x =>
      if x.2.1 = num then (if x.2.2.1 ≤ 1 then none else some (x.1, num + 1, x.2.2.1 - 1, x.2.2.2.tail)) else some x
    inflight := c.inflight.filter fun x => decide (num + 1 < x.frame + x.k)
    ages := c.ages.filter fun x => x.2.1 ≠ num }

/-- Commit of the head frame (R101). -/
def commitFrame (s : State) (id : Nat) : State :=
  let c := s.ctx id
  if c.canCommit then
    let halts := c.halting = some c.chead
    let c := { c with frames := c.frames.filter (fun f => f.num ≠ c.chead), chead := c.chead + 1, commits := c.commits + 1
                      lastCommit := (s.time (id / 2048)).toNat }
    let s := s.setCtx id (c.dropFired (c.chead - 1)).release.accept
    if halts then finishHalt s id else s
  else s

/-! ### Killing a context (R232) -/

def editRunning (s : State) (part id : Nat) (g : Running → Running) : State :=
  let p := s.part part
  s.setPart part { p with running := p.running.map fun r => if r.id = id then g r else r }

/-- The launches started behind a launch of the partition that place a context which that launch still holds. -/
def successors (s : State) (part launch : Nat) : List Nat :=
  ((s.part part).running.filter fun r => decide (launch < r.id) && r.refused.isNone && !r.killed && r.ctxs.any fun id =>
    (s.ctx id).active && (s.ctx id).part == part && (s.ctx id).launch == launch).map (·.id)

/-- Units whose next parameters wait behind their own EOS, for a launch that goes on (R220). -/
def laterUnits (s : State) : List (Nat × Nat) :=
  s.parts.flatMap fun p => p.2.running.flatMap fun r => if r.refused.isNone && !r.killed && !r.preempted then r.later else []

/-- A unit that a splice waits for takes no token behind its own EOS (R220). -/
def markSpliced (s : State) : State :=
  let l := laterUnits s
  (s.mapUnits fun n u => { u with spliced := u.active && l.any fun x => x.1 * 64 + x.2 == n }).mapIslands fun n x =>
    { x with spliced := x.active && l.contains (n, 32) }

/-- The splice buffers of the contexts that a launch holds are discarded, and its successors are refused with st 4 (R221). -/
def refuseSuccessors (s : State) (part launch : Nat) : State :=
  let l := successors s part launch
  if l.isEmpty then s
  else
    let s := l.foldl (fun s id => editRunning s part id fun r => { r with refused := some 4 }) s
    markSpliced (s.mapCtxs fun _ c => if c.part = part ∧ c.launch = launch then { c with splice := none } else c)

/-- The launch that a context belongs to will finish as killed (R232). -/
def markKilled (s : State) (id : Nat) : State :=
  let c := s.ctx id
  refuseSuccessors (editRunning s c.part c.launch fun r => { r with killed := true }) c.part c.launch

/-- An episode holds the arrivals that it needs (R179, R287). -/
def Episode.full (e : Episode) : Bool := decide (e.need ≤ e.arrivals.length + e.far)

/-- The arrivals that `p` picks leave every episode that has not filled; an episode without arrivals is none (R287). -/
def withdrawWhere (s : State) (p : Nat × Nat × Nat × Nat → Bool) : State :=
  { s with episodes := (s.episodes.map fun e =>
      if e.full then e else { e with arrivals := e.arrivals.filter fun a => !p a }).filter fun e =>
        e.full || !e.arrivals.isEmpty || decide (0 < e.far) }

/-- The arrivals of a context leave (R287). -/
def withdrawArrivals (s : State) (id : Nat) : State :=
  withdrawWhere s fun a => a.1 == id

/-- GATH sets and the rotation of a killed context are abandoned (R346, R251). -/
def abandonUnits (s : State) (id : Nat) : State :=
  let p := id / 8
  let x := s.island p
  let s := if x.sets.any fun g => g.ctx = id then
    s.setIsland p { x with sets := x.sets.filter fun g => g.ctx ≠ id
                           rows := x.rows.filter fun r => !(r.gathered && r.ctx.toNat == id % 8) } else s
  (s.engines.filter fun e => match e.2.rot with
      | some r => r.ctx == id
      | none => false).foldl (fun s e => endRotation s (e.1 / 32) (e.1 % 32)) s

/-- The blocks of a context that RSND has begun to send, and that a fault stopped: die, engine and the successor's slot (R392). -/
def openSends (c : Ctx) (id : Nat) : List (Nat × Nat × Nat) :=
  (c.stops.filterMap fun x => match x.site with
    | .send die e k _ _ _ _ => some (die, e, k)
    | _ => none) ++
  c.resumes.filterMap fun x => match Image.instr c.image x.1, x.2.2.2.at' with
    | some (.rsnd _ e _), some n => some (id / 2048, e.toNat, n % 8)
    | _, _ => none

/-- Blocks that RSND had begun to send are closed at once (R392). -/
def closeSends (s : State) (l : List (Nat × Nat × Nat)) : State := l.foldl (fun s x => sendItem s x.1 x.2.1 x.2.2 .close) s

/-- The copies that a context issued or armed for its launch go no further. -/
def abandonCopies (s : State) (id : Nat) : State :=
  let mine (c : Copy) : Bool := c.ctx == id && c.launch == (s.ctx id).launch
  { s with streamers := s.streamers.map fun x => (x.1, { x.2 with
      copies := x.2.copies.map fun c => (c.1, if mine c.2 then { c.2 with dead := true, paused := false } else c.2) }) }

/-- Kills a context (R232). -/
def killContext (s : State) (id : Nat) : State :=
  let c := s.ctx id
  if c.killed || !c.active then s else
  let s := abandonCopies (abandonUnits (withdrawArrivals (markKilled (closeSends s (openSends c id)) id) id) id) id
  let c := s.ctx id
  let c := { c with killed := true, frozen := false, frames := [], chead := c.ahead, out := c.out.filter (·.released), splice := none,
                    stops := [], inflight := [], resumes := [], ages := [], halting := none, answering := none,
                    seq := { c.seq with closing := false, wait := none, entry := none, gwait := none, goal := none } }
  sinkInputs (queueEos (s.setCtx id c) id false 64) id 64

/-- The island serves a MOUT request that waits for its output stage: no row-cycle issues before the request has ended (R366). -/
def islandAsked (s : State) (p : Nat) : Bool :=
  (List.range 8).any fun c => (s.ctx (p * 8 + c)).resumes.any fun x =>
    match Image.instr (s.ctx (p * 8 + c)).image x.1 with
    | some (.mout _ _ _ _) => true
    | _ => false

/-! ### The units that an SBAR names (R395, R396) -/

/-- The units of a tile that an SBAR mask names. -/
def sbarUnits (m : BitVec 5) : List Nat := ([18, 19, 20, 21, 27].zipIdx.filter fun e => m.getLsbD e.2).map (·.1)

/-- The units that instruction `ins` of a context names, if it is an SBAR. -/
def sbarOf (c : Ctx) (ins : Nat) : Option (List Nat) :=
  match Image.instr c.image ins with
  | some (.sbar _ u _) => some (sbarUnits u)
  | _ => none

/-- An access that the unit has issued is not performed yet: a fault stopped it. A kill counts it as performed (R396). -/
def cutWaits (s : State) (place u : Nat) : Bool :=
  let o := s.unit (place * 64 + u)
  o.active && o.halfway && !(s.ctx (place * 8 + o.owner)).killed

/-- A barrier whose cut is not performed yet holds the units that it names (R175, R396), but for the stopped accesses of the cut
themselves. -/
def sbarHolds (s : State) (place u : Nat) : Bool :=
  (List.range 8).any fun c =>
    let x := s.ctx (place * 8 + c)
    x.active && !x.killed && x.resumes.any fun r =>
      ((sbarOf x r.1).getD []).contains u && r.2.2.2.cut.any fun l => !(l.contains u && cutWaits s place u)

/-- An SBAR that waits can go on: its cut is performed, or where it could take none, no unit that it names is frozen. -/
def sbarReady (s : State) (place : Nat) (named : List Nat) : Option (List Nat) → Bool
  | some l => !l.any (cutWaits s place)
  | none => !named.any fun u => (s.unit (place * 64 + u)).frozen

/-! ### Delivering a record (R227, R229, R231, R266) -/

/-- MSI-X vector `v` of function `fn` is signalled. -/
def signal (s : State) (fn v : Nat) : State := { s with msix := s.msix ++ [(fn, v)] }

/-- The keep cores place a record in the report queue, or hold it while the queue is full, and kill its context. -/
def reportRecord (s : State) (part : Nat) (r : Record) (kill : Option Nat) : State :=
  let p := s.part part
  if (p.prod - p.cons).toNat < 64 ∧ p.waiting.isEmpty then
    let s := s.setPart part { p with reports := SMap.set p.reports (p.prod.toNat % 64) r, prod := p.prod + 1 }
    let s := signal s (part + 1) 1
    match kill with
    | some id => killContext s id
    | none => s
  else s.setPart part { p with waiting := p.waiting ++ [(r, kill)] }

/-- The stop that is delivered next: outside a firing at once, in a firing once every older frame has committed, the oldest
frame and then the lowest index first; none while an earlier record waits for its answer (R227, R229). -/
def nextDelivery (c : Ctx) : Option Stop :=
  if c.stops.any Stop.delivered then none
  else
    let ready := c.stops.filter fun x => match x.base with
      | none => true
      | some b => decide (b ≤ c.chead)
    ready.foldl (fun acc x => match acc with
      | none => some x
      | some y =>
        let kx := (x.base.getD 0, x.record.index.toNat)
        let ky := (y.base.getD 0, y.record.index.toNat)
        if kx.1 < ky.1 ∨ (kx.1 = ky.1 ∧ kx.2 < ky.2) then some x else acc) none

def handlerCtx (c : Ctx) : Nat := (c.handler.extractLsb' 28 3).toNat

/-- The record goes to the partition owner (R231). -/
def toOwner (s : State) (id : Nat) (r : Record) : Bool :=
  let c := s.ctx id
  let h := s.ctx (id / 8 * 8 + handlerCtx c)
  !c.handler.getLsbD 31 || Image.th c.image || r.code == codeWatchdog || !h.active || h.killed || !Image.th h.image

def setDelivered (c : Ctx) (x : Stop) : Ctx :=
  { c with stops := c.stops.map fun y => if y = x then { y with delivered := true } else y }

/-- The lanes of h15 that hold a record (R229). -/
def recordLanes (r : Record) : List Lane :=
  (r.words.flatMap fun w => [some (w.extractLsb' 0 32), some (w.extractLsb' 32 32)]) ++ List.replicate 16 (some 0)

/-- Delivery to the handler context: h15, one frame at depth 0, and the entry run (R229). A handler context that is throttled creates
no instance (R104). -/
def deliverToHandler (s : State) (id : Nat) (x : Stop) : State :=
  let c := s.ctx id
  let h := id / 8 * 8 + handlerCtx c
  let hc := s.ctx h
  if hc.answering.isSome || hc.seq.wait.isSome || !mayAllocate s (id / 8) (handlerCtx c) 0 then s
  else
    let s := s.setCtx h { hc with holds := hc.holds.set 15 (recordLanes x.record), answering := some (id % 8) }
    let s := s.setCtx id (setDelivered (s.ctx id) x)
    let f := hc.ahead
    let s := allocate s (id / 8) (handlerCtx c) { num := f }
    let code : W32 := (0 : BitVec 16) ++ x.record.code ++ BitVec.ofNat 8 (id % 8)
    match Target.ofBits (c.handler.extractLsb' 17 11) with
    | some (.same i p) => deliverRun s h f i p fmtN32 0 0 [some code]
    | _ => s

/-- FAULT_DELIVERY (R227): the record that is due goes to its handler or to the partition owner. -/
def deliverFault (s : State) (id : Nat) : State :=
  let c := s.ctx id
  if c.frozen then s else
  match nextDelivery c with
  | none => s
  | some x =>
    if toOwner s id x.record then
      let lantern := x.record.code == codeLantern
      let s := s.setCtx id (if lantern then { c with stops := c.stops.filter (· ≠ x) } else setDelivered c x)
      reportRecord s c.part x.record (if lantern then none else some id)
    else deliverToHandler s id x

/-! ### The lead channel (R63, R64) -/

def leadChan (s : State) (id : Nat) : Nat := id / 8 * 64 + Image.lead (s.ctx id).image

/-- The lookahead (R63). -/
def lookahead (s : State) (id : Nat) : Option Token := (s.inc (leadChan s id)).queue.head?

/-- Header of the lookahead, or 0 (R74, R105). -/
def lookaheadHeader (s : State) (id : Nat) : W64 :=
  match lookahead s id with
  | some t => t.header (BitVec.ofNat 6 (leadChan s id)) 0
  | none => 0

/-- The ordinals after a mark (R64). -/
def Seq.ordinals (q : Seq) : MarkClass → Seq
  | .er => { q with o1 := 0, o2 := q.o2 + 1 }
  | .eg => { q with o1 := 0, o2 := 0, o3 := q.o3 + 1 }
  | .es => { q with o1 := 0, o2 := 0, o3 := 0, o4 := q.o4 + 1 }
  | .eb | .eos => { q with o1 := 0, o2 := 0, o3 := 0, o4 := 0 }
  | _ => q

/-- Effects of consuming a token on the sequencer state (R63, R64). -/
def Seq.consumed (q : Seq) : Token → Seq
  | .data _ _ _ _ _ _ => q
  | .mark _ c p => { q.ordinals c with mcls := c.code, mpay := p, lanes := 0 }

/-- A context consumes a mark (R238). -/
def countMark (s : State) (id : Nat) : State :=
  let c := s.ctx id
  s.setCtx id { c with marks := c.marks + 1 }

/-- Consume(la) of R68. -/
def consumeLead (s : State) (id : Nat) : State :=
  match lookahead s id with
  | none => s
  | some t =>
    let c := s.ctx id
    let s := s.setCtx id { c with seq := c.seq.consumed t, marks := if t.isMark then c.marks + 1 else c.marks }
    consume s (leadChan s id)

/-! ### Answering a fault: the return from it (R230, R75, R105, R226) -/

/-- The firing is marked fired and sends EMPTY lanes of its run to TA and TB (R230, skip). -/
def skipFiring (s : State) (id ins num k : Nat) : State :=
  let c := s.ctx id
  let old := s.focus
  let s := { s with focus := ⟨id / 8 / 256, id / 8 % 256, id % 8, ins, num, k⟩ }
  let r : Run := ⟨List.replicate k none, portKey c num ins .a, 0⟩
  let d := match Image.instr c.image ins with
    | some i => dstOf i
    | none => ⟨.nowhere, .nowhere⟩
  { finish s d 0 0 r r with focus := old }

/-- The skip of a firing some of whose lanes have gone by themselves (R422): the lanes from `j` on that hold an operand go as EMPTY
lanes to the targets inside the tile, and each channel target gets an EMPTY run. -/
def skipRest (s : State) (d : Dst) (j : Nat) : State :=
  let o := operands s
  let left := (List.range o.k).filter fun i => decide (j ≤ i) && (o.a.getD i none).isSome
  finishLanes (left.foldl (fun s i => sendLane s d i none) s) d (List.replicate o.k none)

/-- TRET skip of a firing that stopped where `r` says (R230). -/
def skipStopped (s : State) (id ins num k : Nat) (r : Resume) : State :=
  match Image.instr (s.ctx id).image ins with
  | some (.wload d _ _ _ _ _) =>
    { skipRest { s with focus := ⟨id / 8 / 256, id / 8 % 256, id % 8, ins, num, k⟩ } d r.lane with focus := s.focus }
  | _ => skipFiring s id ins num k

def removeStop (s : State) (id : Nat) (x : Stop) : State :=
  let c := s.ctx id
  s.setCtx id { c with stops := c.stops.filter (· ≠ x) }

def addResume (s : State) (id ins num k : Nat) (r : Resume) : State :=
  let c := s.ctx id
  s.setCtx id { c with
    inflight := c.inflight.filter fun y => !(y.ins = ins ∧ y.frame = num)
    resumes := c.resumes.filter (fun y => !(y.1 = ins ∧ y.2.1 = num)) ++ [(ins, num, k, r)] }

def setRun (s : State) (id : Nat) (r : SeqRun) : State :=
  let c := s.ctx id
  s.setCtx id { c with seq := { c.seq with run := r } }

def setPc (s : State) (id : Nat) (pc : BitVec 12) : State :=
  let c := s.ctx id
  s.setCtx id { c with seq := { c.seq with pc := pc } }

/-- A throttled wait starts again with a fresh window (R105). -/
def restartWait (s : State) (id : Nat) : State :=
  let c := s.ctx id
  let now := (s.time (id / 2048)).toNat
  s.setCtx id { c with seq := { c.seq with wait := c.seq.wait.map fun _ => now } }

def editUnit (s : State) (i : Nat) (g : OpUnit → OpUnit) : State := s.setUnit i (g (s.unit i))

def editCopy (s : State) (die str n : Nat) (g : Option Copy → Option Copy) : State :=
  let i := die * 16 + str
  let x := s.streamer i
  match g (SMap.find? x.copies n) with
  | some c => s.setStreamer i { x with copies := SMap.set x.copies n c }
  | none => s.setStreamer i { x with copies := SMap.erase x.copies n }

/-- TRET retry of the record that stop `x` of context `id` stands for (R75, R105, R230, R251, R333, R346, R434). -/
def retryStop (s : State) (id : Nat) (x : Stop) : State :=
  let s := removeStop s id x
  match x.site with
  | .grammar _ => setRun s id .running
  | .tags => restartWait s id
  | .firing ins num k r => addResume s id ins num k r
  | .send _ _ _ ins num k r => addResume s id ins num k r
  | .unit u => editUnit s u fun o => { o with stopped := false }
  | .copy die str n _ => editCopy s die str n fun c => c.map fun c => { c with paused := false }
  | .ring die e k => discardBlock s die e k
  | .duplicate | .stored | .snapshot | .gather _ _ _ | .rotation _ _ _ _ _ => s

/-- The rest of a set becomes padded rows (R346). -/
def padSet (s : State) (id ins frame lane : Nat) : State :=
  let x := s.island (id / 8)
  s.setIsland (id / 8) { x with sets := x.sets.map fun g =>
    if g.ctx = id ∧ g.ins = ins ∧ g.frame = frame ∧ g.lane = lane then { g with padded := true } else g }

/-- TRET skip (R75, R105, R230, R251, R333, R346, R392, R434). -/
def skipStop (s : State) (id : Nat) (x : Stop) : State :=
  let s := removeStop s id x
  match x.site with
  | .grammar reason =>
    let s := if reason = 1 ∨ reason = 3 ∨ reason = 4 then consumeLead s id else s
    setRun (setPc s id ((s.ctx id).seq.pc + 1)) id .running
  | .tags => restartWait s id
  | .firing ins num k r => skipStopped s id ins num k r
  | .send die e slot ins num k _ => skipFiring (sendItem s die e slot .close) id ins num k
  | .unit u => editUnit s u fun o => { o with stopped := false, skipping := 1 }
  | .copy die str n _ => editCopy s die str n fun c => c.map fun c => { c with dead := true, paused := false }
  | .ring die e k => discardBlock s die e k
  | .gather ins num lane => padSet s id ins num lane
  | .rotation die e ins num k => skipFiring (endRotation s die e) id ins num k
  | .duplicate | .stored | .snapshot => s

/-- The actions of TRET (R420): retry, skip or kill. An action that R226 does not allow for the code acts as kill. -/
def answerFault (s : State) (hid : Nat) (act : TretAct) : State × W32 :=
  let hc := s.ctx hid
  match hc.answering with
  | none => (s, 1)
  | some c =>
    let id := hid / 8 * 8 + c
    let s := s.setCtx hid { hc with answering := none }
    match (s.ctx id).stops.find? Stop.delivered with
    | none => (s, 0)
    | some x =>
      if x.record.code = codeLantern then (removeStop s id x, 2)
      else if x.record.code = codeDuplicate then (killContext s id, 0)
      else match act with
        | .retry => (retryStop s id x, 0)
        | .skip => (skipStop s id x, 0)
        | .kill => (killContext s id, 0)

end Sys2Proof.Machine
end

