-- ==== Sys2Proof/Machine/Grammar.lean ====
section
/-! DEFINITION. The mark sequencer: its choice of a context (R59, R354, R431), what its words wait for, mismatch and recovery
(R72), grammar faults (R74), and the meaning of each grammar word (R68). -/
namespace Sys2Proof.Machine
open Sys2Proof

/-! ### What words test -/

/-- Matches(la, m) of R68 for MTCH. -/
def selMatches (m : MarkSel) (cls : BitVec 4) : Bool :=
  match m with
  | .one c => c.code == cls
  | .any => cls != 0

/-- Matches(la, m) for BRM. -/
def lookMatches (m : LookSel) (cls : BitVec 4) : Bool :=
  match m with
  | .data => cls == 0
  | .one c => c.code == cls
  | .any => cls != 0

/-- Nesting depth: the index of the top stack entry (R61, R62). -/
def Seq.depth (q : Seq) : Nat := q.stack.length - 1

def gmemAt (s : State) (place : Nat) (a : Nat) : W32 := SMap.get 0 (s.tile place).gmem a

/-- The label that SWM takes for a class; none is a mismatch (R67, R68, R408). -/
def swmLabel (mem : Nat → W32) (t : Nat) (cls : BitVec 4) : Option (BitVec 12) :=
  let e := tableEntry mem t cls.toNat
  let e := if e = 0xFFFF ∧ cls ≠ 0 then tableEntry mem t 15 else e
  if e = 0xFFFF then none else some (e.extractLsb' 0 12)

/-- Lane 0 of a FIRE (R66). -/
def fireLane (q : Seq) : FireSrc → W32
  | .zero => 0
  | .o1 => q.o1
  | .o2 => q.o2
  | .o3 => q.o3
  | .o4 => q.o4
  | .lanes => q.lanes
  | .dcnt => q.dcnt
  | .mpay => q.mpay.zeroExtend 32

/-- The ordinal that a FIRE's key names (R65, R343). -/
def fireKey (q : Seq) (n : BitVec 2) : BitVec 12 :=
  (match n.toNat with | 0 => q.o1 | 1 => q.o2 | 2 => q.o3 | _ => q.o4).extractLsb' 0 12

/-- Payload of an EMK mark (R66, R339). -/
def emkPayload (q : Seq) : EmkSrc → BitVec 12
  | .zero => 0
  | .o1 => q.o1.extractLsb' 0 12
  | .o2 => q.o2.extractLsb' 0 12
  | .o3 => q.o3.extractLsb' 0 12
  | .o4 => q.o4.extractLsb' 0 12
  | .mpay => q.mpay

/-! ### Small steps -/

def editSeq (s : State) (id : Nat) (g : Seq → Seq) : State :=
  let c := s.ctx id
  s.setCtx id { c with seq := g c.seq }

def advance (s : State) (id : Nat) : State := editSeq s id fun q => { q with pc := q.pc + 1 }

/-- GRAMMAR or SOFTWARE of the sequencer (R74, R347): run becomes 2 and the record stands. -/
def sequencerFault (s : State) (id : Nat) (code : BitVec 8) (detail : W64) (reason : Nat) : State :=
  let c := s.ctx id
  let s := setRun s id .stopped
  takeFault s id code (sourceAt (id / 8) 16) c.ahead c.seq.pc.toNat (some (lookaheadHeader s id)) (some detail)
    (.grammar reason) none

/-- Detail word of R74. -/
def grammarDetail (depth : Nat) (lcls mc : BitVec 4) (reason : Nat) : W64 :=
  (0 : BitVec 42) ++ BitVec.ofNat 6 depth ++ lcls ++ mc ++ BitVec.ofNat 8 reason

def grammarFault (s : State) (id : Nat) (mc : BitVec 4) (reason : Nat) : State :=
  let lcls := match lookahead s id with
    | some t => t.cls
    | none => 0
  sequencerFault s id codeGrammar (grammarDetail (s.ctx id).seq.depth lcls mc reason) reason

/-- Drops the stack entries above the nearest one that holds a recovery point (R72). -/
def unwind : List StackEntry → Option (List StackEntry)
  | [] => none
  | e :: t => if e.rv then some (e :: t) else unwind t

/-- One turn of the discard loop (R72): the lookahead is counted and consumed; a mark of the recovery level ends the loop. -/
def discardToken (s : State) (id : Nat) : State :=
  match lookahead s id with
  | none => s
  | some t =>
    let s := editSeq s id fun q => { q with dcnt := satAdd q.dcnt 1 }
    let s := consumeLead s id
    match t, (s.ctx id).seq.stack with
    | .mark _ c _, e :: _ =>
      if e.rlev.toNat ≤ markLevel c then editSeq s id fun q => { q with recov := false, pc := e.rlbl } else s
    | _, _ => s

/-- Mismatch(reason) of R72: the first token is discarded in the same cycle. -/
def mismatch (s : State) (id : Nat) (mc : BitVec 4) (reason : Nat) : State :=
  match unwind (s.ctx id).seq.stack with
  | none => grammarFault s id mc reason
  | some st => discardToken (editSeq s id fun q => { q with stack := st, dcnt := 0, recov := true }) id

/-! ### Allocation by TAKE and FIRE -/

/-- The frame that the sequencer allocates: its depth, word and ordinals, o1 advanced by `i` (R62, R64). -/
def seqFrame (q : Seq) (i : Nat) : Frame :=
  { num := 0, depth := q.depth, word := some q.pc.toNat, o1 := q.o1 + BitVec.ofNat 32 i, o2 := q.o2, o3 := q.o3, o4 := q.o4 }

/-- Allocates up to `n` frames, as often as R93 holds in turn; answers how many. -/
def allocateUpTo (s : State) (id : Nat) (q : Seq) : Nat → Nat → State × Nat
  | 0, done => (s, done)
  | n + 1, done =>
    if mayAllocate s (id / 8) (id % 8) q.depth then
      allocateUpTo (allocate s (id / 8) (id % 8) (seqFrame q done)) id q n (done + 1)
    else (s, done)

/-- The word waits for a frame: the throttle of R104 begins, or goes on. -/
def throttle (s : State) (id : Nat) : State :=
  let now := (s.time (id / 2048)).toNat
  editSeq s id fun q => { q with wait := some (q.wait.getD now) }

/-- The TAKE of a data token (R68, R412). -/
def takeRun (s : State) (id : Nat) (t : Token) (i : BitVec 7) (p : Port) : State :=
  let c := s.ctx id
  let n := t.lanes.length
  let (s, k) := allocateUpTo s id c.seq n 0
  if k = 0 then throttle s id
  else
    let head := t.take k
    let s := deliverRun s id c.ahead i p head.fmt head.key head.count head.lanes
    let s := editSeq s id fun q =>
      { q with o1 := q.o1 + BitVec.ofNat 32 k, lanes := q.lanes + BitVec.ofNat 32 k, wait := none }
    if k = n then advance (consumeLead s id) id else shrinkHead s (leadChan s id) k

/-! ### What a word waits for, and the choice of R59 -/

def isChan : Target → Bool
  | .chan _ => true
  | _ => false

/-- Output-channel targets of an instruction. -/
def chanTargets (d : Dst) : Nat := (if isChan d.ta then 1 else 0) + (if isChan d.tb then 1 else 0)

/-- The firings of a context that have begun and not ended: under way, stopped by a fault, or waiting to go on: index and frame. -/
def begunFirings (c : Ctx) : List (Nat × Nat) :=
  (c.inflight.map (fun x => (x.ins, x.frame)) ++ c.resumes.map (fun x => (x.1, x.2.1)) ++ c.stops.filterMap fun x => match x.site with
    | .firing i f _ _ | .send _ _ _ i f _ _ | .rotation _ _ i f _ => some (i, f)
    | _ => none).dedup

/-- Free entries of the context's quota in the output buffer: each target of a firing that has begun holds one (R103). -/
def Ctx.outRoom (c : Ctx) : Nat :=
  c.quota - c.out.length - ((begunFirings c).map fun x => match Image.instr c.image x.1 with
    | some i => chanTargets (dstOf i)
    | none => 0).sum

/-- GWAIT on context `m` has nothing left to wait for, given what it recorded (R348). -/
def gwaitDone (s : State) (place m : Nat) (rec : Nat × Nat) : Bool :=
  let x := s.ctx (place * 8 + m)
  !x.active || x.live == 0 || x.launch != rec.1 || decide (rec.2 ≤ x.chead)

def gwaitRecord (s : State) (place m : Nat) : Nat × Nat :=
  let x := s.ctx (place * 8 + m)
  (x.launch, x.ahead)

/-- The number since configuration of a frame of a restored context, which stands `age` frames behind its commit head. -/
def restoredNum (chead ahead : Nat) (frame : Nat) : Nat :=
  let age := (frame + 4096 - chead % 4096) % 4096
  if age ≤ ahead - chead then chead + age else chead + age - 4096

/-- A launch has still to configure a context that it places: an older launch holds it (R220). -/
def placesLater (s : State) (part launch id : Nat) : Bool :=
  decide ((s.ctx id).launch < launch) && (s.part part).running.any fun r => r.id == launch && r.ctxs.contains id

/-- What the GWAIT of a context on context `m` waits for: what it recorded when it began. A restored one names a head of the launch that
it was restored with (R79); none while context `m` has still to take its restored state. -/
def gwaitMark (s : State) (id m : Nat) : Option (Nat × Nat) :=
  let c := s.ctx id
  let x := s.ctx (id / 8 * 8 + m)
  match c.seq.goal with
  | none => some (c.seq.gwait.getD (gwaitRecord s (id / 8) m))
  | some h =>
    if placesLater s c.part c.launch (id / 8 * 8 + m) then none else some (c.launch, restoredNum x.chead x.ahead h)

/-- The GWAIT at pc has nothing left to wait for. -/
def gwaitEnds (s : State) (id m : Nat) : Bool := (gwaitMark s id m).any (gwaitDone s (id / 8) m)

/-- The GWAIT at pc has begun: what it waits for stands, once it is known. -/
def gwaitBegins (s : State) (id m : Nat) : State :=
  match gwaitMark s id m with
  | none => s
  | some r => editSeq s id fun q => { q with gwait := some r, goal := none }

/-- The word at pc, or the recovery loop, can proceed now (R59, R68). An allocation comes behind a commit that is due: a wait ends with
all the frames that it frees (R101, R283). -/
def canProceed (s : State) (id : Nat) : Bool :=
  let c := s.ctx id
  let q := c.seq
  let la := lookahead s id
  if q.recov then la.isSome
  else if q.closing then c.chead == c.ahead
  else match decodeGrammar (gmemAt s (id / 8) q.pc.toNat) with
    | .error _ => true
    | .ok (.mtch _) | .ok (.brm _ _) | .ok (.swm _) | .ok .takeDrop | .ok .acpt | .ok (.acptRestart _) => la.isSome
    | .ok (.take _ _) => match la with
      | none => false
      | some t => t.isMark || (!c.canCommit && mayAllocate s (id / 8) (id % 8) q.depth)
    | .ok (.fire _ _ _ _) => !c.canCommit && mayAllocate s (id / 8) (id % 8) q.depth
    | .ok (.emk _ _ _) => decide (0 < c.outRoom)
    | .ok (.gwait m) => gwaitEnds s id m.toNat
    | .ok _ => true

/-- The sequencer may serve the context at all (R68, R74, R76, R234, R349). -/
def serves (c : Ctx) : Bool :=
  c.active && c.grammar.isSome && !c.killed && !c.frozen && c.halting.isNone && c.seq.run == .running &&
    !(c.stops.any Stop.holdsContext)

/-- A word that neither consumes, allocates, emits nor waits (R354). -/
def idleWord (s : State) (id : Nat) : Bool :=
  let q := (s.ctx id).seq
  !q.recov && !q.closing &&
  (match decodeGrammar (gmemAt s (id / 8) q.pc.toNat) with
    | .ok (.jmpn _) | .ok (.brm _ _) | .ok (.swm _) | .ok (.calln _) | .ok .retn | .ok (.rcvr _ _) => true
    | _ => false)

/-- Order of R59 and R431 among contexts that can proceed: no yield, higher priority, then round-robin after `last`. -/
def servedBefore (s : State) (place last a b : Nat) : Bool :=
  let x := s.ctx (place * 8 + a)
  let y := s.ctx (place * 8 + b)
  if x.yielding != y.yielding then y.yielding
  else if x.prio.extractLsb' 0 3 ≠ y.prio.extractLsb' 0 3 then
    decide ((y.prio.extractLsb' 0 3).toNat < (x.prio.extractLsb' 0 3).toNat)
  else decide ((a + 15 - last) % 8 < (b + 15 - last) % 8)

def bestOf (before : Nat → Nat → Bool) : List Nat → Option Nat
  | [] => none
  | a :: t => match bestOf before t with
    | none => some a
    | some b => if before b a then some b else some a

/-- The contexts of a tile that have a word able to proceed (R59). -/
def ableCtxs (s : State) (place : Nat) : List Nat :=
  (List.range 8).filter fun c => serves (s.ctx (place * 8 + c)) && canProceed s (place * 8 + c)

/-- The context that has had its 16 idle words in a row, and the others that are to be served before it returns (R354). -/
def barredNow (s : State) (place : Nat) : Option (Nat × List Nat) :=
  let t := s.tile place
  let able := ableCtxs s place
  let due := match t.barred with
    | some (_, l) => l.filter able.contains
    | none => []
  match t.barred with
  | some (c, _) => if due.isEmpty then none else some (c, due)
  | none =>
    let others := able.filter (· ≠ t.rr)
    if able.contains t.rr && !others.isEmpty && decide (16 ≤ t.burst) && idleWord s (place * 8 + t.rr) then some (t.rr, others) else none

/-- The context that the sequencer of a tile serves (R59, R354). -/
def sequencerPick (s : State) (place : Nat) : Option Nat :=
  bestOf (servedBefore s place (s.tile place).rr) (match barredNow s place with
    | some (_, l) => l
    | none => ableCtxs s place)

/-- The word at pc is a TAKE or FIRE that has its token, and R93 does not hold for it (R104). -/
def awaitsFrame (s : State) (id : Nat) : Bool :=
  let q := (s.ctx id).seq
  !q.recov && !q.closing && !mayAllocate s (id / 8) (id % 8) q.depth &&
  (match decodeGrammar (gmemAt s (id / 8) q.pc.toNat) with
    | .ok (.take _ _) => (match lookahead s id with
      | some t => !t.isMark
      | none => false)
    | .ok (.fire _ _ _ _) => true
    | _ => false)

/-- Waits begin and end: a TAKE or FIRE is throttled while R93 does not hold (R104, R105), and a GWAIT that cannot proceed has begun
(R348). -/
def noteWait (s : State) (id : Nat) : State :=
  if !serves (s.ctx id) then s
  else if awaitsFrame s id then throttle s id
  else
    let s := editSeq s id fun q => { q with wait := none }
    match decodeGrammar (gmemAt s (id / 8) (s.ctx id).seq.pc.toNat) with
    | .ok (.gwait m) =>
      if canProceed s id then s else gwaitBegins s id m.toNat
    | _ => s

def noteWaits (s : State) (place : Nat) : Nat → State
  | 0 => s
  | n + 1 => noteWait (noteWaits s place n) (place * 8 + n)

/-- The tile remembers whom it served, for how many idle words in a row, and who is still to be served before a context that has had
its 16 (R59, R354). -/
def noteServed (s : State) (place c : Nat) : State :=
  let t := s.tile place
  let n := if idleWord s (place * 8 + c) then (if c = t.rr then t.burst + 1 else 1) else 0
  let left := match barredNow s place with
    | some (b, l) => if l = [c] then none else some (b, l.filter (· ≠ c))
    | none => none
  s.setTile place { t with rr := c, burst := n, barred := left }

/-! ### The words (R68) -/

def execMtch (m : MarkSel) (s : State) : Out :=
  let id := s.focus.ctxId
  match lookahead s id with
  | none => .next s
  | some t => .next (if selMatches m t.cls then advance (consumeLead s id) id else mismatch s id m.code 1)

def execBrm (m : LookSel) (l : BitVec 12) (s : State) : Out :=
  let id := s.focus.ctxId
  match lookahead s id with
  | none => .next s
  | some t => .next (if lookMatches m t.cls then setPc s id l else advance s id)

def execSwm (l : BitVec 12) (s : State) : Out :=
  let id := s.focus.ctxId
  match lookahead s id with
  | none => .next s
  | some t => match swmLabel (gmemAt s (id / 8)) l.toNat t.cls with
    | some e => .next (setPc s id e)
    | none => .next (mismatch s id 0 2)

def execJmpn (l : BitVec 12) (s : State) : Out := .next (setPc s s.focus.ctxId l)

def execCalln (l : BitVec 12) (s : State) : Out :=
  let id := s.focus.ctxId
  if (s.ctx id).seq.depth = 63 then .next (grammarFault s id 0 5)
  else .next (editSeq s id fun q => { q with stack := { ret := q.pc + 1 } :: q.stack, pc := l })

def execRetn (s : State) : Out :=
  let id := s.focus.ctxId
  match (s.ctx id).seq.stack with
  | e :: b :: t => .next (editSeq s id fun q => { q with stack := b :: t, pc := e.ret })
  | _ => .next (grammarFault s id 0 6)

def execTake (i : BitVec 7) (p : Port) (s : State) : Out :=
  let id := s.focus.ctxId
  match lookahead s id with
  | none => .next s
  | some t => .next (if t.isMark then mismatch s id 0 3 else takeRun s id t i p)

def execTakeDrop (s : State) : Out :=
  let id := s.focus.ctxId
  match lookahead s id with
  | none => .next s
  | some t => .next (if t.isMark then mismatch s id 0 3 else advance (consumeLead s id) id)

/-- FIRE (R68, R343). -/
def execFire (src : FireSrc) (key : BitVec 2) (i : BitVec 7) (p : Port) (s : State) : Out :=
  let id := s.focus.ctxId
  let c := s.ctx id
  if mayAllocate s (id / 8) (id % 8) c.seq.depth then
    let s := allocate s (id / 8) (id % 8) (seqFrame c.seq 0)
    let s := deliverRun s id c.ahead i p fmtN32 (fireKey c.seq key) 0 [some (fireLane c.seq src)]
    .next (advance (editSeq s id fun q => { q with wait := none }) id)
  else .next (throttle s id)

/-- EMK (R68, R77, R339): the mark stands behind every token of every frame allocated before it. -/
def execEmk (m : MarkClass) (src : EmkSrc) (ch : BitVec 6) (s : State) : Out :=
  let id := s.focus.ctxId
  let c := s.ctx id
  if c.outRoom = 0 then .next s
  else
    let e : OutEntry := ⟨ch.toNat, c.ahead, 0, false, c.ahead, .mark (BitVec.ofNat 3 (id % 8)) m (emkPayload c.seq src), false⟩
    .next (advance (s.setCtx id { c with out := insertOut e c.out }.release) id)

def execRcvr (v : RecLevel) (l : BitVec 12) (s : State) : Out :=
  let id := s.focus.ctxId
  .next (advance (editSeq s id fun q =>
    { q with stack := match q.stack with
        | e :: t => { e with rv := v != .off, rlev := v.code, rlbl := l } :: t
        | [] => [] }) id)

/-- GWAIT (R68, R348). -/
def execGwait (m : BitVec 3) (s : State) : Out :=
  let id := s.focus.ctxId
  if gwaitEnds s id m.toNat then .next (advance (editSeq s id fun q => { q with gwait := none, goal := none }) id)
  else .next (gwaitBegins s id m.toNat)

/-- ACPT stop (R68, R314): EOS is consumed once; the context accepts when its last frame has committed. -/
def execAcpt (s : State) : Out :=
  let id := s.focus.ctxId
  if (s.ctx id).seq.closing then .next (s.setCtx id (s.ctx id).accept)
  else match lookahead s id with
  | none => .next s
  | some t =>
    if t.isEos then
      let s := editSeq (consumeLead s id) id fun q => { q with closing := true }
      .next (s.setCtx id (s.ctx id).accept)
    else .next (mismatch s id 0 4)

/-- ACPT restart (R68, R314). -/
def execAcptRestart (l : BitVec 12) (s : State) : Out :=
  let id := s.focus.ctxId
  match lookahead s id with
  | none => .next s
  | some t =>
    if t.isEos then
      let s := consumeLead s id
      let ic := s.inc (leadChan s id)
      let s := s.setInc (leadChan s id) { ic with eos := false }
      .next (editSeq s id fun q => { q with stack := [{}], pc := l })
    else .next (mismatch s id 0 4)

/-- GTRAP (R68, R347). -/
def execGtrap (code : BitVec 12) (s : State) : Out :=
  let id := s.focus.ctxId
  .next (sequencerFault s id codeSoftware (code.zeroExtend 64) 0)

/-- One turn of a recovery discard loop in progress (R72). -/
def execRecoveryDiscard (s : State) : Out :=
  let id := s.focus.ctxId
  if (s.ctx id).seq.recov then .next (discardToken s id) else .next s

end Sys2Proof.Machine
end

