-- ==== Sys2Proof/Machine/Elements.lean ====
section
/-! DEFINITION. The meanings of the element instructions that move and compute lanes: 0x00 to 0x39 of the opcode map (R205).
Each fires over the frames in focus with the operands that stand there (R97). -/
namespace Sys2Proof.Machine
open Sys2Proof

/-- The lanes of port a of the firing in focus. -/
def laneA (s : State) : List Lane := (operands s).a

/-- NOP (R373): port a's run unchanged, in its own format. -/
def execNop (d : Dst) (s : State) : Out :=
  let o := operands s
  let f := portFmt s.here s.focus.frame s.focus.ins .a
  .next (finish s d f f ⟨o.a, o.key, o.count⟩ ⟨o.a, o.key, o.count⟩)

/-- DROP (R337). -/
def execDrop (s : State) : Out := .next (finish s ⟨.nowhere, .nowhere⟩ 0 0 ⟨[], 0, 0⟩ ⟨[], 0, 0⟩)

/-- MOVI (R368). -/
def execMovi (d : Dst) (ty : Fmt) (v : MoviVal) (s : State) : Out :=
  .next (fireWith s d ty.code ty.code (moviRes ty v))

/-- The hold lane that serves firing lane `j` (R350): none when the index lane is empty. -/
def holdLane (idx : Bool) (lane : BitVec 5) (l : List Lane) (j : Nat) : Option Nat :=
  if idx then (l.getD j none).map fun v => v.toNat % 32 else some ((lane.toNat + j) % 32)

def holdAt (c : Ctx) (reg n : Nat) : Lane := (c.holds.getD reg []).getD n none

/-- HGET (R350). -/
def execHget (d : Dst) (ty : Fmt) (reg : BitVec 4) (idx : Bool) (lane : BitVec 5) (s : State) : Out :=
  let o := operands s
  let c := s.here
  let l := (List.range o.k).map fun j =>
    if (o.a.getD j none).isNone then none
    else match holdLane idx lane o.a j with
      | some n => holdAt c reg.toNat n
      | none => none
  .next (finish s d ty.code ty.code ⟨l, o.key, o.count⟩ ⟨l, o.key, o.count⟩)

def setHold (h : List Lane) (idx : Bool) (lane : BitVec 5) (b : List Lane) : Nat → List Lane → List Lane
  | _, [] => h
  | j, v :: t => match holdLane idx lane b j with
    | some n => setHold (h.set n v) idx lane b (j + 1) t
    | none => setHold h idx lane b (j + 1) t

/-- HSET (R350). -/
def execHset (d : Dst) (_ty : Fmt) (reg : BitVec 4) (idx : Bool) (lane : BitVec 5) (s : State) : Out :=
  let o := operands s
  let c := s.here
  let h := setHold (c.holds.getD reg.toNat []) idx lane o.b 0 o.a
  let s := s.setHere { c with holds := c.holds.set reg.toNat h }
  let r : Run := ⟨List.replicate o.k (some 0), o.key, o.count⟩
  .next (finish s d fmtN32 fmtN32 r r)

/-- A mark of EMIT enters the output buffer (R103, R338). -/
def emitMark (s : State) (tb : Bool) (t : Target) (m : Token) : State :=
  match t with
  | .chan ch =>
    let f := s.focus
    let c := s.here
    s.setHere { c with out := insertOut ⟨ch.toNat, f.frame, f.ins + 1, tb, f.frame + 1, m, false⟩ c.out }
  | _ => s

/-- EMIT (R338). -/
def execEmit (d : Dst) (cls : MarkClass) (payA : Bool) (pay : BitVec 12) (s : State) : Out :=
  let f := s.focus
  let v := (operands s).a.getD 0 none
  let s := s.setHere (markFired s.here f.ins f.frame f.k)
  match v with
  | none => .next s
  | some a =>
    let m : Token := .mark (BitVec.ofNat 3 f.ctx) cls (if payA then a.extractLsb' 0 12 else pay)
    .next (emitMark (emitMark s false d.ta m) true d.tb m)

/-- FAN (R341). -/
def execFan (x : XA) (s : State) : Out := .next (fireWith s x.d x.ty.code x.ty.code (fanRes x))
/-- STEER (R100, R406). -/
def execSteer (x : XA) (s : State) : Out := .next (fireWith s x.d x.ty.code x.ty.code steerRes)
/-- MERGE (R100, R367). -/
def execMerge (x : XA) (s : State) : Out := .next (fireWith s x.d x.ty.code x.ty.code mergeRes)
/-- TAGR (R411). -/
def execTagr (x : XA) (s : State) : Out := .next (fireWith s x.d x.ty.code x.ty.code (tagrRes x))
/-- MASK (R363). -/
def execMask (x : XA) (s : State) : Out := .next (fireWith s x.d x.ty.code x.ty.code (maskRes x))
/-- FILL (R342). -/
def execFill (x : XA) (s : State) : Out := .next (fireWith s x.d x.ty.code x.ty.code (fillRes x))
/-- ADD (R312, R315). -/
def execAdd (x : XA) (s : State) : Out := .next (fireWith s x.d x.ty.code x.ty.code (resAdd x))
/-- SUB (R312, R407). -/
def execSub (x : XA) (s : State) : Out := .next (fireWith s x.d x.ty.code x.ty.code (resSub x))
/-- MUL (R312, R370). -/
def execMul (x : XA) (s : State) : Out := .next (fireWith s x.d x.ty.code x.ty.code (resMul x))
/-- MULH (R371). -/
def execMulh (x : XA) (s : State) : Out := .next (fireWith s x.d x.ty.code x.ty.code (resMulh x))
/-- DIV (R312, R336). -/
def execDiv (x : XA) (s : State) : Out := .next (fireWith s x.d x.ty.code x.ty.code (resDiv x))
/-- REM (R312, R388). -/
def execRem (x : XA) (s : State) : Out := .next (fireWith s x.d x.ty.code x.ty.code (resRem x))
/-- MIN (R364). -/
def execMin (x : XA) (s : State) : Out := .next (fireWith s x.d x.ty.code x.ty.code (resMin x))
/-- MAX (R364). -/
def execMax (x : XA) (s : State) : Out := .next (fireWith s x.d x.ty.code x.ty.code (resMax x))
/-- ABS (R313). -/
def execAbs (x : XA) (s : State) : Out := .next (fireWith s x.d x.ty.code x.ty.code (resAbs x))
/-- NEG (R372). -/
def execNeg (x : XA) (s : State) : Out := .next (fireWith s x.d x.ty.code x.ty.code (resNeg x))
/-- CMP (R331). -/
def execCmp (x : XA) (s : State) : Out := .next (fireWith s x.d fmtN32 fmtN32 (resCmp x))
/-- CLZ (R330). -/
def execClz (x : XA) (s : State) : Out := .next (fireWith s x.d x.ty.code x.ty.code (resClz x))
/-- POPC (R380). -/
def execPopc (x : XA) (s : State) : Out := .next (fireWith s x.d x.ty.code x.ty.code (resPopc x))
/-- AND (R316). -/
def execAnd (x : XA) (s : State) : Out := .next (fireWith s x.d x.ty.code x.ty.code (resAnd x))
/-- OR (R378). -/
def execOr (x : XA) (s : State) : Out := .next (fireWith s x.d x.ty.code x.ty.code (resOr x))
/-- XOR (R430). -/
def execXor (x : XA) (s : State) : Out := .next (fireWith s x.d x.ty.code x.ty.code (resXor x))
/-- ANDN (R316). -/
def execAndn (x : XA) (s : State) : Out := .next (fireWith s x.d x.ty.code x.ty.code (resAndn x))
/-- SHL (R394). -/
def execShl (x : XA) (s : State) : Out := .next (fireWith s x.d x.ty.code x.ty.code (resShl x))
/-- SHR (R394). -/
def execShr (x : XA) (s : State) : Out := .next (fireWith s x.d x.ty.code x.ty.code (resShr x))
/-- SAR (R394). -/
def execSar (x : XA) (s : State) : Out := .next (fireWith s x.d x.ty.code x.ty.code (resSar x))
/-- FMA (R344). -/
def execFma (x : XA) (s : State) : Out := .next (fireWith s x.d x.ty.code x.ty.code (resFma x))
/-- RCP (R386). -/
def execRcp (x : XA) (s : State) : Out := .next (fireWith s x.d x.ty.code x.ty.code (resRcp x))
/-- RSQ (R386). -/
def execRsq (x : XA) (s : State) : Out := .next (fireWith s x.d x.ty.code x.ty.code (resRsq x))
/-- NRCP (R374). -/
def execNrcp (x : XA) (s : State) : Out := .next (fireWith s x.d x.ty.code x.ty.code (resNrcp x))
/-- NRSQ (R374). -/
def execNrsq (x : XA) (s : State) : Out := .next (fireWith s x.d x.ty.code x.ty.code (resNrsq x))
/-- EXP2 (R340). -/
def execExp2 (x : XA) (s : State) : Out := .next (fireWith s x.d x.ty.code x.ty.code (resExp2 x))
/-- LOG2 (R359). -/
def execLog2 (x : XA) (s : State) : Out := .next (fireWith s x.d x.ty.code x.ty.code (resLog2 x))
/-- TANH (R414). -/
def execTanh (x : XA) (s : State) : Out := .next (fireWith s x.d x.ty.code x.ty.code (resTanh x))
/-- CLASS (R329). -/
def execClass (x : XA) (s : State) : Out := .next (fireWith s x.d fmtN32 fmtN32 (resClass x))
/-- RND (R390). -/
def execRnd (x : XA) (s : State) : Out := .next (fireWith s x.d x.ty.code x.ty.code (resRnd x))

end Sys2Proof.Machine
end

