-- ==== Sys2Proof/Machine/Mem.lean ====
section
/-! DEFINITION. The element memory instructions LD, ST, ATOM, CAS, PREF, DISC, WBK, INV, KVAP and KVFK, and the ordering
instructions XFEN, SBAR and BAR. -/
namespace Sys2Proof.Machine
open Sys2Proof

/-- The issuer of an element access of the firing in focus. -/
def viaHere (s : State) (scope : Scope) : Via :=
  { place := s.focus.place, part := s.here.part, l1 := true, scope := scope
    who := some (.ctx s.focus.die s.focus.tile s.focus.ctx) }

/-- Virtual address in base register `n` of the context in focus (R139). -/
def baseVa (s : State) (n : BitVec 3) : Nat := ((s.here.bases.getD n.toNat 0).extractLsb' 0 56).toNat

/-- Effective address of a lane under the XM layout (R201), elements of 4 bytes. -/
def effAddr (s : State) (x : XM) (l : W32) : Nat :=
  (((baseVa s x.base : Int) + (l.toInt + x.off.toInt) * 4) % 2 ^ 56).toNat

def natW64 (n : Nat) : W64 := BitVec.ofNat 64 n

/-- The firing reaches the fault of a failed access. -/
def accessFault (s : State) (e : MemFault) (detail : Option W64) (r : Resume) : State :=
  faultFiring s e.code (some (natW64 e.va)) detail r

/-- Status lanes with port a's key and count (R34, R162). -/
def statusRun (o : Opnds) (l : List Lane) : Run := ⟨l, o.key, o.count⟩

/-- The same n32 status lanes to TA and TB. -/
def finishStatus (s : State) (d : Dst) (o : Opnds) (l : List Lane) : State :=
  finish s d fmtN32 fmtN32 (statusRun o l) (statusRun o l)

/-- Valid bits of a lane of format `t` whose token's count is `c` (R34). -/
def validMask (t : Fmt) (c : Nat) : Nat := 2 ^ (elemWidth t * validElts t.epl c) - 1

/-- Operand lane `j`, empty where the run has none. -/
def laneAt (l : List Lane) (j : Nat) : Lane := l.getD j none

/-! ### LD and ST -/

/-- Reads the lanes of an LD in ascending order (R358). -/
def ldLanes (s : State) (v : Via) (x : XM) (ty : Fmt) (o : Opnds) : List Nat → Acc (List Lane)
  | [] => (s, .ok [])
  | j :: rest =>
    match laneAt o.a j with
    | none => match ldLanes s v x ty o rest with
      | (s, .error e) => (s, .error e)
      | (s, .ok l) => (s, .ok (none :: l))
    | some a =>
      let va := effAddr s x a
      if va % 4 ≠ 0 then (s, .error (faultAlign va))
      else match loadWord s v va with
        | (s, .error e) => (s, .error e)
        | (s, .ok w) => match ldLanes s v x ty o rest with
          | (s, .error e) => (s, .error e)
          | (s, .ok l) => (s, .ok (some (w &&& BitVec.ofNat 32 (validMask ty (o.fin.getD j 0))) :: l))

/-- LD (R288, R358). -/
def execLd (ty : Fmt) (x : XM) (s : State) : Out :=
  let o := operands s
  let v := viaHere s x.scope
  let s := if x.order = .acquire ∧ o.anyLane then acquireAt s v else s
  match ldLanes s v x ty o (List.range o.k) with
  | (s, .error e) => .next (accessFault s e none {})
  | (s, .ok l) => .next (finish s x.d ty.code fmtN32 (statusRun o l) (statusRun o (List.replicate o.k (some 0))))

/-- A lane of an ST that stores: its number, address, value and valid bits. -/
abbrev StLane := Nat × Nat × W32 × W32

/-- The lanes of an ST that store, in ascending order. Port a's token tells which elements of its final lane are valid (R34, R97). -/
def stLanes (s : State) (x : XM) (ty : Fmt) (o : Opnds) : List StLane :=
  (List.range o.k).filterMap fun j =>
    match laneAt o.a j, laneAt o.b j with
    | some a, some b => some (j, effAddr s x a, b, BitVec.ofNat 32 (validMask ty (o.fin.getD j 0)))
    | _, _ => none

/-- The whole check of an ST before it writes (R404). -/
def stCheck (s : State) (v : Via) : List StLane → Acc Unit
  | [] => (s, .ok ())
  | (_, va, _, _) :: rest =>
    if va % 4 ≠ 0 then (s, .error (faultAlign va))
    else match checkWrite s v va with
      | (s, .error e) => (s, .error e)
      | (s, .ok _) => stCheck s v rest

/-- The nibbles that the lanes store into the granule at `g`, in ascending lane order: the highest lane stands (R169, R404). -/
def stNibbles (g : Nat) (ls : List StLane) : List (Option (BitVec 4)) :=
  (List.range 16).map fun n =>
    ls.foldl (fun acc (_, va, w, m) =>
      let b := 8 * (g + n / 2 - va) + 4 * (n % 2)
      if va ≤ g + n / 2 ∧ g + n / 2 < va + 4 ∧ m.getLsbD b then some (w.extractLsb' b 4) else acc) none

/-- The bytes to write: whole bytes, and bytes of which one nibble is stored, the other as memory holds it (R34). -/
def stBytes (old : List Byte) (ns : List (Option (BitVec 4))) (whole : Bool) : List (Option Byte) :=
  (List.range 8).map fun i =>
    match ns.getD (2 * i) none, ns.getD (2 * i + 1) none with
    | some lo, some hi => if whole then some (hi ++ lo) else none
    | some lo, none => if whole then none else some ((old.getD i 0).extractLsb' 4 4 ++ lo)
    | none, some hi => if whole then none else some (hi ++ (old.getD i 0).extractLsb' 0 4)
    | none, none => none

/-- Stores into the granule at `g`; answers whether it kept its poison. -/
def stGranule (s : State) (v : Via) (g : Nat) (ls : List StLane) : State × Bool :=
  let ns := stNibbles g ls
  match loadGranule s v g with
  | (s, .error _) => (s, false)
  | (s, .ok (old, _)) =>
    let part := stBytes old ns false
    let put (s : State) (bs : List (Option Byte)) : State × Bool :=
      if bs.all Option.isNone then (s, false)
      else match storeGranule s v g bs with
        | (s, .error _) => (s, false)
        | (s, .ok kept) => (s, kept)
    let r := put s part
    let q := put r.1 (stBytes old ns true)
    (q.1, r.2 || q.2)

def stGranules (s : State) (v : Via) (ls : List StLane) : List Nat → State × List Nat
  | [] => (s, [])
  | g :: rest =>
    let r := stGranule s v g ls
    let q := stGranules r.1 v ls rest
    (q.1, if r.2 then g :: q.2 else q.2)

/-- ST (R161, R288, R404). -/
def execSt (ty : Fmt) (x : XM) (s : State) : Out :=
  let o := operands s
  let v := viaHere s x.scope
  let ls := stLanes s x ty o
  match stCheck s v ls with
  | (s, .error e) => .next (accessFault s e none {})
  | (s, .ok _) =>
    let s := if x.order = .release ∧ !ls.isEmpty then releaseAt s v x.scope else s
    let (s, kept) := stGranules s v ls (ls.map fun l => l.2.1 / 8 * 8).dedup
    let done := (List.range o.k).map fun j =>
      match ls.find? fun l => l.1 = j with
      | some l => some (if kept.contains (l.2.1 / 8 * 8) then (8 : W32) else 0)
      | none => some 0
    let s := finishStatus s x.d o done
    match kept.min? with
    | none => .next s
    | some g => .next (faultAt s codePoison (some (natW64 g)) none .stored)

/-! ### ATOM and CAS (R318, R319, R327) -/

/-- The access goes to the line's slice after the issuing tile has given up its own copy (R319). -/
def rmwPoint (s : State) (v : Via) (va : Nat) : State × Via :=
  match routeOf s v va with
  | .bank p => if staysInBank s v then (s, v) else (l1Flush s p fun l => l.named (v.asid s) (lineOf va), { v with l1 := false })
  | _ => (s, v)

/-- A read-modify-write of one word; answers the old value and the flags of the update. -/
def rmwWord (s : State) (v : Via) (va : Nat) (f : W32 → W32 × FpFlags) : Acc (W32 × FpFlags) :=
  let (s, v) := rmwPoint s v va
  match checkWrite s v va with
  | (s, .error e) => (s, .error e)
  | (s, .ok _) => match loadWord s v va with
    | (s, .error e) => (s, .error e)
    | (s, .ok old) => match storeWord s v va (f old).1 with
      | (s, .error e) => (s, .error e)
      | (s, .ok _) => (s, .ok (old, (f old).2))

/-- The XA fields under which ATOM computes an f32 or integer sum, minimum or maximum. -/
def atomXA (ty : Fmt) : XA := ⟨⟨.nowhere, .nowhere⟩, ty, .rne, .off, .absorb, 0, 0⟩

/-- New(aop, old, z) of R318, with its flags. -/
def atomNew (ty : Fmt) (aop : BitVec 4) (old z : W32) : W32 × FpFlags :=
  let elt (op : EltOp) : W32 × FpFlags := let r := op old.toNat z.toNat 0 0; (BitVec.ofNat 32 r.bits, r.flags)
  match aop.toNat with
  | 0 => (z, 0)
  | 1 => elt (addOp (atomXA ty) .rne)
  | 2 => elt (pickOp (atomXA ty) false)
  | 3 => elt (pickOp (atomXA ty) true)
  | 4 => (old &&& z, 0)
  | 5 => (old ||| z, 0)
  | _ => (old ^^^ z, 0)

/-- Performs lanes in ascending order; `f j` is the update of lane `j`, none for a lane that makes no access. Answers the old
values, the flags, and the lane and fault where it stopped. -/
def rmwLanes (s : State) (v : Via) (x : XM) (o : Opnds) (f : Nat → Option (W32 → W32 × FpFlags)) :
    List Nat → State × List Lane × FpFlags × Option (Nat × MemFault)
  | [] => (s, [], 0, none)
  | j :: rest =>
    match laneAt o.a j, f j with
    | some a, some g =>
      let va := effAddr s x a
      if va % 4 ≠ 0 then (s, [], 0, some (j, faultAlign va))
      else match rmwWord s v va g with
        | (s, .error e) => (s, [], 0, some (j, e))
        | (s, .ok (old, fl)) =>
          let (s, l, fl', e) := rmwLanes s v x o f rest
          (s, some old :: l, fl ||| fl', e)
    | _, _ =>
      let (s, l, fl, e) := rmwLanes s v x o f rest
      (s, none :: l, fl, e)

/-- A lane of the firing makes an access. -/
def rmwAccess (o : Opnds) (f : Nat → Option (W32 → W32 × FpFlags)) (l : List Nat) : Bool :=
  l.any fun j => (laneAt o.a j).isSome && (f j).isSome

/-- Acquire and release of an element read-modify-write (R178). -/
def orderRmw (s : State) (v : Via) (x : XM) : State :=
  let s := if x.order = .acquire ∨ x.order = .acqRel then acquireAt s v else s
  if x.order = .release ∨ x.order = .acqRel then releaseAt s v x.scope else s

/-- A firing of ATOM or CAS: the lanes from where an earlier fault stopped it (R318). -/
def fireRmw (ty : Fmt) (x : XM) (s : State) (o : Opnds) (f : Nat → Option (W32 → W32 × FpFlags)) : State :=
  let v := viaHere s x.scope
  let r := resumeHere s
  let lanes := (List.range o.k).drop r.lane
  let s := if rmwAccess o f lanes then orderRmw s v x else s
  let (s, l, fl, e) := rmwLanes s v x o f lanes
  let c := s.here
  let s := s.setHere { c with fpflags := raiseFlags c.fpflags fl }
  let old := r.ta ++ l
  let fl := r.flags ||| fl
  match e with
  | some (j, e) => accessFault s e (some (natW64 j)) { lane := j, ta := old, flags := fl }
  | none =>
    if fpTraps c.fpmode fl then faultFiring s codeFptrap none (some (fl.zeroExtend 64)) { lane := o.k, ta := old }
    else finish s x.d ty.code fmtN32 (statusRun o old) (statusRun o (List.replicate o.k (some 0)))

/-- ATOM (R318). -/
def execAtom (ty : Fmt) (x : XM) (s : State) : Out :=
  let o := operands s
  .next (fireRmw ty x s o fun j => (laneAt o.b j).map fun z old => atomNew ty x.aop old z)

/-- CAS (R327). -/
def execCas (ty : Fmt) (x : XM) (s : State) : Out :=
  let o := operands s
  .next (fireRmw ty x s o fun j =>
    match laneAt o.b j, laneAt o.c j with
    | some b, some c => some fun old => (if old = b then c else old, 0)
    | _, _ => none)

/-! ### PREF (R381) -/

/-- A fill request joins the queue of its slice (R24, R145). -/
def requestLine (s : State) (v : Via) (line : Nat) (tile : Option Nat) (hint : Pol) : State :=
  let asid := v.asid s
  let n := sliceOf s v.part v.die asid line
  let q := SMap.get {} s.slices n
  let f : Fill := { asid := asid, line := line, part := v.part, tile := tile, slice := n, who := v.who, hint := hint }
  { s with slices := SMap.set s.slices n { q with queue := q.queue ++ [f] } }

/-- The bank that a tile-scope PREF of an address also fills (R157, R381). -/
def prefBank (s : State) (v : Via) (va : Nat) : Option Nat :=
  match routeOf s v va with
  | .bank p => some p
  | _ => none

/-- The lines of a range; one that lies in the scratchpad window is dropped. -/
def prefLines (s : State) (v : Via) (x : XM) (va : Nat) : List Nat → State
  | [] => s
  | i :: rest =>
    let line := lineOf va + i
    if isWindow (line * 128) then prefLines s v x va rest
    else prefLines (requestLine s v line (if x.scope = .tile then prefBank s v (line * 128) else none) x.pol) v x va rest

/-- Lines touched by `n` bytes from `va`. -/
def linesIn (va n : Nat) : Nat := (va + n - 1) / 128 - va / 128 + 1

def prefLanes (s : State) (v : Via) (x : XM) : List Lane → State
  | [] => s
  | none :: rest => prefLanes s v x rest
  | some a :: rest =>
    let va := effAddr s x a
    let n := 128 * 2 ^ x.aop.toNat
    if va % 4 ≠ 0 ∨ 2 ^ 56 < va + n then prefLanes s v x rest
    else prefLanes (prefLines s v x va (List.range (linesIn va n))) v x rest

/-- PREF (R381): the lanes' requests are issued, and their status is sent at once. -/
def execPref (x : XM) (s : State) : Out :=
  let o := operands s
  .next (finishStatus (prefLanes s (viaHere s x.scope) x o.a) x.d o (List.replicate o.k (some 0)))

/-! ### DISC, WBK and INV (R163, R335, R352, R424) -/

/-- The lines of one page that lie in [lo, hi), by the page's canonical name: whole lines only, or every line touched. -/
def Line.inSpan (l : Line) (asid : BitVec 8) (page lo hi : Nat) (whole : Bool) : Bool :=
  l.inPage asid page &&
    (let a := lo / 65536 * 65536 + l.line % 512 * 128
     if whole then decide (lo ≤ a ∧ a + 128 ≤ hi) else decide (lo < a + 128 ∧ a < hi))

/-- Writes the dirty copies that `p` picks to main memory, every bank first; the lines stay, clean (R424). -/
def writeBackLines (s : State) (p : Line → Bool) : State :=
  let s := (placesOf s).foldl (fun s q => l1WriteBackAll s q p) s
  (s.l2.filter fun l => l.dirty != 0 && p l).foldl (fun s l => l2Put (writeDram s l) { l with dirty := 0 }) s

/-- Drops the copies that `p` picks, in every bank and in the L2 (R163). -/
def dropLines (s : State) (p : Line → Bool) : State :=
  let s := (placesOf s).foldl (fun s q => l1Set s q fun ls => ls.filter fun l => !p l) s
  { s with l2 := s.l2.filter fun l => !p l }

inductive RangeOp where
  | disc | wbk
deriving DecidableEq, Repr

/-- Acts on [lo, hi), which lies in one 64 KiB page (R335, R424). -/
def rangePage (s : State) (v : Via) (op : RangeOp) (lo hi : Nat) : Acc Unit :=
  let asid := v.asid s
  match translateFor s (sliceOf s v.part v.die asid (lineOf lo) / 32) asid v.who lo (op == .disc) with
  | (s, .error e) => (s, .error e)
  | (s, .ok e) =>
    let s := if tablesFor s asid v.who lo = .cached then s
      else dropOther s (fun l => l.inSpan asid (lineOf lo / 512) lo hi false) e false
    let (s, ca, cl) := canonical s asid lo e
    let page := cl / 512
    match op with
    | .wbk => (writeBackLines s fun l => l.inSpan ca page lo hi false, .ok ())
    | .disc =>
      let s := dropLines s fun l => l.inSpan ca page lo hi true
      (writeBackLines s fun l => l.inSpan ca page lo hi false, .ok ())

/-- The pages of [va, hi) in order; answers where it stopped. -/
def rangePages (s : State) (v : Via) (op : RangeOp) (va hi : Nat) : Nat → State × Option (Nat × MemFault)
  | 0 => (s, none)
  | n + 1 =>
    if hi ≤ va then (s, none)
    else
      let stop := min hi ((va / 65536 + 1) * 65536)
      match rangePage s v op va stop with
      | (s, .error e) => (s, some (va, e))
      | (s, .ok _) => rangePages s v op stop hi n

/-- The non-empty lanes from a number on; `start` is where the first of them goes on, its release performed before (R227). Answers lane,
address and fault where it stopped. -/
def rangeLanes (s : State) (v : Via) (op : RangeOp) (x : XM) (o : Opnds) (start : Option Nat) :
    List Nat → State × Option (Nat × Option Nat × MemFault)
  | [] => (s, none)
  | j :: rest =>
    match laneAt o.a j with
    | none => rangeLanes s v op x o none rest
    | some a =>
      let va := effAddr s x a
      let hi := va + 128 * 2 ^ x.aop.toNat
      if va % 4 ≠ 0 ∨ 2 ^ 56 < hi then (s, some (j, none, faultAlign va))
      else if isWindow va then rangeLanes s v op x o none rest
      else match rangePages (if x.order = .release ∧ start.isNone then releaseAt s v x.scope else s) v op (start.getD va) hi 66 with
        | (s, some (at', e)) => (s, some (j, some at', e))
        | (s, none) => rangeLanes s v op x o none rest

def fireRange (op : RangeOp) (x : XM) (s : State) : State :=
  let o := operands s
  let v := viaHere s x.scope
  let r := resumeHere s
  match rangeLanes s v op x o r.at' ((List.range o.k).drop r.lane) with
  | (s, some (j, at', e)) => accessFault s e none { lane := j, at' := at' }
  | (s, none) => finishStatus s x.d o (List.replicate o.k (some 0))

/-- DISC (R163, R335). -/
def execDisc (x : XM) (s : State) : Out := .next (fireRange .disc x s)
/-- WBK (R424). -/
def execWbk (x : XM) (s : State) : Out := .next (fireRange .wbk x s)

/-- INV (R352): the issuing tile's bank only, nothing translated. Answers the fault where it stopped. -/
def invLanes (s : State) (v : Via) (x : XM) : List Lane → State × Option MemFault
  | [] => (s, none)
  | none :: rest => invLanes s v x rest
  | some a :: rest =>
    let va := effAddr s x a
    let n := 128 * 2 ^ x.aop.toNat
    if va % 4 ≠ 0 ∨ 2 ^ 56 < va + n then (s, some (faultAlign va))
    else if isWindow va then invLanes s v x rest
    else
      let asid := v.asid s
      invLanes (l1Flush s v.place fun l => l.asid == asid && decide (va / 128 ≤ l.line ∧ l.line * 128 < va + n)) v x rest

/-- INV (R352). -/
def execInv (x : XM) (s : State) : Out :=
  let o := operands s
  match invLanes s (viaHere s x.scope) x o.a with
  | (s, some e) => .next (accessFault s e none {})
  | (s, none) => .next (finishStatus s x.d o (List.replicate o.k (some 0)))

/-! ### KV pages (R164, R165, R355, R356) -/

/-- A descriptor (R164). -/
structure Desc where
  w0 : W64
  w1 : W64
deriving DecidableEq, Repr

namespace Desc
def owner (d : Desc) : Nat := (d.w0.extractLsb' 59 5).toNat
def page (d : Desc) : Nat := (d.w0.extractLsb' 16 40).toNat * 65536
def fill (d : Desc) : Nat := (d.w0.extractLsb' 0 13).toNat
def count (d : Desc) : Nat := (d.w1.extractLsb' 48 16).toNat
def rowlog (d : Desc) : Nat := (d.w1.extractLsb' 32 4).toNat
def first (d : Desc) : W32 := d.w1.extractLsb' 0 32
def rowSize (d : Desc) : Nat := 2 ^ (d.rowlog + 4)
def capacity (d : Desc) : Nat := 65536 / 2 ^ (d.rowlog + 4)
def make (owner : Nat) (page : Nat) (fill count rowlog : Nat) (first : W32) : Desc :=
  ⟨BitVec.ofNat 5 owner ++ (0 : BitVec 3) ++ BitVec.ofNat 40 (page / 65536) ++ (0 : BitVec 3) ++ BitVec.ofNat 13 fill,
    BitVec.ofNat 16 count ++ (0 : BitVec 12) ++ BitVec.ofNat 4 rowlog ++ first⟩
/-- A descriptor with another fill or count. -/
def withFill (d : Desc) (n : Nat) : Desc := { d with w0 := d.w0.extractLsb' 13 51 ++ BitVec.ofNat 13 n }
def withCount (d : Desc) (n : Nat) : Desc := { d with w1 := BitVec.ofNat 16 n ++ d.w1.extractLsb' 0 48 }
def bytes (d : Desc) : List Byte := natBytes 8 d.w0.toNat ++ natBytes 8 d.w1.toNat
end Desc

/-- Why a KVAP or KVFK lane stops: a failed access, or PROTECTION with a reason (R355, R356). -/
inductive KvFault where
  | access (e : MemFault)
  | reason (n : Nat)
deriving DecidableEq, Repr

/-- Address of descriptor `i` of a partition's pool (R164). -/
def descAddr (s : State) (part i : Nat) : Nat := ((s.part part).kvpool.extractLsb' 4 52).toNat * 16 + 16 * i

def loadDesc (s : State) (v : Via) (va : Nat) : Acc Desc :=
  match loadWords s v va 4 with
  | (s, .error e) => (s, .error e)
  | (s, .ok l) => (s, .ok ⟨l.getD 1 0 ++ l.getD 0 0, l.getD 3 0 ++ l.getD 2 0⟩)

/-- The descriptor that a slot names, after the checks of R355. -/
def slotDesc (s : State) (v : Via) (slot : Nat) : State × Except KvFault (Nat × Desc) :=
  match loadWord s v slot with
  | (s, .error e) => (s, .error (.access e))
  | (s, .ok i) => match loadDesc s v (descAddr s v.part i.toNat) with
    | (s, .error e) => (s, .error (.access e))
    | (s, .ok d) =>
      if i = 0 ∨ d.count = 0 ∨ 12 < d.rowlog then (s, .error (.reason 1))
      else if d.owner ≠ v.part then (s, .error (.reason 2))
      else (s, .ok (i.toNat, d))

/-- Checks every granule of runs of bytes as writes. -/
def checkRuns (s : State) (v : Via) : List (Nat × Nat) → Acc Unit
  | [] => (s, .ok ())
  | (va, n) :: rest =>
    match ((List.range ((va + n - 1) / 128 - va / 128 + 1)).foldl (fun acc i => match acc with
      | (s, .error e) => (s, .error e)
      | (s, .ok _) => checkWrite s v (max va ((va / 128 + i) * 128))) ((s, .ok ()) : Acc Unit)) with
    | (s, .error e) => (s, .error e)
    | (s, .ok _) => checkRuns s v rest

/-- Writes runs whose checks have passed. -/
def storeRuns (s : State) (v : Via) : List (Nat × List Byte) → State
  | [] => s
  | (va, bs) :: rest => storeRuns (storeBytes s v va bs).1 v rest

/-- The writes of one append (R165): `row` goes to the page of descriptor `d`, index `i`, in place. -/
def appendRuns (s : State) (part i : Nat) (d : Desc) (row : List Byte) : List (Nat × List Byte) :=
  [(d.page + d.fill * d.rowSize, row), (descAddr s part i, (d.withFill (d.fill + 1)).bytes)]

/-- One append to descriptor `d`, index `i`, through the slot at `slot` (R165): the status, and the position when it is 0. -/
def kvAppend (s : State) (v : Via) (slot i : Nat) (d : Desc) (row : List Byte) : Acc (Nat × Lane) :=
  let pos : Lane := some (d.first + BitVec.ofNat 32 d.fill)
  let commit (s : State) (runs : List (Nat × List Byte)) : Acc (Nat × Lane) :=
    match checkRuns s v (runs.map fun r => (r.1, r.2.length)) with
    | (s, .error e) => (s, .error e)
    | (s, .ok _) => (storeRuns s v runs, .ok (0, pos))
  if d.capacity ≤ d.fill then (s, .ok (0x20, none))
  else if d.count < 2 then commit s (appendRuns s v.part i d row)
  else match loadDesc s v (descAddr s v.part 0) with
    | (s, .error e) => (s, .error e)
    | (s, .ok h) =>
      let n := (h.w1.extractLsb' 0 32).toNat
      let free := (h.w1.extractLsb' 32 32).toNat
      if free = 0 ∨ n = 0xFFFFFFFF then (s, .ok (0x21, none))
      else match loadDesc s v (descAddr s v.part n) with
        | (s, .error e) => (s, .error e)
        | (s, .ok x) => match loadWords s v d.page (d.fill * d.rowSize / 4) with
          | (s, .error e) => (s, .error e)
          | (s, .ok old) =>
            let nd := Desc.make d.owner x.page d.fill 1 d.rowlog d.first
            commit s ([(x.page, wordsBytes old),
              (descAddr s v.part 0, (⟨h.w0, BitVec.ofNat 32 (free - 1) ++ x.first⟩ : Desc).bytes),
              (descAddr s v.part i, (d.withCount (d.count - 1)).bytes),
              (slot, natBytes 4 n)] ++ appendRuns s v.part n nd row)

/-- The write-back of a KVAP or KVFK with order release, which comes before the operation of each of its lanes (R178, R355, R356). -/
def releaseKv (s : State) (x : XM) : State :=
  if x.order = .release then releaseAt s (viaHere s x.scope) x.scope else s

/-- One lane of a KVAP: the status and the position. -/
def kvapLane (s : State) (v : Via) (x : XM) (a b : W32) : State × Except KvFault (Nat × Lane) :=
  let slot := effAddr s x a
  if slot % 4 ≠ 0 then (s, .error (.access (faultAlign slot)))
  else match slotDesc s v slot with
    | (s, .error e) => (s, .error e)
    | (s, .ok (i, d)) =>
      let src := (baseVa s (x.aop.extractLsb' 0 3) + b.toNat * d.rowSize) % 2 ^ 56
      if src % 16 ≠ 0 then (s, .error (.access (faultAlign src)))
      else match loadWords (releaseKv s x) v src (d.rowSize / 4) with
        | (s, .error e) => (s, .error (.access e))
        | (s, .ok row) => match kvAppend s v slot i d (wordsBytes row) with
          | (s, .error e) => (s, .error (.access e))
          | (s, .ok r) => (s, .ok r)

/-- Writes a slot of 4 bytes whose check has passed; answers whether its granule kept its poison (R161). -/
def storeSlot (s : State) (v : Via) (va i : Nat) : State × Bool :=
  let bs := natBytes 4 i
  match storeGranule s v (va / 8 * 8) ((List.range 8).map fun k => if va % 8 ≤ k then bs[k - va % 8]? else none) with
  | (s, .ok kept) => (s, kept)
  | (s, .error _) => (s, false)

/-- One lane of a KVFK (R356). -/
def kvfkLane (s : State) (v : Via) (x : XM) (a b : W32) : State × Except KvFault (Nat × Lane) :=
  let src := effAddr s x a
  let dst := effAddr s x b
  if src % 4 ≠ 0 then (s, .error (.access (faultAlign src)))
  else if dst % 4 ≠ 0 then (s, .error (.access (faultAlign dst)))
  else match slotDesc (releaseKv s x) v src with
    | (s, .error e) => (s, .error e)
    | (s, .ok (i, d)) =>
      if d.count = 65535 then (s, .error (.reason 3))
      else
        let desc := descAddr s v.part i
        match checkRuns s v [(desc, 16), (dst, 4)] with
        | (s, .error e) => (s, .error (.access e))
        | (s, .ok _) =>
          let r := storeSlot (storeRuns s v [(desc, (d.withCount (d.count + 1)).bytes)]) v dst i
          (r.1, .ok (if r.2 then 8 else 0, some 0))

/-- Lanes in ascending order: positions, statuses, and the lane and fault where it stopped. -/
def kvLanes (f : State → W32 → W32 → State × Except KvFault (Nat × Lane)) (o : Opnds) (s : State) :
    List Nat → State × List Lane × List Lane × Option (Nat × KvFault)
  | [] => (s, [], [], none)
  | j :: rest =>
    match laneAt o.a j, laneAt o.b j with
    | some a, some b => match f s a b with
      | (s, .error e) => (s, [], [], some (j, e))
      | (s, .ok (st, p)) =>
        let (s, l, d, e) := kvLanes f o s rest
        (s, p :: l, some (BitVec.ofNat 32 st) :: d, e)
    | _, _ =>
      let (s, l, d, e) := kvLanes f o s rest
      (s, none :: l, some 0 :: d, e)

/-- A KV access is performed at the owning slice: not through the tile's L1, whose copy of the line goes first (R164). -/
def viaSlice (s : State) (scope : Scope) : Via := { viaHere s scope with l1 := false, atSlice := true }

def fireKv (s : State) (f : State → W32 → W32 → State × Except KvFault (Nat × Lane))
    (done : State → Opnds → List Lane → List Lane → State) : State :=
  let o := operands s
  let r := resumeHere s
  let (s, l, d, e) := kvLanes f o s ((List.range o.k).drop r.lane)
  match e with
  | some (j, .access e) => accessFault s e (some (natW64 (256 * j))) { lane := j, ta := r.ta ++ l, tb := r.tb ++ d }
  | some (j, .reason n) =>
    faultFiring s codeProtection none (some (natW64 (256 * j + n))) { lane := j, ta := r.ta ++ l, tb := r.tb ++ d }
  | none => done s o (r.ta ++ l) (r.tb ++ d)

/-- KVAP (R165, R355). -/
def execKvap (_ty : Fmt) (x : XM) (s : State) : Out :=
  .next (fireKv s (fun s a b => kvapLane s (viaSlice s x.scope) x a b)
    fun s o l d => finish s x.d fmtN32 fmtN32 (statusRun o l) (statusRun o d))

/-- A fork counts as fired; a slot whose granule kept its poison then takes POISON (R161). -/
def finishFork (x : XM) (s : State) (o : Opnds) (d : List Lane) : State :=
  let kept := (List.range o.k).filterMap fun j =>
    if laneAt d j = some 8 then (laneAt o.b j).map fun b => effAddr s x b / 8 * 8 else none
  let t := finishStatus s x.d o d
  match kept.min? with
  | none => t
  | some g => faultAt t codePoison (some (natW64 g)) none .stored

/-- KVFK (R165, R356). -/
def execKvfk (x : XM) (s : State) : Out :=
  .next (fireKv s (fun s a b => kvfkLane s (viaSlice s x.scope) x a b) fun s o _ d => finishFork x s o d)

/-! ### XFEN, SBAR and BAR -/

/-- Status 0 for every non-empty lane of port a, and an empty lane for every other (R395, R428). -/
def statusLanes (l : List Lane) : List Lane := l.map fun v => v.map fun _ => 0

/-- XFEN (R176, R428): steps 1 and 2 whatever the lanes hold. -/
def execXfen (d : Dst) (before after : BitVec 6) (scope : Scope) (s : State) : Out :=
  let o := operands s
  .next (finishN32 (fence s (viaHere s scope) before after scope) d (statusLanes o.a))


/-- A graph is a ring graph when its parts meet over ring ports: a channel of it has xp 1, or it names an attention engine that
sends to its successor (R21, R243). -/
def isRingGraph (g : GraphImage) : Bool :=
  g.dies.any fun d => d.tiles.any fun t =>
    (t.ins.any fun c => descXp c.desc) || (t.outs.any fun c => descXp c.desc) ||
    t.ctxs.any fun k => (List.range (Image.count k.2.image)).any fun i => match Image.instr k.2.image i with
      | some (.rota _ _ _ _ _) | some (.rgrt _ _ _ _) | some (.rsnd _ _ _) => true
      | _ => false

/-- The graph that a context belongs to is a ring graph. -/
def ofRingGraph (s : State) (c : Ctx) : Bool :=
  (s.part c.part).running.any fun r => r.id == c.launch && isRingGraph r.graph

/-- The engines that a graph's ROTA, RGRT and RSND name; a ring graph names one (R243). -/
def ringEngines (g : GraphImage) : List Nat :=
  (g.dies.flatMap fun d => d.tiles.flatMap fun t => t.ctxs.flatMap fun k =>
    (List.range (Image.count k.2.image)).filterMap fun i => match Image.instr k.2.image i with
      | some (.rota _ e _ _ _) | some (.rgrt _ e _ _) | some (.rsnd _ e _) => some e.toNat
      | _ => none).dedup

/-- The dies of a graph that take part in its ring. -/
def ringDies (g : GraphImage) : List Nat :=
  (g.dies.filter fun d => !(ringEngines { g with dies := [d] }).isEmpty).map DieConf.die

/-- The other packages that a graph reaches, in ascending order: those of its cut edges, and those of its ring's neighbours (R217, R242). A
graph that reaches none lies in its package (R21; DEDUCED, log 79). -/
def farPackages (s : State) (g : GraphImage) : List (BitVec 8) :=
  let ofChan (c : ChanConf) : List (BitVec 8) := if descXp c.desc then [c.desc.extractLsb' 26 8] else []
  let ofDie (d : Nat) : List (BitVec 8) :=
    if ringEn (ringReg s d) then [(ringReg s d).extractLsb' 35 8, (ringReg s d).extractLsb' 21 8] else []
  let l := (g.dies.flatMap fun d => d.tiles.flatMap fun t => (t.ins ++ t.outs).flatMap ofChan) ++ (ringDies g).flatMap ofDie
  ((List.range 256).map (BitVec.ofNat 8)).filter fun p => p != s.package && l.contains p

/-- The other packages that the graph of a context reaches. -/
def farOf (s : State) (c : Ctx) : List (BitVec 8) :=
  match (s.part c.part).running.find? fun r => r.id = c.launch with
  | some r => farPackages s r.graph
  | none => []

/-- The instance of the packages of a ring graph, by the other packages that it reaches; the package itself where it reaches none
(R171). -/
def ringInstance (far : List (BitVec 8)) : Nat := 3000 + (far.map fun p => 2 ^ (p.toNat + 1)).sum

/-- Scope instance of a barrier, set by the issuing tile (R171, R321); `far`: the other packages that its graph reaches. -/
def scopeInstance (f : Focus) (far : List (BitVec 8)) : Scope → Nat
  | .tile => 1 + f.place
  | .die => 2000 + f.die
  | .package => 3000
  | .ring | .system => ringInstance far

/-- The open episode of a key takes an arrival, or one begins (R179, R287): `who` is its firing and lane, none for an arrival of
another package (R321). -/
def joinEpisode (s : State) (part obj : Nat) (scope : Scope) (inst need : Nat) (who : Option (Nat × Nat × Nat × Nat)) : State :=
  let add (e : Episode) : Episode := match who with
    | some w => { e with arrivals := e.arrivals ++ [w] }
    | none => { e with far := e.far + 1 }
  match s.episodes.find? fun e => e.part = part ∧ e.obj = obj ∧ e.inst = inst ∧ !e.full with
  | some e => { s with episodes := s.episodes.map fun x => if x.id = e.id then add x else x }
  | none => { s with
      episodes := s.episodes ++ [add ⟨s.nextEpisode, part, obj, scope, inst, need, [], 0⟩]
      nextEpisode := s.nextEpisode + 1 }

/-- An arrival of another package is withdrawn there (R287, R321). -/
def leaveEpisode (s : State) (part obj : Nat) (far : List (BitVec 8)) : State :=
  { s with episodes := (s.episodes.map fun e =>
      if e.part = part ∧ e.obj = obj ∧ e.inst = ringInstance far ∧ !e.full then { e with far := e.far - 1 } else e).filter fun e =>
        e.full || !e.arrivals.isEmpty || decide (0 < e.far) }

/-- A lane of the BAR in focus arrives: it joins the open episode of its key, or begins one (R179, R287). -/
def arrive (s : State) (obj : BitVec 6) (scope : Scope) (n : BitVec 8) (lane : Nat) : State :=
  let f := s.focus
  joinEpisode s s.here.part obj.toNat scope (scopeInstance f (farOf s s.here) scope) (n.toNat + 1)
    (some (f.ctxId, f.ins, f.frame, lane))

/-- Lanes of the BAR in focus whose episodes had filled before a snapshot froze its context (R321). -/
def doneLanes (s : State) : List Nat :=
  (resumeHere s).ta.zipIdx.filterMap fun e => e.1.map fun _ => e.2

def arriveLanes (s : State) (obj : BitVec 6) (scope : Scope) (n : BitVec 8) (done : List Nat) : List Lane → Nat → State
  | [], _ => s
  | none :: t, j => arriveLanes s obj scope n done t (j + 1)
  | some _ :: t, j =>
    arriveLanes (if done.contains j then s else arrive (releaseAt s (viaHere s scope) scope) obj scope n j) obj scope n done t (j + 1)

/-- The empty lanes of a firing, sent at once (R287). -/
def sendEmpty (s : State) (d : Dst) (v : Lane) : List Lane → Nat → State
  | [], _ => s
  | some _ :: t, j => sendEmpty s d v t (j + 1)
  | none :: t, j => sendEmpty (sendLane s d j v) d v t (j + 1)

/-- The cut of the SBAR in focus is performed at its scope (R172): the tile's dirty lines recorded narrower are written back. Lanes that
waited go one by one. -/
def endSbar (s : State) (d : Dst) (scope : Scope) (again : Bool) (a : List Lane) : State :=
  let s := releaseAt s (viaHere s scope) scope
  if again then finishLanes (a.zipIdx.foldl (fun s e => if e.1.isSome then sendLane s d e.2 (some 0) else s) s) d (statusLanes a)
  else finishN32 s d (statusLanes a)

/-- SBAR (R175, R395, R396). The units' accesses are performed when they are issued, but for one that a fault has stopped: the cut is
taken when the firing fires, and waits for those. The empty lanes go at once. While a named unit is frozen no cut is taken. -/
def execSbar (d : Dst) (units : BitVec 5) (scope : Scope) (s : State) : Out :=
  let o := operands s
  let f := s.focus
  let named := sbarUnits units
  let again := s.here.resumes.any fun x => x.1 = f.ins ∧ x.2.1 = f.frame
  let cut := (resumeHere s).cut
  let wait (cut : Option (List Nat)) : State :=
    addResume (if again then s else sendEmpty s d none o.a 0) f.ctxId f.ins f.frame f.k { cut := cut }
  if !o.anyLane then .next (finishN32 s d o.a)
  else if !sbarReady s f.place named cut then .next (wait cut)
  else if cut.isSome ∨ !named.any (cutWaits s f.place) then .next (endSbar s d scope again o.a)
  else .next (wait (some (named.filter (cutWaits s f.place))))

/-- BAR (R287): each non-empty lane releases and arrives, and the empty ones are sent at once; the firing waits for its episodes. A
firing that goes on after a freeze has sent the empty lanes before. Empty lanes alone need no wait. -/
def execBar (d : Dst) (obj : BitVec 6) (scope : Scope) (n : BitVec 8) (s : State) : Out :=
  let o := operands s
  let again := s.here.resumes.any fun x => x.1 = s.focus.ins ∧ x.2.1 = s.focus.frame
  let done := doneLanes s
  if o.anyLane then
    let s := if again then s else sendEmpty s d none o.a 0
    .next (beginWork (arriveLanes s obj scope n done o.a 0) (.barrier done))
  else .next (finishN32 s d o.a)

end Sys2Proof.Machine
end

