-- ==== Sys2Proof/Machine/Units.lean ====
section
/-! DEFINITION. The stream operator units of a tile: their ports and status (R112, R113) and one event for each step of
READ, WRITE, QUEUE, FANOUT, ROUTE, MERGE, REORDER, GATHER, INTERSECT, SELECT, REDUCE and CONVERT (R114 to R126, R289, R434). -/
/-- A token that stands for bytes of the scratchpad which are none, or which cannot be read, met as the `n`-th open value of a run
(log 50). -/
opaque Sys2Proof.Config.freeToken : Nat → Sys2Proof.Machine.Token

namespace Sys2Proof.Machine
open Sys2Proof

/-! ### Ports, sending and status -/

/-- Input channel end that feeds a port of unit `u`. -/
def unitIn (s : State) (place u port : Nat) : Option Nat :=
  ((List.range 64).find? fun n =>
    let ic := s.inc (place * 64 + n)
    decide (ic.sink = .unit u port) && descEn ic.desc).map (place * 64 + ·)

/-- Output channel end that a port of unit `u` sends on. -/
def unitOut (s : State) (place u port : Nat) : Option Nat :=
  ((List.range 64).find? fun n =>
    let oc := s.outc (place * 64 + n)
    decide (oc.src = .unit u port) && descEn oc.desc).map (place * 64 + ·)

/-- A splice waits for the unit, and EOS has passed on the channel: what stands there belongs to the successor (R220). -/
def portShut (s : State) (place u i : Nat) : Bool :=
  (if u = 32 then (s.island place).spliced else (s.unit (place * 64 + u)).spliced) && (s.inc i).eos

/-- The head token of a port, as the unit may take it. -/
def headOf (s : State) (place u port : Nat) : Option (Nat × Token) :=
  (unitIn s place u port).bind fun i => if portShut s place u i then none else (s.inc i).queue.head?.map fun t => (i, t)

/-- Sends what credits allow; tokens of one port stay in order, and an unbound port's tokens go nowhere. -/
def drainList (s : State) (place u : Nat) : List (Nat × Token) → List Nat → State × List (Nat × Token)
  | [], _ => (s, [])
  | (p, t) :: rest, blocked =>
    match unitOut s place u p with
    | none => drainList s place u rest blocked
    | some i =>
      if !blocked.contains p && canSend s i then drainList (sendOn s i t) place u rest blocked
      else
        let r := drainList s place u rest (p :: blocked)
        (r.1, (p, t) :: r.2)

def drain (s : State) (place u : Nat) : State :=
  let i := place * 64 + u
  let r := drainList s place u (s.unit i).out []
  editUnit r.1 i fun o => { o with out := r.2 }

/-- Tokens made wait in the unit for their credits. -/
def emit (s : State) (place u : Nat) (ts : List (Nat × Token)) : State :=
  editUnit s (place * 64 + u) fun o => { o with out := o.out ++ ts.filter fun e => (unitOut s place u e.1).isSome }

def unitReady (o : OpUnit) : Bool := o.active && !o.frozen && !o.stopped

/-- The unit has passed its EOS: it has sent what it made, and the last token of each of its inputs was EOS (R219). -/
def unitPassed (s : State) (place u : Nat) : Bool :=
  let o := s.unit (place * 64 + u)
  if u < 20 then o.ended
  else o.out.isEmpty && o.toks.isEmpty && o.store.isEmpty && (List.range 64).all fun n =>
    match (s.inc (place * 64 + n)).sink with
    | .unit v _ => v != u || !descEn (s.inc (place * 64 + n)).desc || (s.inc (place * 64 + n)).eos
    | _ => true

/-- The unit takes tokens: a unit that a splice waits for takes none behind its EOS (R220), and one that a barrier holds none at all
(R175). -/
def unitOpen (s : State) (place u : Nat) : Bool :=
  unitReady (s.unit (place * 64 + u)) && !sbarHolds s place u && !((s.unit (place * 64 + u)).spliced && unitPassed s place u)

/-- One step of a unit: what it has made leaves first, then `f` takes a token when nothing waits. -/
def unitStep (s : State) (place u : Nat) (f : State → State) : State :=
  let i := place * 64 + u
  if unitOpen s place u then
    let s := drain s place u
    if (s.unit i).out.isEmpty then drain (f s) place u else s
  else s

/-- The kind's event count rises, saturating (R112). -/
def countUnit (s : State) (i n : Nat) : State :=
  editUnit s i fun o => { o with cnt := if 2 ^ 24 ≤ o.cnt.toNat + n then 0xFFFFFF else o.cnt + BitVec.ofNat 24 n }

def endUnit (s : State) (i : Nat) : State := editUnit s i fun o => { o with ended := true }

/-- Flags raised by a unit go to the context of the token's tag (R52, R112). -/
def raiseAt (s : State) (id : Nat) (f : FpFlags) : State :=
  let c := s.ctx id
  s.setCtx id { c with fpflags := raiseFlags c.fpflags f }

/-- An access fault stops the unit before the token; the owning context takes it (R434). -/
def unitFault (s : State) (place u : Nat) (e : MemFault) (lane : Nat) : State :=
  let i := place * 64 + u
  let o := s.unit i
  takeFault (editUnit s i fun o => { o with stopped := true, halfway := true }) (place * 8 + o.owner) e.code (sourceAt place u) 0 0
    (some (natW64 e.va)) (some (natW64 lane)) (.unit i) none

/-- Busy: the unit holds a token, or state of a stream that has not ended: a READ under way, a WRITE past its start, a row, a
container, a place in turn (R112). -/
def unitBusy (u : Nat) (o : OpUnit) : Bool :=
  !o.out.isEmpty || !o.toks.isEmpty || !o.store.isEmpty || o.acc.any Option.isSome || o.got || !o.rows.isEmpty || !o.elts.isEmpty ||
    (!o.ended && (decide (u < 20) && o.started || o.i0 != 0 || o.i1 != 0 || o.i2 != 0 || o.i3 != 0 || o.n != 0 || o.cur != 0 ||
      !o.done.isEmpty || o.last.any Option.isSome))

/-- Blk: the unit waits for an output credit (R112): what it has made, the next token of a READ or a QUEUE, or the head token of a
FANOUT. -/
def unitBlocked (s : State) (place u : Nat) : Bool :=
  let o := s.unit (place * 64 + u)
  let full (port : Nat) : Bool := match unitOut s place u port with
    | some ch => !canSend s ch
    | none => false
  !o.out.isEmpty ||
  (match u with
    | 18 | 19 => o.active && o.started && !o.ended && full 0
    | 22 => !o.store.isEmpty && full 0
    | 23 => (headOf s place 23 0).isSome && (List.range 4).any fun n => (o.p.getD 0 0).getLsbD n && full n
    | _ => false)

/-- Status word (R112). -/
def unitStatus (s : State) (place u : Nat) : W32 :=
  let o := s.unit (place * 64 + u)
  (BitVec.ofBool (unitBusy u o)) ++ (BitVec.ofBool (unitBlocked s place u)) ++ (0 : BitVec 6) ++ o.cnt

/-- Some of a head token's lanes have been taken, or a fault has stopped the unit before or in a token: the unit is inside a token, where
no parameter write takes effect (R112). -/
def unitMidToken (s : State) (place u : Nat) : Bool :=
  (s.unit (place * 64 + u)).halfway || (List.range 64).any fun n =>
    (s.inc (place * 64 + n)).cut && (match (s.inc (place * 64 + n)).sink with
      | .unit v _ => v == u
      | _ => false)

/-! ### READ and WRITE (R114, R115, R434) -/

/-- The data format of READ, WRITE and GATHER. The spec gives p0.fmt the reset value 0, which is no format, and names no format for a
unit whose p0 nothing has written: it acts as n32 (DESIGN CHOICE, log 48). -/
def unitFmt (o : OpUnit) : Fmt := (Fmt.ofCode ((o.p.getD 0 0).extractLsb' 25 4)).getD .n32
def unitKey (o : OpUnit) : BitVec 12 := (o.p.getD 0 0).extractLsb' 11 12
def extent (o : OpUnit) (d : Nat) : Nat := (o.p.getD (2 + d) 0).toNat
/-- Class that closes dimension `d`; 0 for none. -/
def dimClass (o : OpUnit) (d : Nat) : BitVec 4 := (o.p.getD 1 0).extractLsb' (28 - 4 * d) 4

/-- Base address of a unit's accesses: the owning context's base register. -/
def unitBase (s : State) (place : Nat) (o : OpUnit) : Nat :=
  (((s.ctx (place * 8 + o.owner)).bases.getD ((o.p.getD 0 0).extractLsb' 29 3).toNat 0).extractLsb' 0 56).toNat

/-- Start of the row (i3, i2, i1) of a READ or WRITE. -/
def rowStart (s : State) (place : Nat) (o : OpUnit) : Nat :=
  let st (n : Nat) : Int := (o.p.getD n 0).toInt
  let off : Int := (o.p.getD 10 0 ++ o.p.getD 9 0).toInt
  (((unitBase s place o : Int) + off + o.i1 * st 6 + o.i2 * st 7 + o.i3 * st 8) % 2 ^ 56).toNat

/-- Issuer of the accesses of unit `u`: path S, die scope (R170). -/
def viaUnit (s : State) (place u : Nat) (o : OpUnit) : Via :=
  { place := place, part := (s.ctx (place * 8 + o.owner)).part, l1 := true, scope := .die
    who := some (.op (place / 256) (place % 256) u) }

/-- The step closes dimension `d` (R114, R376). -/
def closesDim (o : OpUnit) : Nat → Bool
  | 0 => true
  | 1 => decide (extent o 1 ≤ o.i1 + 1)
  | 2 => decide (extent o 1 ≤ o.i1 + 1) && decide (extent o 2 ≤ o.i2 + 1)
  | _ => decide (extent o 1 ≤ o.i1 + 1) && decide (extent o 2 ≤ o.i2 + 1) && decide (extent o 3 ≤ o.i3 + 1)

/-- Marks of the current step, innermost first. -/
def stepMarks (o : OpUnit) : List MarkClass :=
  (List.range 4).filterMap fun d => if closesDim o d then MarkClass.ofCode (dimClass o d) else none

/-- Moves to the next step once the step's elements and marks have gone. -/
def readSettle (o : OpUnit) : OpUnit :=
  if o.past || decide (o.i0 < extent o 0) || decide (o.dim < (stepMarks o).length) then o
  else
    let o := { o with i0 := 0, dim := 0, skipping := 0 }
    if closesDim o 3 then { o with i1 := 0, i2 := 0, i3 := extent o 3, past := true }
    else if closesDim o 2 then { o with i1 := 0, i2 := 0, i3 := o.i3 + 1 }
    else if closesDim o 1 then { o with i1 := 0, i2 := o.i2 + 1 }
    else { o with i1 := o.i1 + 1 }

/-- Words of consecutive lanes, each with its own fault. -/
def readLanes (s : State) (v : Via) (va : Nat) (bad : Bool) : Nat → State × List (Except MemFault W32)
  | 0 => (s, [])
  | n + 1 =>
    let r : Acc W32 := if bad then (s, .error (faultAlign va)) else loadWord s v va
    let q := readLanes r.1 v (va + 4) bad n
    (q.1, r.2 :: q.2)

/-- The lane of the first fault. -/
def firstFault : List (Except MemFault W32) → Nat → Option (Nat × MemFault)
  | [], _ => none
  | .error e :: _, j => some (j, e)
  | .ok _ :: t, j => firstFault t (j + 1)

def okLane : Except MemFault W32 → Lane
  | .ok w => some w
  | .error _ => none

/-- Zeroes the invalid elements of a run's final lane (R34). -/
def trimLast (ty : Fmt) (count : Nat) (l : List Lane) : List Lane :=
  l.zipIdx.map fun e => if e.2 + 1 = l.length then e.1.map fun w => w &&& BitVec.ofNat 32 (validMask ty count) else e.1

/-- The next data token of a READ. -/
def readData (s : State) (place u ch : Nat) : State :=
  let i := place * 64 + u
  let o := s.unit i
  let ty := unitFmt o
  let row := rowStart s place o
  let va := (row + o.i0 * elemWidth ty / 8) % 2 ^ 56
  let rem := extent o 0 - o.i0
  let n := min (min 32 (max 1 ((128 - va % 128) / 4))) ((rem + ty.epl - 1) / ty.epl)
  let bad := decide (row % 4 ≠ 0)
  let (s, l) := readLanes s (viaUnit s place u o) va bad n
  match firstFault l 0, o.skipping with
  | some (j, e), 0 => unitFault s place u (if bad then faultAlign row else e) j
  | _, _ =>
    let last := min rem (n * ty.epl) - (n - 1) * ty.epl
    let count := if last < ty.epl then last else 0
    let tok := Token.make (BitVec.ofNat 3 o.owner) 0 ty.code (unitKey o) (BitVec.ofNat 4 count) (trimLast ty count (l.map okLane))
    editUnit (sendOn s ch tok) i fun o =>
      readSettle { o with i0 := min (extent o 0) (o.i0 + n * ty.epl), halfway := false, skipping := if bad then 2 else 0 }

/-- READ_EMIT (R114): the next data token or mark, once the channel grants a credit. -/
def execReadEmit (die tile unit : Nat) (s : State) : Out :=
  let place := placeOf die tile
  let u := 18 + unit
  let i := place * 64 + u
  let o := s.unit i
  if !unitReady o || !o.started || o.ended || sbarHolds s place u then .next s
  else if !o.past && extent o 0 ≤ o.i0 && (stepMarks o).length ≤ o.dim then .next (s.setUnit i (readSettle o))
  else match unitOut s place u 0 with
    | none => .next s
    | some ch =>
      if !canSend s ch then .next s
      else
        let mk (c : MarkClass) : Token := .mark (BitVec.ofNat 3 o.owner) c 0
        if o.past then .next (endUnit (sendOn s ch (mk .eos)) i)
        else if o.i0 < extent o 0 then .next (readData s place u ch)
        else match (stepMarks o)[o.dim]? with
          | some c => .next (editUnit (sendOn s ch (mk c)) i fun o => readSettle { o with dim := o.dim + 1 })
          | none => .next s

/-- Dimensions that no mark closes wrap as soon as they are full; `all` wraps every full dimension (R115). -/
def writeWrap (o : OpUnit) (all : Bool) : OpUnit :=
  let full (d pos : Nat) : Bool := decide (extent o d ≤ pos) && (all || dimClass o d == 0)
  let o := if full 0 o.i0 && decide (0 < extent o 0) then { o with i0 := 0, i1 := o.i1 + 1 } else o
  let o := if full 1 o.i1 then { o with i1 := 0, i2 := o.i2 + 1 } else o
  if full 2 o.i2 then { o with i2 := 0, i3 := o.i3 + 1 } else o

/-- The dimensions above `k` that are full wrap before a mark closes dimension `k`: the row that it ends stands where a lane of it would
stand (DEDUCED, log 77: R115 gives no other place for a row behind the last one of its dimension). -/
def writeCarry (o : OpUnit) (k : Nat) : OpUnit :=
  let o := if k < 1 ∧ extent o 1 ≤ o.i1 then { o with i1 := 0, i2 := o.i2 + 1 } else o
  if k < 2 ∧ extent o 2 ≤ o.i2 then { o with i2 := 0, i3 := o.i3 + 1 } else o

/-- The start of the next index of dimension `k + 1`. -/
def nextIndex (o : OpUnit) : Nat → OpUnit
  | 0 => { o with i0 := 0, i1 := o.i1 + 1 }
  | 1 => { o with i0 := 0, i1 := 0, i2 := o.i2 + 1 }
  | 2 => { o with i0 := 0, i1 := 0, i2 := 0, i3 := o.i3 + 1 }
  | _ => { o with i0 := 0, i1 := 0, i2 := 0, i3 := extent o 3 }

/-- A mark that closes dimension `k` (R115); a dimension that it fills and that no mark closes wraps at once. -/
def writeMark (o : OpUnit) (k : Nat) : OpUnit := writeWrap (nextIndex (writeCarry o k) k) false

/-- Stores the valid elements of one lane; answers its status. -/
def storeLane (s : State) (v : Via) (va : Nat) (w : W32) (mask : Nat) : Acc (BitVec 8) :=
  if va % 4 ≠ 0 then (s, .error (faultAlign va))
  else match checkWrite s v va with
    | (s, .error e) => (s, .error e)
    | (s, .ok _) =>
      let r := stGranule s v (va / 8 * 8) [(0, va, w, BitVec.ofNat 32 mask)]
      (r.1, .ok (if r.2 then 8 else 0))

/-- Stores the lanes of a token from a position on: the unit as moved on, the lanes past the shape, and the lane and fault
where it stopped. A store into a granule that keeps its poison is made, its status is 8, and it takes POISON (R161, R434). `lenient`
leaves affected lanes unstored. A lane that begins inside the shape and reaches beyond ext0 is stored whole (R115 does not say: DESIGN
CHOICE, log 49). -/
def writeLanes (s : State) (place u : Nat) (o : OpUnit) (ty : Fmt) (count : Nat) (lenient : Bool) :
    List Lane → Nat → State × OpUnit × Nat × Option (Nat × MemFault)
  | [], _ => (s, o, 0, none)
  | l :: rest, j =>
    let o := writeWrap o true
    if extent o 3 ≤ o.i3 ∨ extent o 0 = 0 then
      let (s, o, n, e) := writeLanes s place u o ty count lenient rest (j + 1)
      (s, o, n + 1, e)
    else
      let va := (rowStart s place o + o.i0 * elemWidth ty / 8) % 2 ^ 56
      let mask := validMask ty (if rest.isEmpty then count else 0)
      let r : Acc (BitVec 8) := match l with
        | none => (s, .ok 0)
        | some w => storeLane s (viaUnit s place u o) va w mask
      let next := writeWrap { o with i0 := o.i0 + ty.epl } false
      match r.2, lenient with
      | .error e, false => (r.1, o, 0, some (j, e))
      | .error _, true => writeLanes r.1 place u next ty count lenient rest (j + 1)
      | .ok st, false =>
        if st = 0 then writeLanes r.1 place u next ty count lenient rest (j + 1)
        else (r.1, { o with status := o.status ||| st }, 0, some (j, faultPoison (va / 8 * 8)))
      | .ok st, true => writeLanes (if st = 0 then r.1 else s) place u next ty count lenient rest (j + 1)

def writeToken (s : State) (place u ch : Nat) (t : Token) : State :=
  let i := place * 64 + u
  let o := s.unit i
  match t with
  | .data _ _ _ _ n l =>
    let (s, o', past, e) := writeLanes s place u o (unitFmt o) n.toNat (o.skipping != 0) l 0
    match e with
    | some (j, e) => unitFault (editUnit s i fun x => { x with status := o'.status }) place u e j
    | none => countUnit (consume (s.setUnit i { o' with skipping := 0, halfway := false }) ch) i past
  | .mark c m _ =>
    if m = .eos then
      let done := Token.make c 0 fmtN32 0 0 [some (o.status.zeroExtend 32)]
      endUnit (emit (consume s ch) place u [(0, done)]) i
    else match (List.range 4).find? fun d => dimClass o d = m.code with
      | some d => consume (s.setUnit i (writeMark o d)) ch
      | none => countUnit (consume s ch) i 1

/-- WRITE_STORE (R115). -/
def execWriteStore (die tile unit : Nat) (s : State) : Out :=
  let place := placeOf die tile
  .next (unitStep s place (20 + unit) fun s =>
    match headOf s place (20 + unit) 0 with
    | some (ch, t) => writeToken s place (20 + unit) ch t
    | none => s)

/-! ### QUEUE and FANOUT (R113, R116) -/

/-- A token as it lies in the scratchpad (R116): the header that it has on input channel `chan`, the mask, and 128 bytes of payload. What
the spec does not fix of the 144 bytes, the lanes that are empty or past the run, is zero (DESIGN CHOICE, log 50). -/
def tokenBytes (chan : BitVec 6) (t : Token) : List Byte :=
  let l := t.lanes
  let mask := (l.zipIdx.map fun e => if e.1.isNone then 2 ^ e.2 else 0).sum
  natBytes 8 (t.header chan 0).toNat ++ natBytes 4 mask ++ natBytes 4 0 ++
    (List.range 32).flatMap fun j => natBytes 4 ((l.getD j none).getD 0).toNat

/-- Writes a token into the scratchpad at an offset; its eighteen granules get fresh ECC (R116, R119, R159). -/
def storeToken (s : State) (place off : Nat) (chan : BitVec 6) (t : Token) : State :=
  let x := s.tile place
  s.setTile place { x with
    scratch := x.scratch.writeBytes off ((tokenBytes chan t).map some)
    poison := x.poison.filter fun g => !(decide (off / 8 ≤ g ∧ g < off / 8 + 18)) }

/-- The token that a stored header, mask and payload stand for; none for a format or class that no token has. -/
def Token.ofStored (h : W64) (mask : W32) (payload : Nat → W32) : Option Token :=
  let ctx := h.extractLsb' 61 3
  let fmt := h.extractLsb' 40 4
  if fmt = 1 then (MarkClass.ofCode (h.extractLsb' 36 4)).map fun c => .mark ctx c (h.extractLsb' 24 12)
  else if fmt = 5 then none
  else some (.data ctx (h.extractLsb' 49 12) fmt (h.extractLsb' 28 12) (h.extractLsb' 24 4)
    ((List.range ((h.extractLsb' 44 5).toNat + 1)).map fun j => if fmt = 0 ∨ mask.getLsbD j then none else some (payload j)))

/-- Same token with other lanes. -/
def Token.withLanes (t : Token) (l : List Lane) : Token :=
  match t with
  | .data c f fm k n _ => Token.make c f fm k n l
  | t => t

/-- A token that the spec leaves open (log 50). -/
def openToken (s : State) : State × Token := ({ s with draws := s.draws + 1 }, Config.freeToken s.draws)

/-- Reads a token back from the scratchpad (R116, R119). A granule that is poisoned makes the lane it serves fault (R160, R434); `lenient`
reads such a lane as empty, and a token whose header or mask is poisoned as an open token. -/
def loadToken (s : State) (place off : Nat) (lenient : Bool) : State × Except (Nat × MemFault) Token :=
  let x := s.tile place
  let bad (o : Nat) : Bool := x.poison.contains (o / 8)
  let fault (o j : Nat) : State × Except (Nat × MemFault) Token := (s, .error (j, faultPoison (scratchVa (o / 8 * 8))))
  if bad off || bad (off + 8) then
    if lenient then let r := openToken s; (r.1, .ok r.2) else fault (if bad off then off else off + 8) 0
  else match Token.ofStored (x.scratch.word64 off) (x.scratch.word32 (off + 8)) fun j => x.scratch.word32 (off + 16 + 4 * j) with
    | none => let r := openToken s; (r.1, .ok r.2)
    | some t =>
      let hit (j : Nat) : Bool := (t.lanes.getD j none).isSome && bad (off + 16 + 4 * j)
      match (List.range t.lanes.length).find? hit with
      | none => (s, .ok t)
      | some j =>
        if lenient then (s, .ok (t.withLanes (t.lanes.zipIdx.map fun e => if hit e.2 then none else e.1)))
        else fault (off + 16 + 4 * j) j

/-- The first place of 144 bytes from `base` on that no stored token occupies. -/
def freePlace (base : Nat) (store : List (Nat × Nat)) : Nat :=
  let off := ((List.range (2 * store.length + 1)).map fun k => base + 144 * k).find? fun o =>
    store.all fun e => decide (e.2 + 144 ≤ o ∨ o + 144 ≤ e.2)
  off.getD base

/-- Takes the head token without a credit: the place is granted again when the token leaves the QUEUE (R116). -/
def takeHead (s : State) (i : Nat) : State :=
  let ic := s.inc i
  match ic.queue with
  | [] => s
  | t :: rest => s.setInc i { ic with queue := rest, eos := t.isEos, cut := false }

def queueCap (o : OpUnit) : Nat := ((o.p.getD 0 0).extractLsb' 0 17).toNat

/-- The producer of a QUEUE gets a credit for every free place that neither a credit nor a token on the way to it stands for (R116). Where
a parameter write has taken places away, no credit goes out until enough tokens have left. -/
def grantPlaces (s : State) (place : Nat) : State :=
  let o := s.unit (place * 64 + 22)
  match unitIn s place 22 0 with
  | none => s
  | some i =>
    let ic := s.inc i
    if descXp ic.desc then s
    else
      let oc := s.outc (descPeer ic.desc)
      let used := oc.credits + oc.returning + ic.flight.length + ic.queue.length + o.store.length
      s.setOutc (descPeer ic.desc) { oc with returning := oc.returning + (queueCap o - used) }

/-- QUEUE_TOKEN (R116): takes a token into its store, or sends its oldest downstream, read back from the scratchpad. -/
def execQueueToken (die tile : Nat) (send : Bool) (s : State) : Out :=
  let place := placeOf die tile
  let i := place * 64 + 22
  let o := s.unit i
  if !unitOpen s place 22 then .next s
  else if send then
    match o.store, unitOut s place 22 0 with
    | (_, off) :: rest, some ch =>
      if canSend s ch then
        match loadToken s place off (o.skipping != 0) with
        | (s, .error (j, e)) => .next (unitFault s place 22 e j)
        | (s, .ok t) =>
          let s := sendOn s ch t
          let s := editUnit s i fun o => { o with store := rest, ended := o.ended || t.isEos, skipping := 0, halfway := false }
          .next (grantPlaces s place)
      else .next s
    | _, _ => .next s
  else match headOf s place 22 0 with
    | some (ch, t) =>
      if o.store.length < queueCap o then
        let off := freePlace ((o.p.getD 1 0).toNat * 128) o.store
        let s := storeToken s place off (BitVec.ofNat 6 ch) t
        .next (editUnit (takeHead s ch) i fun o => { o with store := o.store ++ [(0, off)] })
      else .next s
    | none => .next s

/-- FANOUT_TOKEN (R113): the head token goes to every enabled output once each holds a credit. -/
def execFanoutToken (die tile : Nat) (s : State) : Out :=
  let place := placeOf die tile
  let i := place * 64 + 23
  let o := s.unit i
  if !unitOpen s place 23 then .next s
  else match headOf s place 23 0 with
    | none => .next s
    | some (ch, t) =>
      let outs := (List.range 4).filterMap fun n => if (o.p.getD 0 0).getLsbD n then unitOut s place 23 n else none
      if outs.all (canSend s) then
        let s := consume (outs.foldl (fun s i => sendOn s i t) s) ch
        .next (if t.isEos then endUnit s i else s)
      else .next s

/-! ### ROUTE (R117, R125) -/

/-- The output that the table or the default gives a key; none when the token is dropped. -/
def routeOutput (o : OpUnit) (key : Nat) : Option Nat :=
  let k := key % 64
  let e := (o.p.getD (2 + k / 8) 0).toNat / 2 ^ (4 * (k % 8)) % 16
  let p0 := (o.p.getD 0 0).toNat
  if 8 ≤ e then some (e % 8) else if p0 / 128 % 2 = 1 then some (p0 / 16 % 8) else none

def boundOuts (s : State) (place u n : Nat) : List Nat := (List.range n).filter fun p => (unitOut s place u p).isSome

def Token.withKey (t : Token) (key : BitVec 12) : Token :=
  match t with
  | .data c f fm _ n l => .data c f fm key n l
  | t => t

/-- Takes `n` lanes off the head of a channel. -/
def takeLanes (s : State) (i n : Nat) : State :=
  match (s.inc i).queue with
  | t :: _ => if n < t.lanes.length then shrinkHead s i n else consume s i
  | [] => s

/-- Predicate mode: pairs the overlap of the two heads (R117). -/
def routePredicate (s : State) (place ch : Nat) (t : Token) : State :=
  match headOf s place 24 1 with
  | none => s
  | some (pc, q) =>
    if q.isMark then consume s pc
    else
      let n := min t.lanes.length q.lanes.length
      let pick (one : Bool) : List Lane := (List.range n).map fun j =>
        match q.lanes.getD j none with
        | some w => if (w != 0) == one then t.lanes.getD j none else none
        | none => none
      let h := t.take n
      let s := emit s place 24 [(0, h.withLanes (pick true)), (1, h.withLanes (pick false))]
      takeLanes (takeLanes s ch n) pc n

/-- A log entry from its two lanes (R125): drop, token index and expert. -/
def logEntry (lo hi : W32) : Bool × Nat × Nat :=
  (lo.getLsbD 27, (hi.extractLsb' 12 20).toNat, ((hi ++ lo : BitVec 64).extractLsb' 36 8).toNat)

/-- The data tokens of the row that a replaying ROUTE holds. -/
def rowData (o : OpUnit) : List Token := (o.toks.map (·.2)).filter fun t => !t.isMark

/-- One copy of the row's data tokens goes to an output; without one that is bound they are dropped and counted (R113, R117). -/
def replayCopy (s : State) (place : Nat) (out : Option Nat) (ts : List Token) : State :=
  match out.filter fun p => (unitOut s place 24 p).isSome with
  | some p => emit s place 24 (ts.map fun t => (p, t))
  | none => countUnit s (place * 64 + 24) ts.length

/-- The whole row has been routed: one that no entry named goes to the default output, and the mark that closes the row to every
bound output (R117, R125). -/
def replayEnd (s : State) (place : Nat) : State :=
  let i := place * 64 + 24
  let o := s.unit i
  let p0 := (o.p.getD 0 0).toNat
  let s := if o.got then s else replayCopy s place (if p0 / 128 % 2 = 1 then some (p0 / 16 % 8) else none) (rowData o)
  let marks := (o.toks.map (·.2)).filter Token.isMark
  let s := emit s place 24 (marks.flatMap fun t => (boundOuts s place 24 8).map fun p => (p, t))
  editUnit s i fun o => { o with toks := [], got := false, started := false, n := o.n + 1 }

/-- Replay with the row complete: takes the next log entry, or ends the row when the next entry names a later one. An expert whose
table entry names no output goes to the default as in key mode (R117; DEDUCED, log 51). -/
def replayEntry (s : State) (place : Nat) : State :=
  let i := place * 64 + 24
  let o := s.unit i
  match headOf s place 24 1 with
  | none => s
  | some (pc, q) =>
    if q.isEos then replayEnd s place
    else if q.isMark then consume s pc
    else
      match q.lanes.getD 0 none, o.last.getD 0 none with
      | l, none =>
        let s := editUnit s i fun o => { o with last := [some (l.getD 0), none] }
        takeLanes s pc 1
      | l, some lo =>
        let (drop, tok, expert) := logEntry lo (l.getD 0)
        if !drop ∧ o.n % 2 ^ 20 < tok then replayEnd s place
        else
          let s := takeLanes (editUnit s i fun o => { o with last := [none, none] }) pc 1
          if drop then s
          else if tok < o.n % 2 ^ 20 then countUnit s i 1
          else
            replayCopy (editUnit s i fun o => { o with got := true }) place (routeOutput o expert)
              ((rowData o).map (·.withKey (BitVec.ofNat 12 expert)))

/-- Replay mode (R125): rows come whole, each closed by ER; then the log entries decide. -/
def routeReplay (s : State) (place : Nat) : State :=
  let i := place * 64 + 24
  let o := s.unit i
  if o.started then replayEntry s place
  else match headOf s place 24 0 with
    | none => s
    | some (ch, t) =>
      match t with
      | .data _ _ _ _ _ _ => consume (editUnit s i fun o => { o with toks := o.toks ++ [(0, t)] }) ch
      | .mark _ c _ =>
        if c = .er then consume (editUnit s i fun o => { o with toks := o.toks ++ [(0, t)], started := true }) ch
        else
          let s := emit (consume s ch) place 24 ((boundOuts s place 24 8).map fun p => (p, t))
          if t.isEos then endUnit s i else s

/-- A lane of the log once the data rows have ended: an entry that names a row already passed is counted, one of a row that never came
goes without a trace (R125). -/
def lateEntry (s : State) (place pc : Nat) (l : Lane) : State :=
  let i := place * 64 + 24
  let o := s.unit i
  match o.last.getD 0 none with
  | none => takeLanes (editUnit s i fun o => { o with last := [some (l.getD 0), none] }) pc 1
  | some lo =>
    let (drop, tok, _) := logEntry lo (l.getD 0)
    let s := takeLanes (editUnit s i fun o => { o with last := [none, none] }) pc 1
    if !drop && decide (tok < o.n % 2 ^ 20) then countUnit s i 1 else s

/-- With no data at its head, ROUTE consumes the marks of its predicate input; once EOS has passed, replay mode also takes the rest of the
log. -/
def routeTail (s : State) (place mode : Nat) : State :=
  match headOf s place 24 1 with
  | none => s
  | some (pc, q) =>
    if q.isMark then consume s pc
    else if mode = 2 then lateEntry s place pc (q.lanes.getD 0 none)
    else s

/-- ROUTE_TOKEN (R117). -/
def execRouteToken (die tile : Nat) (s : State) : Out :=
  let place := placeOf die tile
  let i := place * 64 + 24
  .next (unitStep s place 24 fun s =>
    let o := s.unit i
    let mode := (o.p.getD 0 0).toNat % 4
    if mode = 2 then (if o.ended then routeTail s place mode else routeReplay s place)
    else match headOf s place 24 0 with
      | none => routeTail s place mode
      | some (ch, t) =>
        if t.isMark then
          let s := emit (consume s ch) place 24 ((boundOuts s place 24 8).map fun p => (p, t))
          if t.isEos then endUnit s i else s
        else if mode = 1 then routePredicate s place ch t
        else match routeOutput o t.key.toNat with
          | some p => if (unitOut s place 24 p).isSome then emit (consume s ch) place 24 [(p, t)]
            else countUnit (consume s ch) i 1
          | none => countUnit (consume s ch) i 1)

/-! ### MERGE (R118) -/

def mergeInputs (s : State) (place : Nat) : List Nat := (List.range 4).filter fun n => (unitIn s place 25 n).isSome

/-- The next bound input that has not ended, from `cur` on in turn. -/
def nextInput (ins : List Nat) (cur : Nat) : Option Nat :=
  (List.range 4).findSome? fun k => let n := (cur + k) % 4; if ins.contains n then some n else none

/-- Order mode: containers in turn. -/
def mergeOrder (s : State) (place : Nat) : State :=
  let i := place * 64 + 25
  let o := s.unit i
  let ins := mergeInputs s place
  match nextInput (ins.filter fun n => !o.done.contains n) o.cur with
  | none =>
    if ins.isEmpty then s
    else endUnit (emit s place 25 [(0, .mark (BitVec.ofNat 3 o.owner) .eos 0)]) i
  | some n =>
    match headOf s place 25 n with
    | none => editUnit s i fun o => { o with cur := n }
    | some (ch, t) =>
      let s := consume s ch
      match t with
      | .data _ _ _ _ _ _ => editUnit (emit s place 25 [(0, t)]) i fun o => { o with cur := n }
      | .mark _ c _ =>
        if c = .eos then editUnit s i fun o => { o with done := n :: o.done, cur := (n + 1) % 4 }
        else
          let next := decide (((o.p.getD 0 0).extractLsb' 4 4).toNat ≤ markLevel c)
          editUnit (emit s place 25 [(0, t)]) i fun o => { o with cur := if next then (n + 1) % 4 else n }

/-- The head data token with the smallest key, ties to the lower input. -/
def smallestKey : List (Nat × Token) → Option (Nat × Token)
  | [] => none
  | (i, t) :: rest => match smallestKey rest with
    | some (j, u) => if !t.isMark && t.key.toNat ≤ u.key.toNat then some (i, t) else some (j, u)
    | none => if t.isMark then none else some (i, t)

/-- Key mode. The joint mark is that of the lowest bound input, payload and context tag (DESIGN CHOICE, log 73). -/
def mergeKey (s : State) (place : Nat) : State :=
  let i := place * 64 + 25
  let ins := mergeInputs s place
  let heads := ins.filterMap fun n => headOf s place 25 n
  if heads.length < ins.length ∨ heads.isEmpty then s
  else match smallestKey heads with
    | some (ch, t) => emit (consume s ch) place 25 [(0, t)]
    | none =>
      match heads with
      | [] => s
      | (_, t) :: _ =>
        if heads.all fun h => h.2.cls == t.cls then
          let s := emit (heads.foldl (fun s h => consume s h.1) s) place 25 [(0, t)]
          if t.isEos then endUnit s i else s
        else s

/-- MERGE_JOIN_STREAMS (R118). -/
def execMergeJoinStreams (die tile : Nat) (s : State) : Out :=
  let place := placeOf die tile
  .next (unitStep s place 25 fun s =>
    let o := s.unit (place * 64 + 25)
    if o.ended then s
    else if (o.p.getD 0 0).getLsbD 0 then mergeKey s place else mergeOrder s place)

/-! ### REORDER (R119) -/

/-- The next number that is to leave: `i0` counts those that have left. -/
def reorderNext (o : OpUnit) : Nat := ((o.p.getD 1 0).toNat + o.i0) % 2 ^ 32

/-- Sends the tokens whose turn has come, read back from the window; one whose only lane was its number leaves none to send (DESIGN CHOICE,
log 74). -/
def reorderFlush (s : State) (place : Nat) : Nat → State
  | 0 => s
  | n + 1 =>
    let i := place * 64 + 26
    let o := s.unit i
    match o.store.find? fun e => e.1 = reorderNext o with
    | none => s
    | some e =>
      match loadToken s place e.2 (o.skipping != 0) with
      | (s, .error (j, f)) => unitFault s place 26 f j
      | (s, .ok t) =>
        let s := editUnit s i fun o => { o with store := o.store.filter (· ≠ e), i0 := o.i0 + 1, skipping := 0, halfway := false }
        let r := t.lanes.drop 1
        reorderFlush (if r.isEmpty then s else emit s place 26 [(0, t.withLanes r)]) place n

/-- REORDER_TOKEN (R119). Numbers compare as unsigned; the number behind 2^32 − 1 is 0 (DEDUCED, log 52). The number in an empty lane is a
free value (log 7). -/
def execReorderToken (die tile : Nat) (s : State) : Out :=
  let place := placeOf die tile
  let i := place * 64 + 26
  .next (unitStep s place 26 fun s =>
    let s := reorderFlush s place 64
    let o := s.unit i
    if o.stopped then s
    else match headOf s place 26 0 with
    | none => s
    | some (ch, t) =>
      if t.isMark then
        if o.store.isEmpty then
          let s := emit (consume s ch) place 26 [(0, t)]
          if t.isEos then endUnit s i else s
        else s
      else
        let (s, q) : State × W32 := match t.lanes.getD 0 none with
          | some w => (s, w)
          | none => ({ s with draws := s.draws + 1 }, Config.freeWord s.draws)
        let next := reorderNext o
        if next + 64 ≤ q.toNat then s
        else if q.toNat < next ∨ o.store.any (fun e => e.1 = q.toNat) then countUnit (consume s ch) i 1
        else
          let off := (o.p.getD 0 0).toNat * 128 + 144 * (q.toNat % 64)
          let s := storeToken s place off (BitVec.ofNat 6 ch) t
          reorderFlush (editUnit (consume s ch) i fun o => { o with store := o.store ++ [(q.toNat, off)] }) place 64)

/-! ### GATHER (R120, R434) -/

/-- One element at `va`, in position 0 of its lane. -/
def gatherElement (s : State) (v : Via) (bits va : Nat) (high : Bool) : Acc W32 :=
  let n := max 1 (bits / 8)
  if va % n ≠ 0 then (s, .error (faultAlign va))
  else match loadGranule s v va with
    | (s, .error e) => (s, .error e)
    | (s, .ok (_, true)) => (s, .error (faultPoison (va / 8 * 8)))
    | (s, .ok (b, false)) =>
      let x := leNat ((b.drop (va % 8)).take n)
      (s, .ok (BitVec.ofNat 32 (if bits = 4 then (if high then x / 16 else x % 16) else x)))

/-- The lanes of one index token: values, indices out of range, and the lane and fault where it stopped. The 32 bits of p9 are a signed
offset (DESIGN CHOICE, log 69: R120 gives it no sign). -/
def gatherLanes (s : State) (place : Nat) (o : OpUnit) (lenient : Bool) :
    List Lane → Nat → State × List Lane × Nat × Option (Nat × MemFault)
  | [], _ => (s, [], 0, none)
  | none :: rest, j =>
    let (s, l, n, e) := gatherLanes s place o lenient rest (j + 1)
    (s, none :: l, n, e)
  | some w :: rest, j =>
    let k := w.toInt
    if k < 0 ∨ (extent o 0 : Int) ≤ k then
      let (s, l, n, e) := gatherLanes s place o lenient rest (j + 1)
      (s, none :: l, n + 1, e)
    else
      let bits := elemWidth (unitFmt o)
      let base : Int := unitBase s place o + (o.p.getD 9 0).toInt
      let va := ((base + k * bits / 8) % 2 ^ 56).toNat
      let r := gatherElement s (viaUnit s place 27 o) bits va (k % 2 = 1)
      match r.2, lenient with
      | .error e, false => (r.1, [], 0, some (j, e))
      | r2, _ =>
        let (s, l, n, e) := gatherLanes r.1 place o lenient rest (j + 1)
        (s, okLane r2 :: l, n, e)

/-- GATHER_INDEX (R120). -/
def execGatherIndex (die tile : Nat) (s : State) : Out :=
  let place := placeOf die tile
  let i := place * 64 + 27
  .next (unitStep s place 27 fun s =>
    let o := s.unit i
    match headOf s place 27 0 with
    | none => s
    | some (ch, .data c f _ _ _ l) =>
      let (s, l, n, e) := gatherLanes s place o (o.skipping != 0) l 0
      match e with
      | some (j, e) => unitFault s place 27 e j
      | none =>
        let s := emit (consume s ch) place 27 [(0, Token.make c f (unitFmt o).code (unitKey o) 0 l)]
        countUnit (editUnit s i fun o => { o with skipping := 0, halfway := false }) i n
    | some (ch, t) =>
      let s := emit (consume s ch) place 27 [(0, t)]
      if t.isEos then endUnit s i else s)

/-! ### INTERSECT (R122) -/

/-- The first entry of one side: its two channels, coordinate token and value token. -/
def sideHead (s : State) (place : Nat) (b : Bool) : Option (Nat × Token × Nat × Token) :=
  match headOf s place 28 (if b then 2 else 0), headOf s place 28 (if b then 3 else 1) with
  | some (c, t), some (d, u) => some (c, t, d, u)
  | _, _ => none

/-- Drops the first entry of a side. -/
def dropEntry (s : State) (x : Nat × Token × Nat × Token) : State := takeLanes (takeLanes s x.1 1) x.2.2.1 1

def setLast (s : State) (i : Nat) (b : Bool) (v : Option W32) : State :=
  editUnit s i fun o => { o with last := o.last.set (if b then 1 else 0) v }

/-- The side's first coordinate is out of order, or its lane is empty: it goes with its value. A coordinate is compared with the last one
that was kept, not with one that was dropped (DESIGN CHOICE, log 72). -/
def cleanSide (s : State) (place : Nat) (b : Bool) : Option State :=
  let i := place * 64 + 28
  match sideHead s place b with
  | some x =>
    if x.2.1.isMark then none
    else match x.2.1.lanes.getD 0 none with
      | none => some (dropEntry s x)
      | some w => match (s.unit i).last.getD (if b then 1 else 0) none with
        | some l => if w.toNat ≤ l.toNat then some (countUnit (dropEntry s x) i 1) else none
        | none => none
  | none => none

/-- Both sides stand at a sound entry or a mark. An entry that is skipped is its side's last one, too. -/
def intersectHeads (s : State) (place : Nat) (x y : Nat × Token × Nat × Token) : State :=
  let i := place * 64 + 28
  let a := x.2.1.lanes.getD 0 none
  let b := y.2.1.lanes.getD 0 none
  match x.2.1, y.2.1 with
  | .mark _ c _, .mark _ d _ =>
    if c = d then
      let s := consume (consume (consume (consume s x.1) x.2.2.1) y.1) y.2.2.1
      let s := emit s place 28 [(0, x.2.1), (1, x.2.1), (2, x.2.1)]
      let s := editUnit s i fun o => { o with last := [none, none] }
      if c = .eos then endUnit s i else s
    else s
  | .mark _ _ _, _ => setLast (dropEntry s y) i true b
  | _, .mark _ _ _ => setLast (dropEntry s x) i false a
  | t, _ =>
    let va := (a.getD 0).toNat
    let vb := (b.getD 0).toNat
    if va < vb then setLast (dropEntry s x) i false a
    else if vb < va then setLast (dropEntry s y) i true b
    else
      let one (t : Token) (l : Lane) : Token := (t.take 1).withLanes [l]
      let s := emit s place 28 [(0, one t a), (1, one x.2.2.2 (x.2.2.2.lanes.getD 0 none)),
        (2, one y.2.2.2 (y.2.2.2.lanes.getD 0 none))]
      setLast (setLast (dropEntry (dropEntry s x) y) i false a) i true b

/-- INTERSECT_PAIR (R122). -/
def execIntersectPair (die tile : Nat) (s : State) : Out :=
  let place := placeOf die tile
  .next (unitStep s place 28 fun s =>
    match cleanSide s place false, cleanSide s place true with
    | some s, _ => s
    | none, some s => s
    | none, none =>
      match sideHead s place false, sideHead s place true with
      | some x, some y => intersectHeads s place x y
      | _, _ => s)

/-! ### SELECT (R123 to R125, R289) -/

/-- Cuts a list into pieces of at most 32, with fuel. -/
def pieces {α : Type} : Nat → List α → List (List α)
  | 0, _ => []
  | n + 1, l => if l.isEmpty then [] else l.take 32 :: pieces n (l.drop 32)

/-- A run of any length as tokens of at most 32 lanes (R289). -/
def runTokens (port : Nat) (c : BitVec 3) (fmt : BitVec 4) (key : BitVec 12) (l : List Lane) : List (Nat × Token) :=
  (pieces (l.length + 1) l).map fun p => (port, Token.make c 0 fmt key 0 p)

def deadBit (o : OpUnit) (c : Nat) : Bool := (o.p.getD (3 + c / 32) 0).getLsbD (c % 32)

/-- The two lanes of a routing-log entry (R125). -/
def logLanes (o : OpUnit) (column : Bool) (col rank : Nat) (choice : Option (Nat × W32)) : List Lane :=
  let tbase := ((o.p.getD 2 0).extractLsb' 12 20).toNat
  let ebase := ((o.p.getD 2 0).extractLsb' 0 8).toNat
  let idx := (choice.map (·.1)).getD 0
  let tok := if column then tbase + idx else tbase + o.n
  let exp := if column then ebase + col else idx
  let weight : Nat := match choice with
    | some (_, w) => (roundSat fpBf16 .rne .off 0 (fpF32.decode w.toNat)).bits
    | none => 0
  let e : W64 := BitVec.ofNat 20 tok ++ BitVec.ofNat 8 exp ++ BitVec.ofNat 8 rank ++ BitVec.ofBool choice.isNone ++
    (0 : BitVec 11) ++ BitVec.ofNat 16 weight
  [some (e.extractLsb' 0 32), some (e.extractLsb' 32 32)]

/-- The choices of one set: its tokens, and whether it falls short (R124, R125). -/
def selectSet (o : OpUnit) (c : BitVec 3) (column : Bool) (col : Nat) (scores : List Lane) : List (Nat × Token) × Bool :=
  let p0 := o.p.getD 0 0
  let k := (p0.extractLsb' 21 9).toNat
  let g := ((o.p.getD 1 0).extractLsb' 24 8).toNat
  let lim := ((o.p.getD 1 0).extractLsb' 16 8).toNat
  let ch := raceTake (if g = 0 then 256 else g) lim k (raceOrder scores (deadBit o)) []
  let key : BitVec 12 := if column then BitVec.ofNat 12 (((o.p.getD 2 0).extractLsb' 0 8).toNat + col) else o.key
  let picks : List (Option (Nat × W32)) := (List.range k).map fun m => ch[m]?.map fun i => (i, (scores.getD i none).getD 0)
  let idx := picks.map fun x => some (match x with
    | some (i, _) => BitVec.ofNat 32 i
    | none => (0x80000000 : W32))
  let sc := picks.map fun x => x.map (·.2)
  let log := if p0.getLsbD 16 then picks.zipIdx.flatMap fun e => logLanes o column col e.2 e.1 else []
  (runTokens 0 c fmtN32 key idx ++ runTokens 1 c Fmt.f32.code key sc ++ runTokens 2 c fmtN32 key log, decide (ch.length < k))

/-- Adds candidates up to 256; `got` remembers that some were cut (R123). -/
def addRows (o : OpUnit) (rs : List (List Lane)) : OpUnit :=
  let l := o.rows ++ rs
  { o with rows := l.take 256, got := o.got || decide (256 < l.length) }

/-- An ER in column mode ends the row in `acc`, cut to 32 columns (R123). -/
def endRow (s : State) (i : Nat) : State :=
  let o := s.unit i
  let s := s.setUnit i { addRows o [o.acc.take 32] with acc := [] }
  if 32 < o.acc.length then countUnit s i 1 else s

def allOuts (t : Token) : List (Nat × Token) := [(0, t), (1, t), (2, t)]

/-- The sets of a column-mode container, in ascending column order (R124, R289). -/
def columnSets (o : OpUnit) (c : BitVec 3) : List (List (Nat × Token) × Bool) :=
  (List.range ((o.rows.map List.length).foldl max 0)).map fun col =>
    let r := selectSet o c true col (o.rows.map fun r => r.getD col none)
    (r.1 ++ allOuts (.mark c .er 0), r.2)

/-- The closing mark of a container: its sets leave (R124). -/
def closeSelect (s : State) (place : Nat) (t : Token) : State :=
  let i := place * 64 + 29
  let column := (s.unit i).p.getD 0 0 |>.getLsbD 30
  let s := if column ∧ !(s.unit i).acc.isEmpty then endRow s i else s
  let o := s.unit i
  let sets := if column then columnSets o t.ctx else [selectSet o t.ctx false 0 (o.rows.map fun r => r.getD 0 none)]
  let short := (sets.filter (·.2)).length + (if o.got then 1 else 0)
  let s := countUnit (emit s place 29 (sets.flatMap (·.1) ++ allOuts t)) i short
  editUnit s i fun o => { o with rows := [], acc := [], got := false, key := 0, n := o.n + 1 }

/-- SELECT_SET (R123, R124). A row-mode candidate is kept as a row of one lane. -/
def execSelectSet (die tile : Nat) (s : State) : Out :=
  let place := placeOf die tile
  let i := place * 64 + 29
  .next (unitStep s place 29 fun s =>
    let o := s.unit i
    let p0 := o.p.getD 0 0
    match headOf s place 29 0 with
    | none => s
    | some (ch, t) =>
      let s := consume s ch
      match t with
      | .data _ _ _ k _ l =>
        if p0.getLsbD 30 then editUnit s i fun o => { o with acc := o.acc ++ l }
        else editUnit s i fun o => { addRows o (l.map fun v => [v]) with key := if o.rows.isEmpty then k else o.key }
      | .mark _ c _ =>
        let s := if c.code = p0.extractLsb' 17 4 then closeSelect s place t
          else if c = .er ∧ p0.getLsbD 30 then endRow s i
          else emit s place 29 (allOuts t)
        if c = .eos then endUnit s i else s)

/-! ### REDUCE (R121) -/

def reduceFmt (o : OpUnit) : Fmt := (Fmt.ofCode ((o.p.getD 0 0).extractLsb' 28 4)).getD .i32

/-- The step of REDUCE as LRED numbers it: add, min, max, and, or, xor. -/
def reduceXA (o : OpUnit) : XA :=
  let op := ((o.p.getD 0 0).extractLsb' 25 3).toNat
  let cond := if op = 1 then 2 else if op = 2 then 1 else op
  { atomXA (reduceFmt o) with cond := BitVec.ofNat 3 cond }

/-- Combines the lanes of a token in ascending order; answers the accumulators and the flags. -/
def reduceLanes (o : OpUnit) : List Lane → Nat → List Lane → List Lane × FpFlags
  | [], _, acc => (acc, 0)
  | none :: rest, j, acc => reduceLanes o rest (j + 1) acc
  | some v :: rest, j, acc =>
    let p0 := o.p.getD 0 0
    let k := if p0.getLsbD 24 then j else 0
    let mode := (Rnd.ofCode (p0.extractLsb' 21 3)).getD .rne
    let (x, fl) : W32 × FpFlags := match acc.getD k none with
      | some a => let r := foldStep (reduceXA o) mode a.toNat v.toNat 0; (BitVec.ofNat 32 r.bits, r.flags)
      | none => (v, 0)
    let r := reduceLanes o rest (j + 1) (acc.set k (some x))
    (r.1, fl ||| r.2)

/-- Lanes of the result: up to the highest accumulator that holds a value, at least one. -/
def reduceResult (acc : List Lane) : List Lane :=
  let n := (acc.zipIdx.foldl (fun n e => if e.1.isSome then e.2 + 1 else n) 0)
  (acc ++ [none]).take (max 1 n)

/-- REDUCE_TOKEN (R121). In the lanewise shape lanes are numbered through all the tokens of a row, up to a mark of level 1 or above, and a
lane at position 32 or above is dropped, as R123 drops it (DEDUCED, log 53). -/
def execReduceToken (die tile : Nat) (s : State) : Out :=
  let place := placeOf die tile
  let i := place * 64 + 30
  .next (unitStep s place 30 fun s =>
    let o := s.unit i
    let acc := if o.acc.isEmpty then List.replicate 32 none else o.acc
    match headOf s place 30 0 with
    | none => s
    | some (ch, t) =>
      let s := consume s ch
      match t with
      | .data c _ _ _ _ l =>
        let r := reduceLanes o l o.n acc
        raiseAt (editUnit s i fun o => { o with acc := r.1, got := true, n := o.n + l.length }) (place * 8 + c.toNat) r.2
      | .mark c m _ =>
        let lv := markLevel m
        let L := ((o.p.getD 0 0).extractLsb' 4 3).toNat
        let closes := lv == L || (decide (L < lv) && o.got)
        let res := Token.make c 0 (reduceFmt o).code 0 0 (reduceResult acc)
        let s := if closes then
            editUnit (emit s place 30 [(0, res), (0, t)]) i fun o => { o with acc := [], got := false }
          else if lv = 0 ∨ L < lv then emit s place 30 [(0, t)] else s
        let s := if lv = 0 then s else editUnit s i fun o => { o with n := 0 }
        if m = .eos then endUnit s i else s)

/-! ### CONVERT (R126, R282) -/

/-- Exact value of an element of a block-scaled format with its scale (R42, R44). -/
def scaledVal (ty : Fmt) (bits scale : Nat) : FVal :=
  let x := fpE2m1.decode bits
  let (e, m) := if ty = .bs4x8 then (scale / 2 % 256, 2 + scale % 2) else (scale % 256, 2)
  if e = 255 then .nan false else fmul0 x (.fin false m ((e : Int) - 128))

/-- Lane of the scale stream that holds the scale of element `e` (R43, R45). -/
def scaleLane (ty : Fmt) (e : Nat) : Nat :=
  match ty with
  | .bs4x8 => e / 32 / 3
  | .mx4x8 => e / 32 / 4
  | _ => 65 * (e / 64 / 256) + 1 + e / 64 % 256 / 4

def Fmt.isScaled (t : Fmt) : Bool := t == .bs4x8 || t == .mx4x8 || t == .q16x8

/-- Converts element `e` of the stream; `sc` are the lanes of the scale stream (R126). -/
def convertElt (src ty : Fmt) (mode : Rnd) (sat : Sat) (sc : Nat → W32) (e bits : Nat) (g : W32) : EltRes :=
  match src with
  | .q16x8 =>
    let b := e / 64
    let l := sc (scaleLane src e)
    let d := decodeQ16 bits (sc (65 * (b / 256))).toNat (l.toNat / 2 ^ (8 * (b % 4)) % 256)
    let r := cvtElt .bf16x2 ty mode sat d.1 g
    { r with flags := d.2 ||| r.flags }
  | .bs4x8 | .mx4x8 =>
    let b := e / 32
    let l := (sc (scaleLane src e)).toNat
    let scale := if src = .bs4x8 then l / 2 ^ (9 * (b % 3)) % 512 else l / 2 ^ (8 * (b % 4)) % 256
    match scaledVal src bits scale, ty.isInt with
    | .nan _, false => nanRes (fparam ty) sat g false
    | v, false => roundSat (fparam ty) mode sat g v
    | v, true =>
      let w := elemWidth ty
      roundToInt (intLo (Fmt.signed ty) w) (intHi (Fmt.signed ty) w) w mode g v
  | src => cvtElt src ty mode sat bits g

/-- Element positions of a token, all of every lane: none for an element of an empty lane and for an invalid element of the final
lane, which operators treat as an empty position (R34). -/
def tokenElts (src : Fmt) (count : Nat) (l : List Lane) : List (Option Nat) :=
  l.zipIdx.flatMap fun e =>
    let n := if e.2 + 1 = l.length then validElts src.epl count else src.epl
    (List.range src.epl).map fun k => if k < n then e.1.map fun w => elt (elemWidth src) k w else none

/-- How many invalid positions end a token. -/
def tailInvalid (src : Fmt) (count : Nat) (l : List Lane) : Nat := if l.isEmpty then 0 else src.epl - validElts src.epl count

/-- Converts elements in order from number `e` of the stream. -/
def convertElts (f : Nat → Nat → W32 → EltRes) : List (Option Nat) → Nat → W32 → List (Option Nat) × FpFlags × W32
  | [], _, g => ([], 0, g)
  | none :: t, e, g =>
    let r := convertElts f t (e + 1) g
    (none :: r.1, r.2)
  | some b :: t, e, g =>
    let x := f e b g
    let r := convertElts f t (e + 1) x.gen
    (some x.bits :: r.1, x.flags ||| r.2.1, r.2.2)

/-- Groups of `n`, with fuel. -/
def groupsOf (n : Nat) : Nat → List (Option Nat) → List (List (Option Nat))
  | 0, _ => []
  | k + 1, l => if l.isEmpty then [] else l.take n :: groupsOf n k (l.drop n)

/-- One output token from elements: an output lane whose every position is empty is empty, other empty positions are zeros. -/
def convertToken (ty : Fmt) (c : BitVec 3) (key : BitVec 12) (els : List (Option Nat)) : Token :=
  let lanes := (groupsOf ty.epl 33 els).map fun g =>
    if g.all Option.isNone then none else some (packElts (elemWidth ty) (g.map (·.getD 0)))
  Token.make c 0 ty.code key (BitVec.ofNat 4 (els.length % ty.epl)) lanes

/-- Full runs of 32 lanes leave; the key of a run is that of the token that gave its first element (R282). The last `inv` positions
hold no valid element: they stay, since the final count leaves them out where the run ends there (R34). -/
def convertRuns (ty : Fmt) (c : BitVec 3) (key first : BitVec 12) (inv : Nat) :
    Nat → List (Option Nat) → List (Nat × Token) × List (Option Nat)
  | 0, l => ([], l)
  | n + 1, l =>
    if 32 * ty.epl + inv ≤ l.length then
      let r := convertRuns ty c key key inv n (l.drop (32 * ty.epl))
      ((0, convertToken ty c first (l.take (32 * ty.epl))) :: r.1, r.2)
    else ([], l)

def convertTarget (o : OpUnit) : Option Fmt := Fmt.ofCode ((o.p.getD 0 0).extractLsb' 28 4)

/-- Width of one scale of a scale stream's lane, and how many a lane holds (R43, R45). -/
def scalePacking (src : Fmt) : Nat × Nat := if src = .bs4x8 then (9, 3) else (8, 4)

/-- A lane of a scale stream: its first `valid` scales, and open bits for the scales past the stream's count (R43). The superscale of
q16x8 is one value and not counted. -/
def scaleBits (src : Fmt) (n valid : Nat) (w open' : W32) : W32 :=
  let k := (scalePacking src).1 * valid
  if (src = .q16x8 ∧ n % 65 = 0) ∨ valid = 0 ∨ 32 ≤ k then w
  else
    let m : W32 := BitVec.ofNat 32 (2 ^ k - 1)
    (w &&& m) ||| (open' &&& ~~~m)

/-- The lanes of a scale token behind the `n` that came before. The spec gives no scale for an element whose scale lies in an empty lane,
past the count, or in a lane that never comes: it is a free value (DESIGN CHOICE, log 54). -/
def scaleLanes (src : Fmt) (count : Nat) : State → Nat → List Lane → State × List W32
  | s, _, [] => (s, [])
  | s, n, l :: rest =>
    let valid := if rest.isEmpty then count else 0
    let open' := Config.freeWord s.draws
    let r := scaleLanes src count { s with draws := s.draws + 1 } (n + 1) rest
    (r.1, (match l with
      | some w => scaleBits src n valid w open'
      | none => open') :: r.2)

/-- Lanes of the scale stream that never came, up to `n` of them in all: free values (log 54). -/
def openScales : State → List Lane → Nat → State × List Lane
  | s, acc, 0 => (s, acc)
  | s, acc, n + 1 => openScales { s with draws := s.draws + 1 } (acc ++ [some (Config.freeWord s.draws)]) n

/-- Takes tokens of the scale stream (port 1) into `acc`: `skipping` discards the rest of an ended stream, and `got`
remembers that the stream's EOS has come. -/
def pullScale (s : State) (place : Nat) (src : Fmt) : State :=
  let i := place * 64 + 31
  match headOf s place 31 1 with
  | none => s
  | some (ch, t) =>
    let s := consume s ch
    if t.isEos then
      editUnit s i fun o => if o.skipping = 1 then { o with skipping := 0 } else { o with got := true }
    else if (s.unit i).skipping = 1 then s
    else
      let r := scaleLanes src t.count.toNat s (s.unit i).acc.length t.lanes
      editUnit r.1 i fun o => { o with acc := o.acc ++ r.2.map some }

/-- The last lane of the scale stream that the elements of a token need. -/
def lastScale (o : OpUnit) (src : Fmt) (els : List (Option Nat)) : Option Nat :=
  if Fmt.isScaled src then (els.zipIdx.filter fun e => e.1.isSome).getLast?.map fun e => scaleLane src (o.n + e.2) else none

/-- A data token is converted whole; `ty` is the output format. -/
def convertData (s : State) (place ch : Nat) (src ty : Fmt) (c : BitVec 3) (key : BitVec 12) (count : Nat) (l : List Lane) :
    State :=
  let i := place * 64 + 31
  let o := s.unit i
  let p0 := o.p.getD 0 0
  let els := tokenElts src count l
  let inv := tailInvalid src count l
  let (s, acc) := openScales s o.acc (((lastScale o src els).map (· + 1)).getD 0 - o.acc.length)
  let mode := effRnd ((Rnd.ofCode (p0.extractLsb' 25 3)).getD .rne) (dynMode (s.ctx (place * 8 + c.toNat)).fpmode)
  let sat := (Sat.ofCode (p0.extractLsb' 23 2)).getD .off
  let r := convertElts (convertElt src ty mode sat fun n => (acc.getD n none).getD 0) els o.n (genOf s place 31)
  let s := raiseAt (setGen (consume s ch) place 31 r.2.2) (place * 8 + c.toNat) r.2.1
  let q := convertRuns ty c key (if o.elts.isEmpty then key else o.key) inv 9 (o.elts ++ r.1)
  let s := emit s place 31 q.1
  editUnit s i fun x => { x with
    elts := q.2, acc := acc, i1 := inv
    key := if q.1.isEmpty ∧ !o.elts.isEmpty then o.key else key
    n := o.n + els.length }

/-- A mark flushes the pending elements and passes (R126, R282); the final count leaves out the invalid positions at their end (R34). -/
def convertMark (s : State) (place ch : Nat) (src ty : Fmt) (t : Token) : State :=
  let i := place * 64 + 31
  let o := s.unit i
  let s := consume s ch
  let els := o.elts.take (o.elts.length - o.i1)
  let s := emit s place 31 ((if els.isEmpty then [] else [(0, convertToken ty t.ctx o.key els)]) ++ [(0, t)])
  let s := editUnit s i fun o => { o with elts := [], i1 := 0 }
  if t.isEos then
    endUnit (editUnit s i fun o => { o with
      n := 0, acc := [], got := false
      skipping := if Fmt.isScaled src && !o.got then 1 else 0 }) i
  else s

/-- CONVERT_TOKEN (R126): takes a token, or a token of the scale stream that its elements still need. -/
def execConvertToken (die tile : Nat) (s : State) : Out :=
  let place := placeOf die tile
  let i := place * 64 + 31
  .next (unitStep s place 31 fun s =>
    let o := s.unit i
    match headOf s place 31 0, convertTarget o with
    | some (ch, t), some ty =>
      let src := (Fmt.ofCode (descFmt (s.inc ch).desc)).getD .i32
      if o.skipping = 1 ∧ (headOf s place 31 1).isSome then pullScale s place src
      else match t with
      | .mark _ _ _ => convertMark s place ch src ty t
      | .data c _ _ k n l =>
        let waits := match lastScale o src (tokenElts src n.toNat l) with
          | some m => o.skipping = 1 || (!o.got && decide (o.acc.length ≤ m))
          | none => false
        if waits then pullScale s place src else convertData s place ch src ty c k n.toNat l
    | _, _ => if o.skipping = 1 then pullScale s place .bs4x8 else s)

end Sys2Proof.Machine
end

