-- ==== Sys2Proof/Machine/Islands.lean ====
section
/-! DEFINITION. Matrix islands in row mode: the weight latch (R128, R279, R422, R423), rows and row-cycles (R56, R57, R129,
R131, R282), gathers (R132, R345, R346) and the requests MOUT and MCLR (R366), with their events. An island bears the number
of R15; its state stands at the place of its perimeter tile. -/
namespace Sys2Proof.Machine
open Sys2Proof

def islandPlace (die i : Nat) : Nat := placeOf die (islandTile i)

/-- Focus on a firing that an event goes on with. -/
def focusOn (s : State) (id ins frame k : Nat) : State :=
  { s with focus := ⟨id / 8 / 256, id / 8 % 256, id % 8, ins, frame, k⟩ }

/-- Runs `f` in the focus of a firing and puts the old focus back. -/
def withFocus (s : State) (id ins frame k : Nat) (f : State → State) : State :=
  { f (focusOn s id ins frame k) with focus := s.focus }

def inflightOf (c : Ctx) (ins frame : Nat) : Option Inflight := c.inflight.find? fun x => x.ins = ins ∧ x.frame = frame

/-- The firing has stopped at a fault that no answer has come for. -/
def stoppedAt (c : Ctx) (ins frame : Nat) : Bool :=
  c.stops.any fun x => match x.site with
    | .firing i f _ _ => i == ins && f == frame
    | .gather i f _ => i == ins && f == frame
    | .rotation _ _ i f _ => i == ins && f == frame
    | _ => false

def editIsland (s : State) (p : Nat) (g : Island → Island) : State := s.setIsland p (g (s.island p))

/-! ### The weight latch -/

/-- Bytes from an address, in granules; POISON carries the granule's address. -/
def loadGranules (s : State) (v : Via) (g : Nat) : Nat → Acc (List Byte)
  | 0 => (s, .ok [])
  | n + 1 => match loadGranule s v g with
    | (s, .error e) => (s, .error e)
    | (s, .ok (b, bad)) =>
      if bad then (s, .error (faultPoison g))
      else match loadGranules s v (g + 8) n with
        | (s, .error e) => (s, .error e)
        | (s, .ok l) => (s, .ok (b ++ l))

def loadBytes (s : State) (v : Via) (va n : Nat) : Acc (List Byte) :=
  if n = 0 then (s, .ok [])
  else match loadGranules s v (va / 8 * 8) ((va + n - 1) / 8 - va / 8 + 1) with
    | (s, .error e) => (s, .error e)
    | (s, .ok l) => (s, .ok ((l.drop (va % 8)).take n))

/-- Bits of one element of the packed area of a WLOAD (R422). -/
def weightBits (f : Fmt) (area : List Byte) (n : Nat) : Nat :=
  match f with
  | .bf16x2 | .f16x2 => leNat ((area.drop (2 * n)).take 2)
  | .e4m3x4 | .e5m2x4 => (area.getD n 0).toNat
  | _ => (area.getD (n / 2) 0).toNat / 16 ^ (n % 2) % 16

/-- Bytes of the element area of K rows and N columns. -/
def weightBytes (f : Fmt) (n : Nat) : Nat :=
  match f with
  | .bf16x2 | .f16x2 => 2 * n
  | .e4m3x4 | .e5m2x4 => n
  | _ => (n + 1) / 2

/-- Blocks of a column: 32 elements, or 64 for the codebook format. -/
def weightBlocks (f : Fmt) (k : Nat) : Nat :=
  match f with
  | .bs4x8 | .mx4x8 => (k + 31) / 32
  | .q16x8 => (k + 63) / 64
  | _ => 0

/-- Bytes of the scale area. -/
def scaleBytes (f : Fmt) (k n : Nat) : Nat :=
  match f with
  | .bs4x8 => 2 * n * weightBlocks f k
  | .mx4x8 => n * weightBlocks f k
  | .q16x8 => 4 * n + n * weightBlocks f k
  | _ => 0

/-- The latch tile that a fill leaves, from the element and scale areas, and the flags of a q16x8 decode (R46, R422). -/
def latchFrom (f : Fmt) (k n : Nat) (area scales : List Byte) : LatchTile × FpFlags :=
  let nb := weightBlocks f k
  let raw (c : Nat) : List Nat := (List.range k).map fun r => weightBits f area (r * n + c)
  match f with
  | .q16x8 =>
    let dec (c : Nat) : List (Nat × FpFlags) := (raw c).zipIdx.map fun e =>
      decodeQ16 e.1 (leNat ((scales.drop (4 * c)).take 4)) (scales.getD (4 * n + c * nb + e.2 / 64) 0).toNat
    let cols := (List.range n).map dec
    ({ fmt := some .bf16x2, cols := cols.map fun c => c.map (·.1) },
      cols.foldl (fun fl c => c.foldl (fun fl e => fl ||| e.2) fl) 0)
  | .bs4x8 =>
    ({ fmt := some f, cols := (List.range n).map raw
       scales := (List.range n).map fun c => (List.range nb).map fun b =>
         leNat ((scales.drop (2 * (c * nb + b))).take 2) % 512 }, 0)
  | .mx4x8 =>
    ({ fmt := some f, cols := (List.range n).map raw
       scales := (List.range n).map fun c => (List.range nb).map fun b => (scales.getD (c * nb + b) 0).toNat }, 0)
  | f => ({ fmt := some f, cols := (List.range n).map raw }, 0)

/-- Sets a binding; no other tile keeps the same one (R128). -/
def bindTile (x : Island) (t : Nat) (b : BitVec 12 × Nat) : Island :=
  { x with latch := x.latch.zipIdx.map fun e =>
      if e.2 = t then { e.1 with bind := some b, pending := none }
      else if e.1.bind = some b then { e.1 with bind := none } else e.1 }

/-- WBIND (R128, R279, R423). -/
def execWbind (d : Dst) (obj : BitVec 2) (key : BitVec 12) (q : BitVec 9) (s : State) : Out :=
  let o := operands s
  let b := (key, q.toNat)
  let s := if o.anyLane then
      editIsland s s.focus.place fun x =>
        if (x.latch.getD obj.toNat {}).loading then
          { x with latch := x.latch.modify obj.toNat fun t => { t with pending := some b } }
        else bindTile x obj.toNat b
    else s
  .next (finishN32 s d (List.replicate o.k (some 0)))

/-- The first lane from `j` on that holds a value. -/
def nextLane (l : List Lane) (j : Nat) : Option Nat := (List.range l.length).find? fun i => decide (j ≤ i) && (laneAt l i).isSome

/-- WLOAD (R279, R422): the empty lanes are done at once; the first other one clears the tile's binding, and its fill begins. -/
def execWload (d : Dst) (obj : BitVec 2) (base : BitVec 3) (_wfmt : Fmt) (_krows : BitVec 9) (_ncols : BitVec 7) (s : State) : Out :=
  let o := operands s
  let f := s.focus
  let va := baseVa s base
  let again := s.here.resumes.any fun x => x.1 = f.ins ∧ x.2.1 = f.frame
  match nextLane o.a (resumeHere s).lane with
  | none => .next (finishN32 s d (List.replicate o.k (some 0)))
  | some j =>
    let s := if again then s else sendEmpty s d (some 0) o.a 0
    if va % 4 ≠ 0 then .next (accessFault s (faultAlign va) none { lane := j })
    else
      let s := editIsland s f.place fun x => { x with
        latch := x.latch.modify obj.toNat fun t => { t with bind := none, pending := none, loading := true }
        loads := x.loads ++ [(f.ctx, f.ins, f.frame)] }
      .next (beginWork s (.weights obj.toNat j))

/-- The firing fills tile `t`. -/
def Work.fills (w : Work) (t : Nat) : Bool :=
  match w with
  | .weights u _ => u == t
  | _ => false

/-- Another accepted load of the tile has still to run. -/
def stillLoading (s : State) (p : Nat) (loads : List (Nat × Nat × Nat)) (t : Nat) : Bool :=
  loads.any fun l => match inflightOf (s.ctx (p * 8 + l.1)) l.2.1 l.2.2 with
    | some x => x.work.fills t
    | none => false

/-- Lane `j` of a WLOAD is done (R422): its status goes, and the fill of the next lane begins behind the fills that were accepted
before it; after the last lane the firing ends. -/
def endFill (s : State) (d : Dst) (t j : Nat) : State :=
  let o := operands s
  let f := s.focus
  let s := sendLane s d j (some 0)
  match nextLane o.a (j + 1) with
  | none => finishLanes s d (List.replicate o.k (some 0))
  | some i =>
    let s := editIsland s f.place fun x => { x with
      latch := x.latch.modify t fun y => { y with bind := none, pending := none, loading := true }
      loads := (f.ctx, f.ins, f.frame) :: x.loads }
    beginWork s (.weights t i)

/-- The fill of lane `j` of a WLOAD, in the focus of its firing: the tile's contents and the lane's done status (R422), or the fault
that leaves the tile zero and unbound (R423). -/
def fillTile (s : State) (d : Dst) (t j : Nat) (base : BitVec 3) (f : Fmt) (k n : Nat) (more : Bool) : State :=
  let p := s.focus.place
  let v : Via := { place := p, part := s.here.part, l1 := false, scope := .package, who := some (ctxRef s.focus.ctxId) }
  let va := baseVa s base
  let eb := weightBytes f (k * n)
  let put (s : State) (x : LatchTile) : State := editIsland s p fun y => { y with latch := y.latch.set t x }
  let bad (s : State) (e : MemFault) : State :=
    accessFault (put s { fmt := some (if f = .q16x8 then .bf16x2 else f), loading := more }) e none { lane := j }
  match loadBytes s v va eb with
  | (s, .error e) => bad s e
  | (s, .ok area) =>
    match loadBytes s v (va + (eb + 127) / 128 * 128) (scaleBytes f k n) with
    | (s, .error e) => bad s e
    | (s, .ok scales) =>
      let r := latchFrom f k n area scales
      let old := (s.island p).latch.getD t {}
      let s := put s { r.1 with loading := more, pending := old.pending }
      let s := match old.pending, more with
        | some b, false => editIsland s p fun y => bindTile y t b
        | _, _ => s
      endFill (raiseAt s s.focus.ctxId r.2) d t j

/-- WEIGHT_FILL_COMPLETE (R422): the oldest accepted fill. A killed firing's fill ends without contents. -/
def execWeightFillComplete (die i : Nat) (s : State) : Out :=
  let p := islandPlace die i
  match (s.island p).loads with
  | [] => .next s
  | (c, ins, frame) :: rest =>
    let id := p * 8 + c
    let x := s.ctx id
    if x.frozen then .next s
    else match inflightOf x ins frame, Image.instr x.image ins with
      | some ⟨_, _, k, .weights t j⟩, some (.wload d _ base f krows ncols) =>
        let s := editIsland s p fun y => { y with loads := rest }
        let more := stillLoading s p rest t
        let s := s.setCtx id { x with inflight := x.inflight.filter fun w => !(w.ins = ins ∧ w.frame = frame) }
        .next (withFocus s id ins frame k fun s => fillTile s d t j base f (krows.toNat + 1) (ncols.toNat + 1) more)
      | _, some (.wload _ obj _ _ _ _) =>
        let more := stillLoading s p rest obj.toNat
        .next (editIsland s p fun y => { y with
          loads := rest, latch := y.latch.modify obj.toNat fun t => { t with loading := more } })
      | _, _ => .next (editIsland s p fun y => { y with loads := rest })

/-! ### Rows of A (R127, R129, R131) -/

/-- The rows, not counting marks among them, of the sixteen-row queue. -/
def rowCount (x : Island) : Nat := (x.rows.filter fun r => r.mark.isNone).length

def openRow (x : Island) : Bool := x.rows.any fun r => r.mark.isNone && !r.complete

/-- Adds the lanes of a token to the row that is open. -/
def growRow (x : Island) (fmt : BitVec 4) (n : BitVec 4) (l : List Lane) : Island :=
  let epl := ((Fmt.ofCode fmt).getD .bf16x2).epl
  let valid := l.zipIdx.map fun e => if e.2 + 1 = l.length then validElts epl n.toNat else epl
  { x with
    rows := x.rows.map fun r => if r.mark.isNone && !r.complete then { r with lanes := r.lanes ++ l, valid := r.valid ++ valid } else r
    slanes := x.slanes + l.length }

/-- A token of A enters the input queue; none when the queue has no room. -/
def acceptRow (x : Island) (fmt : BitVec 4) (t : Token) : Option Island :=
  match t with
  | .data c _ _ k n l =>
    if openRow x then some (growRow x fmt n l)
    else if rowCount x < 16 then
      some (growRow { x with rows := x.rows ++ [{ ctx := c, key := k, fmt := fmt, l0 := x.slanes }] } fmt n l)
    else none
  | .mark c m p =>
    if m = .er then
      if openRow x then some { x with rows := x.rows.map fun r => if r.mark.isNone then { r with complete := true } else r }
      else if rowCount x < 16 then some { x with rows := x.rows ++ [{ ctx := c, fmt := fmt, l0 := x.slanes, complete := true }] }
      else none
    else
      let x := { x with rows := x.rows ++ [{ mark := some (m, p), ctx := c, complete := true }] }
      some (if m = .eos then { x with slanes := 0 } else x)

/-- The island has passed its EOS (R219, R220). -/
def islandPassed (s : State) (p : Nat) : Bool :=
  (s.island p).out.isEmpty && (s.island p).rows.isEmpty && (s.island p).sets.isEmpty && (List.range 64).all fun n =>
    match (s.inc (p * 64 + n)).sink with
    | .unit v _ => v != 32 || !descEn (s.inc (p * 64 + n)).desc || (s.inc (p * 64 + n)).eos
    | _ => true

/-- Takes tokens of the a port while there is room and no set is armed (R345), up to the EOS behind which a successor waits (R220,
R285). -/
def islandIntake (s : State) (p : Nat) : Nat → State
  | 0 => s
  | n + 1 =>
    if !(s.island p).sets.isEmpty then s
    else match headOf s p 32 0 with
      | none => s
      | some (ch, t) =>
        match acceptRow (s.island p) (descFmt (s.inc ch).desc) t with
        | some x => islandIntake (consume (s.setIsland p x) ch) p n
        | none => s

/-- The output stage sends what credits allow; cnt counts the rows whose ER has left (R130). -/
def islandDrain (s : State) (p : Nat) : Nat → State
  | 0 => s
  | n + 1 =>
    match (s.island p).out, unitOut s p 32 0 with
    | (t, last) :: rest, some ch =>
      if canSend s ch then
        let s := editIsland (sendOn s ch t) p fun x => { x with
          out := rest
          cnt := if last && x.cnt != 0xFFFFFF then x.cnt + 1 else x.cnt }
        islandDrain s p n
      else s
    | _, _ => s

/-- The declared format of A. -/
def islandSrc (s : State) (p : Nat) : Fmt :=
  match unitIn s p 32 0 with
  | some ch => (Fmt.ofCode (descFmt (s.inc ch).desc)).getD .bs4x8
  | none => .bs4x8

/-- Takes the scale stream's tokens (R43): lanes until its EOS. A scale that an empty lane or the final lane's count leaves out is a
free value (log 54). -/
def scaleIntake (s : State) (p : Nat) : Nat → State
  | 0 => s
  | n + 1 =>
    if (s.island p).scaleEos then s
    else match headOf s p 32 1 with
      | none => s
      | some (ch, t) =>
        let s := consume s ch
        let s :=
          if t.isEos then editIsland s p fun x => if x.scaleSkip then { x with scaleSkip := false } else { x with scaleEos := true }
          else if (s.island p).scaleSkip then s
          else
            let r := scaleLanes (islandSrc s p) t.count.toNat s (s.island p).scaleBuf.length t.lanes
            editIsland r.1 p fun x => { x with scaleBuf := x.scaleBuf ++ r.2 }
        scaleIntake s p n

/-- What an island takes in and sends out before it acts. -/
def islandPrepare (s : State) (p : Nat) : State := islandDrain (scaleIntake (islandIntake s p 128) p 128) p 16

/-- Scale bits of element `e` of the stream of A (R43). -/
def rowScale (x : Island) (f : Fmt) (e : Nat) : Nat :=
  let b := e / 32
  let l := (x.scaleBuf.getD (scaleLane f e) 0).toNat
  if f = .bs4x8 then l / 2 ^ (9 * (b % 3)) % 512 else l / 2 ^ (8 * (b % 4)) % 256

/-- Elements of chunk `q` of a row that take part: position in the chunk and exact value (R56, R131). A scale counts only through
the elements that take it: the NaN scale of a block in which no element takes part makes no NaN (R57 leaves it open: DESIGN CHOICE,
log 57). -/
def chunkElts (x : Island) (r : IslandRow) (q : Nat) : List (Nat × FVal) :=
  let f := (Fmt.ofCode r.fmt).getD .bf16x2
  (List.range 64).flatMap fun j =>
    let n := 64 * q + j
    match r.lanes.getD n none with
    | none => []
    | some w => (List.range (r.valid.getD n 0)).map fun e =>
      let bits := elt (elemWidth f) e w
      let v := if Fmt.isScaled f then scaledVal f bits (rowScale x f ((r.l0 + n) * f.epl + e)) else (fparam f).decode bits
      (j * f.epl + e, v)

/-- How many lanes of the scale stream chunk `q` of a row needs. -/
def scaleNeed (r : IslandRow) (q : Nat) : Nat :=
  let f := (Fmt.ofCode r.fmt).getD .bf16x2
  if Fmt.isScaled f then
    match ((List.range 64).filter fun j => (r.lanes.getD (64 * q + j) none).isSome).getLast? with
    | none => 0
    | some j => scaleLane f ((r.l0 + (64 * q + j)) * f.epl + r.valid.getD (64 * q + j) 0 - 1) + 1
  else 0

/-- The last scale lane that chunk `q` of a block-scaled row needs has arrived. -/
def scalesHere (x : Island) (r : IslandRow) (q : Nat) : Bool :=
  x.scaleEos || scaleNeed r q == 0 || (!x.scaleSkip && decide (scaleNeed r q ≤ x.scaleBuf.length))

/-- Scales that the ended stream did not bring are free values (log 54). -/
def openBuf (s : State) (p n : Nat) : State :=
  let b := (s.island p).scaleBuf
  if n ≤ b.length then s
  else
    let r := openScales s (b.map some) (n - b.length)
    editIsland r.1 p fun x => { x with scaleBuf := r.2.map fun v => v.getD 0 }

/-- Weight at position `k` of column `c`. -/
def weightVal (t : LatchTile) (c k : Nat) : FVal :=
  match t.fmt with
  | none => .fin false 0 0
  | some f =>
    if (t.cols.getD c []).length ≤ k then .fin false 0 0
    else
      let bits := (t.cols.getD c []).getD k 0
      if Fmt.isScaled f then scaledVal f bits ((t.scales.getD c []).getD (k / 32) 0) else (fparam f).decode bits

/-- An infinity of the given sign. -/
def infOf (v : FVal) (neg : Bool) : Bool :=
  match v with
  | .inf n => n == neg
  | _ => false

/-- The exact sum S of a chunk for one column, with IV where R57 raises it; whether S is a NaN, an infinity or finite does not depend
on the order of the products. A sum of zeros is +0, also where every product is −0 (R56 leaves the sign open: DESIGN CHOICE, log 57). A signalling NaN among the operands
raises no IV: R57 names IV for its last two cases alone (DEDUCED, log 65). -/
def columnSum (els : List (Nat × FVal)) (w : Nat → FVal) : FVal × FpFlags :=
  let clean := els.filter fun e => !(e.2.isNan || (w e.1).isNan)
  let ps := clean.map fun e => fmul e.2 (w e.1)
  let pos := ps.any fun p => (p.map fun v => infOf v false).getD false
  let neg := ps.any fun p => (p.map fun v => infOf v true).getD false
  let iv := ps.any Option.isNone || (pos && neg)
  let fl := if iv then flagIV else 0
  if iv || clean.length != els.length then (.nan false, fl)
  else if pos then (.inf false, fl)
  else if neg then (.inf true, fl)
  else (ps.foldl (fun acc p => (fadd .rne acc (p.getD (.fin false 0 0))).getD acc) (.fin false 0 0), fl)

/-- acc[j] := Round(acc[j] + S, f32, rne) (R56, R57). -/
def accumulate (acc : W32) (sum : FVal) : W32 × FpFlags :=
  let a := fpF32.decode acc.toNat
  if a.isNan || sum.isNan then (0x7FC00000, 0)
  else match fadd .rne a sum with
    | none => (0x7FC00000, flagIV)
    | some y => let r := roundSat fpF32 .rne .off 0 y; (BitVec.ofNat 32 r.bits, r.flags)

/-- One row-cycle: a chunk against a tile (R56). A chunk without elements leaves the accumulators unchanged (R131). -/
def rowCycle (acc : List W32) (els : List (Nat × FVal)) (t : LatchTile) : List W32 × FpFlags :=
  if els.isEmpty then (acc, 0)
  else
    let cs := (List.range 128).map fun c =>
      let m := columnSum els (weightVal t c)
      let r := accumulate (acc.getD c 0) m.1
      (r.1, m.2 ||| r.2)
    (cs.map (·.1), cs.foldl (fun f c => f ||| c.2) 0)

def holdMode (x : Island) : Bool := (x.p.getD 0 0).getLsbD 22
def zeroRow : List W32 := List.replicate 128 0

/-- Accumulator row of a row in hold mode (R129). Its number in the group is settled when its first chunk issues: gathered rows that go
before the rest of it take the numbers behind (DEDUCED, log 78: R345 has them go before a row that is not complete). -/
def holdRow (x : Island) (r : IslandRow) : Nat := (((x.p.getD 0 0).extractLsb' 0 8).toNat + r.place.getD x.n) % 256

/-- Four tokens of 32 f32 lanes with a key, then ER (R129). -/
def rowTokens (c : BitVec 3) (key : BitVec 12) (v : List Lane) (counts : Bool) : List (Token × Bool) :=
  ((List.range 4).map fun i => (Token.make c 0 Fmt.f32.code key 0 ((v.drop (32 * i)).take 32), false)) ++ [(.mark c .er 0, counts)]

def bumpCnt (x : Island) : Island := { x with cnt := if x.cnt = 0xFFFFFF then x.cnt else x.cnt + 1 }

/-- The output stage has four free entries of its eight (R129). -/
def stageFree (x : Island) : Bool := decide (x.out.length ≤ 4)

/-- The accumulators of a row in the default output mode (R129). -/
def rowSum (r : IslandRow) : List W32 := if r.sum.isEmpty then zeroRow else r.sum

/-- The row at the head has no chunk left: its output, or its place in the group (R129, R131). -/
def endIslandRow (x : Island) (r : IslandRow) (padded : Bool) : Island :=
  let x := { x with rows := x.rows.drop 1 }
  if holdMode x then bumpCnt (if r.place.isSome then x else { x with n := x.n + 1 })
  else
    let v : List Lane := if padded then List.replicate 128 none else (rowSum r).map some
    { x with out := x.out ++ rowTokens r.ctx r.key v true }

/-- Chunks of a row whose ER has come. -/
def chunkCount (r : IslandRow) : Nat := (r.lanes.length + 63) / 64

/-- The tile bound to (key, q) and loaded. -/
def boundTile (x : Island) (key : BitVec 12) (q : Nat) : Option LatchTile :=
  x.latch.find? fun t => !t.loading && t.fmt.isSome && t.bind == some (key, q)

/-- Chunk `q` of the head row issues against tile `t`; `last` when the row ends with it. -/
def issueChunk (s : State) (p : Nat) (r : IslandRow) (q : Nat) (t : LatchTile) (last : Bool) : State :=
  let s := openBuf s p (scaleNeed r q)
  let x := s.island p
  let els := chunkElts x r q
  let old := if holdMode x then
      (if q = 0 ∧ (x.p.getD 0 0).getLsbD 23 then zeroRow else SMap.get zeroRow x.acc (holdRow x r))
    else rowSum r
  let m := rowCycle old els t
  let fresh := holdMode x && r.place.isNone
  let r := { r with
    next := q + 1, sum := if holdMode x then r.sum else m.1
    place := if fresh then some x.n else r.place }
  let x := if holdMode x then
      { x with acc := SMap.set x.acc (holdRow x r) m.1, n := if fresh then x.n + 1 else x.n } else x
  let x := if last then endIslandRow x r false else { x with rows := x.rows.set 0 r }
  raiseAt (s.setIsland p x) (p * 8 + r.ctx.toNat) m.2

/-- CHUNK_ISSUE (R129): the next chunk of the head row, or the end of a row with none left. -/
def execChunkIssue (die i : Nat) (s : State) : Out :=
  let p := islandPlace die i
  if (s.island p).engine ∨ (s.island p).frozen ∨ islandAsked s p then .next s
  else
    let s := islandPrepare s p
    let x := s.island p
    match x.rows with
    | [] => .next s
    | r :: _ =>
      if r.mark.isSome then .next s
      else
        let bare := r.lanes.all Option.isNone
        let room := stageFree x
        if r.complete ∧ bare then
          if room then .next (islandDrain (s.setIsland p (endIslandRow x r true)) p 16) else .next s
        else if r.complete ∧ chunkCount r ≤ r.next then
          if room then .next (islandDrain (s.setIsland p (endIslandRow x r false)) p 16) else .next s
        else if !r.complete ∧ (bare ∨ r.lanes.length < 64 * (r.next + 1)) then .next s
        else
          let last := r.complete && decide (chunkCount r ≤ r.next + 1)
          match boundTile x r.key r.next with
          | some t =>
            if (last && !room) || !scalesHere x r r.next then .next s
            else .next (islandDrain (issueChunk s p r r.next t last) p 16)
          | none => .next s

/-! ### Gathers (R345, R346) -/

/-- Arms the set of the first non-empty lane from `j` on, in the focus of the GATH; `done` are the lanes before it. Without
one the firing ends. -/
def armGather (s : State) (d : Dst) (chunks : BitVec 4) (fmt : Fmt) (key : BitVec 12) (o : Opnds) : Nat → Nat → State
  | 0, _ => finish s d fmtN32 fmtN32 (statusRun o ((List.range o.k).map fun j =>
      if (laneAt o.a j).isSome && (laneAt o.b j).isSome then some 0 else none))
      (statusRun o ((List.range o.k).map fun j => if (laneAt o.a j).isSome && (laneAt o.b j).isSome then some 0 else none))
  | m + 1, j =>
    match laneAt o.a j, laneAt o.b j with
    | some a, some b =>
      if a.extractLsb' 14 2 ≠ 0 ∨ b.extractLsb' 14 2 ≠ 0 ∨ b.extractLsb' 16 16 = 0 then
        faultFiring s codeAlign none none { lane := j }
      else
        let f := s.focus
        let g : GatherSet := {
          ctx := f.ctxId, ins := f.ins, frame := f.frame, lane := j, chunks := chunks.toNat + 1, fmt := fmt.code, key := key
          n := (a.extractLsb' 16 16).toNat, total := (b.extractLsb' 16 16).toNat
          ivec := (a.extractLsb' 0 14).toNat * 128, table := (b.extractLsb' 0 14).toNat * 128 }
        beginWork (editIsland s f.place fun x => { x with sets := x.sets ++ [g] }) .gather
    | _, _ => armGather s d chunks fmt key o m (j + 1)

/-- GATH (R345). -/
def execGath (d : Dst) (chunks : BitVec 4) (fmt : Fmt) (key : BitVec 12) (s : State) : Out :=
  let o := operands s
  let j := (resumeHere s).lane
  .next (armGather s d chunks fmt key o (o.k - j) j)

/-- A gathered row enters behind every row that is complete (R345). -/
def insertRow (x : Island) (r : IslandRow) : Island :=
  { x with rows := (x.rows.filter fun q => q.complete) ++ [r] ++ x.rows.filter fun q => !q.complete }

/-- Lanes of a row of the scratchpad, or the fault and the offset that failed. -/
def gatherRow (t : Tile) (off lanes : Nat) : Except (BitVec 8 × Nat) (List Lane) :=
  if scratchSize t < off + 4 * lanes then .error (codeProtection, off)
  else match (List.range (lanes * 4 / 8)).find? fun g => t.poison.contains (off / 8 + g) with
    | some g => .error (codePoison, off + 8 * g)
    | none => .ok ((List.range lanes).map fun j => some (t.scratch.word32 (off + 4 * j)))

/-- Row `i` of a set: none for a padded one (R345). -/
def setRow (t : Tile) (g : GatherSet) (i : Nat) : Except (BitVec 8 × Nat) (Option (List Lane)) :=
  if g.padded ∨ g.n ≤ i then .ok none
  else
    let off := g.ivec + 4 * i
    if scratchSize t < off + 4 then .error (codeProtection, off)
    else if t.poison.contains (off / 8) then .error (codePoison, off)
    else
      let x := t.scratch.word32 off
      if x.getLsbD 31 then .error (codeProtection, off)
      else match gatherRow t (g.table + x.toNat * g.chunks * 256) (g.chunks * 64) with
        | .error e => .error e
        | .ok l => .ok (some l)

/-- GATH_ROW_COLLECT (R345): the next row of the head set enters the queue; behind its last row stands the set's EG. A fault is raised
once the rows before it have issued (R346). -/
def execGathRowCollect (die i : Nat) (s : State) : Out :=
  let p := islandPlace die i
  let x := s.island p
  match x.sets with
  | [] => .next s
  | g :: _ =>
    let c := s.ctx g.ctx
    if x.frozen ∨ c.frozen ∨ stoppedAt c g.ins g.frame ∨ g.total ≤ g.next ∨ 16 ≤ rowCount x then .next s
    else match setRow (s.tile p) g g.next with
      | .error (code, off) =>
        if x.rows.any (·.gathered) then .next s else
        let k := ((inflightOf c g.ins g.frame).map Inflight.k).getD 1
        .next (withFocus s g.ctx g.ins g.frame k fun s =>
          faultAt s code (some (natW64 off)) (some (natW64 g.next)) (.gather g.ins g.frame g.lane))
      | .ok l =>
        let lanes := l.getD []
        let tag := BitVec.ofNat 3 (g.ctx % 8)
        let r : IslandRow := { ctx := tag, key := g.key, fmt := g.fmt, lanes := lanes
                               valid := lanes.map fun _ => ((Fmt.ofCode g.fmt).getD .bf16x2).epl
                               complete := true, gathered := true }
        let x := insertRow { x with sets := x.sets.modify 0 fun g => { g with next := g.next + 1 } } r
        let x := if g.next + 1 = g.total then
            insertRow x { mark := some (.eg, 0), ctx := tag, complete := true, gathered := true } else x
        .next (s.setIsland p x)

/-- The head set has issued whole: its lane is done, and the firing goes on with its next lane (R345). -/
def endSet (s : State) (p : Nat) : State :=
  match (s.island p).sets with
  | [] => s
  | g :: rest =>
    let s := editIsland s p fun x => { x with sets := rest }
    let c := s.ctx g.ctx
    match inflightOf c g.ins g.frame, Image.instr c.image g.ins with
    | some w, some (.gath d chunks fmt key) =>
      let s := s.setCtx g.ctx { c with inflight := c.inflight.filter (· ≠ w) }
      withFocus s g.ctx g.ins g.frame w.k fun s =>
        let o := operands s
        armGather s d chunks fmt key o (o.k - (g.lane + 1)) (g.lane + 1)
    | _, _ => s

/-- ISLAND_MARK_PASS (R282): a mark at the head of the rows goes to the output stage, which has eight places. -/
def execIslandMarkPass (die i : Nat) (s : State) : Out :=
  let p := islandPlace die i
  if (s.island p).engine ∨ (s.island p).frozen then .next s
  else
    let s := islandPrepare s p
    let x := s.island p
    match x.rows with
    | [] => .next s
    | r :: rest =>
      match r.mark with
      | none => .next s
      | some (m, pay) =>
        let waits := r.gathered && (match x.sets with
          | g :: _ => (s.ctx g.ctx).frozen
          | [] => false)
        if 8 ≤ x.out.length ∨ waits then .next s
        else
          let x := { x with rows := rest, out := x.out ++ [(.mark r.ctx m pay, false)] }
          let x := if m.code = (x.p.getD 0 0).extractLsb' 18 4 then { x with n := 0 } else x
          let scaled := match headOf s p 32 0, unitIn s p 32 0 with
            | _, some ch => Fmt.isScaled ((Fmt.ofCode (descFmt (s.inc ch).desc)).getD .i32)
            | _, none => false
          let x := if m = .eos then
              { x with ended := true, scaleBuf := [], scaleEos := false, scaleSkip := scaled && !x.scaleEos } else x
          let s := s.setIsland p x
          .next (islandDrain (if r.gathered then endSet s p else s) p 16)

/-! ### MOUT and MCLR (R365, R366) -/

/-- Accumulator rows first .. first + count. -/
def rowRange (first count : BitVec 8) : List Nat := (List.range (count.toNat + 1)).map fun i => (first.toNat + i) % 256

def clearRows (x : Island) (l : List Nat) : Island := { x with acc := l.foldl (fun m r => SMap.set m r zeroRow) x.acc }

/-- One row of a MOUT request enters the output stage. -/
def moutRow (x : Island) (c : BitVec 3) (key : BitVec 12) (r : Nat) (clr : Bool) : Island :=
  let x' := { x with out := x.out ++ rowTokens c key ((SMap.get zeroRow x.acc r).map some) false }
  if clr then clearRows x' [r] else x'

/-- Serves rows of MOUT requests, each a lane and a row, until one must wait for four free entries of the output stage (R366). -/
def moutRows (s : State) (c : BitVec 3) (key : BitVec 12) (clr : Bool) : List (Nat × Nat) → State × Option (Nat × Nat)
  | [] => (s, none)
  | (j, r) :: t =>
    let p := s.focus.place
    if stageFree (s.island p) then moutRows (islandDrain (editIsland s p fun x => moutRow x c key r clr) p 16) c key clr t
    else (s, some (j, r))

/-- One request for each non-empty lane. -/
def eachLane (f : Island → Island) (x : Island) (l : List Lane) : Island :=
  l.foldl (fun x v => if v.isSome then f x else x) x

/-- What is left of a MOUT firing: the rows of its non-empty lanes, from the lane and row where it waits. -/
def moutLeft (o : Opnds) (first count : BitVec 8) (r : Resume) : List (Nat × Nat) :=
  (((List.range o.k).filter fun j => (laneAt o.a j).isSome).flatMap fun j => (rowRange first count).map fun row => (j, row)).filter
    fun e => decide (r.lane < e.1) || (e.1 == r.lane && decide (r.at'.getD 0 ≤ e.2))

/-- MOUT (R366): its requests one after the other; a firing that must wait for the output stage goes on from there. -/
def execMout (d : Dst) (first count : BitVec 8) (clr : Bool) (s : State) : Out :=
  let o := operands s
  let f := s.focus
  match moutRows s (BitVec.ofNat 3 f.ctx) o.key clr (moutLeft o first count (resumeHere s)) with
  | (s, none) => .next (finishN32 s d (statusLanes o.a))
  | (s, some (j, row)) => .next (addResume s f.ctxId f.ins f.frame f.k { lane := j, at' := some row })

/-- MCLR (R366). -/
def execMclr (d : Dst) (first count : BitVec 8) (s : State) : Out :=
  let o := operands s
  let s := editIsland s s.focus.place fun x => eachLane (fun x => clearRows x (rowRange first count)) x o.a
  .next (finishN32 s d (statusLanes o.a))

end Sys2Proof.Machine
end

