-- ==== Sys2Proof/Machine/Schedule.lean ====
section
/-! DEFINITION. Which firings are ready (R97, R103, R227, R338, R357) and which one an element fires next (R224, R431). -/
namespace Sys2Proof.Machine
open Sys2Proof

/-- The lead entries of a handler-table context have all consumed EOS, or its grammar waits in ACPT (R223, R357). -/
def ctxClosing (s : State) (id : Nat) : Bool :=
  let c := s.ctx id
  if c.grammar.isSome then c.seq.closing
  else
    let chans := (List.range 64).filter fun n => (s.inc (id / 8 * 64 + n)).sink = .entry (id % 8)
    let leads := chans.filter fun n => (SMap.get 0 (s.tile (id / 8)).htab n).getLsbD 48
    let l := if leads.isEmpty then chans else leads
    !l.isEmpty && l.all fun n => (s.inc (id / 8 * 64 + n)).eos

/-- The oldest marked frame: younger frames are held (R227). -/
def heldBeyond (c : Ctx) : Option Nat :=
  (c.stops.filterMap Stop.base).foldl (fun acc b => some (min b (acc.getD b))) none

def covers (ins num i f k : Nat) : Bool := i == ins && decide (f ≤ num ∧ num < f + k)

/-- A firing of the instruction over the frame is under way, or stopped by a fault, or waits to be performed again. -/
def isBusy (c : Ctx) (ins num : Nat) : Bool :=
  (c.inflight.any fun x => covers ins num x.ins x.frame x.k) ||
  (c.resumes.any fun x => covers ins num x.1 x.2.1 x.2.2.1) ||
  (c.stops.any fun x => match x.site with
    | .firing i f k _ => covers ins num i f k
    | .send _ _ _ i f k _ => covers ins num i f k
    | .rotation _ _ i f k => covers ins num i f k
    | _ => false)

def allowedFrame (c : Ctx) (num : Nat) : Bool :=
  match heldBeyond c with
  | some h => decide (num ≤ h)
  | none => true

/-- Every port of the instruction is present in the frame and it has not fired there (R83, R97). -/
def readyAt (c : Ctx) (ins num : Nat) : Bool :=
  decide (num < c.ahead) && allowedFrame c num && !isBusy c ins num &&
  (match c.find num with
    | some fr => !fr.fired.getLsbD ins && (Image.firePorts c.image ins).all fun p => (slotAt fr ins p).isSome
    | none => false)

/-- No port of the instruction has a run boundary before the frame (R97). -/
def joinedAt (c : Ctx) (ins num : Nat) : Bool :=
  (Image.firePorts c.image ins).all fun p => match slotIn c num ins p with
    | some x => !x.start
    | none => false

/-- Cuts ascending ready frames into runs (R97); `one` cuts them to single frames (R338). -/
def cutRuns (c : Ctx) (ins : Nat) (one : Bool) : List Nat → Option (Nat × Nat) → List (Nat × Nat)
  | [], cur => cur.toList
  | n :: t, none => cutRuns c ins one t (some (n, 1))
  | n :: t, some (f, k) =>
    if n = f + k ∧ k < 32 ∧ !one ∧ joinedAt c ins n then cutRuns c ins one t (some (f, k + 1))
    else (f, k) :: cutRuns c ins one t (some (n, 1))

/-- BSQ and QENC wait for every frame of their block (R324, R384); the frames of another lane group that will never be allocated count
as empty lanes (R357, R397, R398). -/
def wholeGroup : Instr → Bool
  | .bsq _ | .qenc _ => true
  | _ => false

/-- The group from `gm` is complete: every frame ready, or never to be allocated where it need not be whole. -/
def groupReady (s : State) (id ins gm g : Nat) (whole : Bool) : Bool :=
  let c := s.ctx id
  (List.range g).all fun j =>
    if gm + j < c.ahead then readyAt c ins (gm + j) else !whole && ctxClosing s id

/-- A unit has frozen for a snapshot. -/
def refFrozen (s : State) : UnitRef → Bool
  | .ctx d t c => (s.ctx (ctxId d t c)).frozen
  | .op d t u => (s.unit (unitId d t u)).frozen
  | .island d i => (s.island (placeOf d (islandTile i))).frozen
  | .queue d q n => (SMap.get {} (s.streamer (d * 16 + q)).queues n).frozen

/-- A snapshot has taken a unit's record. -/
def Snapshot.recorded (x : Snapshot) (u : UnitRef) : Bool := !x.units.contains u || x.saved.any fun e => e.1 == u

/-- While a unit is frozen it takes nothing, and until the record of a context of its graph nothing from that context (R234). -/
def unitHeld (s : State) (id : Nat) (u : UnitRef) : Bool :=
  let c := s.ctx id
  refFrozen s u || (s.part c.part).snaps.any fun x =>
    x.injected && x.launch == c.launch && x.all.contains u && x.recorded u && !x.recorded (ctxRef id)

def islandHeld (s : State) (id : Nat) : Bool :=
  (List.range 44).any fun i => islandTile i == id / 8 % 256 && unitHeld s id (.island (id / 2048) i)

def engineHeld (s : State) (id : Nat) (e : BitVec 6) : Bool := unitHeld s id (.island (id / 2048) (2 * e.toNat))

/-- Conditions of an entry, beside its operands, without which its firing waits (R366, R234). -/
def mustWait (s : State) (id : Nat) (i : Instr) : Bool :=
  let place := id / 8
  match i with
  | .mout _ _ _ _ => decide (4 < (s.island place).out.length) || islandHeld s id
  | .mclr _ _ _ | .wload _ _ _ _ _ _ | .wbind _ _ _ _ | .gath _ _ _ _ => islandHeld s id
  | .attn _ e _ _ | .rota _ e _ _ _ | .rgrt _ e _ _ | .rsnd _ e _ => engineHeld s id e
  | _ => false

/-- A request to the island waits while the island serves another (R366). -/
def requestWaits (s : State) (place : Nat) (i : Instr) : Bool :=
  match i with
  | .mout _ _ _ _ | .mclr _ _ _ => islandAsked s place
  | _ => false

/-- Frame `num` of an RSND waits: a fault holds another block on its engine whose header has left (R392), unless that firing is a younger
one of the same context (R227). -/
def sendWaits (s : State) (id ins num : Nat) (i : Instr) : Bool :=
  match i with
  | .rsnd _ e _ =>
    let die := id / 2048
    s.ctxs.any fun c => c.1 / 2048 == die &&
      ((c.2.stops.any fun x => match x.site with
        | .send d g _ _ f _ _ => d == die && g == e.toNat && !(c.1 == id && decide (num < f))
        | _ => false) ||
       c.2.resumes.any fun x => x.2.2.2.at'.isSome && !(c.1 == id && (decide (num < x.2.1) || (x.1 == ins && x.2.1 == num))) &&
        (match Image.instr c.2.image x.1 with
          | some (.rsnd _ g _) => g == e
          | _ => false))
  | _ => false

/-- The ready firings of instruction `ins`: first frame and run length (R97, R103). -/
def firingsOf (s : State) (id ins : Nat) : List (Nat × Nat) :=
  let c := s.ctx id
  match Image.instr c.image ins with
  | none => []
  | some i =>
    if mustWait s id i then []
    else
      let goesOn (r : Resume) : Bool := match i with
        | .sbar _ u _ => sbarReady s (id / 8) (sbarUnits u) r.cut
        | _ => true
      let again := c.resumes.filterMap fun x =>
        if x.1 = ins && allowedFrame c x.2.1 && goesOn x.2.2.2 && !sendWaits s id ins x.2.1 i then some (x.2.1, x.2.2.1) else none
      let ready := if requestWaits s (id / 8) i || decide (c.outRoom < chanTargets (dstOf i)) then [] else (c.frames.map Frame.num).filter fun n => readyAt c ins n && !sendWaits s id ins n i
      let g := groupOf i
      let one := match i with
        | .emit _ _ _ _ => true
        | _ => false
      again ++
      (if g = 0 then cutRuns c ins one ready none
       else ((ready.map fun n => n - n % g).dedup.filter fun gm => groupReady s id ins gm g (wholeGroup i)).map fun gm => (gm, g))

/-- A candidate: context, instruction, first frame, run length. -/
abbrev Cand := Nat × Nat × Nat × Nat

/-- Contexts fire while they are configured and neither killed nor frozen (R232, R234). -/
def fires (c : Ctx) : Bool := c.active && !c.killed && !c.frozen

def candidates (s : State) (place e : Nat) : List Cand :=
  (List.range 8).flatMap fun c =>
    let id := place * 8 + c
    if fires (s.ctx id) then
      (List.range 8).flatMap fun r =>
        let ins := r * 16 + e
        if ins < Image.count (s.ctx id).image then (firingsOf s id ins).map fun (f, k) => (c, ins, f, k) else []
    else []

/-- Effective priority (R224): ctx.prio and one for every 256 cycles ready, at most 7. -/
def effPrio (c : Ctx) (ins f : Nat) : Nat :=
  let steps := ((c.ages.find? fun x => x.1 = ins ∧ x.2.1 = f).map (·.2.2)).getD 0
  min 7 ((c.prio.extractLsb' 0 3).toNat + steps)

/-- The order of R224, with yields ranked last (R431). -/
def candBefore (s : State) (place : Nat) (x y : Cand) : Bool :=
  let cx := s.ctx (place * 8 + x.1)
  let cy := s.ctx (place * 8 + y.1)
  let px := effPrio cx x.2.1 x.2.2.1
  let py := effPrio cy y.2.1 y.2.2.1
  let ax := x.2.2.1 - cx.chead
  let ay := y.2.2.1 - cy.chead
  if cx.yielding != cy.yielding then cy.yielding
  else if px ≠ py then decide (py < px)
  else if ax ≠ ay then decide (ax < ay)
  else if x.2.1 ≠ y.2.1 then decide (x.2.1 < y.2.1)
  else decide (x.1 < y.1)

def bestCand (s : State) (place : Nat) : List Cand → Option Cand
  | [] => none
  | x :: t => match bestCand s place t with
    | none => some x
    | some y => if candBefore s place y x then some y else some x

/-- The firing that element `e` performs next (R224). -/
def elementPick (s : State) (place e : Nat) : Option Cand := bestCand s place (candidates s place e)

end Sys2Proof.Machine
end

