-- ==== Sys2Proof/Machine/Carillon.lean ====
section
/-! DEFINITION. The carillon: the attention engines and their query latch (R244, R245, R297), the online softmax (R247, R248),
receive slots and rotations (R246, R249 to R252, R295), chains (R257, R258), and ATTN, ROTA, RGRT, RSND and RSTAT. -/
namespace Sys2Proof.Machine
open Sys2Proof

/-! ### Engines -/

/-- Place of island 2e, whose parameter words govern engine `e` (R244). -/
def enginePlace (die e : Nat) : Nat := islandPlace die (2 * e)

def getEngine (s : State) (die e : Nat) : Engine := s.engine (engineId die e)
def editEngine (s : State) (die e : Nat) (f : Engine → Engine) : State :=
  s.setEngine (engineId die e) (f (getEngine s die e))

/-- Both islands of the pair stand in engine mode (R16). -/
def engaged (s : State) (die e : Nat) : Bool :=
  (s.island (enginePlace die e)).engine && (s.island (islandPlace die (2 * e + 1))).engine

/-- Both islands of the pair belong to the partition. -/
def ownsEngine (s : State) (part die e : Nat) : Bool :=
  SMap.find? s.owners (enginePlace die e) == some part && SMap.find? s.owners (islandPlace die (2 * e + 1)) == some part

def engineWord (s : State) (die e n : Nat) : W32 := (s.island (enginePlace die e)).p.getD n 0

/-- Query rows of a container (R244). -/
def queryRows (s : State) (die e : Nat) : Nat := ((engineWord s die e 0).extractLsb' 23 7).toNat + 1

/-- Detail word of RINGSLOT (R251). -/
def ringDetail (s : State) (die e slot reason : Nat) : W64 :=
  let step := match (getEngine s die e).rot with
    | some r => r.step
    | none => 0
  (0 : BitVec 32) ++ BitVec.ofNat 10 step ++ BitVec.ofNat 10 (ringIdx (ringReg s die)) ++ BitVec.ofNat 4 slot ++
    BitVec.ofNat 8 reason

/-! ### Online softmax (R245, R247, R248) -/

/-- `Round(x, f32, rne)`, with IV where the operation has no value. -/
def rndF32 (x : Option FVal) : W32 × FpFlags :=
  match x with
  | none => (0x7FC00000, flagIV)
  | some v => let r := roundSat fpF32 .rne .off 0 v; (BitVec.ofNat 32 r.bits, r.flags ||| flagIf v.isSignalling flagIV)

def valF32 (w : W32) : FVal := fpF32.decode w.toNat

/-- `Round(2^Round(x - y, f32, rne), ty, rne)`: the bits of the result. -/
def expDiff (ty : Fmt) (x y : W32) : Nat × FpFlags :=
  let d := rndF32 (fadd .rne (valF32 x) (valF32 y).negate)
  let r := exp2Elt ty .rne .off 0 d.1.toNat (valF32 d.1)
  (r.bits, d.2 ||| r.flags)

/-- The score of a query row against a key row (R56, R57). -/
def score (q k : List Nat) : W32 × FpFlags :=
  let c := columnSum (q.zipIdx.map fun e => (e.2, fpBf16.decode e.1)) fun i => fpBf16.decode (k.getD i 0)
  let r := rndF32 (some c.1)
  (r.1, c.2 ||| r.2)

/-- Position `p` is admitted for a query at position `t` (R245). -/
def admitted (mask : Nat) (win : W32) (t p : Nat) : Bool :=
  match mask with
  | 0 => true
  | 1 => decide (p ≤ t)
  | _ => decide (p ≤ t) && decide (t - p < win.toNat)

/-- One query's state: m, l, its row of O and its nan mark. -/
structure QState where
  m : W32
  l : W32
  o : List W32
  bad : Bool
deriving DecidableEq, Repr

/-- A list of roundings and their flags. -/
def gatherFlags (l : List (W32 × FpFlags)) : List W32 × FpFlags := (l.map (·.1), l.foldl (fun f e => f ||| e.2) 0)

/-- The rescale of R247 when a score exceeds the maximum. -/
def rescale (x : QState) (s : W32) : QState × FpFlags :=
  let c := expDiff .f32 x.m s
  let cv := fpF32.decode c.1
  let o := gatherFlags (x.o.map fun w => rndF32 (fmul (valF32 w) cv))
  let l := rndF32 (fmul (valF32 x.l) cv)
  ({ x with m := s, l := l.1, o := o.1 }, c.2 ||| o.2 ||| l.2)

/-- One admitted position whose score is neither −∞, +∞ nor NaN (R247). -/
def applyScore (x : QState) (s : W32) (v : List Nat) : QState × FpFlags :=
  let r := if fltNum (valF32 x.m) (valF32 s) then rescale x s else (x, 0)
  let x := r.1
  let pr := expDiff .bf16x2 s x.m
  let pv := fpBf16.decode pr.1
  let l := rndF32 (fadd .rne (valF32 x.l) pv)
  let o := gatherFlags (x.o.zipIdx.map fun e =>
    let vv := fpBf16.decode (v.getD e.2 0)
    let y := rndF32 ((fmul pv vv).bind fun p => fadd .rne (valF32 e.1) p)
    (y.1, y.2 ||| flagIf vv.isSignalling flagIV))
  ({ x with l := l.1, o := o.1 }, r.2 ||| pr.2 ||| l.2 ||| o.2)

/-- One position for one query (R247). -/
def applyQuery (mask : Nat) (win : W32) (t p : Nat) (q k v : List Nat) (x : QState) : QState × FpFlags :=
  if !admitted mask win t p then (x, 0)
  else
    let s := score q k
    match valF32 s.1 with
    | .inf true => (x, 0)
    | .fin _ _ _ => let r := applyScore x s.1 v; (r.1, s.2 ||| r.2)
    | _ => ({ x with bad := true }, s.2 ||| flagIV)

def Engine.query? (g : Engine) (i : Nat) : QState := ⟨g.m.getD i 0, g.l.getD i 0, g.o.getD i [], g.bad.getD i false⟩

def Engine.putQuery (g : Engine) (i : Nat) (x : QState) : Engine :=
  { g with m := g.m.set i x.m, l := g.l.set i x.l, o := g.o.set i x.o, bad := g.bad.set i x.bad }

/-- ROW_APPLY (R247): the row at position `p`, for query rows 0 to n − 1 in turn. -/
def applyRow (w : Nat → W32) (p : Nat) (k v : List Nat) (g : Engine) : Nat → Engine × FpFlags
  | 0 => (g, 0)
  | n + 1 =>
    let r := applyRow w p k v g n
    let mask := ((w 0).extractLsb' 30 2).toNat
    let x := applyQuery mask (w 2) ((w 1).toNat + n) p (r.1.query.getD n []) k v (r.1.query? n)
    (r.1.putQuery n x.1, r.2 ||| x.2)

/-- A row is applied to engine `e`; its flags go to context `id` (R247). -/
def applyAt (s : State) (die e id p : Nat) (kv : List Nat × List Nat) : State :=
  let g := getEngine s die e
  let r := applyRow (engineWord s die e) p kv.1 kv.2 g g.query.length
  raiseAt (s.setEngine (engineId die e) r.1) id r.2

/-- `Round(o ÷ l, f32, rne)` for an l that is not zero (R248). -/
def divF32 (o l : W32) : W32 × FpFlags :=
  match valF32 o, valF32 l with
  | .nan _, _ | _, .nan _ => (0x7FC00000, 0)
  | .inf _, .inf _ => (0x7FC00000, flagIV)
  | .inf a, .fin b _ _ => rndF32 (some (.inf (a != b)))
  | .fin a _ _, .inf b => rndF32 (some (.fin (a != b) 0 0))
  | .fin a m e, .fin b n f =>
    if n = 0 ∨ m = 0 then rndF32 (some (.fin (a != b) 0 0))
    else
      let k := bitLen n + 64
      let y := roundTo fpF32 .rne (a != b) (m * 2 ^ k / n) (e - f - k) (m * 2 ^ k % n != 0) 0
      (BitVec.ofNat 32 (fpF32.encode y.val), y.flags)

/-- Output row of one query (R248). -/
def outputRow (x : QState) : List Lane × FpFlags :=
  if x.bad then (List.replicate 128 (some 0x7FC00000), 0)
  else if x.l = 0 then (List.replicate 128 none, 0)
  else
    let r := gatherFlags (x.o.map fun w => divF32 w x.l)
    (r.1.map some, r.2)

/-- The engine emits its output rows and EG under the tag of context `id`, and clears m, l, O, nan and the latch (R248). The
key of the rows is a free value (log 7). -/
def emitOutput (s : State) (die e id : Nat) : State :=
  let g := getEngine s die e
  let rows := (List.range g.query.length).map fun i => outputRow (g.query? i)
  let tag := BitVec.ofNat 3 (id % 8)
  let key := (Config.freeWord s.draws).extractLsb' 0 12
  let s := { s with draws := s.draws + 1 }
  let s := raiseAt s id (rows.foldl (fun f r => f ||| r.2) 0)
  let s := editIsland s (enginePlace die e) fun x => { x with
    out := x.out ++ (rows.flatMap fun r => rowTokens tag key r.1 true) ++ [(.mark tag .eg 0, false)] }
  let fresh : Engine := {}
  let s := editEngine s die e fun g => { g with
    query := [], row := [], latched := false, m := fresh.m, l := fresh.l, o := fresh.o, bad := fresh.bad }
  islandDrain s (enginePlace die e) 16

/-! ### Blocks in memory (R295) -/

/-- K accesses at ring scope (R170). -/
def viaRing (s : State) (id : Nat) : Via :=
  { place := id / 8, part := (s.ctx id).part, l1 := false, scope := .ring, who := some (ctxRef id) }

def bf16Row (b : List Byte) : List Nat := (List.range 128).map fun i => leNat ((b.drop (2 * i)).take 2)
def rowBytes (l : List Nat) : List Byte := l.flatMap fun v => natBytes 2 v

def readHeader (s : State) (v : Via) (va : Nat) : Acc W64 :=
  match loadBytes s v va 8 with
  | (s, .error e) => (s, .error e)
  | (s, .ok b) => (s, .ok (BitVec.ofNat 64 (leNat b)))

/-- Key row and value row `r` of the block at `va`. -/
def readRow (s : State) (v : Via) (va r : Nat) : Acc (List Nat × List Nat) :=
  match loadBytes s v (va + 128 + 512 * r) 512 with
  | (s, .error e) => (s, .error e)
  | (s, .ok b) => (s, .ok (bf16Row (b.take 256), bf16Row (b.drop 256)))

/-! ### ATTN (R320) -/

/-- Where an ATTN stands: the engine, the ATTN's fields, its operands. -/
structure Attn where
  die : Nat
  e : Nat
  d : Dst
  emit : Bool
  base : BitVec 3
deriving DecidableEq, Repr

/-- The firing in focus leaves the queue of its engine. -/
def dropJob (s : State) (x : Attn) : State :=
  editEngine s x.die x.e fun g => { g with jobs := g.jobs.filter (· ≠ (s.focus.ctxId, s.focus.ins, s.focus.frame)) }

/-- The engine's pair lies in the partition, stands in engine mode with no rotation armed, and the block is aligned: else the fault of
lane `j` (R320). -/
def attnRefused (s : State) (x : Attn) (va : Nat) (at' : Resume) : Option State :=
  if !ownsEngine s s.here.part x.die x.e then some (faultFiring s codeProtection none none at')
  else if !engaged s x.die x.e || (getEngine s x.die x.e).rot.isSome then
    some (faultFiring s codeRingslot (some 0) (some (ringDetail s x.die x.e 0 4)) at')
  else if va % 128 ≠ 0 then some (accessFault s (faultAlign va) none at')
  else none

/-- A fault stops the ATTN in focus at row `r` of lane `j`: one that has begun no block gives up its place in the queue (R320, DEDUCED,
log 66). -/
def attnStop (s : State) (x : Attn) (o : Opnds) (j r : Nat) : State :=
  if r = 0 ∧ (o.a.take j).all Option.isNone then dropJob s x else s

/-- Address of the block that a lane names. -/
def attnVa (s : State) (x : Attn) (a : W32) : Nat := (((baseVa s x.base : Int) + a.toInt * 128) % 2 ^ 56).toNat

/-- Applies rows r to n − 1 of a block: where it stopped, at a fault or for want of the latch. -/
def attnRows (s : State) (x : Attn) (va : Nat) (h : W64) (r : Nat) : Nat → State × Option (Nat × Option MemFault)
  | 0 => (s, none)
  | m + 1 =>
    if !(getEngine s x.die x.e).latched then (s, some (r, none))
    else match readRow s (viaRing s s.focus.ctxId) va r with
      | (s, .error e) => (s, some (r, some e))
      | (s, .ok kv) =>
        attnRows (applyAt s x.die x.e s.focus.ctxId ((headerFirst h).toNat + r) kv) x va h (r + 1) m

/-- The lanes from `j` on, the first of them from row `r` on. -/
def attnLanes (s : State) (x : Attn) (o : Opnds) (r : Nat) : List Nat → State
  | [] =>
    let emits := x.emit && o.anyLane
    if emits && !(getEngine s x.die x.e).latched then beginWork s (.attend o.k 0)
    else
      let s := if emits then emitOutput s x.die x.e s.focus.ctxId else s
      finishStatus (dropJob s x) x.d o (statusLanes o.a)
  | j :: rest =>
    match laneAt o.a j with
    | none => attnLanes s x o 0 rest
    | some a =>
      let va := attnVa s x a
      let here : Resume := { lane := j, at' := some r }
      match attnRefused (attnStop s x o j r) x va here with
      | some s => s
      | none =>
        match readHeader s (viaRing s s.focus.ctxId) va with
        | (s, .error e) => accessFault (attnStop s x o j r) e none here
        | (s, .ok h) =>
          if !headerOk h then faultFiring (attnStop s x o j r) codeRingslot (some h) (some (ringDetail s x.die x.e 0 5)) here
          else match attnRows s x va h r (headerRows h - r) with
            | (s, none) => attnLanes s x o 0 rest
            | (s, some (r, none)) => beginWork s (.attend j r)
            | (s, some (r, some e)) => accessFault (attnStop s x o j r) e none { lane := j, at' := some r }

/-- The ATTN in focus goes on from a lane and row. -/
def attnGo (s : State) (x : Attn) (lane row : Nat) : State :=
  let o := operands s
  attnLanes s x o row ((List.range o.k).drop lane)

/-- Jobs of an engine whose firings have not ended otherwise: skipped or killed. -/
def liveJobs (s : State) (g : Engine) : List (Nat × Nat × Nat) := g.jobs.filter fun j => isBusy (s.ctx j.1) j.2.1 j.2.2

/-- A fault has stopped the firing of a job. -/
def jobStopped (s : State) (j : Nat × Nat × Nat) : Bool :=
  (s.ctx j.1).stops.any fun x => match x.site with
    | .firing i f k _ => covers j.2.1 j.2.2 i f k
    | _ => false

/-- The job's turn has come: those before it have ended, but for younger firings of its own context that a fault has stopped, which hold
no older frame back (R320, R227). -/
def jobTurn (s : State) (jobs : List (Nat × Nat × Nat)) (me : Nat × Nat × Nat) : Bool :=
  (jobs.takeWhile (· ≠ me)).all fun j => j.1 == me.1 && decide (me.2.2 < j.2.2) && jobStopped s j

/-- ATTN (R320): its blocks are applied whole, after those of every ATTN that the engine accepted before it. -/
def execAttn (d : Dst) (obj : BitVec 6) (emit : Bool) (base : BitVec 3) (s : State) : Out :=
  let o := operands s
  let f := s.focus
  let x : Attn := ⟨f.die, obj.toNat, d, emit, base⟩
  let r := resumeHere s
  let row := r.at'.getD 0
  match ((List.range o.k).drop r.lane).find? fun j => (laneAt o.a j).isSome with
  | none => .next (attnGo s x r.lane row)
  | some j =>
    match attnRefused s x (attnVa s x ((laneAt o.a j).getD 0)) { lane := j, at' := some row } with
    | some s => .next s
    | none =>
      let me := (f.ctxId, f.ins, f.frame)
      let g := getEngine s f.die obj.toNat
      let jobs := g.jobs.filter fun j => j = me ∨ isBusy (s.ctx j.1) j.2.1 j.2.2
      let jobs := if jobs.contains me then jobs else jobs ++ [me]
      let s := s.setEngine (engineId f.die obj.toNat) { g with jobs := jobs }
      if jobTurn s jobs me then .next (attnGo s x r.lane row) else .next (beginWork s (.attend r.lane row))

/-- The ATTN firings that wait at an engine go on, one after the other. -/
def runJobs (s : State) (die e : Nat) : Nat → State
  | 0 => s
  | n + 1 =>
    let g := getEngine s die e
    let jobs := liveJobs s g
    let s := s.setEngine (engineId die e) { g with jobs := jobs }
    match jobs.find? fun j => jobTurn s jobs j && !jobStopped s j with
    | none => s
    | some (id, ins, frame) =>
      let c := s.ctx id
      if g.rot.isSome || c.frozen then s
      else match inflightOf c ins frame, Image.instr c.image ins with
        | some w, some (.attn d _ emit base) =>
          match w.work with
          | .attend lane row =>
            let s := s.setCtx id { c with inflight := c.inflight.filter (· ≠ w) }
            runJobs (withFocus s id ins frame w.k fun s => attnGo s ⟨die, e, d, emit, base⟩ lane row) die e n
          | _ => s
        | _, _ => s

/-! ### The query latch (R245, R297) -/

/-- The 128 elements of a query row: absent and invalid positions hold zero. -/
def queryElts (l : List Lane) : List Nat :=
  (List.range 128).map fun i => match l.getD (i / 2) none with
    | some w => elt 16 (i % 2) w
    | none => 0

/-- Lanes of a q token, invalid elements of the final lane zeroed. -/
def queryLanes (n : BitVec 4) (l : List Lane) : List Lane := trimLast .bf16x2 n.toNat l

def latchToken (s : State) (die e ch : Nat) (t : Token) : State :=
  let s := consume s ch
  match t with
  | .data _ _ _ _ n l => editEngine s die e fun g => { g with row := g.row ++ queryLanes n l }
  | .mark _ .er _ => editEngine s die e fun g => { g with query := g.query ++ [queryElts g.row], row := [] }
  | .mark _ .eg _ =>
    let nq := queryRows s die e
    editEngine s die e fun g => { g with
      query := (g.query ++ List.replicate nq (List.replicate 128 0)).take nq, row := [], latched := true }
  | t => editIsland s (enginePlace die e) fun x => { x with out := x.out ++ [(t, false)], ended := x.ended || t.isEos }

/-- QUERY_ROW_LATCH (R297): the engine takes the next token of q while its latch is open; ATTN firings that waited go on. -/
def execQueryRowLatch (die e : Nat) (s : State) : Out :=
  let p := enginePlace die e
  if !engaged s die e || (s.island p).frozen then .next s
  else
    let s := runJobs (islandDrain s p 16) die e 64
    if (getEngine s die e).latched then .next s
    else match headOf s p 32 0 with
      | none => .next s
      | some (ch, t) => .next (runJobs (islandDrain (latchToken s die e ch t) p 16) die e 64)

/-! ### Rotations (R249 to R252) -/

/-- Some record stands for the rotation, and holds it. -/
def rotationStopped (s : State) (die e : Nat) (r : Rotation) : Bool :=
  (s.ctx r.ctx).stops.any fun x => match x.site with
    | .ring d g _ => d == die && g == e
    | .rotation d g _ _ _ => d == die && g == e
    | _ => false

/-- RINGSLOT reason 5 on the context that armed the rotation (R251). -/
def badBlock (s : State) (die e k : Nat) (h : W64) (r : Rotation) : State :=
  takeFault s r.ctx codeRingslot (sourceAt (r.ctx / 8) (r.ins % 16)) r.frame r.ins (some h) (some (ringDetail s die e k 5))
    (.ring die e k) (some r.frame)

def setRotation (s : State) (die e : Nat) (r : Rotation) : State := editEngine s die e fun g => { g with rot := some r }

/-- The slot of the step's block, and its header (R250, R391). -/
def stepSlot (g : Engine) (r : Rotation) : Option (Nat × W64) :=
  ((List.range 8).find? (holdsStep g r)).bind fun k => (g.slots.getD k {}).header.map fun h => (k, h)

/-- Offset of row `n` of slot `k` in the scratchpad of island 2e's tile (R244). -/
def slotOffset (s : State) (die e k n : Nat) : Nat := (slotArea (s.island (enginePlace die e)).p).1 + 65536 * k + 512 * n

/-- Key row and value row `n` of slot `k`, as they lie in the scratchpad of island 2e's tile (R244). -/
def rowBytesAt (s : State) (die e k n : Nat) : List Nat × List Nat :=
  let m := (s.tile (enginePlace die e)).scratch
  let at' := slotOffset s die e k n
  (bf16Row (m.bytes at' 256), bf16Row (m.bytes (at' + 256) 256))

/-- The same, none where a granule of the row is poisoned. -/
def slotRow (s : State) (die e k n : Nat) : Option (List Nat × List Nat) :=
  let at' := slotOffset s die e k n
  if (s.tile (enginePlace die e)).poison.any fun g => decide (at' / 8 ≤ g ∧ g < at' / 8 + 64) then none
  else some (rowBytesAt s die e k n)

/-- Rows of the step's block that are there: of the own block, or of a slot. -/
def blockRows (s : State) (die e : Nat) (r : Rotation) : Option Nat → Nat
  | none => r.own.length
  | some k => ((getEngine s die e).slots.getD k {}).rows

/-- Row `n` of the step's block; none where it is poisoned. -/
def blockRow (s : State) (die e : Nat) (r : Rotation) (slot : Option Nat) (n : Nat) : Option (List Nat × List Nat) :=
  match slot with
  | none => some (r.own.getD n ([], []))
  | some k => slotRow s die e k n

/-- A fault on the read of a row stops the rotation at that row (R295). -/
def stopRotation (s : State) (die e : Nat) (r : Rotation) (f : MemFault) : State :=
  let k := ((inflightOf (s.ctx r.ctx) r.ins r.frame).map Inflight.k).getD 1
  withFocus s r.ctx r.ins r.frame k fun s => faultAt s f.code (some (natW64 f.va)) none (.rotation die e r.ins r.frame k)

/-- The read of a poisoned row of a slot (R160, R244, DEDUCED, log 66). -/
def poisonedRow (s : State) (die e : Nat) (r : Rotation) (slot : Option Nat) (n : Nat) : State :=
  let at' := slotOffset s die e (slot.getD 0) n
  let g := ((s.tile (enginePlace die e)).poison.find? fun g => decide (at' / 8 ≤ g)).getD (at' / 8)
  stopRotation s die e r (faultPoison (scratchVa (8 * g)))

/-- The header leaves for the slot of the oldest grant held (R250); none while no grant is held. -/
def openSend (s : State) (die e : Nat) (r : Rotation) (h : W64) : Option (State × Rotation × Nat) :=
  match r.slot with
  | some t => some (s, r, t)
  | none =>
    match (getEngine s die e).held with
    | [] => none
    | t :: rest =>
      let s := editEngine s die e fun g => { g with held := rest }
      let r := { r with slot := some t }
      some (sendItem (setRotation s die e r) die e t
        (.header (makeHeader (headerFirst h) (headerRows h) (headerOrigin h) (r.step + 1))), r, t)

/-- Sends the rows that have been applied and not sent on (R250). -/
def forwardRows (s : State) (die e : Nat) (r : Rotation) (h : W64) (slot : Option Nat) : Nat → State
  | 0 => s
  | m + 1 =>
    if r.applied ≤ r.sent then s
    else match openSend s die e r h with
      | none => s
      | some (s, r, t) =>
        match blockRow s die e r slot r.sent with
        | none => poisonedRow s die e r slot r.sent
        | some kv =>
          let r := { r with sent := r.sent + 1 }
          forwardRows (sendItem (setRotation s die e r) die e t (.row kv.1 kv.2)) die e r h slot m

/-- The block of the step is applied and sent on: its slot is freed, and the next step begins (R250). -/
def endStep (s : State) (die e : Nat) (r : Rotation) (h : W64) (slot : Option Nat) : State :=
  let due := decide (r.step + 1 < r.steps)
  let free (s : State) (r : Rotation) : State :=
    let s := setRotation s die e r.advance
    match slot with
    | some k => freeSlot s die e k (!due)
    | none => s
  if due then
    match openSend s die e r h with
    | none => s
    | some (s, r, t) => free (sendItem s die e t .close) r
  else free s r

/-- One move of a rotation on the step's block, with header `h`; `whole` when its EG has come. -/
def moveBlock (s : State) (die e : Nat) (r : Rotation) (h : W64) (slot : Option Nat) (whole : Bool) : State :=
  let n := headerRows h
  let due := decide (r.step + 1 < r.steps) && !r.chain
  let forward (s : State) (r : Rotation) : State := if due then forwardRows s die e r h slot 128 else s
  if due && decide (r.sent < r.applied) then forward s r
  else if r.applied < blockRows s die e r slot then
    if n ≤ r.applied then badBlock s die e (slot.getD 0) h r
    else if !(getEngine s die e).latched then s
    else match blockRow s die e r slot r.applied with
      | none => poisonedRow s die e r slot r.applied
      | some kv =>
        let s := applyAt s die e r.ctx ((headerFirst h).toNat + r.applied) kv
        let r := { r with applied := r.applied + 1 }
        forward (setRotation s die e r) r
  else if !whole then s
  else if r.applied < n then badBlock s die e (slot.getD 0) h r
  else endStep s die e r h slot

/-- Reads the next row of the own block, or asks the head tile of the chain for it (R250, R258, R295). -/
def fetchRow (s : State) (die e : Nat) (r : Rotation) : State :=
  if r.chain then
    if r.requested = r.own.length then
      let p := placeOf die (r.va.toNat / 2 ^ 40 % 256)
      let t := s.tile p
      let pos := (headerFirst r.header).toNat + r.own.length
      setRotation (s.setTile p { t with chain := t.chain ++ [(e, pos, 0)] }) die e { r with requested := r.own.length + 1 }
    else s
  else if !(getEngine s die e).latched then s
  else match readRow s (viaRing s r.ctx) r.va.toNat r.own.length with
    | (s, .ok kv) => setRotation s die e { r with own := r.own ++ [kv] }
    | (s, .error f) => stopRotation s die e r f

/-- One move of the rotation armed on an engine (R250). -/
def rotationMove (s : State) (die e : Nat) : State :=
  match (getEngine s die e).rot with
  | none => s
  | some r =>
    if r.emitting || rotationStopped s die e r || (s.island (enginePlace die e)).frozen then s
    else if r.step = 0 then
      let n := headerRows r.header
      let s := if r.own.length = r.applied ∧ r.applied < n then fetchRow s die e r else s
      match (getEngine s die e).rot with
      | some r => if rotationStopped s die e r then s
        else moveBlock s die e r r.header none (decide (headerRows r.header ≤ r.own.length))
      | none => s
    else match badSlot s die e r, stepSlot (getEngine s die e) r with
      | some (k, h), _ => badBlock s die e k h r
      | none, some (k, h) => moveBlock s die e r h (some k) ((getEngine s die e).slots.getD k {}).closed
      | none, none => s

/-- Bytes of a row in its slot's memory on the tile of island 2e (R244). -/
def landBytes (s : State) (die e k n : Nat) (kv : List Nat × List Nat) : State :=
  let p := enginePlace die e
  let base := slotOffset s die e k n
  let t := s.tile p
  let bs := rowBytes kv.1 ++ rowBytes kv.2
  s.setTile p { t with
    scratch := t.scratch.writeBytes base (bs.map some)
    poison := t.poison.filter fun g => !(decide (base / 8 ≤ g ∧ g < base / 8 + 64)) }

/-- The next item on the way from the predecessor reaches its slot (R249, R296). -/
def landItem (s : State) (die e : Nat) : State :=
  let g := getEngine s die e
  match g.arriving with
  | [] => s
  | (k, x) :: rest =>
    let sl := g.slots.getD k {}
    let put (y : RingSlot) : State := s.setEngine (engineId die e) { g with arriving := rest, slots := g.slots.set k y }
    match x with
    | .marker => s
    | .header h =>
      let twin (y : RingSlot) : Bool := y.header.any fun z => headerStep z == headerStep h
      put { sl with granted := false, header := some h, rows := 0, closed := false, doubled := g.slots.any twin }
    | .row a b =>
      if sl.header.isSome && !sl.closed && decide (sl.rows < 128) then
        landBytes (put { sl with rows := sl.rows + 1 }) die e k sl.rows (a, b)
      else put sl
    | .close => if sl.header.isSome then put { sl with closed := true } else put sl

/-- RING_ROW_ARRIVAL (R250): what arrives goes into its slot, and the rotation makes its next move: it applies a row, sends it
on, or ends a step. -/
def execRingRowArrival (die e : Nat) (s : State) : Out :=
  if (s.island (enginePlace die e)).frozen then .next s
  else .next (rotationMove (landItem s die e) die e)

/-- GRANT_ARRIVAL (R249): a grant joins the grants held; a row that waited for it is sent on. -/
def execGrantArrival (die e : Nat) (s : State) : Out :=
  let g := getEngine s die e
  match g.grants with
  | [] => .next s
  | k :: rest =>
    .next (rotationMove (s.setEngine (engineId die e) { g with grants := rest, held := g.held ++ [k] }) die e)

/-- ROTATION_EMIT (R248, R295): the rows and EG, the end of the rotation, and ROTA's done lanes. -/
def execRotationEmit (die e : Nat) (s : State) : Out :=
  let g := getEngine s die e
  match g.rot with
  | none => .next s
  | some r =>
    if !r.emitting || !g.latched || rotationStopped s die e r || (s.island (enginePlace die e)).frozen ||
      (s.ctx r.ctx).frozen then .next s
    else
      let s := endRotation (emitOutput s die e r.ctx) die e
      let c := s.ctx r.ctx
      match inflightOf c r.ins r.frame, Image.instr c.image r.ins with
      | some w, some i =>
        let s := s.setCtx r.ctx { c with inflight := c.inflight.filter (· ≠ w) }
        .next (withFocus s r.ctx r.ins r.frame w.k fun s => finishN32 s (dstOf i) (statusLanes (operands s).a))
      | _, _ => .next s

/-! ### ROTA, RGRT, RSND and RSTAT (R295, R296, R391 to R393) -/

/-- bX.va describes a chain's block (R295). -/
def chainOk (va : Nat) : Bool := decide (va / 2 ^ 48 = 0) && decide (va / 2 ^ 40 % 256 ≤ 143) && decide (va / 2 ^ 39 % 2 = 0)

/-- Own block's header with this member's origin; ROTA ignores origin and step (R250, R295). -/
def ownHeader (s : State) (die : Nat) (h : W64) : W64 :=
  makeHeader (headerFirst h) (headerRows h) (ringIdx (ringReg s die)) 0

/-- Arms a rotation for the firing in focus. -/
def armRotation (s : State) (e steps : Nat) (chain : Bool) (va : Nat) (h : W64) : State :=
  let f := s.focus
  let r : Rotation := { ctx := f.ctxId, ins := f.ins, frame := f.frame, steps := steps, header := ownHeader s f.die h
                        chain := chain, va := natW64 va }
  editEngine s f.die e fun g => { g with rot := some r }

/-- The first non-empty lane of a ROTA from `j` on arms the rotation; a further one finds it armed. -/
def rotaLanes (s : State) (e steps : Nat) (chain : Bool) (base : BitVec 3) (d : Dst) (o : Opnds) : List Nat → State
  | [] => match (getEngine s s.focus.die e).rot with
    | some r => if r.ctx = s.focus.ctxId ∧ r.ins = s.focus.ins ∧ r.frame = s.focus.frame then beginWork s (.rotation e)
      else finishN32 s d (statusLanes o.a)
    | none => finishN32 s d (statusLanes o.a)
  | j :: rest =>
    let die := s.focus.die
    let ring := ringReg s die
    let ringFault (s : State) (aux : W64) (reason : Nat) : State :=
      faultFiring s codeRingslot (some aux) (some (ringDetail s die e 0 reason)) { lane := j }
    if (laneAt o.a j).isNone then rotaLanes s e steps chain base d o rest
    else if !ownsEngine s s.here.part die e then faultFiring s codeProtection none none { lane := j }
    else if !ringEn ring ∨ ringCount ring < steps then ringFault s 0 3
    else if !engaged s die e ∨ (getEngine s die e).rot.isSome then ringFault s 0 4
    else
      let va := baseVa s base
      if chain then
        if !chainOk va then accessFault s (faultAlign va) none { lane := j }
        else
          let h : W64 := makeHeader (BitVec.ofNat 32 va) (va / 2 ^ 32 % 128 + 1) 0 0
          rotaLanes (armRotation s e steps true va h) e steps chain base d o rest
      else if va % 128 ≠ 0 then accessFault s (faultAlign va) none { lane := j }
      else match readHeader s (viaRing s s.focus.ctxId) va with
        | (s, .error f) => accessFault s f none { lane := j }
        | (s, .ok h) =>
          if !headerOk h then ringFault s h 5
          else rotaLanes (armRotation s e steps false va h) e steps chain base d o rest

/-- ROTA (R250, R295): arms the rotation; the firing waits for ROTATION_EMIT. -/
def execRota (d : Dst) (obj : BitVec 6) (n : BitVec 10) (chain : Bool) (base : BitVec 3) (s : State) : Out :=
  let o := operands s
  .next (rotaLanes s obj.toNat (n.toNat + 1) chain base d o ((List.range o.k).drop (resumeHere s).lane))

/-- Receive slots of an engine (R244). -/
def slotCount (s : State) (die e : Nat) : Nat := ((engineWord s die e 0).extractLsb' 20 3).toNat + 1

/-- Marks a slot granted and sends its grant (R249). -/
def grantSlot (s : State) (die e k : Nat) (recur : Bool) : State :=
  sendGrant (editEngine s die e fun g => { g with slots := g.slots.set k { granted := true, recurring := recur } }) die e k

def rgrtLanes (s : State) (e k : Nat) (recur : Bool) (d : Dst) (o : Opnds) : List Nat → State
  | [] => finishN32 s d (statusLanes o.a)
  | j :: rest =>
    let die := s.focus.die
    if (laneAt o.a j).isNone then rgrtLanes s e k recur d o rest
    else if !ownsEngine s s.here.part die e then faultFiring s codeProtection none none { lane := j }
    else if !ringEn (ringReg s die) || !engaged s die e || decide (slotCount s die e ≤ k) ||
        !slotFree ((getEngine s die e).slots.getD k {}) then
      faultFiring s codeRingslot (some 0) (some (ringDetail s die e k 2)) { lane := j }
    else rgrtLanes (grantSlot s die e k recur) e k recur d o rest

/-- RGRT (R249, R296). -/
def execRgrt (d : Dst) (obj : BitVec 6) (slot : BitVec 3) (recur : Bool) (s : State) : Out :=
  let o := operands s
  .next (rgrtLanes s obj.toNat slot.toNat recur d o ((List.range o.k).drop (resumeHere s).lane))

/-- Sends rows r to n − 1 of the block at `va` into slot `k` of the successor; where it stopped at a fault. -/
def sendRows (s : State) (e va k r : Nat) : Nat → State × Option (Nat × MemFault)
  | 0 => (s, none)
  | m + 1 =>
    match readRow s (viaRing s s.focus.ctxId) va r with
    | (s, .error f) => (s, some (r, f))
    | (s, .ok kv) => sendRows (sendItem s s.focus.die e k (.row kv.1 kv.2)) e va k (r + 1) m

/-- The lanes of an RSND. `at'` is set for a lane whose header has left: the rows it named, the next row, and its slot. -/
def rsndLanes (s : State) (e : Nat) (base : BitVec 3) (d : Dst) (o : Opnds) (at' : Option Nat) : List Nat → State
  | [] => finishStatus s d o (statusLanes o.a)
  | j :: rest =>
    let f := s.focus
    match laneAt o.a j with
    | none => rsndLanes s e base d o none rest
    | some a =>
      let va := (((baseVa s base : Int) + a.toInt * 128) % 2 ^ 56).toNat
      let go (s : State) (k r n : Nat) : State :=
        match sendRows s e va k r (n - r) with
        | (s, some (r, x)) => faultAt s x.code (some (natW64 x.va)) none
            (.send f.die e k f.ins f.frame f.k { lane := j, at' := some (2048 * n + 8 * r + k) })
        | (s, none) => rsndLanes (sendItem s f.die e k .close) e base d o none rest
      match at' with
      | some x => go s (x % 8) (x / 8 % 256) (x / 2048)
      | none =>
        if !ownsEngine s s.here.part f.die e then faultFiring s codeProtection none none { lane := j }
        else match (getEngine s f.die e).held, !ringEn (ringReg s f.die) || (getEngine s f.die e).rot.isSome with
          | k :: held, false =>
            if va % 128 ≠ 0 then accessFault s (faultAlign va) none { lane := j }
            else match readHeader s (viaRing s f.ctxId) va with
              | (s, .error y) => accessFault s y none { lane := j }
              | (s, .ok h) =>
                let s := editEngine s f.die e fun g => { g with held := held }
                go (sendItem s f.die e k (.header h)) k 0 (headerRows h)
          | _, _ => faultFiring s codeRingslot (some 0) (some (ringDetail s f.die e 0 1)) { lane := j }

/-- RSND (R391, R392). -/
def execRsnd (d : Dst) (obj : BitVec 6) (base : BitVec 3) (s : State) : Out :=
  let o := operands s
  let r := resumeHere s
  .next (rsndLanes s obj.toNat base d o r.at' ((List.range o.k).drop r.lane))

/-- A block header is on its way into slot `k`: its grant is used (R296). -/
def slotTaken (g : Engine) (k : Nat) : Bool :=
  g.arriving.any fun x => x.1 == k && (match x.2 with
    | .header _ => true
    | _ => false)

/-- The status of a rotation (R252, R296). -/
def ringStatus (s : State) (die e : Nat) : W64 :=
  let g := getEngine s die e
  let bits (f : Nat → Bool) : BitVec 8 := (List.range 8).foldl (fun m k => if f k then m ||| BitVec.twoPow 8 k else m) 0
  let (armed, step, n) := match g.rot with
    | some r => (true, r.step, r.steps - 1)
    | none => (false, 0, 0)
  BitVec.ofBool armed ++ BitVec.ofNat 10 step ++ BitVec.ofNat 10 n ++ BitVec.ofNat 4 g.held.length ++
    bits (fun k => (g.slots.getD k {}).header.isSome || slotTaken g k) ++
    bits (fun k => (g.slots.getD k {}).granted && !slotTaken g k) ++ (0 : BitVec 23)

/-- RSTAT (R252, R393). -/
def execRstat (d : Dst) (obj : BitVec 6) (hi : Bool) (s : State) : Out :=
  let o := operands s
  let die := s.focus.die
  if o.anyLane && !ownsEngine s s.here.part die obj.toNat then .next (faultFiring s codeProtection none none {})
  else
    let w := if engaged s die obj.toNat then ringStatus s die obj.toNat else 0
    let v : W32 := if hi then w.extractLsb' 32 32 else w.extractLsb' 0 32
    .next (finishN32 s d (o.a.map fun l => l.map fun _ => v))

/-! ### Chains (R257, R258) -/

/-- A chain request has been answered: with the row, with none, or with a fault of its read. -/
def answerChain (s : State) (die e : Nat) (a : Except MemFault (Option (List Nat × List Nat))) : State :=
  match (getEngine s die e).rot with
  | none => s
  | some r =>
    match a with
    | .ok (some kv) =>
      let own := r.own ++ [kv]
      setRotation s die e { r with own := own, chain := decide (own.length < headerRows r.header) }
    | .ok none =>
      let n := r.own.length
      setRotation s die e { r with header := makeHeader (headerFirst r.header) n (headerOrigin r.header) 0, chain := false }
    | .error f => stopRotation (setRotation s die e { r with requested := r.own.length }) die e r f

/-- CHAIN_POSITION_REQUEST (R257, R258): the tile serves the oldest request, forwards it, or ends the chain. -/
def execChainPositionRequest (die tile : Nat) (s : State) : Out :=
  let p := placeOf die tile
  let t := s.tile p
  match t.chain with
  | [] => .next s
  | (e, pos, lo) :: rest =>
    let s := s.setTile p { t with chain := rest }
    let w := t.limit
    let limit := (w.extractLsb' 0 32).toNat
    if !w.getLsbD 63 then .next (answerChain s die e (.ok none))
    else if pos ≤ limit then
      let off := (w.extractLsb' 40 14).toNat * 128 + (pos - lo) * 512
      let va := 2 ^ 56 - 2 ^ 21 + off
      match (getEngine s die e).rot with
      | none => .next s
      | some r =>
        if pos < lo then .next (answerChain s die e (.ok none))
        else if 2 ^ 21 < off + 512 then .next (answerChain s die e (.error (faultProtection (va % 2 ^ 56))))
        else match loadBytes s { viaRing s r.ctx with place := p } va 512 with
          | (s, .error f) => .next (answerChain s die e (.error f))
          | (s, .ok b) => .next (answerChain s die e (.ok (some (bf16Row (b.take 256), bf16Row (b.drop 256)))))
    else if w.getLsbD 62 then .next (answerChain s die e (.ok none))
    else
      let q := placeOf die (w.extractLsb' 54 8).toNat
      let n := s.tile q
      .next (s.setTile q { n with chain := n.chain ++ [(e, pos, limit + 1)] })

end Sys2Proof.Machine
end

