-- ==== Sys2Proof/Machine/Crypto.lean ====
section
/-! DEFINITION. The functions of the standards that R8 names for images, digests and signatures: SHAKE256 (FIPS 202) and the
verification of ML-DSA-65 (FIPS 204). The spec names the standards and prints neither; their text stands here (PRESUMED, log 9). -/
namespace Sys2Proof.Machine
open Sys2Proof

/-! ### Keccak and SHAKE (FIPS 202) -/

/-- Round constants of Keccak-f[1600]. -/
def keccakRc : List W64 :=
  [0x0000000000000001, 0x0000000000008082, 0x800000000000808A, 0x8000000080008000, 0x000000000000808B, 0x0000000080000001] ++
  [0x8000000080008081, 0x8000000000008009, 0x000000000000008A, 0x0000000000000088, 0x0000000080008009, 0x000000008000000A] ++
  [0x000000008000808B, 0x800000000000008B, 0x8000000000008089, 0x8000000000008003, 0x8000000000008002, 0x8000000000000080] ++
  [0x000000000000800A, 0x800000008000000A, 0x8000000080008081, 0x8000000000008080, 0x0000000080000001, 0x8000000080008008]

/-- Rotation of lane x + 5y. -/
def keccakRot : List Nat := [0, 1, 62, 28, 27, 36, 44, 6, 55, 20, 3, 10, 43, 25, 39, 41, 45, 15, 21, 8, 18, 2, 61, 56, 14]

/-- One round on the 25 lanes: θ, ρ and π, χ, ι. -/
def keccakRound (a : List W64) (rc : W64) : List W64 :=
  let lane (l : List W64) (x y : Nat) : W64 := l.getD (x % 5 + 5 * (y % 5)) 0
  let col (x : Nat) : W64 := lane a x 0 ^^^ lane a x 1 ^^^ lane a x 2 ^^^ lane a x 3 ^^^ lane a x 4
  let cols := (List.range 5).map col
  let c (x : Nat) : W64 := cols.getD (x % 5) 0
  let t := (List.range 25).map fun i => a.getD i 0 ^^^ c (i + 4) ^^^ (c (i + 1)).rotateLeft 1
  let b := (List.range 25).map fun i =>
    let x := (i % 5 + 3 * (i / 5)) % 5
    (lane t x (i % 5)).rotateLeft (keccakRot.getD (x + 5 * (i % 5)) 0)
  (List.range 25).map fun i =>
    let v := lane b i (i / 5) ^^^ (~~~(lane b (i % 5 + 1) (i / 5)) &&& lane b (i % 5 + 2) (i / 5))
    if i = 0 then v ^^^ rc else v

def keccak (a : List W64) : List W64 := keccakRc.foldl keccakRound a

def lanesOf (bs : List Byte) : List W64 :=
  (List.range ((bs.length + 7) / 8)).map fun i => BitVec.ofNat 64 (leNat ((bs.drop (8 * i)).take 8))

/-- Absorbs `n` blocks of `rate` bytes. -/
def absorb (rate : Nat) : Nat → List W64 → List Byte → List W64
  | 0, a, _ => a
  | n + 1, a, bs =>
    let l := lanesOf (bs.take rate)
    absorb rate n (keccak ((List.range 25).map fun i => a.getD i 0 ^^^ l.getD i 0)) (bs.drop rate)

/-- The state of SHAKE with the rate given, a message absorbed. -/
def shakeState (rate : Nat) (msg : List Byte) : List W64 :=
  let pad := rate - msg.length % rate
  let tail : List Byte := if pad = 1 then [0x9F] else 0x1F :: List.replicate (pad - 2) 0 ++ [0x80]
  absorb rate ((msg.length + pad) / rate) (List.replicate 25 0) (msg ++ tail)

def blockOf (rate : Nat) (a : List W64) : List Byte := (a.take (rate / 8)).flatMap fun w => natBytes 8 w.toNat

/-- `n` blocks of output. -/
def squeeze (rate : Nat) : Nat → List W64 → List Byte
  | 0, _ => []
  | n + 1, a => blockOf rate a ++ squeeze rate n (keccak a)

/-- SHAKE256 of a message, with an output of so many bytes (R8). -/
def shake256 (msg : List Byte) (n : Nat) : List Byte := (squeeze 136 ((n + 135) / 136) (shakeState 136 msg)).take n

/-! ### Polynomials of ML-DSA (FIPS 204) -/

def dsaQ : Nat := 8380417
abbrev Poly := List Nat

def brv8 (k : Nat) : Nat := ((List.range 8).map fun i => if k.testBit i then 2 ^ (7 - i) else 0).sum
def zeta (e : Nat) : Nat := 1753 ^ (e % 512) % dsaQ

/-- The number-theoretic transform: `n` layers, from node `k` of the tree of roots. -/
def ntt : Nat → Nat → Poly → Poly
  | 0, _, l => l
  | n + 1, k, l =>
    let a := l.take (l.length / 2)
    let b := (l.drop (l.length / 2)).map (· * zeta (brv8 k) % dsaQ)
    ntt n (2 * k) (List.zipWith (fun x y => (x + y) % dsaQ) a b) ++
      ntt n (2 * k + 1) (List.zipWith (fun x y => (x + dsaQ - y) % dsaQ) a b)

/-- Its inverse, without the division by 256. -/
def nttBack : Nat → Nat → Poly → Poly
  | 0, _, l => l
  | n + 1, k, l =>
    let a := nttBack n (2 * k) (l.take (l.length / 2))
    let b := nttBack n (2 * k + 1) (l.drop (l.length / 2))
    List.zipWith (fun x y => (x + y) % dsaQ) a b ++
      (List.zipWith (fun x y => (x + dsaQ - y) % dsaQ) a b).map (· * zeta (512 - brv8 k) % dsaQ)

def toNtt (l : Poly) : Poly := ntt 8 1 l
def ofNtt (l : Poly) : Poly := (nttBack 8 1 l).map (· * 8347681 % dsaQ)
def polyMul (a b : Poly) : Poly := List.zipWith (fun x y => x * y % dsaQ) a b
def polyAdd (a b : Poly) : Poly := List.zipWith (fun x y => (x + y) % dsaQ) a b
def polySub (a b : Poly) : Poly := List.zipWith (fun x y => (x + dsaQ - y) % dsaQ) a b

/-! ### Sampling and packing -/

/-- Coefficients below q of a byte string, three bytes each with the top bit dropped. -/
def rejected : List Byte → List Nat
  | a :: b :: c :: t =>
    let z := (c.toNat % 128) * 65536 + b.toNat * 256 + a.toNat
    if z < dsaQ then z :: rejected t else rejected t
  | _ => []

/-- 256 coefficients from SHAKE128; `fuel` blocks are far more than the sampling ever asks for. -/
def sampleNtt : Nat → List W64 → Poly → Poly
  | 0, _, l => l.take 256
  | fuel + 1, a, l => if 256 ≤ l.length then l.take 256 else sampleNtt fuel (keccak a) (l ++ rejected (blockOf 168 a))

/-- Entry (r, s) of the matrix that the seed expands to. -/
def expandA (seed : List Byte) (r s : Nat) : Poly := sampleNtt 256 (shakeState 168 (seed ++ natBytes 1 s ++ natBytes 1 r)) []

/-- Places from the bytes at hand until `i` reaches 256; `j` is drawn until it is at most `i`. -/
def placeSigns (h : Nat) : List Byte → Nat → Poly → Poly
  | [], _, c => c
  | b :: t, i, c =>
    if 256 ≤ i then c
    else if i < b.toNat then placeSigns h t i c
    else placeSigns h t (i + 1) ((c.set i (c.getD b.toNat 0)).set b.toNat (if h.testBit (i - 207) then dsaQ - 1 else 1))

/-- The challenge: 49 coefficients of ±1. -/
def sampleInBall (seed : List Byte) : Poly :=
  let bs := squeeze 136 64 (shakeState 136 seed)
  placeSigns (leNat (bs.take 8)) (bs.drop 8) 207 (List.replicate 256 0)

/-- The i-th group of `bits` bits of packed bytes. -/
def unpack (bits : Nat) (bs : List Byte) : List Nat :=
  let n := leNat bs
  (List.range 256).map fun i => n / 2 ^ (bits * i) % 2 ^ bits

/-- The hint's positions of one polynomial ascend strictly. -/
def rising : List Nat → Bool
  | a :: b :: t => decide (a < b) && rising (b :: t)
  | _ => true

/-- The hint of 55 positions in 6 polynomials; none where it is malformed. -/
def hintOf (y : List Byte) : Option (List (List Nat)) :=
  let v := y.map BitVec.toNat
  let ends := (List.range 6).map fun i => v.getD (55 + i) 0
  let starts := 0 :: ends.take 5
  let parts := List.zipWith (fun a b => (v.take b).drop a) starts ends
  if (List.zipWith (fun a b => decide (a ≤ b ∧ b ≤ 55)) starts ends).all (·) && parts.all rising &&
      ((v.take 55).drop (ends.getD 5 0)).all (· == 0) then some parts else none

/-- High part of a coefficient, moved by a hint. -/
def useHint (h : Bool) (r : Nat) : Nat :=
  let g := 261888
  let m := r % (2 * g)
  let low : Int := if m ≤ g then m else (m : Int) - 2 * g
  let (r1, r0) : Nat × Int := if (r : Int) - low = dsaQ - 1 then (0, low - 1) else ((((r : Int) - low) / (2 * g)).toNat, low)
  if !h then r1 else if 0 < r0 then (r1 + 1) % 16 else (r1 + 15) % 16

/-- Two coefficients of four bits to a byte. -/
def packHigh : List Nat → List Byte
  | a :: b :: t => BitVec.ofNat 8 (a + 16 * b) :: packHigh t
  | _ => []

/-- ML-DSA-65 verification of a message with an empty context string: public key, message, signature. -/
def mldsaVerify (key msg sig : List Byte) : Bool :=
  let seed := key.take 32
  let t1 := (List.range 6).map fun i => unpack 10 ((key.drop (32 + 320 * i)).take 320)
  let ct := sig.take 48
  let z : List (List Int) := (List.range 5).map fun i =>
    (unpack 20 ((sig.drop (48 + 640 * i)).take 640)).map fun v => (524288 : Int) - v
  match hintOf (sig.drop 3248) with
  | none => false
  | some hints =>
    let mu := shake256 (shake256 key 64 ++ [0, 0] ++ msg) 64
    let c := toNtt (sampleInBall ct)
    let zt := z.map fun p => toNtt (p.map fun v => (v % (dsaQ : Int)).toNat)
    let w1 := (List.range 6).flatMap fun r =>
      let az := (List.range 5).foldl (fun acc s => polyAdd acc (polyMul (expandA seed r s) (zt.getD s []))) (List.replicate 256 0)
      let ct1 := polyMul c (toNtt ((t1.getD r []).map (· * 8192 % dsaQ)))
      let w := ofNtt (polySub az ct1)
      packHigh (w.zipIdx.map fun e => useHint ((hints.getD r []).contains e.2) e.1)
    key.length == 1952 && sig.length == 3309 && z.all (fun p => p.all fun v => decide (v.natAbs < 524288 - 196)) &&
      shake256 (mu ++ w1) 48 == ct

end Sys2Proof.Machine
end

