-- ==== Sys2Proof/Machine/Registers.lean ====
section
/-! DEFINITION. System registers: what a written value leaves in each (R4, R53, R92, R94, R139, R144, R145, R168, R213, R224,
R229, R239, R242, R257, R259), and the floors of a tile. -/
namespace Sys2Proof.Machine
open Sys2Proof

/-! ### Values written (R4): a reserved value keeps the old field, a reserved bit is zero -/

/-- A field at bit `lo` of width `n` of a value written over `old`, under the values it admits. -/
def field64 (lo n : Nat) (admits : Nat → Bool) (old v : W64) : W64 :=
  let m : W64 := BitVec.ofNat 64 ((2 ^ n - 1) * 2 ^ lo)
  (if admits (v.toNat / 2 ^ lo % 2 ^ n) then v else old) &&& m

def floorWritten (old v : W64) : W64 := field64 52 12 (· ≠ 0) old v ||| (v &&& 0x0000FFFFFFFFFFFF)
def prioWritten (v : W32) : W32 := v &&& 7
def fpmodeWritten (old v : W32) : W32 := writeFields [(3, 5, anyVal), (0, 3, (· ≤ 5))] old v
def fpflagsWritten (v : W32) : W32 := v &&& 0x1F
/-- ctx.handler (R229): a target of another kind than 00 is reserved. -/
def handlerWritten (old v : W32) : W32 := writeFields [(31, 1, anyVal), (28, 3, anyVal), (17, 11, (· < 512))] old v
def baseWritten (v : W64) : W64 := v &&& 0x00FFFFFFFFFFFFFF
/-- tile.limit (R257). -/
def limitWritten (old v : W64) : W64 :=
  field64 62 2 anyVal old v ||| field64 54 8 (· ≤ 143) old v ||| field64 40 14 anyVal old v ||| field64 0 32 anyVal old v
/-- vigil.window (R239). -/
def vigilWritten (old v : W64) : W64 := field64 58 6 (fun n => 16 ≤ n && n ≤ 40) old v ||| field64 12 44 anyVal old v
/-- ring.next (R242). -/
def ringWritten (old v : W64) : W64 :=
  field64 53 11 anyVal old v ||| field64 43 10 (· ≠ 0) old v ||| field64 15 28 anyVal old v
def sramWritten (old v : W32) : W32 := writeFields [(0, 4, (· ≤ 8))] old v
/-- part.ways (R144), part.bw (R145), part.vcw (R168), part.clk (R259), part.kvpool (R164). -/
def waysWritten (old v : W32) : W32 := writeFields [(16, 1, anyVal), (0, 16, (· ≠ 0))] old v
def bwWritten (old v : W32) : W32 := writeFields [(31, 1, anyVal), (0, 11, (· ≤ 1024))] old v
def vcwWritten (old v : W32) : W32 :=
  writeFields [(24, 8, (· ≠ 0)), (16, 8, (· ≠ 0)), (8, 8, (· ≠ 0)), (0, 8, (· ≠ 0))] old v
def clkOk (n : Nat) : Bool := decide (600 ≤ n ∧ n ≤ 2250 ∧ n % 25 = 0)
def clkWritten (old v : W32) : W32 := writeFields [(0, 12, clkOk)] old v

/-! ### Floors (R92, R94, R418, R419) -/

/-- Sum of L × u over the contexts of a tile (R92). -/
def floorTotal (s : State) (place : Nat) : Nat :=
  ((List.range 8).map fun c => let x := s.ctx (place * 8 + c); if x.active then x.floorSum * x.cost else 0).sum

def setFd (floor : W64) (d v : Nat) : W64 :=
  (floor &&& ~~~(BitVec.ofNat 64 (255 * 2 ^ (8 * d)))) ||| BitVec.ofNat 64 (v % 256 * 2 ^ (8 * d))

/-- The largest raise up to `m` of field fd(d) that R94 grants: the sum of L × u stays within the pool, and no storage is
taken that is occupied or reserved. -/
def grantable (s : State) (id d : Nat) : Nat → Nat
  | 0 => 0
  | m + 1 =>
    let c := s.ctx id
    let taken := ((List.range 8).map fun q => (s.ctx (id / 8 * 8 + q)).reserve).sum
    let more := (c.floorSum + m + 1 - c.live) - (c.floorSum - c.live)
    if c.fd d + m + 1 ≤ 255 && floorTotal s (id / 8) + (m + 1) * c.cost ≤ 16384 &&
        taken + more * c.cost ≤ freeWords s (id / 8) then m + 1
    else grantable s id d m

def raiseFloor (s : State) (id d m : Nat) : State × Nat :=
  let g := grantable s id d m
  let c := s.ctx id
  (s.setCtx id { c with floor := setFd c.floor d (c.fd d + g) }, g)

def lowerFloor (s : State) (id d m : Nat) : State × Nat :=
  let c := s.ctx id
  let g := min m (c.fd d)
  (s.setCtx id { c with floor := setFd c.floor d (c.fd d - g) }, g)

/-- Raises the fields of a new floor in turn, each as far as it fits (R94). -/
def raiseFields (s : State) (id : Nat) (v : W64) : Nat → State
  | 0 => s
  | n + 1 =>
    let s := raiseFields s id v n
    let want := (v.extractLsb' (8 * n) 8).toNat
    (raiseFloor s id n (want - (s.ctx id).fd n)).1

/-- A write of ctx.floor: its lowerings first, then its raises (R92, R94). -/
def writeFloor (s : State) (id : Nat) (v : W64) : State :=
  let c := s.ctx id
  let cap : W64 := field64 52 12 (· ≠ 0) c.floor v
  let low := (List.range 6).foldl (fun f d => setFd f d (min (c.fd d) (v.extractLsb' (8 * d) 8).toNat)) c.floor
  raiseFields (s.setCtx id { c with floor := cap ||| (low &&& 0x0000FFFFFFFFFFFF) }) id v 6

/-! ### part.trigger (R213) -/

def triggerSlot (v : W64) : Nat := (v.extractLsb' 58 6).toNat
def triggerRs (v : W64) : Bool := v.getLsbD 57
def triggerList (v : W64) : Nat := (v.extractLsb' 3 53).toNat * 8

/-- A write to part.trigger queues one launch, or sets ovf while sixteen are queued or running (R213). -/
def acceptTrigger (s : State) (part : Nat) (v : W64) : State :=
  let p := s.part part
  if 16 ≤ p.queue.length + p.running.length then s.setPart part { p with ovf := true }
  else s.setPart part { p with queue := p.queue ++ [⟨triggerSlot v, triggerRs v, triggerList v, p.clkNext.isSome⟩] }

/-- What a read of part.trigger gives (R213). -/
def triggerRead (p : Part) : W64 :=
  p.lastSlot ++ BitVec.ofNat 5 (p.queue.length + p.running.length) ++ BitVec.ofBool p.ovf ++ (0 : BitVec 49) ++ p.st

end Sys2Proof.Machine
end

