-- ==== Sys2Proof/Machine/Streamers.lean ====
section
/-! DEFINITION. Streamer islands: templates and copies (R133 to R135, R332, R333), armed queues (R134, R317), word counters of
copy channels (R136), and WTIL with its promises (R135, R426). -/
namespace Sys2Proof.Machine
open Sys2Proof

def streamerId (die str : Nat) : Nat := die * 16 + str

/-- Channel end of queue `q` of a streamer island, whose tile index is 176 + str (R20, R133). -/
def queueChan (die str q : Nat) : Nat := chanId die (176 + str) q

/-- A queue (kind false) or template (kind true) of a streamer is given to the partition (R22, R265). -/
def given (s : State) (die str : Nat) (kind : Bool) (n part : Nat) : Bool := s.streamGrants.contains (die, str, kind, n, part)

/-! ### Word counters (R136) -/

/-- The context whose tag a word-count lane carries: the consumer's own. -/
def sinkTag (s : State) (i : Nat) : BitVec 3 :=
  match (s.inc i).sink with
  | .bound c _ _ _ | .lead c | .entry c => BitVec.ofNat 3 c
  | .unit u _ => BitVec.ofNat 3 (s.unit (i / 64 * 64 + u)).owner
  | .idle => 0

/-- A word count is delivered with an xf edge to the destination tile's accesses after it (R177). -/
def deliverLanes (s : State) (i : Nat) : Nat → State
  | 0 => s
  | n + 1 =>
    let ic := s.inc i
    let t : Token := .data (sinkTag s i) 0 fmtN32 0 0 [some ic.want]
    let part := SMap.get 0 s.owners (i / 64)
    let s := s.setInc i { ic with queue := ic.queue ++ [t], received := ic.received + 1, words := ic.words - ic.want }
    deliverLanes (invalidateBanks s { place := i / 64, part := part, l1 := true, scope := .package }) i n

/-- WORD_COUNT_DELIVERY (R136): one lane for each time the counter covers W. -/
def deliverWords (s : State) (i : Nat) : State :=
  let ic := s.inc i
  if ic.want = 0 then s else deliverLanes s i (ic.words.toNat / ic.want.toNat)

def countWord (s : State) (i : Nat) : State :=
  let ic := s.inc i
  if descWc ic.desc then deliverWords (s.setInc i { ic with words := satAdd ic.words 1 }) i else s

/-! ### Templates and copies (R133) -/

def tplExtents (w : List W64) : List Nat :=
  [((w.getD 2 0).extractLsb' 0 32).toNat, ((w.getD 2 0).extractLsb' 32 32).toNat,
   ((w.getD 3 0).extractLsb' 0 32).toNat, ((w.getD 3 0).extractLsb' 32 32).toNat]

def tplStrides (w : List W64) : List Int :=
  [((w.getD 4 0).extractLsb' 0 32).toInt, ((w.getD 4 0).extractLsb' 32 32).toInt,
   ((w.getD 5 0).extractLsb' 0 32).toInt, ((w.getD 5 0).extractLsb' 32 32).toInt]

def tplSize (w : List W64) : Nat := 2 ^ ((w.getD 1 0).extractLsb' 0 3).toNat
def tplBytes (w : List W64) : Nat := (tplExtents w).foldl (· * ·) (tplSize w)
def tplChan (w : List W64) : Nat :=
  chanId ((w.getD 6 0).extractLsb' 62 2).toNat ((w.getD 6 0).extractLsb' 54 8).toNat ((w.getD 6 0).extractLsb' 48 6).toNat

/-- An extent of 0, or a byte total that is not a multiple of 4: ALIGN. -/
def tplBad (w : List W64) : Bool := (tplExtents w).contains 0 || decide (tplBytes w % 4 ≠ 0)

def tplOf (s : State) (die str t : Nat) : List W64 := SMap.get (List.replicate 8 0) (s.streamer (streamerId die str)).templates t

/-- The words of a template as written: reserved bits are zero (R4, R133). -/
def tplWritten (w : List W64) : List W64 :=
  ([0xFFFFFFFFFFFFFF00, 0xFFFFFFFFFFFFFF07, allOnes, allOnes, allOnes, allOnes, 0xFFFF000000000000, 0] : List W64).zipIdx.map fun m =>
    w.getD m.2 0 &&& m.1
where
  allOnes : W64 := 0xFFFFFFFFFFFFFFFF

/-- Source address of byte `b` of a copy. -/
def Copy.srcByte (c : Copy) (b : Nat) : Nat :=
  let n := tplSize c.w
  let e := b / n
  let x := tplExtents c.w
  let st := tplStrides c.w
  let i0 := e % x.getD 0 1
  let i1 := e / x.getD 0 1 % x.getD 1 1
  let i2 := e / x.getD 0 1 / x.getD 1 1 % x.getD 2 1
  let i3 := e / x.getD 0 1 / x.getD 1 1 / x.getD 2 1
  let base : Int := ((c.w.getD 0 0).extractLsb' 8 56).toNat + c.soff * n
  ((base + i0 * st.getD 0 0 + i1 * st.getD 1 0 + i2 * st.getD 2 0 + i3 * st.getD 3 0 + (b % n : Nat)) % 2 ^ 56).toNat

/-- Destination address of word `w`: the destination is packed in row-major order. -/
def Copy.dstWord (c : Copy) (w : Nat) : Nat :=
  ((((c.w.getD 1 0).extractLsb' 8 56).toNat + c.doff * tplSize c.w + (4 * w : Nat)) % 2 ^ 56).toNat

/-- A promised time is the implementation's expectation: a free value (log 12). -/
def drawPromise (s : State) : State × W64 := ({ s with draws := s.draws + 1 }, Config.promise s.draws)

/-- Issues one copy of template `t` with words `w`; answers its promise. -/
def issueCopy (s : State) (die str t : Nat) (w : List W64) (id ins frame : Nat) (armed : Bool) (soff doff : Int) : State × W64 :=
  let x := s.ctx id
  let (s, p) := drawPromise s
  let c : Copy := { ctx := id, ins := ins, frame := frame, launch := x.launch, part := x.part, armed := armed, bad := tplBad w
                    dead := x.killed, tpl := t, w := w, soff := soff, doff := doff, total := tplBytes w / 4, promise := p }
  let y := s.streamer (streamerId die str)
  (s.setStreamer (streamerId die str) { y with copies := SMap.set y.copies y.nextCopy c, nextCopy := y.nextCopy + 1 }, p)

/-- Issuer of a copy's accesses: path C at package scope, behind the unmap markers of the context that issued or armed it (R154); a window address names the scratchpad of the issuing tile, or of the
destination tile (R140, R170). -/
def Copy.via (c : Copy) (dst : Bool) (va : Nat) : Via :=
  { place := if dst && isWindow va then tplChan c.w / 64 else c.ctx / 8, part := c.part, l1 := false, scope := .package
    who := some (ctxRef c.ctx) }

/-- The four bytes of word `w` of a copy. -/
def copyRead (s : State) (c : Copy) (b : Nat) : Nat → Acc (List Byte)
  | 0 => (s, .ok [])
  | n + 1 =>
    let va := c.srcByte b
    match loadBytes s (c.via false va) va 1 with
    | (s, .error e) => (s, .error e)
    | (s, .ok l) => match copyRead s c (b + 1) n with
      | (s, .error e) => (s, .error e)
      | (s, .ok r) => (s, .ok (l ++ r))

/-- One word of a copy: read at its source and written at its destination. -/
def copyWord (s : State) (c : Copy) (w : Nat) : Acc Unit :=
  match copyRead s c (4 * w) 4 with
  | (s, .error e) => (s, .error e)
  | (s, .ok bs) =>
    let va := c.dstWord w
    let v := c.via true va
    match checkRuns s v [(va, 4)] with
    | (s, .error e) => (s, .error e)
    | (s, .ok _) => storeBytes s v va bs

/-- The copy goes on: no record of it stands, and it is not given up (R232, R333). A successor in its context does not touch it (R177). -/
def Copy.live (c : Copy) : Bool := !c.paused && !c.dead

def findCopy (s : State) (die str n : Nat) : Option Copy := SMap.find? (s.streamer (streamerId die str)).copies n

/-- COPY_WORD_LAND (R134, R136): a word of a copy lands, in any order, and counts on the destination channel. -/
def execCopyWordLand (die str copy word : Nat) (s : State) : Out :=
  match findCopy s die str copy with
  | none => .next s
  | some c =>
    if !c.live || c.bad || decide (c.total ≤ word) || c.landed.contains word then .next s
    else match copyWord s c word with
      | (_, .error _) => .next s
      | (s, .ok _) =>
        let done := decide (c.landed.length + 1 = c.total)
        let s := editCopy s die str copy fun x => if done then none else x.map fun x => { x with landed := word :: x.landed }
        .next (countWord s (tplChan c.w))

/-- COPY_FAULT (R149, R160, R333): a word that cannot be copied stops its copy, with a record on the context that issued or
armed it. -/
def execCopyFault (die str copy word : Nat) (s : State) : Out :=
  match findCopy s die str copy with
  | none => .next s
  | some c =>
    let stop (s : State) (code : BitVec 8) (aux : Option W64) : State :=
      takeFault (editCopy s die str copy fun x => x.map fun x => { x with paused := true }) c.ctx code
        (sourceNo die (176 + str) 0) c.frame c.ins aux none (.copy die str copy word) none
    if !c.live then .next s
    else if c.bad then .next (stop s codeAlign none)
    else if c.total ≤ word ∨ c.landed.contains word then .next s
    else match copyWord s c word with
      | (_, .ok _) => .next s
      | (t, .error e) => .next (stop t e.code (some (natW64 e.va)))

/-! ### ARM and armed queues (R134, R317) -/

def getQueue (s : State) (die str q : Nat) : Queue := SMap.get {} (s.streamer (streamerId die str)).queues q

def setQueue (s : State) (die str q : Nat) (x : Queue) : State :=
  let y := s.streamer (streamerId die str)
  s.setStreamer (streamerId die str) { y with queues := SMap.set y.queues q x }

/-- The tokens that have arrived on an armed queue fire its template with the words it has now (R134). -/
def keepWords (s : State) (die str q : Nat) (x : Queue) : Queue :=
  match x.armed with
  | none => x
  | some (t, _) =>
    let n := (s.inc (queueChan die str q)).queue.length - (x.olds.map fun o => o.1).sum
    if n = 0 then x else { x with olds := x.olds ++ [(n, tplOf s die str t)] }

/-- A template is rewritten: pairs that arrive after the write take the new words (R134). -/
def writeTemplate (s : State) (die str t : Nat) (w : List W64) : State :=
  let y := s.streamer (streamerId die str)
  let qs := y.queues.map fun e => (e.1, match e.2.armed with
    | some (u, _) => if u = t then keepWords s die str e.1 e.2 else e.2
    | none => e.2)
  s.setStreamer (streamerId die str) { y with queues := qs, templates := SMap.set y.templates t (tplWritten w) }

def armLanes (s : State) (q str t : Nat) (unbind : Bool) (d : Dst) (o : Opnds) : List Nat → State
  | [] => finishN32 s d (statusLanes o.a)
  | j :: rest =>
    let f := s.focus
    let part := s.here.part
    if (laneAt o.a j).isNone then armLanes s q str t unbind d o rest
    else if !given s f.die str false q part || !given s f.die str true t part then
      faultFiring s codeProtection none none { lane := j }
    else
      let x := keepWords s f.die str q (getQueue s f.die str q)
      armLanes (setQueue s f.die str q { x with armed := if unbind then none else some (t, f.ctxId, f.ins, f.frame) }) q str t unbind
        d o rest

/-- ARM (R134, R317). -/
def execArm (d : Dst) (queue : BitVec 6) (str : BitVec 4) (tpl : BitVec 5) (unbind : Bool) (s : State) : Out :=
  let o := operands s
  .next (armLanes s queue.toNat str.toNat tpl.toNat unbind d o ((List.range o.k).drop (resumeHere s).lane))

/-- Fires the template for each lane pair of a token; a final odd lane has destination offset 0. -/
def firePairs (s : State) (die str t : Nat) (w : List W64) (id ins frame : Nat) : List Lane → State
  | some a :: some b :: rest =>
    firePairs (issueCopy s die str t w id ins frame true a.toInt b.toInt).1 die str t w id ins frame rest
  | [some a] => (issueCopy s die str t w id ins frame true a.toInt 0).1
  | _ :: _ :: rest => firePairs s die str t w id ins frame rest
  | _ => s

/-- The words that the head token of a queue fires with, and the queue without it (R134). -/
def headWords (s : State) (die str t : Nat) (x : Queue) : List W64 × Queue :=
  match x.olds with
  | [] => (tplOf s die str t, x)
  | (n, w) :: rest => (w, { x with olds := if n ≤ 1 then rest else (n - 1, w) :: rest })

/-- TEMPLATE_FIRE (R134): the head token of an armed queue, once the die has started (R218). -/
def execTemplateFire (die str queue : Nat) (s : State) : Out :=
  let i := queueChan die str queue
  let x := getQueue s die str queue
  match x.armed, (s.inc i).queue with
  | some (t, id, ins, frame), tok :: _ =>
    if x.frozen || !(s.ctx id).started then .next s
    else
      let r := headWords s die str t x
      .next (firePairs (consume (setQueue s die str queue r.2) i) die str t r.1 id ins frame tok.lanes)
  | _, _ => .next s

/-! ### CPY (R332) -/

/-- Issues the copies of the lanes from `j` on; `done` are the results of the lanes before. -/
def cpyLanes (s : State) (t str : Nat) (d : Dst) (o : Opnds) (done : List Lane) : List Nat → State
  | [] => finishN32 s d done
  | j :: rest =>
    let f := s.focus
    match laneAt o.a j, laneAt o.b j with
    | some a, some b =>
      if !given s f.die str true t s.here.part then faultFiring s codeProtection none none { lane := j, ta := done }
      else if tplBad (tplOf s f.die str t) then faultFiring s codeAlign none none { lane := j, ta := done }
      else
        let r := issueCopy s f.die str t (tplOf s f.die str t) f.ctxId f.ins f.frame false a.toInt b.toInt
        cpyLanes r.1 t str d o (done ++ [some (r.2.extractLsb' 0 32)]) rest
    | _, _ => cpyLanes s t str d o (done ++ [none]) rest

/-- CPY (R135, R332): each lane pair issues one copy and returns the low half of its promised time. -/
def execCpy (d : Dst) (tpl : BitVec 6) (str : BitVec 4) (s : State) : Out :=
  let o := operands s
  let r := resumeHere s
  .next (cpyLanes s tpl.toNat str.toNat d o r.ta ((List.range o.k).drop r.lane))

/-! ### WTIL (R135, R426) -/

/-- The first almanac time at or after now − 2^31 whose low half is `a`. -/
def promiseTime (now : Nat) (a : W32) : Nat :=
  let base := now - 2 ^ 31
  base + (a.toNat + 2 ^ 32 - base % 2 ^ 32) % 2 ^ 32

/-- Inserts a lane by ascending time, ties by ascending lane. -/
def insertTime (x : Nat × Nat) : List (Nat × Nat) → List (Nat × Nat)
  | [] => [x]
  | y :: t => if x.2 < y.2 ∨ (x.2 = y.2 ∧ x.1 < y.1) then x :: y :: t else y :: insertTime x t

/-- The non-empty lanes with their times, in the order in which they are tested. -/
def wtilOrder (now : Nat) (revised : List (Nat × W64)) (l : List Lane) : List (Nat × Nat) :=
  (l.zipIdx.filterMap fun e => e.1.map fun a =>
    (e.2, match revised.find? fun r => r.1 = e.2 with
      | some r => r.2.toNat
      | none => promiseTime now a)).foldr insertTime []

/-- A copy of the template that the context issued with a promise at or before `t` lacks a word. -/
def lacksWords (s : State) (die str t id time : Nat) : Bool :=
  (s.streamer (streamerId die str)).copies.any fun c =>
    c.2.tpl == t && c.2.ctx == id && c.2.launch == (s.ctx id).launch && !c.2.armed && decide (c.2.promise.toNat ≤ time)

/-- Tests the lanes in order, in the focus of the WTIL: a time to come parks the firing. -/
def wtilGo (s : State) (d : Dst) (t str : Nat) (o : Opnds) (revised : List (Nat × W64)) : List (Nat × Nat) → State
  | [] => finishStatus s d o o.a
  | (j, time) :: rest =>
    let f := s.focus
    if (s.time f.die).toNat < time then beginWork s (.promise ((j, time) :: rest) revised)
    else if lacksWords s f.die str t f.ctxId time then
      let (s, p) := drawPromise s
      faultFiring s codePromise (some p) (some (natW64 j)) { times := revised.filter (·.1 ≠ j) ++ [(j, p)] }
    else wtilGo s d t str o revised rest

/-- WTIL (R135, R426). -/
def execWtil (d : Dst) (tpl : BitVec 6) (str : BitVec 4) (s : State) : Out :=
  let o := operands s
  let f := s.focus
  let r := (resumeHere s).times
  if given s f.die str.toNat true tpl.toNat s.here.part then
    .next (wtilGo s d tpl.toNat str.toNat o r (wtilOrder (s.time f.die).toNat r o.a))
  else .next (faultFiring s codeProtection none none { times := r })

/-- PROMISE_CHECK (R135, R426): a parked WTIL tests its next time again. -/
def execPromiseCheck (die tile ctx ins frame : Nat) (s : State) : Out :=
  let id := ctxId die tile ctx
  let c := s.ctx id
  match inflightOf c ins frame, Image.instr c.image ins with
  | some w, some (.wtil d t str) =>
    match w.work with
    | .promise left revised =>
      if c.frozen then .next s
      else
        let s := s.setCtx id { c with inflight := c.inflight.filter (· ≠ w) }
        .next (withFocus s id ins frame w.k fun s => wtilGo s d t.toNat str.toNat (operands s) revised left)
    | _ => .next s
  | _, _ => .next s

end Sys2Proof.Machine
end

