-- ==== Sys2Proof/Machine/Snapshot.lean ====
section
/-! DEFINITION. The snapshot image (R235, R236, R305, R256): its records written from the state, and read back into it. Where R305
gives a piece of state no place, a record of its own holds it, of the model's type 5, behind the records that the header counts; it is
absent when that state stands as a configuration leaves it (log 15). -/
namespace Sys2Proof.Machine
open Sys2Proof

/-! ### Writing and reading values, little-endian (R3) -/

abbrev Bytes := List Byte

def eN (n : Nat) : Bytes := natBytes 4 n
def eD (n : Nat) : Bytes := natBytes 8 n
def eB (b : Bool) : Bytes := eN b.toNat
def eW (w : W32) : Bytes := eN w.toNat
def eO {α : Type} (f : α → Bytes) : Option α → Bytes
  | none => eN 0
  | some x => eN 1 ++ f x
def eL {α : Type} (f : α → Bytes) (l : List α) : Bytes := eN l.length ++ l.flatMap f
def eLane : Lane → Bytes := eO eW

/-- A reader of bytes. -/
abbrev Rd (α : Type) := StateM Bytes α

def rBytes (n : Nat) : Rd Nat := fun b => (leNat (b.take n), b.drop n)
def rN : Rd Nat := rBytes 4
def rD : Rd Nat := rBytes 8
def rB : Rd Bool := do return (← rN) != 0
def rW : Rd W32 := do return BitVec.ofNat 32 (← rN)
def rO {α : Type} (f : Rd α) : Rd (Option α) := do
  if (← rN) = 0 then return none else return some (← f)
def rTimes {α : Type} (f : Rd α) : Nat → Rd (List α)
  | 0 => pure []
  | n + 1 => do
    let x ← f
    let l ← rTimes f n
    return x :: l
/-- A list with its length before it; no longer than the bytes that are left. -/
def rL {α : Type} (f : Rd α) : Rd (List α) := do
  let n ← rN
  let left ← get
  rTimes f (min n left.length)
def rLane : Rd Lane := rO rW

/-! ### Tokens (R28, R305) -/

/-- A stored token with the header that it has on input channel `chan`; 0 for a token that has not left its producer. -/
def eToken (t : Token) (chan : Nat) : Bytes :=
  let l := t.lanes
  let mask := (l.zipIdx.map fun e => if e.1.isNone then 2 ^ e.2 else 0).sum
  let h := eD (t.header (BitVec.ofNat 6 chan) 0).toNat
  match t with
  | .data _ _ _ _ _ _ => h ++ eN mask ++ eN 0 ++ l.flatMap fun v => eN (v.getD 0).toNat
  | .mark _ _ _ => h ++ eN 0 ++ eN 0 ++ eN 0

def rToken : Rd Token := do
  let h := BitVec.ofNat 64 (← rD)
  let mask ← rN
  let _ ← rN
  let l ← rTimes rW ((h.extractLsb' 44 5).toNat + 1)
  let c := h.extractLsb' 61 3
  if h.extractLsb' 40 4 = 1 then
    return .mark c ((MarkClass.ofCode (h.extractLsb' 36 4)).getD .eos) (h.extractLsb' 24 12)
  else
    return .data c (h.extractLsb' 49 12) (h.extractLsb' 40 4) (h.extractLsb' 28 12) (h.extractLsb' 24 4)
      (l.zipIdx.map fun e => if mask.testBit e.2 then none else some e.1)

/-- Caught tokens: for each input channel its number and its tokens (R305). -/
abbrev Caught := List (Nat × List Token)

def eCaught (l : Caught) : Bytes := eL (fun e => eN e.1 ++ eL (fun t => eToken t e.1) e.2) l
def rCaught : Rd Caught := rL do
  let n ← rN
  let l ← rL rToken
  return (n, l)

/-! ### Units and their channels -/


/-- The unit of a place by its unit number (R20). -/
def unitRefAt (p u : Nat) : UnitRef := if u = 32 then .island (p / 256) (islandRef p) else .op (p / 256) (p % 256) u

def refPlace : UnitRef → Nat
  | .ctx d t _ | .op d t _ => placeOf d t
  | .island d i => islandPlace d i
  | .queue d q _ => placeOf d (176 + q)

/-- Unit number of R20; a context's is its tile's block front end (R305). -/
def refUnit : UnitRef → Nat
  | .ctx _ _ _ => 17
  | .op _ _ u => u
  | .island _ _ => 32
  | .queue _ _ q => q

def refCtx : UnitRef → Nat
  | .ctx _ _ c => c
  | _ => 0

/-- Input channel ends of a unit, ascending. -/
def refInputs (s : State) (r : UnitRef) : List Nat :=
  let p := refPlace r
  ((List.range 64).map (p * 64 + ·)).filter fun i => descEn (s.inc i).desc &&
    match r with
    | .ctx _ _ c => feedsCtx (s.inc i).sink c
    | .queue _ _ q => i % 64 == q
    | _ => match (s.inc i).sink with
      | .unit v _ => v == refUnit r
      | _ => false

/-- Output channel ends of a unit. -/
def refOutputs (s : State) (r : UnitRef) : List Nat :=
  let p := refPlace r
  ((List.range 64).map (p * 64 + ·)).filter fun i => descEn (s.outc i).desc &&
    match r, (s.outc i).src with
    | .ctx _ _ c, .context q => q == c
    | .ctx _ _ _, _ => false
    | .queue _ _ _, _ => false
    | _, .unit v _ => v == refUnit r
    | _, _ => false

/-- The unit that a channel end feeds. -/
def consumerRef (s : State) (i : Nat) : Option UnitRef :=
  let p := i / 64
  if 176 ≤ p % 256 then some (.queue (p / 256) (p % 256 - 176) (i % 64))
  else match (s.inc i).sink with
    | .idle => none
    | .lead c | .entry c => some (.ctx (p / 256) (p % 256) c)
    | .bound c _ _ _ => some (.ctx (p / 256) (p % 256) c)
    | .unit u _ => some (unitRefAt p u)

/-- The unit that sends on a channel end. -/
def producerRef (s : State) (i : Nat) : Option UnitRef :=
  let p := i / 64
  match (s.outc i).src with
  | .idle => none
  | .context c => some (.ctx (p / 256) (p % 256) c)
  | .unit u _ => some (unitRefAt p u)

/-- The engine of an island in engine mode: die × 32 + engine, of the even island of the pair. -/
def engineOf (die i : Nat) : Nat := engineId die (i / 2)

/-! ### A context record (R236, R305) -/

/-- The word of R61. -/
def seqWord (q : Seq) : W64 :=
  let run : BitVec 2 := match q.run with
    | .running => 0
    | .accepted => 1
    | .stopped => 2
  q.pc ++ BitVec.ofNat 6 q.depth ++ run ++ q.mcls ++ q.mpay ++ BitVec.ofBool q.recov ++ (0 : BitVec 27)

/-- A stack entry (R62). -/
def stackWord (e : StackEntry) : W32 := e.ret ++ e.rlbl ++ BitVec.ofBool e.rv ++ e.rlev ++ (0 : BitVec 4)

def stackEntry (w : W32) : StackEntry :=
  { ret := w.extractLsb' 20 12, rlbl := w.extractLsb' 8 12, rv := w.getLsbD 7, rlev := w.extractLsb' 4 3 }

def eHold (h : List Lane) : Bytes :=
  h.flatMap (fun v => eN (v.getD 0).toNat) ++ eN (h.zipIdx.map fun e => if e.1.isNone then 2 ^ e.2 else 0).sum

def rHold : Rd (List Lane) := do
  let l ← rTimes rW 32
  let m ← rN
  return l.zipIdx.map fun e => if m.testBit e.2 then none else some e.1

/-- A port word (R236); an empty lane stands in [38], a bit that R236 leaves spare (log 15). -/
def portWord (fr : Frame) (i : Nat) (p : Port) : Nat :=
  match slotAt fr i p with
  | none => 0
  | some x =>
    let v := (x.lane.getD 0).toNat
    (if p = .w then v % 256 * 2 ^ 40 else v) + 2 ^ 32 + x.start.toNat * 2 ^ 33 +
      (if p = .a then x.fin.toNat else 0) * 2 ^ 34 + x.lane.isNone.toNat * 2 ^ 38

/-- The operand lane of a port word; `fmt` is the format that it has unless the extra block names another. -/
def portSlot (fmt : BitVec 4) (i : Nat) (p : Port) (w : W64) : List Slot :=
  if w.getLsbD 32 then
    let v : W32 := if p = .w then (w.extractLsb' 40 8).zeroExtend 32 else w.extractLsb' 0 32
    [⟨i, p, if w.getLsbD 38 then none else some v, w.getLsbD 33, fmt, 0, w.extractLsb' 34 4⟩]
  else []

/-- The ports of a block in the order of a frame entry. -/
def entryPorts (im : Image) : List (Nat × Port) :=
  (List.range (Image.count im)).flatMap fun i => (Image.firePorts im i).map fun p => (i, p)

/-- A frame entry; its spare bits hold the ordinals: o4's low bits in [31:19], then o1 to o3 (log 15). -/
def eFrame (im : Image) (f : Frame) : Bytes :=
  eN (f.num % 4096 + f.depth % 64 * 2 ^ 12 + f.poisoned.toNat * 2 ^ 18 + f.o4.toNat % 8192 * 2 ^ 19) ++ eW f.o1 ++ eW f.o2 ++ eW f.o3 ++
    natBytes 16 f.fired.toNat ++ (entryPorts im).flatMap fun e => eD (portWord f e.1 e.2)

def rFrame (im : Image) (fmt : BitVec 4) (num : Nat) : Rd Frame := do
  let w := BitVec.ofNat 32 (← rN)
  let o1 ← rW
  let o2 ← rW
  let o3 ← rW
  let fired ← rBytes 16
  let ws ← rTimes rD (entryPorts im).length
  return {
    num := num, depth := (w.extractLsb' 12 6).toNat, poisoned := w.getLsbD 18, o1 := o1, o2 := o2, o3 := o3
    o4 := (w.extractLsb' 19 13).zeroExtend 32, fired := BitVec.ofNat 128 fired
    slots := ((entryPorts im).zip ws).flatMap fun e => portSlot fmt e.1.1 e.1.2 (BitVec.ofNat 64 e.2) }

def rFrames (im : Image) (fmt : BitVec 4) (num : Nat) : Nat → Rd (List Frame)
  | 0 => pure []
  | n + 1 => do
    let f ← rFrame im fmt num
    let l ← rFrames im fmt (num + 1) n
    return f :: l

/-- The format that the lanes of a context have by default in its image: that of its lead channel. -/
def usualFmt (s : State) (id : Nat) : BitVec 4 := descFmt (s.inc (leadChan s id)).desc

/-- What a port word leaves out of an operand lane: its format, its key, and the count elsewhere than at port a. -/
structure SlotMore where
  frame : Nat
  port : Nat
  fmt : BitVec 4
  key : BitVec 12
  fin : BitVec 4
deriving DecidableEq, Repr

def slotMores (c : Ctx) (fmt : BitVec 4) : List SlotMore :=
  c.frames.flatMap fun f => (entryPorts c.image).zipIdx.filterMap fun e =>
    (slotAt f e.1.1 e.1.2).bind fun x =>
      if x.fmt = fmt ∧ x.key = 0 ∧ (e.1.2 = .a ∨ x.fin = 0) then none else some ⟨f.num - c.chead, e.2, x.fmt, x.key, x.fin⟩

def eSlotMore (x : SlotMore) : Bytes := eN x.frame ++ eN x.port ++ eN x.fmt.toNat ++ eN x.key.toNat ++ eN x.fin.toNat
def rSlotMore : Rd SlotMore := do
  let f ← rN
  let p ← rN
  let fm ← rN
  let k ← rN
  let n ← rN
  return ⟨f, p, BitVec.ofNat 4 fm, BitVec.ofNat 12 k, BitVec.ofNat 4 n⟩

def putSlotMore (c : Ctx) (x : SlotMore) : Ctx :=
  match (entryPorts c.image)[x.port]? with
  | none => c
  | some (i, p) => c.update (c.chead + x.frame) fun f => { f with slots := f.slots.map fun y =>
      if y.ins = i ∧ y.port = p then { y with fmt := x.fmt, key := x.key, fin := x.fin } else y }

/-- An entry of the output section. -/
def eOut (e : OutEntry) : Bytes :=
  eD (e.chan % 64 + (e.ins - 1) % 128 * 2 ^ 8 + e.tb.toNat * 2 ^ 15) ++ eToken e.tok 0

/-- An entry of the output buffer read back. A token waits for the frames of its run; a mark waits for none, unless the extra block
says so. -/
def outEntry (c : Ctx) (head : W64) (t : Token) : OutEntry :=
  let ch := (head.extractLsb' 0 6).toNat
  let i := (head.extractLsb' 8 7).toNat
  let tb := head.getLsbD 15
  match t with
  | .mark _ _ _ => ⟨ch, c.chead, 0, false, c.chead, t, false⟩
  | .data _ f _ _ _ l =>
    let base := restoredNum c.chead c.ahead f.toNat
    ⟨ch, base, i + 1, tb, min (base + l.length) c.ahead, t, false⟩

/-- Marks of the output buffer that wait for frames: place in the buffer, base frame, instruction and need. -/
def markPlaces (c : Ctx) : List (Nat × Nat × Nat × Nat) :=
  c.out.zipIdx.filterMap fun e =>
    if e.1.tok.isMark ∧ c.chead < e.1.need then some (e.2, e.1.base - c.chead, e.1.ins, e.1.need - c.chead) else none

def eFour (x : Nat × Nat × Nat × Nat) : Bytes := eN x.1 ++ eN x.2.1 ++ eN x.2.2.1 ++ eN x.2.2.2
def rFour : Rd (Nat × Nat × Nat × Nat) := do
  let a ← rN
  let b ← rN
  let c ← rN
  let d ← rN
  return (a, b, c, d)

def putMark (c : Ctx) (x : Nat × Nat × Nat × Nat) : Ctx :=
  { c with out := c.out.modify x.1 fun e => { e with base := c.chead + x.2.1, ins := x.2.2.1, need := c.chead + x.2.2.2 } }

def eResume (c : Ctx) (x : Nat × Nat × Nat × Resume) : Bytes :=
  let r := x.2.2.2
  eN x.1 ++ eN (x.2.1 - c.chead) ++ eN x.2.2.1 ++ eN r.lane ++ eL eLane r.ta ++ eL eLane r.tb ++
    eL (fun t => eN t.1 ++ eD t.2.toNat) r.times ++ eO eD r.at' ++ eN r.flags.toNat

def rResume (chead : Nat) : Rd (Nat × Nat × Nat × Resume) := do
  let i ← rN
  let f ← rN
  let k ← rN
  let lane ← rN
  let ta ← rL rLane
  let tb ← rL rLane
  let times ← rL do
    let j ← rN
    let t ← rD
    return (j, BitVec.ofNat 64 t)
  let a ← rO rD
  let fl ← rN
  return (i, chead + f, k, { lane := lane, ta := ta, tb := tb, times := times, at' := a, flags := BitVec.ofNat _ fl })

/-- A firing under way that an island or an engine goes on with: WLOAD, GATH, ROTA and ATTN. -/
def eInflight (c : Ctx) (x : Inflight) : Bytes :=
  let w : Bytes := match x.work with
    | .weights t j => eN 0 ++ eN t ++ eN j
    | .gather => eN 1 ++ eN 0 ++ eN 0
    | .rotation e => eN 2 ++ eN e ++ eN 0
    | .attend j r => eN 3 ++ eN j ++ eN r
    | .barrier _ | .promise _ _ | .parameter _ _ _ => eN 4 ++ eN 0 ++ eN 0
  eN x.ins ++ eN (x.frame - c.chead) ++ eN x.k ++ w

def rInflight (chead : Nat) : Rd Inflight := do
  let i ← rN
  let f ← rN
  let k ← rN
  let kind ← rN
  let a ← rN
  let b ← rN
  let w : Work := if kind = 0 then .weights a b else if kind = 1 then .gather else if kind = 2 then .rotation a else .attend a b
  return ⟨i, chead + f, k, w⟩

/-- The channels of a list that satisfy a test, by their numbers. -/
def chanNumbers (l : List Nat) (p : Nat → Bool) : List Nat := (l.filter p).map (· % 64)

def eosBytes (s : State) (r : UnitRef) : Bytes :=
  eL eN (chanNumbers (refInputs s r) fun i => (s.inc i).eos) ++ eL eN (chanNumbers (refOutputs s r) fun i => (s.outc i).eos)

/-- Where a stop stands, in numbers: frames count from the commit head, places of a die name no die. -/
def siteNats (h : Nat) : StopSite → Option (List Nat × Option (Nat × Nat × Nat × Resume))
  | .grammar r => some ([0, r], none)
  | .tags => some ([1], none)
  | .duplicate => some ([2], none)
  | .firing i f k r => some ([3], some (i, f, k, r))
  | .stored => some ([4], none)
  | .unit u => some ([5, u % 64], none)
  | .gather i f j => some ([6, i, f - h, j], none)
  | .rotation _ e i f k => some ([7, e, i, f - h, k], none)
  | .send _ e k i f n r => some ([8, e, k], some (i, f, n, r))
  | .ring _ e k => some ([9, e, k], none)
  | .copy _ _ _ _ | .snapshot => none

def natsSite (id h : Nat) (l : List Nat) (r : Option (Nat × Nat × Nat × Resume)) : StopSite :=
  let n (k : Nat) : Nat := l.getD k 0
  let die := id / 2048
  match n 0, r with
  | 0, _ => .grammar (n 1)
  | 1, _ => .tags
  | 2, _ => .duplicate
  | 3, some (i, f, k, x) => .firing i f k x
  | 5, _ => .unit (id / 8 * 64 + n 1)
  | 6, _ => .gather (n 1) (h + n 2) (n 3)
  | 7, _ => .rotation die (n 1) (n 2) (h + n 3) (n 4)
  | 8, some (i, f, k, x) => .send die (n 1) (n 2) i f k x
  | 9, _ => .ring die (n 1) (n 2)
  | _, _ => .stored

/-- A record that waits for its answer; one of a copy or of a snapshot is not of this context's state. -/
def eStop (c : Ctx) (x : Stop) : Bytes :=
  match siteNats c.chead x.site with
  | none => []
  | some (l, r) => x.record.words.flatMap (fun w => eD w.toNat) ++ eB x.delivered ++ eO (fun b => eN (b - c.chead)) x.base ++ eL eN l ++
      eO (eResume c) r

def rStop (id chead : Nat) : Rd Stop := do
  let ws ← rTimes rD 8
  let dl ← rB
  let b ← rO rN
  let l ← rL rN
  let r ← rO (rResume chead)
  let w (n : Nat) : W64 := BitVec.ofNat 64 (ws.getD n 0)
  return {
    record := {
      code := (w 0).extractLsb' 56 8, source := (w 0).extractLsb' 40 16, ctx := (w 0).extractLsb' 37 3, frame := (w 0).extractLsb' 25 12
      index := (w 0).extractLsb' 13 12, part := (w 0).extractLsb' 8 5, time := w 1, aux := w 2, detail := w 3, snap := w 4 }
    site := natsSite id chead l r, base := b.map (chead + ·), delivered := dl }

/-- A channel of the context is bound for the frames of one grammar word alone (R95). -/
def wordBound (s : State) (r : UnitRef) : Bool :=
  (refInputs s r).any fun i => match (s.inc i).sink with
    | .bound _ _ _ w => w.isSome
    | _ => false

/-- What a begun GWAIT waits for: in a context of its own launch the frame's number, else the launch and the head. -/
def eGwait (c : Ctx) : Bytes :=
  match c.seq.goal, c.seq.gwait with
  | some h, _ => eN 1 ++ eN (h % 4096)
  | none, some g => if g.1 = c.launch then eN 1 ++ eN (g.2 % 4096) else eN 2 ++ eD g.1 ++ eD g.2
  | none, none => eN 0

def rGwait : Rd (Option (Nat × Nat) × Option Nat) := do
  let k ← rN
  if k = 1 then
    let h ← rN
    return (none, some h)
  else if k = 2 then
    let l ← rD
    let h ← rD
    return (some (l, h), none)
  else return (none, none)

/-- What R305 leaves out of a context: what closes it, the firings under way and partly performed, ordinals and words of its frames that
the entries do not hold, the channels whose EOS has passed, the counts of its copy channels, what the port words and the output
section leave out, its records and the one its handler answers, and where its GWAIT waits to. -/
def ctxExtra (s : State) (r : UnitRef) (c : Ctx) : Bytes :=
  let words := wordBound s r || c.frames.any fun f => decide (8192 ≤ f.o4.toNat)
  let stops := c.stops.filter fun x => (siteNats c.chead x.site).isSome
  eB c.seq.closing ++ eO (fun h => eN (h - c.chead)) c.halting ++ eL (eResume c) c.resumes ++ eL (eInflight c) c.inflight ++
    eL (fun f => eO eN f.word ++ eW f.o4) (if words then c.frames else []) ++ eosBytes s r ++
    eL (fun i => eN (i % 64) ++ eW (s.inc i).words ++ eW (s.inc i).want) ((refInputs s r).filter fun i => descWc (s.inc i).desc) ++
    eL eSlotMore (slotMores c (usualFmt s (refPlace r * 8 + refCtx r))) ++ eL eFour (markPlaces c) ++ eL (eStop c) stops ++
    eO eN c.answering ++ eGwait c

/-- The same of a context as configuration leaves it. -/
def noCtxExtra : Bytes := eB false ++ (List.replicate 12 (eN 0)).flatten

def unlessPlain (plain b : Bytes) : Bytes := if b = plain then [] else b

def ctxBody (s : State) (r : UnitRef) (caught : Caught) : Bytes :=
  let c := s.ctx (refPlace r * 8 + refCtx r)
  let q := c.seq
  eD (seqWord q).toNat ++ eW q.o1 ++ eW q.o2 ++ eW q.o3 ++ eW q.o4 ++ eW q.lanes ++ eW q.dcnt ++
    q.stack.reverse.flatMap (fun e => eW (stackWord e)) ++
    eD c.prio.toNat ++ eD c.floor.toNat ++ eD c.fpmode.toNat ++ eD c.handler.toNat ++ eD c.fpflags.toNat ++
    c.bases.flatMap (fun b => eD b.toNat) ++ c.holds.flatMap eHold ++
    eN (c.chead % 4096) ++ eN (c.ahead % 4096) ++ eB (c.frames.any fun f => f.num = c.ahead) ++ c.frames.flatMap (eFrame c.image) ++
    eL eOut c.out ++ eCaught caught

/-! ### An operator record (R236, R305) -/

/-- The tokens of a unit's store, oldest first, with their numbers. -/
def storedTokens (s : State) (p : Nat) (o : OpUnit) : List (Nat × Token) :=
  o.store.map fun e => (e.1, match (loadToken s p e.2 true).2 with
    | .ok t => t
    | .error _ => default)

/-- What R305 leaves out of a unit. -/
def opExtra (s : State) (r : UnitRef) (o : OpUnit) : Bytes :=
  eB o.stopped ++ eB o.halfway ++ eN o.skipping ++ eB o.ended ++ eB o.past ++ eN o.i0 ++ eN o.i1 ++ eN o.status.toNat ++ eN o.cur ++ eN o.n ++ eN o.key.toNat ++ eB o.got ++
    eL eN o.done ++ eL eLane o.last ++ eL (eL eLane) o.rows ++ eL (eO eN) o.elts ++
    eL (fun e => eN e.1 ++ eToken e.2 0) o.out ++ eL (fun e => eN e.1 ++ eToken e.2 0) o.toks ++
    eL (fun e => eN e.1 ++ eToken e.2 0) (if refUnit r = 22 then [] else storedTokens s (refPlace r) o) ++ eL eLane o.acc ++ eosBytes s r

def rSent : Rd (Nat × Token) := do
  let p ← rN
  let t ← rToken
  return (p, t)

/-- The unit's position stands in its state section. -/
def hasPosition (u : Nat) : Bool := decide (18 ≤ u ∧ u ≤ 21)

/-- The part of a unit's state that R305 gives a place. -/
def opState (s : State) (p u : Nat) (o : OpUnit) : Bytes :=
  if u = 18 ∨ u = 19 then
    let m := if o.i0 < extent o 0 then 0 else o.dim
    eN o.i0 ++ eN o.i1 ++ eN o.i2 ++ eN o.i3 ++ eN m
  else if u = 20 ∨ u = 21 then eN o.i0 ++ eN o.i1 ++ eN o.i2 ++ eN o.i3
  else if u = 30 then
    (List.range 32).flatMap (fun j => eN ((o.acc.getD j none).getD 0).toNat) ++
      eN ((List.range 32).map fun j => if (o.acc.getD j none).isSome then 2 ^ j else 0).sum
  else if u = 22 then eL (fun e => eToken e.2 (((unitIn s p 22 0).map (· % 64)).getD 0)) (storedTokens s p o)
  else []

/-- What the record of a unit as its state section gives it would leave out. -/
def plainOp (u : Nat) (o : OpUnit) : OpUnit :=
  { o with stopped := false, halfway := false, skipping := 0, ended := false, past := false, status := 0, cur := 0, n := 0, key := 0, done := [], last := [none, none]
           rows := [], elts := [], out := [], got := o.acc.any Option.isSome, toks := []
           i0 := if hasPosition u then o.i0 else 0, i1 := if hasPosition u then o.i1 else 0
           store := if u = 22 then o.store else [], acc := if u = 30 then o.acc else [] }

def opBody (s : State) (r : UnitRef) (caught : Caught) : Bytes :=
  let u := refUnit r
  let o := s.unit (refPlace r * 64 + u)
  o.p.flatMap eW ++ eW (unitStatus s (refPlace r) u) ++ opState s (refPlace r) u o ++ eCaught caught

/-- What the record's body leaves out of a unit, if anything. -/
def opMore (s : State) (r : UnitRef) : Bytes :=
  let u := refUnit r
  let o := s.unit (refPlace r * 64 + u)
  if eosBytes s r = eN 0 ++ eN 0 ∧ o = plainOp u o then [] else opExtra s r o

/-! ### An island record (R236, R256) -/

def eBind : Option (BitVec 12 × Nat) → Bytes := eO fun b => eN b.1.toNat ++ eN b.2
def rBind : Rd (Option (BitVec 12 × Nat)) := rO do
  let k ← rN
  let q ← rN
  return (BitVec.ofNat 12 k, q)

def eLatch (t : LatchTile) : Bytes :=
  eO (fun f => eN (Fmt.code f).toNat) t.fmt ++ eB t.loading ++ eBind t.bind ++ eBind t.pending ++ eL (eL eN) t.cols ++ eL (eL eN) t.scales

def rLatch : Rd LatchTile := do
  let f ← rO rN
  let loading ← rB
  let b ← rBind
  let p ← rBind
  let cols ← rL (rL rN)
  let sc ← rL (rL rN)
  return { fmt := f.bind fun n => Fmt.ofCode (BitVec.ofNat 4 n), loading := loading, bind := b, pending := p, cols := cols, scales := sc }

def eRow (x : IslandRow) : Bytes :=
  eO (fun m => eN (MarkClass.code m.1).toNat ++ eN m.2.toNat) x.mark ++ eN x.ctx.toNat ++ eN x.key.toNat ++ eN x.fmt.toNat ++ eL eLane x.lanes ++
    eL eN x.valid ++ eN x.l0 ++ eB x.complete ++ eB x.gathered ++ eN x.next ++ eL eW x.sum ++ eO eN x.place

def rRow : Rd IslandRow := do
  let m ← rO do
    let c ← rN
    let p ← rN
    return ((MarkClass.ofCode (BitVec.ofNat 4 c)).getD .eos, BitVec.ofNat 12 p)
  let c ← rN
  let k ← rN
  let f ← rN
  let l ← rL rLane
  let v ← rL rN
  let l0 ← rN
  let done ← rB
  let g ← rB
  let n ← rN
  let sum ← rL rW
  let pl ← rO rN
  return { mark := m, ctx := BitVec.ofNat 3 c, key := BitVec.ofNat 12 k, fmt := BitVec.ofNat 4 f, lanes := l, valid := v, l0 := l0
           complete := done, gathered := g, next := n, sum := sum, place := pl }

/-- A context of the image: its tile relative to the die's origin (R235). -/
def relTile (g : GraphImage) (die t : Nat) : Nat :=
  match List.find? (fun d : DieConf => d.die = die) g.dies with
  | some d => if t < 144 then (t / 12 - d.oy) * 12 + (t % 12 - d.ox) else t
  | none => t

/-- The tile of a relative index, where it lies on the grid. -/
def absTile (g : GraphImage) (die t : Nat) : Option Nat :=
  if 144 ≤ t then some t
  else match List.find? (fun d : DieConf => d.die = die) g.dies with
    | some d => if t % 12 + d.ox < 12 ∧ t / 12 + d.oy < 12 then some ((t / 12 + d.oy) * 12 + t % 12 + d.ox) else none
    | none => none

def eCtxId (g : GraphImage) (id : Nat) : Bytes := eN (ctxId (id / 2048) (relTile g (id / 2048) (id / 8 % 256)) (id % 8))
def rCtxId (g : GraphImage) : Rd Nat := do
  let n ← rN
  return ctxId (n / 2048) ((absTile g (n / 2048) (n / 8 % 256)).getD 255) (n % 8)

/-- The frame of a firing that an island serves, as its number; read back in the numbering of its restored context. -/
def frameOf (s : State) (id n : Nat) : Nat := restoredNum (s.ctx id).chead (s.ctx id).ahead n

def eSet (g : GraphImage) (x : GatherSet) : Bytes :=
  eCtxId g x.ctx ++ eN x.ins ++ eN (x.frame % 4096) ++ eN x.lane ++ eN x.chunks ++ eN x.fmt.toNat ++ eN x.key.toNat ++ eN x.n ++ eN x.total ++
    eN x.ivec ++ eN x.table ++ eN x.next ++ eB x.padded

def rSet (s : State) (g : GraphImage) : Rd GatherSet := do
  let c ← rCtxId g
  let i ← rN
  let f ← rN
  let lane ← rN
  let ch ← rN
  let fmt ← rN
  let key ← rN
  let n ← rN
  let total ← rN
  let iv ← rN
  let tab ← rN
  let nx ← rN
  let pad ← rB
  return ⟨c, i, frameOf s c f, lane, ch, BitVec.ofNat 4 fmt, BitVec.ofNat 12 key, n, total, iv, tab, nx, pad⟩

def eJob (g : GraphImage) (x : Nat × Nat × Nat) : Bytes := eCtxId g x.1 ++ eN x.2.1 ++ eN (x.2.2 % 4096)
def rJob (s : State) (g : GraphImage) : Rd (Nat × Nat × Nat) := do
  let c ← rCtxId g
  let i ← rN
  let f ← rN
  return (c, i, frameOf s c f)

def eKv (x : List Nat × List Nat) : Bytes := eL eN x.1 ++ eL eN x.2
def rKv : Rd (List Nat × List Nat) := do
  let k ← rL rN
  let v ← rL rN
  return (k, v)

def eRot (g : GraphImage) (x : Rotation) : Bytes :=
  eJob g (x.ctx, x.ins, x.frame) ++ eN x.steps ++ eN x.step ++ eD x.header.toNat ++ eB x.chain ++ eD x.va.toNat ++ eL eKv x.own ++
    eN x.applied ++ eN x.sent ++ eO eN x.slot ++ eB x.emitting

def rRot (s : State) (g : GraphImage) : Rd Rotation := do
  let j ← rJob s g
  let n ← rN
  let st ← rN
  let h ← rD
  let ch ← rB
  let va ← rD
  let own ← rL rKv
  let ap ← rN
  let se ← rN
  let sl ← rO rN
  let em ← rB
  return { ctx := j.1, ins := j.2.1, frame := j.2.2, steps := n, step := st, header := BitVec.ofNat 64 h, chain := ch
           va := BitVec.ofNat 64 va, own := own, requested := own.length, applied := ap, sent := se, slot := sl, emitting := em }

/-- What stands in a slot or travels to it, as tokens: the slot is an input channel of the engine (R246, R256). -/
def rowToken (l : List Nat) (q : Nat) : Token :=
  .data 0 0 Fmt.bf16x2.code 0 0 ((List.range 32).map fun j =>
    some (BitVec.ofNat 32 (l.getD (64 * q + 2 * j) 0 + l.getD (64 * q + 2 * j + 1) 0 * 2 ^ 16)))

def itemTokens : RingItem → List Token
  | .header h => [.data 0 0 fmtN32 0 0 [some (h.extractLsb' 0 32), some (h.extractLsb' 32 32)]]
  | .row k v => [rowToken k 0, rowToken k 1, rowToken v 0, rowToken v 1, .mark 0 .er 0]
  | .close => [.mark 0 .eg 0]
  | .marker => []

/-- The tokens of slot `k`, its rows read from its memory (R244). -/
def slotTokens (s : State) (die e k : Nat) : List Token :=
  let x := (getEngine s die e).slots.getD k {}
  match x.header with
  | none => []
  | some h =>
    itemTokens (.header h) ++
      ((List.range x.rows).flatMap fun n =>
        let r := rowBytesAt s die e k n
        itemTokens (.row r.1 r.2)) ++ if x.closed then itemTokens .close else []

def tokenElems (t : Token) : List Nat := t.lanes.flatMap fun v => let w := (v.getD 0).toNat; [w % 65536, w / 65536]

/-- The slot and the rows that its tokens stand for: a header, rows of four tokens and ER, and EG. -/
def fillSlot (x : RingSlot) (rows : List (List Nat × List Nat)) : List Token → RingSlot × List (List Nat × List Nat)
  | [] => ({ x with rows := rows.length }, rows)
  | t :: rest =>
    if t.isMark then ({ x with rows := rows.length, closed := true }, rows)
    else match x.header, rest with
      | none, rest =>
        let l := t.lanes
        fillSlot { x with granted := false, header := some (((l.getD 1 none).getD 0) ++ ((l.getD 0 none).getD 0)) } rows rest
      | some _, k1 :: v0 :: v1 :: _ :: rest =>
        fillSlot x (rows ++ [(tokenElems t ++ tokenElems k1, tokenElems v0 ++ tokenElems v1)]) rest
      | some _, _ => ({ x with rows := rows.length }, rows)

/-- The items that travel to an engine's slots and stand before its marker: caught, as a slot is an input channel (R256). -/
def caughtItems (g : Engine) : List (Nat × RingItem) :=
  match g.marked with
  | some n => g.arriving.take n
  | none => g.arriving

/-- The caught tokens of the receive slots; slot k bears channel number 64 + k (log 15). -/
def slotCaught (s : State) (die e : Nat) : Caught :=
  let x := getEngine s die e
  ((List.range 8).map fun k =>
    (64 + k, slotTokens s die e k ++ ((caughtItems x).filter fun y => y.1 = k).flatMap fun y => itemTokens y.2)).filter
    fun e => !e.2.isEmpty

def eEngine (g : GraphImage) (x : Engine) : Bytes :=
  eL eW x.m ++ eL eW x.l ++ eL eB x.bad ++ eL (eL eW) x.o ++ eL (eL eN) x.query ++ eL eLane x.row ++ eB x.latched ++ eO (eRot g) x.rot ++
    eL (fun y : RingSlot => eB y.granted ++ eB y.recurring ++ eB y.doubled) x.slots ++ eL eN (x.held ++ x.grants) ++ eL (eJob g) x.jobs

def rEngine (s : State) (g : GraphImage) : Rd Engine := do
  let m ← rL rW
  let l ← rL rW
  let bad ← rL rB
  let o ← rL (rL rW)
  let q ← rL (rL rN)
  let row ← rL rLane
  let la ← rB
  let rot ← rO (rRot s g)
  let sl ← rL do
    let g ← rB
    let r ← rB
    let d ← rB
    return ({ granted := g, recurring := r, doubled := d } : RingSlot)
  let held ← rL rN
  let jobs ← rL (rJob s g)
  return { query := q, row := row, latched := la, m := m, l := l, o := o, bad := bad, rot := rot, slots := sl, held := held
           jobs := jobs }

/-- Status word of an island (R112, R130): busy with rows, sets, fills, output or accumulated rows, and in engine mode with a query, a
rotation or a block in a slot of its engine. Latched weights alone make no island busy (DESIGN CHOICE, log 58). -/
def islandStatus (s : State) (p : Nat) : W32 :=
  let x := s.island p
  let g := s.engine (engineOf (p / 256) (islandRef p))
  let engine := x.engine && (!g.query.isEmpty || !g.row.isEmpty || g.rot.isSome || !g.arriving.isEmpty ||
    g.slots.any fun y => y.header.isSome || y.granted)
  let sums := x.acc.any fun r => r.2.any fun w => w != 0
  BitVec.ofBool (!x.rows.isEmpty || !x.out.isEmpty || !x.sets.isEmpty || !x.loads.isEmpty || sums || engine) ++
    BitVec.ofBool (!x.out.isEmpty) ++ (0 : BitVec 6) ++ x.cnt

/-- The engine whose state an island's record holds: that of the even island of a pair in engine mode. -/
def recordEngine (s : State) (r : UnitRef) : Option Engine :=
  match r with
  | .island d i => if (s.island (refPlace r)).engine ∧ i % 2 = 0 then some (s.engine (engineOf d i)) else none
  | _ => none

/-- The poisoned granules of an engine's slots, from the start of the slot area (R244). -/
def slotPoison (s : State) (r : UnitRef) : List Nat :=
  let lo := slotArea (s.island (refPlace r)).p
  if (recordEngine s r).isSome then
    (s.tile (refPlace r)).poison.filterMap fun g => if lo.1 / 8 ≤ g ∧ g < lo.2 / 8 then some (g - lo.1 / 8) else none
  else []

def islandBody (s : State) (g : GraphImage) (r : UnitRef) (caught : Caught) : Bytes :=
  let x := s.island (refPlace r)
  let e := recordEngine s r
  x.p.flatMap eW ++ eW (islandStatus s (refPlace r)) ++ eL eLatch x.latch ++ eL (fun e => eN e.1 ++ eL eW e.2) x.acc ++ eN x.n ++
    eL eRow x.rows ++ eL (fun e => eToken e.1 0 ++ eB e.2) x.out ++ eL (eSet g) x.sets ++
    eL (fun l : Nat × Nat × Nat => eJob g (refPlace r * 8 + l.1, l.2)) x.loads ++ eN x.slanes ++ eL eW x.scaleBuf ++ eB x.scaleEos ++
    eB x.scaleSkip ++ eB x.ended ++ eO (eEngine g) e ++ eL eN (slotPoison s r) ++
    eosBytes s r ++ eCaught (caught ++ (e.map fun _ => slotCaught s (refPlace r / 256) (islandRef (refPlace r) / 2)).getD [])

/-! ### A record of a streamer queue (R236): its armed template, then its caught tokens -/

def withTile (lo : Nat) (w : W64) (i : Nat) : W64 :=
  (w &&& ~~~(BitVec.ofNat 64 (255 * 2 ^ lo))) ||| BitVec.ofNat 64 (i % 256 * 2 ^ lo)

/-- Template words with their destination tile moved (R235, R237). -/
def tplMoved (f : Nat → Nat → Nat) (w : List W64) : List W64 :=
  w.modify 6 fun v => withTile 54 v (f (v.extractLsb' 62 2).toNat (v.extractLsb' 54 8).toNat)

def eWords (g : GraphImage) (w : List W64) : Bytes := eL (fun v : W64 => eD v.toNat) (tplMoved (relTile g) w)
def rWords (g : GraphImage) : Rd (List W64) := do
  let l ← rL rD
  return tplMoved (fun d t => (absTile g d t).getD 255) (l.map (BitVec.ofNat 64))

def queueBody (s : State) (g : GraphImage) (d str q : Nat) (caught : Caught) : Bytes :=
  let x := getQueue s d str q
  eO (fun a : Nat × Nat × Nat × Nat => eN a.1 ++ eJob g (a.2.1, a.2.2.1, a.2.2.2) ++ eWords g (tplOf s d str a.1)) x.armed ++
    eL (fun o : Nat × List W64 => eN o.1 ++ eWords g o.2) x.olds ++ eCaught caught

/-! ### Records and the image (R235) -/

/-- Source number of a unit with its tile relative to the die's origin (R235, R305). -/
def refSource (g : GraphImage) (r : UnitRef) : Nat :=
  let p := refPlace r
  (sourceNo (p / 256) (relTile g (p / 256) (p % 256)) (refUnit r)).toNat

def refType : UnitRef → Nat
  | .ctx _ _ _ => 1
  | .op _ _ _ => 2
  | .island _ _ => 3
  | .queue _ _ _ => 4

def recordBody (s : State) (g : GraphImage) (r : UnitRef) (caught : Caught) : Bytes :=
  match r with
  | .ctx _ _ _ => ctxBody s r caught
  | .op _ _ _ => opBody s r caught
  | .island _ _ => islandBody s g r caught
  | .queue d str q => queueBody s g d str q caught

/-- What the body of a unit's record leaves out; nothing where the unit stands as configuration leaves it but for that body. -/
def recordMore (s : State) (r : UnitRef) : Bytes :=
  match r with
  | .ctx _ _ _ => unlessPlain noCtxExtra (ctxExtra s r (s.ctx (refPlace r * 8 + refCtx r)))
  | .op _ _ _ => opMore s r
  | .island _ _ | .queue _ _ _ => []

/-- A record: its head, its body, and zeros up to 16 bytes (R235). -/
def oneRecord (src type ctx : Nat) (b : Bytes) : Bytes :=
  natBytes 2 src ++ natBytes 1 type ++ natBytes 1 ctx ++ eN b.length ++ eD 0 ++ b ++ List.replicate ((16 - b.length % 16) % 16) 0

/-- The record of a unit. -/
def recordBytes (s : State) (g : GraphImage) (r : UnitRef) (caught : Caught) : Bytes :=
  oneRecord (refSource g r) (refType r) (refCtx r) (recordBody s g r caught)

/-- The record of type 5 of a unit whose record leaves something out (log 15). -/
def restBytes (s : State) (g : GraphImage) (r : UnitRef) : Bytes :=
  let m := recordMore s r
  if m.isEmpty then [] else oneRecord (refSource g r) 5 (refCtx r) m

/-- The header of an image. -/
def imageHeader (g : GraphImage) (mode slot nrec size : Nat) (time : W64) : Bytes :=
  let org := (g.dies.map fun d => (d.ox % 16 + d.oy % 16 * 16) * 2 ^ (8 * d.die)).sum
  eD (0x4C4E * 2 ^ 48 + mode * 2 ^ 40 + slot * 2 ^ 32 + nrec) ++ eD time.toNat ++ eD size ++ eD org ++ eD 0 ++ eD 0 ++ eD 0 ++ eD 0

/-- A record as it is read: its source number, type, context and body, and the body of its unit's record of type 5. -/
structure ImageRec where
  src : Nat
  type : Nat
  ctx : Nat
  body : Bytes
  more : Bytes := []
deriving DecidableEq, Repr

/-- The records of an image, behind its header. -/
def splitRecords : Nat → Bytes → List ImageRec
  | 0, _ => []
  | n + 1, b =>
    if b.isEmpty then []
    else
      let len := leNat ((b.drop 4).take 4)
      let r : ImageRec := ⟨leNat (b.take 2), leNat ((b.drop 2).take 1), leNat ((b.drop 3).take 1), (b.drop 16).take len, []⟩
      r :: splitRecords n ((b.drop 16).drop ((len + 15) / 16 * 16))

/-- The records that the header counts, each with what its unit's record of type 5 holds; the header's size bounds them all. -/
def imageRecords (b : Bytes) : List ImageRec :=
  let n := leNat (b.take 4)
  let l := splitRecords (2 * n) ((b.take (leNat ((b.drop 16).take 8))).drop 64)
  (l.take n).map fun r => { r with
    more := ((l.drop n).find? fun m => m.type == 5 && m.src == r.src && m.ctx == r.ctx).elim [] ImageRec.body }

/-- The place of a record under the graph's origins: none outside the grid (R237). -/
def recPlace (g : GraphImage) (r : ImageRec) : Option Nat :=
  (absTile g (r.src / 16384 % 4) (r.src / 64 % 256)).map (placeOf (r.src / 16384 % 4))

/-- Every record of a die lies on the grid and in the partition (R237); a streamer's queue is granted (R133). -/
def recordsFit (s : State) (part : Nat) (g : GraphImage) (image : Bytes) (die : Nat) : Bool :=
  (imageRecords image).all fun r => r.src / 16384 % 4 != die || match recPlace g r with
    | none => false
    | some p => if r.type = 4 then given s die (p % 256 - 176) false (r.src % 64) part else decide (SMap.find? s.owners p = some part)

/-! ### Restoring (R237) -/

/-- Tokens that stand at a channel end's consumer take credits of its producer. -/
def useCredits (s : State) (i n : Nat) : State :=
  let d := (s.inc i).desc
  if descXp d || descWc d then s
  else
    let oc := s.outc (descPeer d)
    s.setOutc (descPeer d) { oc with credits := oc.credits - n }

/-- Caught tokens stand at the heads of their channels; every count is 0. -/
def putCaught (s : State) (p : Nat) : Caught → State
  | [] => s
  | (n, l) :: rest =>
    let i := p * 64 + n % 64
    let ic := s.inc i
    putCaught (useCredits (s.setInc i { ic with queue := l ++ ic.queue, received := 0 }) i l.length) p rest

def markEos (s : State) (p : Nat) (ins outs : List Nat) : State :=
  let s := ins.foldl (fun s n => s.setInc (p * 64 + n % 64) { s.inc (p * 64 + n % 64) with eos := true }) s
  outs.foldl (fun s n => s.setOutc (p * 64 + n % 64) { s.outc (p * 64 + n % 64) with eos := true }) s

/-- What a context record gives: the context, the caught tokens, the channels past their EOS, and copy channels' counts. -/
abbrev CtxRead := Ctx × Caught × List Nat × List Nat × List (Nat × W32 × W32)

def rOut : Rd (Nat × Token) := do
  let h ← rD
  let t ← rToken
  return (h, t)

def rWord : Rd (Option Nat × W32) := do
  let w ← rO rN
  let o ← rW
  return (w, o)

def rCopy : Rd (Nat × W32 × W32) := do
  let n ← rN
  let a ← rW
  let b ← rW
  return (n, a, b)

/-- Reads the body of a context record into a context as configuration left it; `fmt` is its lanes' usual format. -/
def rCtx (fmt : BitVec 4) (c : Ctx) : Rd (Ctx × Caught) := do
  let w := BitVec.ofNat 64 (← rD)
  let o1 ← rW
  let o2 ← rW
  let o3 ← rW
  let o4 ← rW
  let lanes ← rW
  let dcnt ← rW
  let st ← rTimes rW ((w.extractLsb' 46 6).toNat + 1)
  let prio ← rD
  let floor ← rD
  let fpmode ← rD
  let handler ← rD
  let fpflags ← rD
  let bases ← rTimes rD 8
  let holds ← rTimes rHold 16
  let ch ← rN
  let ah ← rN
  let carry ← rN
  let chead := 4096 + ch % 4096
  let n := (ah % 4096 + 4096 - ch % 4096) % 4096
  let frames ← rFrames c.image fmt chead (n + carry % 2)
  let outs ← rL rOut
  let caught ← rCaught
  let q : Seq := {
    pc := w.extractLsb' 52 12, run := if w.extractLsb' 44 2 = 1 then .accepted else if w.extractLsb' 44 2 = 2 then .stopped else .running
    mcls := w.extractLsb' 40 4, mpay := w.extractLsb' 28 12, recov := w.getLsbD 27, o1 := o1, o2 := o2, o3 := o3, o4 := o4, lanes := lanes, dcnt := dcnt
    stack := (st.map stackEntry).reverse }
  let c := { c with
    seq := q, prio := prioWritten (BitVec.ofNat 32 prio), floor := floorWritten 0xFFF0000000000001 (BitVec.ofNat 64 floor), fpmode := fpmodeWritten 0 (BitVec.ofNat 32 fpmode)
    handler := handlerWritten 0 (BitVec.ofNat 32 handler), fpflags := fpflagsWritten (BitVec.ofNat 32 fpflags)
    bases := bases.map fun b => baseWritten (BitVec.ofNat 64 b), holds := holds, chead := chead, ahead := chead + n, frames := frames }
  let c := { c with out := outs.map fun (o : Nat × Token) => outEntry c (BitVec.ofNat 64 o.1) o.2 }
  return (c, caught)

/-- Reads what the body leaves out of context `id`. -/
def rCtxMore (id : Nat) (c : Ctx) (caught : Caught) : Rd CtxRead := do
  let chead := c.chead
  let closing ← rB
  let halting ← rO rN
  let res ← rL (rResume chead)
  let inf ← rL (rInflight chead)
  let words ← rL rWord
  let ein ← rL rN
  let eout ← rL rN
  let cc ← rL rCopy
  let more ← rL rSlotMore
  let marks ← rL rFour
  let stops ← rL (rStop id chead)
  let ans ← rO rN
  let gw ← rGwait
  let c := { marks.foldl putMark (more.foldl putSlotMore c) with
    stops := stops, answering := ans, halting := halting.map (chead + ·), resumes := res, inflight := inf
    seq := { c.seq with closing := closing, gwait := gw.1, goal := gw.2 }
    frames := if words.isEmpty then c.frames else (c.frames.zip words).map fun (e : Frame × Option Nat × W32) => { e.1 with word := e.2.1, o4 := e.2.2 } }
  return (c, caught, ein, eout, cc)

/-- Frames of a restored context that await a lane of a bound channel: their port is absent and their instruction unfired. -/
def awaitedFrames (c : Ctx) (ins : Nat) (p : Port) (w : Option Nat) : List Nat :=
  (c.liveFrames.filter fun f => (w.isNone || w == f.word) && (slotAt f ins p).isNone && !f.fired.getLsbD ins).map Frame.num

def restoreAwait (s : State) (id : Nat) : Nat → State
  | 0 => s
  | n + 1 =>
    let s := restoreAwait s id n
    let i := id / 8 * 64 + n
    match (s.inc i).sink with
    | .bound q ins p w => if q = id % 8 then s.setInc i { s.inc i with await := awaitedFrames (s.ctx id) ins p w } else s
    | _ => s

def restoreCtx (s : State) (id : Nat) (body more : Bytes) : State :=
  let p := id / 8
  let ((c, caught), _) := (rCtx (usualFmt s id) (s.ctx id)).run body
  let (c, caught, ein, eout, cc) := if more.isEmpty then (c, caught, [], [], []) else ((rCtxMore id c caught).run more).1
  let s := markEos (putCaught (s.setCtx id c.release) p caught) p ein eout
  let s := cc.foldl (fun s e => s.setInc (p * 64 + e.1 % 64) { s.inc (p * 64 + e.1 % 64) with words := e.2.1, want := e.2.2 }) s
  restoreAwait s id 64

/-- A unit as it is read, with the tokens that go back into its store. -/
abbrev OpRead := OpUnit × List (Nat × Token)

def rOpState (u : Nat) (o : OpUnit) : Rd OpRead := do
  if u = 18 ∨ u = 19 ∨ u = 20 ∨ u = 21 then
    let i0 ← rN
    let i1 ← rN
    let i2 ← rN
    let i3 ← rN
    let m ← if u < 20 then rN else pure 0
    return ({ o with i0 := i0, i1 := i1, i2 := i2, i3 := i3, dim := m }, [])
  else if u = 30 then
    let l ← rTimes rW 32
    let m ← rN
    let acc := l.zipIdx.map fun e => if m.testBit e.2 then some e.1 else none
    return ({ o with acc := acc, got := m != 0 }, [])
  else if u = 22 then
    let l ← rL rToken
    return (o, l.map fun t => (0, t))
  else return (o, [])

def rOpExtra (u : Nat) (o : OpUnit) : Rd (OpRead × List Nat × List Nat) := do
  let sd ← rB
  let hw ← rB
  let sk ← rN
  let en ← rB
  let pa ← rB
  let i0 ← rN
  let i1 ← rN
  let st ← rN
  let cu ← rN
  let n ← rN
  let k ← rN
  let got ← rB
  let dn ← rL rN
  let la ← rL rLane
  let rows ← rL (rL rLane)
  let els ← rL (rO rN)
  let out ← rL rSent
  let toks ← rL rSent
  let kept ← rL rSent
  let acc ← rL rLane
  let ein ← rL rN
  let eout ← rL rN
  return (({ o with
    i0 := if hasPosition u then o.i0 else i0, i1 := if hasPosition u then o.i1 else i1
    stopped := sd, halfway := hw, skipping := sk, ended := en, past := pa, status := BitVec.ofNat 8 st, cur := cu, n := n, key := BitVec.ofNat 12 k, got := got
    done := dn, last := la, rows := rows, elts := els, out := out, toks := toks, acc := acc }, kept), ein, eout)

def rOp (u : Nat) (o : OpUnit) : Rd (OpRead × Caught) := do
  let ps ← rTimes rW 16
  let cnt ← rW
  let o := (ps.zipIdx.foldl (fun o e => o.put u e.2 e.1) o).put u 16 cnt
  let (o, kept) ← rOpState u o
  let caught ← rCaught
  return ((o, kept), caught)

/-- The tokens of a restored QUEUE or REORDER lie in its store again; a QUEUE's take its producer's credits (R116, R119). -/
def restoreStore (s : State) (p u : Nat) (kept : List (Nat × Token)) : State :=
  let i := p * 64 + u
  let chan := BitVec.ofNat 6 (((unitIn s p u 0).map (· % 64)).getD 0)
  let s := kept.foldl (fun s e =>
    let o := s.unit i
    let off := if u = 22 then freePlace ((o.p.getD 1 0).toNat * 128) o.store else (o.p.getD 0 0).toNat * 128 + 144 * (e.1 % 64)
    editUnit (storeToken s p off chan e.2) i fun o => { o with store := o.store ++ [(e.1, off)] }) s
  match u, unitIn s p 22 0 with
  | 22, some c => useCredits s c kept.length
  | _, _ => s

def restoreOp (s : State) (p u : Nat) (body more : Bytes) : State :=
  let (((o, kept), caught), _) := (rOp u (s.unit (p * 64 + u))).run body
  let ((o, stored), ein, eout) := if more.isEmpty then ((o, []), [], []) else ((rOpExtra u o).run more).1
  let kept := kept ++ stored
  restoreStore (markEos (putCaught (s.setUnit (p * 64 + u) { o with store := [] }) p caught) p ein eout) p u kept

def rIsland (s : State) (g : GraphImage) (p : Nat) (x : Island) : Rd (Island × Option Engine × List Nat × Caught × List Nat × List Nat) := do
  let ps ← rTimes rW 16
  let cnt ← rW
  let la ← rL rLatch
  let acc ← rL do
    let n ← rN
    let l ← rL rW
    return (n, l)
  let n ← rN
  let rows ← rL rRow
  let out ← rL do
    let t ← rToken
    let b ← rB
    return (t, b)
  let sets ← rL (rSet s g)
  let loads ← rL (rJob s g)
  let sl ← rN
  let sb ← rL rW
  let se ← rB
  let sk ← rB
  let en ← rB
  let eng ← rO (rEngine s g)
  let bad ← rL rN
  let ein ← rL rN
  let eout ← rL rN
  let caught ← rCaught
  let x := (ps.zipIdx.foldl (fun y e => y.put (oddIsland p) e.2 e.1) x).put (oddIsland p) 16 cnt
  return ({ x with
    latch := la, acc := acc, n := n, rows := rows, out := out, sets := sets, loads := loads.map fun j => (j.1 % 8, j.2), slanes := sl
    scaleBuf := sb, scaleEos := se, scaleSkip := sk, ended := en }, eng, bad, caught, ein, eout)

def restoreIsland (s : State) (g : GraphImage) (p : Nat) (body : Bytes) : State :=
  let ((x, eng, bad, caught, ein, eout), _) := (rIsland s g p (s.island p)).run body
  let s := markEos (putCaught (s.setIsland p x) p (caught.filter fun c => decide (c.1 < 64))) p ein eout
  match eng with
  | some e =>
    let die := p / 256
    let eg := islandRef p / 2
    let slots := e.slots.zipIdx.map fun y => fillSlot y.1 [] (((caught.find? fun c => c.1 = 64 + y.2).map (·.2)).getD [])
    let s := s.setEngine (engineId die eg) { e with slots := slots.map (·.1) }
    let s := slots.zipIdx.foldl (fun s y => y.1.2.zipIdx.foldl (fun s r => landBytes s die eg y.2 r.2 r.1) s) s
    let t := s.tile p
    s.setTile p { t with poison := bad.foldl (fun l g => setPoison l ((slotArea (s.island p).p).1 / 8 + g) true) t.poison }
  | none => s

def restoreQueue (s : State) (g : GraphImage) (d str q : Nat) (body : Bytes) : State :=
  let ((a, olds, caught), _) := (do
    let a ← rO do
      let t ← rN
      let j ← rJob s g
      let w ← rWords g
      return (t, j, w)
    let o ← rL do
      let n ← rN
      let w ← rWords g
      return (n, w)
    let c ← rCaught
    return (a, o, c) : Rd _).run body
  let s := match a with
    | some (t, j, w) => setQueue (writeTemplate s d str t w) d str q { armed := some (t, j.1, j.2.1, j.2.2), olds := olds }
    | none => setQueue s d str q {}
  putCaught s (placeOf d (176 + str)) caught

/-- Writes a record back (R237): contexts first, then the units whose state names their firings. -/
def restoreRecord (g : GraphImage) (launch : Nat) (ctxs : Bool) (s : State) (r : ImageRec) : State :=
  match recPlace g r with
  | none => s
  | some p =>
    if ctxs then
      (if r.type = 1 ∧ (s.ctx (p * 8 + r.ctx % 8)).launch = launch then restoreCtx s (p * 8 + r.ctx % 8) r.body r.more else s)
    else if r.type = 2 then (if (s.unit (p * 64 + r.src % 64)).launch = launch then restoreOp s p (r.src % 64) r.body r.more else s)
    else if r.type = 3 then (if (s.island p).launch = launch then restoreIsland s g p r.body else s)
    else if r.type = 4 then restoreQueue s g (p / 256) (p % 256 - 176) (r.src % 64) r.body
    else s

/-- The grants that engine `e` of a die holds are created again from its successor's slots (R256), if both are of the launch: those that
no block has used, in the order in which the member held them. -/
def grantsAgain (s : State) (launch die e : Nat) : State :=
  let mine (d : Nat) : Bool := let x := s.island (enginePlace d e); x.engine && x.active && x.launch == launch
  match successor s die with
  | none => s
  | some q =>
    if !(mine die && mine q) then s
    else
      let x := getEngine s die e
      let free := unusedSlots (getEngine s q e)
      s.setEngine (engineId die e) { x with
        held := x.held.filter (free.contains ·) ++ free.filter (fun k => !x.held.contains k), grants := [] }

/-- The grants of a restored engine, and those of its predecessor's that its slots give (R256). -/
def restoreGrants (g : GraphImage) (launch : Nat) (s : State) (r : ImageRec) : State :=
  match recPlace g r with
  | none => s
  | some p =>
    if r.type ≠ 3 then s
    else
      let e := islandRef p / 2
      let s := grantsAgain s launch (p / 256) e
      match predecessor s (p / 256) with
      | some q => grantsAgain s launch q e
      | none => s

/-- Writes a whole image back once every die has placed its part. -/
def restoreImage (s : State) (g : GraphImage) (launch : Nat) (image : Bytes) : State :=
  let l := imageRecords image
  l.foldl (restoreGrants g launch) (l.foldl (restoreRecord g launch false) (l.foldl (restoreRecord g launch true) s))

end Sys2Proof.Machine
end

