-- ==== Sys2Proof/Machine/Tiles.lean ====
section
/-! DEFINITION. The events of a tile's channels, frames and elements: arrivals and credits (R109, R110), bound channels (R95,
R96), the handler table (R222, R223), commit (R101), TAG_EXHAUSTED (R105), aging (R224), yields (R431), barriers (R179, R287)
and the delivery of faults (R227). -/
namespace Sys2Proof.Machine
open Sys2Proof

/-! ### Channels -/

/-- The context discards what its input channels bring: it is killed, or its halting frame has committed (R232, R349). -/
def discardsInput (c : Ctx) : Bool := c.killed || (c.halting.isSome && c.seq.run == .accepted)

/-- The context that a channel feeds. -/
def sinkCtx : Sink → Option Nat
  | .lead c | .entry c => some c
  | .bound c _ _ _ => some c
  | .idle | .unit _ _ => none

/-- CHANNEL_TOKEN_ARRIVAL (R109): the next token on the link takes one slot at the consumer. -/
def execChannelTokenArrival (die tile ch : Nat) (s : State) : Out :=
  let i := chanId die tile ch
  let ic := s.inc i
  match ic.flight with
  | [] => .next s
  | t :: rest =>
    let s := s.setInc i { ic with queue := ic.queue ++ [t], flight := rest, received := ic.received + 1 }
    match sinkCtx ic.sink with
    | some c => .next (if discardsInput (s.ctx (placeOf die tile * 8 + c)) then sinkTokens s i (ic.queue.length + 1) else s)
    | none => .next s

/-- CREDIT_RETURN (R109): a credit reaches the producer on VC1. On a channel to another package the event itself brings it (log 2),
and no more credits come than the channel has slots. -/
def execCreditReturn (die tile ch : Nat) (s : State) : Out :=
  let i := chanId die tile ch
  let oc := s.outc i
  if descXp oc.desc then
    .next (if oc.credits < descDepth oc.desc then s.setOutc i { oc with credits := oc.credits + 1 } else s)
  else if oc.returning = 0 then .next s
  else .next (s.setOutc i { oc with credits := oc.credits + 1, returning := oc.returning - 1 })

/-- Lanes of a bound channel's token into the frames that await them, one lane for each (R95). `after` is the frame behind the last
lane's: a frame that does not follow it begins a run (R97). -/
def putAwaited (c : Ctx) (ins : Nat) (p : Port) (t : Token) (after : Option Nat) : List Nat → List Lane → Ctx × Dup
  | f :: fs, l :: ls =>
    let (c, d) := putLane c f ins p l (after != some f) t.fmt t.key (if ls.isEmpty then t.count else 0)
    let (c, d') := putAwaited c ins p t (some (f + 1)) fs ls
    (c, match d with
      | some x => some x
      | none => d')
  | _, _ => (c, none)

/-- BOUND_CHANNEL_DELIVERY (R95, R96): the head token's lanes go to the frames that await one; a mark is consumed, and counts as one
consumed (R238). A duplicate's record carries the header that the token has on its channel (R28, R106). -/
def execBoundChannelDelivery (die tile ch : Nat) (s : State) : Out :=
  let i := chanId die tile ch
  let ic := s.inc i
  match ic.sink, ic.queue with
  | .bound cx ins p _, t :: _ =>
    let id := ctxId die tile cx
    let c := s.ctx id
    if c.frozen || c.killed || (c.splice.isSome && ic.eos) then .next s
    else if t.isMark then .next (consume (countMark s id) i)
    else
      let n := min t.lanes.length ic.await.length
      if n = 0 then .next s
      else
        let r := putAwaited c ins p (t.take n) none (ic.await.take n) (t.lanes.take n)
        let hdr := t.header (BitVec.ofNat 6 ch) 0
        let s := raiseDup (s.setCtx id r.1) id ins hdr r.2
        let s := s.setInc i { s.inc i with await := ic.await.drop n }
        .next (if n = t.lanes.length then consume s i else shrinkHead s i n)
  | _, _ => .next s

/-- OUTPUT_TOKEN_SEND (R103, R110): the first token of a context on the channel leaves, once released, for a credit. -/
def execOutputTokenSend (die tile ch : Nat) (s : State) : Out :=
  let i := chanId die tile ch
  match (s.outc i).src with
  | .context cx =>
    let id := ctxId die tile cx
    let c := s.ctx id
    match c.out.find? fun e => e.chan = ch with
    | some e =>
      if e.released && canSend s i && !c.frozen then .next (sendOn (s.setCtx id { c with out := c.out.erase e }) i e.tok)
      else .next s
    | none => .next s
  | _ => .next s

/-! ### The handler table (R222, R223) -/

def htabEn (w : W64) : Bool := w.getLsbD 63
def htabCtx (w : W64) : Nat := (w.extractLsb' 60 3).toNat
def htabTarget (w : W64) : Option Target := Target.ofBits (w.extractLsb' 49 11)
def htabLead (w : W64) : Bool := w.getLsbD 48
def htabPerLane (w : W64) : Bool := w.getLsbD 47
def htabPrio (w : W64) : Nat := (w.extractLsb' 44 3).toNat
def htabMask (w : W64) : Bool := w.getLsbD 43

def entryOf (s : State) (place ch : Nat) : W64 := SMap.get 0 (s.tile place).htab ch

/-- The frame that an entry allocates: depth 0, ordinals 0 (R223, R411). -/
def entryFrame : Frame := { num := 0 }

/-- Allocates up to `n` frames for an entry; answers how many. -/
def entryFrames (s : State) (place c : Nat) : Nat → Nat → State × Nat
  | 0, done => (s, done)
  | n + 1, done =>
    if mayAllocate s place c 0 then entryFrames (allocate s place c entryFrame) place c n (done + 1) else (s, done)

/-- An entry with a token at its head, of a context that can be served. -/
def runnable (s : State) (place ch : Nat) : Bool :=
  let w := entryOf s place ch
  let c := s.ctx (place * 8 + htabCtx w)
  htabEn w && !htabMask w && !(s.inc (place * 64 + ch)).queue.isEmpty && !(s.inc (place * 64 + ch)).eos && c.active &&
    c.started && !c.killed && !c.frozen

/-- Frames that the head token of an entry must have, all at once. -/
def entryNeed (w : W64) (t : Token) : Nat :=
  if htabLead w then (if t.isMark then 0 else if htabPerLane w then 1 else t.lanes.length) else 1

/-- Frames that the head token of an entry's channel must have. -/
def headNeed (s : State) (place ch : Nat) : Nat :=
  match (s.inc (place * 64 + ch)).queue with
  | [] => 0
  | t :: _ => entryNeed (entryOf s place ch) t

/-- R93 holds for the frames of an entry's head token. -/
def entryFits (s : State) (place ch : Nat) : Bool :=
  (entryFrames s place (htabCtx (entryOf s place ch)) (headNeed s place ch) 0).2 == headNeed s place ch

/-- The order of R222 and R431: no yield, higher ctx.prio, higher entry prio, lower channel. -/
def entryBefore (s : State) (place a b : Nat) : Bool :=
  let x := entryOf s place a
  let y := entryOf s place b
  let cx := s.ctx (place * 8 + htabCtx x)
  let cy := s.ctx (place * 8 + htabCtx y)
  if cx.yielding != cy.yielding then cy.yielding
  else if cx.prio.extractLsb' 0 3 ≠ cy.prio.extractLsb' 0 3 then
    decide ((cy.prio.extractLsb' 0 3).toNat < (cx.prio.extractLsb' 0 3).toNat)
  else if htabPrio x ≠ htabPrio y then decide (htabPrio y < htabPrio x)
  else decide (a < b)

/-- Runnable entries of context `c`. -/
def runnables (s : State) (place c : Nat) : List Nat :=
  (List.range 64).filter fun ch => htabCtx (entryOf s place ch) == c && runnable s place ch

/-- The entry of context `c` that waits for frames (R104, R223): the one whose wait has begun, as long as R93 does not hold for it, else
the first of its runnable entries if it must wait. -/
def waitingEntry (s : State) (place c : Nat) : Option Nat :=
  let l := runnables s place c
  match (s.ctx (place * 8 + c)).seq.entry.filter fun ch => l.contains ch && !entryFits s place ch with
  | some ch => some ch
  | none => (bestOf (entryBefore s place) l).filter fun ch => !entryFits s place ch

/-- A runnable entry that can be served now: its frames fit, no commit is due before them (R101, R283), and its context is not
throttled or it needs no frame (R104). -/
def servable (s : State) (place ch : Nat) : Bool :=
  let c := htabCtx (entryOf s place ch)
  headNeed s place ch == 0 ||
    ((waitingEntry s place c).isNone && entryFits s place ch && !(s.ctx (place * 8 + c)).canCommit)

/-- Waits of the tile's handler-table contexts begin and end (R104, R223). A context that a HALT or a stop keeps from allocating is not
throttled, and the wait of another entry starts anew (R105). -/
def noteEntryWaits (s : State) (place : Nat) : Nat → State
  | 0 => s
  | n + 1 =>
    let s := noteEntryWaits s place n
    let id := place * 8 + n
    let c := s.ctx id
    if c.grammar.isSome || !fires c then s
    else
      let quiet := editSeq s id fun q => { q with wait := none, entry := none }
      if c.halting.isSome || c.stops.any Stop.holdsContext then quiet
      else match waitingEntry s place n with
        | some ch => editSeq (throttle (if c.seq.entry = some ch then s else quiet) id) id fun q => { q with entry := some ch }
        | none => quiet

/-- Every wait of a tile's contexts begins or ends (R104, R105). -/
def noteTile (s : State) (place : Nat) : State := noteEntryWaits (noteWaits s place 8) place 8

/-- A context whose every lead entry has consumed EOS closes; it accepts once its frames have committed (R223). -/
def noteClosing (s : State) (id : Nat) : State :=
  if (s.ctx id).grammar.isNone && ctxClosing s id then
    let s := editSeq s id fun q => { q with closing := true }
    s.setCtx id (s.ctx id).accept
  else s

/-- The target port of an entry. -/
def deliverEntry (s : State) (id num : Nat) (w : W64) (t : Token) : State :=
  match htabTarget w with
  | some (.same i p) => deliverRun s id num i p t.fmt t.key t.count t.lanes
  | _ => s

/-- Serves the head token of an entry (R223). -/
def serveEntry (s : State) (place ch : Nat) (t : Token) : State :=
  let w := entryOf s place ch
  let cx := htabCtx w
  let id := place * 8 + cx
  let i := place * 64 + ch
  let f := (s.ctx id).ahead
  if htabLead w then
    if t.isMark then noteClosing (consume (countMark s id) i) id
    else
      let n := t.lanes.length
      let (s, k) := entryFrames s place cx n 0
      let s := deliverEntry s id f w (t.take k)
      if k = n then consume s i else shrinkHead s i k
  else
    let (s, _) := entryFrames s place cx 1 0
    let v : W32 := if t.isMark then 0 else BitVec.ofNat 32 t.lanes.length
    let s := deliverEntry s id f w (.data (BitVec.ofNat 3 cx) 0 fmtN32 0 0 [some v])
    noteClosing (consume (if t.isMark then countMark s id else s) i) id

/-- HANDLER_TABLE_SERVE (R222, R223): the first runnable entry that need not wait. -/
def execHandlerTableServe (die tile : Nat) (s : State) : Out :=
  let place := placeOf die tile
  let s := noteEntryWaits s place 8
  match bestOf (entryBefore s place) ((List.range 64).filter fun ch => runnable s place ch && servable s place ch) with
  | none => .next s
  | some ch => match (s.inc (place * 64 + ch)).queue with
    | [] => .next s
    | t :: _ => .next (serveEntry s place ch t)

/-! ### Frames -/

/-- FRAME_COMMIT (R101, R103). The frame that it frees may end waits (R104). -/
def execFrameCommit (die tile ctx : Nat) (s : State) : Out :=
  let s := commitFrame s (ctxId die tile ctx)
  .next (if (s.ctx (ctxId die tile ctx)).canCommit then s else noteTile s (placeOf die tile))

/-- The wait for a frame that a context is throttled in: its index, the header of the token that waits, and the depth. For a
handler-table entry, the token that waits is the one at the head of the entry's channel (R63 names a lookahead for the lead channel
only: DESIGN CHOICE, log 47). -/
def throttledAt (s : State) (id : Nat) : Option (Nat × W64 × Nat) :=
  let c := s.ctx id
  if c.grammar.isSome then
    if serves c && awaitsFrame s id then some (c.seq.pc.toNat, lookaheadHeader s id, c.seq.depth) else none
  else (waitingEntry s (id / 8) (id % 8)).map fun ch =>
    (ch, match (s.inc (id / 8 * 64 + ch)).queue with
      | t :: _ => t.header (BitVec.ofNat 6 ch) 0
      | [] => 0, 0)

/-- Detail word of R105. -/
def tagsDetail (s : State) (id depth : Nat) : W64 :=
  let c := s.ctx id
  let d := min depth 5
  (0 : BitVec 16) ++ BitVec.ofNat 6 depth ++ BitVec.ofNat 12 c.live ++ BitVec.ofNat 8 (c.fd d) ++ (0 : BitVec 7) ++
    BitVec.ofNat 15 (room s (id / 8) (id % 8) d).toNat

/-- TAG_EXHAUSTED (R105): 65,536 ticks of a wait without a commit. -/
def execTagExhausted (die tile ctx : Nat) (s : State) : Out :=
  let id := ctxId die tile ctx
  let s := noteTile s (placeOf die tile)
  let c := s.ctx id
  match c.seq.wait, throttledAt s id with
  | some start, some (index, hdr, depth) =>
    if c.frozen || c.killed || c.stops.any Stop.holdsContext || decide ((s.time die).toNat < max start c.lastCommit + 65536) then .next s
    else .next (takeFault s id codeTags (sourceAt (id / 8) (if c.grammar.isSome then 16 else 17)) c.ahead index (some hdr)
      (some (tagsDetail s id depth)) .tags none)
  | _, _ => .next s

/-! ### Elements -/

/-- FIRING_AGING (R224): a firing that has been ready for another 256 cycles. -/
def execFiringAging (die tile ctx ins frame : Nat) (s : State) : Out :=
  let id := ctxId die tile ctx
  let c := s.ctx id
  if fires c && (firingsOf s id ins).any fun f => f.1 = frame then
    let n := ((c.ages.find? fun x => x.1 = ins ∧ x.2.1 = frame).map (·.2.2)).getD 0
    let rest := c.ages.filter fun x => !(x.1 = ins ∧ x.2.1 = frame)
    .next (s.setCtx id { c with ages := rest ++ [(ins, frame, min 7 (n + 1))] })
  else .next s

/-- YIELD_EXPIRY (R431): 256 cycles after the last YLD. -/
def execYieldExpiry (die tile ctx : Nat) (s : State) : Out :=
  let id := ctxId die tile ctx
  let c := s.ctx id
  .next (s.setCtx id { c with yielding := false })

/-- FAULT_DELIVERY (R227, R229, R231). Waits are noted first: a handler that is throttled gets no frame (R104). -/
def execFaultDelivery (die tile ctx : Nat) (s : State) : Out :=
  .next (deliverFault (noteTile s (placeOf die tile)) (ctxId die tile ctx))

/-! ### Barriers (R179, R287) -/

/-- The lanes of a BAR have all been sent. -/
def barrierDone (a : List Lane) (done : List Nat) : Bool := a.zipIdx.all fun e => e.1.isNone || done.contains e.2

/-- One arrival of a full episode completes: an acquire, and its lane is sent; with the last lane the firing ends (R179, R287). -/
def completeArrival (s : State) (scope : Scope) (a : Nat × Nat × Nat × Nat) : State :=
  let (id, ins, frame, lane) := a
  let c := s.ctx id
  let s := acquireAt s { place := id / 8, part := c.part, l1 := true, scope := scope }
  match inflightOf c ins frame, Image.instr c.image ins with
  | some w, some (.bar d _ _ _) =>
    match w.work with
    | .barrier done =>
      let a := portLanes c frame w.k ins .a
      let s := withFocus s id ins frame w.k fun s => sendLane s d lane (some 0)
      if barrierDone a (lane :: done) then withFocus s id ins frame w.k fun s => finishLanes s d (statusLanes a)
      else
        let c := s.ctx id
        s.setCtx id { c with inflight := c.inflight.map fun x => if x = w then { w with work := .barrier (lane :: done) } else x }
    | _ => s
  | _, _ => s

/-- BAR_EPISODE_FILL (R179, R287): a full episode completes every arrival. -/
def fillEpisode (s : State) (ep : Nat) : State :=
  match s.episodes.find? fun e => e.id = ep with
  | none => s
  | some e =>
    if !e.full then s
    else e.arrivals.foldl (fun s a => completeArrival s e.scope a)
      { s with episodes := s.episodes.filter fun x => x.id ≠ ep }

def execBarEpisodeFill (ep : Nat) (s : State) : Out := .next (fillEpisode s ep)

end Sys2Proof.Machine
end

