-- ==== Sys2Proof/Machine/Launch.lean ====
section
/-! DEFINITION. Launch, placement, splicing and completion (R212 to R221), with the checks that the die scheduler makes at
placement. Where a rule refuses a placement without a reason, the record's reason is a free value (log 7). -/
namespace Sys2Proof.Machine
open Sys2Proof

/-! ### The memory that the belfry and the keep cores read and write for a partition -/

/-- The lowest place that a partition owns. -/
def homePlace (s : State) (part : Nat) : Nat := ((List.find? (fun o : Nat × Nat => o.2 = part) s.owners).map (·.1)).getD 0

/-- Issuer of the belfry's accesses for a partition: its translation and permissions, straight to the L2 (R400). -/
def viaPart (s : State) (part : Nat) (scope : Scope) : Via :=
  { place := homePlace s part, part := part, l1 := false, scope := scope }

/-- Some byte of a run lies in the scratchpad window, which only a tile reaches (R140). -/
def touchesWindow (va n : Nat) : Bool := isWindow va || isWindow (va + n - 1) || decide (2 ^ 56 < va + n)

def partRead (s : State) (part va n : Nat) : Acc (List Byte) :=
  if touchesWindow va n then (s, .error (faultProtection va)) else loadBytes s (viaPart s part .system) va n

def partWrite (s : State) (part va : Nat) (bs : List Byte) : Acc Unit :=
  if touchesWindow va bs.length then (s, .error (faultProtection va))
  else match checkRuns s (viaPart s part .system) [(va, bs.length)] with
    | (s, .error e) => (s, .error e)
    | (s, .ok _) => storeBytes s (viaPart s part .system) va bs

/-! ### Places of a graph (R212, R216) -/

def DieConf.holds (d : DieConf) (t : TileConf) : Bool := decide (t.x + d.ox < 12 ∧ t.y + d.oy < 12)
def DieConf.place (d : DieConf) (t : TileConf) : Nat := placeOf d.die ((t.y + d.oy) * 12 + t.x + d.ox)

def GraphImage.die? (g : GraphImage) (die : Nat) : Option DieConf := g.dies.find? fun d => d.die = die

/-- A tile index of the graph, moved by its die's origin; other units of R20 stand where they are. -/
def movedTile (g : GraphImage) (die i : Nat) : Option Nat :=
  if 144 ≤ i then some i
  else match g.die? die with
    | none => none
    | some d =>
      if i % 12 + d.ox < 12 ∧ i / 12 + d.oy < 12 then some ((i / 12 + d.oy) * 12 + i % 12 + d.ox) else none

/-- A channel descriptor at its origin, without its reserved bits and with field fmt 0 for a reserved code (R4, R33); the peer of a channel
with xp lies on another package. -/
def movedDesc (g : GraphImage) (w : W64) : W64 :=
  let w := field64 63 1 anyVal 0 w ||| field64 59 4 dataFmt 0 w ||| field64 22 37 anyVal 0 w
  if descXp w then w
  else withTile 43 w ((movedTile g (w.extractLsb' 51 2).toNat (w.extractLsb' 43 8).toNat).getD 255)

def movedLimit (g : GraphImage) (die : Nat) (w : W64) : W64 :=
  withTile 54 w ((movedTile g die (w.extractLsb' 54 8).toNat).getD 255)

def dieCtxs (d : DieConf) : List Nat :=
  d.tiles.flatMap fun t => if d.holds t then t.ctxs.map fun c => d.place t * 8 + c.1 else []

def graphCtxs (g : GraphImage) : List Nat := g.dies.flatMap dieCtxs

/-! ### Formats of a tile's ports, and the CONVERT that the die scheduler places (R33) -/

/-- Parameter `n` of a unit as its configuration leaves it: the last write counts, a reserved value writes nothing (R4, R215). Of an engine,
the words are those of its even island. -/
def paramOf (u : UnitConf) (n : Nat) : W32 :=
  if u.u = 32 then
    (u.params.foldl (fun (y : Island) p => y.put false p.1 p.2) { engine := u.engine, p := resetIslandParams u.engine false }).p.getD n 0
  else (u.params.foldl (fun (y : OpUnit) p => y.put u.u p.1 p.2) (OpUnit.reset u.u)).p.getD n 0

/-- Parameter `n` as it was last written, reserved values included. -/
def rawParam (u : UnitConf) (n : Nat) : W32 := (((u.params.filter fun p => p.1 = n).getLast?).map (·.2)).getD 0

def unitConf? (t : TileConf) (u : Nat) : Option UnitConf := t.units.find? fun x => x.u = u

/-- The data format that p0 of READ, WRITE, GATHER or CONVERT names (bits `lo` up), as the unit acts on it (log 48). -/
def confFmt (u : UnitConf) (lo : Nat) : Fmt := (Fmt.ofCode ((paramOf u 0).extractLsb' lo 4)).getD .n32

/-- Format that unit `u` takes at an input port, where its kind or its parameters fix one. -/
def unitWants (t : TileConf) (u port : Nat) : Option Fmt :=
  match u, port with
  | 20, 0 | 21, 0 => (unitConf? t u).map (confFmt · 25)
  | 24, 1 | 27, 0 | 28, 0 | 28, 2 | 31, 1 | 32, 1 => some .n32
  | 29, 0 => some .f32
  | 30, 0 => (unitConf? t u).bind fun x => Fmt.ofCode ((paramOf x 0).extractLsb' 28 4)
  | 32, 0 => if t.units.any fun x => x.u == 32 && x.engine then some .bf16x2 else none
  | _, _ => none

def ctxConf? (t : TileConf) (c : Nat) : Option CtxConf := (t.ctxs.find? fun x => x.1 = c).map (·.2)

/-- Format of a port of an instruction of a context. -/
def portFmtOf (t : TileConf) (c ins : Nat) (p : Port) : Option PortFmt :=
  (ctxConf? t c).bind fun k =>
    let f := Fields.split (Image.code k.image ins)
    if (Image.instr k.image ins).isSome ∧ (p = .w ∨ (rawPorts f.op f.x).contains p) then some (portFmt? f p) else none

def chanFmt (x : ChanConf) : Fmt := (Fmt.ofCode (descFmt x.desc)).getD .n32

/-- The grammar instructions of a context's region; its table words are none (R66). -/
def grammarInstrs (k : CtxConf) : List (Nat × Instr) :=
  match k.grammar with
  | none => []
  | some r => (k.words.take r.len).zipIdx.filterMap fun w =>
    if r.tableWord (r.base + w.2) then none else match decodeGrammar w.1 with
      | .ok i => some (r.base + w.2, i)
      | .error _ => none

/-- The format to which CONVERT brings a token for a port: the port's own, or the one of i32 and n32 that the instruction's TY names,
else n32. -/
def PortFmt.aim (p : PortFmt) (ty : BitVec 4) : Fmt :=
  match p with
  | .one f => f
  | _ => if ty = 2 then .i32 else .n32

/-- The ports of a block that a channel feeds: a bound port, the port of its handler-table entry where it is a lead entry, or the ports
that the TAKE words of the context name. -/
def elementPorts (t : TileConf) (x : ChanConf) : List (Nat × Nat × Port) :=
  match x.sink with
  | .bound c i p _ => [(c, i, p)]
  | .entry c => match (t.htab.find? fun h => h.1 = x.ch).map (·.2) with
    | some w => match htabTarget w with
      | some (.same i p) => if htabLead w then [(c, i.toNat, p)] else []
      | _ => []
    | none => []
  | .lead c => ((ctxConf? t c).map grammarInstrs).getD [] |>.filterMap fun i => match i.2 with
    | .take n p => some (c, n.toNat, p)
    | _ => none
  | _ => []

/-- The formats that a channel's consumer asks for, each with the format to convert to. -/
def wanted (t : TileConf) (x : ChanConf) : List (PortFmt × Fmt) :=
  match x.sink with
  | .unit u port => (unitWants t u port).toList.map fun f => (PortFmt.of f, f)
  | _ => (elementPorts t x).filterMap fun e => (portFmtOf t e.1 e.2.1 e.2.2).map fun pf =>
      (pf, pf.aim (((ctxConf? t e.1).map fun k => (Fields.split (Image.code k.image e.2.1)).ty).getD 0))

/-- The channel's declared format does not fit what it feeds. -/
def misfit (t : TileConf) (x : ChanConf) : Bool := (wanted t x).any fun w => !fits (.one (chanFmt x)) w.1

/-- The format that a misfitting channel must be converted to: one that fits every port it feeds. -/
def convertsTo (t : TileConf) (x : ChanConf) : Option Fmt :=
  ((wanted t x).find? fun w => !fits (.one (chanFmt x)) w.1).bind fun w =>
    if (wanted t x).all fun v => fits (.one w.2) v.1 then some w.2 else none

/-- The context that owns what a channel feeds. -/
def sinkOwner (t : TileConf) : Sink → Nat
  | .lead c | .entry c | .bound c _ _ _ => c
  | .unit u _ => ((unitConf? t u).map UnitConf.owner).getD 0
  | .idle => 0

def srcOwner (t : TileConf) : Producer → Option Nat
  | .context c => some c
  | .unit u _ => some (((unitConf? t u).map UnitConf.owner).getD 0)
  | .idle => none

/-- The declared format of an input of a unit. -/
def unitInFmts (t : TileConf) (u : Nat) (ports : List Nat) : List Fmt :=
  (t.ins.filter fun x => match x.sink with
    | .unit v p => v == u && ports.contains p
    | _ => false).map chanFmt

/-- The formats of the data that a producer sends on a channel: its kind or its parameters fix them, or it passes on what its inputs
bring. -/
def sentFmts (t : TileConf) (y : ChanConf) : List Fmt :=
  match y.src with
  | .context c => match ctxConf? t c with
    | none => []
    | some k => (List.range (Image.count k.image)).flatMap fun i =>
      let w := Image.code k.image i
      let f := Fields.split w
      let sent (b : BitVec 11) (r : ResFmt) : List Fmt := match Target.ofBits b, r with
        | some (.chan n), .one g => if n.toNat = y.ch then [g] else []
        | _, _ => []
      sent f.ta (resultsOf f).1 ++ sent f.tb (resultsOf f).2
  | .unit u port => match u, unitConf? t u with
    | 18, some x | 19, some x | 27, some x => [confFmt x 25]
    | 20, _ | 21, _ => [.n32]
    | 22, _ | 23, _ | 24, _ | 26, _ => unitInFmts t u [0]
    | 25, _ => unitInFmts t u [0, 1, 2, 3]
    | 28, _ => if port = 0 then [.n32] else unitInFmts t u [if port = 1 then 1 else 3]
    | 29, _ => [if port = 1 then .f32 else .n32]
    | 30, some x => (Fmt.ofCode ((paramOf x 0).extractLsb' 28 4)).toList
    | 31, some x => [confFmt x 28]
    | 32, _ => [.f32]
    | _, _ => []
  | .idle => []

/-- A free channel number, the highest. -/
def freeChan (l : List ChanConf) : Option Nat :=
  (List.range 64).reverse.find? fun n => l.all fun x => x.ch ≠ n

def innerDesc (die tile ch depth : Nat) (out : Bool) (f : Fmt) : W64 :=
  (1 : BitVec 1) ++ f.code ++ BitVec.ofNat 6 (depth - 1) ++ BitVec.ofNat 2 die ++ BitVec.ofNat 8 tile ++ BitVec.ofNat 6 ch ++
    BitVec.ofBool out ++ (0 : BitVec 36)

/-- The channel that the die scheduler routes through the tile's CONVERT, and the format to which it is brought: the first that
misfits, while CONVERT is free and performs the conversion. -/
def converted (t : TileConf) : Option (ChanConf × Fmt) :=
  if t.units.any fun u => u.u == 31 then none
  else t.ins.findSome? fun x => (convertsTo t x).bind fun f =>
    if convertFmt f.code.toNat && !Fmt.isScaled (chanFmt x) then some (x, f) else none

/-- The number behind which a converted channel enters the tile. A lead channel and a handler-table entry go by their number (R80,
R190), which stays with what comes out of CONVERT, so that their producer is told another; a bound port goes by none, and the producer
on another package cannot be told. -/
def outerChan (t : TileConf) (x : ChanConf) : Option Nat :=
  match x.sink with
  | .lead _ | .entry _ => if descXp x.desc then some x.ch else freeChan t.ins
  | _ => some x.ch

/-- Routes the converted channel of a tile through CONVERT; the inner channel takes the depth of the outer one. -/
def placeConvert (die : Nat) (t : TileConf) : TileConf :=
  match converted t with
  | none => t
  | some (x, f) => match freeChan t.ins, outerChan t x, freeChan t.outs with
    | some r, some o, some q =>
      let inner := if o = x.ch then r else x.ch
      let tile := t.y * 12 + t.x
      let n := descDepth x.desc
      { t with
        ins := (t.ins.map fun y => if y.ch = x.ch then { y with ch := o, sink := .unit 31 0 } else y) ++
          [{ ch := inner, desc := innerDesc die tile q n false f, sink := x.sink }]
        htab := t.htab.map fun h => if h.1 = x.ch ∧ x.sink matches .entry _ then (inner, h.2) else h
        outs := t.outs ++ [{ ch := q, desc := innerDesc die tile inner n true f, src := .unit 31 0 }]
        units := t.units ++ [{ u := 31, owner := sinkOwner t x.sink, params := [(0, f.code ++ (0 : BitVec 28))] }] }
    | _, _, _ => t

/-- A producer's descriptor names the number behind which its channel enters the tile. -/
def renameOut (g : GraphImage) (y : ChanConf) : ChanConf :=
  let w := y.desc
  let num : Option Nat := if descXp w then none else
    (g.die? (w.extractLsb' 51 2).toNat).bind fun d => (d.tiles.find? fun t => t.y * 12 + t.x = (w.extractLsb' 43 8).toNat).bind fun t =>
      (converted t).bind fun c => if c.1.ch = (w.extractLsb' 37 6).toNat then outerChan t c.1 else none
  match num with
  | some o => { y with desc := w.extractLsb' 43 21 ++ BitVec.ofNat 6 o ++ w.extractLsb' 0 37 }
  | none => y

/-- A tile with its regions at their bases (R207). -/
def locateTile (t : TileConf) : TileConf :=
  { t with
    ctxs := t.ctxs.map fun k => (k.1, match k.2.grammar with
      | none => k.2
      | some r => { k.2 with grammar := some (movedRegion r k.2.words).1, words := (movedRegion r k.2.words).2 })
    ins := t.ins.map fun y => match y.sink with
      | .bound c i p (some w) => { y with sink := .bound c i p (some (w + (((ctxConf? t c).bind CtxConf.grammar).map Region.base).getD 0)) }
      | _ => y }

def GraphImage.onTiles (g : GraphImage) (f : Nat → TileConf → TileConf) : GraphImage :=
  { g with dies := g.dies.map fun d => { d with tiles := d.tiles.map (f d.die) } }

/-- A graph as its die schedulers place it: regions loaded at their bases, and channels routed through CONVERT (R207, R33). -/
def prepared (g : GraphImage) : GraphImage :=
  let g := g.onTiles fun _ t => locateTile t
  g.onTiles fun die t => placeConvert die { t with outs := t.outs.map (renameOut g) }

/-! ### Patches (R215, R192) -/

def patchFits : PatchField → W64 → Bool
  | .param _ _ _ _ _, v => decide (v.toNat < 2 ^ 32)
  | .base _ _ _ _ _, v => decide (v.toNat < 2 ^ 56)
  | .floor _ _ _ _, v => v.extractLsb' 48 4 == 0

def onTile (g : GraphImage) (die x y : Nat) (f : TileConf → TileConf) : GraphImage :=
  { g with dies := g.dies.map fun d =>
      if d.die = die then { d with tiles := d.tiles.map fun t => if t.x = x ∧ t.y = y then f t else t } else d }

def onCtx (t : TileConf) (c : Nat) (f : CtxConf → CtxConf) : TileConf :=
  { t with ctxs := t.ctxs.map fun k => if k.1 = c then (c, f k.2) else k }

/-- A floor written whole: cap 0 leaves cap unchanged (R92). -/

def applyPatch (g : GraphImage) (p : Nat × W64) : GraphImage :=
  match ((g.patches.find? fun q => q.1 = p.1).map (·.2) : Option PatchField) with
  | some (.param die x y u n) =>
    onTile g die x y fun t => { t with units := t.units.map fun z =>
      if z.u = u then { z with params := z.params ++ [(n, p.2.extractLsb' 0 32)] } else z }
  | some (.base die x y c k) =>
    onTile g die x y fun t => onCtx t c fun z => { z with bases := z.bases.set k (baseWritten p.2) }
  | some (.floor die x y c) => onTile g die x y fun t => onCtx t c fun z => { z with floor := floorWritten z.floor p.2 }
  | none => g

/-- Reads a patch list of at most `n` entries; none where R215 refuses it. -/
def readPatches (s : State) (part : Nat) (g : GraphImage) (va : Nat) : Nat → State × Option (List (Nat × W64))
  | 0 => (s, none)
  | n + 1 =>
    match partRead s part va 16 with
    | (s, .error _) => (s, none)
    | (s, .ok b) =>
      let w0 := leNat (b.take 8)
      let w1 := BitVec.ofNat 64 (leNat (b.drop 8))
      if 4096 ≤ w0 then (s, none)
      else if w0 = 0 then (s, some [])
      else match (g.patches.find? fun q => q.1 = w0).map (·.2) with
        | none => (s, none)
        | some f =>
          if patchFits f w1 then
            match readPatches s part g (va + 16) n with
            | (s, some l) => (s, some ((w0, w1) :: l))
            | (s, none) => (s, none)
          else (s, none)

/-! ### Starting a launch (R213, R214, R221, R237) -/

/-- LAUNCH (R213): a write to part.trigger with rs 0. -/
def execLaunch (part : Nat) (value : W64) (s : State) : Out :=
  if (s.part part).live && !triggerRs value then .next (acceptTrigger s part value) else .next s

/-- RESTORE (R213, R237): a write to part.trigger with rs 1. -/
def execRestore (part : Nat) (value : W64) (s : State) : Out :=
  if (s.part part).live && triggerRs value then .next (acceptTrigger s part value) else .next s

def runningOf (s : State) (part id : Nat) : Option Running := (s.part part).running.find? fun r => r.id = id

/-- A context is idle, or held by a running graph that will drain it and has no other splice waiting (R214, R221). -/
def ctxFree (s : State) (part id : Nat) : Bool :=
  let c := s.ctx id
  !c.active || c.part != part ||
    (!c.killed && c.splice.isNone &&
      (match runningOf s part c.launch with
        | some r => !r.killed && !r.preempted && r.refused.isNone
        | none => false))

def canStart (s : State) (part : Nat) (g : GraphImage) : Bool := (graphCtxs g).all (ctxFree s part)

/-- What a queued launch is to place: the slot it reports, its graph with patches and origins, and the image to restore; or
the outcome that refuses it (R213, R215, R237). -/
def launchSource (s : State) (part : Nat) (l : Launch) : State × Nat × Except Nat (GraphImage × List Byte) :=
  let p := s.part part
  if l.rs then
    match partRead s part l.plist 64 with
    | (s, .error _) => (s, l.slot, .error 2)
    | (s, .ok h) =>
      let w (n : Nat) : Nat := leNat ((h.drop (8 * n)).take 8)
      let slot := w 0 / 2 ^ 32 % 64
      if w 0 / 2 ^ 48 ≠ 0x4C4E ∨ w 2 < 64 then (s, l.slot, .error 2)
      else match SMap.find? p.slots slot with
        | none => (s, slot, .error 3)
        | some g => match partRead s part l.plist (w 2) with
          | (s, .error _) => (s, slot, .error 2)
          | (s, .ok b) =>
            let org (die : Nat) : Nat := w 3 / 2 ^ (8 * die) % 256
            let g := { g with dies := g.dies.map fun d => { d with ox := org d.die % 16, oy := org d.die / 16 } }
            (s, slot, .ok (g, b))
  else match SMap.find? p.slots l.slot with
    | none => (s, l.slot, .error 3)
    | some g =>
      if l.plist = 0 then (s, l.slot, .ok (g, []))
      else match readPatches s part g l.plist 256 with
        | (s, none) => (s, l.slot, .error 2)
        | (s, some ps) => (s, l.slot, .ok (ps.foldl applyPatch g, []))

/-- The head of the queue starts as a running launch. -/
def beginLaunch (s : State) (part slot : Nat) (l : Launch) (g : GraphImage) (image : List Byte) (refused : Option Nat) : State :=
  let p := s.part part
  let g := prepared g
  let r : Running := { id := p.nextId * 32 + part, launch := { l with slot := slot }, graph := g, ctxs := graphCtxs g
                       image := image, refused := refused }
  s.setPart part { p with queue := p.queue.drop 1, running := p.running ++ [r], nextId := p.nextId + 1 }

/-- A checkpoint holds a queued launch, but for the restores of the graphs that it has pre-empted (R270). -/
def ckptHolds (s : State) (part : Nat) (l : Launch) : Bool :=
  match s.ckptRun with
  | none => false
  | some k => !(k.written.isSome && l.rs && k.images.contains (part, l.slot, l.plist))

/-- LAUNCH_START (R214): the first queued launch starts once its contexts are idle or can splice; a checkpoint holds it (R270),
a pending clock holds the launches written after it (R259). -/
def execLaunchStart (part : Nat) (s : State) : Out :=
  let p := s.part part
  match p.queue with
  | [] => .next s
  | l :: _ =>
    if ckptHolds s part l || p.freeing || l.held then .next s
    else match launchSource s part l with
      | (t, slot, .error st) => .next (beginLaunch t part slot l {} [] (some st))
      | (t, slot, .ok (g, image)) =>
        if canStart s part g then .next (beginLaunch t part slot l g image none) else .next s

/-! ### The checks of a placement (R16, R60, R85, R92, R109, R116, R119, R126, R127, R190, R208, R209, R216, R229, R243, R244,
R257, R343, R357, R375, R412) -/

/-- Something of a graph stands on the tile: it has not drained (R140). -/
def tileInUse (s : State) (place : Nat) : Bool :=
  ((List.range 8).any fun c => (s.ctx (place * 8 + c)).active) || (s.island place).active ||
    ((List.range 14).any fun n => (s.unit (place * 64 + 18 + n)).active)

/-- Why a placement is refused: the record of R209, where one is made. -/
structure Offence where
  place : Nat
  ctx : Nat
  unit : Nat
  index : Nat
  reason : Option Nat
deriving DecidableEq, Repr

abbrev Refused := Option Offence

def firstRefused (l : List Refused) : Refused := l.findSome? id

/-- The places of the checks on one tile. -/
structure TileSite where
  s : State
  part : Nat
  g : GraphImage
  d : DieConf
  t : TileConf
deriving DecidableEq, Repr

namespace TileSite

def place (x : TileSite) : Nat := x.d.place x.t
def bad (x : TileSite) (c unit index : Nat) (reason : Option Nat) : Refused := some ⟨x.place, c, unit, index, reason⟩
def ensure (x : TileSite) (ok : Bool) (c index : Nat) (reason : Option Nat) : Refused :=
  if ok then none else x.bad c 17 index reason

/-- Island number of the tile, if it is a perimeter tile (R15). -/
def islandNo (x : TileSite) : Option Nat := (List.range 44).find? fun i => islandTile i = x.place % 256

def islandConf (x : TileSite) : Option UnitConf := x.t.units.find? fun u => u.u = 32

/-- The mode that a launch which waits for the island will put it in: that of the last one. -/
def pendingMode (x : TileSite) (i : Nat) : Option Bool :=
  let p := islandPlace x.d.die i
  ((((x.s.part x.part).running.filter fun r => r.refused.isNone && !r.killed && !r.preempted && r.later.contains (p, 32)).getLast?).bind
    fun r => (r.graph.die? x.d.die).bind fun d => (d.tiles.find? fun t => d.place t = p).bind fun t => unitConf? t 32).map UnitConf.engine

/-- Whether island `i` of the die will stand in engine mode: as this launch puts it, or as a launch before it will. -/
def engineMode (x : TileSite) (i : Nat) : Bool :=
  match (x.d.tiles.find? fun t => x.d.place t = islandPlace x.d.die i).bind fun t => t.units.find? fun u => u.u = 32 with
  | some u => u.engine
  | none => (x.pendingMode i).getD (x.s.island (islandPlace x.d.die i)).engine

/-- Bytes of the scratchpad: as the launch sets it, or on a tile that has not drained, as it stands (R140). -/
def scratchBytes (x : TileSite) : Nat :=
  if tileInUse x.s x.place then scratchSize (x.s.tile x.place) else (12 - (x.t.sram.extractLsb' 0 4).toNat) * 131072

def inSink (x : TileSite) (u port : Nat) : Option ChanConf := x.t.ins.find? fun c => c.sink = .unit u port

/-- Formats of A that a row-mode island takes (R127). -/
def aFormats : List Fmt := [.bf16x2, .f16x2, .e4m3x4, .e5m2x4, .bs4x8, .mx4x8]

def pairs (a w : Fmt) : Bool :=
  match a with
  | .bf16x2 => w == .bf16x2 || w == .q16x8
  | .e4m3x4 | .e5m2x4 => w == .e4m3x4 || w == .e5m2x4
  | a => w == a

/-- The island and its pair (R16, R127, R244). A channel that feeds an island in engine mode feeds the query input of an even one. -/
def islandCheck (x : TileSite) : Refused :=
  let owner := ((x.islandConf.map UnitConf.owner).getD 0)
  let fed := x.t.ins.any fun c => match c.sink with
    | .unit v _ => v == 32
    | _ => false
  match x.islandNo with
  | none => x.ensure (x.islandConf.isNone && !fed) owner 0 none
  | some i =>
    let engine := x.engineMode i
    let inputs := !engine || x.t.ins.all fun c => match c.sink with
      | .unit v port => v != 32 || (decide (i % 2 = 0) && port == 0)
      | _ => true
    match x.islandConf with
    | none => x.ensure inputs owner 0 none
    | some u =>
      let slots := ((paramOf u 0).extractLsb' 20 3).toNat
      let top := ((paramOf u 3).extractLsb' 0 14).toNat * 128 + (slots + 1) * 65536
      let mate := if i % 2 = 0 then i + 1 else i - 1
      firstRefused [
        x.ensure (x.engineMode mate == u.engine) owner 0 none,
        x.ensure (!u.engine || decide (i % 2 = 1) || (slots != 0 && (rawParam u 0).extractLsb' 30 2 != 3 && decide (top ≤ x.scratchBytes)))
          owner 0 none,
        x.ensure inputs owner 0 none,
        x.ensure (u.engine || (match x.inSink 32 0 with
          | some c => aFormats.contains (chanFmt c)
          | none => true)) owner 0 none]

/-- The operator units (R36, R116, R119, R126). -/
def unitCheck (x : TileSite) (u : UnitConf) : Refused :=
  let w (n : Nat) := paramOf u n
  match u.u with
  | 18 | 19 => x.ensure ((List.range 4).all fun d => decide (((rawParam u 1).extractLsb' (28 - 4 * d) 4).toNat ≤ 9)) u.owner 0 none
  | 22 => x.ensure (decide (1 ≤ ((w 0).extractLsb' 0 17).toNat ∧
      (w 1).toNat * 128 + 144 * ((w 0).extractLsb' 0 17).toNat ≤ x.scratchBytes)) u.owner 0 none
  | 26 => x.ensure (decide ((w 0).toNat * 128 + 144 * 64 ≤ x.scratchBytes)) u.owner 0 none
  | 31 =>
    let raw := rawParam u 0
    x.ensure (convertFmt (raw.extractLsb' 28 4).toNat && decide ((raw.extractLsb' 25 3).toNat ≤ 6 ∧ (raw.extractLsb' 23 2).toNat ≤ 2) &&
      (match x.inSink 31 0 with
        | some c => !Fmt.isScaled (chanFmt c) || (x.inSink 31 1).isSome
        | none => true)) u.owner 0 none
  | _ => none

/-- The chain of a tile: its next tile is adjacent, and the limits rise (R257). -/
def chainCheck (x : TileSite) : Refused :=
  let l := x.t.limit
  if !l.getLsbD 63 || l.getLsbD 62 then none
  else
    let i := x.place % 256
    match movedTile x.g x.d.die (l.extractLsb' 54 8).toNat with
    | none => x.bad 0 17 0 none
    | some j =>
      let near := (i / 12 = j / 12 ∧ (i + 1 = j ∨ j + 1 = i)) ∨ i + 12 = j ∨ j + 12 = i
      let next : W64 := match x.d.tiles.find? fun t => x.d.place t = placeOf x.d.die j with
        | some t => t.limit
        | none => (x.s.tile (placeOf x.d.die j)).limit
      x.ensure (decide (near ∧ (l.extractLsb' 0 32).toNat < (next.extractLsb' 0 32).toNat)) 0 0 none

/-- Channels: peers stand in the grid, cut edges between packages go over a ring port of the partition that joins the two
(R109, R217), no producer sends another format than the declared one, and no channel needs a conversion that no CONVERT makes (R33);
the words that name the targets of a lead channel or an entry are checked at their own place, with reason 6. -/
def chanCheck (x : TileSite) (c : ChanConf) (input : Bool) : Refused :=
  let port := (c.desc.extractLsb' 22 4).toNat
  let owner := if input then sinkOwner x.t c.sink else (srcOwner x.t c.src).getD 0
  firstRefused [
    x.ensure (descXp c.desc || (movedTile x.g (c.desc.extractLsb' 51 2).toNat (c.desc.extractLsb' 43 8).toNat).isSome) owner 0 none,
    x.ensure (!descXp c.desc || ((x.s.part x.part).rports.getLsbD port && Config.joins x.s.package port (c.desc.extractLsb' 26 8)))
      owner 0 none,
    x.ensure (input || (sentFmts x.t c).all fun f => fits (.one f) (.of (chanFmt c))) owner 0 none,
    x.ensure (!input || !misfit x.t c || c.sink matches .lead _ | .entry _) owner 0 none]

/-- The port exists, and holds a slot or a gate bit (R85). -/
def hasPort (im : Image) (i : Nat) (p : Port) : Bool :=
  decide (i < Image.count im) && (Image.firePorts im i).contains p

/-- A TAKE or FIRE target (R343, R412), with reason 6, and an EMK channel (R339). -/
def wordCheck (x : TileSite) (c : Nat) (k : CtxConf) (r : Region) (mem : Nat → W32) (a : Nat) : Refused :=
  let lead := x.t.ins.find? fun y => y.sink = .lead c
  let fmtOk (i : Nat) (p : Port) (f : Fmt) : Bool := p == .w || (match portFmtOf x.t c i p with
    | some pf => fits (.one f) pf
    | none => false)
  if r.tableWord a then none
  else match decodeGrammar (mem a) with
    | .ok (.take i p) =>
      let ok := hasPort k.image i.toNat p && (match lead with
        | some y => fmtOk i.toNat p (chanFmt y)
        | none => true)
      if ok then none else x.bad c 16 a (some 6)
    | .ok (.fire _ _ i p) => if hasPort k.image i.toNat p && fmtOk i.toNat p .n32 then none else x.bad c 16 a (some 6)
    | .ok (.emk _ _ ch) =>
      if x.t.outs.any fun y => y.ch == ch.toNat && y.src == .context c then none else x.bad c 16 a none
    | _ => none

/-- Memory of the region's words. -/
def regionMem (k : CtxConf) (r : Region) (a : Nat) : W32 := if r.has a then k.words.getD (a - r.base) 0 else 0

/-- Two contexts share a region only with the same words; differing regions do not overlap (R60). -/
def regionsAgree (r q : Region) (w v : List W32) : Bool :=
  (r.base == q.base && r.len == q.len && w == v) || decide (r.base + r.len ≤ q.base ∨ q.base + q.len ≤ r.base)

/-- The other regions of the tile: of the graph, of contexts that the graph leaves alone, and, for a region that is loaded at once, of
contexts that have still to drain. -/
def otherRegions (x : TileSite) (c : Nat) : List (Region × List W32) :=
  (x.t.ctxs.filterMap fun k => if k.1 = c then none else k.2.grammar.map fun r => (r, k.2.words)) ++
  ((List.range 8).filterMap fun q =>
    let y := x.s.ctx (x.place * 8 + q)
    if !y.active || ((ctxConf? x.t q).isSome && ((x.s.ctx (x.place * 8 + c)).active || q == c)) then none
    else y.grammar.map fun r => (r, (List.range r.len).map fun n => gmemAt x.s x.place (r.base + n)))

def grammarCheck (x : TileSite) (c : Nat) (k : CtxConf) : Refused :=
  match k.grammar with
  | none => none
  | some r =>
    let mem := regionMem k r
    firstRefused ([
      if r.base + r.len ≤ 4096 ∧ (x.otherRegions c).all (fun q => regionsAgree r q.1 k.words q.2) then none else x.bad c 16 r.base none,
      (checkRegion r mem).bind fun e => x.bad c 16 e.1 (some e.2.code)] ++
      (List.range r.len).map fun n => x.wordCheck c k r mem (r.base + n))

/-- The ports that some source names: targets, TAKE and FIRE words, bindings and entries (R85). -/
def isNamed (x : TileSite) (c : Nat) (k : CtxConf) (i : Nat) (p : Port) : Bool :=
  ((List.range (Image.count k.image)).any fun j => (Image.targetsOf (Image.code k.image j)).any fun t => match t with
    | .same n q | .next n q => n.toNat == i && q == p
    | _ => false) ||
  (match k.grammar with
    | none => false
    | some r => (List.range r.len).any fun n => !r.tableWord (r.base + n) && (match decodeGrammar (regionMem k r (r.base + n)) with
      | .ok (.take m q) | .ok (.fire _ _ m q) => m.toNat == i && q == p
      | _ => false)) ||
  (x.t.ins.any fun y => match y.sink with
    | .bound q n pt _ => q == c && n == i && pt == p
    | .entry q => q == c && (x.t.htab.any fun h => h.1 == y.ch && htabTarget h.2 == some (.same (BitVec.ofNat 7 i) p))
    | _ => false)

def portsNamed (x : TileSite) (c : Nat) (k : CtxConf) : Refused :=
  firstRefused ((List.range (Image.count k.image)).map fun i =>
    x.ensure ((Image.firePorts k.image i).all fun p => x.isNamed c k i p) c i (some 6))

/-- Bindings and handler-table entries name ports that take what the channel brings (R85, R190). -/
def inputCheck (x : TileSite) (c : Nat) (k : CtxConf) (y : ChanConf) : Refused :=
  match y.sink with
  | .bound q i p _ => if q = c then x.ensure (hasPort k.image i p) c i (some 6) else none
  | .entry q =>
    if q ≠ c then none
    else match (x.t.htab.find? fun h => h.1 = y.ch).map (·.2) with
      | none => none
      | some w => match htabTarget w with
        | some (.same i p) =>
          let f := if htabLead w then chanFmt y else .n32
          x.ensure (hasPort k.image i.toNat p && (p == .w || (match portFmtOf x.t c i.toNat p with
            | some pf => fits (.one f) pf
            | none => false))) c i.toNat (some 6)
        | _ => x.bad c 17 0 (some 6)
  | _ => none

/-- What one instruction asks of the place: the cap of a lane group, an island in row mode, engines in engine mode. -/
def instrCheck (x : TileSite) (c : Nat) (k : CtxConf) (i : Nat) : Refused :=
  match Image.instr k.image i with
  | none => none
  | some ins =>
    let cap := (k.floor.extractLsb' 52 12).toNat
    let rowMode := match x.islandConf, x.islandNo with
      | some u, some _ => !u.engine
      | none, some _ => !(x.s.island x.place).engine
      | _, none => false
    let aFmt := (x.inSink 32 0).map chanFmt
    let engines (e : BitVec 6) : Bool := x.engineMode (2 * e.toNat) && x.engineMode (2 * e.toNat + 1)
    let g := groupOf ins
    firstRefused [
      x.ensure (g = 0 || decide (g + (if Image.hasNext k.image then 1 else 0) ≤ cap)) c i none,
      match ins with
      | .wload _ _ _ f _ _ => x.ensure (rowMode && (match aFmt with
          | some a => pairs a f
          | none => true)) c i none
      | .gath _ _ f _ => x.ensure (rowMode && (match aFmt with
          | some a => f == a || ((f == .e4m3x4 || f == .e5m2x4) && (a == .e4m3x4 || a == .e5m2x4))
          | none => true)) c i none
      | .wbind _ _ _ _ | .mout _ _ _ _ | .mclr _ _ _ => x.ensure rowMode c i none
      | .opset _ o _ | .opget _ o _ => x.ensure (o.toNat ≠ 32 || x.islandNo.isSome) c i none
      | .rota _ e _ _ _ | .rgrt _ e _ _ | .rsnd _ e _ => x.ensure (engines e) c i none
      | _ => none]

/-- The handler context's block carries TH (R229). -/
def handlerCheck (x : TileSite) (c : Nat) (k : CtxConf) : Refused :=
  if k.handler.getLsbD 31 then
    let h := (k.handler.extractLsb' 28 3).toNat
    let th := match ctxConf? x.t h with
      | some q => Image.th q.image
      | none => (x.s.ctx (x.place * 8 + h)).active && Image.th (x.s.ctx (x.place * 8 + h)).image
    x.ensure th c 0 none
  else none

def ctxCheck (x : TileSite) (k : Nat × CtxConf) : Refused :=
  firstRefused ([
    x.ensure (k.2.grammar.isNone || !(x.t.ins.any fun y => y.sink == .entry k.1)) k.1 0 none,
    (Image.check k.2.image).bind fun e => x.bad k.1 17 e.1 (some e.2.code),
    x.grammarCheck k.1 k.2] ++
    x.t.ins.map (x.inputCheck k.1 k.2) ++
    [x.portsNamed k.1 k.2, x.handlerCheck k.1 k.2] ++
    (List.range (Image.count k.2.image)).map (x.instrCheck k.1 k.2))

/-- The floors of the tile's contexts fit its pool (R92). -/
def floorCheck (x : TileSite) : Refused :=
  let conf (k : CtxConf) : Nat :=
    (((List.range 6).map fun d => (k.floor.extractLsb' (8 * d) 8).toNat).sum + (if Image.hasNext k.image then 1 else 0)) * Image.cost k.image
  let other (y : Ctx) : Nat := if y.active then y.floorSum * y.cost else 0
  let total : Nat := ((List.range 8).map fun c => match ctxConf? x.t c with
    | some k => conf k
    | none => other (x.s.ctx (x.place * 8 + c))).sum
  x.ensure (decide (total ≤ 16384)) 0 0 none

/-- At most four windows, and none that meets a window of another tile of the partition (R157). -/
def windowCheck (x : TileSite) : Refused :=
  let others : List (Nat × Nat) := (x.d.tiles.filter fun t => !(t.x == x.t.x && t.y == x.t.y)).flatMap TileConf.windows ++
    (placesOf x.s).flatMap fun p =>
      if SMap.find? x.s.owners p = some x.part ∧ x.d.tiles.all fun t => x.d.place t ≠ p then (x.s.tile p).windows else []
  x.ensure (decide (x.t.windows.length ≤ 4) && x.t.windows.all fun w => others.all fun v =>
    w.2 == 0 || v.2 == 0 || decide (w.1 + w.2 ≤ v.1 ∨ v.1 + v.2 ≤ w.1)) 0 0 none

def check (x : TileSite) : Refused :=
  firstRefused ([x.ensure (decide ((x.t.sram.extractLsb' 0 4).toNat ≤ 8)) 0 0 none, x.windowCheck, x.islandCheck] ++ x.t.units.map x.unitCheck ++
    [x.chainCheck] ++ x.t.ctxs.map x.ctxCheck ++ x.t.ins.map (x.chanCheck · true) ++ x.t.outs.map (x.chanCheck · false) ++
    [x.floorCheck])

end TileSite

/-- Two neighbours of this package on a ring name each other, and the second has the next index (R241, R242). -/
def ringStep (s : State) (a b : Nat) : Bool :=
  successor s a == some b && predecessor s b == some a && ringIdx (ringReg s b) == ringIdx (ringReg s a) + 1

/-- The link of a die to another package, by the fields of ring.next at `pkg` and `port`, is a ring port of the partition that joins
it (R241, R243). -/
def ringLink (s : State) (part die pkg port : Nat) : Bool :=
  let w := ringReg s die
  let p := (w.extractLsb' port 4).toNat
  w.extractLsb' pkg 8 != s.package && (s.part part).rports.getLsbD p && Config.joins s.package p (w.extractLsb' pkg 8)

/-- The engines of a graph that rotates over several dies form a ring: the members of the package in die order, each naming its neighbours,
all with one count; the last names the first, whose index is 0 and which closes the whole ring, or both ends go over ring ports (R241,
R242, R299, log 59). -/
def ringSetUp (s : State) (part : Nat) (g : GraphImage) : Bool :=
  let dies := (List.range 4).filter (ringDies g).contains
  match dies, dies.getLast? with
  | d :: _ :: _, some e =>
    let w := ringReg s d
    (dies.all fun q => ringEn (ringReg s q) && ringCount (ringReg s q) == ringCount w) &&
      ((dies.zip (dies.drop 1)).all fun q => ringStep s q.1 q.2) &&
      (if successor s e = some d then
        predecessor s d == some e && ringIdx w == 0 && ringCount w == dies.length
      else ringLink s part e 35 29 && ringLink s part d 21 15)
  | _, _ => true

/-- The tile of a part that lies off the grid or is not the partition's, or its stream without a grant (R216). -/
def groundCheck (s : State) (part : Nat) (d : DieConf) : Refused :=
  firstRefused [
    (d.tiles.find? fun t => !(d.holds t && decide (SMap.find? s.owners (d.place t) = some part))).map fun t =>
      ⟨d.die * 256 + d.place t % 256, 0, 17, 0, none⟩,
    (d.streams.find? fun q => !(given s d.die q.str false q.queue part && given s d.die q.str true q.tpl part)).map fun q =>
      ⟨placeOf d.die (176 + q.str), 0, 17, 0, none⟩]

/-- The checks of one die's part (R216). -/
def dieCheck (s : State) (part : Nat) (g : GraphImage) (d : DieConf) : Refused :=
  firstRefused ([groundCheck s part d,
    match d.tiles with
      | t :: _ => (⟨s, part, g, d, t⟩ : TileSite).ensure (decide ((ringEngines g).length ≤ 1) && ringSetUp s part g) 0 0 none
      | [] => none] ++ d.tiles.map fun t => (⟨s, part, g, d, t⟩ : TileSite).check)

/-! ### Withdrawing a launch that is refused -/

/-- What a refused launch has placed goes, and so do its splice buffers (R216, R221). -/
def withdrawLaunch (s : State) (part id : Nat) : State :=
  let s := s.mapCtxs fun _ c =>
    let c := if c.splice.any fun x => x.1 == id then { c with splice := none } else c
    if c.part = part ∧ c.launch = id ∧ c.active then { c with active := false, frames := [], out := [], stops := [] } else c
  let s := s.mapUnits fun _ u => if u.launch = id then { u with active := false } else u
  markSpliced (s.mapIslands fun _ x => if x.launch = id then { x with active := false } else x)

/-- The record of a refused placement (R209, R216): source, frame 0, index, aux 0, and the reason in detail. -/
def reportOffence (s : State) (part : Nat) (o : Offence) : State :=
  let (s, detail) := match o.reason with
    | some r => (s, natW64 r)
    | none => ({ s with draws := s.draws + 1 }, (0 : BitVec 56) ++ (Config.freeWide s.draws).extractLsb' 0 8)
  let r : Record := {
    code := codeIllegal, source := sourceAt o.place o.unit, ctx := BitVec.ofNat 3 o.ctx, frame := 0
    index := BitVec.ofNat 12 o.index, part := BitVec.ofNat 5 part, time := s.time (o.place / 256), aux := 0, detail := detail, snap := 0 }
  reportRecord s part r none

/-! ### Configuration (R190, R216, R219) -/

/-- Free places of the QUEUE that a channel end feeds on this package (R116). -/
def queuePlaces (s : State) (g : GraphImage) (desc : W64) : Option Nat :=
  if descXp desc then none
  else
    let p := descPeer desc
    (g.dies.flatMap fun d => d.tiles.filterMap fun t =>
      if d.place t = p / 64 ∧ (t.ins.any fun c => c.ch == p % 64 && c.sink == .unit 22 0) then
        (unitConf? t 22).map fun u =>
          ((paramOf u 0).extractLsb' 0 17).toNat - (s.unit (p / 64 * 64 + 22)).store.length
      else none).head?

def Sink.isLead (x : Sink) (c : Nat) : Bool := x == .lead c

/-- Tokens that stay queued on a lead channel for the next configuration of its context (R68). -/
def keptTokens (s : State) (i : Nat) (sink : Sink) : List Token :=
  match sink with
  | .lead c => if (s.inc i).sink.isLead c then (s.inc i).queue ++ (s.inc i).flight else []
  | _ => []

/-- Tokens that stay queued on the consumer's end that a producer's descriptor names. -/
def keptAt (s : State) (g : GraphImage) (desc : W64) : Nat :=
  if descXp desc then 0
  else
    let p := descPeer desc
    (g.dies.flatMap fun d => d.tiles.flatMap fun t => if d.place t = p / 64 then
      (t.ins.filter fun c => c.ch == p % 64).map fun c => (keptTokens s p c.sink).length else []).headD 0

/-- Configures the consumer's end of a channel; `fresh`: no token of a predecessor or of the launch itself stands on it, but on a
lead channel those that its context has not consumed. -/
def configureIn (s : State) (g : GraphImage) (place : Nat) (fresh : Bool) (x : ChanConf) : State :=
  let i := place * 64 + x.ch
  let old := s.inc i
  let held := !old.queue.isEmpty || !old.flight.isEmpty
  s.setInc i {
    desc := if !fresh && descEn old.desc && held then old.desc else movedDesc g x.desc
    queue := if fresh then keptTokens s i x.sink else old.queue
    flight := if fresh then [] else old.flight
    received := if fresh then 0 else BitVec.ofNat 32 old.queue.length
    want := x.words, sink := x.sink }

/-- Configures the producer's end: a credit for each free slot. A channel of a splice that stays as it was, or that still holds tokens so
that a change of it is ignored (R109), keeps its descriptor and the credits it holds. -/
def configureOut (s : State) (g : GraphImage) (place : Nat) (fresh : Bool) (x : ChanConf) : State :=
  let i := place * 64 + x.ch
  let old := s.outc i
  let desc := movedDesc g x.desc
  let keep := !fresh && descEn old.desc && (old.desc == desc || holdsTokens s i true old.desc)
  s.setOutc i {
    desc := if keep then old.desc else desc, src := x.src
    credits := if keep then old.credits else (queuePlaces s g desc).getD (descDepth desc - keptAt s g desc)
    returning := if keep then old.returning else 0 }

def configureChans (s : State) (g : GraphImage) (place : Nat) (fresh : Bool) (ins outs : List ChanConf) : State :=
  outs.foldl (fun s x => configureOut s g place fresh x) (ins.foldl (fun s x => configureIn s g place fresh x) s)

/-- The context that an island goes with (log 18). -/
def islandOwner (t : TileConf) (u : UnitConf) : Nat := (t.ctxs.map (·.1)).foldl min (if t.ctxs.isEmpty then u.owner else 7)

/-- Place of the other island of a pair. -/
def matePlace (place : Nat) : Nat :=
  let i := islandRef place
  islandPlace (place / 256) (if i % 2 = 0 then i + 1 else i - 1)

/-- Configures a unit with its channels. The islands of a pair change their mode together (R16). A drain keeps the accumulators of REDUCE, the contents of QUEUE, and an island's
latch, bindings and accumulator rows (R219), and so the WLOADs that it has accepted. -/
def configureUnit (s : State) (g : GraphImage) (id place : Nat) (t : TileConf) (fresh : Bool) (u : UnitConf) : State :=
  let s :=
    if u.u = 32 then
      let old := s.island place
      let odd := oddIsland place
      let x : Island := { engine := u.engine, active := true, owner := islandOwner t u, launch := id
                          p := resetIslandParams u.engine odd, latch := old.latch, acc := old.acc, loads := old.loads }
      let s := s.setIsland place (u.params.foldl (fun (y : Island) p => y.put odd p.1 p.2) x)
      let s := if (s.island (matePlace place)).engine = u.engine then s
        else editIsland s (matePlace place) fun m => { m with engine := u.engine, p := resetIslandParams u.engine !odd }
      match (List.range 22).find? fun e => islandTile (2 * e) = place % 256 with
      | some e => if u.engine then s.setEngine (engineId (place / 256) e) {} else s
      | none => s
    else
      let old := s.unit (place * 64 + u.u)
      let x : OpUnit := { active := true, owner := u.owner, launch := id, p := resetParams u.u
                          store := if u.u = 22 then old.store else []
                          acc := if u.u = 30 then old.acc else []
                          got := u.u == 30 && old.got }
      s.setUnit (place * 64 + u.u) (u.params.foldl (fun (y : OpUnit) p => y.put u.u p.1 p.2) x)
  configureChans s g place fresh
    (t.ins.filter fun x => match x.sink with
      | .unit v _ => v == u.u
      | _ => false)
    (t.outs.filter fun x => match x.src with
      | .unit v _ => v == u.u
      | _ => false)

/-- Loads a context's region into grammar memory (R60). -/
def loadRegion (s : State) (place : Nat) (k : CtxConf) : State :=
  match k.grammar with
  | none => s
  | some r =>
    let t := s.tile place
    s.setTile place { t with gmem := (k.words.take r.len).zipIdx.foldl (fun m w => SMap.set m (r.base + w.2) w.1) t.gmem }

/-- A handler-table entry as written: its reserved bits read 0 (R4, R222). -/
def entryWritten (w : W64) : W64 := (w >>> 43) <<< 43

/-- The handler-table entries of a context: those of the graph, and no other (R190). -/
def loadEntries (s : State) (place c : Nat) (t : TileConf) : State :=
  let x := s.tile place
  let kept := x.htab.filter fun h => htabCtx h.2 ≠ c
  s.setTile place { x with htab := (t.htab.filter fun h => htabCtx h.2 = c).foldl (fun m h => SMap.set m h.1 (entryWritten h.2)) kept }

/-- Output-buffer entries that the tile's other contexts leave a context, beyond the two that it takes in any case: active contexts
have their quotas, and two are kept for each idle one (R103). -/
def outputSpare (s : State) (place c : Nat) : Nat :=
  254 - (((List.range 8).filter (· ≠ c)).map fun q =>
    if (s.ctx (place * 8 + q)).active then (s.ctx (place * 8 + q)).quota else 2).sum

/-- Configures a context with its own channels, its region and its entries. A drain keeps its hold registers (R219), and records of copies
that wait for their answer stand (R227); its output
quota is a free value of at least two entries (R103, log 7). -/
def configureCtx (s : State) (g : GraphImage) (part id place : Nat) (t : TileConf) (fresh : Bool) (c : Nat) (k : CtxConf) : State :=
  let old := s.ctx (place * 8 + c)
  let x : Ctx := {
    active := true, part := part, launch := id, image := k.image, grammar := k.grammar
    seq := { pc := BitVec.ofNat 12 ((k.grammar.map Region.entry).getD 0) }
    prio := prioWritten k.prio, floor := floorWritten 0xFFF0000000000001 k.floor, fpmode := fpmodeWritten 0 k.fpmode
    handler := handlerWritten 0 k.handler, bases := k.bases.map baseWritten
    holds := old.holds
    stops := if fresh then [] else old.stops
    quota := 2 + Config.outputQuota (place * 8 + c) % (outputSpare s place c + 1) }
  let s := loadEntries (loadRegion (s.setCtx (place * 8 + c) x) place k) place c t
  configureChans s g place fresh (t.ins.filter fun x => sinkCtx x.sink == some c) (t.outs.filter fun x => x.src == .context c)

/-- Tile-wide registers are written once the tile has drained (R140, R157, R257): a bank that is resized or takes other windows is
flushed. Entries of idle contexts go (R190). -/
def configureTile (s : State) (g : GraphImage) (d : DieConf) (t : TileConf) : State :=
  let place := d.place t
  let x := s.tile place
  let s := s.setTile place { x with htab := x.htab.filter fun h => (s.ctx (place * 8 + htabCtx h.2)).active }
  if tileInUse s place then s
  else
    let s := if (s.tile place).sram = sramWritten 0 t.sram ∧ (s.tile place).windows = t.windows then s else l1Flush s place fun _ => true
    let x := s.tile place
    s.setTile place { x with sram := sramWritten 0 t.sram, limit := limitWritten 0 (movedLimit g d.die t.limit), windows := t.windows, chain := [] }

/-- Configures an idle context; one that a running graph holds takes its configuration from its splice buffer. -/
def placeCtx (g : GraphImage) (part id place : Nat) (t : TileConf) (s : State) (k : Nat × CtxConf) : State :=
  if (s.ctx (place * 8 + k.1)).active then s else configureCtx s g part id place t true k.1 k.2

/-- The unit has passed its own EOS, or runs for no graph. -/
def unitDone (s : State) (place u : Nat) : Bool :=
  if u = 32 then !(s.island place).active || islandPassed s place
  else !(s.unit (place * 64 + u)).active || unitPassed s place u

/-- The island changes its mode. -/
def changesMode (s : State) (place : Nat) (u : UnitConf) : Bool := u.u == 32 && u.engine != (s.island place).engine

/-- A unit can take its parameters: its own EOS has passed, or it is idle (R220). An island changes its mode with its mate, once both
have drained (R16). -/
def unitFree (s : State) (place : Nat) (u : UnitConf) : Bool :=
  unitDone s place u.u && (!changesMode s place u || unitDone s (matePlace place) 32)

/-- Configures a unit that is idle; another waits for its EOS. -/
def placeUnit (g : GraphImage) (part id place : Nat) (t : TileConf) (s : State) (u : UnitConf) : State :=
  let idle (p : Nat) : Bool := if u.u = 32 then !(s.island p).active || (s.island p).launch == id else !(s.unit (p * 64 + u.u)).active
  if idle place ∧ (!changesMode s place u ∨ idle (matePlace place)) then configureUnit s g id place t true u
  else editRunning s part id fun r => { r with later := r.later ++ [(place, u.u)] }

/-- Units first: a context's entries and region do not touch them. -/
def placeTile (g : GraphImage) (part id : Nat) (d : DieConf) (s : State) (t : TileConf) : State :=
  let place := d.place t
  t.ctxs.foldl (placeCtx g part id place t) (t.units.foldl (placeUnit g part id place t) (configureTile s g d t))

/-- Writes the template of a queue that the graph arms, and its channel (R133, R218); what waits on another queue of the template keeps the
words that it had (R134). A launch that splices writes them at its placement, too, while its predecessor may still use the queue (DESIGN
CHOICE, log 67). -/
def placeStream (g : GraphImage) (d : DieConf) (s : State) (q : StreamConf) : State :=
  let w := q.words.zipIdx.map fun w => if w.2 = 6 then withTile 54 w.1 ((movedTile g (w.1.extractLsb' 62 2).toNat (w.1.extractLsb' 54 8).toNat).getD 255) else w.1
  let s := writeTemplate s d.die q.str q.tpl w
  let x := s.streamer (streamerId d.die q.str)
  configureIn (s.setStreamer (streamerId d.die q.str) { x with queues := SMap.erase x.queues q.queue }) g (placeOf d.die (176 + q.str)) true { ch := q.queue, desc := q.desc }

/-- The tiles whose banks may hold what a graph reads or has stored: its own, and in bound mode every tile of the partition (R157). -/
def storePlaces (s : State) (part : Nat) (r : Running) : List Nat :=
  if (s.part part).bound then (s.owners.filter fun o => o.2 = part).map (·.1)
  else r.graph.dies.flatMap fun d => (d.tiles.filter d.holds).map d.place

/-- PLACEMENT (R216): a die scheduler checks its part of a launch; then the clean lines of its banks go, behind the host's writes before
the trigger (R177), and it configures the idle contexts, the others waiting in
their splice buffers, and acknowledges. A refusal refuses the whole launch with st 4. When every die has placed its part of a
restore, the saved state is written back (R237). -/
def execPlacement (part die : Nat) (s : State) : Out :=
  match (s.part part).running.find? fun r => r.refused.isNone && !r.killed && !r.acked.contains die && (r.graph.die? die).isSome with
  | none => .next s
  | some r => match r.graph.die? die with
    | none => .next s
    | some d =>
      if !((dieCtxs d).all fun id => let c := s.ctx id
          !c.active || c.part != part || c.launch == r.id || c.splice.any fun x => x.1 == r.id) then .next s
      else match dieCheck s part r.graph d with
        | some o =>
          let s := reportOffence s part o
          .next (withdrawLaunch (editRunning s part r.id fun r => { r with refused := some 4 }) part r.id)
        | none =>
          if !recordsFit s part r.graph r.image die then
            .next (withdrawLaunch (editRunning s part r.id fun r => { r with refused := some 4 }) part r.id)
          else
            let s := (storePlaces s part r).foldl l1InvalidateClean s
            let s := markSpliced (d.streams.foldl (placeStream r.graph d) (d.tiles.foldl (placeTile r.graph part r.id d) s))
            let s := editRunning s part r.id fun r => { r with acked := die :: r.acked }
            let all := r.graph.dies.all fun d => d.die == die || r.acked.contains d.die
            .next (if all ∧ !r.image.isEmpty then restoreImage s r.graph r.id r.image else s)

/-! ### Sources (R218) -/

/-- Arms the queues of a die's part of a graph, on behalf of the contexts that its image names. -/
def armStream (g : GraphImage) (d : DieConf) (s : State) (q : StreamConf) : State :=
  let i := streamerId d.die q.str
  let x := s.streamer i
  let ctx := placeOf d.die ((movedTile g d.die (q.ctx / 8)).getD 255) * 8 + q.ctx % 8
  s.setStreamer i { x with queues := SMap.set x.queues q.queue { armed := some (q.tpl, ctx, 0, 0) } }

def startPlaces (s : State) (id : Nat) (die : Nat) : State :=
  (s.mapCtxs fun n c => if c.launch = id ∧ n / 2048 = die then { c with started := true } else c).mapUnits fun n u =>
    if u.launch = id ∧ n / 16384 = die ∧ n % 64 < 20 then { u with started := true } else u

/-- SOURCE_START (R218): every die has acknowledged, on the other packages of a ring graph as well, and the start reaches one of them. The queues of a restored graph are armed as the
image has them (R237). -/
def execSourceStart (part die : Nat) (s : State) : Out :=
  match (s.part part).running.find? fun r =>
      r.refused.isNone && !r.started.contains die && (r.graph.die? die).isSome && (r.others || (farPackages s r.graph).isEmpty) &&
        r.graph.dies.all fun d => r.acked.contains d.die with
  | none => .next s
  | some r => match r.graph.die? die with
    | none => .next s
    | some d =>
      let s := startPlaces (if r.image.isEmpty then d.streams.foldl (armStream r.graph d) s else s) r.id die
      .next (editRunning s part r.id fun r => { r with started := die :: r.started })

/-! ### Splicing (R220, R221) -/

/-- The conf of a place's tile in a running launch. -/
def tileConfAt (r : Running) (place : Nat) : Option (DieConf × TileConf) :=
  (r.graph.die? (place / 256)).bind fun d => (d.tiles.find? fun t => d.holds t && d.place t == place).map fun t => (d, t)

/-- SPLICE_CONFIG (R220): a context that a running graph holds receives its next configuration. -/
def execSpliceConfig (die tile ctx : Nat) (s : State) : Out :=
  let id := ctxId die tile ctx
  let c := s.ctx id
  if !c.active || c.killed || c.splice.isSome then .next s
  else
    let conf (r : Running) : Option CtxConf := (tileConfAt r (id / 8)).bind fun x => ctxConf? x.2 ctx
    match (s.part c.part).running.find? fun r => r.refused.isNone && r.id != c.launch && !r.acked.contains die && (conf r).isSome with
    | none => .next s
    | some r => match conf r with
      | none => .next s
      | some k => .next (s.setCtx id { c with splice := some (r.id, k) })

/-- Channels that feed a context. -/
def ctxInputs (s : State) (id : Nat) : List Nat :=
  (List.range 64).filter fun n => feedsCtx (s.inc (id / 8 * 64 + n)).sink (id % 8) && descEn (s.inc (id / 8 * 64 + n)).desc

/-- A context is drained (R219). -/
def drained (s : State) (id : Nat) : Bool :=
  let c := s.ctx id
  c.seq.run == .accepted && c.chead == c.ahead && c.out.isEmpty &&
    ((List.range 14).all fun n =>
      let o := s.unit (id / 8 * 64 + 18 + n)
      !o.active || o.owner != id % 8 || o.launch != c.launch || unitPassed s (id / 8) (18 + n))

/-- What a killed or pre-empted launch has not drained loses the state that a drain keeps, but for the latch, which only WLOAD and WBIND
change: everything where it was pre-empted, else the contexts that were killed, and the units that they own or that have not passed their
EOS (R219, R232, log 21). -/
def wipe (s : State) (r : Running) : State :=
  let gone (place owner : Nat) (passed : Bool) : Bool := r.preempted || (s.ctx (place * 8 + owner)).killed || !passed
  let ctxGone (n : Nat) (c : Ctx) : Bool := c.launch == r.id && (r.preempted || c.killed || !drained s n)
  let unitGone (n : Nat) (u : OpUnit) : Bool := u.launch == r.id && gone (n / 64) u.owner (unitPassed s (n / 64) (n % 64))
  let islandGone (n : Nat) (x : Island) : Bool := x.launch == r.id && gone n x.owner (islandPassed s n)
  let t := s.mapCtxs fun n c => if ctxGone n c then { c with holds := List.replicate 16 (List.replicate 32 none) } else c
  let t := t.mapUnits fun n u => if unitGone n u then { u with store := [], acc := [], got := false } else u
  t.mapIslands fun n x => if islandGone n x then { x with acc := [], loads := [] } else x

/-- A context's region can be rewritten: every other context whose words it would change has drained (R60). -/
def regionFree (s : State) (place c : Nat) (k : CtxConf) : Bool :=
  match k.grammar with
  | none => true
  | some r => (List.range 8).all fun q =>
    let y := s.ctx (place * 8 + q)
    q == c || !y.active || drained s (place * 8 + q) || (match y.grammar with
      | none => true
      | some w => TileSite.regionsAgree r w k.words ((List.range w.len).map fun n => gmemAt s place (w.base + n)))

/-- Writes back the saved state of what has just taken its configuration in a restored launch (R237). -/
def restoreLate (r : Running) (place : Nat) (p : ImageRec → Bool) (ctxs : Bool) (s : State) : State :=
  let l := (imageRecords r.image).filter fun x => decide (recPlace r.graph x = some place) && p x
  l.foldl (restoreGrants r.graph r.id) (l.foldl (restoreRecord r.graph r.id ctxs) s)

/-- The unit is the next to change for this launch: no launch before it waits for the same unit, and the contexts of a restored
launch's tile have taken theirs. -/
def unitTurn (s : State) (part : Nat) (r : Running) (x : Nat × Nat) : Bool :=
  ((s.part part).running.all fun q => decide (r.id ≤ q.id) || !q.later.contains x) &&
    (r.image.isEmpty || r.ctxs.all fun id => id / 8 != x.1 || (s.ctx id).launch == r.id)

/-- A unit that waits takes its parameters once its own EOS has passed (R220), and in a restored launch its saved state. -/
def applyUnit (part : Nat) (r : Running) (s : State) (x : Nat × Nat) : State :=
  match (tileConfAt r x.1).bind fun t => (unitConf? t.2 x.2).map fun u => (t.2, u) with
  | none => s
  | some (t, u) =>
    if !unitFree s x.1 u || !unitTurn s part r x || (changesMode s x.1 u && !unitTurn s part r (matePlace x.1, 32)) then s
    else
      let s := configureUnit s r.graph r.id x.1 t false u
      let s := if x.2 < 20 then editUnit s (x.1 * 64 + x.2) fun o => { o with started := r.started.contains (x.1 / 256) } else s
      let s := restoreLate r x.1 (fun b => (b.type == 2 && b.src % 64 == x.2 && x.2 != 32) || (b.type == 3 && x.2 == 32)) false s
      editRunning s part r.id fun r => { r with later := r.later.erase x }

/-- The waiting units of a tile, and those of its island's mate, which changes its mode with it. -/
def applyUnits (part place : Nat) (s : State) : State :=
  markSpliced ((s.part part).running.foldl (fun s r =>
    if r.refused.isSome || r.killed || r.preempted then s
    else (r.later.filter fun x => x.1 == place || (x.2 == 32 && x.1 == matePlace place)).foldl (applyUnit part r) s) s)

/-- A context takes the configuration of its splice buffer, and in a restored launch its saved state. -/
def applyCtx (s : State) (r : Running) (t : TileConf) (id : Nat) (k : CtxConf) : State :=
  let s := configureCtx s r.graph (s.ctx id).part r.id (id / 8) t false (id % 8) k
  let s := s.setCtx id { s.ctx id with started := r.started.contains (id / 2048) }
  restoreLate r (id / 8) (fun b => b.type == 1 && b.ctx % 8 == id % 8) true s

/-- SPLICE_APPLY (R220): the context applies its configuration once EOS has passed its inputs and it has drained; the units of the tile
that wait apply theirs behind their own EOS. -/
def execSpliceApply (die tile ctx : Nat) (s : State) : Out :=
  let id := ctxId die tile ctx
  let part := (s.ctx id).part
  let ready := drained s id && (ctxInputs s id).all fun n => (s.inc (id / 8 * 64 + n)).eos
  let s := match (s.ctx id).splice with
    | none => s
    | some (l, k) => match runningOf s part l with
      | none => s
      | some r => match tileConfAt r (id / 8) with
        | none => s
        | some (_, t) => if ready && regionFree s (id / 8) ctx k then applyCtx s r t id k else s
  .next (applyUnits ((SMap.find? s.owners (id / 8)).getD part) (id / 8) s)

/-! ### Completion (R214, R219, R232) -/

/-- The launch holds the context no more: it has drained and every record of it has been delivered, it was killed, or a
successor has taken it. -/
def ctxDone (s : State) (launch id : Nat) : Bool :=
  let c := s.ctx id
  !(c.splice.any fun x => x.1 == launch) && (c.launch != launch || !c.active || c.killed || (drained s id && c.stops.all Stop.delivered))

/-- Every WRITE of the launch has consumed its EOS. -/
def writesDone (s : State) (launch : Nat) : Bool :=
  s.units.all fun u =>
    !(u.2.active && u.2.launch == launch && (u.1 % 64 == 20 || u.1 % 64 == 21)) || unitPassed s (u.1 / 64) (u.1 % 64)

/-- Every word of the launch's copies has landed or is given up (R177). -/
def copiesDone (s : State) (launch : Nat) : Bool :=
  s.streamers.all fun x => x.2.copies.all fun c => c.2.launch != launch || c.2.dead

/-- The outcome of a launch that can finish now (R213, R214, R216, R221, R232, R234). -/
def outcomeOf (s : State) (r : Running) : Option Nat :=
  match r.refused with
  | some st => some st
  | none =>
    if r.preempted then some 6
    else if !(r.graph.dies.all fun d => r.started.contains d.die) then
      (if r.killed ∧ r.ctxs.all (ctxDone s r.id) then some 5 else none)
    else if !r.ctxs.all (ctxDone s r.id) then none
    else if r.killed then some 5
    else if r.later.isEmpty && writesDone s r.id && copiesDone s r.id then some 1 else none

/-- A launch finishes: what it has stored is written back (R157, R177, R214), its contexts and units are idle, its outcome stands in
part.trigger, and vector 0 is signalled. -/
def finishLaunch (s : State) (part : Nat) (r : Running) (st : Nat) : State :=
  let s := (storePlaces s part r).foldl (fun s p => l1WriteBackAll s p fun _ => true) s
  let s := if r.killed || r.preempted then wipe s r else s
  let s := if r.refused.isSome then withdrawLaunch s part r.id else s
  let s := s.mapCtxs fun _ c => if c.part = part ∧ c.launch = r.id then { c with active := false } else c
  let s := s.mapUnits fun _ u => if u.launch = r.id then { u with active := false } else u
  let s := s.mapIslands fun _ x => if x.launch = r.id then { x with active := false } else x
  let p := s.part part
  signal (s.setPart part { p with
    running := p.running.filter fun q => q.id ≠ r.id
    snaps := p.snaps.filter fun q => q.launch ≠ r.id
    lastSlot := BitVec.ofNat 6 r.launch.slot, st := BitVec.ofNat 3 st }) (part + 1) 0

/-- LAUNCH_FINISH (R214). -/
def execLaunchFinish (part : Nat) (s : State) : Out :=
  match (s.part part).running.findSome? fun r => (outcomeOf s r).map fun st => (r, st) with
  | none => .next s
  | some (r, st) => .next (finishLaunch s part r st)

end Sys2Proof.Machine
end

