-- ==== Sys2Proof/Machine/Lantern.lean ====
section
/-! DEFINITION. Lantern snapshots (R233 to R236, R256, R399, R400) and Vigil (R238 to R240). -/
namespace Sys2Proof.Machine
open Sys2Proof

/-! ### The units of a graph -/

/-- Inserts a unit by its source number, and contexts of a tile by their number. -/
def insertRef (g : GraphImage) (u : UnitRef) : List UnitRef → List UnitRef
  | [] => [u]
  | v :: t =>
    if refSource g u < refSource g v ∨ (refSource g u = refSource g v ∧ refCtx u < refCtx v) then u :: v :: t
    else v :: insertRef g u t

def armedFor (s : State) (launch : Nat) (q : Queue) : Bool :=
  match q.armed with
  | some a => (s.ctx a.2.1).launch == launch
  | none => false

/-- Contexts, operator units, islands and armed queues of a launch, in the order of the image. -/
def graphUnits (s : State) (part launch : Nat) (g : GraphImage) : List UnitRef :=
  let cs := s.ctxs.filterMap fun e =>
    if e.2.part = part ∧ e.2.launch = launch ∧ e.2.active ∧ !e.2.killed then some (ctxRef e.1) else none
  let us := s.units.filterMap fun e => if e.2.active ∧ e.2.launch = launch then some (unitRefAt (e.1 / 64) (e.1 % 64)) else none
  let is := s.islands.filterMap fun e => if e.2.active ∧ e.2.launch = launch then some (unitRefAt e.1 32) else none
  let qs := s.streamers.flatMap fun e => e.2.queues.filterMap fun q =>
    if armedFor s launch q.2 then some (UnitRef.queue (e.1 / 16) (e.1 % 16) q.1) else none
  (cs ++ us ++ is ++ qs).foldl (fun l u => insertRef g u l) []

/-- A context of the graph that has been killed sends no marker and has no record (R232). -/
def refDead (s : State) : UnitRef → Bool
  | .ctx d t c => (s.ctx (ctxId d t c)).killed
  | _ => false

/-- An input channel on which a marker must come: its producer is a living unit of the graph, on this package or on another. -/
def awaitsMarker (s : State) (all : List UnitRef) (i : Nat) : Bool :=
  let d := (s.inc i).desc
  !descWc d && (descXp d || match producerRef s (descPeer d) with
    | some u => all.contains u && !refDead s u
    | none => false)

/-- The units belong to a ring graph (R21). -/
def ofRing (s : State) (all : List UnitRef) : Bool :=
  all.any fun u => match u with
    | .ctx d t c => ofRingGraph s (s.ctx (ctxId d t c))
    | _ => false

/-- The island of the predecessor of an engine on its ring, where the snapshot holds it or it lies on another package (R256). -/
def ringBefore (s : State) (all : List UnitRef) (d i : Nat) : Bool :=
  i % 2 == 0 && (s.island (islandPlace d i)).engine && match predecessor s d with
    | some p => all.contains (.island p i)
    | none => ringEn (ringReg s d) && ofRing s all

/-- Sources, and units that no marker can reach, have theirs injected (R218, R233). -/
def isInjected (s : State) (all : List UnitRef) (u : UnitRef) : Bool :=
  let bare := (refInputs s u).all (fun i => !awaitsMarker s all i)
  match u with
  | .ctx d t c => bare || (s.ctx (ctxId d t c)).grammar.isNone
  | .op _ _ n => bare || decide (n < 20)
  | .island d i => bare && !ringBefore s all d i
  | .queue _ _ _ => true

def editSnap (s : State) (part : Nat) (x : Snapshot) (f : Snapshot → Snapshot) : State :=
  let p := s.part part
  s.setPart part { p with snaps := p.snaps.map fun y => if y.launch = x.launch ∧ y.injected then f y else y }

/-- The first waiting snapshot of a graph begins when none of it is in progress (R233, R399). -/
def injectNext (s : State) (part launch : Nat) : State :=
  let p := s.part part
  match runningOf s part launch with
  | none => s
  | some r =>
    if p.snaps.any fun x => x.launch == launch && x.injected then s
    else match p.snaps.findIdx? fun x => x.launch == launch with
      | none => s
      | some n =>
        let all := graphUnits s part launch r.graph
        s.setPart part { p with snaps := p.snaps.modify n fun x => { x with
          injected := true, time := s.almanac, all := all, units := all, inject := all.filter (isInjected s all) } }

/-- Queues a request at the belfry (R233, R399). -/
def requestSnapshot (s : State) (part launch : Nat) (pre : Bool) (va : Nat) (issuer : Option Nat) : State :=
  match runningOf s part launch with
  | none => s
  | some _ =>
    let p := s.part part
    injectNext (s.setPart part { p with snaps := p.snaps ++ [{ launch := launch, va := va % 2 ^ 56, pre := pre, issuer := issuer }] })
      part launch

/-! ### Freezing and thawing (R234) -/

/-- Firings that wait are saved unfired (R321, R376, R426): what they have done already stands in a resume of theirs. -/
def unfired (x : Inflight) : Option (Nat × Nat × Nat × Resume) :=
  match x.work with
  | .barrier done => some (x.ins, x.frame, x.k, { ta := (List.range x.k).map fun j => if done.contains j then some 0 else none })
  | .promise _ revised => some (x.ins, x.frame, x.k, { times := revised })
  | .parameter _ _ lane => some (x.ins, x.frame, x.k, { lane := lane })
  | .weights _ _ | .gather | .rotation _ | .attend _ _ => none

def dropWrites (s : State) (id : Nat) : State :=
  let s := s.mapUnits fun _ o => { o with writes := o.writes.filter fun w => w.ctx ≠ id }
  s.mapIslands fun _ o => { o with writes := o.writes.filter fun w => w.ctx ≠ id }

/-- A context freezes: what waits is saved unfired, an SBAR that has taken its cut as well (R321, R396). -/
def freezeCtx (s : State) (id : Nat) : State :=
  let full := s.episodes.filter fun e => e.full && e.arrivals.any fun a => a.1 == id
  let s := withdrawArrivals (full.foldl (fun s e => fillEpisode s e.id) s) id
  let c := s.ctx id
  let back := c.inflight.filterMap unfired
  let c := { c with
    frozen := true, inflight := c.inflight.filter fun x => (unfired x).isNone
    resumes := (c.resumes.map fun x => (x.1, x.2.1, x.2.2.1, { x.2.2.2 with cut := none })) ++ back }
  dropWrites (s.setCtx id c) id

/-- A marker with the producer's count leaves on every output channel that a unit of the graph consumes. -/
def sendMarkers (s : State) (all : List UnitRef) (u : UnitRef) : State :=
  let s := (refOutputs s u).foldl (fun s i =>
    let oc := s.outc i
    let p := descPeer oc.desc
    if !descXp oc.desc && (consumerRef s p).any all.contains then s.setInc p { s.inc p with coming := some oc.sent } else s) s
  match u with
  | .island d i =>
    if (s.island (islandPlace d i)).engine ∧ i % 2 = 0 then
      match successor s d with
      | some q => if all.contains (.island q i) then sendItem s d (i / 2) 0 .marker else s
      | none => s
    else s
  | _ => s

def setFrozen (s : State) (u : UnitRef) (b : Bool) : State :=
  match u with
  | .ctx d t c => let id := ctxId d t c; s.setCtx id { s.ctx id with frozen := b }
  | .op d t n => editUnit s (unitId d t n) fun o => { o with frozen := b }
  | .island d i => editIsland s (islandPlace d i) fun x => { x with frozen := b }
  | .queue d str q =>
    let x := s.streamer (streamerId d str)
    s.setStreamer (streamerId d str) { x with queues := x.queues.map fun e => if e.1 = q then (q, { e.2 with frozen := b }) else e }

/-- A unit freezes at its first marker, and at once sends its own (R234). -/
def freezeRef (s : State) (all : List UnitRef) (u : UnitRef) : State :=
  if refFrozen s u then s
  else
    let s := match u with
      | .ctx d t c => freezeCtx s (ctxId d t c)
      | _ => setFrozen s u true
    sendMarkers s all u

/-- A unit thaws, its caught tokens still queued. -/
def thawRef (s : State) (u : UnitRef) : State :=
  let s := (refInputs s u).foldl (fun s i => s.setInc i { s.inc i with marker := none }) (setFrozen s u false)
  match u with
  | .island d i => if i % 2 = 0 then editEngine s d (i / 2) fun g => { g with marked := none } else s
  | _ => s

/-- The snapshot that a unit takes part in, and its partition. -/
def snapshotOf (s : State) (u : UnitRef) : Option (Nat × Snapshot) :=
  s.parts.findSome? fun e => (e.2.snaps.find? fun x => x.injected && x.all.contains u).map fun x => (e.1, x)

/-- The marker of a ring reaches an engine's slots: what stood before it is caught (R256). -/
def ringMarker (s : State) (d i : Nat) : Option State :=
  let g := getEngine s d (i / 2)
  match g.arriving.findIdx? fun x => x.2 == .marker with
  | some n => some (editEngine s d (i / 2) fun g => { g with arriving := g.arriving.eraseIdx n, marked := some n })
  | none => none

/-- LANTERN_MARKER_ARRIVAL (R234): an injection, a marker on a channel, or a marker at the slots of an engine (channel 64). -/
def execLanternMarkerArrival (u : UnitRef) (ch : Nat) (s : State) : Out :=
  match snapshotOf s u with
  | none => .next s
  | some (part, x) =>
    if x.recorded u then .next s
    else if x.inject.contains u then
      .next (freezeRef (editSnap s part x fun y => { y with inject := y.inject.filter (· ≠ u) }) x.all u)
    else if ch = 64 then
      match u with
      | .island d i => match ringMarker s d i with
        | some s => .next (freezeRef s x.all u)
        | none => .next s
      | _ => .next s
    else
      let i := refPlace u * 64 + ch
      match (s.inc i).coming with
      | none => .next s
      | some m =>
        if consumerRef s i = some u then
          .next (freezeRef (s.setInc i { s.inc i with coming := none, marker := some m }) x.all u)
        else .next s

/-! ### Records and the image (R234, R235, R400) -/

/-- On every input channel the marker has arrived and the received count has reached it (R234). -/
def saveReady (s : State) (all : List UnitRef) (u : UnitRef) : Bool :=
  refFrozen s u &&
    ((refInputs s u).all fun i => !awaitsMarker s all i || match (s.inc i).marker with
      | some m => decide (((s.inc i).received - m).toNat < 2 ^ 31)
      | none => false) &&
    match u with
    | .island d i => !ringBefore s all d i || (getEngine s d (i / 2)).marked.isSome
    | _ => true

/-- The caught tokens of a channel: those at or below the marker's count that the unit has not consumed. -/
def caughtOf (s : State) (all : List UnitRef) (i : Nat) : Nat × List Token :=
  let ic := s.inc i
  (i % 64, match ic.marker with
    | some m => if awaitsMarker s all i then ic.queue.take (ic.queue.length - (ic.received - m).toNat) else ic.queue
    | none => ic.queue)

/-- A LANTERN record (R231, R234): to the handler of the context that issued the SNAP, or to the partition owner, in the name of the
belfry. -/
def reportLantern (s : State) (part : Nat) (x : Snapshot) (snap : W64) (aux detail : Option W64) : State :=
  match x.issuer with
  | some id =>
    if !x.pre && (s.ctx id).active && !(s.ctx id).killed then
      let s := takeFault s id codeLantern (sourceAt (id / 8) 17) 0 0 aux detail .snapshot none
      let c := s.ctx id
      s.setCtx id { c with stops := c.stops.modify (c.stops.length - 1) fun y => { y with record := { y.record with snap := snap } } }
    else toPart s none
  | none => toPart s none
where
  toPart (s : State) (kill : Option Nat) : State :=
    let (s, a) := openWord s aux
    let (s, d) := openWord s detail
    reportRecord s part {
      code := codeLantern, source := 0x3C00, ctx := 0, frame := 0, index := 0, part := BitVec.ofNat 5 part, time := s.almanac
      aux := a, detail := d, snap := snap } kill

/-- The snapshot ends, and the next of its graph begins. -/
def dropSnap (s : State) (part : Nat) (x : Snapshot) : State :=
  let p := s.part part
  injectNext (s.setPart part { p with snaps := p.snaps.filter fun y => !(y.launch == x.launch && y.injected) }) part x.launch

/-- Markers still under way for a snapshot that has ended are dropped. -/
def clearMarkers (s : State) (u : UnitRef) : State :=
  let s := (refInputs s u).foldl (fun s i => s.setInc i { s.inc i with coming := none }) s
  match u with
  | .island d i =>
    if i % 2 = 0 then editEngine s d (i / 2) fun g => { g with arriving := g.arriving.filter fun y => y.2 != .marker } else s
  | _ => s

/-- SNAPSHOT_ABANDON (R400): every frozen unit thaws. -/
def thawSnapshot (s : State) (part : Nat) (x : Snapshot) : State :=
  dropSnap (x.all.foldl (fun s u => clearMarkers (if refFrozen s u then thawRef s u else s) u) s) part x

/-- The snapshots that a checkpoint has begun, with their partitions. -/
def ckptSnaps (s : State) : List (Nat × Snapshot) :=
  s.parts.flatMap fun e => (e.2.snaps.filter fun x => x.ckpt).map fun x => (e.1, x)

/-- The words of host.ckpt when a checkpoint or restore ends (R270). -/
def endCkpt (s : State) (ok : Bool) : State :=
  { s with
    ckptRun := none
    ckpt := (s.ckpt &&& 0x1FFFFFFFFFFFFFFF) ||| (if ok then 0x4000000000000000 else 0x2000000000000000) }

/-- A checkpoint one of whose images cannot be written ends with err set, and every graph thaws (R270). -/
def failCheckpoint (s : State) : State :=
  let l := ckptSnaps s
  let s := { s with parts := s.parts.map fun e => (e.1, { e.2 with snaps := e.2.snaps.filter fun x => !x.ckpt || x.injected }) }
  endCkpt (l.foldl (fun s e => if e.2.injected then thawSnapshot s e.1 e.2 else s) s) false

/-- A snapshot is abandoned, and the record says why (R400). -/
def abandonSnapshot (s : State) (part : Nat) (x : Snapshot) (e : MemFault) : State :=
  reportLantern (if x.ckpt then failCheckpoint s else thawSnapshot s part x) part x 0 (some (natW64 e.va))
    (some (e.code.zeroExtend 64))

/-- Writes the records whose turn has come, in ascending order of their sources (R305); a killed context has none. -/
def flushRecords (s : State) (part : Nat) (x : Snapshot) : Nat → State × Snapshot × Option MemFault
  | 0 => (s, x, none)
  | n + 1 =>
    match x.units with
    | [] => (s, x, none)
    | u :: rest =>
      match x.saved.find? fun e => e.1 = u with
      | some (_, b) =>
        match partWrite s part (x.va + x.size) b with
        | (s, .error e) => (s, x, some e)
        | (s, .ok _) =>
          flushRecords s part { x with
            units := rest, saved := x.saved.filter fun e => e.1 ≠ u, size := x.size + b.length, nrec := x.nrec + 1 } n
      | none => if refDead s u then flushRecords s part { x with units := rest, inject := x.inject.filter (· ≠ u) } n else (s, x, none)

def flush (s : State) (part : Nat) (x : Snapshot) : State :=
  match flushRecords s part x (x.units.length + 1) with
  | (s, x, some e) => abandonSnapshot s part x e
  | (s, x, none) => editSnap s part x fun _ => x

/-- UNIT_SAVE_COMPLETE (R234): the unit's record is taken. In checkpoint mode the unit thaws; in pre-empt mode it stays frozen until
the image is whole, so that an abandoned snapshot leaves the graph running (R400). -/
def execUnitSaveComplete (u : UnitRef) (s : State) : Out :=
  match snapshotOf s u with
  | none => .next s
  | some (part, x) =>
    match runningOf s part x.launch with
    | none => .next s
    | some r =>
      if refDead s u then .next (flush s part x)
      else if x.recorded u || x.inject.contains u || !saveReady s x.all u then .next s
      else
        let b := recordBytes s r.graph u ((refInputs s u).map (caughtOf s x.all))
        let more := restBytes s r.graph u
        let s := if x.pre then s else thawRef s u
        .next (flush s part { x with saved := x.saved ++ [(u, b)], rest := x.rest ++ more })

/-- The tokens of a pre-empted context's inputs are in its image alone. -/
def dropInputs (s : State) (id : Nat) : Nat → State
  | 0 => s
  | n + 1 =>
    let s := dropInputs s id n
    let i := id / 8 * 64 + n
    let x := s.inc i
    if feedsCtx x.sink (id % 8) then s.setInc i { x with queue := [], flight := [], cut := false } else s

/-- A unit of a pre-empted graph is killed without EOS (R234). -/
def preemptRef (s : State) (u : UnitRef) : State :=
  match u with
  | .ctx d t c =>
    let id := ctxId d t c
    let s := dropInputs (withdrawArrivals s id) id 64
    let c := s.ctx id
    s.setCtx id { c with
      killed := true, frozen := false, frames := [], chead := c.ahead, out := [], splice := none, stops := [], inflight := []
      resumes := [], ages := [], halting := none, answering := none
      seq := { c.seq with closing := false, wait := none, entry := none, gwait := none, goal := none } }
  | .op d t n => editUnit s (unitId d t n) fun o => { o with frozen := false, active := false, out := [], writes := [] }
  | .island d i =>
    let s := editIsland s (islandPlace d i) fun x => { x with frozen := false, active := false, rows := [], sets := [], loads := [], out := [] }
    if i % 2 = 0 then editEngine s d (i / 2) fun g => { g with rot := none, jobs := [], marked := none } else s
  | .queue d str q =>
    let x := s.streamer (streamerId d str)
    s.setStreamer (streamerId d str) { x with queues := SMap.erase x.queues q }

/-- The launch of a pre-empted graph ends with st 6; a request behind the pre-empt request is discarded (R234, R399), and a launch
spliced behind the graph is refused (R221). -/
def preemptGraph (s : State) (part : Nat) (x : Snapshot) : State :=
  let s := x.all.foldl preemptRef (refuseSuccessors s part x.launch)
  let s := editRunning s part x.launch fun r => { r with preempted := true }
  let p := s.part part
  s.setPart part { p with snaps := p.snaps.filter fun y => y.launch ≠ x.launch }

/-! ### The images of a checkpoint (R270) -/

/-- The launch runs on every die, and nothing has ended it. -/
def Running.runs (r : Running) : Bool :=
  r.refused.isNone && !r.preempted && r.graph.dies.all fun d => r.started.contains d.die

/-- Nothing more will start of the launch while the graphs stand still: it runs or ends, or waits behind a graph in its splice
buffers. -/
def settled (s : State) (r : Running) : Bool :=
  r.runs || r.refused.isSome || r.preempted || r.killed || s.ctxs.any fun c => c.2.splice.any fun x => x.1 == r.id

/-- Where the next image of a partition goes: its Vigil area, or the 4 KiB boundary behind the last image (R270). -/
def nextImage (p : Part) : Nat :=
  (p.snaps.filter fun x => x.ckpt && x.whole).foldl (fun a x => max a ((x.va + x.size + 4095) / 4096 * 4096))
    ((p.vigil.extractLsb' 12 44).toNat * 4096)

/-- The keep cores ask for the next image of a partition, when the last one is whole. -/
def askImage (s : State) (part : Nat) : State :=
  let p := s.part part
  if p.snaps.any fun x => x.ckpt && !x.whole then s
  else match p.running.find? fun r => r.runs && !(p.snaps.any fun x => x.ckpt && x.launch == r.id) with
    | none => s
    | some r =>
      let x : Snapshot := { launch := r.id, va := nextImage p % 2 ^ 56, pre := true, issuer := none, ckpt := true }
      injectNext (s.setPart part { p with snaps := p.snaps ++ [x] }) part r.id

/-- Step 1 of a checkpoint: images are asked for one after another, and once the last of them is whole every graph is
pre-empted. -/
def checkpointStep (s : State) : State :=
  match s.ckptRun with
  | some k =>
    if k.restore || k.written.isSome then s
    else
      let s := s.parts.foldl (fun s e => askImage s e.1) s
      let ready := s.parts.all fun e => e.2.running.all fun r =>
        settled s r && (!r.runs || e.2.snaps.any fun x => x.ckpt && x.whole && x.launch == r.id)
      if ready then
        (ckptSnaps s).foldl (fun s e => if e.2.whole then preemptGraph s e.1 e.2 else s) s
      else s
  | none => s

/-- SNAPSHOT_REQUEST (R233): the keep cores ask for a snapshot of the oldest running launch of a slot; during a checkpoint they ask
for its images only (R270). -/
def execSnapshotRequest (part slot : Nat) (pre : Bool) (va : Nat) (s : State) : Out :=
  if s.ckptRun.isSome then .next (checkpointStep s)
  else match (s.part part).running.find? fun r => r.launch.slot = slot with
    | none => .next s
    | some r => .next (requestSnapshot s part r.id pre va none)

/-- The image of a checkpoint is whole; its graph stands still until every image is. -/
def wholeImage (s : State) (part : Nat) (x : Snapshot) (slot : Nat) : State :=
  let s := editSnap s part x fun y => { y with whole := true }
  checkpointStep { s with ckptRun := s.ckptRun.map fun k => { k with images := k.images ++ [(part, slot, x.va)] } }

/-- Writes what follows the records, and then the image's header (R235). -/
def writeEnd (s : State) (part : Nat) (r : Running) (x : Snapshot) : Acc Unit :=
  let header := imageHeader r.graph x.pre.toNat r.launch.slot x.nrec (x.size + x.rest.length) x.time
  if x.rest.isEmpty then partWrite s part x.va header
  else match partWrite s part (x.va + x.size) x.rest with
    | (s, .error e) => (s, .error e)
    | (s, .ok _) => partWrite s part x.va header

/-- SNAPSHOT_COMPLETE (R234, R235): every record is written, and the header follows them. -/
def execSnapshotComplete (part : Nat) (s : State) : Out :=
  match (s.part part).snaps.find? fun x => x.injected && x.units.isEmpty && !x.whole with
  | none => .next s
  | some x =>
    match runningOf s part x.launch with
    | none => .next s
    | some r =>
      match writeEnd s part r x with
      | (s, .error e) => .next (abandonSnapshot s part x e)
      | (s, .ok _) =>
        let s := reportLantern s part x (natW64 x.va) none none
        .next (if x.ckpt then wholeImage s part x r.launch.slot
          else if x.pre then preemptGraph s part x else dropSnap s part x)

/-! ### Vigil (R238, R239, R240) -/

/-- No firing of the context could be performed now. -/
def noneReady (s : State) (id : Nat) : Bool :=
  (List.range (Image.count (s.ctx id).image)).all fun i => (firingsOf s id i).isEmpty

/-- Input-starved (R238): every input queue is empty, and no firing is ready. -/
def inputStarved (s : State) (id : Nat) : Bool :=
  ((ctxInputs s id).all fun n => (s.inc (id / 8 * 64 + n)).queue.isEmpty) && noneReady s id

/-- A rotation waits for a grant of its successor (R253). -/
def waitsGrant (s : State) (die e : Nat) : Bool :=
  let g := getEngine s die e
  match g.rot with
  | none => false
  | some r =>
    let rows := if r.step = 0 then headerRows r.header else
      match stepSlot g r with
      | some (_, h) => headerRows h
      | none => 1
    g.held.isEmpty && r.slot.isNone && !r.emitting && decide (r.step + 1 < r.steps) && (decide (r.sent < r.applied) || rows == 0)

/-- The oldest released token of an output channel, and whether it lacks a credit. -/
def headBlocked (s : State) (id n : Nat) : Option Bool :=
  match (s.ctx id).out.find? fun e => e.chan = n with
  | some e => if e.released then some (!canSend s (id / 8 * 64 + n)) else none
  | none => none

/-- Output-blocked (R238, R253): no firing is ready, and every release and rotation, one at the least, waits for a credit or a grant. A
firing that is parked elsewhere (a BAR, a WTIL) is no ready firing. -/
def outputBlocked (s : State) (id : Nat) : Bool :=
  let c := s.ctx id
  let rotations := c.inflight.filterMap fun x => match x.work with
    | .rotation e => some (waitsGrant s (id / 2048) e)
    | _ => none
  let heads := (List.range 64).filterMap (headBlocked s id)
  noneReady s id && (rotations ++ heads).all (·) && !(rotations ++ heads).isEmpty

/-- Busy-stalled (R238): the context holds tokens or frames, and is in no other state. -/
def busyStalled (s : State) (id : Nat) : Bool :=
  let c := s.ctx id
  let holds := decide (c.chead < c.ahead) || !c.out.isEmpty || (ctxInputs s id).any fun n => !(s.inc (id / 8 * 64 + n)).queue.isEmpty
  c.active && !c.killed && !c.frozen && !c.stops.any Stop.holdsContext && c.seq.wait.isNone && holds && !inputStarved s id && !outputBlocked s id

/-- The mode-2 image of one context (R235, R240): its queued tokens are caught. -/
def vigilImage (s : State) (part id : Nat) : Bytes :=
  let c := s.ctx id
  let u := ctxRef id
  let r := runningOf s part c.launch
  let g := (r.map Running.graph).getD {}
  let b := recordBytes s g u ((refInputs s u).map fun i => (i % 64, (s.inc i).queue)) ++ restBytes s g u
  imageHeader g 2 ((r.map fun r => r.launch.slot).getD 0) 1 (64 + b.length) s.almanac ++ b

/-- The context has been stalled for a window: image, kill, and WATCHDOG to the partition owner (R240). -/
def vigilKill (s : State) (id : Nat) : State :=
  let part := (s.ctx id).part
  let area := ((s.part part).vigil.extractLsb' 12 44).toNat * 4096
  let s := freezeCtx s id
  let (s, snap) := match partWrite s part area (vigilImage s part id) with
    | (s, .ok _) => (s, natW64 area)
    | (s, .error _) => (s, 0)
  let s := killContext s id
  let (s, a) := openWord s none
  let (s, d) := openWord s none
  reportRecord s part {
    code := codeWatchdog, source := sourceAt (id / 8) 17, ctx := BitVec.ofNat 3 (id % 8), frame := 0, index := 0
    part := BitVec.ofNat 5 part, time := s.time (id / 2048), aux := a, detail := d, snap := snap } none

/-- The window of a context at a tick (R239, R240): while it is busy-stalled without progress its window runs on, with the length that
held when it began (R403); otherwise there is none. -/
def watchTick (s : State) (id : Nat) (c : Ctx) : Option Watch :=
  if !busyStalled s id then none
  else
    let fresh : Watch := ⟨(s.time (id / 2048)).toNat, c.firings, c.commits, c.marks, ((s.part c.part).vigil.extractLsb' 58 6).toNat⟩
    match c.watch with
    | some w => if w.firings = c.firings ∧ w.commits = c.commits ∧ w.marks = c.marks then some w else some fresh
    | none => some fresh

/-- Vigil looks at every context before time passes. -/
def watchAll (s : State) : State := { s with ctxs := s.ctxs.map fun e => (e.1, { e.2 with watch := watchTick s e.1 e.2 }) }

/-- VIGIL_EXPIRY (R240): once a window has lasted 2^lw ticks and the context is still stalled, Vigil acts. -/
def execVigilExpiry (die tile ctx : Nat) (s : State) : Out :=
  let id := ctxId die tile ctx
  let c := s.ctx id
  match watchTick s id c with
  | some w => if w.since + 2 ^ w.lw ≤ (s.time die).toNat then .next (vigilKill s id) else .next s
  | none => .next s

end Sys2Proof.Machine
end

