-- ==== Sys2Proof/Machine/Hostside.lean ====
section
/-! DEFINITION. The host port (R153 to R155, R213, R239, R259 to R266), boot (R267 to R269), checkpoints (R270, R271) and health
(R272 to R274). Function 0 is the physical function, function n the virtual function of partition n − 1. Writes to a
register whose write acts are given by the same functions whichever event brings them. -/
namespace Sys2Proof.Machine
open Sys2Proof

/-! ### The mailbox (R264) -/

def mailbox (s : State) (fn : Nat) : Mailbox := SMap.get {} s.mailboxes fn
def setMailbox (s : State) (fn : Nat) (m : Mailbox) : State := { s with mailboxes := SMap.set s.mailboxes fn m }

def mbxGo (m : Mailbox) : Bool := m.cmd.getLsbD 63
def mbxOp (m : Mailbox) : Nat := (m.cmd.extractLsb' 0 8).toNat

/-- A command finishes: status and done are set, go is clear, and the function's mailbox vector is signalled. No command has a
result. -/
def finishCommand (s : State) (fn : Nat) (status : BitVec 8) : State :=
  let m := mailbox s fn
  let cmd : W64 := (0x40 : BitVec 8) ++ status ++ (0 : BitVec 40) ++ m.cmd.extractLsb' 0 8
  signal (setMailbox s fn { m with cmd := cmd }) fn (if fn = 0 then 0 else 3)

/-- Ops of a function's kind. -/
def knownOp (fn op : Nat) : Bool :=
  if fn = 0 then decide (1 ≤ op ∧ op ≤ 4) else op == 0x10 || op == 0x11

/-- Ops of either kind; every other value of the field is reserved. -/
def namedOp (op : Nat) : Bool := knownOp 0 op || knownOp 1 op

/-- A write to mbx.cmd. A reserved op leaves its field unchanged (R4), and its command ends with status 0x01. -/
def writeCommand (s : State) (fn : Nat) (v : W64) : State :=
  let m := mailbox s fn
  let op := (if namedOp (v &&& 0xFF).toNat then v else m.cmd) &&& 0xFF
  if mbxGo m then s
  else if !v.getLsbD 63 then setMailbox s fn { m with cmd := (m.cmd &&& 0x40FF000000000000) ||| op }
  else
    let s := setMailbox s fn { m with cmd := 0x8000000000000000 ||| (m.cmd &&& 0x00FF000000000000) ||| op }
    if v &&& 0x3F00FFFFFFFFFF00 ≠ 0 ∨ !knownOp fn (v &&& 0xFF).toNat then finishCommand s fn 0x01
    else if s.stage.toNat < 4 ∧ !(fn == 0 && v &&& 0xFF == 4) then finishCommand s fn 0x04
    else s

/-- The command that function `fn` has started, if its op is `op`. -/
def command (s : State) (fn op : Nat) : Option Mailbox :=
  let m := mailbox s fn
  if mbxGo m && mbxOp m == op then some m else none

def arg (m : Mailbox) (n : Nat) : W64 := m.args.getD n 0

/-! ### Unmap (R153 to R155) -/

/-- First page's address and size of the range of gate.unmap, in pages of 64 KiB. -/
def unmapPage (v : W64) : Nat := (v.extractLsb' 0 40).toNat
def unmapSize (v : W64) : Nat := (v.extractLsb' 48 5).toNat

/-- The unit's accesses belong to an address space. -/
def streamsOf (s : State) (asid : BitVec 8) : List UnitRef :=
  let space (part : Nat) : Bool := (s.part part).live && (s.part part).asid == asid
  (s.ctxs.filterMap fun e =>
    if e.2.active ∧ space e.2.part then some (ctxRef e.1) else none) ++
  (s.units.filterMap fun e =>
    let kind := e.1 % 64
    if e.2.active ∧ (18 ≤ kind ∧ kind ≤ 21 ∨ kind = 27) ∧ space (s.ctx (e.1 / 64 * 8 + e.2.owner)).part then
      some (UnitRef.op (e.1 / 16384) (e.1 / 64 % 256) kind) else none)

/-- A write to gate.unmap for an address space (R153): refused, or the markers are injected (R154). -/
def writeUnmap (s : State) (asid : BitVec 8) (v : W64) : State :=
  if s.unmapReg.getLsbD 63 then s
  else
    let body : W64 := (0 : BitVec 3) ++ asid ++ v.extractLsb' 48 5 ++ (0 : BitVec 8) ++ v.extractLsb' 0 40
    if !v.getLsbD 63 then { s with unmapReg := (s.unmapReg &&& 0x4000000000000000) ||| body }
    else if 26 < unmapSize v ∨ unmapPage v % 2 ^ unmapSize v ≠ 0 then { s with unmapReg := 0x2000000000000000 ||| body }
    else { s with
      unmapReg := 0x8000000000000000 ||| body
      unmapRun := some ⟨asid, unmapPage v * 65536, 2 ^ unmapSize v * 65536, streamsOf s asid⟩ }

def Unmap.line (u : Unmap) (l : Line) : Bool := u.holds l.asid (l.line * 128)

/-- UNMAP_MARKER_PASS (R154, R155): the marker emerges; the tile of the context or unit first writes back and invalidates the lines of
the range that its bank holds, so that what comes behind the marker hits none of them (R184). -/
def execUnmapMarkerPass (u : UnitRef) (s : State) : Out :=
  match s.unmapRun with
  | none => .next s
  | some r =>
    if r.pending.contains u then
      let s := match u with
        | .ctx d t _ | .op d t _ => l1Flush s (placeOf d t) r.line
        | _ => s
      .next { s with unmapRun := some { r with pending := r.pending.filter (· ≠ u) } }
    else .next s

/-- Fills under way for lines of the range. -/
def unmapFills (s : State) (r : Unmap) : Bool :=
  let inside (f : Fill) : Bool := r.holds f.asid (f.line * 128)
  (s.slices.any fun e => e.2.queue.any inside) || (s.walks.any fun e => e.2.any inside) || s.responses.any fun e => e.2.any inside

/-- A cached translation or a page of the remap filter that the range meets. -/
def Unmap.meets (r : Unmap) (asid : BitVec 8) (va n : Nat) : Bool :=
  r.asid == asid && decide (va < r.va + r.size ∧ r.va < va + n)

/-- UNMAP_COMPLETE (R154): every marker has emerged. No bank and no slice keeps a line of the range. -/
def execUnmapComplete (s : State) : Out :=
  match s.unmapRun with
  | none => .next s
  | some r =>
    if !r.pending.isEmpty || unmapFills s r then .next s
    else
      let s := (placesOf s).foldl (fun s p => l1Flush s p r.line) s
      let s := (s.l2.filter r.line).foldl l2Evict s
      .next { s with
        tlbs := s.tlbs.map fun g => (g.1, g.2.filter fun e => !r.meets e.asid (e.va * 2 ^ e.size) (2 ^ e.size))
        filter := s.filter.filter fun f => !r.meets f.2.1 (f.2.2 * 65536) 65536
        unmapReg := (s.unmapReg &&& 0x1FFFFFFFFFFFFFFF) ||| 0x4000000000000000
        unmapRun := none }

/-! ### Hand-over of KV pages (R260, R261) -/

/-- One entry: its descriptor's owner becomes `heir`; none where the entry is refused or cannot be reached. -/
def giveEntry (s : State) (part i : Nat) (heir : BitVec 5) : State × Bool :=
  let va := descAddr s part i
  if i = 0 then (s, false)
  else match loadDesc s (viaPart s part .system) va with
    | (s, .error _) => (s, false)
    | (s, .ok d) =>
      if d.owner ≠ part ∨ d.count ≠ 1 then (s, false)
      else match partWrite s part va ({ d with w0 := heir ++ d.w0.extractLsb' 0 59 }).bytes with
        | (s, .ok _) => (s, true)
        | (s, .error _) => (s, false)

/-- The entries from address `va` on, in order: how many were handed over, and whether none was refused. -/
def giveEntries (s : State) (part : Nat) (heir : BitVec 5) (va : Nat) : Nat → State × Nat × Bool
  | 0 => (s, 0, true)
  | n + 1 =>
    match partRead s part va 4 with
    | (s, .error _) => (s, 0, false)
    | (s, .ok b) =>
      match giveEntry s part (leNat b) heir with
      | (s, false) => (s, 0, false)
      | (s, true) =>
        let r := giveEntries s part heir (va + 4) n
        (r.1, r.2.1 + 1, r.2.2)

/-- A hand-over from its list, whole; whether it ended well. -/
def handOver (s : State) (part va : Nat) : State × Bool :=
  match partRead s part va 8 with
  | (s, .error _) => (s, false)
  | (s, .ok b) =>
    let h := BitVec.ofNat 64 (leNat b)
    let count := (h.extractLsb' 0 32).toNat
    if count = 0 ∨ 2 ^ 20 ≤ count then (s, false)
    else
      let r := giveEntries s part (h.extractLsb' 59 5) (va + 8) count
      let h : W64 := h.extractLsb' 52 12 ++ BitVec.ofNat 20 r.2.1 ++ h.extractLsb' 0 32
      match partWrite r.1 part va (natBytes 8 h.toNat) with
      | (s, .ok _) => (s, r.2.2)
      | (s, .error _) => (s, false)

/-- A write to part.kvgive (R260). -/
def writeKvgive (s : State) (part : Nat) (v : W64) : State :=
  let list := v &&& 0x00FFFFFFFFFFFFF8
  let p := s.part part
  if !v.getLsbD 63 then s.setPart part { p with kvgive := (p.kvgive &&& 0x6000000000000000) ||| list }
  else
    let r := handOver (s.setPart part { p with kvgive := 0x8000000000000000 ||| list }) part list.toNat
    r.1.setPart part { r.1.part part with
      kvgive := (if r.2 then 0x4000000000000000 else 0x6000000000000000) ||| list }

/-! ### Clocks (R259) -/

/-- The fabric clock of each die: the highest clock among the partitions that own tiles on it. -/
def recomputeFabric (s : State) : State :=
  { s with fabric := (List.range 4).map fun d =>
      let clks := (s.owners.filter fun o => o.1 / 256 = d).map fun o => (s.part o.2).clk.toNat
      (d, if clks.isEmpty then 2250 else clks.foldl max 0) }

/-- A write to part.clk: the value is pending; a reserved one changes nothing. -/
def writeClk (s : State) (part : Nat) (v : W32) : State :=
  let p := s.part part
  if clkOk (v.extractLsb' 0 12).toNat then s.setPart part { p with clkNext := some (clkWritten p.clk v) } else s

/-- CLOCK_TAKES_EFFECT (R259): no launch of the partition runs or is queued, but those that wait for the clock. -/
def execClockTakesEffect (part : Nat) (s : State) : Out :=
  let p := s.part part
  match p.clkNext with
  | none => .next s
  | some c =>
    if p.running.isEmpty && p.queue.all Launch.held then
      .next (recomputeFabric (s.setPart part { p with
        clk := c, clkNext := none, queue := p.queue.map fun l => { l with held := false } }))
    else .next s

/-! ### The report queue (R266) -/

/-- Waiting records enter the queue while it has room, each with its kill. -/
def admitReports (s : State) (part : Nat) : Nat → State
  | 0 => s
  | n + 1 =>
    let p := s.part part
    match p.waiting with
    | [] => s
    | (r, kill) :: rest =>
      if (p.prod - p.cons).toNat < 64 then
        let s := s.setPart part { p with
          reports := SMap.set p.reports (p.prod.toNat % 64) r, prod := p.prod + 1, waiting := rest }
        let s := signal s (part + 1) 1
        admitReports (match kill with
          | some id => killContext s id
          | none => s) part n
      else s

/-- A write to rq.cons: one that would move it backwards or past rq.prod is ignored. -/
def writeCons (s : State) (part : Nat) (v : W32) : State :=
  let p := s.part part
  if (v - p.cons).toNat ≤ (p.prod - p.cons).toNat then
    admitReports (s.setPart part { p with cons := v }) part p.waiting.length
  else s

/-! ### Checkpoint and restore (R270, R271) -/

/-- Bytes of the belfry's scheduler memory (R271). -/
def schedulerBytes : Nat := 16 * 2 ^ 20

/-- Ring ports that no partition holds (R270). -/
def freePorts (s : State) : List Nat :=
  (List.range 16).filter fun n => s.parts.all fun e => !(e.2.live && e.2.rports.getLsbD n)

/-- Step 1 of R270. -/
def beginCheckpoint (s : State) (ports : Nat) : State :=
  checkpointStep { s with ckptRun := some { restore := false, ports := ports, time := s.almanac } }

def setupDigest (p : Part) : List Byte := shake256 p.setup 32

def livePart (s : State) (n : Nat) : Bool := (s.part n).live

/-- The partitions now set up are those of the stream's header. -/
def sameParts (s : State) (t : Stream) : Bool :=
  (t.parts.all fun e => livePart s e.1 && (s.part e.1).asid == e.2.1 && setupDigest (s.part e.1) == e.2.2.1) &&
    (List.range 32).all fun n => !livePart s n || t.parts.any fun e => e.1 == n

/-- R271: whether a restore may begin. -/
def mayRestore (s : State) : Bool :=
  s.stage == 4 && (s.parts.all fun e => e.2.queue.isEmpty && e.2.running.isEmpty) && match s.storage with
    | some t => sameParts s t
    | none => false

/-- A write to host.ckpt (R270). -/
def writeCkpt (s : State) (v : W64) : State :=
  if s.ckpt.getLsbD 63 then s
  else
    let ports : BitVec 5 := if v.getLsbD 60 then s.ckpt.extractLsb' 56 5 else v.extractLsb' 56 5
    let body : W64 := (0 : BitVec 3) ++ ports ++ v.extractLsb' 55 1 ++ (0 : BitVec 55)
    if !v.getLsbD 63 then { s with ckpt := (s.ckpt &&& 0x6000000000000000) ||| body }
    else
      let s := { s with ckpt := 0x8000000000000000 ||| body }
      let n := min (ports.toNat + 1) (freePorts s).length
      if n = 0 then endCkpt s false
      else if !v.getLsbD 55 then beginCheckpoint s n
      else if mayRestore s then { s with ckptRun := some { restore := true, ports := n, time := s.almanac } }
      else endCkpt s false

/-- What a checkpoint stores of a partition: its number, ASID, digest, and its images with their slots. -/
def storedPart (s : State) (k : Checkpoint) (n : Nat) : Nat × BitVec 8 × List Byte × List (Nat × Nat) :=
  (n, (s.part n).asid, setupDigest (s.part n), (k.images.filter fun x => x.1 = n).map fun x => x.2)

/-- The dirty lines of the L2 reach main memory before the stream is read from it (log 15). -/
def writeBackL2 (s : State) : State :=
  let s := (s.l2.filter fun l => l.dirty != 0).foldl writeDram s
  { s with l2 := s.l2.map fun l => { l with dirty := 0 } }

/-- Restores of a partition's images, in front of its queued launches. -/
def requeue (s : State) (n : Nat) (images : List (Nat × Nat)) : State :=
  let p := s.part n
  s.setPart n { p with queue := (images.map fun x => ⟨x.1, true, x.2, false⟩) ++ p.queue }

/-- The graph of an image stands again, or its restore has been refused. -/
def restored (s : State) (x : Nat × Nat × Nat) : Bool :=
  let p := s.part x.1
  let asks (l : Launch) : Bool := l.rs && l.plist == x.2.2
  !(p.queue.any asks) && p.running.all fun r =>
    !asks r.launch || r.refused.isSome || r.graph.dies.all fun d => r.acked.contains d.die

/-- The checkpoint stream of a package whose graphs are pre-empted (R271). -/
def makeStream (s : State) (k : Checkpoint) : Stream :=
  let ns := (List.range 32).filter (livePart s)
  { version := s.version, time := k.time, parts := ns.map (storedPart s k), slots := ns.map fun n => (n, (s.part n).slots)
    mem := s.mem, poison := s.dramPoison }

/-- CHECKPOINT_WRITE_COMPLETE (R270): the graphs are pre-empted and the writing of the stream ends, failed if the storage node has
failed a write of it (Turn.storageFails); the graphs are queued to
be restored. It happens once more when they stand again: done or err sets, and the held launches are released. What the storage node
holds after a failed write the spec does not say: no stream (DESIGN CHOICE, log 61). -/
def execCheckpointWriteComplete (s : State) : Out :=
  match s.ckptRun with
  | none => .next s
  | some k =>
    if k.restore then .next s
    else match k.written with
      | some good => .next (if k.images.all (restored s) then endCkpt s good else s)
      | none =>
        if s.parts.any fun e => !e.2.running.isEmpty then .next s
        else
          let s := writeBackL2 s
          let t := makeStream s k
          .next (t.parts.foldl (fun s e => requeue s e.1 e.2.2.2)
            { s with storage := if k.failed then none else some t, ckptRun := some { k with written := some !k.failed } })

/-! The stream as it is laid out (R271): its header, and the port that carries a unit of 1 MiB. Scheduler memory follows it, then main
memory in the order of `streamPlace`, then the poison list. -/

/-- Partition entry `n` of the header. -/
def headerEntry (t : Stream) (n : Nat) : List Byte :=
  match t.parts.find? fun e => e.1 = n with
  | none => List.replicate 192 0
  | some (_, asid, digest, images) =>
    let ident := 2 ^ 31 + images.length * 65536 + asid.toNat * 256 + n
    natBytes 8 ident ++ digest ++
      ((List.range 16).flatMap fun i => match images[i]? with
        | some x => natBytes 8 (x.1 * 2 ^ 58 + x.2)
        | none => natBytes 8 0) ++ List.replicate 24 0

def streamHeader (t : Stream) : List Byte :=
  natBytes 8 (0x434B * 2 ^ 48 + t.version.toNat * 2 ^ 32 + t.parts.length) ++ natBytes 8 t.time.toNat ++ List.replicate 48 0 ++
    ((List.range 32).flatMap (headerEntry t)) ++ List.replicate (8192 - 64 - 32 * 192) 0

def poisonList (t : Stream) : List Byte :=
  natBytes 8 t.poison.length ++ (t.poison.mergeSort (· ≤ ·)).flatMap fun g => natBytes 8 (g * 64)

/-- The port that carries byte `n` of a stream striped over `p` ports, as a place in the list of the chosen ones. -/
def stripePort (p n : Nat) : Nat := n / 2 ^ 20 % p

/-- Place of a physical address in the stream's main memory (R271). -/
def streamPlace (pa : Nat) : Nat := pa / 2 ^ 41 * (3 * 2 ^ 39) + pa % 2 ^ 41

/-- Bytes of main memory in the stream (R271). -/
def memoryBytes : Nat := 6 * 2 ^ 40

def restoreSlots (s : State) (t : Stream) : State :=
  t.slots.foldl (fun s e => s.setPart e.1 { s.part e.1 with slots := e.2 }) s

/-- The graph slots whose share of scheduler memory lies in the first `n` bytes of the stream are written back (R271, log 17). -/
def restoreSlotsTo (s : State) (t : Stream) (n : Nat) : State :=
  t.slots.foldl (fun s e =>
    let p := s.part e.1
    s.setPart e.1 { p with slots := (List.range 64).foldl (fun m k =>
      if n < 8192 + Config.slotEnd e.1 k % 2 ^ 24 then m
      else match SMap.find? e.2 k with
        | some g => SMap.set m k g
        | none => SMap.erase m k) p.slots }) s

/-- CHECKPOINT_READ_COMPLETE (R271): the read ends, or fails after some bytes. -/
def execCheckpointReadComplete (ok : Bool) (s : State) : Out :=
  match s.ckptRun, s.storage with
  | some k, some t =>
    if !k.restore then .next s
    else if ok then
      let s := restoreSlots s t
      let s := { s with
        mem := t.mem, dramPoison := t.poison, l2 := [], filter := [], tlbs := []
        tiles := s.tiles.map fun e => (e.1, { e.2 with l1 := [] }) }
      .next (endCkpt (t.parts.foldl (fun s e => requeue s e.1 e.2.2.2) s) true)
    else
      let n := Config.storageReach s.draws
      let s := { s with draws := s.draws + 1 }
      let s := restoreSlotsTo s t n
      let read (pa : Nat) : Bool := decide (8192 + schedulerBytes + streamPlace pa < n)
      let old := s.mem.filter fun c => read c.1
      let mem := old.foldl (fun m c => m.write c.1 initialByte) s.mem
      .next (endCkpt { s with
        mem := (t.mem.filter fun c => read c.1).foldl (fun m c => m.write c.1 c.2) mem
        dramPoison := (s.dramPoison.filter fun g => !read (g * 64)) ++
          (t.poison.mergeSort (· ≤ ·)).take ((n - (8192 + schedulerBytes + memoryBytes + 8)) / 8) } false)
  | _, _ => .next s

/-! ### BAR0 windows (R262, R263, R266) -/

/-- Sources of the health entries (R273). -/
def healthSource (n : Nat) : Bool := decide (n < 5 ∨ (16 ≤ n ∧ n < 80))

def healthEntry (s : State) (n : Nat) : W32 :=
  if healthSource n then SMap.get ((0xFFFF : BitVec 16) ++ BitVec.ofNat 8 n ++ (0 : BitVec 8)) s.health n else 0

def hostState (s : State) : W64 :=
  (0 : BitVec 32) ++ s.version ++ s.fetches ++ (0 : BitVec 4) ++ s.stage

/-- What 8 bytes at an aligned offset of the physical function's window read. -/
def pfRead (s : State) (off : Nat) : W64 :=
  if off = 0 then hostState s
  else if off = 0x8 then s.ckpt
  else if off = 0x10 then s.almanac
  else if off = 0x20 then s.unmapReg
  else if off = 0x100 then (mailbox s 0).cmd
  else if 0x108 ≤ off ∧ off < 0x138 then arg (mailbox s 0) ((off - 0x108) / 8)
  else if 0x1000 ≤ off ∧ off < 0x1140 then healthEntry s ((off - 0x1000) / 4 + 1) ++ healthEntry s ((off - 0x1000) / 4)
  else 0

/-- The same of a virtual function's window. -/
def vfRead (s : State) (fn off : Nat) : W64 :=
  let p := s.part (fn - 1)
  if !p.live then 0
  else if off = 0 then triggerRead p
  else if off = 0x8 then p.clk.zeroExtend 64
  else if off = 0x10 then p.kvgive
  else if off = 0x18 then p.ways.zeroExtend 64
  else if off = 0x20 then s.unmapReg.extractLsb' 61 3 ++ p.asid ++ s.unmapReg.extractLsb' 0 53
  else if off = 0x28 then p.bw.zeroExtend 64
  else if off = 0x30 then p.vcw.zeroExtend 64
  else if off = 0x38 then p.kvpool
  else if off = 0x40 then p.prod.zeroExtend 64
  else if off = 0x48 then p.cons.zeroExtend 64
  else if off = 0x50 then p.vigil
  else if off = 0x100 then (mailbox s fn).cmd
  else if 0x108 ≤ off ∧ off < 0x138 then arg (mailbox s fn) ((off - 0x108) / 8)
  else if 0x1000 ≤ off ∧ off < 0x2000 then
    match SMap.find? p.reports ((off - 0x1000) / 64) with
    | some r => r.words.getD ((off - 0x1000) / 8 % 8) 0
    | none => 0
  else 0

/-- What 8 bytes at an aligned offset of a function's window read. -/
def barRead (s : State) (fn off : Nat) : W64 := if fn = 0 then pfRead s off else vfRead s fn off

/-- What a 4-byte read at an offset gives: the named half of its register (R263). -/
def barReadHalf (s : State) (fn off : Nat) : W32 := (barRead s fn (off / 8 * 8)).extractLsb' (off % 8 / 4 * 32) 32

/-- What a host read changes: a read of part.trigger clears ovf (R213). -/
def barTouched (s : State) (fn off : Nat) : State :=
  if fn ≠ 0 ∧ off / 8 = 0 ∧ (s.part (fn - 1)).live then s.setPart (fn - 1) { s.part (fn - 1) with ovf := false } else s

def writeArg (s : State) (fn off : Nat) (v : W64) : State :=
  let m := mailbox s fn
  setMailbox s fn { m with args := m.args.set ((off - 0x108) / 8) v }

def pfWrite (s : State) (off : Nat) (v : W64) : State :=
  if off = 0x8 then writeCkpt s v
  else if off = 0x20 then writeUnmap s (v.extractLsb' 53 8) v
  else if off = 0x100 then writeCommand s 0 v
  else if 0x108 ≤ off ∧ off < 0x138 then writeArg s 0 off v
  else s

def vfWrite (s : State) (fn off : Nat) (v : W64) : State :=
  let part := fn - 1
  let p := s.part part
  if !p.live then s
  else if off = 0 then acceptTrigger s part v
  else if off = 0x8 then writeClk s part (v.extractLsb' 0 32)
  else if off = 0x10 then writeKvgive s part v
  else if off = 0x20 then writeUnmap s p.asid v
  else if off = 0x48 then writeCons s part (v.extractLsb' 0 32)
  else if off = 0x50 then s.setPart part { p with vigil := vigilWritten p.vigil v }
  else if off = 0x100 then writeCommand s fn v
  else if 0x108 ≤ off ∧ off < 0x138 then writeArg s fn off v
  else s

/-- A whole register written: an aligned offset, and a function that the port presents (R262). -/
def barWrite (s : State) (fn off : Nat) (v : W64) : State :=
  if 32 < fn ∨ off % 8 ≠ 0 then s else if fn = 0 then pfWrite s off v else vfWrite s fn off v

/-- Registers of 32 bits, and part.trigger, whose other half no 4-byte write reaches. -/
def halfReaches (fn off : Nat) : Bool := !(fn != 0 && (off == 0xC || off == 0x4C))

/-- A 4-byte write reaches the named half (R263); the other half of part.trigger is written as zero. -/
def barWriteHalf (s : State) (fn off : Nat) (v : W64) : State :=
  let base := off / 8 * 8
  let old := if fn ≠ 0 ∧ base = 0 then 0 else barRead s fn base
  let w : W32 := v.extractLsb' 0 32
  if off % 4 ≠ 0 ∨ !halfReaches fn off then s
  else if off % 8 = 4 then barWrite s fn base (w ++ old.extractLsb' 0 32)
  else barWrite s fn base (old.extractLsb' 32 32 ++ w)

/-- REGISTER_WRITE (R4, R263, R266): a host write to a BAR0 window. -/
def execRegisterWrite (fn off : Nat) (half : Bool) (value : W64) (s : State) : Out :=
  .next (if half then barWriteHalf s fn off value else barWrite s fn off value)

/-- UNMAP (R153, R154): a write to gate.unmap. -/
def execUnmap (fn : Nat) (value : W64) (s : State) : Out := .next (barWrite s fn 0x20 value)

/-- HAND_OVER (R260): a write to part.kvgive. -/
def execHandOver (part : Nat) (value : W64) (s : State) : Out :=
  .next (if (s.part part).live then writeKvgive s part value else s)

/-- CLOCK_CHANGE (R259): a write to part.clk. -/
def execClockChange (part : Nat) (value : W64) (s : State) : Out :=
  .next (if (s.part part).live then writeClk s part (value.extractLsb' 0 32) else s)

/-- REPORT_QUEUE_CONSUME (R266): a write to rq.cons. -/
def execReportQueueConsume (part : Nat) (value : W64) (s : State) : Out :=
  .next (if (s.part part).live then writeCons s part (value.extractLsb' 0 32) else s)

/-- CHECKPOINT (R270): a write to host.ckpt with rst 0. -/
def execCheckpoint (value : W64) (s : State) : Out := .next (writeCkpt s (value &&& ~~~(0x0080000000000000 : W64)))

/-- CHECKPOINT_RESTORE (R271): a write to host.ckpt with rst 1. -/
def execCheckpointRestore (value : W64) (s : State) : Out := .next (writeCkpt s (value ||| 0x0080000000000000))

/-! ### PSETUP, PFREE and ROOT (R264, R265) -/

/-- Bytes of host memory, where the keep cores can read them. -/
def hostBytes (s : State) (bus n : Nat) : Option (List Byte) :=
  if Config.hostReadable bus n then some (s.hostMem.bytes bus n) else none

/-- The 64-bit words of a run of bytes. -/
def wordsOf (b : List Byte) (n : Nat) : List W64 := (List.range n).map fun i => BitVec.ofNat 64 (leNat ((b.drop (8 * i)).take 8))

/-- The fields of a setup descriptor. -/
structure Setup where
  w : List W64
deriving DecidableEq, Repr

namespace Setup

def word (x : Setup) (n : Nat) : W64 := x.w.getD n 0
def part (x : Setup) : Nat := ((x.word 0).extractLsb' 0 5).toNat
def asid (x : Setup) : BitVec 8 := (x.word 0).extractLsb' 8 8
def bound (x : Setup) : Bool := (x.word 0).getLsbD 16
def dl (x : Setup) : Bool := (x.word 0).getLsbD 17
def smem (x : Setup) : Nat := ((x.word 0).extractLsb' 32 32).toNat
def ways (x : Setup) : W32 := (x.word 2).extractLsb' 0 32 ||| (if x.dl then 0x10000 else 0)
def bw (x : Setup) : W32 := (x.word 2).extractLsb' 32 32
def vcw (x : Setup) : W32 := (x.word 3).extractLsb' 0 32
def clk (x : Setup) : W32 := (x.word 3).extractLsb' 32 32
def rports (x : Setup) : BitVec 16 := (x.word 6).extractLsb' 0 16
def ngrant (x : Setup) : Nat := ((x.word 8).extractLsb' 0 32).toNat

def tilesOf (x : Setup) (d : Nat) : List Nat :=
  (List.range 144).filter fun i => (x.word (9 + 3 * d + i / 64)).getLsbD (i % 64)

/-- Places of the partition's tiles. -/
def places (x : Setup) : List Nat := (List.range 4).flatMap fun d => (x.tilesOf d).map fun i => placeOf d i

def dies (x : Setup) : Nat := ((List.range 4).filter fun d => !(x.tilesOf d).isEmpty).length

/-- No reserved bit is set, and no field holds a reserved value (R265). A value that its register does not take, such as a ways mask of 0 or
more than 1,024 slots, is such a value (R144, R145, DEDUCED, log 75). -/
def wellFormed (x : Setup) : Bool :=
  (x.word 0).extractLsb' 18 14 == 0 && (x.word 0).extractLsb' 5 3 == 0 && x.smem % 4096 == 0 && x.asid != 0xFF &&
  (x.word 1).extractLsb' 0 16 == 0 && (x.word 1).extractLsb' 52 12 == 0 &&
  waysWritten 0xFFFF ((x.word 2).extractLsb' 0 32) == (x.word 2).extractLsb' 0 32 && bwWritten 0 x.bw == x.bw &&
  vcwWritten 0x10101010 x.vcw == x.vcw && clkWritten 2250 x.clk == x.clk &&
  (x.word 4) &&& 0xFF0000000000000F == 0 && vigilWritten 0x6000000000000000 (x.word 5) == x.word 5 &&
  (x.word 6).extractLsb' 16 48 == 0 && (x.word 8).extractLsb' 32 32 == 0 && decide (x.ngrant ≤ 4608) &&
  ((List.range 4).all fun d => (x.word (11 + 3 * d)).extractLsb' 16 48 == 0) &&
  ((List.range 11).all fun n => x.word (21 + n) == 0) && (!(x.bound || x.ways.getLsbD 16) || decide (x.dies ≤ 1))

end Setup

/-- A grant entry: die, island, whether it is a template, number; none where it is out of range. -/
def grantOf (w : W64) : Option (Nat × Nat × Bool × Nat) :=
  let num := (w.extractLsb' 0 6).toNat
  let str := (w.extractLsb' 8 4).toNat
  if w.extractLsb' 14 50 ≠ 0 ∨ w.getLsbD 6 ∨ 12 ≤ str ∨ (w.getLsbD 7 ∧ 32 ≤ num) then none
  else some ((w.extractLsb' 12 2).toNat, str, w.getLsbD 7, num)

/-- All entries of a grant list, if none is out of range. -/
def grantsOf : List W64 → Option (List (Nat × Nat × Bool × Nat))
  | [] => some []
  | w :: t => match grantOf w, grantsOf t with
    | some g, some l => some (g :: l)
    | _, _ => none

/-- Live partitions other than `n`. -/
def otherParts (s : State) (n : Nat) : List Part := (s.parts.filter fun e => e.1 ≠ n ∧ e.2.live).map (·.2)

/-- A resource belongs to another partition, or too little is left (R145, R265). -/
def resourceTaken (s : State) (x : Setup) (grants : List (Nat × Nat × Bool × Nat)) : Bool :=
  let l := otherParts s x.part
  (x.places.any fun p => (SMap.find? s.owners p).isSome) || (l.any fun p => p.rports &&& x.rports != 0) ||
  (grants.any fun g => s.streamGrants.any fun h => (h.1, h.2.1, h.2.2.1, h.2.2.2.1) == g) ||
  decide (schedulerBytes < x.smem + (l.map Part.smem).sum) ||
  decide (1024 < (x.bw.extractLsb' 0 11).toNat + (l.map fun p => (p.bw.extractLsb' 0 11).toNat).sum)

def rootEntry (pa : W64) : W64 := if pa = 0 then 0 else 0x8000000000000000 ||| (pa &&& 0x000FFFFFFFFF0000)

/-- PSETUP succeeds (R265). -/
def setUpPart (s : State) (x : Setup) (setup : List Byte) (grants : List (Nat × Nat × Bool × Nat)) : State :=
  let old := s.part x.part
  let p : Part := {
    live := true, asid := x.asid, bound := x.bound, smem := x.smem, rports := x.rports, ways := x.ways, bw := x.bw
    vcw := x.vcw, clk := x.clk, kvpool := x.word 4, vigil := x.word 5, setup := setup, nextId := old.nextId }
  let s := s.setPart x.part p
  recomputeFabric { s with
    roots := SMap.set s.roots x.asid.toNat (rootEntry (x.word 1))
    owners := x.places.foldl (fun o p => SMap.set o p x.part) s.owners
    streamGrants := s.streamGrants ++ grants.map fun g => (g.1, g.2.1, g.2.2.1, g.2.2.2, x.part) }

/-- The grant list of a descriptor, as words; none where it cannot be read. -/
def readGrants (s : State) (x : Setup) : Option (List W64) :=
  if x.word 7 = 0 ∨ x.ngrant = 0 then some []
  else (hostBytes s (x.word 7).toNat (8 * x.ngrant)).map fun b => wordsOf b x.ngrant

/-- Status of a PSETUP and the state after it. -/
def setUp (s : State) (bus : Nat) : State × BitVec 8 :=
  match hostBytes s bus 256 with
  | none => (s, 0x06)
  | some b =>
    let x : Setup := ⟨wordsOf b 32⟩
    if livePart s x.part then (s, 0x04)
    else if !x.wellFormed || (otherParts s x.part).any fun p => p.asid == x.asid then (s, 0x02)
    else match readGrants s x with
      | none => (s, 0x06)
      | some ws => match grantsOf ws with
        | none => (s, 0x02)
        | some grants => if resourceTaken s x grants then (s, 0x03) else (setUpPart s x b grants, 0x00)

/-- PSETUP (R265). -/
def execPsetup (s : State) : Out :=
  match command s 0 1 with
  | none => .next s
  | some m =>
    let r := setUp s (arg m 0).toNat
    .next (finishCommand r.1 0 r.2)

/-- Kills every context that runs for a partition's launches (R232); what waits behind one of them is refused (R221). -/
def killGraphs (s : State) (part : Nat) : State :=
  let s := (s.ctxs.filter fun e => e.2.active && e.2.part == part && !e.2.killed).foldl (fun s e => killContext s e.1) s
  let p := s.part part
  s.setPart part { p with running := p.running.map fun r => { r with killed := true } }

/-- PFREE (R264): queued launches are discarded, running graphs killed; PARTITION_RELEASE follows once they have drained. -/
def execPfree (s : State) : Out :=
  match command s 0 2 with
  | none => .next s
  | some m =>
    let part := ((arg m 0).extractLsb' 0 5).toNat
    let p := s.part part
    if !p.live then .next (finishCommand s 0 0x04)
    else if p.freeing then .next s
    else .next (killGraphs (s.setPart part { p with queue := [], freeing := true }) part)

/-- PARTITION_RELEASE (R264): every resource of R265 is released, the root entry is clear, and the virtual function is gone. -/
def execPartitionRelease (part : Nat) (s : State) : Out :=
  let p := s.part part
  if p.live && p.freeing && p.running.isEmpty then
    let s := s.setPart part { nextId := p.nextId }
    let s := recomputeFabric { s with
      roots := SMap.erase s.roots p.asid.toNat
      owners := List.filter (fun o => o.2 ≠ part) s.owners
      streamGrants := s.streamGrants.filter fun g => g.2.2.2.2 ≠ part
      mailboxes := SMap.erase s.mailboxes (part + 1) }
    .next (finishCommand s 0 0x00)
  else .next s

/-- ROOT (R264): the ASID's root entry is written, and its cached translations dropped. -/
def execRoot (s : State) : Out :=
  match command s 0 3 with
  | none => .next s
  | some m =>
    let asid : BitVec 8 := (arg m 0).extractLsb' 0 8
    let pa := arg m 1
    if pa.extractLsb' 0 16 ≠ 0 ∨ pa.extractLsb' 52 12 ≠ 0 then .next (finishCommand s 0 0x02)
    else .next (finishCommand { s with
      roots := SMap.set s.roots asid.toNat (rootEntry pa)
      tlbs := s.tlbs.map fun g => (g.1, g.2.filter fun e => e.asid != asid) } 0 0x00)

/-! ### INSTALL and REMOVE (R212, R264) -/

/-- A launch of the slot is queued or running. -/
def slotBusy (p : Part) (slot : Nat) : Bool := (p.queue.any fun l => l.slot == slot) || p.running.any fun r => r.launch.slot == slot

/-- Bytes of scheduler memory that a partition's other slots take. -/
def slotBytes (p : Part) (slot : Nat) : Nat := ((p.slots.filter fun e => e.1 ≠ slot).map fun e => e.2.size).sum

/-- Writes `.data` contents; false where an address cannot be written. -/
def writeData (s : State) (part : Nat) : List (Nat × List Byte) → State × Bool
  | [] => (s, true)
  | (va, b) :: t => match partWrite s part va b with
    | (s, .ok _) => writeData s part t
    | (s, .error _) => (s, false)

/-- INSTALL (R264, R212). Where an address of `.data` cannot be written it ends with 0x05; what it has written stays, and the slot is as it
was (DESIGN CHOICE, log 76). -/
def install (s : State) (part slot bus len : Nat) : State × BitVec 8 :=
  let p := s.part part
  if slotBusy p slot then (s, 0x04)
  else if !Config.hostReadable bus len then (s, 0x06)
  else match SMap.find? s.busImages bus with
    | none => (s, 0x05)
    | some g =>
      if g.size ≠ len ∨ p.smem < slotBytes p slot + len then (s, 0x05)
      else match writeData s part g.data with
        | (s, false) => (s, 0x05)
        | (s, true) =>
          let p := s.part part
          (s.setPart part { p with slots := SMap.set p.slots slot g }, 0x00)

/-- INSTALL (R264). -/
def execInstall (part : Nat) (s : State) : Out :=
  match command s (part + 1) 0x10 with
  | none => .next s
  | some m =>
    let r := install s part ((arg m 0).extractLsb' 0 6).toNat (arg m 1).toNat (arg m 2).toNat
    .next (finishCommand r.1 (part + 1) r.2)

/-- REMOVE (R264). -/
def execRemove (part : Nat) (s : State) : Out :=
  match command s (part + 1) 0x11 with
  | none => .next s
  | some m =>
    let p := s.part part
    let slot := ((arg m 0).extractLsb' 0 6).toNat
    if slotBusy p slot then .next (finishCommand s (part + 1) 0x04)
    else .next (finishCommand (s.setPart part { p with slots := SMap.erase p.slots slot }) (part + 1) 0x00)

/-! ### Boot and firmware (R267 to R269) -/

def imageField (b : List Byte) (i n : Nat) : List Byte := (b.drop i).take n
def imageWord (b : List Byte) : W64 := BitVec.ofNat 64 (leNat (imageField b 0 8))

/-- Steps 2 and 3 of R267: the body's digest, the signature over header bytes 0 to 127, and the key's digest among the four that
are fused. -/
def verifies (b : List Byte) : Bool :=
  let w := imageWord b
  let len := (w.extractLsb' 0 32).toNat
  let key := imageField b 128 1952
  w.extractLsb' 48 16 == 0x4746 && decide (5392 + len ≤ b.length) &&
  shake256 (imageField b 5392 len) 64 == imageField b 8 64 &&
  mldsaVerify key (imageField b 0 128) (imageField b 2080 3309) &&
  (List.range 4).any fun n => shake256 key 64 == Config.keyDigest n

/-- The firmware runs: the dies are brought up and the device is ready (R267, step 5). -/
def bootWith (s : State) (image : List Byte) : State := { s with stage := 4, version := (imageWord image).extractLsb' 32 16 }

/-- DEVICE_RESET (R267): the ROM reads the image from flash and verifies it; where it fails, it fetches. Flash, the storage node
and what lies outside the package keep what they hold. -/
def execDeviceReset (s : State) : Out :=
  let t : State := { State.reset with
    agenda := s.agenda, turns := s.turns, draws := s.draws, flash := s.flash, storage := s.storage, hostMem := s.hostMem
    busImages := s.busImages, hot := s.hot }
  .next (if verifies s.flash then bootWith t s.flash else { t with stage := 2 })

/-- RECOVERY_FETCH_COMPLETE (R267): the fetched copy is verified, and written back to flash; the third failure ends the boot. -/
def execRecoveryFetchComplete (image : List Byte) (s : State) : Out :=
  if s.stage ≠ 2 then .next s
  else
    let s := { s with fetches := s.fetches + 1 }
    if verifies image then .next (bootWith { s with flash := image } image)
    else .next { s with failures := s.failures + 1, stage := if s.failures + 1 < 3 then 2 else 5 }

/-- FWLOAD (R269): the new image replaces the copy in flash if it verifies, and runs after the next reset. -/
def execFwload (s : State) : Out :=
  match command s 0 4 with
  | none => .next s
  | some m => match hostBytes s (arg m 0).toNat (arg m 1).toNat with
    | none => .next (finishCommand s 0 0x06)
    | some b => .next (if verifies b then finishCommand { s with flash := b } 0 0x00 else finishCommand s 0 0x05)

/-! ### Time, health and heat (R272 to R274) -/

/-- ALMANAC_CORRECTION (R272): a copy never runs backwards. -/
def execAlmanacCorrection (die : Nat) (s : State) : Out :=
  .next { s with copies := s.copies.modify die fun c => if c.toNat ≤ s.almanac.toNat then s.almanac else c }

/-- The partition uses the unit of a health source. -/
def usesSource (s : State) (n src : Nat) : Bool :=
  if src < 4 then s.owners.any fun o => o.2 == n && o.1 / 256 == src
  else if 16 ≤ src ∧ src < 32 then (s.part n).rports.getLsbD (src - 16)
  else true

/-- One entry is published; when its alert sets, its users and the physical function are told (R273). -/
def publishHealth (turn : Nat) (s : State) (src : Nat) : State :=
  let days := Config.lifeDays turn src
  let alert := decide (days.toNat < 180)
  let was := (healthEntry s src).getLsbD 0
  let s := { s with health := SMap.set s.health src (days ++ BitVec.ofNat 8 src ++ (0 : BitVec 7) ++ BitVec.ofBool alert) }
  if alert && !was then
    ((List.range 32).filter fun n => livePart s n && usesSource s n src).foldl (fun s n => signal s (n + 1) 2) (signal s 0 1)
  else s

/-- HEALTH_EVALUATION (R273). -/
def execHealthEvaluation (s : State) : Out :=
  .next (((List.range 80).filter healthSource).foldl (publishHealth s.draws) { s with draws := s.draws + 1 })

/-- THERMAL_LIMIT (R274): the block skips alternate cycles, which changes no result. -/
def execThermalLimit (src : W16) (s : State) : Out :=
  .next (if s.hot.contains src then s else { s with hot := s.hot ++ [src] })

/-- THERMAL_SENSOR_BELOW_LIMIT (R274). -/
def execThermalSensorBelowLimit (src : W16) (s : State) : Out := .next { s with hot := s.hot.filter (· ≠ src) }

end Sys2Proof.Machine
end

