-- ==== Sys2Proof/Machine/Lanes.lean ====
section
/-! DEFINITION. The meanings of the conversion, quantisation and lane instructions (0x40 to 0x53) and of SELK. -/
namespace Sys2Proof.Machine
open Sys2Proof

/-- CVT (R334). -/
def execCvt (x : XA) (s : State) : Out := .next (fireWith s x.d x.ty.code x.ty.code (cvtRes x))
/-- PACK (R379). -/
def execPack (x : XA) (s : State) : Out := .next (fireWith s x.d x.ty.code x.ty.code (packRes x))
/-- UNPK (R421). -/
def execUnpk (x : XA) (s : State) : Out := .next (fireWith s x.d x.ty.code x.ty.code (unpkRes x))
/-- QDEC (R383). -/
def execQdec (x : XA) (s : State) : Out := .next (fireWith s x.d x.ty.code x.ty.code (qdecRes x))
/-- QENC (R384). -/
def execQenc (x : XA) (s : State) : Out := .next (fireWith s x.d x.ty.code fmtN32 qencRes)
/-- BSQ (R324, R325). -/
def execBsq (x : XA) (s : State) : Out := .next (fireWith s x.d x.ty.code fmtN32 (bsqRes x))
/-- SHFL (R398). -/
def execShfl (x : XA) (s : State) : Out := .next (fireWith s x.d x.ty.code x.ty.code (shflRes x))
/-- LRED (R360). -/
def execLred (x : XA) (s : State) : Out := .next (fireWith s x.d x.ty.code x.ty.code (lredRes x))
/-- LSCN (R361). -/
def execLscn (x : XA) (s : State) : Out := .next (fireWith s x.d x.ty.code x.ty.code (lscnRes x))
/-- LBCT (R357). -/
def execLbct (x : XA) (s : State) : Out := .next (fireWith s x.d x.ty.code x.ty.code (lbctRes x))
/-- SELK (R397). -/
def execSelk (d : Dst) (k : BitVec 6) (_gsz : BitVec 3) (s : State) : Out :=
  .next (fireWith s d fmtN32 Fmt.f32.code (selkRes (k.toNat + 1)))

end Sys2Proof.Machine
end

