-- ==== Sys2Proof/Machine/Mesh.lean ====
section
/-! DEFINITION. The links between the units of a package: the mesh of each compute die, the ring of the compute dies and their hub
links (R12, R17, R18, R24, R217). -/
namespace Sys2Proof.Machine
open Sys2Proof

/-- Tile whose router the hub link of a die is attached to (R17): (6, 0). -/
def hubRouter : Nat := 6
/-- The same of the ring hops towards the next die, at (6, 11), and towards the previous one, at (5, 0). -/
def nextRouter : Nat := 138
def prevRouter : Nat := 5

/-- The tile whose router a unit of a compute die is attached to, by the unit's tile index (R15, R17, R20). -/
def routerOf (i : Nat) : Option Nat :=
  if i < 144 then some i
  else if i < 176 then
    let j := i - 144
    some ([2, 4, 7, 9].getD (j / 8) 0 * 12 + [1, 2, 4, 5, 6, 7, 9, 10].getD (j % 8) 0)
  else if i < 182 then some ((3 + (i - 176)) * 12)
  else if i < 188 then some ((i - 176 - 3) * 12 + 11)
  else match i with
    | 188 => some 77
    | 189 => some 78
    | 190 => some nextRouter
    | 191 => some prevRouter
    | _ => none

/-- The next die on the way from one compute die to another: the shorter way round the ring, and clockwise to the opposite die (R12). -/
def dieHop (a b : Nat) : Option Bool :=
  match (b + 4 - a % 4) % 4 with
  | 0 => none
  | 3 => some false
  | _ => some true

/-- The tile of a die at which a packet leaves the mesh: its unit's router, a ring hop, or the hub link. -/
def exitRouter (die : Nat) (x : Packet) : Option Nat :=
  if 240 ≤ x.index then some hubRouter
  else match dieHop die x.die with
    | none => routerOf x.index
    | some ahead => some (if ahead then nextRouter else prevRouter)

/-- A packet leaves the mesh of a die over a link between dies, not to a unit of the die (R12). -/
def leavesDie (die : Nat) (x : Packet) : Bool := decide (240 ≤ x.index) || (dieHop die x.die).isSome

/-- The router output that a packet takes at a tile: X first, then Y (R18). 0 leaves the mesh for a unit at this tile, 1 and 2 go to the
next tile in ascending and descending x, 3 and 4 the same in y, and 5 goes over the ring hop or the hub link of the tile (R17). -/
def outputPort (tile goal : Nat) (link : Bool) : Nat :=
  if tile % 12 < goal % 12 then 1
  else if goal % 12 < tile % 12 then 2
  else if tile / 12 < goal / 12 then 3
  else if goal / 12 < tile / 12 then 4
  else if link then 5
  else 0

def neighbour (tile port : Nat) : Nat :=
  match port with
  | 1 => tile + 1
  | 2 => tile - 1
  | 3 => tile + 12
  | 4 => tile - 12
  | _ => tile

/-- Router output `port` of a place. -/
def routerId (die tile port : Nat) : Nat := placeOf die tile * 8 + port

/-- A packet arrives at a router and waits at the output that it takes. -/
def enterRouter (s : State) (die tile : Nat) (x : Packet) : State :=
  match exitRouter die x with
  | none => s
  | some goal =>
    let i := routerId die tile (outputPort tile goal (leavesDie die x))
    let r := SMap.get {} s.routers i
    { s with routers := SMap.set s.routers i { r with queue := r.queue ++ [x] } }

/-- A packet has left an output: it is at the next router, it crosses to the router of the opposite hop on the next die, or it has
reached its unit or the hub die. -/
def passOn (s : State) (die tile port : Nat) (x : Packet) : State :=
  if port = 0 then s
  else if port ≠ 5 then enterRouter s die (neighbour tile port) x
  else if 240 ≤ x.index then s
  else match dieHop die x.die with
    | none => s
    | some true => enterRouter s ((die + 1) % 4) prevRouter x
    | some false => enterRouter s ((die + 3) % 4) nextRouter x

/-- A packet leaves the unit at tile index `unit` of a die: it enters the router of that unit, and one from the hub die (index 240 on)
comes down the hub link of the die that it goes to (R12). -/
def sendPacket (s : State) (die unit : Nat) (x : Packet) : State :=
  if 240 ≤ unit then (if 240 ≤ x.index then s else enterRouter s (x.die % 4) hubRouter x)
  else match routerOf unit with
    | some t => enterRouter s die t x
    | none => s

end Sys2Proof.Machine
end

