-- ==== Sys2Proof/Machine/MemEvents.lean ====
section
/-! DEFINITION. The events of the memory system: slices, gates and responses (R24, R143 to R148), router outputs (R167, R168) and
uncorrectable errors (R159). Requests that stand in these queues come from PREF (log 5). -/
namespace Sys2Proof.Machine
open Sys2Proof

/-! ### A slice (R145) -/

/-- SLICE_WINDOW_RESTART (R145): the usage counts restart. -/
def execSliceWindowRestart (slice : Nat) (s : State) : Out :=
  let q := SMap.get {} s.slices slice
  .next { s with slices := SMap.set s.slices slice { q with used := [], cycle := 0 } }

/-- L2_SLICE_REQUEST (R145): the slice grants this cycle's slot, and serves the oldest request of the partition it chose. A request
whose walk the gate has no room for waits (R148). -/
def execL2SliceRequest (slice : Nat) (s : State) : Out :=
  let q := (SMap.get {} s.slices slice).window
  let put (x : Slice) : State := { s with slices := SMap.set s.slices slice x }
  match (slicePick s q q.asks).bind fun p => q.queue.find? fun f => f.part = p with
  | none => .next (put { q with cycle := q.cycle + 1 })
  | some f =>
    if gateFull s f then .next (put { q with cycle := q.cycle + 1 })
    else .next (serveRequest (takeSlot (put { q with queue := q.queue.erase f }) slice f.part) f)

/-! ### A gate and the memory behind it (R24, R148) -/

/-- TRANSLATION_WALK_COMPLETE (R148): a walk ends. -/
def execTranslationWalkComplete (die n : Nat) (s : State) : Out :=
  match (SMap.get [] s.walks die)[n]? with
  | none => .next s
  | some f => .next (finishWalk s die f).1

/-- MEMORY_RESPONSE (R24, R159): a memory of the die answers; the request's slice, or the slice of the canonical name for a redirected one
(R151), fills the line and answers the requester. A PREF of a poisoned line is dropped (R381). -/
def execMemoryResponse (die n : Nat) (s : State) : Out :=
  let l := SMap.get [] s.responses die
  match l[n]? with
  | none => .next s
  | some f =>
    let s := { s with responses := SMap.set s.responses die (l.eraseIdx n) }
    let (ca, cl) := f.canon.getD (f.asid, f.line)
    match l2Find s ca cl with
    | some x => .next (fillBank s f x)
    | none =>
      let own := ca == f.asid && cl == f.line
      if (dramLine s f.pa).2 ≠ 0 then .next s
      else
      let (s, x) := l2Fill s f.part (if own then f.slice else hashSlice ca cl) ca cl f.pa (own && f.w)
      let x := { x with hint := f.hint }
      .next (fillBank (l2Put s x) f x)

/-! ### A router output (R167, R168) -/

def vcWeight (s : State) (p vc : Nat) : Nat := ((s.part p).vcw.extractLsb' (8 * vc) 8).toNat

/-- The head packet of a partition on a VC. -/
def headPacket (r : Router) (vc p : Nat) : Option Packet := r.queue.find? fun x => x.vc = vc ∧ x.part = p

def deficit (r : Router) (vc p : Nat) : Nat := SMap.get 0 r.deficits (vc * 32 + p)
def setDeficit (r : Router) (vc p n : Nat) : Router := { r with deficits := SMap.set r.deficits (vc * 32 + p) n }

/-- Deficit round-robin on a VC (R167): visits partitions until one may send. `fuel` bounds the visits; a weight is at least 1, so
that the largest packet in the queue is reached in time. -/
def drrPick (s : State) (vc : Nat) : Router → Nat → Option (Router × Packet)
  | _, 0 => none
  | r, fuel + 1 =>
    match (SMap.find? r.turns vc).bind fun p => (headPacket r vc p).bind fun x =>
        if x.flits ≤ deficit r vc p then some (setDeficit r vc p (deficit r vc p - x.flits), x) else none with
    | some y => some y
    | none =>
      match roundRobin ((SMap.find? r.turns vc).getD 31) fun p => (headPacket r vc p).isSome with
      | none => none
      | some p => drrPick s vc { setDeficit r vc p (deficit r vc p + vcWeight s p vc) with turns := SMap.set r.turns vc p } fuel

/-- The packet has left; a partition with nothing queued on the VC keeps no deficit. -/
def sentPacket (r : Router) (x : Packet) : Router :=
  let r := { r with queue := r.queue.erase x }
  if x.vc < 4 ∧ (headPacket r x.vc x.part).isNone then setDeficit r x.vc x.part 0 else r

/-- Weighted round-robin over VC 0 to 3 (R167). -/
def weightedPick (s : State) (r : Router) : Option (Router × Packet) :=
  let has (v : Nat) : Bool := r.queue.any fun x => x.vc == v
  let shares := if (List.range 4).any (fun v => decide (0 < r.shares.getD v 0) && has v) then r.shares else [4, 4, 3, 5]
  match ((List.range 4).map fun n => (r.pointer + n) % 4).find? fun v => decide (0 < shares.getD v 0) && has v with
  | none => none
  | some v =>
    match drrPick s v r ((r.queue.foldl (fun n x => max n x.flits) 0 + 2) * 33) with
    | none => none
    | some (r, x) =>
      some ({ sentPacket r x with shares := shares.set v (shares.getD v 0 - x.flits), pointer := (v + 1) % 4 }, x)

/-- ROUTER_ARBITRATION (R167): the next packet leaves the output and goes on (R12, R18). -/
def execRouterArbitration (die tile port : Nat) (s : State) : Out :=
  let i := routerId die tile port
  let r := SMap.get {} s.routers i
  let oldest (v : Nat) : Option Packet := r.queue.find? fun x => x.vc = v
  let next : Option (Router × Packet) := match oldest 5, oldest 4 with
    | some x, _ => some (sentPacket r x, x)
    | none, some x => some (sentPacket r x, x)
    | none, none => weightedPick s r
  match next with
  | some (r, x) => .next (passOn { s with routers := SMap.set s.routers i r } die tile port x)
  | none => .next s

/-! ### UNCORRECTABLE_ERROR (R159) -/

def poisonGran (l : Line) (gran : Nat) : Line := { l with poison := l.poison ||| BitVec.twoPow 16 (gran % 16) }

/-- UNCORRECTABLE_ERROR (R159): the granule that an error strikes is poisoned. -/
def execUncorrectableError (site : ErrSite) (s : State) : Out :=
  match site with
  | .dram pa => .next (if isHole pa then s else { s with dramPoison := setPoison s.dramPoison (pa / 64) true })
  | .l2 asid line gran => match l2Find s (BitVec.ofNat 8 asid) line with
    | some l => .next (l2Put s (poisonGran l gran))
    | none => .next s
  | .l1 die tile asid line gran =>
    let p := placeOf die tile
    match l1Find (s.tile p) (BitVec.ofNat 8 asid) line with
    | some l => .next (l1Put s p (poisonGran l gran))
    | none => .next s
  | .scratch die tile off =>
    let p := placeOf die tile
    let t := s.tile p
    if scratchSize t ≤ off then .next s else .next (s.setTile p { t with poison := setPoison t.poison (off / 8) true })

end Sys2Proof.Machine
end

