-- ==== Sys2Proof/Machine/System.lean ====
section
/-! DEFINITION. The system instructions (R322, R328, R349, R375 to R377, R382, R399, R401 to R403, R415 to R420, R431): parameters of
units, channel descriptors, time, floors, counters, traps and the return from one, HALT, YLD, SNAP, system registers and PRIO. -/
namespace Sys2Proof.Machine
open Sys2Proof

/-- The value of the lowest non-empty lane, and its index (R322, R417). -/
def lowestLane : List Lane → Nat → Option (Nat × W32)
  | [], _ => none
  | some v :: _, j => some (j, v)
  | none :: t, j => lowestLane t (j + 1)

/-- Port a's run to TA and TB, in its own format (R373). -/
def passRun (s : State) (d : Dst) : State :=
  let o := operands s
  let f := portFmt s.here s.focus.frame s.focus.ins .a
  finish s d f f ⟨o.a, o.key, o.count⟩ ⟨o.a, o.key, o.count⟩

/-! ### Parameters of units (R375 to R377) -/

/-- Queues a write of a word of a unit of the tile (R376). -/
def queueWrite (s : State) (place u : Nat) (w : ParamWrite) : State :=
  if u = 32 then editIsland s place fun x => { x with writes := x.writes ++ [w] }
  else editUnit s (place * 64 + u) fun o => { o with writes := o.writes ++ [w] }

/-- The firing in focus waits for other work than before. -/
def changeWork (s : State) (w : Work) : State :=
  let f := s.focus
  let c := s.here
  beginWork (s.setHere { c with inflight := c.inflight.filter fun x => !(x.ins = f.ins ∧ x.frame = f.frame) }) w

/-- The OPSET in focus queues the write of its next non-empty lane from `j` on and waits for it, or ends behind its last (R376). -/
def opsetFrom (s : State) (d : Dst) (u word j : Nat) : State :=
  let o := operands s
  let f := s.focus
  match lowestLane (o.a.drop j) j with
  | none => finishStatus s d o (statusLanes o.a)
  | some (j, v) => changeWork (queueWrite s f.place u ⟨word, v, f.ctxId, f.ins, f.frame⟩) (.parameter u word j)

/-- OPSET (R375, R376): the lanes are served one behind another, each once the write before it has taken effect. -/
def execOpset (d : Dst) (obj : BitVec 6) (word : BitVec 5) (s : State) : Out :=
  .next (opsetFrom s d obj.toNat word.toNat (resumeHere s).lane)

/-- A word of a unit as last written, in effect or not; the status word as it stands (R376). -/
def paramRead (s : State) (place u n : Nat) : W32 :=
  if u = 32 then
    let x := s.island place
    if n = 16 then islandStatus s place
    else (x.writes.foldl (fun (y : Island) w => if w.word = n then y.put (oddIsland place) n w.value else y) x).p.getD n 0
  else
    let x := s.unit (place * 64 + u)
    if n = 16 then unitStatus s place u
    else (x.writes.foldl (fun (y : OpUnit) w => if w.word = n then y.put u n w.value else y) x).p.getD n 0

/-- OPGET (R375, R376). -/
def execOpget (d : Dst) (obj : BitVec 6) (word : BitVec 5) (s : State) : Out :=
  let v := paramRead s s.focus.place obj.toNat word.toNat
  .next (finishN32 s d ((operands s).a.map fun l => l.map fun _ => v))

/-- The write of an OPSET firing has taken effect: its next lane follows, or it ends. -/
def completeOpset (s : State) (w : ParamWrite) : State :=
  let c := s.ctx w.ctx
  match inflightOf c w.ins w.frame, Image.instr c.image w.ins with
  | some ⟨_, _, k, .parameter u word j⟩, some (.opset d _ _) =>
    withFocus s w.ctx w.ins w.frame k fun s => opsetFrom s d u word (j + 1)
  | _, _ => s

/-- The boundary of an island at which a parameter write takes effect (R376); both islands of a pair follow the pair's engine. -/
def islandBoundary (s : State) (place : Nat) : Bool :=
  let x := s.island place
  let g := s.engine (engineId (place / 256) (islandRef place / 2))
  !x.engine || (g.rot.isNone && (liveJobs s g).isEmpty)

/-- PARAMETER_WRITE_EFFECT (R112, R376): the oldest write of a unit takes effect between two tokens; a frozen unit takes none. -/
def execParameterWriteEffect (die tile unit : Nat) (s : State) : Out :=
  let place := placeOf die tile
  if unit = 32 then
    let x := s.island place
    match x.writes with
    | [] => .next s
    | w :: rest =>
      if x.frozen || !islandBoundary s place || islandHeld s w.ctx then .next s
      else .next (completeOpset (s.setIsland place { x.put (oddIsland place) w.word w.value with writes := rest }) w)
  else
    let x := s.unit (place * 64 + unit)
    match x.writes with
    | [] => .next s
    | w :: rest =>
      if x.frozen || unitMidToken s place unit || unitHeld s w.ctx (.op die tile unit) then .next s
      else
        let s := s.setUnit (place * 64 + unit) { x.put unit w.word w.value with writes := rest }
        .next (completeOpset (if unit = 22 then grantPlaces s place else s) w)

/-! ### CHSET (R328, R136) -/

/-- Slots that a consumer's end grants; a QUEUE grants its free places (R109, R116). -/
def slotsOf (s : State) (i : Nat) (desc : W64) : Nat :=
  match (s.inc i).sink with
  | .unit 22 0 => queueCap (s.unit (i / 64 * 64 + 22)) - (s.unit (i / 64 * 64 + 22)).store.length
  | _ => descDepth desc

/-- The producer of a channel holds a credit for each slot, and none when the channel is cleared (R328). -/
def grantCredits (s : State) (i : Nat) (out : Bool) (d : W64) : State :=
  let n := match consumerEnd i out d with
    | some e => slotsOf s e d
    | none => descDepth d
  let p := if out then some i else if descXp d then none else some (descPeer d)
  match p with
  | some p => s.setOutc p { s.outc p with credits := if descEn d then n else 0, returning := 0 }
  | none => s

/-- The peer is a tile that the partition does not own. -/
def foreignPeer (s : State) (part : Nat) (d : W64) : Bool :=
  let t := (d.extractLsb' 43 8).toNat
  !descXp d && decide (t < 144) && decide (SMap.find? s.owners (placeOf (d.extractLsb' 51 2).toNat t) ≠ some part)

/-- Bits [63:32] of a descriptor as CHSET writes them: [34:32] stand, a reserved format or unit keeps its field (R4, R328). -/
def descWritten (old : W64) (v : W32) : W64 :=
  let w : W64 := v ++ (0 : BitVec 32)
  field64 63 1 anyVal old w ||| field64 59 4 dataFmt old w ||| field64 53 6 anyVal old w ||| field64 51 2 anyVal old w |||
    field64 43 8 (· ≤ 187) old w ||| field64 37 6 anyVal old w ||| field64 35 2 anyVal old w ||| (old &&& 0x00000007FFFFFFFF)

/-- A count of the channel: its declared count, or its word counter, which both stand at its consumer's end (log 20). -/
def chsetCount (s : State) (i : Nat) (out : Bool) (d : W64) (f : InChan → InChan) : State :=
  match consumerEnd i out d with
  | some e => if descWc d then deliverWords (s.setInc e (f (s.inc e))) e else s
  | none => s

/-- One lane of a CHSET: none where it raises PROTECTION. -/
def chsetLane (s : State) (i : Nat) (out : Bool) (sel : BitVec 2) (v : W32) : Option State :=
  let d := if out then (s.outc i).desc else (s.inc i).desc
  match sel.toNat with
  | 0 =>
    let n := descWritten d v
    if foreignPeer s s.here.part n then none
    else if descEn d && n != d && holdsTokens s i out d then some s
    else
      let s := if out then s.setOutc i { s.outc i with desc := n } else s.setInc i { s.inc i with desc := n }
      some (grantCredits s i out n)
  | 1 => if v != 0 then some (chsetCount s i out d fun x => { x with want := v }) else some s
  | _ => some (chsetCount s i out d fun x => { x with words := v })

def chsetLanes (s : State) (i : Nat) (out : Bool) (sel : BitVec 2) (d : Dst) (o : Opnds) : List Nat → State
  | [] => finishStatus s d o (statusLanes o.a)
  | j :: rest =>
    match laneAt o.a j with
    | none => chsetLanes s i out sel d o rest
    | some v => match chsetLane s i out sel v with
      | some s => chsetLanes s i out sel d o rest
      | none => faultFiring s codeProtection none none { lane := j }

/-- CHSET (R328). -/
def execChset (d : Dst) (obj : BitVec 6) (out : Bool) (sel : BitVec 2) (s : State) : Out :=
  let o := operands s
  .next (chsetLanes s (s.focus.place * 64 + obj.toNat) out sel d o ((List.range o.k).drop (resumeHere s).lane))

/-! ### TIME (R416) -/

/-- A 64-bit value read in halves: to TA and TB alike, or its low half to TA and its high half to TB (R401, R416). -/
def finishHalves (s : State) (d : Dst) (part : Half) (l : List (Option W64)) : State :=
  let lo : List Lane := l.map fun v => v.map fun w => w.extractLsb' 0 32
  let hi : List Lane := l.map fun v => v.map fun w => w.extractLsb' 32 32
  match part with
  | .lo => finishN32 s d lo
  | .hi => finishN32 s d hi
  | .both => finish s d fmtN32 fmtN32 ⟨lo, 0, 0⟩ ⟨hi, 0, 0⟩

def execTime (d : Dst) (part : Half) (s : State) : Out :=
  .next (finishHalves s d part ((operands s).a.map fun v => v.map fun _ => s.time s.focus.die))

/-! ### Floors and counters (R415, R418, R419) -/

def floorLanes (f : State → Nat → State × Nat) (srcA : Bool) (n : Nat) : List Lane → State → State × List Lane
  | [], s => (s, [])
  | none :: t, s => let r := floorLanes f srcA n t s; (r.1, none :: r.2)
  | some v :: t, s =>
    let g := f s (if srcA then min 255 v.toNat else n)
    let r := floorLanes f srcA n t g.1
    (r.1, some (BitVec.ofNat 32 g.2) :: r.2)

/-- TRES (R418): each lane raises the floor as far as R94 grants. -/
def execTres (d : Dst) (depth : BitVec 6) (srcA : Bool) (n : BitVec 8) (s : State) : Out :=
  let r := floorLanes (fun s m => raiseFloor s s.focus.ctxId depth.toNat m) srcA n.toNat (operands s).a s
  .next (finishN32 r.1 d r.2)

/-- TREL (R418). -/
def execTrel (d : Dst) (depth : BitVec 6) (srcA : Bool) (n : BitVec 8) (s : State) : Out :=
  let r := floorLanes (fun s m => lowerFloor s s.focus.ctxId depth.toNat m) srcA n.toNat (operands s).a s
  .next (finishN32 r.1 d r.2)

/-- A counter of the issuing context (R415). -/
def counterOf (s : State) (sel : CntSel) : W32 :=
  let c := s.here
  match sel with
  | .ack => c.ack
  | .late => c.late
  | .live => BitVec.ofNat 32 (c.live + (if c.frames.any fun f => f.num = c.ahead then 1 else 0))
  | .ahead => BitVec.ofNat 32 (c.ahead % 4096)
  | .chead => BitVec.ofNat 32 (c.chead % 4096)
  | .free => BitVec.ofNat 32 (freeWords s s.focus.place)

def clearCounter (s : State) (sel : CntSel) : State :=
  let c := s.here
  match sel with
  | .ack => s.setHere { c with ack := 0 }
  | .late => s.setHere { c with late := 0 }
  | .live | .ahead | .chead | .free => s

def countLanes (sel : CntSel) (clr : Bool) : List Lane → State → State × List Lane
  | [], s => (s, [])
  | none :: t, s => let r := countLanes sel clr t s; (r.1, none :: r.2)
  | some _ :: t, s =>
    let v := counterOf s sel
    let r := countLanes sel clr t (if clr then clearCounter s sel else s)
    (r.1, some v :: r.2)

/-- TCNT (R415). -/
def execTcnt (d : Dst) (sel : CntSel) (clr : Bool) (s : State) : Out :=
  let r := countLanes sel clr (operands s).a s
  .next (finishN32 r.1 d r.2)

/-! ### Traps and the return from one (R322, R417, R420) -/

/-- TRAP (R417): Fault(SOFTWARE), with the lowest lane's value, the code and the lane. -/
def execTrap (d : Dst) (code : BitVec 12) (s : State) : Out :=
  match lowestLane (operands s).a 0 with
  | none => .next (passRun s d)
  | some (j, v) =>
    .next (faultFiring s codeSoftware (some (v.zeroExtend 64)) (some (natW64 (code.toNat + j * 2 ^ 16))) {})

/-- The action of a TRET lane (R420). -/
def tretAction (act : TretAct) (srcA : Bool) (v : W32) : TretAct :=
  if srcA then
    match (v.extractLsb' 0 2).toNat with
    | 0 => .retry
    | 1 => .skip
    | _ => .kill
  else act

def tretLanes (act : TretAct) (srcA : Bool) : List Lane → State → State × List Lane
  | [], s => (s, [])
  | none :: t, s => let r := tretLanes act srcA t s; (r.1, none :: r.2)
  | some v :: t, s =>
    let a := answerFault s s.focus.ctxId (tretAction act srcA v)
    let r := tretLanes act srcA t a.1
    (r.1, some a.2 :: r.2)

/-- TRET (R230, R420): the first non-empty lane answers the record that the handler context has. -/
def execTret (d : Dst) (act : TretAct) (srcA : Bool) (s : State) : Out :=
  let o := operands s
  let r := tretLanes act srcA o.a s
  .next (if srcA then finishStatus r.1 d o r.2 else finishN32 r.1 d r.2)

/-- BKPT (R322): Fault(BREAK); after a retry the firing passes its run. -/
def execBkpt (d : Dst) (obj : BitVec 6) (s : State) : Out :=
  match lowestLane (operands s).a 0 with
  | none => .next (passRun s d)
  | some (j, v) =>
    if 0 < (resumeHere s).lane then .next (passRun s d)
    else .next (faultFiring s codeBreak (some (v.zeroExtend 64)) (some (natW64 (obj.toNat + j * 2 ^ 8))) { lane := s.focus.k })

/-! ### HALT (R349) -/

/-- An entry of the output buffer once every frame behind `h` is discarded. -/
def haltEntry (h : Nat) (e : OutEntry) : Option OutEntry :=
  if e.released then some e
  else if e.ins = 0 then (if h + 1 < e.base then none else some e)
  else if h < e.base then none
  else if h + 1 < e.need then
    let n := h + 1 - e.base
    some { e with need := h + 1, tok := if e.tok.isMark then e.tok else e.tok.take n }
  else some e

/-- What a firing waits for, once only its first `k` lanes are left (R349). -/
def Work.cut (k : Nat) : Work → Work
  | .promise left revised => .promise (left.filter fun x => decide (x.1 < k)) (revised.filter fun x => decide (x.1 < k))
  | w => w

/-- A firing that a HALT has cut ends where the lanes left to it are done: a BAR whose episodes have filled, and a GATH whose next set
lay in a frame that is gone (R287, R345, R349). -/
def endCut (s : State) (id : Nat) (x : Inflight) : State :=
  let c := s.ctx id
  let a := portLanes c x.frame x.k x.ins .a
  match Image.instr c.image x.ins, x.work with
  | some (.bar d _ _ _), .barrier done =>
    if barrierDone a done then withFocus s id x.ins x.frame x.k fun s => finishLanes s d (statusLanes a) else s
  | some (.gath d chunks fmt key), .gather =>
    if (s.island (id / 8)).sets.any fun g => g.ctx = id ∧ g.ins = x.ins ∧ g.frame = x.frame then s
    else
      let s := s.setCtx id { c with inflight := c.inflight.filter (· ≠ x) }
      withFocus s id x.ins x.frame x.k fun s => armGather s d chunks fmt key (operands s) 0 x.k
  | _, _ => s

/-- A stopped firing keeps the lanes of the frames up to `h` (R349). -/
def StopSite.cut (h : Nat) : StopSite → StopSite
  | .firing i f k r => .firing i f (min k (h + 1 - f)) r
  | .send d e n i f k r => .send d e n i f (min k (h + 1 - f)) r
  | .rotation d e i f k => .rotation d e i f (min k (h + 1 - f))
  | x => x

/-- The firing of a stop whose lane lies in a discarded frame, its base frame not: it goes on with the lanes before, which are done. -/
def Stop.passed (h : Nat) (x : Stop) : Option (Nat × Nat × Nat × Resume) :=
  match x.site with
  | .firing i f k r | .send _ _ _ i f k r => if f ≤ h ∧ h < f + r.lane then some (i, f, min k (h + 1 - f), r) else none
  | _ => none

/-- The lane at which a firing stopped lies in a discarded frame. -/
def Stop.late (h : Nat) (x : Stop) : Bool :=
  match x.site with
  | .firing _ f _ r | .send _ _ _ _ f _ r => decide (h < f + r.lane)
  | _ => false

/-- Live frames behind the halting frame are discarded with all that waits in them. -/
def haltAt (s : State) (id h : Nat) : State :=
  let c := s.ctx id
  let keep (f : Nat) : Bool := decide (f ≤ h)
  let s := closeSends s (openSends { c with
    stops := c.stops.filter (Stop.late h), resumes := c.resumes.filter fun x => decide (h < x.2.1 + x.2.2.2.lane) } id)
  let cut (f k : Nat) : Nat := min k (h + 1 - f)
  let s := s.setCtx id { c with
    halting := some h, ahead := min c.ahead (h + 1)
    frames := c.frames.filter fun f => keep f.num
    stops := (c.stops.filter fun x => (x.base.map keep).getD true && !x.late h).map fun x => { x with site := x.site.cut h }
    inflight := (c.inflight.filter fun x => keep x.frame).map fun x => { x with k := cut x.frame x.k, work := x.work.cut (cut x.frame x.k) }
    resumes := ((c.resumes.filter fun x => keep x.2.1).map fun x => (x.1, x.2.1, cut x.2.1 x.2.2.1, x.2.2.2)) ++
      c.stops.filterMap (Stop.passed h)
    ages := c.ages.filter fun x => keep x.2.1
    out := c.out.filterMap (haltEntry h)
    seq := { c.seq with wait := none, gwait := none, goal := none } }
  let s := withdrawWhere s fun a => a.1 == id && decide (h < a.2.2.1 + a.2.2.2)
  let s := editIsland s (id / 8) fun x =>
    let late (g : GatherSet) : Bool := g.ctx == id && decide (h < g.frame + g.lane)
    { x with
      sets := x.sets.filter fun g => !late g
      rows := if (x.sets.head?.map late).getD false then x.rows.filter fun r => !r.gathered else x.rows }
  let s := (s.engines.filter fun e => match e.2.rot with
      | some r => r.ctx == id && decide (h < r.frame)
      | none => false).foldl (fun s e => endRotation s (e.1 / 32) (e.1 % 32)) s
  let s := s.mapIns fun n x => if n / 64 = id / 8 ∧ feedsCtx x.sink (id % 8) then { x with await := x.await.filter keep } else x
  (s.ctx id).inflight.foldl (fun s x => endCut s id x) s

/-- HALT (R349): the frame of the lowest non-empty lane becomes the halting frame, unless an older one is. -/
def execHalt (s : State) : Out :=
  let f := s.focus
  let l := lowestLane (operands s).a 0
  let s := s.setHere (markFired s.here f.ins f.frame f.k)
  match l with
  | none => .next s
  | some (j, _) =>
    let h := f.frame + j
    .next (if (s.here.halting.all fun x => decide (h < x)) then haltAt s f.ctxId h else s)

/-! ### YLD, SNAP and PRIO (R382, R399, R431) -/

/-- YLD (R431). -/
def execYld (d : Dst) (s : State) : Out :=
  let s := if (operands s).anyLane then s.setHere { s.here with yielding := true } else s
  .next (passRun s d)

/-- Image address of a SNAP lane. -/
def snapVa (s : State) (base : BitVec 3) (v : W32) : Nat := (((baseVa s base : Int) + v.toInt * 4096) % 2 ^ 56).toNat

def snapLanes (s : State) (base : BitVec 3) (pre : Bool) (d : Dst) (o : Opnds) : List Nat → State
  | [] => finishStatus s d o (statusLanes o.a)
  | j :: rest =>
    match laneAt o.a j with
    | none => snapLanes s base pre d o rest
    | some v =>
      let va := snapVa s base v
      if va % 4096 ≠ 0 then faultFiring s codeAlign (some (natW64 va)) none { lane := j }
      else snapLanes (requestSnapshot s s.here.part s.here.launch pre va (some s.focus.ctxId)) base pre d o rest

/-- SNAP (R399). -/
def execSnap (d : Dst) (base : BitVec 3) (pre : Bool) (s : State) : Out :=
  let o := operands s
  .next (snapLanes s base pre d o ((List.range o.k).drop (resumeHere s).lane))

def prioLanes (id : Nat) (srcA : Bool) (val : BitVec 3) : List Lane → State → State
  | [], s => s
  | none :: t, s => prioLanes id srcA val t s
  | some v :: t, s =>
    let p : W32 := if srcA then prioWritten v else val.zeroExtend 32
    prioLanes id srcA val t (s.setCtx id { s.ctx id with prio := p })

/-- PRIO (R382). -/
def execPrio (d : Dst) (obj : BitVec 3) (srcA : Bool) (val : BitVec 3) (s : State) : Out :=
  let o := operands s
  let t := prioLanes (s.focus.place * 8 + obj.toNat) srcA val o.a s
  .next (if srcA then finishStatus t d o (statusLanes o.a) else finishN32 t d (statusLanes o.a))

/-! ### System registers (R401 to R403) -/

/-- The context that oth and ctx select. -/
def selectedCtx (f : Focus) (oth : Bool) (c : BitVec 3) : Nat := f.place * 8 + (if oth then c.toNat else f.ctx)

/-- The value of a register; `id` is the selected context, `ch` the channel of a handler-table entry. -/
def sysRead (s : State) (id ch : Nat) : SysReg → W64
  | .almanac => s.time s.focus.die
  | .prio => (s.ctx id).prio.zeroExtend 64
  | .floor => (s.ctx id).floor
  | .handler => (s.ctx id).handler.zeroExtend 64
  | .fpmode => (s.ctx id).fpmode.zeroExtend 64
  | .fpflags => (s.ctx id).fpflags.zeroExtend 64
  | .base n => (s.ctx id).bases.getD n.toNat 0
  | .sram => (s.tile s.focus.place).sram.zeroExtend 64
  | .limit => (s.tile s.focus.place).limit
  | .htab => SMap.get 0 (s.tile s.focus.place).htab ch
  | .ways => (s.part s.here.part).ways.zeroExtend 64
  | .bw => (s.part s.here.part).bw.zeroExtend 64
  | .vcw => (s.part s.here.part).vcw.zeroExtend 64
  | .trigger => triggerRead (s.part s.here.part)
  | .kvpool => (s.part s.here.part).kvpool
  | .clk => (s.part s.here.part).clk.zeroExtend 64
  | .kvgive => (s.part s.here.part).kvgive
  | .vigil => (s.part s.here.part).vigil
  | .ringNext => SMap.get 0 s.ringNext s.focus.die
  | .unmap => s.unmapReg

/-- A read of part.trigger clears ovf (R213). -/
def readEffect (s : State) : SysReg → State
  | .trigger => s.setPart s.here.part { s.part s.here.part with ovf := false }
  | _ => s

def srdLanes (id ch : Nat) (reg : SysReg) : List Lane → State → State × List (Option W64)
  | [], s => (s, [])
  | none :: t, s => let r := srdLanes id ch reg t s; (r.1, none :: r.2)
  | some _ :: t, s =>
    let v := sysRead s id ch reg
    let r := srdLanes id ch reg t (readEffect s reg)
    (r.1, some v :: r.2)

/-- SRD (R401, R402). -/
def execSrd (d : Dst) (obj : BitVec 6) (oth : Bool) (ctx : BitVec 3) (part : Half) (reg : SysReg) (s : State) : Out :=
  let r := srdLanes (selectedCtx s.focus oth ctx) obj.toNat reg (operands s).a s
  .next (finishHalves r.1 d part r.2)

/-- Registers that only the die scheduler and the keep cores write (R402). -/
def readOnly : SysReg → Bool
  | .almanac | .sram | .htab | .ways | .bw | .vcw | .kvpool | .clk | .kvgive | .ringNext | .unmap => true
  | .prio | .floor | .handler | .fpmode | .fpflags | .base _ | .limit | .trigger | .vigil => false

/-- A handler that names a context whose block has TH = 0 (R403). -/
def badHandler (s : State) (id : Nat) (reg : SysReg) (v : W64) : Bool :=
  reg == .handler && v.getLsbD 31 && !Image.th (s.ctx (id / 8 * 8 + (v.extractLsb' 28 3).toNat)).image

/-- The value that a lane writes: a half leaves the other half unchanged (R401, R403). -/
def laneValue (s : State) (id : Nat) (part : Half) (reg : SysReg) (a b : Lane) : Option W64 :=
  let old := sysRead s id 0 reg
  match part, a, b with
  | .lo, some a, _ => some (old.extractLsb' 32 32 ++ a)
  | .hi, some a, _ => some (a ++ old.extractLsb' 0 32)
  | .both, some a, some b => some (b ++ a)
  | _, _, _ => none

/-- The write of a register (R4, R403). -/
def sysWrite (s : State) (id : Nat) (reg : SysReg) (v : W64) : State :=
  let c := s.ctx id
  let w : W32 := v.extractLsb' 0 32
  let part := s.here.part
  match reg with
  | .prio => s.setCtx id { c with prio := prioWritten w }
  | .floor => writeFloor s id v
  | .handler => s.setCtx id { c with handler := handlerWritten c.handler w }
  | .fpmode => s.setCtx id { c with fpmode := fpmodeWritten c.fpmode w }
  | .fpflags => s.setCtx id { c with fpflags := fpflagsWritten w }
  | .base n => s.setCtx id { c with bases := c.bases.set n.toNat (baseWritten v) }
  | .limit =>
    let t := s.tile s.focus.place
    s.setTile s.focus.place { t with limit := limitWritten t.limit v }
  | .vigil => s.setPart part { s.part part with vigil := vigilWritten (s.part part).vigil v }
  | .trigger => acceptTrigger (releaseAt s (viaHere s .package) .package) part v
  | .almanac | .sram | .htab | .ways | .bw | .vcw | .kvpool | .clk | .kvgive | .ringNext | .unmap => s

def swrLanes (id : Nat) (part : Half) (reg : SysReg) : List (Lane × Lane) → State → State × List Lane
  | [], s => (s, [])
  | (a, b) :: t, s =>
    match laneValue s id part reg a b with
    | none => let r := swrLanes id part reg t s; (r.1, none :: r.2)
    | some v => let r := swrLanes id part reg t (sysWrite s id reg v); (r.1, some 0 :: r.2)

/-- SWR (R401 to R403): PROTECTION writes nothing. -/
def execSwr (d : Dst) (_obj : BitVec 6) (oth : Bool) (ctx : BitVec 3) (part : Half) (reg : SysReg) (s : State) : Out :=
  let o := operands s
  let id := selectedCtx s.focus oth ctx
  let lanes := (List.range o.k).map fun j => (laneAt o.a j, laneAt o.b j)
  let vals := lanes.filterMap fun l => laneValue s id part reg l.1 l.2
  if (readOnly reg && !vals.isEmpty) || vals.any (badHandler s id reg) then .next (faultFiring s codeProtection none none {})
  else
    let r := swrLanes id part reg lanes s
    .next (finishStatus r.1 d o r.2)

end Sys2Proof.Machine
end

