-- ==== Sys2Proof/Machine/Dispatch.lean ====
section
/-! DEFINITION. The meaning of an instruction: one arm per constructor. -/
namespace Sys2Proof.Machine
open Sys2Proof

def exec (i : Instr) (s : State) : Host.Outcome State Fault Refusal :=
  match i with
  | .mtch m => Sys2Proof.Machine.execMtch m s
  | .brm m l => Sys2Proof.Machine.execBrm m l s
  | .swm l => Sys2Proof.Machine.execSwm l s
  | .jmpn l => Sys2Proof.Machine.execJmpn l s
  | .calln l => Sys2Proof.Machine.execCalln l s
  | .retn => Sys2Proof.Machine.execRetn s
  | .take n p => Sys2Proof.Machine.execTake n p s
  | .takeDrop => Sys2Proof.Machine.execTakeDrop s
  | .fire src key n p => Sys2Proof.Machine.execFire src key n p s
  | .emk c src ch => Sys2Proof.Machine.execEmk c src ch s
  | .rcvr lev l => Sys2Proof.Machine.execRcvr lev l s
  | .gwait c => Sys2Proof.Machine.execGwait c s
  | .acpt => Sys2Proof.Machine.execAcpt s
  | .acptRestart l => Sys2Proof.Machine.execAcptRestart l s
  | .gtrap code => Sys2Proof.Machine.execGtrap code s
  | .recoveryDiscard => Sys2Proof.Machine.execRecoveryDiscard s
  | .nop d => Sys2Proof.Machine.execNop d s
  | .fan x => Sys2Proof.Machine.execFan x s
  | .steer x => Sys2Proof.Machine.execSteer x s
  | .merge x => Sys2Proof.Machine.execMerge x s
  | .drop => Sys2Proof.Machine.execDrop s
  | .movi d ty v => Sys2Proof.Machine.execMovi d ty v s
  | .tagr x => Sys2Proof.Machine.execTagr x s
  | .mask x => Sys2Proof.Machine.execMask x s
  | .fill x => Sys2Proof.Machine.execFill x s
  | .hget d ty reg idx lane => Sys2Proof.Machine.execHget d ty reg idx lane s
  | .hset d ty reg idx lane => Sys2Proof.Machine.execHset d ty reg idx lane s
  | .emit d cls payA pay => Sys2Proof.Machine.execEmit d cls payA pay s
  | .add x => Sys2Proof.Machine.execAdd x s
  | .sub x => Sys2Proof.Machine.execSub x s
  | .mul x => Sys2Proof.Machine.execMul x s
  | .mulh x => Sys2Proof.Machine.execMulh x s
  | .div x => Sys2Proof.Machine.execDiv x s
  | .rem x => Sys2Proof.Machine.execRem x s
  | .min x => Sys2Proof.Machine.execMin x s
  | .max x => Sys2Proof.Machine.execMax x s
  | .abs x => Sys2Proof.Machine.execAbs x s
  | .neg x => Sys2Proof.Machine.execNeg x s
  | .cmp x => Sys2Proof.Machine.execCmp x s
  | .clz x => Sys2Proof.Machine.execClz x s
  | .popc x => Sys2Proof.Machine.execPopc x s
  | .and x => Sys2Proof.Machine.execAnd x s
  | .or x => Sys2Proof.Machine.execOr x s
  | .xor x => Sys2Proof.Machine.execXor x s
  | .andn x => Sys2Proof.Machine.execAndn x s
  | .shl x => Sys2Proof.Machine.execShl x s
  | .shr x => Sys2Proof.Machine.execShr x s
  | .sar x => Sys2Proof.Machine.execSar x s
  | .fma x => Sys2Proof.Machine.execFma x s
  | .rcp x => Sys2Proof.Machine.execRcp x s
  | .rsq x => Sys2Proof.Machine.execRsq x s
  | .nrcp x => Sys2Proof.Machine.execNrcp x s
  | .nrsq x => Sys2Proof.Machine.execNrsq x s
  | .exp2 x => Sys2Proof.Machine.execExp2 x s
  | .log2 x => Sys2Proof.Machine.execLog2 x s
  | .tanh x => Sys2Proof.Machine.execTanh x s
  | .class x => Sys2Proof.Machine.execClass x s
  | .rnd x => Sys2Proof.Machine.execRnd x s
  | .cvt x => Sys2Proof.Machine.execCvt x s
  | .pack x => Sys2Proof.Machine.execPack x s
  | .unpk x => Sys2Proof.Machine.execUnpk x s
  | .qdec x => Sys2Proof.Machine.execQdec x s
  | .qenc x => Sys2Proof.Machine.execQenc x s
  | .bsq x => Sys2Proof.Machine.execBsq x s
  | .shfl x => Sys2Proof.Machine.execShfl x s
  | .lred x => Sys2Proof.Machine.execLred x s
  | .lscn x => Sys2Proof.Machine.execLscn x s
  | .lbct x => Sys2Proof.Machine.execLbct x s
  | .ld ty x => Sys2Proof.Machine.execLd ty x s
  | .st ty x => Sys2Proof.Machine.execSt ty x s
  | .atom ty x => Sys2Proof.Machine.execAtom ty x s
  | .cas ty x => Sys2Proof.Machine.execCas ty x s
  | .pref x => Sys2Proof.Machine.execPref x s
  | .disc x => Sys2Proof.Machine.execDisc x s
  | .wbk x => Sys2Proof.Machine.execWbk x s
  | .inv x => Sys2Proof.Machine.execInv x s
  | .kvap ty x => Sys2Proof.Machine.execKvap ty x s
  | .kvfk x => Sys2Proof.Machine.execKvfk x s
  | .xfen d before after scope => Sys2Proof.Machine.execXfen d before after scope s
  | .sbar d units scope => Sys2Proof.Machine.execSbar d units scope s
  | .bar d obj scope n => Sys2Proof.Machine.execBar d obj scope n s
  | .wload d obj base wfmt krows ncols => Sys2Proof.Machine.execWload d obj base wfmt krows ncols s
  | .wbind d obj key q => Sys2Proof.Machine.execWbind d obj key q s
  | .gath d chunks fmt key => Sys2Proof.Machine.execGath d chunks fmt key s
  | .mout d first count clr => Sys2Proof.Machine.execMout d first count clr s
  | .mclr d first count => Sys2Proof.Machine.execMclr d first count s
  | .attn d obj emit base => Sys2Proof.Machine.execAttn d obj emit base s
  | .selk d k gsz => Sys2Proof.Machine.execSelk d k gsz s
  | .opset d obj word => Sys2Proof.Machine.execOpset d obj word s
  | .opget d obj word => Sys2Proof.Machine.execOpget d obj word s
  | .chset d obj out sel => Sys2Proof.Machine.execChset d obj out sel s
  | .arm d queue str tpl unbind => Sys2Proof.Machine.execArm d queue str tpl unbind s
  | .cpy d tpl str => Sys2Proof.Machine.execCpy d tpl str s
  | .wtil d tpl str => Sys2Proof.Machine.execWtil d tpl str s
  | .time d part => Sys2Proof.Machine.execTime d part s
  | .rota d obj n chain base => Sys2Proof.Machine.execRota d obj n chain base s
  | .rgrt d obj slot recur => Sys2Proof.Machine.execRgrt d obj slot recur s
  | .rsnd d obj base => Sys2Proof.Machine.execRsnd d obj base s
  | .rstat d obj hi => Sys2Proof.Machine.execRstat d obj hi s
  | .tres d depth srcA n => Sys2Proof.Machine.execTres d depth srcA n s
  | .trel d depth srcA n => Sys2Proof.Machine.execTrel d depth srcA n s
  | .tcnt d sel clr => Sys2Proof.Machine.execTcnt d sel clr s
  | .trap d code => Sys2Proof.Machine.execTrap d code s
  | .tret d act srcA => Sys2Proof.Machine.execTret d act srcA s
  | .bkpt d obj => Sys2Proof.Machine.execBkpt d obj s
  | .halt => Sys2Proof.Machine.execHalt s
  | .yld d => Sys2Proof.Machine.execYld d s
  | .snap d base pre => Sys2Proof.Machine.execSnap d base pre s
  | .srd d obj oth ctx part reg => Sys2Proof.Machine.execSrd d obj oth ctx part reg s
  | .swr d obj oth ctx part reg => Sys2Proof.Machine.execSwr d obj oth ctx part reg s
  | .prio d obj srcA val => Sys2Proof.Machine.execPrio d obj srcA val s
  | .channelTokenArrival die tile ch => Sys2Proof.Machine.execChannelTokenArrival die tile ch s
  | .creditReturn die tile ch => Sys2Proof.Machine.execCreditReturn die tile ch s
  | .boundChannelDelivery die tile ch => Sys2Proof.Machine.execBoundChannelDelivery die tile ch s
  | .handlerTableServe die tile => Sys2Proof.Machine.execHandlerTableServe die tile s
  | .frameCommit die tile ctx => Sys2Proof.Machine.execFrameCommit die tile ctx s
  | .outputTokenSend die tile ch => Sys2Proof.Machine.execOutputTokenSend die tile ch s
  | .tagExhausted die tile ctx => Sys2Proof.Machine.execTagExhausted die tile ctx s
  | .firingAging die tile ctx ins frame => Sys2Proof.Machine.execFiringAging die tile ctx ins frame s
  | .yieldExpiry die tile ctx => Sys2Proof.Machine.execYieldExpiry die tile ctx s
  | .barEpisodeFill ep => Sys2Proof.Machine.execBarEpisodeFill ep s
  | .faultDelivery die tile ctx => Sys2Proof.Machine.execFaultDelivery die tile ctx s
  | .readEmit die tile unit => Sys2Proof.Machine.execReadEmit die tile unit s
  | .writeStore die tile unit => Sys2Proof.Machine.execWriteStore die tile unit s
  | .queueToken die tile send => Sys2Proof.Machine.execQueueToken die tile send s
  | .fanoutToken die tile => Sys2Proof.Machine.execFanoutToken die tile s
  | .routeToken die tile => Sys2Proof.Machine.execRouteToken die tile s
  | .mergeJoinStreams die tile => Sys2Proof.Machine.execMergeJoinStreams die tile s
  | .reorderToken die tile => Sys2Proof.Machine.execReorderToken die tile s
  | .gatherIndex die tile => Sys2Proof.Machine.execGatherIndex die tile s
  | .intersectPair die tile => Sys2Proof.Machine.execIntersectPair die tile s
  | .selectSet die tile => Sys2Proof.Machine.execSelectSet die tile s
  | .reduceToken die tile => Sys2Proof.Machine.execReduceToken die tile s
  | .convertToken die tile => Sys2Proof.Machine.execConvertToken die tile s
  | .parameterWriteEffect die tile unit => Sys2Proof.Machine.execParameterWriteEffect die tile unit s
  | .chunkIssue die isl => Sys2Proof.Machine.execChunkIssue die isl s
  | .islandMarkPass die isl => Sys2Proof.Machine.execIslandMarkPass die isl s
  | .weightFillComplete die isl => Sys2Proof.Machine.execWeightFillComplete die isl s
  | .gathRowCollect die isl => Sys2Proof.Machine.execGathRowCollect die isl s
  | .templateFire die str queue => Sys2Proof.Machine.execTemplateFire die str queue s
  | .copyWordLand die str copy word => Sys2Proof.Machine.execCopyWordLand die str copy word s
  | .copyFault die str copy word => Sys2Proof.Machine.execCopyFault die str copy word s
  | .promiseCheck die tile ctx ins frame => Sys2Proof.Machine.execPromiseCheck die tile ctx ins frame s
  | .grantArrival die eng => Sys2Proof.Machine.execGrantArrival die eng s
  | .ringRowArrival die eng => Sys2Proof.Machine.execRingRowArrival die eng s
  | .rotationEmit die eng => Sys2Proof.Machine.execRotationEmit die eng s
  | .queryRowLatch die eng => Sys2Proof.Machine.execQueryRowLatch die eng s
  | .chainPositionRequest die tile => Sys2Proof.Machine.execChainPositionRequest die tile s
  | .translationWalkComplete die n => Sys2Proof.Machine.execTranslationWalkComplete die n s
  | .memoryResponse die n => Sys2Proof.Machine.execMemoryResponse die n s
  | .sliceWindowRestart slice => Sys2Proof.Machine.execSliceWindowRestart slice s
  | .routerArbitration die tile port => Sys2Proof.Machine.execRouterArbitration die tile port s
  | .uncorrectableError site => Sys2Proof.Machine.execUncorrectableError site s
  | .launch part value => Sys2Proof.Machine.execLaunch part value s
  | .restore part value => Sys2Proof.Machine.execRestore part value s
  | .launchStart part => Sys2Proof.Machine.execLaunchStart part s
  | .placement part die => Sys2Proof.Machine.execPlacement part die s
  | .sourceStart part die => Sys2Proof.Machine.execSourceStart part die s
  | .spliceConfig die tile ctx => Sys2Proof.Machine.execSpliceConfig die tile ctx s
  | .spliceApply die tile ctx => Sys2Proof.Machine.execSpliceApply die tile ctx s
  | .launchFinish part => Sys2Proof.Machine.execLaunchFinish part s
  | .snapshotRequest part slot pre va => Sys2Proof.Machine.execSnapshotRequest part slot pre va s
  | .lanternMarkerArrival u ch => Sys2Proof.Machine.execLanternMarkerArrival u ch s
  | .unitSaveComplete u => Sys2Proof.Machine.execUnitSaveComplete u s
  | .snapshotComplete part => Sys2Proof.Machine.execSnapshotComplete part s
  | .vigilExpiry die tile ctx => Sys2Proof.Machine.execVigilExpiry die tile ctx s
  | .unmap fn value => Sys2Proof.Machine.execUnmap fn value s
  | .unmapMarkerPass u => Sys2Proof.Machine.execUnmapMarkerPass u s
  | .unmapComplete => Sys2Proof.Machine.execUnmapComplete s
  | .handOver part value => Sys2Proof.Machine.execHandOver part value s
  | .clockChange part value => Sys2Proof.Machine.execClockChange part value s
  | .clockTakesEffect part => Sys2Proof.Machine.execClockTakesEffect part s
  | .reportQueueConsume part value => Sys2Proof.Machine.execReportQueueConsume part value s
  | .checkpoint value => Sys2Proof.Machine.execCheckpoint value s
  | .checkpointWriteComplete => Sys2Proof.Machine.execCheckpointWriteComplete s
  | .checkpointRestore value => Sys2Proof.Machine.execCheckpointRestore value s
  | .psetup => Sys2Proof.Machine.execPsetup s
  | .pfree => Sys2Proof.Machine.execPfree s
  | .partitionRelease part => Sys2Proof.Machine.execPartitionRelease part s
  | .root => Sys2Proof.Machine.execRoot s
  | .fwload => Sys2Proof.Machine.execFwload s
  | .install part => Sys2Proof.Machine.execInstall part s
  | .remove part => Sys2Proof.Machine.execRemove part s
  | .registerWrite fn off half value => Sys2Proof.Machine.execRegisterWrite fn off half value s
  | .deviceReset => Sys2Proof.Machine.execDeviceReset s
  | .recoveryFetchComplete image => Sys2Proof.Machine.execRecoveryFetchComplete image s
  | .almanacCorrection die => Sys2Proof.Machine.execAlmanacCorrection die s
  | .healthEvaluation => Sys2Proof.Machine.execHealthEvaluation s
  | .thermalLimit src => Sys2Proof.Machine.execThermalLimit src s
  | .l2SliceRequest slice => Sys2Proof.Machine.execL2SliceRequest slice s
  | .checkpointReadComplete ok => Sys2Proof.Machine.execCheckpointReadComplete ok s
  | .thermalSensorBelowLimit src => Sys2Proof.Machine.execThermalSensorBelowLimit src s

end Sys2Proof.Machine
end

