-- ==== Sys2Proof/Machine/Turns.lean ====
section
/-! DEFINITION. What one turn does (log 2): the sequencer of a tile serves a context (R59), an element performs a firing
(R224), an event happens, time passes, or something comes from outside the package. -/
namespace Sys2Proof.Machine
open Sys2Proof

def onGrid (die tile : Nat) : Bool := decide (die < 4 ∧ tile < 144)

/-- The grammar word that a context's pc names (R60). -/
def fetchWord (s : State) : W32 := gmemAt s s.focus.place s.here.seq.pc.toNat

/-- The served context performs its word, or a turn of its recovery loop (R59, R72). The checks of R66 do not keep pc on checked words: a
label may name a table word, and a fall may leave the region. The spec does not say what then happens; the model decodes what grammar
memory holds there, and a word that is no grammar word is Fault.undecodable (DESIGN CHOICE, log 60). -/
def runWord (s : State) : Out :=
  if s.here.seq.recov then exec .recoveryDiscard s
  else match decodeGrammar (fetchWord s) with
    | .ok i => exec i s
    | .error _ => .fault (.undecodable (fetchWord s).toNat)

/-- The state in which the sequencer of a tile serves context `c`. -/
def serving (s : State) (die tile c : Nat) : State :=
  { noteServed s (placeOf die tile) c with focus := { die := die, tile := tile, ctx := c } }

/-- A turn of a tile's sequencer: waits that begin are noted, and one context is served. -/
def sequencerTurn (die tile : Nat) (s : State) : Out :=
  let s := noteWaits s (placeOf die tile) 8
  match sequencerPick s (placeOf die tile) with
  | none => .next s
  | some c => runWord (serving s die tile c)

/-- The block word of the firing in focus. -/
def firingWord (s : State) : W64 := Image.code s.here.image s.focus.ins

/-- The element performs the firing in focus. -/
def runFiring (s : State) : Out :=
  match decodeBlock (firingWord s) with
  | .ok i => exec i s
  | .error _ => .fault (.undecodable (firingWord s).toNat)

/-- A turn of an element (R224). -/
def elementTurn (die tile e : Nat) (s : State) : Out :=
  match elementPick s (placeOf die tile) e with
  | none => .next s
  | some (c, ins, f, k) => runFiring { s with focus := ⟨die, tile, c, ins, f, k⟩ }

/-- An instruction that no word encodes and no focus performs: an event. -/
def isEvent (i : Instr) : Bool := (encodeGrammar i).isNone && (encodeBlock i).isNone && i != .recoveryDiscard

/-- Events that can happen while the dies are held (R264, R267). -/
def beforeReady : Instr → Bool
  | .deviceReset | .recoveryFetchComplete _ | .fwload | .registerWrite _ _ _ _ => true
  | _ => false

/-- The hub's count and the copies of the dies advance; a copy that is ahead stands still until the count passes it (R272). -/
def passTime (s : State) (ticks : Nat) : State :=
  let s := watchAll s
  let now := s.almanac + BitVec.ofNat 64 ticks
  { s with acted := if ticks = 0 then s.acted else 0, almanac := now, copies := s.copies.map fun c =>
      if c.toNat ≤ s.almanac.toNat then c + BitVec.ofNat 64 ticks else if c.toNat ≤ now.toNat then now else c }

/-- A die's copy gains a tick on the hub's count, or misses one that the others count; it stays within 2 ticks (R272). -/
def slipTime (s : State) (die : Nat) (ahead : Bool) : State :=
  let c := s.time die
  if ahead then
    if c.toNat + 1 ≤ s.almanac.toNat + 2 then { s with copies := s.copies.modify die (· + 1) } else s
  else if s.almanac.toNat + 1 ≤ c.toNat + 2 then
    let t := passTime s 1
    { t with copies := t.copies.modify die fun _ => c }
  else s

/-- Units with SRAM of their own, by tile index (R20): those of every die, and those of the hub die, under die 0. -/
def hasSram (die tile : Nat) : Bool := decide (die < 4 ∧ tile < 192) || (die == 0 && decide (240 ≤ tile ∧ tile < 246))

/-- A single-bit error is corrected and counted in the unit's margin counter (R159). -/
def countCorrected (s : State) (place : Nat) : State := s.setTile place { s.tile place with margin := (s.tile place).margin + 1 }

/-- What the outside world brings (log 2). -/
def runOutside (s : State) : Turn → State
  | .inject die tile ch t =>
    let i := chanId die tile ch
    let ic := s.inc i
    if onGrid die tile ∧ ch < 64 ∧ descEn ic.desc ∧ descXp ic.desc then s.setInc i { ic with flight := ic.flight ++ [t] } else s
  | .marker die tile ch n =>
    let i := chanId die tile ch
    let ic := s.inc i
    if onGrid die tile ∧ ch < 64 ∧ descEn ic.desc ∧ descXp ic.desc then s.setInc i { ic with coming := some n } else s
  | .ringItem die eng slot x =>
    if die < 4 ∧ eng < 22 ∧ slot < 8 ∧ ringEn (ringReg s die) ∧ (predecessor s die).isNone then
      let g := s.engine (engineId die eng)
      s.setEngine (engineId die eng) { g with arriving := g.arriving ++ [(slot, x)] }
    else s
  | .ringGrant die eng slot =>
    if die < 4 ∧ eng < 22 ∧ slot < 8 ∧ ringEn (ringReg s die) ∧ (successor s die).isNone then
      let g := s.engine (engineId die eng)
      s.setEngine (engineId die eng) { g with grants := g.grants ++ [slot] }
    else s
  | .barArrival part obj scope need far =>
    if far.isEmpty then s else joinEpisode s part obj scope (ringInstance far) need none
  | .barWithdraw part obj far => leaveEpisode s part obj far
  | .acknowledged part id => editRunning s part id fun r => { r with others := true }
  | .packet die unit p => if die < 4 ∧ p.part < 32 ∧ p.die < 4 then sendPacket s die unit p else s
  | .hostStore part va bytes => if livePart s part then (partWrite s part va bytes).1 else s
  | .hostRead fn off => barTouched s fn off
  | .storageFails => { s with ckptRun := s.ckptRun.map fun k => { k with failed := true } }
  | .hostMemory addr bytes => { s with hostMem := s.hostMem.writeBytes addr (bytes.map some) }
  | .tableStore pa bytes =>
    if (List.range bytes.length).all fun i => !isHole (pa + i) then storeTable s pa bytes else s
  | .ringNext die v =>
    if die < 4 then { s with ringNext := SMap.set s.ringNext die (ringWritten (ringReg s die) v) } else s
  | .template die str n w =>
    if die < 4 ∧ str < 12 ∧ n < 32 then writeTemplate s die str n w else s
  | .packageNumber n => { s with package := n }
  | .busImage addr g => { s with busImages := SMap.set s.busImages addr g }
  | .wait _ | .slip _ _ | .corrected _ _ | .sequencer _ _ | .element _ _ _ | .event _ => s

/-- The dies run (R267). -/
def ready (s : State) : Bool := s.stage == 4

/-- Source number of the unit that an event belongs to (R20); an event of the links and of main memory belongs to none. The spec ties some
events to no unit of R20, and the model to the one that does the work (DESIGN CHOICE, log 2): a commit, a send and a delivery of a bound
channel to 33; an allocation's TAG_EXHAUSTED and a chain's request to the mark sequencer, 16; deliveries of records, expiries and splices
to the block front end, 17; and the end of an unmap to the keep cores, 241. -/
def eventSource (i : Instr) : Option Nat :=
  let ofTile (die tile u : Nat) : Option Nat := some (sourceNo die tile u).toNat
  let ref (u : UnitRef) : Option Nat := some (sourceAt (refPlace u) (refUnit u)).toNat
  match i with
  | .channelTokenArrival _ _ _ | .creditReturn _ _ _ => none
  | .boundChannelDelivery d t _ | .outputTokenSend d t _ | .frameCommit d t _ => ofTile d t 33
  | .handlerTableServe d t => ofTile d t 17
  | .tagExhausted d t _ | .chainPositionRequest d t => ofTile d t 16
  | .firingAging d t _ i _ => ofTile d t (i % 16)
  | .yieldExpiry d t _ | .faultDelivery d t _ | .spliceApply d t _ | .vigilExpiry d t _ => ofTile d t 17
  | .promiseCheck d t _ i _ => ofTile d t (i % 16)
  | .readEmit d t u => ofTile d t (18 + u)
  | .writeStore d t u => ofTile d t (20 + u)
  | .queueToken d t _ => ofTile d t 22
  | .fanoutToken d t => ofTile d t 23
  | .routeToken d t => ofTile d t 24
  | .mergeJoinStreams d t => ofTile d t 25
  | .reorderToken d t => ofTile d t 26
  | .gatherIndex d t => ofTile d t 27
  | .intersectPair d t => ofTile d t 28
  | .selectSet d t => ofTile d t 29
  | .reduceToken d t => ofTile d t 30
  | .convertToken d t => ofTile d t 31
  | .parameterWriteEffect d t u => ofTile d t u
  | .chunkIssue d i | .islandMarkPass d i | .weightFillComplete d i | .gathRowCollect d i => ref (.island d i)
  | .grantArrival d e | .ringRowArrival d e | .rotationEmit d e | .queryRowLatch d e => ref (.island d (2 * e))
  | .templateFire d q _ | .copyWordLand d q _ _ | .copyFault d q _ _ => ofTile d (176 + q) 0
  | .sliceWindowRestart n | .l2SliceRequest n => ofTile (n / 32) (144 + n % 32) 0
  | .translationWalkComplete d _ => ofTile d 188 0
  | .placement _ d | .sourceStart _ d | .spliceConfig d _ _ => ofTile d 189 0
  | .lanternMarkerArrival u _ | .unitSaveComplete u | .unmapMarkerPass u => ref u
  | .launchStart _ | .launchFinish _ | .snapshotRequest _ _ _ _ | .snapshotComplete _ | .launch _ _ | .restore _ _ => ofTile 0 240 0
  | .unmapComplete | .clockTakesEffect _ | .checkpointWriteComplete | .checkpointReadComplete _ | .partitionRelease _
  | .recoveryFetchComplete _ | .almanacCorrection _ | .healthEvaluation | .psetup | .pfree | .root | .fwload | .install _
  | .remove _ => ofTile 0 241 0
  | .unmap _ _ | .handOver _ _ | .clockChange _ _ | .reportQueueConsume _ _ | .checkpoint _ | .checkpointRestore _
  | .registerWrite _ _ _ _ => ofTile 0 243 0
  | _ => none

/-- Source number of the unit whose turn it is. -/
def turnSource : Turn → Option Nat
  | .sequencer d t => some (sourceNo d t 16).toNat
  | .element d t e => some (sourceNo d t e).toNat
  | .event i => eventSource i
  | .hostStore _ _ _ | .hostRead _ _ => some (sourceNo 0 243 0).toNat
  | _ => none

/-- What a turn does. A turn that can do nothing passes. -/
def doTurn (t : Turn) (s : State) : Out :=
  match t with
  | .wait n => .next (passTime s n)
  | .slip die ahead => .next (slipTime s die ahead)
  | .corrected die tile => .next (if ready s && hasSram die tile then countCorrected s (placeOf die tile) else s)
  | .sequencer die tile => if ready s && onGrid die tile then sequencerTurn die tile s else .next s
  | .element die tile e => if ready s && onGrid die tile && decide (e < 16) then elementTurn die tile e s else .next s
  | .event i => if isEvent i && (ready s || beforeReady i) then exec i s else .next s
  | t => .next (if ready s then runOutside s t else match t with
    | .hostMemory _ _ | .busImage _ _ | .hostRead _ _ => runOutside s t
    | _ => s)

/-- An access asked for a slot of a slice that its partition's capped allotment of nothing never gives (R145): the turn makes no access
at all and is taken back; its unit waits. -/
def grantedOr (s : State) : Out → Out
  | .next t => if t.slices.any fun e => e.2.refused then .next s else .next t
  | o => o

/-- One turn. Within a tick of almanac time the units act in ascending order of their source numbers (R26): a unit behind which another
has acted waits for the next tick. -/
def runTurn (t : Turn) (s : State) : Out :=
  match turnSource t with
  | none => grantedOr s (doTurn t s)
  | some n => if n < s.acted then .next s else grantedOr s (doTurn t { s with acted := n })

/-! ### A state whose next step runs one word -/

/-- A context that is placed, with nothing of its own. -/
def bareCtx : Ctx := { active := true, launch := 0, grammar := some { len := 4096, entry := 0 } }

/-- The sequencer of tile (0, 0) of die 0 serves context 0, whose lookahead is one data lane, and finds the word at pc 0. -/
def withGrammarWord (s : State) (w : W32) : State :=
  let t := s.tile 0
  let s := s.setTile 0 { t with gmem := SMap.set t.gmem 0 w }
  let s := s.setCtx 0 { bareCtx with image := [0] }
  let s := s.setInc 0 { queue := [.data 0 0 fmtN32 0 0 [some 0]], sink := .lead 0 }
  { s with stage := 4, acted := 0, agenda := [.sequencer 0 0] }

/-- Operands of instruction 0 at every port. -/
def bareSlots : List Slot :=
  [.a, .b, .c, .w].map fun p => { ins := 0, port := p, lane := some 0, start := true, fmt := fmtN32, key := 0, fin := 1 }

/-- Frames that a firing of a word asks for: the block of BSQ and of QENC, else one. -/
def bareFrames (w : W64) : Nat :=
  match (Fields.split w).op.toNat with
  | 0x45 => 32
  | 0x44 => 64
  | _ => 1

/-- Element 0 of tile (0, 0) of die 0 finds instruction 0 of context 0 ready from frame 0 on; no further frame comes. -/
def withBlockWord (s : State) (w : W64) : State :=
  let n := bareFrames w
  let s := s.setCtx 0 { bareCtx with
    image := [0, 0, 0, 1, 0, 0, 0, 0, w], seq := { closing := true }, ahead := n
    frames := (List.range n).map fun f => { num := f, slots := bareSlots } }
  { s with stage := 4, acted := 0, agenda := [.element 0 0 0] }

end Sys2Proof.Machine
end

