-- ==== Sys2Proof/Machine/Step.lean ====
section
/-! DEFINITION. One step: one turn. The turns of State.agenda come first; after them, what happens next is open: the spec
orders the events of one tick by source number (R26) and leaves open which of them happen in it (log 2). -/

/-- Whose turn it is, as the `n`-th open turn of a run (log 2). -/
opaque Sys2Proof.Config.turn : Nat → Sys2Proof.Machine.Turn

namespace Sys2Proof.Machine
open Sys2Proof

def step (s : State) : Host.Outcome State Fault Refusal :=
  match s.agenda with
  | t :: rest => runTurn t { s with agenda := rest }
  | [] => runTurn (Config.turn s.turns) { s with turns := s.turns + 1 }

/-- A grammar word of 32 bits or a block word of 64 is placed where the next step finds it. -/
def State.withFetchWord (s : State) (nbits w : Nat) : State :=
  if nbits = 32 then withGrammarWord s (BitVec.ofNat 32 w)
  else if nbits = 64 then withBlockWord s (BitVec.ofNat 64 w)
  else s

end Sys2Proof.Machine
end

