-- ==== Sys2Proof/Safety.lean ====
section
/-! DEFINITION. The terms in which claims are stated: the invariant of the machine, what the words of a grammar test and
consume, what a firing answers, and what an instruction leaves as it was. -/
namespace Sys2Proof.Machine
open Sys2Proof

/-! ### The invariant -/

/-- Every memory of the machine is in its canonical form. -/
def MemoriesCanonical (s : State) : Prop :=
  Memory.wf s.mem ∧ Memory.wf s.hostMem ∧ (∀ e ∈ s.tiles, Memory.wf e.2.scratch) ∧ ∀ x ∈ s.storage, Memory.wf x.mem

/-- host.state holds a stage that the spec names (R269). -/
def StageLegal (s : State) : Prop := s.stage.toNat ≤ 5

/-- What every step keeps: canonical memories, a legal stage, one copy of almanac time for each die. -/
def Invariant (s : State) : Prop := MemoriesCanonical s ∧ StageLegal s ∧ s.copies.length = 4

/-! ### Frames of the state -/

/-- Of the whole state only contexts differ, and of these only context `id`. -/
def OnlyContext (s t : State) (id : Nat) : Prop :=
  t = { s with ctxs := t.ctxs } ∧ ∀ j, j ≠ id → t.ctx j = s.ctx j

/-- Only contexts differ, of context `id` nothing is said, and of every other only the waits that R105 times, the handler-table entry
whose wait it is and a begun GWAIT. -/
def WaitsBeside (s t : State) (id : Nat) : Prop :=
  t = { s with ctxs := t.ctxs } ∧ ∀ j, j ≠ id →
    t.ctx j = { s.ctx j with seq := { (s.ctx j).seq with
      wait := (t.ctx j).seq.wait, entry := (t.ctx j).seq.entry, gwait := (t.ctx j).seq.gwait, goal := (t.ctx j).seq.goal } }

/-- Only context `id`, the input channel end `i` and the output channel end `o` differ. -/
def OnlyChannel (s t : State) (id i o : Nat) : Prop :=
  t = { s with ctxs := t.ctxs, ins := t.ins, outs := t.outs } ∧
  (∀ j, j ≠ id → t.ctx j = s.ctx j) ∧ (∀ j, j ≠ i → t.inc j = s.inc j) ∧ ∀ j, j ≠ o → t.outc j = s.outc j

/-! ### The mark sequencer -/

/-- The place of its tile. -/
def servedPlace (s : State) : Nat := s.focus.ctxId / 8

/-- The channel end that the served context leads with (R63). -/
def leadEnd (s : State) : Nat := leadChan s s.focus.ctxId

/-- A mark selector of MTCH meets a token (R66, R68). -/
def SelMeets : MarkSel → Token → Prop
  | .one c, .mark _ d _ => c = d
  | .any, .mark _ _ _ => True
  | _, .data _ _ _ _ _ _ => False

/-- A selector of BRM meets a token (R66, R68). -/
def LookMeets : LookSel → Token → Prop
  | .data, .data _ _ _ _ _ _ => True
  | .data, .mark _ _ _ => False
  | .one c, .mark _ d _ => c = d
  | .one _, .data _ _ _ _ _ _ => False
  | .any, .mark _ _ _ => True
  | .any, .data _ _ _ _ _ _ => False

/-- The ordinals o1 to o4 after a mark (R64): level 1 to 3 clear those below and count one up, EB and EOS clear all, user
marks leave all. -/
def ordinalsAfter (c : MarkClass) (o1 o2 o3 o4 : W32) : W32 × W32 × W32 × W32 :=
  match c with
  | .u0 | .u1 | .u2 | .u3 => (o1, o2, o3, o4)
  | .er => (0, o2 + 1, o3, o4)
  | .eg => (0, 0, o3 + 1, o4)
  | .es => (0, 0, 0, o4 + 1)
  | .eb | .eos => (0, 0, 0, 0)

/-- The sequencer state after the token is consumed (R63, R64): a mark sets mcls and mpay, clears the lane count and moves the
ordinals; a data token changes nothing here. -/
def seqAfter (q : Seq) : Token → Seq
  | .data _ _ _ _ _ _ => q
  | .mark _ c p =>
    let o := ordinalsAfter c q.o1 q.o2 q.o3 q.o4
    { q with mcls := c.code, mpay := p, lanes := 0, o1 := o.1, o2 := o.2.1, o3 := o.2.2.1, o4 := o.2.2.2 }

/-- The served context consumes the head `tok` of its lead channel and is left with sequencer state `q` (R68, R109): the slot is
freed, a credit starts back unless the channel carries none, and nothing else changes. -/
def Consumes (s t : State) (tok : Token) (rest : List Token) (q : Seq) : Prop :=
  let ic := s.inc (leadEnd s)
  let o := descPeer ic.desc
  t.here = { s.here with seq := q, marks := if tok.isMark then s.here.marks + 1 else s.here.marks } ∧
  t.inc (leadEnd s) = { ic with queue := rest, eos := tok.isEos, cut := false } ∧
  (if descXp ic.desc ∨ descWc ic.desc then t.outs = s.outs
   else t.outc o = { s.outc o with returning := (s.outc o).returning + 1 }) ∧
  OnlyChannel s t s.focus.ctxId (leadEnd s) o

/-- The served context goes on with sequencer state `q`; nothing else changes. -/
def withSeq (s : State) (q : Seq) : State := s.setHere { s.here with seq := q }

/-- The reason and the MC field of a mismatch that a word meets at its lookahead (R68, R72, R74); none when it meets none. -/
def mismatchOf (s : State) (tok : Token) : Instr → Option (Nat × BitVec 4)
  | .mtch m => match tok with
    | .data _ _ _ _ _ _ => some (1, m.code)
    | .mark _ d _ => match m with
      | .one c => if c = d then none else some (1, m.code)
      | .any => none
  | .swm l => match swmLabel (gmemAt s (servedPlace s)) l.toNat tok.cls with
    | some _ => none
    | none => some (2, 0)
  | .take _ _ | .takeDrop => match tok with
    | .mark _ _ _ => some (3, 0)
    | .data _ _ _ _ _ _ => none
  | .acpt => if s.here.seq.closing then none else match tok with
    | .mark _ .eos _ => none
    | _ => some (4, 0)
  | .acptRestart _ => match tok with
    | .mark _ .eos _ => none
    | _ => some (4, 0)
  | _ => none

/-- The stop of a GRAMMAR or SOFTWARE fault of the served sequencer (R74, R347, R228): its record holds the next frame, the pc, the
lookahead's header and the detail word that the fault gives. -/
def sequencerStop (s : State) (code : BitVec 8) (detail : W64) (reason : Nat) : Stop :=
  { record := { code := code, source := sourceAt (servedPlace s) 16, ctx := BitVec.ofNat 3 (s.focus.ctxId % 8)
                frame := BitVec.ofNat 12 s.here.ahead, index := BitVec.ofNat 12 s.here.seq.pc.toNat
                part := BitVec.ofNat 5 s.here.part, time := s.time (s.focus.ctxId / 2048)
                aux := lookaheadHeader s s.focus.ctxId, detail := detail, snap := 0 }
    site := .grammar reason, base := none }

/-- The sequencer of the served context has stopped with `x`; nothing else changes. -/
def stoppedWith (s : State) (x : Stop) : State :=
  s.setHere { s.here with seq := { s.here.seq with run := .stopped }, stops := s.here.stops ++ [x] }

/-! ### Firings -/

/-- The state once a firing has OR'd its flags into fpflags (R52) and its element's generator stands where its draws left it
(R49). -/
def noteResult (s : State) (r : Res) : State :=
  let s := s.setHere { s.here with fpflags := s.here.fpflags ||| r.flags.zeroExtend 32 }
  if r.gen = genOf s s.focus.place (s.focus.ins % 16) then s else setGen s s.focus.place (s.focus.ins % 16) r.gen

/-- The firing in focus has completed with results `r`: flags noted, operands consumed, results sent in these formats (R88, R199). -/
def completed (s : State) (d : Dst) (fa fb : BitVec 4) (r : Res) : State := finish (noteResult s r) d fa fb r.ta r.tb

/-- The instructions whose results are a function of their operands alone: targets, formats of the two results, results. -/
def computes : Instr → Option (Dst × BitVec 4 × BitVec 4 × (Opnds → Res))
  | .fan x => some (x.d, x.ty.code, x.ty.code, fanRes x)
  | .steer x => some (x.d, x.ty.code, x.ty.code, steerRes)
  | .merge x => some (x.d, x.ty.code, x.ty.code, mergeRes)
  | .movi d ty v => some (d, ty.code, ty.code, moviRes ty v)
  | .tagr x => some (x.d, x.ty.code, x.ty.code, tagrRes x)
  | .mask x => some (x.d, x.ty.code, x.ty.code, maskRes x)
  | .fill x => some (x.d, x.ty.code, x.ty.code, fillRes x)
  | .add x => some (x.d, x.ty.code, x.ty.code, resAdd x)
  | .sub x => some (x.d, x.ty.code, x.ty.code, resSub x)
  | .mul x => some (x.d, x.ty.code, x.ty.code, resMul x)
  | .mulh x => some (x.d, x.ty.code, x.ty.code, resMulh x)
  | .div x => some (x.d, x.ty.code, x.ty.code, resDiv x)
  | .rem x => some (x.d, x.ty.code, x.ty.code, resRem x)
  | .min x => some (x.d, x.ty.code, x.ty.code, resMin x)
  | .max x => some (x.d, x.ty.code, x.ty.code, resMax x)
  | .abs x => some (x.d, x.ty.code, x.ty.code, resAbs x)
  | .neg x => some (x.d, x.ty.code, x.ty.code, resNeg x)
  | .cmp x => some (x.d, fmtN32, fmtN32, resCmp x)
  | .clz x => some (x.d, x.ty.code, x.ty.code, resClz x)
  | .popc x => some (x.d, x.ty.code, x.ty.code, resPopc x)
  | .and x => some (x.d, x.ty.code, x.ty.code, resAnd x)
  | .or x => some (x.d, x.ty.code, x.ty.code, resOr x)
  | .xor x => some (x.d, x.ty.code, x.ty.code, resXor x)
  | .andn x => some (x.d, x.ty.code, x.ty.code, resAndn x)
  | .shl x => some (x.d, x.ty.code, x.ty.code, resShl x)
  | .shr x => some (x.d, x.ty.code, x.ty.code, resShr x)
  | .sar x => some (x.d, x.ty.code, x.ty.code, resSar x)
  | .fma x => some (x.d, x.ty.code, x.ty.code, resFma x)
  | .rcp x => some (x.d, x.ty.code, x.ty.code, resRcp x)
  | .rsq x => some (x.d, x.ty.code, x.ty.code, resRsq x)
  | .nrcp x => some (x.d, x.ty.code, x.ty.code, resNrcp x)
  | .nrsq x => some (x.d, x.ty.code, x.ty.code, resNrsq x)
  | .exp2 x => some (x.d, x.ty.code, x.ty.code, resExp2 x)
  | .log2 x => some (x.d, x.ty.code, x.ty.code, resLog2 x)
  | .tanh x => some (x.d, x.ty.code, x.ty.code, resTanh x)
  | .class x => some (x.d, fmtN32, fmtN32, resClass x)
  | .rnd x => some (x.d, x.ty.code, x.ty.code, resRnd x)
  | .cvt x => some (x.d, x.ty.code, x.ty.code, cvtRes x)
  | .pack x => some (x.d, x.ty.code, x.ty.code, packRes x)
  | .unpk x => some (x.d, x.ty.code, x.ty.code, unpkRes x)
  | .qdec x => some (x.d, x.ty.code, x.ty.code, qdecRes x)
  | .qenc x => some (x.d, x.ty.code, fmtN32, qencRes)
  | .bsq x => some (x.d, x.ty.code, fmtN32, bsqRes x)
  | .shfl x => some (x.d, x.ty.code, x.ty.code, shflRes x)
  | .lred x => some (x.d, x.ty.code, x.ty.code, lredRes x)
  | .lscn x => some (x.d, x.ty.code, x.ty.code, lscnRes x)
  | .lbct x => some (x.d, x.ty.code, x.ty.code, lbctRes x)
  | .selk d k _ => some (d, fmtN32, Fmt.f32.code, selkRes (k.toNat + 1))
  | _ => none

/-- What a firing that computes on lanes leaves: only its context differs, and there only its frames, its output buffer, its
counters and lists of firings, its stops and fpflags; of the tile only the generators. -/
def FiringFrame (s t : State) : Prop :=
  let c := t.here
  t = { s with ctxs := t.ctxs, tiles := t.tiles, draws := t.draws } ∧
  (∀ j, j ≠ s.focus.ctxId → t.ctx j = s.ctx j) ∧
  (∀ p, p ≠ s.focus.place → t.tile p = s.tile p) ∧
  t.tile s.focus.place = { s.tile s.focus.place with gens := (t.tile s.focus.place).gens } ∧
  c = { s.here with
    frames := c.frames, out := c.out, stops := c.stops, fpflags := c.fpflags, firings := c.firings, late := c.late, ack := c.ack
    inflight := c.inflight, resumes := c.resumes, ages := c.ages }

/-- The lane `y` that an element operation `f` of the word `x` gives for firing lane `j` (R312, R98): the empty policy decides it, or
each valid element is `f` of the elements of ports a and b and each invalid one is zero. -/
def LaneOf (x : XA) (o : Opnds) (f : Nat → Nat → Nat) (j : Nat) (y : Lane) : Prop :=
  match emptyPolicy x.empty (replLane x.ty (x.imm.extractLsb' 0 8)) (Opnds.lane o.a j) (Opnds.lane o.b j) (Opnds.lane o.c j) with
  | .decided l => y = l
  | .compute a b _ => ∃ v, y = some v ∧ ∀ e, e < x.ty.epl →
      elt (elemWidth x.ty) e v =
        if e < o.validAt x.ty.epl j then f (elt (elemWidth x.ty) e a) (elt (elemWidth x.ty) e b) else 0

/-- The firing completes with the run that `f` gives element by element, sent to both targets with port a's key and count, with
these flags and no draw (R34, R199, R312). -/
def Answers (i : Instr) (x : XA) (s : State) (f : Nat → Nat → Nat) (fl : FpFlags) : Prop :=
  ∃ r : Run, r.key = (operands s).key ∧ r.count = (operands s).count ∧ r.lanes.length = s.focus.k ∧
    (∀ j, j < s.focus.k → LaneOf x (operands s) f j (r.lanes.getD j none)) ∧
    exec i s = .next (completed s x.d x.ty.code x.ty.code ⟨r, r, fl, (operands s).gen⟩)

/-- The firing completes with an n32 run whose bit e of each lane that the empty policy leaves to compute tells whether `p` holds of
element e; bits of invalid elements, and of no element, are 0; no flag and no draw (R98, R331). -/
def AnswersBits (i : Instr) (x : XA) (s : State) (p : Nat → Nat → Prop) : Prop :=
  let o := operands s
  let bits (j : Nat) (y : Lane) : Prop :=
    match emptyPolicy x.empty (replLane x.ty (x.imm.extractLsb' 0 8)) (Opnds.lane o.a j) (Opnds.lane o.b j) (Opnds.lane o.c j) with
    | .decided l => y = l
    | .compute a b _ => ∃ v : W32, y = some v ∧ ∀ e, v.getLsbD e = true ↔
        e < x.ty.epl ∧ e < o.validAt x.ty.epl j ∧ p (elt (elemWidth x.ty) e a) (elt (elemWidth x.ty) e b)
  ∃ l : List Lane, l.length = s.focus.k ∧ (∀ j, j < s.focus.k → bits j (l.getD j none)) ∧
    exec i s = .next (completed s x.d fmtN32 fmtN32 ⟨⟨l, o.key, o.count⟩, ⟨l, o.key, o.count⟩, 0, o.gen⟩)

/-- Some element that the word computes is divided by zero. -/
def DividesByZero (x : XA) (o : Opnds) : Prop :=
  ∃ j, j < o.k ∧ ∃ a b c, emptyPolicy x.empty (replLane x.ty (x.imm.extractLsb' 0 8)) (Opnds.lane o.a j) (Opnds.lane o.b j)
      (Opnds.lane o.c j) = .compute a b c ∧ ∃ e, e < o.validAt x.ty.epl j ∧ elt (elemWidth x.ty) e b = 0

/-- A firing of one full f32 lane at port a and one at port b. -/
def F32Pair (s : State) (u v : W32) : Prop :=
  s.focus.k = 1 ∧ (operands s).a = [some u] ∧ (operands s).b = [some v] ∧ (operands s).c = []

/-- A firing of one full f32 lane at port a, the entry's only port. -/
def F32One (s : State) (u : W32) : Prop :=
  s.focus.k = 1 ∧ (operands s).a = [some u] ∧ (operands s).b = [] ∧ (operands s).c = []

def f32Nan (u : W32) : Prop := u.extractLsb' 23 8 = 0xFF ∧ u.extractLsb' 0 23 ≠ 0
def f32Signalling (u : W32) : Prop := f32Nan u ∧ u.getLsbD 22 = false

/-- The firing completes and sends one lane `v` to both targets, with these flags. -/
def AnswersLane (i : Instr) (x : XA) (s : State) (v : W32) (fl : FpFlags) : Prop :=
  exec i s = .next (completed s x.d x.ty.code x.ty.code
    ⟨⟨[some v], (operands s).key, (operands s).count⟩, ⟨[some v], (operands s).key, (operands s).count⟩, fl, (operands s).gen⟩)

/-- A firing of one full f32 lane at each of ports a, b and c. -/
def F32Three (s : State) (u v z : W32) : Prop :=
  s.focus.k = 1 ∧ (operands s).a = [some u] ∧ (operands s).b = [some v] ∧ (operands s).c = [some z]

def f32Finite (u : W32) : Prop := u.extractLsb' 23 8 ≠ 0xFF

/-- The value of a finite f32 word in units of 2^-149, the smallest subnormal (R39). -/
def f32Units (u : W32) : Int :=
  let t := (u.extractLsb' 0 23).toNat
  let e := (u.extractLsb' 23 8).toNat
  let m : Int := if e = 0 then t else (t + 2 ^ 23) * 2 ^ (e - 1)
  if u.getLsbD 31 then -m else m

/-- The same value in units of 2^-298, in which a product of two f32 values is whole. -/
def f32Fine (u : W32) : Int := f32Units u * 2 ^ 149

/-- The finite f32 word `w` is the exact value `n`, in units of 2^-298, rounded under a mode that makes no draw (R47, R48); it keeps the
sign of a value that is not zero. -/
def RoundsTo (mode : Rnd) (n : Int) (w : W32) : Prop :=
  let off (y : W32) : Nat := (f32Fine y - n).natAbs
  f32Finite w ∧ (n ≠ 0 → w.getLsbD 31 = decide (n < 0)) ∧
  match mode with
  | .rtz => (f32Fine w).natAbs ≤ n.natAbs ∧ ∀ y, f32Finite y → (f32Fine y).natAbs ≤ n.natAbs → (f32Fine y).natAbs ≤ (f32Fine w).natAbs
  | .rup => n ≤ f32Fine w ∧ ∀ y, f32Finite y → n ≤ f32Fine y → f32Fine w ≤ f32Fine y
  | .rdn => f32Fine w ≤ n ∧ ∀ y, f32Finite y → f32Fine y ≤ n → f32Fine y ≤ f32Fine w
  | .rna => ∀ y, f32Finite y → off w ≤ off y ∧ (off w = off y → (f32Fine y).natAbs ≤ (f32Fine w).natAbs)
  | .rne | .dyn => ∀ y, f32Finite y → off w ≤ off y ∧ (off w = off y → f32Fine y ≠ f32Fine w → w.getLsbD 0 = false)
  | .sto => False

/-- The firing answers one f32 lane: the exact value `n` rounded under its mode, with NX exactly when that moved it, and neither OF, DZ
nor IV (R48, R52). -/
def AnswersRounded (i : Instr) (x : XA) (s : State) (n : Int) : Prop :=
  ∃ w fl, AnswersLane i x s w fl ∧ RoundsTo (effRnd x.rnd (operands s).mode) n w ∧
    (fl.getLsbD 0 = true ↔ f32Fine w ≠ n) ∧ fl.getLsbD 2 = false ∧ fl.getLsbD 3 = false ∧ fl.getLsbD 4 = false

/-- The value of a class code of R329 for an f32 word. -/
def f32Class (u : W32) : Nat :=
  let e := (u.extractLsb' 23 8).toNat
  let t := (u.extractLsb' 0 23).toNat
  let neg := u.getLsbD 31
  if e = 255 then (if t = 0 then (if neg then 3 else 10) else if u.getLsbD 22 then 2 else 1)
  else if e = 0 then (if t = 0 then (if neg then 6 else 7) else if neg then 5 else 8)
  else if neg then 4 else 9

/-! ### Lanes that are moved, permuted and folded -/

/-- The firing completes and sends to TA lanes related by `f` to their numbers, to TB by `g`, each with this key and count, in format
`fm`, without a flag or a draw. -/
def SendsLanes (i : Instr) (s : State) (d : Dst) (fa fb : BitVec 4) (key : BitVec 12) (count : BitVec 4) (f g : Nat → Lane → Prop) :
    Prop :=
  ∃ la lb : List Lane, la.length = s.focus.k ∧ lb.length = s.focus.k ∧
    (∀ j, j < s.focus.k → f j (la.getD j none) ∧ g j (lb.getD j none)) ∧
    exec i s = .next (completed s d fa fb ⟨⟨la, key, count⟩, ⟨lb, key, count⟩, 0, (operands s).gen⟩)

/-- Lane `y` holds element by element what `f` gives. -/
def HoldsElements (ty : Fmt) (f : Nat → Nat) (y : Lane) : Prop :=
  ∃ v, y = some v ∧ ∀ e, e < ty.epl → elt (elemWidth ty) e v = f e

/-- Element `e` of lane `j` of port a: zero where R34 makes it invalid. -/
def shownElt (ty : Fmt) (o : Opnds) (j e : Nat) : Nat :=
  if e < o.validAt ty.epl j then elt (elemWidth ty) e ((Opnds.lane o.a j).getD 0) else 0

/-- Lane `j` takes part in a fold (R360). -/
def TakesPart (x : XA) (o : Opnds) (j : Nat) : Prop := Opnds.lane o.a j ≠ none ∨ x.empty = .zero

/-- The fold of element `e` over the first `n` lanes by an integer step, in ascending lane order (R360). -/
def foldOver (x : XA) (o : Opnds) (step : Nat → Nat → Nat) (e n : Nat) : Option Nat :=
  (List.range n).foldl (fun acc j =>
    if (Opnds.lane o.a j).isSome || x.empty == .zero then
      if e < o.validAt x.ty.epl j then
        let v := elt (elemWidth x.ty) e ((Opnds.lane o.a j).getD 0)
        some (match acc with
          | none => v
          | some a => step a v)
      else acc
    else acc) none

/-! ### Accesses to memory -/

/-- The flags of an access are OR'd into fpflags (R52). -/
def withFlags (s : State) (fl : FpFlags) : State := s.setHere { s.here with fpflags := s.here.fpflags ||| fl.zeroExtend 32 }

/-- Lane value `a` names, under the word `x`, the aligned scratchpad word at `off` of the issuing tile: within its size, in no armed
slot memory and not poisoned (R140, R159, R201). -/
def ScratchWord (s : State) (x : XM) (a : W32) (off : Nat) : Prop :=
  effAddr s x a % 4 = 0 ∧ isWindow (effAddr s x a) = true ∧ off = effAddr s x a % 2 ^ 21 ∧
  scratchOk s s.focus.place off = true ∧ (s.tile s.focus.place).poison.contains (off / 8) = false

/-- The word at an offset of the issuing tile's scratchpad, and the state with another word there. -/
def scratchWord (s : State) (off : Nat) : W32 := Memory.word32 (s.tile s.focus.place).scratch off

def scratchPut (s : State) (off : Nat) (v : W32) : State :=
  s.setTile s.focus.place
    { s.tile s.focus.place with scratch := Memory.put (s.tile s.focus.place).scratch off 4 v.toNat }

/-- The byte that the L2 holds for an address of an address space; none where it holds no line of it. -/
def l2Byte (s : State) (asid : BitVec 8) (va : Nat) : Option Byte :=
  (l2Find s asid (lineOf va)).map fun l => l.data.getD (va % 128) 0

/-- No fault has stopped the firing in focus before. -/
def FreshFiring (s : State) : Prop := ∀ r ∈ s.here.resumes, ¬ (r.1 = s.focus.ins ∧ r.2.1 = s.focus.frame)

/-- The firing in focus has stopped at a fault with this code and aux word: a record of it stands behind the others, marking its
frame, and its operands, the output buffer, every other context and what each tile holds are as they were (R7, R227, R228). -/
def StoppedFiring (s t : State) (code : BitVec 8) (aux : W64) : Prop :=
  (∃ y, t.here.stops = s.here.stops ++ [y] ∧ y.record.code = code ∧ y.record.aux = aux ∧ y.base = some s.focus.frame ∧
    y.record.index = BitVec.ofNat 12 s.focus.ins ∧ y.record.frame = BitVec.ofNat 12 s.focus.frame) ∧
  t.here.frames = s.here.frames ∧ t.here.out = s.here.out ∧ t.here.ack = s.here.ack ∧ t.here.firings = s.here.firings ∧
  t.tiles = s.tiles ∧ ∀ j, j ≠ s.focus.ctxId → t.ctx j = s.ctx j

/-- It has stopped so, and main memory and the L2 are as they were. -/
def StoppedAtFault (s t : State) (code : BitVec 8) (aux : W64) : Prop :=
  StoppedFiring s t code aux ∧ t.mem = s.mem ∧ t.l2 = s.l2

/-! ### Operator units -/

/-- Unit `u` at a place may take a token: configured, neither frozen nor stopped, held by no barrier (R175), no splice waits for it, its
stream has not ended, nothing it made waits, and no output of it holds a credit, so that what it makes now stays to be seen (R112, R220). -/
def UnitWaits (s : State) (place u : Nat) : Prop :=
  let o := s.unit (place * 64 + u)
  o.active = true ∧ o.frozen = false ∧ o.stopped = false ∧ sbarHolds s place u = false ∧ o.spliced = false ∧ o.ended = false ∧ o.out = [] ∧
  ∀ p c, unitOut s place u p = some c → canSend s c = false

/-- The unit has taken the head of input channel end `ch` and made these tokens; those of an output that is not bound go nowhere. -/
def UnitMade (s t : State) (place u ch : Nat) (made : List (Nat × Token)) : Prop :=
  (t.inc ch).queue = (s.inc ch).queue.tail ∧
  (t.unit (place * 64 + u)).out = made.filter fun e => (unitOut s place u e.1).isSome

end Sys2Proof.Machine
end

