-- ==== Sys2Proof/Certificates/Slice0/Obligations.lean ====
section
/-! DEFINITION. The statements for the provers, each the formal text of rules of spec/ or of a property of the model. -/

section
open Sys2Proof Sys2Proof.Machine

/-! ### Words and their decoding -/

/-- O1. Decode and encode agree: every well-formed grammar word (R60, R66) and every well-formed block instruction (R193, R199, R200,
R205) decodes from the word that encodes it, with each operand at every value that its encoding admits. -/
def Obligations.WordsRoundTrip : Prop :=
  (∀ (i : Instr) (w : W32), i.wf = true → encodeGrammar i = some w → decodeGrammar w = .ok i) ∧
  ∀ (i : Instr) (w : W64), i.wf = true → encodeBlock i = some w → decodeBlock w = .ok i

/-- O2. No bit of an accepted word is dropped, and what the decoders accept is well formed: the word encodes back. -/
def Obligations.AcceptedWordsEncodeBack : Prop :=
  (∀ (w : W32) (i : Instr), decodeGrammar w = .ok i → i.wf = true ∧ encodeGrammar i = some w) ∧
  ∀ (w : W64) (i : Instr), decodeBlock w = .ok i → i.wf = true ∧ encodeBlock i = some w

/-- O3. Words written out field by field from R66 and R193 to R205 decode to the instructions they stand for. -/
def Obligations.WordsDecodeAsTheSpecLaysThemOut : Prop :=
  -- GOP[31:27] MC[26:23] LV[22:20] AUX[19:16] LBL[15:0]
  decodeGrammar ((0x04 : BitVec 5) ++ (0 : BitVec 4) ++ (0 : BitVec 3) ++ (0 : BitVec 4) ++ (0x0123 : BitVec 16)) = .ok (.jmpn 0x123) ∧
  decodeGrammar ((0x01 : BitVec 5) ++ (5 : BitVec 4) ++ (0 : BitVec 3) ++ (0 : BitVec 4) ++ (0 : BitVec 16)) = .ok (.mtch (.one .eos)) ∧
  -- OP[63:56] TY[55:52] TA[51:41] TB[40:30] X[29:0]; X of the XA layout: rnd sat empty cond imm
  decodeBlock ((0x10 : BitVec 8) ++ (3 : BitVec 4) ++ Target.bits .nowhere ++ Target.bits .nowhere ++
    ((0 : BitVec 3) ++ (1 : BitVec 2) ++ (0 : BitVec 2) ++ (0 : BitVec 3) ++ (5 : BitVec 20))) =
    .ok (.add ⟨⟨.nowhere, .nowhere⟩, .n32, .rne, .clamp, .absorb, 0, 5⟩) ∧
  decodeBlock 0xFF00000000000000 = .error .opcode

/-! ### A step -/

/-- O4. A step runs the instruction that its turn names (log 2): the sequencer's word at the pc of the context it serves, or its
recovery loop; the element's block word; an event. Within a tick units act in ascending order of their source numbers: a unit that comes
after one with a higher number waits (R26). Around exec a step adds one thing: a turn whose access asked a slice for a slot that its
partition's capped allotment of nothing never gives (R145) is taken back, and its unit waits; every other outcome stands as exec gives
it. With an empty agenda the turn is the open one, Config.turn. -/
def Obligations.StepRunsTheDecodedInstruction : Prop :=
  (∀ (s : State) (rest : List Turn) (die tile c : Nat) (i : Instr), s.stage = 4 → die < 4 → tile < 144 →
    s.agenda = .sequencer die tile :: rest → s.acted ≤ (sourceNo die tile 16).toNat →
    let u := noteWaits { s with agenda := rest, acted := (sourceNo die tile 16).toNat } (placeOf die tile) 8
    sequencerPick u (placeOf die tile) = some c →
    (let v := serving u die tile c
     (if v.here.seq.recov then i = .recoveryDiscard
      else decodeGrammar (gmemAt v v.focus.place v.here.seq.pc.toNat) = .ok i) →
     step s = grantedOr { s with agenda := rest } (exec i v))) ∧
  (∀ (s : State) (rest : List Turn) (die tile e c ins f k : Nat) (i : Instr), s.stage = 4 → die < 4 → tile < 144 → e < 16 →
    s.agenda = .element die tile e :: rest → s.acted ≤ (sourceNo die tile e).toNat →
    let u := { s with agenda := rest, acted := (sourceNo die tile e).toNat }
    elementPick u (placeOf die tile) e = some (c, ins, f, k) →
    (let v := { u with focus := ⟨die, tile, c, ins, f, k⟩ }
     decodeBlock (Image.code v.here.image ins) = .ok i → step s = grantedOr { s with agenda := rest } (exec i v))) ∧
  (∀ (s : State) (rest : List Turn) (i : Instr), s.stage = 4 → s.agenda = .event i :: rest → isEvent i = true →
    (eventSource i = none → step s = grantedOr { s with agenda := rest } (exec i { s with agenda := rest })) ∧
    ∀ n, eventSource i = some n → s.acted ≤ n →
      step s = grantedOr { s with agenda := rest } (exec i { s with agenda := rest, acted := n })) ∧
  (∀ (s : State) (o : Out), (∀ t, o = .next t → ∀ e ∈ t.slices, e.2.refused = false) → grantedOr s o = o) ∧
  (∀ (s t : State) e, e ∈ t.slices → e.2.refused = true → grantedOr s (.next t) = .next s) ∧
  (∀ (s : State) (rest : List Turn) (turn : Turn) (n : Nat), s.agenda = turn :: rest → turnSource turn = some n → n < s.acted →
    step s = .next { s with agenda := rest }) ∧
  ∀ s : State, s.agenda = [] → step s = step { s with agenda := [Config.turn s.turns], turns := s.turns + 1 }

/-! ### Reset and the invariant -/

/-- O5. What reset leaves. As the spec gives it: stage 0 (R269), every location 0 (R180), of a partition part.ways 0xFFFF (R144), part.vcw
0x10101010 (R168) and an empty report queue (R266), an engine's running maxima −∞ and sums 0 (R247), generators at 0x9E3779B9 XOR their
source (R49), a context's fpmode 0 (R53), fpflags 0 (R52) and handler 0 (R229), every die's fabric clock at 2,250 MHz while no partition owns a tile
of it (R259). The model's choice (log 4): no partition is set up, no tile is owned, no context is configured and its prio is 0, almanac
time is 0, and nothing is on the agenda. -/
def Obligations.ResetLeavesTheStatedValues : Prop :=
  let s := State.reset
  s.stage = 0 ∧ s.almanac = 0 ∧ s.agenda = [] ∧ (∀ a, Memory.read s.mem a = 0) ∧
  (∀ p, (s.part p).live = false ∧ (s.part p).ways = 0xFFFF ∧ (s.part p).vcw = 0x10101010 ∧ (s.part p).prod = 0 ∧ (s.part p).cons = 0) ∧
  (∀ c, (s.ctx c).active = false ∧ (s.ctx c).prio = 0 ∧ (s.ctx c).fpmode = 0 ∧ (s.ctx c).fpflags = 0 ∧ (s.ctx c).handler = 0) ∧
  (∀ e r, (s.engine e).m.getD r 0xFF800000 = 0xFF800000 ∧ (s.engine e).l.getD r 0 = 0) ∧
  (∀ die, die < 4 → SMap.get 0 s.fabric die = 2250) ∧ s.owners = [] ∧
  ∀ p e, genOf s p e = 0x9E3779B9 ^^^ BitVec.ofNat 32 (sourceAt p e).toNat

/-- O6. The machine right after reset meets the invariant. -/
def Obligations.ResetMeetsTheInvariant : Prop := Invariant State.reset

/-- O7. Every step keeps the invariant: each memory stays in its canonical form, so that equal memories are equal data, host.state
holds a stage the spec names, and each die has its copy of almanac time. -/
def Obligations.EveryStepKeepsTheInvariant : Prop :=
  ∀ s t : State, Invariant s → step s = .next t → Invariant t

/-- O8. Memory reads back what was written, byte by byte and as little-endian words (R3), leaves every other byte alone, and is
determined by what its addresses read. -/
def Obligations.MemoryReadsBackWhatWasWritten : Prop :=
  (∀ (m : Memory) (a b : Nat) (v : Byte), Memory.read (Memory.write m a v) b = if b = a then v else Memory.read m b) ∧
  (∀ (m : Memory) (a : Nat) (v : W32), Memory.word32 (Memory.put m a 4 v.toNat) a = v) ∧
  (∀ (m : Memory) (a : Nat) (v : W64), Memory.word64 (Memory.put m a 8 v.toNat) a = v) ∧
  (∀ (m : Memory) (a n v b : Nat), b < a ∨ a + n ≤ b → Memory.read (Memory.put m a n v) b = Memory.read m b) ∧
  ∀ m m' : Memory, Memory.wf m → Memory.wf m' → (∀ a, Memory.read m a = Memory.read m' a) → m = m'

/-! ### The mark sequencer (R59 to R77) -/

/-- O9. MTCH and TAKE DROP complete where the lookahead meets them: it is consumed, a mark moves the ordinals by R64's table, and the pc
goes to the next word (R63, R64, R68). The branches complete and change the sequencer state alone: JMPN and a BRM that is met take the
label, one that is not met goes on, SWM takes its table's label (R67, R408), CALLN pushes the return pc without a recovery point, RETN
pops it, RCVR sets the recovery point of the top entry (R68, R387). Nothing else changes. -/
def Obligations.MatchesAndBranchesComplete : Prop :=
  ∀ s : State, let q := s.here.seq
    (∀ (tok : Token) (rest : List Token), (s.inc (leadEnd s)).queue = tok :: rest →
      (∀ m, SelMeets m tok → ∃ t, exec (.mtch m) s = .next t ∧
        Consumes s t tok rest { seqAfter q tok with pc := q.pc + 1 }) ∧
      (tok.isMark = false → ∃ t, exec .takeDrop s = .next t ∧ Consumes s t tok rest { q with pc := q.pc + 1 })) ∧
    (∀ l, exec (.jmpn l) s = .next (withSeq s { q with pc := l })) ∧
    (∀ tok rest m l, (s.inc (leadEnd s)).queue = tok :: rest →
      (LookMeets m tok → exec (.brm m l) s = .next (withSeq s { q with pc := l })) ∧
      (¬ LookMeets m tok → exec (.brm m l) s = .next (withSeq s { q with pc := q.pc + 1 }))) ∧
    (∀ tok rest l e, (s.inc (leadEnd s)).queue = tok :: rest →
      swmLabel (gmemAt s (servedPlace s)) l.toNat tok.cls = some e → exec (.swm l) s = .next (withSeq s { q with pc := e })) ∧
    (∀ l, q.stack.length ≠ 64 → exec (.calln l) s =
      .next (withSeq s { q with stack := { ret := q.pc + 1, rlbl := 0, rv := false, rlev := 0 } :: q.stack, pc := l })) ∧
    (∀ e b t, q.stack = e :: b :: t → exec .retn s = .next (withSeq s { q with stack := b :: t, pc := e.ret })) ∧
    ∀ v l e t, q.stack = e :: t → exec (.rcvr v l) s =
      .next (withSeq s { q with stack := { e with rv := decide (v ≠ .off), rlev := v.code, rlbl := l } :: t, pc := q.pc + 1 })

/-- O10. A TAKE that k frames can be allocated for delivers the first k lanes, lane m with ordinal o1 + m to the m-th new frame,
advances o1 and the lane count by k, and consumes the token with its last lane; a tail stays as the lookahead (R64, R68, R412). A run
without a non-empty lane has format word 0 (R31).
The premise on the frames ahead says that at most the carry frame stands there, with the port free (R91). -/
def Obligations.TakeDeliversItsLanes : Prop :=
  ∀ (s : State) (c : BitVec 3) (fn : BitVec 12) (fm : BitVec 4) (key : BitVec 12) (ct : BitVec 4) (lanes : List Lane)
    (rest : List Token) (i : BitVec 7) (p : Port) (k : Nat),
    let id := s.focus.ctxId
    let x := s.here
    (s.inc (leadEnd s)).queue = .data c fn fm key ct lanes :: rest → lanes.length ≤ 32 →
    (allocateUpTo s id x.seq lanes.length 0).2 = k → 0 < k →
    (∀ fr ∈ x.frames, fr.num < x.ahead ∨
      (fr.num = x.ahead ∧ fr.fired.getLsbD i.toNat = false ∧ ∀ y ∈ fr.slots, ¬ (y.ins = i.toNat ∧ y.port = p))) →
    ∃ t, exec (.take i p) s = .next t ∧
      t.here.ahead = x.ahead + k ∧ t.here.stops = x.stops ∧
      t.here.seq.o1 = x.seq.o1 + BitVec.ofNat 32 k ∧ t.here.seq.lanes = x.seq.lanes + BitVec.ofNat 32 k ∧
      t.here.seq.pc = (if k = lanes.length then x.seq.pc + 1 else x.seq.pc) ∧
      (t.inc (leadEnd s)).queue = (if k = lanes.length then rest else .data c fn fm key ct (lanes.drop k) :: rest) ∧
      ∀ m, m < k → ∃ fr, t.here.find (x.ahead + m) = some fr ∧
        fr.o1 = x.seq.o1 + BitVec.ofNat 32 m ∧ fr.o2 = x.seq.o2 ∧ fr.o3 = x.seq.o3 ∧ fr.o4 = x.seq.o4 ∧
        fr.depth = x.seq.stack.length - 1 ∧ fr.word = some x.seq.pc.toNat ∧
        ∃ y, slotAt fr i.toNat p = some y ∧ y.lane = lanes.getD m none ∧ y.key = key ∧ y.start = decide (m = 0) ∧
          y.fmt = (if (lanes.take k).all Option.isNone then 0 else fm)

/-- O11. FIRE allocates one frame with the ordinals as they stand and delivers to it one n32 lane, the named source, whose key is the
ordinal that its key field names; the pc goes to the next word and the lookahead stays (R64, R65, R68, R343). -/
def Obligations.FireDeliversOneLane : Prop :=
  ∀ (s : State) (src : FireSrc) (kf : BitVec 2) (i : BitVec 7) (p : Port),
    let id := s.focus.ctxId
    let x := s.here
    mayAllocate s (id / 8) (id % 8) (x.seq.stack.length - 1) = true →
    (∀ fr ∈ x.frames, fr.num < x.ahead ∨
      (fr.num = x.ahead ∧ fr.fired.getLsbD i.toNat = false ∧ ∀ y ∈ fr.slots, ¬ (y.ins = i.toNat ∧ y.port = p))) →
    ∃ t, exec (.fire src kf i p) s = .next t ∧
      t.here.ahead = x.ahead + 1 ∧ t.here.stops = x.stops ∧ t.here.seq = { x.seq with pc := x.seq.pc + 1, wait := none } ∧
      (∀ j, (t.inc j).queue = (s.inc j).queue) ∧ t.outs = s.outs ∧ t.mem = s.mem ∧ t.tiles = s.tiles ∧
      ∃ fr, t.here.find x.ahead = some fr ∧ fr.o1 = x.seq.o1 ∧ fr.o2 = x.seq.o2 ∧ fr.o3 = x.seq.o3 ∧ fr.o4 = x.seq.o4 ∧
        fr.depth = x.seq.stack.length - 1 ∧
        ∃ y, slotAt fr i.toNat p = some y ∧ y.fmt = 3 ∧ y.start = true ∧
          y.lane = some (match src with
            | .zero => 0 | .o1 => x.seq.o1 | .o2 => x.seq.o2 | .o3 => x.seq.o3 | .o4 => x.seq.o4
            | .lanes => x.seq.lanes | .dcnt => x.seq.dcnt | .mpay => (0 : BitVec 20) ++ x.seq.mpay) ∧
          y.key = ((if kf = 0 then x.seq.o1 else if kf = 1 then x.seq.o2 else if kf = 2 then x.seq.o3 else x.seq.o4).extractLsb' 0 12)

/-- O12. EMK puts one mark of its class behind every token of the frames allocated so far (R68, R77, R339); GWAIT passes once the
context that it names holds no frame allocated before it began, and waits until then (R348; a GWAIT that a restored context had begun goes by
what it had recorded, gwaitMark, R79); ACPT consumes EOS once and then accepts when every frame has committed, ACPT restart starts the
grammar again with the base entry alone (R68, R314). -/
def Obligations.EmitWaitAndAcceptComplete : Prop :=
  ∀ s : State, let q := s.here.seq
    (∀ m src ch, 0 < s.here.outRoom → ∃ t, exec (.emk m src ch) s = .next t ∧
      OnlyContext s t s.focus.ctxId ∧ t.here.seq = { q with pc := q.pc + 1 } ∧ t.here.frames = s.here.frames ∧
      ∃ e ∈ t.here.out, e.chan = ch.toNat ∧ e.base = s.here.ahead ∧ e.need = s.here.ahead ∧
        e.tok = .mark (BitVec.ofNat 3 (s.focus.ctxId % 8)) m (match src with
          | .zero => 0 | .o1 => q.o1.extractLsb' 0 12 | .o2 => q.o2.extractLsb' 0 12 | .o3 => q.o3.extractLsb' 0 12
          | .o4 => q.o4.extractLsb' 0 12 | .mpay => q.mpay)) ∧
    (∀ m : BitVec 3, let x := s.ctx (s.focus.ctxId / 8 * 8 + m.toNat)
      let begun := q.gwait.getD (x.launch, x.ahead)
      let passes := x.active = false ∨ x.live = 0 ∨ x.launch ≠ begun.1 ∨ begun.2 ≤ x.chead
      (q.goal = none →
        (passes → exec (.gwait m) s = .next (withSeq s { q with gwait := none, pc := q.pc + 1 })) ∧
        (¬ passes → exec (.gwait m) s = .next (withSeq s { q with gwait := some begun }))) ∧
      ∀ h, q.goal = some h →
        (placesLater s s.here.part s.here.launch (s.focus.ctxId / 8 * 8 + m.toNat) = true → exec (.gwait m) s = .next s) ∧
        (placesLater s s.here.part s.here.launch (s.focus.ctxId / 8 * 8 + m.toNat) = false →
          let kept := (s.here.launch, restoredNum x.chead x.ahead h)
          (x.active = false ∨ x.live = 0 ∨ x.launch ≠ kept.1 ∨ kept.2 ≤ x.chead →
            exec (.gwait m) s = .next (withSeq s { q with gwait := none, goal := none, pc := q.pc + 1 })) ∧
          (¬ (x.active = false ∨ x.live = 0 ∨ x.launch ≠ kept.1 ∨ kept.2 ≤ x.chead) →
            exec (.gwait m) s = .next (withSeq s { q with gwait := some kept, goal := none })))) ∧
    (∀ c pay rest, (s.inc (leadEnd s)).queue = .mark c .eos pay :: rest → q.closing = false →
      (∃ t, exec .acpt s = .next t ∧ (t.inc (leadEnd s)).queue = rest ∧
        (s.here.chead ≠ s.here.ahead → t.here.seq.closing = true ∧ t.here.seq.run = q.run) ∧
        (s.here.chead = s.here.ahead → t.here.seq.run = .accepted)) ∧
      ∀ l, ∃ t, exec (.acptRestart l) s = .next t ∧ (t.inc (leadEnd s)).queue = rest ∧
        t.here.seq = { seqAfter q (.mark c .eos pay) with stack := [{}], pc := l }) ∧
    (q.closing = true → s.here.chead = s.here.ahead → ∃ t, exec .acpt s = .next t ∧ t.here.seq.run = .accepted)

/-- O13. A mismatch with no recovery point on the stack, a call at depth 63 and a return at depth 0 stop the sequencer with a GRAMMAR
record whose detail holds the depth, the lookahead's class, the MC field and the reason (R72, R74). GTRAP stops it with a SOFTWARE record:
index is the pc, frame the next frame the context would allocate, aux the lookahead's header or 0, detail the code; it consumes nothing
(R347). Nothing else changes. -/
def Obligations.GrammarFaultsStopTheSequencer : Prop :=
  ∀ (s : State) (i : Instr),
    let detail (lcls mc : BitVec 4) (r : Nat) : W64 :=
      (0 : BitVec 42) ++ BitVec.ofNat 6 (s.here.seq.stack.length - 1) ++ lcls ++ mc ++ BitVec.ofNat 8 r
    (∀ tok rest r mc, (s.inc (leadEnd s)).queue = tok :: rest → mismatchOf s tok i = some (r, mc) →
      (∀ e ∈ s.here.seq.stack, e.rv = false) →
      exec i s = .next (stoppedWith s (sequencerStop s codeGrammar (detail tok.cls mc r) r))) ∧
    (∀ tok rest l, (s.inc (leadEnd s)).queue = tok :: rest → s.here.seq.stack.length = 64 →
      exec (.calln l) s = .next (stoppedWith s (sequencerStop s codeGrammar (detail tok.cls 0 5) 5))) ∧
    (∀ tok rest, (s.inc (leadEnd s)).queue = tok :: rest → s.here.seq.stack.length = 1 →
      exec .retn s = .next (stoppedWith s (sequencerStop s codeGrammar (detail tok.cls 0 6) 6))) ∧
    ∀ code : BitVec 12,
      exec (.gtrap code) s = .next (stoppedWith s (sequencerStop s codeSoftware ((0 : BitVec 52) ++ code) 0))

/-- O14. With a recovery point on the stack a mismatch drops the entries above it, clears dcnt and discards its first token at once;
each turn of the loop counts and consumes one token, and a mark of the recovery level or above ends it at the recovery label
(R72). -/
def Obligations.RecoveryDiscardsToItsLevel : Prop :=
  (∀ (s : State) (i : Instr) tok rest r mc above e below, (s.inc (leadEnd s)).queue = tok :: rest →
    mismatchOf s tok i = some (r, mc) → s.here.seq.stack = above ++ e :: below → (∀ x ∈ above, x.rv = false) → e.rv = true →
    exec i s = exec .recoveryDiscard (withSeq s { s.here.seq with stack := e :: below, dcnt := 0, recov := true })) ∧
  ∀ (s : State) tok rest e below, (s.inc (leadEnd s)).queue = tok :: rest → s.here.seq.recov = true →
    s.here.seq.stack = e :: below → s.here.seq.dcnt ≠ 0xFFFFFFFF →
    ∃ t, exec .recoveryDiscard s = .next t ∧
      let q := seqAfter { s.here.seq with dcnt := s.here.seq.dcnt + 1 } tok
      let ends := match tok with
        | .mark _ c _ => e.rlev.toNat ≤ markLevel c
        | .data _ _ _ _ _ _ => False
      (ends → Consumes s t tok rest { q with recov := false, pc := e.rlbl }) ∧ (¬ ends → Consumes s t tok rest q)

/-! ### Firings of the elements (R97 to R107, R312) -/

/-- O15. The moves send the lanes that their entries give, with the key and count they name, unchanged bit by bit, without a flag or a
draw: FAN (R341), STEER and MERGE (R100, R406, R367), MASK (R363), FILL (R342), MOVI (R368), and TAGR, the value recorded for each lane's
frame (R64, R411). -/
def Obligations.MovesSendTheirLanes : Prop :=
  ∀ (x : XA) (s : State),
    let o := operands s
    let fm := x.ty.code
    let a (j : Nat) : Lane := Opnds.lane o.a j
    let b (j : Nat) : Lane := Opnds.lane o.b j
    let fan (j : Nat) (y : Lane) : Prop := y = match a j with
      | some v => some v
      | none => match x.empty with
        | .absorb | .forward => none
        | .zero => some 0
        | .imm => some (replLane x.ty (x.imm.extractLsb' 0 8))
    let side (c : W32 → Bool) (j : Nat) (y : Lane) : Prop := y = match a j, b j with
      | some v, some p => if c p then some v else none
      | _, _ => none
    let merged (j : Nat) (y : Lane) : Prop := y = match a j with
      | some v => some v
      | none => b j
    let filled (j : Nat) (y : Lane) : Prop := match a j with
      | none => y = b j
      | some v => HoldsElements x.ty (fun e =>
          if e < o.validAt x.ty.epl j then elt (elemWidth x.ty) e v else elt (elemWidth x.ty) e ((b j).getD 0)) y
    let tag (j : Nat) (y : Lane) : Prop := ∀ fr, a j ≠ none → b j ≠ none → Opnds.lane o.c j ≠ none →
      s.here.find (s.focus.frame + j) = some fr →
      y = some (match x.cond.toNat with
        | 0 => fr.o1
        | 1 => fr.o2
        | 2 => fr.o3
        | 3 => fr.o4
        | 4 => BitVec.ofNat 32 ((s.focus.frame + j) % 4096)
        | 5 => BitVec.ofNat 32 fr.depth
        | 6 => o.key.zeroExtend 32
        | _ => o.count.zeroExtend 32)
    SendsLanes (.fan x) s x.d fm fm o.key o.count fan fan ∧
    SendsLanes (.steer x) s x.d fm fm o.key o.count (side fun p => p ≠ 0) (side fun p => p = 0) ∧
    SendsLanes (.merge x) s x.d fm fm (if o.a.any Option.isSome then o.key else o.keyB)
      (if o.a.any Option.isSome then o.count else o.countB) merged merged ∧
    SendsLanes (.mask x) s x.d fm fm o.key o.count (side fun p => p ≠ 0 ↔ x.cond = 0) (side fun p => p ≠ 0 ↔ x.cond = 0) ∧
    SendsLanes (.fill x) s x.d fm fm o.key 0 filled filled ∧
    SendsLanes (.tagr x) s x.d fm fm o.key o.count tag tag ∧
    ∀ (d : Dst) (ty : Fmt) (v : MoviVal),
      let const : W32 := match v with
        | .pool i => o.consts.getD i.toNat 0
        | .imm n => if ty = .f32 then n ++ (0 : BitVec 3) else n.signExtend 32
      let moved (j : Nat) (y : Lane) : Prop := y = (a j).map fun _ => const
      SendsLanes (.movi d ty v) s d ty.code ty.code o.key 0 moved moved

/-- O16. The lane instructions over a group, with lane 0's key and count 0, an invalid element moving as zero: LBCT (R357), SHFL in its
five modes (R398), LRED and LSCN on integer types, folded element by element in ascending lane order (R360, R361), SELK with its choices
in race order (R124, R397); and PACK and UNPK (R379, R421). None raises a flag or takes a draw. -/
def Obligations.LaneInstructionsSendTheirLanes : Prop :=
  ∀ (x : XA) (s : State),
    let o := operands s
    let fm := x.ty.code
    let w := elemWidth x.ty
    let h := x.ty.epl / 2
    let k := s.focus.k
    let d := (x.imm.extractLsb' 8 5).toNat
    let a (j : Nat) : Lane := Opnds.lane o.a j
    let b (j : Nat) : Lane := Opnds.lane o.b j
    let hole : Lane := if x.empty = .zero then some 0 else none
    let copied (q : Nat) (y : Lane) : Prop :=
      (a q = none → y = hole) ∧ (a q ≠ none → HoldsElements x.ty (shownElt x.ty o q) y)
    let shuffled (j : Nat) (y : Lane) : Prop := match x.cond.toNat with
      | 0 => match b j with
        | none => y = hole
        | some v => if v.toNat % 32 < k then copied (v.toNat % 32) y else y = none
      | 1 => copied (j ^^^ d) y
      | 2 => if j < d then y = none else copied (j - d) y
      | 3 => if j + d < k then copied (j + d) y else y = none
      | _ => copied ((j + k - d) % k) y
    let val (v : Nat) : Int := if Fmt.signed x.ty then (BitVec.ofNat w v).toInt else v
    let least : Int := if Fmt.signed x.ty then -(2 ^ (w - 1)) else 0
    let most : Int := if Fmt.signed x.ty then 2 ^ (w - 1) - 1 else 2 ^ w - 1
    let sat (n : Int) : Nat :=
      (BitVec.ofInt w (if x.sat = .off then n else if n < least then least else if most < n then most else n)).toNat
    let stepOf (u v : Nat) : Nat := match x.cond.toNat with
      | 0 => sat (val u + val v)
      | 1 => if val u < val v then u else v
      | 2 => if val u < val v then v else u
      | 3 => u &&& v
      | 4 => u ||| v
      | _ => u ^^^ v
    let total (_ : Nat) (y : Lane) : Prop :=
      ((∃ q, q < k ∧ TakesPart x o q) → HoldsElements x.ty (fun e => (foldOver x o stepOf e k).getD 0) y) ∧
      ((¬ ∃ q, q < k ∧ TakesPart x o q) → y = none)
    let running (j : Nat) (y : Lane) : Prop :=
      (TakesPart x o j → HoldsElements x.ty (fun e => (foldOver x o stepOf e (j + 1)).getD 0) y) ∧ (¬ TakesPart x o j → y = none)
    let place (e : Nat) : Nat := match x.cond.toNat with
      | 0 => e
      | 1 => h + e
      | 2 => 2 * e
      | _ => 2 * e + 1
    let packed (j : Nat) (y : Lane) : Prop := ∀ v, a j ≠ none → b j = some v → Opnds.lane o.c j ≠ none →
      HoldsElements x.ty (fun p => if p < h then shownElt x.ty o j (place p) else elt w (place (p - h)) v) y
    let unpacked (base j : Nat) (y : Lane) : Prop := a j ≠ none → b j ≠ none → Opnds.lane o.c j ≠ none →
      (o.validAt x.ty.epl j ≤ base → y = none) ∧
      (base < o.validAt x.ty.epl j → ∃ v, y = some v ∧ (∀ e, e < h → elt w (place e) v = shownElt x.ty o j (base + e)) ∧
        ∀ p, p < x.ty.epl → (∀ e, e < h → place e ≠ p) → elt w p v = 0)
    SendsLanes (.lbct x) s x.d fm fm o.key 0 (fun _ => copied d) (fun _ => copied d) ∧
    (x.cond.toNat ≤ 4 → SendsLanes (.shfl x) s x.d fm fm o.key 0 shuffled shuffled) ∧
    (x.ty.isInt = true → x.cond.toNat ≤ 5 →
      SendsLanes (.lred x) s x.d fm fm o.key 0 total total ∧ SendsLanes (.lscn x) s x.d fm fm o.key 0 running running) ∧
    (x.cond.toNat ≤ 3 → 2 ≤ x.ty.epl →
      SendsLanes (.pack x) s x.d fm fm o.key 0 packed packed ∧ SendsLanes (.unpk x) s x.d fm fm o.key 0 (unpacked 0) (unpacked h)) ∧
    ∀ (dst : Dst) (n : BitVec 6) (gsz : BitVec 3),
      let before (i j : Nat) : Prop := raceDelay ((a i).getD 0) < raceDelay ((a j).getD 0) ∨
        (raceDelay ((a i).getD 0) = raceDelay ((a j).getD 0) ∧ i < j)
      let live (i : Nat) : Prop := i < k ∧ ∃ v, a i = some v ∧ ¬ f32Nan v
      ∃ ch : List Nat, ch.length ≤ n.toNat + 1 ∧ ch.Nodup ∧ (∀ i ∈ ch, live i) ∧ ch.Pairwise before ∧
        (∀ i, live i → i ∉ ch → ch.length = n.toNat + 1 ∧ ∀ j ∈ ch, before j i) ∧
        SendsLanes (.selk dst n gsz) s dst fmtN32 Fmt.f32.code o.key 0
          (fun m y => y = match ch[m]? with
            | some i => some (BitVec.ofNat 32 i)
            | none => if m < n.toNat + 1 then some 0x80000000 else none)
          (fun m y => y = (ch[m]?).bind a)

/-- O17. One rounding: for finite f32 operands whose exact result lies within the format, ADD, SUB, MUL and FMA in its four forms answer
the exact sum, difference, product or fused sum rounded under the word's mode, which is not sto, with NX exactly where that moved it; CVT
of a 32-bit integer answers it rounded, and an exact zero sum of operands of opposite sign is −0 under rdn and else +0 (R47, R48, R51,
R315, R334, R344, R370, R407). Values stand in whole units of 2^-298. -/
def Obligations.F32ResultsAreRoundedOnce : Prop :=
  ∀ (x : XA) (s : State) (u v z : W32), x.ty = .f32 → x.empty = .absorb → trapEnables s.here.fpmode = 0 →
    effRnd x.rnd (operands s).mode ≠ .sto →
    let inRange (n : Int) : Prop := n.natAbs ≤ (f32Fine 0x7F7FFFFF).natAbs
    (F32Pair s u v → f32Finite u → f32Finite v →
      (inRange (f32Fine u + f32Fine v) → AnswersRounded (.add x) x s (f32Fine u + f32Fine v)) ∧
      (inRange (f32Fine u - f32Fine v) → AnswersRounded (.sub x) x s (f32Fine u - f32Fine v)) ∧
      (inRange (f32Units u * f32Units v) → AnswersRounded (.mul x) x s (f32Units u * f32Units v)) ∧
      (v = u ^^^ 0x80000000 →
        AnswersLane (.add x) x s (if effRnd x.rnd (operands s).mode = .rdn then 0x80000000 else 0) 0)) ∧
    (F32Three s u v z → f32Finite u → f32Finite v → f32Finite z → x.cond.toNat ≤ 3 →
      let n : Int := (if x.cond = 2 ∨ x.cond = 3 then -(f32Units u * f32Units v) else f32Units u * f32Units v) +
        (if x.cond = 1 ∨ x.cond = 3 then -f32Fine z else f32Fine z)
      inRange n → AnswersRounded (.fma x) x s n) ∧
    ∀ src, cvtSource x.imm = some src → src = .i32 ∨ src = .n32 → F32One s u → x.cond = 0 →
      let n : Int := (if src = .i32 then u.toInt else u.toNat) * 2 ^ 298
      ∃ w fl, exec (.cvt x) s = .next (completed s x.d x.ty.code x.ty.code
          ⟨⟨[some w], (operands s).key, 0⟩, ⟨[some w], (operands s).key, 0⟩, fl, (operands s).gen⟩) ∧
        RoundsTo (effRnd x.rnd (operands s).mode) n w ∧ (fl.getLsbD 0 = true ↔ f32Fine w ≠ n)

/-- O18. Every instruction that computes on lanes completes, unless its flags trap: flags noted, operands consumed, and the results
that its operands give sent to TA and TB in the entry's formats (R88, R199, R312). -/
def Obligations.ComputingFiringsComplete : Prop :=
  ∀ (i : Instr) (s : State) (d : Dst) (fa fb : BitVec 4) (f : Opnds → Res), computes i = some (d, fa, fb, f) →
    (trapEnables s.here.fpmode &&& (f (operands s)).flags) = 0 → exec i s = .next (completed s d fa fb (f (operands s)))

/-- O19. The frame of those firings, trapped or not, and of NOP, DROP, HGET, and EMIT: only the context's frames, output buffer,
firing lists, counters, stops and fpflags change, and the tile's generators; every other context, channel, register, unit and every
byte of memory and scratchpad stay. -/
def Obligations.ComputingFiringsLeaveTheRest : Prop :=
  ∀ (i : Instr) (s t : State),
    ((computes i).isSome ∨ i = .drop ∨ (∃ d, i = .nop d) ∨ (∃ d ty r x l, i = .hget d ty r x l) ∨ (∃ d c p y, i = .emit d c p y)) →
    exec i s = .next t → FiringFrame s t

/-- O20. A completed firing is counted, and in each of its frames its fired bit is set and none of its operands remains (R88). -/
def Obligations.FiringConsumesItsOperands : Prop :=
  ∀ (i : Instr) (s t : State) (d : Dst) (fa fb : BitVec 4) (f : Opnds → Res), computes i = some (d, fa, fb, f) →
    (trapEnables s.here.fpmode &&& (f (operands s)).flags) = 0 → s.focus.ins < 128 → exec i s = .next t →
    t.here.firings = s.here.firings + 1 ∧
    ∀ n fr, s.focus.frame ≤ n → n < s.focus.frame + s.focus.k → n < s.here.ahead → s.here.find n = some fr →
      ∃ fr', t.here.find n = some fr' ∧ fr'.fired.getLsbD s.focus.ins = true ∧ ∀ y ∈ fr'.slots, y.ins ≠ s.focus.ins

/-- O21. A result for TA or for TB at a port, of the same frame or of the next: lane m goes to the m-th frame, where the port is free and
the target has not fired, with format word 0 where the run has no non-empty lane (R31); where it is not free, and at the firing
instruction's own port in a frame of the firing, which has fired, the frame is poisoned and a DUPLICATE stands (R87, R88, R106). -/
def Obligations.ResultLanesReachTheirFrames : Prop :=
  ∀ (i : Instr) (s t : State) (d : Dst) (fa fb : BitVec 4) (f : Opnds → Res) (tb next : Bool) (j : BitVec 7) (p : Port),
    computes i = some (d, fa, fb, f) → (trapEnables s.here.fpmode &&& (f (operands s)).flags) = 0 →
    let goal : Target := if next then .next j p else .same j p
    let r : Run := if tb then (f (operands s)).tb else (f (operands s)).ta
    d = (if tb then ⟨.nowhere, goal⟩ else ⟨goal, .nowhere⟩) →
    s.focus.frame + s.focus.k ≤ s.here.ahead → exec i s = .next t →
    ∀ m fr, m < s.focus.k → m < r.lanes.length →
      let n := s.focus.frame + (if next then 1 else 0) + m
      s.here.find n = some fr →
      let taken : Prop := slotAt fr j.toNat p ≠ none ∨ fr.fired.getLsbD j.toNat = true ∨
        (j.toNat = s.focus.ins ∧ n < s.focus.frame + s.focus.k)
      ∃ fr', t.here.find n = some fr' ∧
        (¬ taken →
          ∃ y, slotAt fr' j.toNat p = some y ∧ y.lane = r.lanes.getD m none ∧
            y.fmt = (if (r.lanes.take s.focus.k).all Option.isNone then 0 else if tb then fb else fa) ∧
            y.key = r.key ∧ y.start = decide (m = 0) ∧ fr'.poisoned = fr.poisoned) ∧
        (taken → fr'.poisoned = true ∧ ∃ x ∈ t.here.stops, x.record.code = 4 ∧ x.record.index = BitVec.ofNat 12 j.toNat)

/-- O22. A result for TA or for TB at an output channel waits in the output buffer as one token behind the frames of its firing (R103);
a result for SEQ adds its non-empty lanes to the acknowledge count (R86, R357); a result for no target is discarded. -/
def Obligations.ResultsLeaveByChannelOrCount : Prop :=
  ∀ (i : Instr) (s t : State) (d : Dst) (fa fb : BitVec 4) (f : Opnds → Res) (tb : Bool) (goal : Target),
    computes i = some (d, fa, fb, f) → (trapEnables s.here.fpmode &&& (f (operands s)).flags) = 0 →
    d = (if tb then ⟨.nowhere, goal⟩ else ⟨goal, .nowhere⟩) →
    s.focus.frame + s.focus.k ≤ s.here.ahead → exec i s = .next t →
    let r : Run := if tb then (f (operands s)).tb else (f (operands s)).ta
    (∀ ch, goal = .chan ch → t.here.out.length = s.here.out.length + 1 ∧ (∀ x ∈ s.here.out, x ∈ t.here.out) ∧
      (⟨ch.toNat, s.focus.frame, s.focus.ins + 1, tb, s.focus.frame + s.focus.k,
        Token.make (BitVec.ofNat 3 s.focus.ctx) (BitVec.ofNat 12 s.focus.frame) (if tb then fb else fa) r.key r.count
          (r.lanes.take s.focus.k), false⟩ : OutEntry) ∈ t.here.out) ∧
    (goal = .seq → t.here.ack = s.here.ack + BitVec.ofNat 32 ((r.lanes.take s.focus.k).filter Option.isSome).length ∧
      t.here.out = s.here.out) ∧
    (goal = .nowhere → t.here.ack = s.here.ack ∧ t.here.out = s.here.out ∧ t.here.stops = s.here.stops)

/-- O23. A firing that raises a flag whose trap enable is set ORs all its flags into fpflags, sends no result, keeps its operands and
stops at FPTRAP, its flags in the detail word (R54, R227). Of a firing over several frames the record and the mark name the base frame: R54
and R227 do not say which, and the model's reading is log 33 (DEDUCED). -/
def Obligations.FpTrapSendsNoResult : Prop :=
  ∀ (i : Instr) (s : State) (d : Dst) (fa fb : BitVec 4) (f : Opnds → Res), computes i = some (d, fa, fb, f) →
    (trapEnables s.here.fpmode &&& (f (operands s)).flags) ≠ 0 →
    ∃ t x, exec i s = .next t ∧ t.here.fpflags = s.here.fpflags ||| (f (operands s)).flags.zeroExtend 32 ∧
      t.here.frames = s.here.frames ∧ t.here.out = s.here.out ∧ t.here.ack = s.here.ack ∧ t.here.firings = s.here.firings ∧
      t.here.stops = s.here.stops ++ [x] ∧ x.record.code = 0x0E ∧ x.record.detail = (f (operands s)).flags.zeroExtend 64 ∧
      x.record.index = BitVec.ofNat 12 s.focus.ins ∧ x.record.frame = BitVec.ofNat 12 s.focus.frame ∧ x.base = some s.focus.frame

/-- O24. CLZ gives the number of leading zero bits of each valid element, the width for 0; POPC its number of set bits; neither
raises a flag or takes a fault (R330, R380). -/
def Obligations.ClzAndPopcCountBits : Prop :=
  ∀ (x : XA) (s : State), x.ty.isInt = true →
    let w := elemWidth x.ty
    (∀ clz : Nat → Nat, (∀ v, v < 2 ^ w → clz v ≤ w ∧ (∀ q, w - clz v ≤ q → v.testBit q = false) ∧
        (clz v < w → v.testBit (w - 1 - clz v) = true)) →
      Answers (.clz x) x s (fun v _ => clz v) 0) ∧
    Answers (.popc x) x s (fun v _ => ((List.range w).filter fun q => v.testBit q).length) 0

/-- O25. The shifts: each element of port b, unsigned and not reduced, is the count; SHL and SHR bring in zeros whatever the
signedness and give 0 from the width on, SAR brings in copies of the top bit; no flag and no fault (R394). -/
def Obligations.ShiftsTakeTheWholeCount : Prop :=
  ∀ (x : XA) (s : State), x.ty.isInt = true →
    let w := elemWidth x.ty
    Answers (.shl x) x s (fun v c => (BitVec.ofNat w v <<< c).toNat) 0 ∧
    Answers (.shr x) x s (fun v c => (BitVec.ofNat w v >>> c).toNat) 0 ∧
    Answers (.sar x) x s (fun v c => ((BitVec.ofNat w v).sshiftRight c).toNat) 0

/-- O26. MULH gives the floor of the exact product over 2^w; DIV the quotient rounded toward zero and REM its remainder, with the
cases of a zero divisor and of the signed minimum by −1; a zero divisor raises DZ, and with teDZ set the firing reaches FPTRAP and
sends no result (R371, R336, R388). -/
def Obligations.HighProductQuotientAndRemainder : Prop :=
  ∀ (x : XA) (s : State), x.ty.isInt = true →
    let w := elemWidth x.ty
    let val (v : Nat) : Int := if Fmt.signed x.ty then (BitVec.ofNat w v).toInt else v
    let bits (k : Int) : Nat := (BitVec.ofInt w k).toNat
    let least : Int := if Fmt.signed x.ty then -(2 ^ (w - 1)) else 0
    let most : Int := if Fmt.signed x.ty then 2 ^ (w - 1) - 1 else 2 ^ w - 1
    let quotient (a b : Nat) : Nat :=
      if val b = 0 then (if val a < 0 then bits least else bits most)
      else if val a = least ∧ val b = -1 ∧ x.sat ≠ .off then bits most else bits ((val a).tdiv (val b))
    let remainder (a b : Nat) : Nat := if val b = 0 then a else bits (val a - val b * (val a).tdiv (val b))
    Answers (.mulh x) x s (fun a b => bits ((val a * val b).fdiv (2 ^ w))) 0 ∧
    (¬ DividesByZero x (operands s) → Answers (.div x) x s quotient 0 ∧ Answers (.rem x) x s remainder 0) ∧
    (DividesByZero x (operands s) → (trapEnables s.here.fpmode).getLsbD 3 = false →
      Answers (.div x) x s quotient flagDZ ∧ Answers (.rem x) x s remainder flagDZ) ∧
    (DividesByZero x (operands s) → (trapEnables s.here.fpmode).getLsbD 3 = true →
      ∀ i, i = .div x ∨ i = .rem x → ∃ t y, exec i s = .next t ∧ t.here.stops = s.here.stops ++ [y] ∧ y.record.code = 0x0E ∧
        t.here.frames = s.here.frames ∧ t.here.out = s.here.out ∧ t.here.fpflags = s.here.fpflags ||| flagDZ.zeroExtend 32)

/-- O27. The other integer operations element by element: sums, differences and products wrap under sat 0 and clamp under sat 1 and
2, ABS and NEG likewise, MIN and MAX give an operand in the type's order, the logic operations act bitwise, and CMP sets bit e of an n32
result where element e satisfies its condition; none raises a flag (R50, R312, R313, R315, R316, R331, R364, R370, R372, R378, R407,
R430). -/
def Obligations.IntegerArithmeticIsExactThenNarrowed : Prop :=
  ∀ (x : XA) (s : State), x.ty.isInt = true →
    let w := elemWidth x.ty
    let val (v : Nat) : Int := if Fmt.signed x.ty then (BitVec.ofNat w v).toInt else v
    let least : Int := if Fmt.signed x.ty then -(2 ^ (w - 1)) else 0
    let most : Int := if Fmt.signed x.ty then 2 ^ (w - 1) - 1 else 2 ^ w - 1
    let sat (k : Int) : Nat :=
      (BitVec.ofInt w (if x.sat = .off then k else if k < least then least else if most < k then most else k)).toNat
    Answers (.add x) x s (fun a b => sat (val a + val b)) 0 ∧ Answers (.sub x) x s (fun a b => sat (val a - val b)) 0 ∧
    Answers (.mul x) x s (fun a b => sat (val a * val b)) 0 ∧ Answers (.neg x) x s (fun a _ => sat (-val a)) 0 ∧
    Answers (.abs x) x s (fun a _ => sat (if val a < 0 then -val a else val a)) 0 ∧
    Answers (.min x) x s (fun a b => if val b < val a then b else a) 0 ∧
    Answers (.max x) x s (fun a b => if val a < val b then b else a) 0 ∧
    Answers (.and x) x s (fun a b => a &&& b) 0 ∧ Answers (.or x) x s (fun a b => a ||| b) 0 ∧
    Answers (.xor x) x s (fun a b => a ^^^ b) 0 ∧
    Answers (.andn x) x s (fun a b => (BitVec.ofNat w a &&& ~~~ BitVec.ofNat w b).toNat) 0 ∧
    (x.cond.toNat ≤ 5 → AnswersBits (.cmp x) x s fun a b => match x.cond.toNat with
      | 0 => val a = val b
      | 1 => val a ≠ val b
      | 2 => val a < val b
      | 3 => val a ≤ val b
      | 4 => val b < val a
      | _ => val b ≤ val a)

/-- O28. The f32 special cases: a NaN operand of ADD, SUB, MUL, MIN or MAX gives the canonical NaN, +0 under sat 2, with IV exactly
when an operand is signalling; ∞ − ∞ and 0 × ∞ give it with IV; NEG and ABS change the sign bit of a number alone, a number being
finite or, except under sat 2, infinite (R40, R52, R312, R313, R372). The special cases of RCP and RSQ (R386), of EXP2 and LOG2 with the
exact powers of two (R340) and of TANH (R414), and CLASS (R329). No trap is enabled. That a NaN or an infinity takes no draw under sto
either is log 34 (DEDUCED); the exact finite cases are stated for the other modes. -/
def Obligations.F32SpecialCases : Prop :=
  ∀ (x : XA) (s : State) (u v : W32), x.ty = .f32 → x.empty = .absorb → trapEnables s.here.fpmode = 0 →
    let nan : W32 := if x.sat = .finite then 0 else 0x7FC00000
    let infinite : W32 := if x.sat = .finite then 0x7F7FFFFF else 0x7F800000
    let signOf : W32 := u &&& 0x80000000
    (F32Pair s u v →
      (f32Nan u ∨ f32Nan v → ∀ i, i ∈ [Instr.add x, .sub x, .mul x, .min x, .max x] →
        (f32Signalling u ∨ f32Signalling v → AnswersLane i x s nan flagIV) ∧
        (¬ (f32Signalling u ∨ f32Signalling v) → AnswersLane i x s nan 0)) ∧
      (u.extractLsb' 0 31 = 0x7F800000 → v.extractLsb' 0 31 = 0x7F800000 →
        (u.getLsbD 31 ≠ v.getLsbD 31 → AnswersLane (.add x) x s nan flagIV) ∧
        (u.getLsbD 31 = v.getLsbD 31 → AnswersLane (.sub x) x s nan flagIV)) ∧
      (u.extractLsb' 0 31 = 0 → v.extractLsb' 0 31 = 0x7F800000 → AnswersLane (.mul x) x s nan flagIV)) ∧
    (F32One s u →
      (u.extractLsb' 23 8 ≠ 0xFF ∨ (u.extractLsb' 0 31 = 0x7F800000 ∧ x.sat ≠ .finite) →
        AnswersLane (.neg x) x s (u ^^^ 0x80000000) 0 ∧ AnswersLane (.abs x) x s (u &&& 0x7FFFFFFF) 0) ∧
      (f32Nan u → ∀ i, i ∈ [Instr.neg x, .abs x, .rcp x, .rsq x, .exp2 x, .log2 x] →
        (f32Signalling u → AnswersLane i x s nan flagIV) ∧ (¬ f32Signalling u → AnswersLane i x s nan 0)) ∧
      (u.extractLsb' 0 31 = 0 → AnswersLane (.rcp x) x s (signOf ||| infinite) flagDZ ∧
        AnswersLane (.rsq x) x s (signOf ||| infinite) flagDZ ∧ AnswersLane (.log2 x) x s (0x80000000 ||| infinite) flagDZ ∧
        (effRnd x.rnd (operands s).mode ≠ .sto → AnswersLane (.exp2 x) x s 0x3F800000 0) ∧
        (x.sat = .off → AnswersLane (.tanh x) x s u 0)) ∧
      (u.extractLsb' 0 31 = 0x7F800000 → AnswersLane (.rcp x) x s signOf 0 ∧
        (x.sat = .off → AnswersLane (.tanh x) x s (signOf ||| 0x3F800000) 0) ∧
        (u.getLsbD 31 = false → AnswersLane (.rsq x) x s 0 0 ∧ AnswersLane (.exp2 x) x s infinite 0 ∧
          AnswersLane (.log2 x) x s infinite 0) ∧
        (u.getLsbD 31 = true → AnswersLane (.rsq x) x s nan flagIV ∧ AnswersLane (.exp2 x) x s 0 0 ∧
          AnswersLane (.log2 x) x s nan flagIV)) ∧
      (f32Finite u → f32Units u < 0 → AnswersLane (.rsq x) x s nan flagIV ∧ AnswersLane (.log2 x) x s nan flagIV) ∧
      (∀ n : Int, f32Finite u → f32Units u = n * 2 ^ 149 → -126 ≤ n → n ≤ 127 → effRnd x.rnd (operands s).mode ≠ .sto →
        AnswersLane (.exp2 x) x s (BitVec.ofNat 32 ((n + 127).toNat * 2 ^ 23)) 0) ∧
      (∀ n : Nat, 1 ≤ n → n ≤ 254 → u = BitVec.ofNat 32 (n * 2 ^ 23) → effRnd x.rnd (operands s).mode ≠ .sto →
        ∃ w, f32Finite w ∧ f32Units w = ((n : Int) - 127) * 2 ^ 149 ∧ AnswersLane (.log2 x) x s w 0) ∧
      exec (.class x) s = .next (completed s x.d fmtN32 fmtN32
        ⟨⟨[some (BitVec.ofNat 32 (f32Class u))], (operands s).key, (operands s).count⟩,
         ⟨[some (BitVec.ofNat 32 (f32Class u))], (operands s).key, (operands s).count⟩, 0, (operands s).gen⟩))

/-- O29. The moves that keep state or make marks complete for every operand. NOP sends port a's run unchanged in its own format (R373);
DROP consumes and sends nothing (R337). HGET gives each non-empty lane the hold lane that the mode names; HSET writes the hold lanes that
the mode names and no other, the higher firing lane standing, and sends status 0 with port a's key and count (R350). EMIT puts its mark,
with the payload it names, behind its frame on each channel target, and sends nothing where port a's lane is empty (R338). -/
def Obligations.MovesAndHoldRegisters : Prop :=
  ∀ s : State, let o := operands s
    (∀ d, let f := portFmt s.here s.focus.frame s.focus.ins .a
      exec (.nop d) s = .next (finish s d f f ⟨o.a, o.key, o.count⟩ ⟨o.a, o.key, o.count⟩)) ∧
    exec .drop s = .next (s.setHere (markFired s.here s.focus.ins s.focus.frame s.focus.k)) ∧
    (∀ d ty (reg : BitVec 4) idx (lane : BitVec 5), ∃ l : List Lane, l.length = s.focus.k ∧
      (∀ j, j < s.focus.k → l.getD j none =
        match o.a.getD j none with
        | none => none
        | some v => ((s.here.holds.getD reg.toNat []).getD (if idx then v.toNat % 32 else (lane.toNat + j) % 32) none)) ∧
      exec (.hget d ty reg idx lane) s = .next (finish s d ty.code ty.code ⟨l, o.key, o.count⟩ ⟨l, o.key, o.count⟩)) ∧
    (∀ d ty (reg : BitVec 4) idx (lane : BitVec 5), (∀ h ∈ s.here.holds, h.length = 32) → s.here.holds.length = 16 →
      let sel (j : Nat) : Option Nat := if idx then (o.b.getD j none).map fun v => v.toNat % 32 else some ((lane.toNat + j) % 32)
      let old := s.here.holds.getD reg.toNat []
      let done : Run := ⟨List.replicate s.focus.k (some 0), o.key, o.count⟩
      ∃ h : List Lane, h.length = 32 ∧
        (∀ n, (∀ j, j < s.focus.k → sel j ≠ some n) → h.getD n none = old.getD n none) ∧
        (∀ n j, j < s.focus.k → sel j = some n → (∀ q, j < q → q < s.focus.k → sel q ≠ some n) → h.getD n none = o.a.getD j none) ∧
        exec (.hset d ty reg idx lane) s = .next
          (finish (s.setHere { s.here with holds := s.here.holds.set reg.toNat h }) d fmtN32 fmtN32 done done)) ∧
    ∀ (d : Dst) c payA pay,
      let s1 := s.setHere (markFired s.here s.focus.ins s.focus.frame s.focus.k)
      (o.a.getD 0 none = none → exec (.emit d c payA pay) s = .next s1) ∧
      ∀ v, o.a.getD 0 none = some v →
        let entry (ch : BitVec 6) (tb : Bool) : OutEntry := ⟨ch.toNat, s.focus.frame, s.focus.ins + 1, tb, s.focus.frame + 1,
          .mark (BitVec.ofNat 3 s.focus.ctx) c (if payA then v.extractLsb' 0 12 else pay), false⟩
        ∃ out, exec (.emit d c payA pay) s = .next (s1.setHere { s1.here with out := out }) ∧
          out.length = s.here.out.length + chanTargets d ∧ (∀ e ∈ s.here.out, e ∈ out) ∧
          (∀ ch, d.ta = .chan ch → entry ch false ∈ out) ∧ ∀ ch, d.tb = .chan ch → entry ch true ∈ out

/-! ### Memory (R137 to R183) -/

/-- O30. LD completes when no lane's access fails: the lanes go to TA, status 0 to TB. From the scratchpad each non-empty lane gives
the word at its address, the invalid elements of a final lane zero, and no state but the firing's own changes (R34, R140, R358). -/
def Obligations.LoadsGiveTheWordsAtTheirAddresses : Prop :=
  ∀ (s : State) (ty : Fmt) (x : XM), let o := operands s
    let status : Run := ⟨List.replicate s.focus.k (some 0), o.key, o.count⟩
    (∀ s' l, ldLanes (if x.order = .acquire ∧ o.anyLane then acquireAt s (viaHere s x.scope) else s) (viaHere s x.scope) x ty o
        (List.range s.focus.k) = (s', .ok l) →
      exec (.ld ty x) s = .next (finish s' x.d ty.code fmtN32 ⟨l, o.key, o.count⟩ status)) ∧
    (x.order = .plain → (∀ j a, j < s.focus.k → o.a.getD j none = some a → ScratchWord s x a (effAddr s x a % 2 ^ 21)) →
      ∃ l : List Lane, l.length = s.focus.k ∧
        (∀ j, j < s.focus.k → l.getD j none = (o.a.getD j none).map fun a =>
          scratchWord s (effAddr s x a % 2 ^ 21) &&&
            BitVec.ofNat 32 (2 ^ (elemWidth ty * validElts ty.epl (o.fin.getD j 0)) - 1)) ∧
        exec (.ld ty x) s = .next (finish s x.d ty.code fmtN32 ⟨l, o.key, o.count⟩ status))

/-- O31. ST to the scratchpad stores the lane's word there and sends status 0; whatever lanes it stores, every byte outside their
words, every other scratchpad and main memory read as before. A store that hits a writable line of the L2, at whose slice no request
waits, changes there the four bytes of its word alone, and takes slots of the line's slice (R34, R97, R140, R145, R161, R404). -/
def Obligations.StoresChangeTheirWordsAlone : Prop :=
  ∀ (s : State) (ty : Fmt) (x : XM), x.order = .plain → let o := operands s
    (∀ a b off, s.focus.k = 1 → o.a = [some a] → o.b = [some b] → validElts ty.epl (o.fin.getD 0 0) = ty.epl →
      ScratchWord s x a off →
      exec (.st ty x) s = .next (finishStatus (scratchPut s off b) x.d o [some 0])) ∧
    (∀ t, (∀ j a b, o.a.getD j none = some a → o.b.getD j none = some b → ∃ off, effAddr s x a % 4 = 0 ∧
        isWindow (effAddr s x a) = true ∧ off = effAddr s x a % 2 ^ 21 ∧ scratchOk s s.focus.place off = true) →
      exec (.st ty x) s = .next t →
      t.mem = s.mem ∧ t.l2 = s.l2 ∧ (∀ p, p ≠ s.focus.place → t.tile p = s.tile p) ∧
      ∀ b, (∀ j a v, o.a.getD j none = some a → o.b.getD j none = some v →
          b < effAddr s x a % 2 ^ 21 ∨ effAddr s x a % 2 ^ 21 + 4 ≤ b) →
        Memory.read (t.tile s.focus.place).scratch b = Memory.read (s.tile s.focus.place).scratch b) ∧
    (∀ a b l, s.focus.k = 1 → o.a = [some a] → o.b = [some b] → validElts ty.epl (o.fin.getD 0 0) = ty.epl →
      let va := effAddr s x a
      let asid := (s.part s.here.part).asid
      va % 4 = 0 → isWindow va = false → (s.part s.here.part).bound = false → l1Steps (s.tile s.focus.place) = 0 →
      l2Find s asid (lineOf va) = some l → l.w = true → l.poison.getLsbD (va % 128 / 8) = false → s.unmapRun = none →
      (SMap.get {} s.slices (sliceOf s s.here.part (s.focus.place / 256) asid (lineOf va))).queue = [] →
      ∃ lines slots, exec (.st ty x) s = .next (finishStatus { s with l2 := lines, slices := slots } x.d o [some 0]) ∧
        ∀ asid' q, q < 2 ^ 56 → l2Byte { s with l2 := lines, slices := slots } asid' q =
          if asid' = asid ∧ va ≤ q ∧ q < va + 4 then some (b.extractLsb' (8 * (q - va)) 8) else l2Byte s asid' q)

/-- O32. ATOM and CAS read a word, write its new value at the same address and send the old value to TA, status 0 to TB; the new
value is R318's for ATOM, and for CAS port c's lane where the word equals port b's bit for bit, else the old value (R318, R327). -/
def Obligations.ReadModifyWriteOnTheScratchpad : Prop :=
  (∀ (s : State) (ty : Fmt) (x : XM) (a b : W32) (off : Nat), let o := operands s
    s.focus.k = 1 → o.a = [some a] → o.b = [some b] → x.order = .plain → FreshFiring s → ScratchWord s x a off →
    let old := scratchWord s off
    let status : Run := ⟨[some 0], o.key, o.count⟩
    (∀ r, r = atomNew ty x.aop old b → (trapEnables s.here.fpmode &&& r.2) = 0 →
      exec (.atom ty x) s =
        .next (finish (withFlags (scratchPut s off r.1) r.2) x.d ty.code fmtN32 ⟨[some old], o.key, o.count⟩ status)) ∧
    (∀ c, o.c = [some c] →
      exec (.cas ty x) s = .next (finish (withFlags (scratchPut s off (if old = b then c else old)) 0) x.d ty.code fmtN32
        ⟨[some old], o.key, o.count⟩ status))) ∧
  ∀ (old z : W32),
    (∀ ty, atomNew ty 0 old z = (z, 0) ∧ atomNew ty 4 old z = (old &&& z, 0) ∧ atomNew ty 5 old z = (old ||| z, 0) ∧
      atomNew ty 6 old z = (old ^^^ z, 0)) ∧
    atomNew .n32 1 old z = (old + z, 0) ∧ atomNew .i32 1 old z = (old + z, 0) ∧
    atomNew .n32 2 old z = (if z < old then z else old, 0) ∧ atomNew .n32 3 old z = (if old < z then z else old, 0) ∧
    atomNew .i32 2 old z = (if z.slt old then z else old, 0) ∧ atomNew .i32 3 old z = (if old.slt z then z else old, 0)

/-- O33. The line operations complete with status 0 once no lane of theirs fails; PREF queues one request for each line at its slice and
fills nothing itself; INV leaves no line of its range in the issuing tile's bank (R352, R335, R381, R424). -/
def Obligations.LineOperationsComplete : Prop :=
  ∀ (s : State) (x : XM), let o := operands s
    let status := List.replicate s.focus.k (some (0 : W32))
    let v := viaHere s x.scope
    (∀ s', FreshFiring s → rangeLanes s v .disc x o none (List.range s.focus.k) = (s', none) →
      exec (.disc x) s = .next (finishStatus s' x.d o status)) ∧
    (∀ s', FreshFiring s → rangeLanes s v .wbk x o none (List.range s.focus.k) = (s', none) →
      exec (.wbk x) s = .next (finishStatus s' x.d o status)) ∧
    (∀ a, s.focus.k = 1 → o.a = [some a] → x.aop = 0 → effAddr s x a % 128 = 0 → isWindow (effAddr s x a) = false →
      effAddr s x a + 128 ≤ 2 ^ 56 → x.scope = .die →
      let asid := (s.part s.here.part).asid
      let n := sliceOf s s.here.part (s.focus.place / 256) asid (lineOf (effAddr s x a))
      exec (.pref x) s = .next (finishStatus { s with slices := SMap.set s.slices n { SMap.get {} s.slices n with
          queue := (SMap.get {} s.slices n).queue ++ [{
            asid := asid, line := lineOf (effAddr s x a), part := s.here.part, tile := none, slice := n
            who := some (.ctx s.focus.die s.focus.tile s.focus.ctx), hint := x.pol }] } }
        x.d o status)) ∧
    (∀ a, s.focus.k = 1 → o.a = [some a] → effAddr s x a % 4 = 0 → isWindow (effAddr s x a) = false →
      effAddr s x a + 128 * 2 ^ x.aop.toNat ≤ 2 ^ 56 →
      ∃ s', exec (.inv x) s = .next (finishStatus s' x.d o status) ∧
        ∀ l ∈ (s'.tile s.focus.place).l1, l.asid = (s.part s.here.part).asid →
          l.line < effAddr s x a / 128 ∨ effAddr s x a + 128 * 2 ^ x.aop.toNat ≤ l.line * 128)

/-- O34. KVAP answers a status and a position, KVFK a status, for a lane that does not fault; a fork whose slot lies in a granule that stays
poisoned answers 8, and the context takes POISON once the firing has fired (R161). An append to a page whose sharers
count below 2 and that has room writes the row at its fill, counts the fill up, and gives first + fill with status 0; a full page
gives status 0x20 and writes nothing (R164, R165, R355, R356). -/
def Obligations.KvAppendsAndForks : Prop :=
  ∀ (s : State) (ty : Fmt) (x : XM), let o := operands s
    let v := viaSlice s x.scope
    (∀ a b s' st p, s.focus.k = 1 → o.a = [some a] → o.b = [some b] → x.order = .plain → FreshFiring s →
      (kvapLane s v x a b = (s', .ok (st, p)) → exec (.kvap ty x) s =
        .next (finish s' x.d fmtN32 fmtN32 ⟨[p], o.key, o.count⟩ ⟨[some (BitVec.ofNat 32 st)], o.key, o.count⟩)) ∧
      (kvfkLane s v x a b = (s', .ok (0, p)) → exec (.kvfk x) s = .next (finishStatus s' x.d o [some 0])) ∧
      (kvfkLane s v x a b = (s', .ok (8, p)) → exec (.kvfk x) s =
        .next (faultAt (finishStatus s' x.d o [some 8]) codePoison (some (natW64 (effAddr s' x b / 8 * 8))) none .stored))) ∧
    (∀ slot i (d : Desc) row, d.capacity ≤ d.fill → kvAppend s v slot i d row = (s, .ok (0x20, none))) ∧
    ∀ slot i (d : Desc) row s', d.fill < d.capacity → d.count < 2 →
      checkRuns s v [(d.page + d.fill * d.rowSize, row.length), (descAddr s v.part i, 16)] = (s', .ok ()) →
      kvAppend s v slot i d row =
        (storeRuns s' v [(d.page + d.fill * d.rowSize, row), (descAddr s v.part i, (d.withFill (d.fill + 1)).bytes)],
          .ok (0, some (d.first + BitVec.ofNat 32 d.fill)))

/-- O35. An access to an address that is no multiple of 4 stops its firing at ALIGN, one past the end of the scratchpad at
PROTECTION, and a load that no translation serves at TRANSLATION, each with the address in aux and no effect on memory; a walk that
fails below the root entry leaves the lines of its tables in the L2. No request waits at a slice, and the gate has room for a walk (R7, R140, R148, R149, R318, R327, R335, R352, R358, R404, R424). -/
def Obligations.AccessFaultsHaveNoEffect : Prop :=
  ∀ (s : State) (ty : Fmt) (x : XM) (a : W32), let o := operands s
    let va := effAddr s x a
    s.focus.k = 1 → o.a = [some a] → x.order = .plain → FreshFiring s →
    (∀ i, (i = Instr.ld ty x ∨ (∃ b, o.b = [some b]) ∧ (i = .st ty x ∨ i = .atom ty x ∨ (∃ c, o.c = [some c]) ∧ i = .cas ty x)) →
      (va % 4 ≠ 0 → ∃ t, exec i s = .next t ∧ StoppedAtFault s t 0x07 (natW64 va)) ∧
      (va % 4 = 0 → isWindow va = true → scratchSize (s.tile s.focus.place) ≤ va % 2 ^ 21 →
        ∃ t, exec i s = .next t ∧ StoppedAtFault s t 0x06 (natW64 va))) ∧
    (va % 4 ≠ 0 → ∀ i, i ∈ [Instr.disc x, .wbk x, .inv x] → ∃ t, exec i s = .next t ∧ StoppedAtFault s t 0x07 (natW64 va)) ∧
    (let asid := (s.part s.here.part).asid
     let gate := sliceOf s s.here.part (s.focus.place / 256) asid (lineOf va) / 32
     va % 4 = 0 → isWindow va = false → (s.part s.here.part).bound = false → l1Steps (s.tile s.focus.place) = 0 →
     l2Find s asid (lineOf va) = none → (∀ e ∈ SMap.get [] s.tlbs gate, e.covers asid va = false) → s.unmapRun = none →
     (walkPages s gate).length < 16 → (∀ e ∈ s.slices, e.2.queue = []) →
     let root := SMap.get 0 s.roots asid.toNat
     (root.getLsbD 63 = false → ∃ t, exec (.ld ty x) s = .next t ∧ StoppedAtFault s t 0x05 (natW64 va)) ∧
     (walk s asid va = none →
       (∀ a ∈ walkReads s va ((root.extractLsb' 16 36).toNat * 65536) 0 levels, tablePoison s a = false) →
       ∃ t, exec (.ld ty x) s = .next t ∧ StoppedFiring s t 0x05 (natW64 va)))

/-- O36. XFEN performs its two steps and answers status 0 for each non-empty lane (R176, R428), SBAR the release of its scope (R175,
R395); an SBAR whose cut holds an access that a fault has stopped, or that names a frozen unit, waits with its cut, its operands kept
(R396). A lane of BAR releases and joins the open episode of its key, or opens one that needs n + 1 arrivals, and the firing waits; empty
lanes alone complete at once. BAR EPISODE FILL acquires, sends the one arrival of a full episode its status 0, and closes the episode; the
firing ends with the last of its lanes (R179, R287). -/
def Obligations.FencesAndBarriersComplete : Prop :=
  ∀ s : State, let o := operands s
    (∀ d p q sc, exec (.xfen d p q sc) s = .next (finishN32 (fence s (viaHere s sc) p q sc) d (o.a.map fun l => l.map fun _ => 0))) ∧
    (∀ d u sc, let named := sbarUnits u
      let frozen (n : Nat) : Bool := (s.unit (s.focus.place * 64 + n)).frozen
      FreshFiring s →
      ((∀ n ∈ named, frozen n = false ∧ cutWaits s s.focus.place n = false) →
        exec (.sbar d u sc) s = .next (finishN32 (if o.a.any Option.isSome then releaseAt s (viaHere s sc) sc else s) d
          (o.a.map fun l => l.map fun _ => 0))) ∧
      ∀ v, s.focus.k = 1 → o.a = [some v] →
        ((∃ n ∈ named, frozen n = true) →
          exec (.sbar d u sc) s = .next (addResume s s.focus.ctxId s.focus.ins s.focus.frame 1 {})) ∧
        ((∀ n ∈ named, frozen n = false) → (∃ n ∈ named, cutWaits s s.focus.place n = true) →
          exec (.sbar d u sc) s = .next (addResume s s.focus.ctxId s.focus.ins s.focus.frame 1
            { cut := some (named.filter (cutWaits s s.focus.place)) }))) ∧
    (∀ d obj sc n, o.a.any Option.isSome = false → exec (.bar d obj sc n) s = .next (finishN32 s d o.a)) ∧
    (∀ d obj sc n v, s.focus.k = 1 → o.a = [some v] → FreshFiring s →
      (∀ w ∈ s.here.inflight, ¬ (w.ins = s.focus.ins ∧ w.frame = s.focus.frame)) →
      let inst := scopeInstance s.focus (farOf s s.here) sc
      let mine : Nat × Nat × Nat × Nat := (s.focus.ctxId, s.focus.ins, s.focus.frame, 0)
      let found := s.episodes.find? fun e => e.part = s.here.part ∧ e.obj = obj.toNat ∧ e.inst = inst ∧ e.full = false
      ∃ t, exec (.bar d obj sc n) s = .next t ∧
        (found = none → t.episodes = s.episodes ++ [⟨s.nextEpisode, s.here.part, obj.toNat, sc, inst, n.toNat + 1, [mine], 0⟩]) ∧
        (∀ e, found = some e → t.episodes = s.episodes.map fun x =>
          if x.id = e.id then { x with arrivals := x.arrivals ++ [mine] } else x) ∧
        t.here.inflight = s.here.inflight ++ [⟨s.focus.ins, s.focus.frame, 1, .barrier []⟩] ∧ t.here.frames = s.here.frames) ∧
    ∀ (ep : Nat) (e : Episode) (id ins frame lane : Nat) (w : Inflight) (d : Dst) ob sc n done,
      s.episodes.find? (fun y => y.id = ep) = some e → e.full = true → e.arrivals = [(id, ins, frame, lane)] →
      inflightOf (s.ctx id) ins frame = some w → Image.instr (s.ctx id).image ins = some (.bar d ob sc n) → w.work = .barrier done →
      let a := portLanes (s.ctx id) frame w.k ins .a
      let s1 := acquireAt { s with episodes := s.episodes.filter fun y => y.id ≠ ep }
        { place := id / 8, part := (s.ctx id).part, l1 := true, scope := e.scope }
      let s2 := withFocus s1 id ins frame w.k fun s => sendLane s d lane (some 0)
      exec (.barEpisodeFill ep) s = .next
        (if (∀ j, j < a.length → (a.getD j none).isSome = true → j = lane ∨ j ∈ done) then
          withFocus s2 id ins frame w.k fun s => finishLanes s d (a.map fun l => l.map fun _ => 0)
        else s2.setCtx id { s2.ctx id with
          inflight := (s2.ctx id).inflight.map fun x => if x = w then { w with work := .barrier (lane :: done) } else x })

/-! ### Matrix islands (R127 to R132) -/

/-- O37. WBIND binds its tile and takes the same binding from every other; WLOAD unbinds its tile, accepts the fill of its first
non-empty lane and waits, and without such a lane is done at once; GATH arms a set for its first non-empty lane and waits; MOUT emits the
rows of its requests one after the other, each as four data tokens and an ER behind what stands in the output stage, cleared with clr set,
and ends with status 0 when the last has entered, or goes on later from the row that must wait for the stage; MCLR clears exactly its
rows (R128, R279, R345, R366, R422, R423). -/
def Obligations.IslandInstructionsComplete : Prop :=
  ∀ s : State, let o := operands s
    let p := s.focus.place
    let x := s.island p
    (∀ d (obj : BitVec 2) (key : BitVec 12) (q : BitVec 9), x.latch.length = 4 → (x.latch.getD obj.toNat {}).loading = false →
      o.a.any Option.isSome = true →
      ∃ y, exec (.wbind d obj key q) s = .next (finishN32 (s.setIsland p y) d (List.replicate s.focus.k (some 0))) ∧
        (y.latch.getD obj.toNat {}).bind = some (key, q.toNat) ∧
        (∀ n, n ≠ obj.toNat → (y.latch.getD n {}).bind ≠ some (key, q.toNat) ∧
          ((x.latch.getD n {}).bind ≠ some (key, q.toNat) → y.latch.getD n {} = x.latch.getD n {})) ∧
        y = { x with latch := y.latch }) ∧
    (∀ d (obj : BitVec 2) base f kr nc, FreshFiring s →
      (o.a.any Option.isSome = false →
        exec (.wload d obj base f kr nc) s = .next (finishN32 s d (List.replicate s.focus.k (some 0)))) ∧
      ∀ l1 v rest, o.a = l1 ++ some v :: rest → (∀ l ∈ l1, l = none) → x.latch.length = 4 → baseVa s base % 4 = 0 →
      (∀ w ∈ s.here.inflight, ¬ (w.ins = s.focus.ins ∧ w.frame = s.focus.frame)) →
      ∃ t, exec (.wload d obj base f kr nc) s = .next t ∧
        t.here.inflight = s.here.inflight ++ [⟨s.focus.ins, s.focus.frame, s.focus.k, .weights obj.toNat l1.length⟩] ∧
        (t.island p).loads = x.loads ++ [(s.focus.ctx, s.focus.ins, s.focus.frame)] ∧
        ((t.island p).latch.getD obj.toNat {}).bind = none ∧ ((t.island p).latch.getD obj.toNat {}).loading = true ∧
        t.here.frames = (sendEmpty s d (some 0) o.a 0).here.frames ∧ t.mem = s.mem) ∧
    (∀ d chunks f key a b, s.focus.k = 1 → o.a = [some a] → o.b = [some b] → a.extractLsb' 14 2 = 0 → b.extractLsb' 14 2 = 0 →
      b.extractLsb' 16 16 ≠ 0 → FreshFiring s → (∀ w ∈ s.here.inflight, ¬ (w.ins = s.focus.ins ∧ w.frame = s.focus.frame)) →
      ∃ t g, exec (.gath d chunks f key) s = .next t ∧ (t.island p).sets = x.sets ++ [g] ∧ g.ctx = s.focus.ctxId ∧
        g.ins = s.focus.ins ∧ g.frame = s.focus.frame ∧ g.n = (a.extractLsb' 16 16).toNat ∧ g.total = (b.extractLsb' 16 16).toNat ∧
        g.ivec = (a.extractLsb' 0 14).toNat * 128 ∧ g.table = (b.extractLsb' 0 14).toNat * 128 ∧ g.chunks = chunks.toNat + 1 ∧
        g.key = key ∧ g.next = 0 ∧
        t.here.inflight = s.here.inflight ++ [⟨s.focus.ins, s.focus.frame, 1, .gather⟩] ∧ t.here.frames = s.here.frames) ∧
    (∀ d (first count : BitVec 8) clr s1, FreshFiring s →
      let requests := (List.range s.focus.k).filter fun j => (o.a.getD j none).isSome
      let rows := requests.flatMap fun j => (List.range (count.toNat + 1)).map fun n => (j, (first.toNat + n) % 256)
      (moutRows s (BitVec.ofNat 3 s.focus.ctx) o.key clr rows = (s1, none) →
        exec (.mout d first count clr) s = .next (finishN32 s1 d (o.a.map fun l => l.map fun _ => 0))) ∧
      ∀ j r, moutRows s (BitVec.ofNat 3 s.focus.ctx) o.key clr rows = (s1, some (j, r)) →
        exec (.mout d first count clr) s =
          .next (addResume s1 s.focus.ctxId s.focus.ins s.focus.frame s.focus.k { lane := j, at' := some r })) ∧
    (∀ d (first : BitVec 8) clr v, s.focus.k = 1 → o.a = [some v] → FreshFiring s → x.out.length ≤ 4 →
      ∃ y, exec (.mout d first 0 clr) s = .next (finishN32 (islandDrain (s.setIsland p y) p 16) d [some 0]) ∧
        y.out = x.out ++ rowTokens (BitVec.ofNat 3 s.focus.ctx) o.key
          ((SMap.get (List.replicate 128 0) x.acc first.toNat).map some) false ∧
        ∀ r, SMap.get (List.replicate 128 0) y.acc r =
          if clr = true ∧ r = first.toNat then List.replicate 128 0 else SMap.get (List.replicate 128 0) x.acc r) ∧
    (∀ d (first count : BitVec 8), o.a.any Option.isSome = true →
      ∃ y, exec (.mclr d first count) s = .next (finishN32 (s.setIsland p y) d (o.a.map fun l => l.map fun _ => 0)) ∧
        y = { x with acc := y.acc } ∧
        ∀ r, SMap.get (List.replicate 128 0) y.acc r =
          if r ∈ (List.range (count.toNat + 1)).map (fun n => (first.toNat + n) % 256) then List.replicate 128 0
          else SMap.get (List.replicate 128 0) x.acc r)

/-- O38. The events of an island. CHUNK ISSUE runs the next chunk of the head row against the tile bound to its key and position, the
last one once the output stage has four places free, and ends a row of empty lanes without one (R56, R129, R131); ISLAND MARK PASS moves
a mark of the channel from the head of the rows to the output stage, which sends what its credits allow, and n restarts at a mark of class
gcls (R129, R282); WEIGHT FILL COMPLETE runs the oldest accepted fill (R422); GATH ROW COLLECT lets the next row of the head set enter the
queue, without lanes past the set's own rows, and its EG behind the last (R345). -/
def Obligations.IslandEventsAct : Prop :=
  ∀ (s : State) (die i : Nat), let p := islandPlace die i
    (∀ r rest, (s.island p).engine = false → (s.island p).frozen = false → islandAsked s p = false →
      let s1 := islandPrepare s p
      let x := s1.island p
      x.rows = r :: rest → r.mark = none →
      (∀ tl, r.lanes.any Option.isSome = true → boundTile x r.key r.next = some tl → scalesHere x r r.next = true →
        let chunks := (r.lanes.length + 63) / 64
        ((r.complete = false ∧ 64 * (r.next + 1) ≤ r.lanes.length) ∨ (r.complete = true ∧ r.next + 1 < chunks) →
          exec (.chunkIssue die i) s = .next (islandDrain (issueChunk s1 p r r.next tl false) p 16)) ∧
        (r.complete = true → r.next + 1 = chunks → x.out.length ≤ 4 →
          exec (.chunkIssue die i) s = .next (islandDrain (issueChunk s1 p r r.next tl true) p 16))) ∧
      (r.lanes.any Option.isSome = false → r.complete = true → x.out.length ≤ 4 →
        exec (.chunkIssue die i) s = .next (islandDrain (s1.setIsland p (endIslandRow x r true)) p 16))) ∧
    (∀ r rest m pay, (s.island p).engine = false → (s.island p).frozen = false →
      let s1 := islandPrepare s p
      let x := s1.island p
      x.rows = r :: rest → r.mark = some (m, pay) → r.gathered = false → x.out.length < 8 →
      ∃ y, exec (.islandMarkPass die i) s = .next (islandDrain (s1.setIsland p y) p 16) ∧ y.rows = rest ∧
        y.out = x.out ++ [(.mark r.ctx m pay, false)] ∧ y.acc = x.acc ∧ y.latch = x.latch ∧
        y.n = (if m.code = (x.p.getD 0 0).extractLsb' 18 4 then 0 else x.n)) ∧
    (∀ c ins frame rest w d (obj : BitVec 2) base f (kr : BitVec 9) (nc : BitVec 7) tile lane,
      (s.island p).loads = (c, ins, frame) :: rest → (s.ctx (p * 8 + c)).frozen = false →
      inflightOf (s.ctx (p * 8 + c)) ins frame = some w →
      Image.instr (s.ctx (p * 8 + c)).image ins = some (.wload d obj base f kr nc) → w.work = .weights tile lane →
      let s1 := s.setIsland p { s.island p with loads := rest }
      let s2 := s1.setCtx (p * 8 + c)
        { s.ctx (p * 8 + c) with inflight := (s.ctx (p * 8 + c)).inflight.filter fun y => !(y.ins = ins ∧ y.frame = frame) }
      exec (.weightFillComplete die i) s = .next (withFocus s2 (p * 8 + c) ins frame w.k fun s =>
        fillTile s d tile lane base f (kr.toNat + 1) (nc.toNat + 1) (stillLoading s1 p rest tile))) ∧
    (∀ g rest, (s.island p).sets = g :: rest → (s.island p).frozen = false → (s.ctx g.ctx).frozen = false →
      stoppedAt (s.ctx g.ctx) g.ins g.frame = false → rowCount (s.island p) < 16 → g.next < g.total →
      (g.n ≤ g.next → setRow (s.tile p) g g.next = .ok none) ∧
      ∀ l, setRow (s.tile p) g g.next = .ok l →
      ∃ t r, exec (.gathRowCollect die i) s = .next t ∧ t = { s with islands := t.islands } ∧
        (t.island p).sets = { g with next := g.next + 1 } :: rest ∧
        rowCount (t.island p) = rowCount (s.island p) + 1 ∧ r ∈ (t.island p).rows ∧ r.mark = none ∧ r.complete = true ∧
        r.gathered = true ∧ r.key = g.key ∧ r.fmt = g.fmt ∧ r.lanes = l.getD [] ∧
        (g.next + 1 = g.total → ∃ y ∈ (t.island p).rows, y.mark = some (.eg, 0) ∧ y.gathered = true))

/-! ### The carillon (R244 to R258) -/

/-- O39. A lane of ATTN applies the rows of its block and, with emit set, emits the output (R320); ROTA arms a rotation of its steps
with the block's header and waits (R250, R295); RGRT marks a free slot granted and sends its grant (R249, R296); RSND uses the oldest
grant, sends header, rows and end of its block (R391, R392); RSTAT answers the half of the status word (R252, R393). -/
def Obligations.CarillonInstructionsComplete : Prop :=
  ∀ s : State, let o := operands s
    let die := s.focus.die
    let v := viaRing s s.focus.ctxId
    (∀ d (obj : BitVec 6) emit base a s1 s2 h, s.focus.k = 1 → o.a = [some a] → s.here.resumes = [] →
      (getEngine s die obj.toNat).jobs = [] → (getEngine s die obj.toNat).rot = none → ownsEngine s s.here.part die obj.toNat = true →
      engaged s die obj.toNat = true →
      let me := (s.focus.ctxId, s.focus.ins, s.focus.frame)
      let s0 := s.setEngine (engineId die obj.toNat) { getEngine s die obj.toNat with jobs := [me] }
      let va := (((baseVa s base : Int) + a.toInt * 128) % 2 ^ 56).toNat
      let x : Attn := ⟨die, obj.toNat, d, emit, base⟩
      va % 128 = 0 → readHeader s0 v va = (s1, .ok h) → headerOk h = true →
      attnRows s1 x va h 0 (headerRows h) = (s2, none) →
      (emit = true → (getEngine s2 die obj.toNat).latched = true) →
      exec (.attn d obj emit base) s =
        .next (finishStatus (dropJob (if emit then emitOutput s2 die obj.toNat s2.focus.ctxId else s2) x) d o [some 0])) ∧
    (∀ d (obj : BitVec 6) (n : BitVec 10) base a s1 h, s.focus.k = 1 → o.a = [some a] → s.here.resumes = [] →
      ownsEngine s s.here.part die obj.toNat = true → ringEn (ringReg s die) = true → n.toNat + 1 ≤ ringCount (ringReg s die) →
      engaged s die obj.toNat = true → (getEngine s die obj.toNat).rot = none → baseVa s base % 128 = 0 →
      readHeader s v (baseVa s base) = (s1, .ok h) → headerOk h = true → s1.focus = s.focus →
      ∃ r, exec (.rota d obj n false base) s =
          .next (beginWork (s1.setEngine (engineId die obj.toNat) { getEngine s1 die obj.toNat with rot := some r })
            (.rotation obj.toNat)) ∧
        r.steps = n.toNat + 1 ∧ r.step = 0 ∧ r.ctx = s.focus.ctxId ∧ r.ins = s.focus.ins ∧ r.frame = s.focus.frame ∧
        r.header = makeHeader (headerFirst h) (headerRows h) (ringIdx (ringReg s1 die)) 0 ∧ r.applied = 0 ∧ r.sent = 0) ∧
    (∀ d (obj : BitVec 6) (slot : BitVec 3) recur a, s.focus.k = 1 → o.a = [some a] → s.here.resumes = [] →
      ownsEngine s s.here.part die obj.toNat = true → ringEn (ringReg s die) = true → engaged s die obj.toNat = true →
      slot.toNat < slotCount s die obj.toNat → slotFree ((getEngine s die obj.toNat).slots.getD slot.toNat {}) = true →
      let g := getEngine s die obj.toNat
      exec (.rgrt d obj slot recur) s =
        .next (finishN32 (sendGrant (s.setEngine (engineId die obj.toNat)
          { g with slots := g.slots.set slot.toNat { granted := true, recurring := recur } }) die obj.toNat slot.toNat) d [some 0])) ∧
    (∀ d (obj : BitVec 6) base a k held s1 s2 h, s.focus.k = 1 → o.a = [some a] → s.here.resumes = [] →
      ownsEngine s s.here.part die obj.toNat = true → ringEn (ringReg s die) = true → (getEngine s die obj.toNat).rot = none →
      (getEngine s die obj.toNat).held = k :: held →
      let va := (((baseVa s base : Int) + a.toInt * 128) % 2 ^ 56).toNat
      va % 128 = 0 → readHeader s v va = (s1, .ok h) →
      sendRows (sendItem (s1.setEngine (engineId die obj.toNat) { getEngine s1 die obj.toNat with held := held }) die obj.toNat k
        (.header h)) obj.toNat va k 0 (headerRows h) = (s2, none) →
      exec (.rsnd d obj base) s = .next (finishStatus (sendItem s2 die obj.toNat k .close) d o [some 0])) ∧
    (∀ d (obj : BitVec 6) hi, ownsEngine s s.here.part die obj.toNat = true → engaged s die obj.toNat = true →
      let w := ringStatus s die obj.toNat
      exec (.rstat d obj hi) s =
        .next (finishN32 s d (o.a.map fun l => l.map fun _ => if hi then w.extractLsb' 32 32 else w.extractLsb' 0 32)))

/-- O40. The events of an engine: a header that arrives fills its slot and ends its grant (R249), a grant joins those held, a q token
grows the query row, its ER ends the row, and its EG latches the rows, zeros where there are none (R245, R297); a rotation that has
applied its last step emits, ends, and answers ROTA (R248, R295); a chain request ends at a tile that is in no chain (R257), and moves to
the next tile where its position lies beyond the limit and the chain goes on (R258). -/
def Obligations.CarillonEventsAct : Prop :=
  ∀ (s : State) (die e : Nat), let g := getEngine s die e
    let p := enginePlace die e
    (∀ k h rest, (s.island p).frozen = false → g.rot = none → g.arriving = (k, .header h) :: rest → k < g.slots.length →
      ∃ t, exec (.ringRowArrival die e) s = .next t ∧ t = { s with engines := t.engines } ∧
        (getEngine t die e).arriving = rest ∧ ((getEngine t die e).slots.getD k {}).header = some h ∧
        ((getEngine t die e).slots.getD k {}).granted = false ∧ ((getEngine t die e).slots.getD k {}).rows = 0) ∧
    (∀ k rest, g.grants = k :: rest → g.rot = none →
      exec (.grantArrival die e) s = .next (s.setEngine (engineId die e) { g with grants := rest, held := g.held ++ [k] })) ∧
    (∀ ch tok, engaged s die e = true → (s.island p).frozen = false → (s.island p).out = [] →
      g.jobs = [] → g.latched = false → headOf s p 32 0 = some (ch, tok) →
      (∀ c f fm k n l, tok = .data c f fm k n l → ∃ t, exec (.queryRowLatch die e) s = .next t ∧
        (getEngine t die e).row = g.row ++ queryLanes n l ∧ (getEngine t die e).latched = false) ∧
      (∀ c pay, tok = .mark c .er pay → ∃ t, exec (.queryRowLatch die e) s = .next t ∧ (getEngine t die e).latched = false ∧
        (getEngine t die e).query = g.query ++ [queryElts g.row] ∧ (getEngine t die e).row = []) ∧
      (∀ c pay, tok = .mark c .eg pay → ∃ t, exec (.queryRowLatch die e) s = .next t ∧ (getEngine t die e).latched = true ∧
        (getEngine t die e).query = (g.query ++ List.replicate (queryRows s die e) (List.replicate 128 0)).take (queryRows s die e))) ∧
    (∀ r w i, g.rot = some r → r.emitting = true → g.latched = true → rotationStopped s die e r = false →
      (s.island p).frozen = false → (s.ctx r.ctx).frozen = false →
      let s1 := endRotation (emitOutput s die e r.ctx) die e
      inflightOf (s1.ctx r.ctx) r.ins r.frame = some w → Image.instr (s1.ctx r.ctx).image r.ins = some i →
      exec (.rotationEmit die e) s = .next (withFocus (s1.setCtx r.ctx
          { s1.ctx r.ctx with inflight := (s1.ctx r.ctx).inflight.filter (· ≠ w) }) r.ctx r.ins r.frame w.k fun s =>
        finishN32 s (dstOf i) ((operands s).a.map fun l => l.map fun _ => 0))) ∧
    ∀ tile q pos lo rest, let tl := s.tile (placeOf die tile)
      tl.chain = (q, pos, lo) :: rest →
      let s1 := s.setTile (placeOf die tile) { tl with chain := rest }
      (tl.limit.getLsbD 63 = false → exec (.chainPositionRequest die tile) s = .next (answerChain s1 die q (.ok none))) ∧
      (tl.limit.getLsbD 63 = true → tl.limit.getLsbD 62 = false → (tl.limit.extractLsb' 0 32).toNat < pos →
        let next := placeOf die (tl.limit.extractLsb' 54 8).toNat
        exec (.chainPositionRequest die tile) s = .next (s1.setTile next { s1.tile next with
          chain := (s1.tile next).chain ++ [(q, pos, (tl.limit.extractLsb' 0 32).toNat + 1)] }))

/-! ### System instructions (R310 to R431) -/

/-- O41. OPSET queues the write of a lane at the unit and waits for it; OPGET answers a word for each non-empty lane, as it stands where no write
of the unit waits, word 16 the status. CHSET writes a descriptor, its bits [34:32] apart, and grants its slots as credits; a descriptor
that holds tokens stays as it is, and one that names a foreign peer takes PROTECTION and writes nothing. Its count and counter set W and
the word counter of a copy channel, which then delivers what it covers. That both stand at the consumer's end, whichever end CHSET names,
and when a channel to another package holds tokens, is the model's reading (log 20, DEDUCED), not R328's words. TIME answers the die's copy of almanac
time, by halves (R328, R375, R376, R416). -/
def Obligations.UnitAndChannelInstructionsComplete : Prop :=
  ∀ s : State, let o := operands s
    let p := s.focus.place
    (∀ d (obj : BitVec 6) (word : BitVec 5) v, s.focus.k = 1 → o.a = [some v] → s.here.resumes = [] → s.here.inflight = [] →
      ∃ t, exec (.opset d obj word) s = .next t ∧
        t.here.inflight = [⟨s.focus.ins, s.focus.frame, 1, .parameter obj.toNat word.toNat 0⟩] ∧ t.here.frames = s.here.frames ∧
        let w : ParamWrite := ⟨word.toNat, v, s.focus.ctxId, s.focus.ins, s.focus.frame⟩
        (obj = 32 → (t.island p).writes = (s.island p).writes ++ [w] ∧ t.units = s.units) ∧
        (obj ≠ 32 → (t.unit (p * 64 + obj.toNat)).writes = (s.unit (p * 64 + obj.toNat)).writes ++ [w] ∧ t.islands = s.islands)) ∧
    (∀ d (obj : BitVec 6) (word : BitVec 5), ∃ v,
      exec (.opget d obj word) s = .next (finishN32 s d (o.a.map fun l => l.map fun _ => v)) ∧
      (obj ≠ 32 → word.toNat < 16 → (s.unit (p * 64 + obj.toNat)).writes = [] →
        v = (s.unit (p * 64 + obj.toNat)).p.getD word.toNat 0) ∧
      (obj = 32 → word.toNat < 16 → (s.island p).writes = [] → v = (s.island p).p.getD word.toNat 0) ∧
      (word = 16 → v = if obj = 32 then islandStatus s p else unitStatus s p obj.toNat)) ∧
    (∀ d (obj : BitVec 6) out v, s.focus.k = 1 → o.a = [some v] → s.here.resumes = [] →
      let i := p * 64 + obj.toNat
      let old := if out then (s.outc i).desc else (s.inc i).desc
      let new := descWritten old v
      let put := if out then s.setOutc i { s.outc i with desc := new } else s.setInc i { s.inc i with desc := new }
      (foreignPeer s s.here.part new = true → ∃ t y, exec (.chset d obj out 0) s = .next t ∧ t.here.stops = s.here.stops ++ [y] ∧
        y.record.code = 0x06 ∧ t.here.frames = s.here.frames ∧ t.ins = s.ins ∧ t.outs = s.outs) ∧
      (foreignPeer s s.here.part new = false →
        (descEn old = true → new ≠ old → holdsTokens s i out old = true →
          exec (.chset d obj out 0) s = .next (finishStatus s d o [some 0])) ∧
        ((descEn old = false ∨ new = old ∨ holdsTokens s i out old = false) →
          exec (.chset d obj out 0) s = .next (finishStatus (grantCredits put i out new) d o [some 0]))) ∧
      ∀ e, consumerEnd i out old = some e → descWc old = true →
        (v ≠ 0 → exec (.chset d obj out 1) s =
          .next (finishStatus (deliverWords (s.setInc e { s.inc e with want := v }) e) d o [some 0])) ∧
        exec (.chset d obj out 2) s =
          .next (finishStatus (deliverWords (s.setInc e { s.inc e with words := v }) e) d o [some 0])) ∧
    (∀ old v, (descWritten old v).extractLsb' 0 35 = old.extractLsb' 0 35) ∧
    ∀ d, let now := s.copies.getD s.focus.die 0
      let lo := o.a.map fun l => l.map fun _ => now.extractLsb' 0 32
      let hi := o.a.map fun l => l.map fun _ => now.extractLsb' 32 32
      exec (.time d .lo) s = .next (finishN32 s d lo) ∧ exec (.time d .hi) s = .next (finishN32 s d hi) ∧
      exec (.time d .both) s = .next (finish s d fmtN32 fmtN32 ⟨lo, 0, 0⟩ ⟨hi, 0, 0⟩)

/-- O42. TRES raises the floor of its depth by what R94 grants, which is the largest count up to m with a field of at most 255, a sum of
L × u over the tile of at most 16,384 and no slot word that is occupied or reserved, and answers it, TREL lowers it by what it holds at most; the count is n
or, with src a, port a's lane, at most 255; every other depth's floor and the cap stay. TCNT answers a counter, the live one with the
carry frame, and, with clr, clears acknowledge and late counts (R94, R415, R418). -/
def Obligations.FloorsAndCounters : Prop :=
  ∀ s : State, let o := operands s
    let x := s.here
    (∀ d (depth : BitVec 6) srcA (n : BitVec 8) v, depth.toNat < 6 → s.focus.k = 1 → o.a = [some v] →
      let m := if srcA then min 255 v.toNat else n.toNat
      let others (f : W64) : Prop := ∀ b, (b < 8 * depth.toNat ∨ 8 * depth.toNat + 8 ≤ b) → f.getLsbD b = x.floor.getLsbD b
      (let g := grantable s s.focus.ctxId depth.toNat m
       let fits (n : Nat) : Prop := x.fd depth.toNat + n ≤ 255 ∧ floorTotal s (s.focus.ctxId / 8) + n * x.cost ≤ 16384 ∧
         ((List.range 8).map fun q => (s.ctx (s.focus.ctxId / 8 * 8 + q)).reserve).sum +
           ((x.floorSum + n - x.live) - (x.floorSum - x.live)) * x.cost ≤ freeWords s (s.focus.ctxId / 8)
       g ≤ m ∧ (g = 0 ∨ fits g) ∧ (∀ n, g < n → n ≤ m → ¬ fits n) ∧ ∃ f, exec (.tres d depth srcA n) s = .next (finishN32 (s.setHere { x with floor := f }) d [some (BitVec.ofNat 32 g)]) ∧
         (f.extractLsb' (8 * depth.toNat) 8).toNat = x.fd depth.toNat + g ∧ others f) ∧
      (let g := min m (x.fd depth.toNat)
       ∃ f, exec (.trel d depth srcA n) s = .next (finishN32 (s.setHere { x with floor := f }) d [some (BitVec.ofNat 32 g)]) ∧
         (f.extractLsb' (8 * depth.toNat) 8).toNat = x.fd depth.toNat - g ∧ others f)) ∧
    ∀ d v, s.focus.k = 1 → o.a = [some v] →
      (∀ clr, exec (.tcnt d .ack clr) s = .next (finishN32 (if clr then s.setHere { x with ack := 0 } else s) d [some x.ack]) ∧
        exec (.tcnt d .late clr) s = .next (finishN32 (if clr then s.setHere { x with late := 0 } else s) d [some x.late])) ∧
      exec (.tcnt d .live false) s =
        .next (finishN32 s d [some (BitVec.ofNat 32 (x.live + if x.frames.any fun f => f.num = x.ahead then 1 else 0))]) ∧
      exec (.tcnt d .ahead false) s = .next (finishN32 s d [some (BitVec.ofNat 32 (x.ahead % 4096))]) ∧
      exec (.tcnt d .chead false) s = .next (finishN32 s d [some (BitVec.ofNat 32 (x.chead % 4096))]) ∧
      exec (.tcnt d .free false) s = .next (finishN32 s d [some (BitVec.ofNat 32 (freeWords s s.focus.place))])

/-- O43. A TRAP with a non-empty lane takes SOFTWARE and a BKPT takes BREAK, with the value of the lowest such lane in aux and the code
or breakpoint number and that lane in detail (R322, R417), and the base frame in the record where the firing has several (log 33,
DEDUCED); both pass port a's run where every lane is empty, and BKPT once it has been
retried. TRET completes for every action: its lowest non-empty lane answers the record that its context has, every later one finds none
and gives 1 (R420). Of an answer: no record gives 1, a LANTERN record is released and gives 2; else retry lets the firing be performed
again, skip marks it fired with EMPTY lanes, and kill, or any action on a DUPLICATE, kills the context (R230, R420). -/
def Obligations.TrapsAndTheirReturn : Prop :=
  ∀ s : State, let o := operands s
    (let f := portFmt s.here s.focus.frame s.focus.ins .a
     let passed (d : Dst) : State := finish s d f f ⟨o.a, o.key, o.count⟩ ⟨o.a, o.key, o.count⟩
     (∀ d code, (∀ l ∈ o.a, l = none) → exec (.trap d code) s = .next (passed d)) ∧
     (∀ d obj, ((∀ l ∈ o.a, l = none) ∨ 0 < (resumeHere s).lane) → exec (.bkpt d obj) s = .next (passed d))) ∧
    (∀ (l1 : List Lane) v rest, o.a = l1 ++ some v :: rest → (∀ x ∈ l1, x = none) →
      (∀ d (code : BitVec 12), ∃ t y, exec (.trap d code) s = .next t ∧ StoppedAtFault s t 0x0C (v.zeroExtend 64) ∧
        t.here.stops = s.here.stops ++ [y] ∧ y.record.detail = BitVec.ofNat 64 (code.toNat + l1.length * 2 ^ 16)) ∧
      (∀ d (obj : BitVec 6), (resumeHere s).lane = 0 →
        ∃ t y, exec (.bkpt d obj) s = .next t ∧ StoppedAtFault s t 0x0D (v.zeroExtend 64) ∧
          t.here.stops = s.here.stops ++ [y] ∧ y.record.detail = BitVec.ofNat 64 (obj.toNat + l1.length * 2 ^ 8)) ∧
      ∀ d act srcA, let action : TretAct := if srcA then (if v.extractLsb' 0 2 = 0 then .retry else if v.extractLsb' 0 2 = 1 then .skip
          else .kill) else act
        let r := answerFault s s.focus.ctxId action
        ((∀ x ∈ rest, x = none) ∨ (r.1.ctx s.focus.ctxId).answering = none) →
        let lanes := l1 ++ some r.2 :: rest.map fun l => l.map fun _ => 1
        exec (.tret d act srcA) s = .next (if srcA then finishStatus r.1 d o lanes else finishN32 r.1 d lanes)) ∧
    (∀ d act srcA, (∀ l ∈ o.a, l = none) →
      exec (.tret d act srcA) s = .next (if srcA then finishStatus s d o o.a else finishN32 s d o.a)) ∧
    ∀ (hid : Nat),
      (∀ act, (s.ctx hid).answering = none → answerFault s hid act = (s, 1)) ∧
      ∀ c x, (s.ctx hid).answering = some c → hid / 8 * 8 + c ≠ hid →
        (s.ctx (hid / 8 * 8 + c)).stops.find? Stop.delivered = some x →
        let id := hid / 8 * 8 + c
        let s1 := s.setCtx hid { s.ctx hid with answering := none }
        (∀ act, x.record.code = codeLantern → answerFault s hid act = (removeStop s1 id x, 2)) ∧
        (∀ act, x.record.code = codeDuplicate → answerFault s hid act = (killContext s1 id, 0)) ∧
        (∀ ins num k r, x.site = .firing ins num k r → x.record.code ≠ codeLantern → x.record.code ≠ codeDuplicate →
          (let t := (answerFault s hid .retry).1
           (answerFault s hid .retry).2 = 0 ∧ (t.ctx hid).answering = none ∧ x ∉ (t.ctx id).stops ∧
           (ins, num, k, r) ∈ (t.ctx id).resumes ∧ (t.ctx id).frames = (s.ctx id).frames) ∧
          ((∀ d a b f q n, Image.instr (s.ctx id).image ins ≠ some (.wload d a b f q n)) →
            answerFault s hid .skip = (skipFiring (removeStop s1 id x) id ins num k, 0))) ∧
        (x.record.code ≠ codeLantern → (s.ctx id).active = true → (s.ctx id).killed = false →
          (answerFault s hid .kill).2 = 0 ∧ ((answerFault s hid .kill).1.ctx id).killed = true ∧
          ((answerFault s hid .kill).1.ctx id).frames = [] ∧ ((answerFault s hid .kill).1.ctx id).stops = [])

/-- O44. HALT makes the frame of its lowest non-empty lane the halting frame and discards every younger one, unless an older frame halts
already; a HALT of empty lanes, or behind such a frame, only fires (R349). YLD yields with a non-empty lane, and passes its run (R431);
SNAP asks for a snapshot of its graph at bX + lane × 4096 and answers status 0 (R399); PRIO writes the priority of a context of its tile,
and with src a, port a then being a data operand, its status carries port a's key and count (R34, R382). -/
def Obligations.HaltYieldSnapAndPriority : Prop :=
  ∀ s : State, let o := operands s
    let f := portFmt s.here s.focus.frame s.focus.ins .a
    let fired := s.setHere (markFired s.here s.focus.ins s.focus.frame s.focus.k)
    ((∀ l ∈ o.a, l = none) → exec .halt s = .next fired) ∧
    (∀ l1 v rest, o.a = l1 ++ some v :: rest → (∀ l ∈ l1, l = none) →
      let h := s.focus.frame + l1.length
      (∀ g, s.here.halting = some g → g ≤ h → exec .halt s = .next fired) ∧
      ((∀ g, s.here.halting = some g → h < g) →
        ∃ t, exec .halt s = .next t ∧ t.here.halting = some h ∧ (s.here.inflight = [] → t.here.firings = s.here.firings + 1) ∧
          (∀ fr ∈ t.here.frames, fr.num ≤ h) ∧ t.here.ahead = min s.here.ahead (h + 1) ∧ t.mem = s.mem ∧
          ∀ j, j ≠ s.focus.ctxId → t.ctx j = s.ctx j)) ∧
    (∀ d, let run : Run := ⟨o.a, o.key, o.count⟩
      (o.a.any Option.isSome = false → exec (.yld d) s = .next (finish s d f f run run)) ∧
      (o.a.any Option.isSome = true → ∃ t, exec (.yld d) s = .next t ∧ t.here.yielding = true ∧
        t = finish (s.setHere { s.here with yielding := true }) d f f run run)) ∧
    (∀ d base pre v, s.focus.k = 1 → o.a = [some v] → s.here.resumes = [] →
      let va := (((baseVa s base : Int) + v.toInt * 4096) % 2 ^ 56).toNat
      va % 4096 = 0 →
      exec (.snap d base pre) s =
        .next (finishStatus (requestSnapshot s s.here.part s.here.launch pre va (some s.focus.ctxId)) d o [some 0])) ∧
    (∀ d (obj val : BitVec 3) v, s.focus.k = 1 → o.a = [some v] →
      let id := s.focus.place * 8 + obj.toNat
      exec (.prio d obj false val) s =
        .next (finishN32 (s.setCtx id { s.ctx id with prio := (0 : BitVec 29) ++ val }) d [some 0]) ∧
      exec (.prio d obj true 0) s =
        .next (finishStatus (s.setCtx id { s.ctx id with prio := v &&& 7 }) d o [some 0]))

/-- O45. SRD completes for every register and part: it answers the half, or both halves, of the register that id and the selected
context name (R401, R402). SWR completes for every register that it may write: the lane's half leaves the other half, reserved bits are
zero, a reserved value leaves its field, a floor field falls at once, and from fd0 to fd5 each rises by grantable, what R94 grants in
the room that the earlier ones left (R94, O42), and a write of part.trigger queues a
launch as a release at package scope (R4, R401, R402, R403). A write of a register that SRD alone may name, or of a handler whose context has no TH,
takes PROTECTION and writes nothing (R402, R403). -/
def Obligations.SystemRegistersReadAndWrite : Prop :=
  ∀ s : State, let o := operands s
    (∀ d obj oth c reg v, s.focus.k = 1 → o.a = [some v] →
      let id := s.focus.place * 8 + (if oth then c.toNat else s.focus.ctx)
      let w := sysRead s id (obj : BitVec 6).toNat reg
      let s1 := if reg = .trigger then s.setPart s.here.part { s.part s.here.part with ovf := false } else s
      exec (.srd d obj oth c .lo reg) s = .next (finishN32 s1 d [some (w.extractLsb' 0 32)]) ∧
      exec (.srd d obj oth c .hi reg) s = .next (finishN32 s1 d [some (w.extractLsb' 32 32)]) ∧
      exec (.srd d obj oth c .both reg) s =
        .next (finish s1 d fmtN32 fmtN32 ⟨[some (w.extractLsb' 0 32)], 0, 0⟩ ⟨[some (w.extractLsb' 32 32)], 0, 0⟩)) ∧
    (∀ id ch, let x := s.ctx id
      let p := s.part s.here.part
      let t := s.tile s.focus.place
      let r := sysRead s id ch
      r .almanac = s.copies.getD s.focus.die 0 ∧ r .prio = x.prio.zeroExtend 64 ∧ r .floor = x.floor ∧
      r .handler = x.handler.zeroExtend 64 ∧ r .fpmode = x.fpmode.zeroExtend 64 ∧ r .fpflags = x.fpflags.zeroExtend 64 ∧
      (∀ n, r (.base n) = x.bases.getD n.toNat 0) ∧ r .sram = t.sram.zeroExtend 64 ∧ r .limit = t.limit ∧
      r .htab = SMap.get 0 t.htab ch ∧ r .ways = p.ways.zeroExtend 64 ∧ r .bw = p.bw.zeroExtend 64 ∧ r .vcw = p.vcw.zeroExtend 64 ∧
      r .trigger = p.lastSlot ++ BitVec.ofNat 5 (p.queue.length + p.running.length) ++ BitVec.ofBool p.ovf ++ (0 : BitVec 49) ++ p.st ∧
      r .kvpool = p.kvpool ∧ r .clk = p.clk.zeroExtend 64 ∧ r .kvgive = p.kvgive ∧ r .vigil = p.vigil ∧
      r .ringNext = SMap.get 0 s.ringNext s.focus.die ∧ r .unmap = s.unmapReg) ∧
    (∀ d obj oth c reg v, s.focus.k = 1 → o.a = [some v] →
      reg ∉ [SysReg.almanac, .sram, .htab, .ways, .bw, .vcw, .kvpool, .clk, .kvgive, .ringNext, .unmap] →
      let id := s.focus.place * 8 + (if oth then c.toNat else s.focus.ctx)
      let old := sysRead s id 0 reg
      let wrote (part : Half) (w : W64) : Prop := badHandler s id reg w = false →
        exec (.swr d obj oth c part reg) s = .next (finishStatus (sysWrite s id reg w) d o [some 0])
      wrote .lo (old.extractLsb' 32 32 ++ v) ∧ wrote .hi (v ++ old.extractLsb' 0 32) ∧ ∀ u, o.b = [some u] → wrote .both (u ++ v)) ∧
    (∀ id (w : W64), let x := s.ctx id
      let lo := w.extractLsb' 0 32
      let t := s.tile s.focus.place
      let p := s.part s.here.part
      sysWrite s id .prio w = s.setCtx id { x with prio := lo &&& 7 } ∧
      sysWrite s id .fpflags w = s.setCtx id { x with fpflags := lo &&& 31 } ∧
      sysWrite s id .fpmode w = s.setCtx id
        { x with fpmode := (lo &&& 0xF8) ||| (if (lo &&& 7).toNat ≤ 5 then lo &&& 7 else x.fpmode &&& 7) } ∧
      sysWrite s id .handler w = s.setCtx id
        { x with handler := (lo &&& 0xF0000000) ||| ((if lo.extractLsb' 26 2 = 0 then lo else x.handler) &&& 0x0FFE0000) } ∧
      (∀ n, sysWrite s id (.base n) w = s.setCtx id { x with bases := x.bases.set n.toNat (w &&& 0x00FFFFFFFFFFFFFF) }) ∧
      sysWrite s id .limit w = s.setTile s.focus.place { t with
        limit := (w &&& 0xC03FFF00FFFFFFFF) ||| ((if (w.extractLsb' 54 8).toNat ≤ 143 then w else t.limit) &&& 0x3FC0000000000000) } ∧
      sysWrite s id .vigil w = s.setPart s.here.part { p with
        vigil := (w &&& 0x00FFFFFFFFFFF000) |||
          ((if 16 ≤ (w.extractLsb' 58 6).toNat ∧ (w.extractLsb' 58 6).toNat ≤ 40 then w else p.vigil) &&& 0xFC00000000000000) } ∧
      (∃ f, sysWrite s id .floor w = s.setCtx id { x with floor := f } ∧ f.extractLsb' 48 4 = 0 ∧
        f.extractLsb' 52 12 = (if w.extractLsb' 52 12 = 0 then x.floor.extractLsb' 52 12 else w.extractLsb' 52 12) ∧
        ∀ n, n < 6 → let want := (w.extractLsb' (8 * n) 8).toNat
          let now := (f.extractLsb' (8 * n) 8).toNat
          (want ≤ x.fd n → now = want) ∧ (x.fd n ≤ want → x.fd n ≤ now ∧ now ≤ want)) ∧
      (∃ (low : W64) (u : Nat → State), u 0 = s.setCtx id { x with floor := low } ∧
        (∀ n, n < 6 → (low.extractLsb' (8 * n) 8).toNat = min (x.fd n) (w.extractLsb' (8 * n) 8).toNat) ∧
        (∀ n, n < 6 → let y := (u n).ctx id
          let g := grantable (u n) id n ((w.extractLsb' (8 * n) 8).toNat - y.fd n)
          ∃ f, u (n + 1) = (u n).setCtx id { y with floor := f } ∧ (f.extractLsb' (8 * n) 8).toNat = y.fd n + g ∧
            ∀ b, b < 8 * n ∨ 8 * n + 8 ≤ b → f.getLsbD b = y.floor.getLsbD b) ∧
        sysWrite s id .floor w = u 6) ∧
      let s1 := releaseAt s (viaHere s .package) .package
      let q := s1.part s.here.part
      sysWrite s id .trigger w = s1.setPart s.here.part (if 16 ≤ q.queue.length + q.running.length then { q with ovf := true }
        else { q with queue := q.queue ++ [⟨(w.extractLsb' 58 6).toNat, w.getLsbD 57, (w.extractLsb' 3 53).toNat * 8, q.clkNext.isSome⟩] })) ∧
    ∀ d obj oth c part reg v w, s.focus.k = 1 → o.a = [some v] → (part = .both → o.b = [some w]) →
      let id := s.focus.place * 8 + (if oth then c.toNat else s.focus.ctx)
      (reg ∈ [SysReg.almanac, .sram, .htab, .ways, .bw, .vcw, .kvpool, .clk, .kvgive, .ringNext, .unmap] ∨
        (reg = .handler ∧ part = .lo ∧ v.getLsbD 31 = true ∧
          Image.th (s.ctx (id / 8 * 8 + (v.extractLsb' 28 3).toNat)).image = false)) →
      ∃ t, exec (.swr d obj oth c part reg) s = .next t ∧ (∃ y, t.here.stops = s.here.stops ++ [y] ∧ y.record.code = 0x06) ∧
        t.here.frames = s.here.frames ∧ (∀ n, (t.ctx n).handler = (s.ctx n).handler) ∧ t.parts = s.parts ∧ t.tiles = s.tiles

/-! ### Streamer islands (R133 to R136) -/

/-- O46. ARM binds a queue of the partition to a template, or unbinds it, and what stands in the queue keeps the words it came under; CPY
issues one copy of its template for a lane pair and answers the low half of its promised time; WTIL passes a lane whose time has come and
whose copies have landed, and parks at a time to come. TEMPLATE FIRE issues the copy of a lane pair of an armed queue's token once the
die has started, a lone lane with destination offset 0; COPY WORD LAND performs one word and counts it, and the last one ends the copy;
COPY FAULT stops a copy that cannot go on, at ALIGN where its template allows none; PROMISE CHECK goes on with a parked WTIL (R133 to
R136, R218, R317, R332, R333, R426). -/
def Obligations.StreamersCopyAndKeepTime : Prop :=
  ∀ s : State, let o := operands s
    let die := s.focus.die
    (∀ d (q : BitVec 6) (str : BitVec 4) (tpl : BitVec 5) unb v, s.focus.k = 1 → o.a = [some v] → s.here.resumes = [] →
      given s die str.toNat false q.toNat s.here.part = true → given s die str.toNat true tpl.toNat s.here.part = true →
      exec (.arm d q str tpl unb) s = .next (finishN32 (setQueue s die str.toNat q.toNat
        { keepWords s die str.toNat q.toNat (getQueue s die str.toNat q.toNat) with
          armed := if unb then none else some (tpl.toNat, s.focus.ctxId, s.focus.ins, s.focus.frame) }) d [some 0])) ∧
    (∀ d (tpl : BitVec 6) (str : BitVec 4) a b, s.focus.k = 1 → o.a = [some a] → o.b = [some b] → s.here.resumes = [] →
      given s die str.toNat true tpl.toNat s.here.part = true → tplBad (tplOf s die str.toNat tpl.toNat) = false →
      ∃ s1 p x, exec (.cpy d tpl str) s = .next (finishN32 s1 d [some (p.extractLsb' 0 32)]) ∧
        s1 = { s with streamers := s1.streamers, draws := s.draws + 1 } ∧ p = Config.promise s.draws ∧
        findCopy s1 die str.toNat (s.streamer (streamerId die str.toNat)).nextCopy = some x ∧ x.ctx = s.focus.ctxId ∧
        x.ins = s.focus.ins ∧ x.frame = s.focus.frame ∧ x.soff = a.toInt ∧ x.doff = b.toInt ∧ x.promise = p ∧ x.landed = [] ∧
        x.w = tplOf s die str.toNat tpl.toNat) ∧
    (∀ d (tpl : BitVec 6) (str : BitVec 4) v, s.focus.k = 1 → o.a = [some v] → s.here.resumes = [] → s.here.inflight = [] →
      given s die str.toNat true tpl.toNat s.here.part = true →
      let now := (s.time die).toNat
      let at' := promiseTime now v
      (at' ≤ now → lacksWords s die str.toNat tpl.toNat s.focus.ctxId at' = false →
        exec (.wtil d tpl str) s = .next (finishStatus s d o [some v])) ∧
      (now < at' → ∃ t, exec (.wtil d tpl str) s = .next t ∧ t.here.frames = s.here.frames ∧
        t.here.inflight = [⟨s.focus.ins, s.focus.frame, 1, .promise [(0, at')] []⟩])) ∧
    (∀ dd str q tpl id ins frame c f fm k n a lanes rest, let i := queueChan dd str q
      let x := getQueue s dd str q
      x.armed = some (tpl, id, ins, frame) → x.frozen = false → (s.ctx id).started = true →
      (s.inc i).queue = .data c f fm k n lanes :: rest →
      let words := (headWords s dd str tpl x).1
      let s1 := consume (setQueue s dd str q (headWords s dd str tpl x).2) i
      (x.olds = [] → words = tplOf s dd str tpl) ∧
      (∀ b, lanes = [some a, some b] →
        exec (.templateFire dd str q) s = .next (issueCopy s1 dd str tpl words id ins frame true a.toInt b.toInt).1) ∧
      (lanes = [some a] → exec (.templateFire dd str q) s = .next (issueCopy s1 dd str tpl words id ins frame true a.toInt 0).1)) ∧
    (∀ dd str n word x, findCopy s dd str n = some x → x.live = true →
      let stop (s1 : State) (code : BitVec 8) (aux : Option W64) : State :=
        takeFault (editCopy s1 dd str n fun y => y.map fun y => { y with paused := true }) x.ctx code (sourceNo dd (176 + str) 0)
          x.frame x.ins aux none (.copy dd str n word) none
      (x.bad = true → exec (.copyFault dd str n word) s = .next (stop s 0x07 none)) ∧
      (x.bad = false → word < x.total → word ∉ x.landed →
        (∀ s1, copyWord s x word = (s1, .ok ()) →
          exec (.copyWordLand dd str n word) s = .next (countWord (editCopy s1 dd str n fun y =>
            if x.landed.length + 1 = x.total then none else y.map fun y => { y with landed := word :: y.landed }) (tplChan x.w))) ∧
        ∀ s1 e, copyWord s x word = (s1, .error e) →
          exec (.copyFault dd str n word) s = .next (stop s1 e.code (some (natW64 e.va))))) ∧
    ∀ dd tile c ins frame w d (tpl : BitVec 6) (str : BitVec 4) left revised, let id := ctxId dd tile c
      inflightOf (s.ctx id) ins frame = some w → Image.instr (s.ctx id).image ins = some (.wtil d tpl str) →
      w.work = .promise left revised → (s.ctx id).frozen = false →
      exec (.promiseCheck dd tile c ins frame) s = .next (withFocus
        (s.setCtx id { s.ctx id with inflight := (s.ctx id).inflight.filter (· ≠ w) }) id ins frame w.k fun s =>
          wtilGo s d tpl.toNat str.toNat (operands s) revised left)

/-! ### Events of a tile (R95 to R110, R222 to R231) -/

/-- O47. CHANNEL TOKEN ARRIVAL takes a slot and counts the token; CREDIT RETURN brings a credit back, on a channel to another package no
more than the channel has slots; BOUND CHANNEL DELIVERY gives a lane to the first frame that awaits one, and consumes a mark, which its
context counts; OUTPUT TOKEN SEND sends the first token of the channel, once released, for a credit (R95, R96, R103, R109, R238). -/
def Obligations.ChannelEventsMoveTokens : Prop :=
  ∀ (s : State) (die tile ch : Nat), let i := chanId die tile ch
    let ic := s.inc i
    (∀ tok rest, ic.flight = tok :: rest →
      (∀ c, sinkCtx ic.sink = some c → discardsInput (s.ctx (placeOf die tile * 8 + c)) = false) →
      exec (.channelTokenArrival die tile ch) s =
        .next (s.setInc i { ic with queue := ic.queue ++ [tok], flight := rest, received := ic.received + 1 })) ∧
    (let oc := s.outc i
     (descXp oc.desc = false → 0 < oc.returning →
      exec (.creditReturn die tile ch) s = .next (s.setOutc i { oc with credits := oc.credits + 1, returning := oc.returning - 1 })) ∧
     (descXp oc.desc = true → exec (.creditReturn die tile ch) s =
       .next (if oc.credits < descDepth oc.desc then s.setOutc i { oc with credits := oc.credits + 1 } else s))) ∧
    (∀ cx ins p w, ic.sink = .bound cx ins p w → let id := ctxId die tile cx
      (s.ctx id).frozen = false → (s.ctx id).killed = false → ((s.ctx id).splice = none ∨ ic.eos = false) →
      (∀ c cl pay rest, ic.queue = .mark c cl pay :: rest → ∃ t, exec (.boundChannelDelivery die tile ch) s = .next t ∧
        (t.inc i).queue = rest ∧ t.ctx id = { s.ctx id with marks := (s.ctx id).marks + 1 } ∧ ∀ j, j ≠ id → t.ctx j = s.ctx j) ∧
      ∀ c fn fm key ct l rest f fs fr, ic.queue = .data c fn fm key ct [l] :: rest → ic.await = f :: fs →
        (s.ctx id).find f = some fr → fr.fired.getLsbD ins = false → slotAt fr ins p = none →
        ∃ t fr' y, exec (.boundChannelDelivery die tile ch) s = .next t ∧ (t.inc i).queue = rest ∧ (t.inc i).await = fs ∧
          (t.ctx id).find f = some fr' ∧ slotAt fr' ins p = some y ∧ y.lane = l ∧ y.fmt = fm ∧ y.key = key ∧ y.fin = ct ∧
          y.start = true ∧ (t.ctx id).stops = (s.ctx id).stops) ∧
    ∀ cx e, (s.outc i).src = .context cx → let id := ctxId die tile cx
      (s.ctx id).out.find? (fun e => e.chan = ch) = some e → e.released = true → (s.ctx id).frozen = false →
      descEn (s.outc i).desc = true → 0 < (s.outc i).credits →
      ∃ t, exec (.outputTokenSend die tile ch) s = .next t ∧ (t.ctx id).out = (s.ctx id).out.erase e ∧
        (t.outc i).credits = (s.outc i).credits - 1 ∧ (t.outc i).sent = (s.outc i).sent + 1 ∧
        (descXp (s.outc i).desc = false →
          (t.inc (descPeer (s.outc i).desc)).flight = (s.inc (descPeer (s.outc i).desc)).flight ++ [e.tok])

/-- O48. HANDLER TABLE SERVE serves the head token of the entry that R222 picks: a lead entry consumes a mark and gives each lane of a
run that has its frame one at depth 0 with ordinals 0 (R411), and consumes the token with its last lane; another entry allocates one
frame for a token and delivers its lane count, 0 for a mark (R222, R223). A run of empty lanes has format word 0 (R31). The premise on
the frames ahead is that of O10. -/
def Obligations.HandlerTableServesItsEntries : Prop :=
  (∀ (s : State) (die tile ch : Nat) tok rest, let place := placeOf die tile
    let s1 := noteEntryWaits s place 8
    bestOf (entryBefore s1 place) ((List.range 64).filter fun ch => runnable s1 place ch && servable s1 place ch) = some ch →
    (s1.inc (place * 64 + ch)).queue = tok :: rest →
    exec (.handlerTableServe die tile) s = .next (serveEntry s1 place ch tok)) ∧
  ∀ (s : State) (place ch : Nat) (i : BitVec 7) (p : Port) rest, let w := entryOf s place ch
    let id := place * 8 + htabCtx w
    let x := s.ctx id
    htabTarget w = some (.same i p) →
    (∀ fr ∈ x.frames, fr.num < x.ahead ∨
      (fr.num = x.ahead ∧ fr.fired.getLsbD i.toNat = false ∧ ∀ y ∈ fr.slots, ¬ (y.ins = i.toNat ∧ y.port = p))) →
    let made (t : State) (m : Nat) (y : Slot) : Prop := ∃ fr, (t.ctx id).find (x.ahead + m) = some fr ∧ fr.depth = 0 ∧
      fr.o1 = 0 ∧ fr.o2 = 0 ∧ fr.o3 = 0 ∧ fr.o4 = 0 ∧ slotAt fr i.toNat p = some y ∧ y.start = decide (m = 0)
    (∀ c fn fm key ct lanes, (s.inc (place * 64 + ch)).queue = .data c fn fm key ct lanes :: rest → lanes.length ≤ 32 →
      let t := serveEntry s place ch (.data c fn fm key ct lanes)
      (∀ k, htabLead w = true → (entryFrames s place (htabCtx w) lanes.length 0).2 = k → 0 < k →
        (t.inc (place * 64 + ch)).queue = (if k = lanes.length then rest else .data c fn fm key ct (lanes.drop k) :: rest) ∧
        (t.ctx id).ahead = x.ahead + k ∧ (t.ctx id).stops = x.stops ∧
        ∀ m, m < k → ∃ y, made t m y ∧ y.lane = lanes.getD m none ∧ y.key = key ∧
          y.fmt = (if (lanes.take k).all Option.isNone then 0 else fm)) ∧
      (htabLead w = false → mayAllocate s place (htabCtx w) 0 = true →
        (t.inc (place * 64 + ch)).queue = rest ∧ (t.ctx id).ahead = x.ahead + 1 ∧ (t.ctx id).stops = x.stops ∧
        ∃ y, made t 0 y ∧ y.lane = some (BitVec.ofNat 32 lanes.length) ∧ y.fmt = 3)) ∧
    ∀ c cl pay, (s.inc (place * 64 + ch)).queue = .mark c cl pay :: rest →
      let t := serveEntry s place ch (.mark c cl pay)
      (t.inc (place * 64 + ch)).queue = rest ∧
      (htabLead w = true → (t.ctx id).ahead = x.ahead) ∧
      (htabLead w = false → mayAllocate s place (htabCtx w) 0 = true →
        (t.ctx id).ahead = x.ahead + 1 ∧ ∃ y, made t 0 y ∧ y.lane = some 0 ∧ y.fmt = 3)

/-- O49. FRAME COMMIT takes the head frame away once every instruction of the commit bitmap has fired in it, counts, advances the
commit head and releases what now may leave, and with the last frame a closing context accepts; until then, or while it is poisoned or
marked, it commits nothing. Beside its context only the waits that R105 times change. The commit of the halting frame ends its context: an
EOS stands on each of its outputs that has released none, its inputs are consumed up to their EOS, and it counts as accepted (R101,
R103, R105, R106, R227, R349). -/
def Obligations.FramesCommitInOrder : Prop :=
  ∀ (s : State) (die tile c : Nat) (fr : Frame), let id := ctxId die tile c
    let x := s.ctx id
    x.find x.chead = some fr → x.chead < x.ahead → x.frozen = false → x.killed = false →
    (fr.poisoned = false → fr.fired &&& Image.commit x.image = Image.commit x.image → (∀ y ∈ x.stops, y.base ≠ some x.chead) →
      x.halting ≠ some x.chead →
      ∃ t, exec (.frameCommit die tile c) s = .next t ∧ WaitsBeside s t id ∧ (t.ctx id).chead = x.chead + 1 ∧
        (t.ctx id).commits = x.commits + 1 ∧ (t.ctx id).frames = x.frames.filter (fun f => f.num ≠ x.chead) ∧
        (t.ctx id).out.length = x.out.length ∧
        (x.seq.closing = true → x.chead + 1 = x.ahead → (t.ctx id).seq.run = .accepted) ∧
        ∀ e rest, x.out = e :: rest → e.need ≤ x.chead + 1 → ∃ rest', (t.ctx id).out = { e with released := true } :: rest') ∧
    (fr.poisoned = false → fr.fired &&& Image.commit x.image = Image.commit x.image → (∀ y ∈ x.stops, y.base ≠ some x.chead) →
      x.halting = some x.chead → c < 8 →
      ∃ t, exec (.frameCommit die tile c) s = .next t ∧ (t.ctx id).chead = x.chead + 1 ∧ (t.ctx id).commits = x.commits + 1 ∧
        (t.ctx id).frames = x.frames.filter (fun f => f.num ≠ x.chead) ∧ (t.ctx id).seq.run = .accepted ∧
        (∀ n, n < 64 → (s.outc (placeOf die tile * 64 + n)).src = .context c → (s.outc (placeOf die tile * 64 + n)).eos = true ∨
          ∃ e ∈ (t.ctx id).out, e.chan = n ∧ e.tok.isEos = true ∧ e.released = true) ∧
        ∀ n, n < 64 → feedsCtx (s.inc (placeOf die tile * 64 + n)).sink c = true →
          (t.inc (placeOf die tile * 64 + n)).eos = true ∨ (t.inc (placeOf die tile * 64 + n)).queue = []) ∧
    ((fr.poisoned = true ∨ fr.fired &&& Image.commit x.image ≠ Image.commit x.image ∨ ∃ y ∈ x.stops, y.base = some x.chead) →
      ∃ t, exec (.frameCommit die tile c) s = .next t ∧ WaitsBeside s t id ∧ t.ctx id = { x with seq := { x.seq with
        wait := (t.ctx id).seq.wait, entry := (t.ctx id).seq.entry, gwait := (t.ctx id).seq.gwait, goal := (t.ctx id).seq.goal } })

/-- O50. TAG EXHAUSTED records 65,536 ticks of a wait without a commit (R105); FIRING AGING raises a ready firing's effective priority by
one (R224); YIELD EXPIRY ends a yield (R431); FAULT DELIVERY gives a record that is due to the report queue and kills its context, or holds
it while the queue is full, or gives it to the handler context's h15 (R227, R229, R231, R266). The waits of the tile are brought up to
date before: s1. -/
def Obligations.WaitsAgesYieldsAndDelivery : Prop :=
  ∀ (s : State) (die tile c : Nat), let id := ctxId die tile c
    let s1 := noteTile s (placeOf die tile)
    let x := s1.ctx id
    (∀ start index hdr depth, x.seq.wait = some start → throttledAt s1 id = some (index, hdr, depth) → x.frozen = false →
      x.killed = false → x.stops = [] → max start x.lastCommit + 65536 ≤ (s.time die).toNat →
      ∃ t y, exec (.tagExhausted die tile c) s = .next t ∧ OnlyContext s1 t id ∧ (t.ctx id).stops = [y] ∧ y.record.code = 0x03 ∧
        y.record.index = BitVec.ofNat 12 index ∧ y.record.frame = BitVec.ofNat 12 x.ahead ∧ y.record.aux = hdr ∧
        y.record.detail.extractLsb' 42 6 = BitVec.ofNat 6 depth ∧ y.record.detail.extractLsb' 30 12 = BitVec.ofNat 12 x.live) ∧
    (∀ ins frame k, fires (s.ctx id) = true → (frame, k) ∈ firingsOf s id ins →
      ∃ t, exec (.firingAging die tile c ins frame) s = .next t ∧ OnlyContext s t id ∧
        effPrio (t.ctx id) ins frame = min 7 (effPrio (s.ctx id) ins frame + 1) ∧ (t.ctx id).frames = (s.ctx id).frames) ∧
    exec (.yieldExpiry die tile c) s = .next (s.setCtx id { s.ctx id with yielding := false }) ∧
    ∀ y, nextDelivery x = some y → x.frozen = false → y.record.code ≠ codeLantern →
      let room : Prop := ((s1.part x.part).prod - (s1.part x.part).cons).toNat < 64 ∧ (s1.part x.part).waiting = []
      (toOwner s1 id y.record = true → x.active = true → x.killed = false →
        (room → ∃ t, exec (.faultDelivery die tile c) s = .next t ∧ (t.part x.part).prod = (s1.part x.part).prod + 1 ∧
          SMap.find? (t.part x.part).reports ((s1.part x.part).prod.toNat % 64) = some y.record ∧ (t.ctx id).killed = true) ∧
        (¬ room → ∃ t, exec (.faultDelivery die tile c) s = .next t ∧
          (t.part x.part).waiting = (s1.part x.part).waiting ++ [(y.record, some id)] ∧ (t.ctx id).killed = false)) ∧
      (toOwner s1 id y.record = false → let h := id / 8 * 8 + handlerCtx x
        h ≠ id → (s1.ctx h).answering = none → (s1.ctx h).seq.wait = none → mayAllocate s1 (id / 8) (handlerCtx x) 0 = true →
        (s1.ctx h).holds.length = 16 →
        ∃ t, exec (.faultDelivery die tile c) s = .next t ∧ (t.ctx h).answering = some (id % 8) ∧
          (t.ctx h).holds.getD 15 [] = recordLanes y.record ∧ (t.ctx h).ahead = (s1.ctx h).ahead + 1 ∧
          ∃ z ∈ (t.ctx id).stops, z.record = y.record ∧ z.delivered = true)

/-! ### Operator units (R112 to R126) -/

/-- O51. READ sends the elements of its row up to a line boundary, the marks of the dimensions that a step closes, and past its shape EOS
(R114). WRITE stores a lane at its position and moves on, and a mark moves it to the next position of the dimension that it closes (R115).
QUEUE lays a token into the scratchpad with its header, mask and lanes, from which the same token reads back, takes it while it has room,
and sends its oldest as it reads it back, a poisoned one not (R116, R434); zeros in the lanes that are empty or past the run are the
model's choice (log 50). FANOUT sends its head token to every enabled output once each holds a credit (R113). ROUTE gives a token to the
output of its key, or drops and counts it, splits it by the predicate, or copies a held row to the expert that a log entry names, and
sends marks to every bound output (R117, R125). A unit whose p0.fmt is 0 acts on n32 (log 48), and WRITE stores a lane whole that begins
inside ext0 and ends beyond it (log 49): the model's choices. MERGE passes the token of its current input, or in key mode the head with the smallest
key (R118). -/
def Obligations.StreamUnitsMoveTokens : Prop :=
  (∀ (chan : BitVec 6) (c : BitVec 3) (fn : BitVec 12) (fm : BitVec 4) (k : BitVec 12) (n : BitVec 4) (l : List Lane) (mask : W32)
      (payload : Nat → W32), fm ≠ 0 → fm ≠ 1 → fm ≠ 5 → 1 ≤ l.length → l.length ≤ 32 →
    (∀ j, j < l.length → mask.getLsbD j = (l.getD j none).isNone ∧ ∀ v, l.getD j none = some v → payload j = v) →
    Token.ofStored ((Token.data c fn fm k n l).header chan 0) mask payload = some (.data c fn fm k n l)) ∧
  (∀ (chan : BitVec 6) c m pay mask payload, Token.ofStored ((Token.mark c m pay).header chan 0) mask payload = some (.mark c m pay)) ∧
  ∀ (s : State) (die tile : Nat), let place := placeOf die tile
    (∀ n ch, n < 2 → let i := place * 64 + (18 + n)
      let o := s.unit i
      let tag := BitVec.ofNat 3 o.owner
      unitReady o = true → o.started = true → o.ended = false → sbarHolds s place (18 + n) = false →
      unitOut s place (18 + n) 0 = some ch → canSend s ch = true →
      (o.past = true → exec (.readEmit die tile n) s = .next (endUnit (sendOn s ch (.mark tag .eos 0)) i)) ∧
      (o.past = false → o.i0 < extent o 0 → rowStart s place o % 4 = 0 →
        let va := (rowStart s place o + o.i0 * elemWidth (unitFmt o) / 8) % 2 ^ 56
        let epl := (unitFmt o).epl
        let m := min (min 32 (max 1 ((128 - va % 128) / 4))) ((extent o 0 - o.i0 + epl - 1) / epl)
        let last := min (extent o 0 - o.i0) (m * epl) - (m - 1) * epl
        let count := if last < epl then last else 0
        ∀ (s1 : State) (l : List W32), readLanes s (viaUnit s place (18 + n) o) va false m = (s1, l.map .ok) →
          ∃ t, exec (.readEmit die tile n) s = .next t ∧ t.mem = s1.mem ∧ t.ctxs = s1.ctxs ∧
            t.inc (descPeer (s1.outc ch).desc) = (sendOn s1 ch (.data tag 0 (unitFmt o).code (unitKey o) (BitVec.ofNat 4 count)
              (trimLast (unitFmt o) count (l.map some)))).inc (descPeer (s1.outc ch).desc)) ∧
      (o.past = false → extent o 0 ≤ o.i0 → ∀ c, (stepMarks o)[o.dim]? = some c →
        ∃ t, exec (.readEmit die tile n) s = .next t ∧ t.outs = (sendOn s ch (.mark tag c 0)).outs ∧
          t.ins = (sendOn s ch (.mark tag c 0)).ins ∧
          (o.dim + 1 < (stepMarks o).length → (t.unit i).dim = o.dim + 1 ∧ (t.unit i).i1 = o.i1))) ∧
    (∀ n ch c m pay, n < 2 → let i := place * 64 + (20 + n)
      let o := s.unit i
      UnitWaits s place (20 + n) → headOf s place (20 + n) 0 = some (ch, .mark c m pay) → m ≠ .eos →
      dimClass o 0 = m.code → o.i1 < extent o 1 → o.i2 < extent o 2 →
      ∃ t, exec (.writeStore die tile n) s = .next t ∧ UnitMade s t place (20 + n) ch [] ∧ t.mem = s.mem ∧ t.tiles = s.tiles ∧
        (t.unit i).i0 = 0 ∧ (t.unit i).i3 = o.i3 ∧
        (o.i1 + 1 < extent o 1 ∨ dimClass o 1 ≠ 0 → (t.unit i).i1 = o.i1 + 1 ∧ (t.unit i).i2 = o.i2) ∧
        (o.i1 + 1 = extent o 1 → dimClass o 1 = 0 → o.i2 + 1 < extent o 2 → (t.unit i).i1 = 0 ∧ (t.unit i).i2 = o.i2 + 1)) ∧
    (∀ n ch c fn fm k cnt w s1, n < 2 → let i := place * 64 + (20 + n)
      let o := s.unit i
      let s0 := drain s place (20 + n)
      UnitWaits s place (20 + n) → headOf s place (20 + n) 0 = some (ch, .data c fn fm k cnt [some w]) → o.skipping = 0 →
      o.i0 < extent o 0 → o.i1 < extent o 1 → o.i2 < extent o 2 → o.i3 < extent o 3 →
      storeLane s0 (viaUnit s place (20 + n) o) ((rowStart s place o + o.i0 * elemWidth (unitFmt o) / 8) % 2 ^ 56) w
        (validMask (unitFmt o) cnt.toNat) = (s1, .ok 0) →
      ∃ t, exec (.writeStore die tile n) s = .next t ∧ (t.inc ch).queue = (s1.inc ch).queue.tail ∧ (t.unit i).out = [] ∧
        t.mem = s1.mem ∧ t.l2 = s1.l2 ∧ t.tiles = s1.tiles ∧
        (o.i0 + (unitFmt o).epl < extent o 0 ∨ dimClass o 0 ≠ 0 → (t.unit i).i0 = o.i0 + (unitFmt o).epl ∧ (t.unit i).i1 = o.i1) ∧
        (extent o 0 ≤ o.i0 + (unitFmt o).epl → dimClass o 0 = 0 → o.i1 + 1 < extent o 1 →
          (t.unit i).i0 = 0 ∧ (t.unit i).i1 = o.i1 + 1)) ∧
    (let i := place * 64 + 22
     unitOpen s place 22 = true →
      (∀ ch tok, headOf s place 22 0 = some (ch, tok) → (s.unit i).store.length < queueCap (s.unit i) →
        ∃ t off, exec (.queueToken die tile false) s = .next t ∧ (t.unit i).store = (s.unit i).store ++ [(0, off)] ∧
          (t.inc ch).queue = (s.inc ch).queue.tail ∧ t.outs = s.outs ∧
          ∀ b, b < 144 → Memory.read (t.tile place).scratch (off + b) = (tokenBytes (BitVec.ofNat 6 ch) tok).getD b 0) ∧
      ∀ k off rest ch s1, (s.unit i).store = (k, off) :: rest → unitOut s place 22 0 = some ch → canSend s ch = true →
        (∀ tok, loadToken s place off ((s.unit i).skipping != 0) = (s1, .ok tok) →
          exec (.queueToken die tile true) s = .next (grantPlaces (editUnit (sendOn s1 ch tok) i fun o =>
            { o with store := rest, ended := o.ended || tok.isEos, skipping := 0, halfway := false }) place)) ∧
        ∀ j e, loadToken s place off ((s.unit i).skipping != 0) = (s1, .error (j, e)) →
          exec (.queueToken die tile true) s = .next (unitFault s1 place 22 e j)) ∧
    (∀ ch tok, unitOpen s place 23 = true → headOf s place 23 0 = some (ch, tok) →
      let i := place * 64 + 23
      let outs := (List.range 4).filterMap fun n => if ((s.unit i).p.getD 0 0).getLsbD n then unitOut s place 23 n else none
      (outs.all (canSend s) = true →
        let s1 := consume (outs.foldl (fun s o => sendOn s o tok) s) ch
        exec (.fanoutToken die tile) s = .next (if tok.isEos then endUnit s1 i else s1)) ∧
      (outs.all (canSend s) = false → exec (.fanoutToken die tile) s = .next s)) ∧
    (∀ ch c fn fm k n l, UnitWaits s place 24 → headOf s place 24 0 = some (ch, .data c fn fm k n l) →
      ((s.unit (place * 64 + 24)).p.getD 0 0).toNat % 4 = 0 →
      let dropped : Prop := ∃ t, exec (.routeToken die tile) s = .next t ∧ UnitMade s t place 24 ch [] ∧
        ((s.unit (place * 64 + 24)).cnt ≠ 0xFFFFFF → (t.unit (place * 64 + 24)).cnt = (s.unit (place * 64 + 24)).cnt + 1)
      (∀ p, routeOutput (s.unit (place * 64 + 24)) k.toNat = some p →
        ((unitOut s place 24 p).isSome = true → ∃ t, exec (.routeToken die tile) s = .next t ∧
          UnitMade s t place 24 ch [(p, .data c fn fm k n l)]) ∧
        (unitOut s place 24 p = none → dropped)) ∧
      (routeOutput (s.unit (place * 64 + 24)) k.toNat = none → dropped)) ∧
    (∀ ch tok, UnitWaits s place 24 → headOf s place 24 0 = some (ch, tok) →
      ((s.unit (place * 64 + 24)).p.getD 0 0).toNat % 4 ≤ 1 → tok.isMark = true →
      ∃ t, exec (.routeToken die tile) s = .next t ∧ UnitMade s t place 24 ch ((boundOuts s place 24 8).map fun p => (p, tok))) ∧
    (∀ ch pc tok q, UnitWaits s place 24 → headOf s place 24 0 = some (ch, tok) → headOf s place 24 1 = some (pc, q) →
      ((s.unit (place * 64 + 24)).p.getD 0 0).toNat % 4 = 1 → tok.isMark = false → q.isMark = false → 1 ≤ tok.lanes.length →
      tok.lanes.length = q.lanes.length →
      let side (one : Bool) (la : List Lane) : Prop := la.length = tok.lanes.length ∧ ∀ j, j < la.length →
        la.getD j none = match q.lanes.getD j none with
          | some w => if decide (w ≠ 0) = one then tok.lanes.getD j none else none
          | none => none
      ∃ t la lb, exec (.routeToken die tile) s = .next t ∧ side true la ∧ side false lb ∧ (t.inc pc).queue = (s.inc pc).queue.tail ∧
        UnitMade s t place 24 ch [(0, (tok.take tok.lanes.length).withLanes la), (1, (tok.take tok.lanes.length).withLanes lb)]) ∧
    (∀ pc q lo hi rest, let o := s.unit (place * 64 + 24)
      UnitWaits s place 24 → (o.p.getD 0 0).toNat % 4 = 2 → o.started = true → o.last = [some lo, none] →
      headOf s place 24 1 = some (pc, q) → q.isMark = false → q.lanes = some hi :: rest →
      ∀ expert p, logEntry lo hi = (false, o.n % 2 ^ 20, expert) → routeOutput o expert = some p → (unitOut s place 24 p).isSome = true →
        ∃ t, exec (.routeToken die tile) s = .next t ∧ (t.unit (place * 64 + 24)).got = true ∧
          (t.unit (place * 64 + 24)).out = (rowData o).map fun d => (p, d.withKey (BitVec.ofNat 12 expert))) ∧
    (∀ ch c fn fm k n l q, UnitWaits s place 25 → ((s.unit (place * 64 + 25)).p.getD 0 0).getLsbD 0 = false →
      nextInput ((mergeInputs s place).filter fun n => !(s.unit (place * 64 + 25)).done.contains n) (s.unit (place * 64 + 25)).cur = some q →
      headOf s place 25 q = some (ch, .data c fn fm k n l) →
      ∃ t, exec (.mergeJoinStreams die tile) s = .next t ∧ UnitMade s t place 25 ch [(0, .data c fn fm k n l)] ∧
        (t.unit (place * 64 + 25)).cur = q) ∧
    ∀ before after ch tok, UnitWaits s place 25 → ((s.unit (place * 64 + 25)).p.getD 0 0).getLsbD 0 = true →
      ((mergeInputs s place).filterMap fun n => headOf s place 25 n) = before ++ (ch, tok) :: after →
      before.length + after.length + 1 = (mergeInputs s place).length → tok.isMark = false →
      (∀ h ∈ before, h.2.isMark = false → tok.key.toNat < h.2.key.toNat) →
      (∀ h ∈ after, h.2.isMark = false → tok.key.toNat ≤ h.2.key.toNat) →
      ∃ t, exec (.mergeJoinStreams die tile) s = .next t ∧ UnitMade s t place 25 ch [(0, tok)]

/-- O52. REORDER lets the token whose number is next go on without its number lane, as it reads it back from its window (R119); GATHER
gives the element of an index in its range, in the format of p0 (n32 for format 0, log 48), from the base and the offset p9, which the
model reads as signed (log 69), and an empty lane
for one out of range, which it counts (R120); INTERSECT emits the coordinate and both values where the sides agree (R122); SELECT collects scores
(R123); REDUCE closes at a mark of its level with its result before the mark (R121); CONVERT flushes its pending elements before a
mark (R126). PARAMETER WRITE EFFECT writes the oldest queued word of a unit between two tokens, or of an island at a boundary of it,
reserved bits zero; behind it the OPSET queues the write of its next non-empty lane, or completes with its status lanes (R376). -/
def Obligations.ComputingUnitsTakeTokens : Prop :=
  ∀ (s : State) (die tile : Nat), let place := placeOf die tile
    (∀ ch c fn fm k n w l back, UnitWaits s place 26 → let o := s.unit (place * 64 + 26)
      headOf s place 26 0 = some (ch, .data c fn fm k n (some w :: l)) → o.store = [] → w.toNat = reorderNext o →
      let off := (o.p.getD 0 0).toNat * 128 + 144 * (w.toNat % 64)
      (loadToken (storeToken s place off (BitVec.ofNat 6 ch) (.data c fn fm k n (some w :: l))) place off (o.skipping != 0)).2 =
        .ok back → 1 < back.lanes.length →
      ∃ t, exec (.reorderToken die tile) s = .next t ∧ (t.unit (place * 64 + 26)).i0 = o.i0 + 1 ∧
        (t.unit (place * 64 + 26)).store = [] ∧ UnitMade s t place 26 ch [(0, back.withLanes (back.lanes.drop 1))]) ∧
    (∀ ch c fn fm k n w, UnitWaits s place 27 → let o := s.unit (place * 64 + 27)
      headOf s place 27 0 = some (ch, .data c fn fm k n [some w]) → (w.getLsbD 31 = true ∨ extent o 0 ≤ w.toNat) → o.cnt ≠ 0xFFFFFF →
      ∃ t, exec (.gatherIndex die tile) s = .next t ∧ (t.unit (place * 64 + 27)).cnt = o.cnt + 1 ∧
        UnitMade s t place 27 ch [(0, Token.make c fn (unitFmt o).code (unitKey o) 0 [none])]) ∧
    (∀ ch c fn fm k n w s1 v, UnitWaits s place 27 → let o := s.unit (place * 64 + 27)
      let bits := elemWidth (unitFmt o)
      headOf s place 27 0 = some (ch, .data c fn fm k n [some w]) → w.getLsbD 31 = false → w.toNat < extent o 0 →
      extent o 0 ≤ 2 ^ 31 →
      gatherElement (drain s place 27) (viaUnit s place 27 o) bits
        (((unitBase s place o : Int) + (o.p.getD 9 0).toInt + (w.toNat : Int) * bits / 8) % 2 ^ 56).toNat (w.toNat % 2 == 1) =
          (s1, .ok v) →
      ∃ t, exec (.gatherIndex die tile) s = .next t ∧ (t.unit (place * 64 + 27)).cnt = (s1.unit (place * 64 + 27)).cnt ∧
        t.mem = s1.mem ∧ (t.inc ch).queue = (s1.inc ch).queue.tail ∧
        (s1.unit (place * 64 + 27) = s.unit (place * 64 + 27) → s1.outs = s.outs →
          (t.unit (place * 64 + 27)).out = [(0, Token.data c fn (unitFmt o).code (unitKey o) 0 [some v])].filter fun e =>
            (unitOut s place 27 e.1).isSome)) ∧
    (∀ w a b (c1 c2 c3 c4 : Nat) ca cb fa fb fva fvb ka kb kva kvb na nb nva nvb cva cvb fna fnb fnva fnvb,
      UnitWaits s place 28 → (s.unit (place * 64 + 28)).last = [none, none] →
      headOf s place 28 0 = some (c1, .data ca fna fa ka na [some w]) → headOf s place 28 1 = some (c2, .data cva fnva fva kva nva [a]) →
      headOf s place 28 2 = some (c3, .data cb fnb fb kb nb [some w]) → headOf s place 28 3 = some (c4, .data cvb fnvb fvb kvb nvb [b]) →
      ∃ t, exec (.intersectPair die tile) s = .next t ∧ (t.unit (place * 64 + 28)).last = [some w, some w] ∧
        (t.unit (place * 64 + 28)).out = [(0, Token.make ca fna fa ka na [some w]), (1, Token.make cva fnva fva kva nva [a]),
          (2, Token.make cvb fnvb fvb kvb nvb [b])].filter fun e => (unitOut s place 28 e.1).isSome) ∧
    (∀ ch c fn fm k n l, UnitWaits s place 29 → let o := s.unit (place * 64 + 29)
      headOf s place 29 0 = some (ch, .data c fn fm k n l) → (o.p.getD 0 0).getLsbD 30 = false → o.rows.length + l.length ≤ 256 →
      ∃ t, exec (.selectSet die tile) s = .next t ∧ UnitMade s t place 29 ch [] ∧
        (t.unit (place * 64 + 29)).rows = o.rows ++ l.map fun v => [v]) ∧
    (∀ ch c m pay, UnitWaits s place 30 → let o := s.unit (place * 64 + 30)
      headOf s place 30 0 = some (ch, .mark c m pay) → markLevel m = ((o.p.getD 0 0).extractLsb' 4 3).toNat → o.acc ≠ [] →
      ∃ t, exec (.reduceToken die tile) s = .next t ∧ (t.unit (place * 64 + 30)).acc = [] ∧
        UnitMade s t place 30 ch [(0, Token.make c 0 (reduceFmt o).code 0 0 (reduceResult o.acc)), (0, .mark c m pay)]) ∧
    (∀ ch c m pay ty, UnitWaits s place 31 → let o := s.unit (place * 64 + 31)
      headOf s place 31 0 = some (ch, .mark c m pay) → convertTarget o = some ty → o.skipping = 0 →
      ∃ t, exec (.convertToken die tile) s = .next t ∧ (t.unit (place * 64 + 31)).elts = [] ∧
        (let els := o.elts.take (o.elts.length - o.i1)
         UnitMade s t place 31 ch ((if els.isEmpty then [] else [(0, convertToken ty c o.key els)]) ++ [(0, .mark c m pay)]))) ∧
    (∀ u w rest, u ≠ 32 → let o := s.unit (place * 64 + u)
      o.writes = w :: rest → o.frozen = false → unitMidToken s place u = false → unitHeld s w.ctx (.op die tile u) = false →
      let s1 := s.setUnit (place * 64 + u) (if w.word = 16 then { o with cnt := w.value.extractLsb' 0 24, writes := rest }
        else { o with p := o.p.set w.word (writeFields (unitFields u w.word) (o.p.getD w.word 0) w.value), writes := rest })
      exec (.parameterWriteEffect die tile u) s = .next (completeOpset (if u = 22 then grantPlaces s1 place else s1) w)) ∧
    (∀ w rest, let x := s.island place
      x.writes = w :: rest → x.frozen = false → islandBoundary s place = true → islandHeld s w.ctx = false →
      let s1 := s.setIsland place (if w.word = 16 then { x with cnt := w.value.extractLsb' 0 24, writes := rest }
        else { x with
          p := x.p.set w.word (writeFields (islandFields x.engine (oddIsland place) w.word) (x.p.getD w.word 0) w.value), writes := rest })
      exec (.parameterWriteEffect die tile 32) s = .next (completeOpset s1 w)) ∧
    ∀ w : ParamWrite, (inflightOf (s.ctx w.ctx) w.ins w.frame = none → completeOpset s w = s) ∧
      ∀ k u word j d obj wd, inflightOf (s.ctx w.ctx) w.ins w.frame = some ⟨w.ins, w.frame, k, .parameter u word j⟩ →
        Image.instr (s.ctx w.ctx).image w.ins = some (.opset d obj wd) →
        let x := focusOn s w.ctx w.ins w.frame k
        let l := (operands x).a
        ((∀ m, j < m → l.getD m none = none) →
          completeOpset s w = { finishStatus x d (operands x) (l.map fun v => v.map fun _ => 0) with focus := s.focus }) ∧
        ∀ m v, j < m → l.getD m none = some v → (∀ n, j < n → n < m → l.getD n none = none) →
          completeOpset s w = { changeWork (queueWrite x x.focus.place u ⟨word, v, w.ctx, w.ins, w.frame⟩) (.parameter u word m) with
            focus := s.focus }

/-! ### Memory, launch and splice events -/

/-- O53. A walk that ends leaves the gate for every request that joined it: one that fails, at an entry that is not valid or is poisoned,
caches and answers nothing, and a page that is mapped is cached and each of its requests goes to the memory of the die that its physical
address selects (R23, R148). A response fills its line, and a poisoned one is dropped, since it is a PREF's (R24, R381). A slice serves the oldest request of the partition
it picked, and a window restarts its counts (R145). A router output sends VC 5 before VC 4 before the others, and behind these VC 0 to 3
by their shares: it visits from its pointer on the first with a packet and a share left, and where no such share is left all are filled
again (R167). The packet goes on to the output of the next router that X-first routing gives; each such hop brings it one router nearer
(R18). An uncorrectable error poisons the granule of DRAM, of a line of the L2 or an L1, or of a scratchpad that it strikes (R159). -/
def Obligations.MemoryEventsServeTheirQueues : Prop :=
  (∀ tile goal : Nat, tile < 144 → goal < 144 → tile ≠ goal →
    let gap (a b : Nat) : Nat := (a - b) + (b - a)
    let far (t : Nat) : Nat := gap (t % 12) (goal % 12) + gap (t / 12) (goal / 12)
    ∀ link, let next := neighbour tile (outputPort tile goal link)
    next < 144 ∧ far next + 1 = far tile ∧ (tile % 12 ≠ goal % 12 → next / 12 = tile / 12)) ∧
  ∀ s : State,
    (∀ die n f, (SMap.get [] s.walks die)[n]? = some f →
      let same (g : Fill) : Bool := g.asid == f.asid && g.line / 512 == f.line / 512
      let s1 := { s with walks := SMap.set s.walks die ((SMap.get [] s.walks die).filter fun g => !same g) }
      s.unmapRun = none →
      ∃ t, exec (.translationWalkComplete die n) s = .next t ∧ t.ctxs = s.ctxs ∧ t.walks = s1.walks ∧
        (∀ e, (gateWalk s1 f.asid (f.line * 128)).2 = .error e → t.tlbs = s.tlbs ∧ t.responses = s.responses) ∧
        ∀ e, (gateWalk s1 f.asid (f.line * 128)).2 = .ok e → e ∈ SMap.get [] t.tlbs die ∧
          ∀ g ∈ SMap.get [] s.walks die, same g = true → ∃ y ∈ SMap.get [] t.responses (memDie (e.phys (g.line * 128))),
            y.asid = g.asid ∧ y.line = g.line ∧ y.tile = g.tile ∧ y.slice = g.slice ∧ y.pa = e.phys (g.line * 128) ∧ y.w = e.w) ∧
    (∀ die n f, (SMap.get [] s.responses die)[n]? = some f → f.tile = none → (∀ l ∈ s.l2, l.dirty = 0) →
      l2Find s (f.canon.getD (f.asid, f.line)).1 (f.canon.getD (f.asid, f.line)).2 = none →
      let s1 := { s with responses := SMap.set s.responses die ((SMap.get [] s.responses die).eraseIdx n) }
      ((dramLine s f.pa).2 ≠ 0 → exec (.memoryResponse die n) s = .next s1) ∧
      ((dramLine s f.pa).2 = 0 →
        ∃ t l, exec (.memoryResponse die n) s = .next t ∧ t.ctxs = s.ctxs ∧ t.mem = s.mem ∧ t.responses = s1.responses ∧
        l ∈ t.l2 ∧ l.named (f.canon.getD (f.asid, f.line)).1 (f.canon.getD (f.asid, f.line)).2 = true ∧
        l.data = (dramLine s f.pa).1 ∧ l.poison = 0 ∧ l.dirty = 0)) ∧
    (∀ slice, exec (.sliceWindowRestart slice) s =
      .next (let q : Slice := SMap.get {} s.slices slice
        { s with slices := SMap.set s.slices slice { q with used := [], cycle := 0 } })) ∧
    (∀ slice p f l, let q := (SMap.get {} s.slices slice).window
      slicePick s q q.asks = some p → q.queue.find? (fun f => f.part = p) = some f → l2Find s f.asid f.line = some l → f.tile = none → s.unmapRun = none →
      let q2 : Slice :=
        { q with queue := q.queue.erase f, used := SMap.set q.used p (SMap.get 0 q.used p + 1), last := p, cycle := q.cycle + 1 }
      exec (.l2SliceRequest slice) s = .next { s with slices := SMap.set s.slices slice q2 }) ∧
    (∀ die tile port v x, let i := routerId die tile port
      let r := SMap.get {} s.routers i
      r.queue.find? (fun x => x.vc = v) = some x → (v = 5 ∨ (v = 4 ∧ r.queue.find? (fun x => x.vc = 5) = none)) →
      let s1 := { s with routers := SMap.set s.routers i { r with queue := r.queue.erase x } }
      exec (.routerArbitration die tile port) s = .next (passOn s1 die tile port x) ∧
      ∀ goal, port ≠ 0 → port ≠ 5 → exitRouter die x = some goal →
        let j := routerId die (neighbour tile port) (outputPort (neighbour tile port) goal (leavesDie die x))
        let r1 := SMap.get {} s1.routers j
        passOn s1 die tile port x = { s1 with routers := SMap.set s1.routers j { r1 with queue := r1.queue ++ [x] } }) ∧
    (∀ die tile port v p x, let i := routerId die tile port
      let r := SMap.get {} s.routers i
      let has (u : Nat) : Bool := r.queue.any fun y => y.vc == u
      let sh := if (List.range 4).any (fun u => decide (0 < r.shares.getD u 0) && has u) then r.shares else [4, 4, 3, 5]
      (∀ y ∈ r.queue, y.vc < 4) → v < 4 → 0 < sh.getD v 0 → has v = true →
      (∀ n, n < (v + 4 - r.pointer % 4) % 4 → sh.getD ((r.pointer + n) % 4) 0 = 0 ∨ has ((r.pointer + n) % 4) = false) →
      headPacket r v p = some x →
      let sends (c : Router) : Prop := exec (.routerArbitration die tile port) s =
        .next (passOn { s with routers := SMap.set s.routers i { sentPacket (setDeficit c v p (deficit c v p - x.flits)) x with
          shares := sh.set v (sh.getD v 0 - x.flits), pointer := (v + 1) % 4 } } die tile port x)
      (SMap.find? r.turns v = some p → x.flits ≤ deficit r v p → sends r) ∧
      ((∀ q y, SMap.find? r.turns v = some q → headPacket r v q = some y → deficit r v q < y.flits) →
        roundRobin ((SMap.find? r.turns v).getD 31) (fun q => (headPacket r v q).isSome) = some p →
        x.flits ≤ deficit r v p + vcWeight s p v →
        sends { setDeficit r v p (deficit r v p + vcWeight s p v) with turns := SMap.set r.turns v p })) ∧
    (∀ asid line gran l, l2Find s (BitVec.ofNat 8 asid) line = some l →
      ∃ t, exec (.uncorrectableError (.l2 asid line gran)) s = .next t ∧ t = { s with l2 := t.l2 } ∧
        l2Find t (BitVec.ofNat 8 asid) line = some { l with poison := l.poison ||| BitVec.twoPow 16 (gran % 16) }) ∧
    (∀ die tile asid line gran l, let p := placeOf die tile
      l1Find (s.tile p) (BitVec.ofNat 8 asid) line = some l →
      ∃ t, exec (.uncorrectableError (.l1 die tile asid line gran)) s = .next t ∧
        t = s.setTile p { s.tile p with l1 := (t.tile p).l1 } ∧
        l1Find (t.tile p) (BitVec.ofNat 8 asid) line = some { l with poison := l.poison ||| BitVec.twoPow 16 (gran % 16) }) ∧
    (∀ pa, isHole pa = false →
      ∃ t, exec (.uncorrectableError (.dram pa)) s = .next t ∧ t = { s with dramPoison := t.dramPoison } ∧
        ∀ g, g ∈ t.dramPoison ↔ (g = pa / 64 ∨ g ∈ s.dramPoison)) ∧
    ∀ die tile off, let p := placeOf die tile
      off < scratchSize (s.tile p) →
      ∃ t, exec (.uncorrectableError (.scratch die tile off)) s = .next t ∧
        t = s.setTile p { s.tile p with poison := (t.tile p).poison } ∧
        ∀ g, g ∈ (t.tile p).poison ↔ (g = off / 8 ∨ g ∈ (s.tile p).poison)

/-- O54. A write to part.trigger queues a launch or a restore, or sets ovf while sixteen are queued or running (R213). The first queued
launch, once what it names is read, starts when its contexts are idle or can splice, and ends with the outcome that refuses it where its
slot holds no graph or its list or image is bad (R213, R214, R215). A die scheduler that finds a tile off the grid or of another partition,
or any other fault in its part, refuses the launch with st 4 and reports ILLEGAL to the owner (R216). One that finds its part in order
acknowledges it and configures its idle contexts. Once every die has acknowledged, those of the other packages of a ring graph as well,
the start reaches each of them, and arms the queues of a launch that restores no image (R218). -/
def Obligations.LaunchesStartAndArePlaced : Prop :=
  ∀ (s : State) (part : Nat), let p := s.part part
    (∀ v, p.live = true →
      let t := s.setPart part (if 16 ≤ p.queue.length + p.running.length then { p with ovf := true }
        else { p with queue := p.queue ++ [⟨triggerSlot v, triggerRs v, triggerList v, p.clkNext.isSome⟩] })
      (triggerRs v = false → exec (.launch part v) s = .next t) ∧ (triggerRs v = true → exec (.restore part v) s = .next t)) ∧
    (∀ l rest s1 slot src, p.queue = l :: rest → ckptHolds s part l = false → p.freeing = false → l.held = false →
      launchSource s part l = (s1, slot, src) →
      (∀ st, src = .error st → ∃ t r, exec (.launchStart part) s = .next t ∧ t = s1.setPart part (t.part part) ∧
        (t.part part).running = p.running ++ [r] ∧ (t.part part).queue = rest ∧ r.refused = some st ∧ r.launch.slot = slot) ∧
      (∀ g image, src = .ok (g, image) → canStart s part g = false → exec (.launchStart part) s = .next s) ∧
      (∀ g image, src = .ok (g, image) → canStart s part g = true →
        ∃ t r, exec (.launchStart part) s = .next t ∧ t = s1.setPart part (t.part part) ∧
          (t.part part).running = p.running ++ [r] ∧ (t.part part).queue = rest ∧ r.refused = none ∧ r.launch.slot = slot ∧
          r.ctxs = graphCtxs r.graph ∧ r.image = image ∧ r.acked = [] ∧ r.started = [])) ∧
    (∀ l, l.rs = false → SMap.find? p.slots l.slot = none → launchSource s part l = (s, l.slot, .error 3)) ∧
    (∀ l g, l.rs = false → SMap.find? p.slots l.slot = some g → l.plist = 0 → launchSource s part l = (s, l.slot, .ok (g, []))) ∧
    (∀ g, (∀ id ∈ graphCtxs g, (s.ctx id).active = false) → canStart s part g = true) ∧
    (∀ g d, (∃ x ∈ d.tiles, d.holds x = false ∨ SMap.find? s.owners (d.place x) ≠ some part) → dieCheck s part g d ≠ none) ∧
    (∀ die r d,
      p.running.find? (fun r => r.refused.isNone && !r.killed && !r.acked.contains die && (r.graph.die? die).isSome) = some r →
      r.graph.die? die = some d →
      (∀ id ∈ dieCtxs d, (s.ctx id).active = true → (s.ctx id).part = part →
        (s.ctx id).launch = r.id ∨ (s.ctx id).splice.any (fun x => x.1 == r.id) = true) →
      (∀ o, dieCheck s part r.graph d = some o →
        ∃ t, exec (.placement part die) s = .next t ∧ t.mem = s.mem ∧ t.l2 = s.l2 ∧
          (∀ q ∈ (t.part part).running, q.id = r.id → q.refused = some 4) ∧
          ((p.prod - p.cons).toNat < 64 → p.waiting = [] → (t.part part).prod = p.prod + 1 ∧
            ∃ y, SMap.find? (t.part part).reports (p.prod.toNat % 64) = some y ∧ y.code = codeIllegal ∧ y.frame = 0 ∧ y.aux = 0 ∧
              y.source = sourceAt o.place o.unit ∧ y.index = BitVec.ofNat 12 o.index ∧ (∀ n, o.reason = some n → y.detail = natW64 n))) ∧
      (dieCheck s part r.graph d = none → recordsFit s part r.graph r.image die = false →
        ∃ t, exec (.placement part die) s = .next t ∧ ∀ q ∈ (t.part part).running, q.id = r.id → q.refused = some 4) ∧
      (dieCheck s part r.graph d = none → r.image = [] →
        ∃ t, exec (.placement part die) s = .next t ∧
          (∀ q ∈ (t.part part).running, q.id = r.id → die ∈ q.acked) ∧
          ∀ x ∈ d.tiles, ∀ k ∈ x.ctxs, (t.ctx (d.place x * 8 + k.1)).active = true ∧
            ((s.ctx (d.place x * 8 + k.1)).active = false → (t.ctx (d.place x * 8 + k.1)).launch = r.id))) ∧
    ∀ die r d,
      p.running.find? (fun r => r.refused.isNone && !r.started.contains die && (r.graph.die? die).isSome &&
        (r.others || (farPackages s r.graph).isEmpty) && r.graph.dies.all fun d => r.acked.contains d.die) = some r →
      r.graph.die? die = some d →
      ∃ t, exec (.sourceStart part die) s = .next t ∧
        (∀ q ∈ (t.part part).running, q.id = r.id → die ∈ q.started) ∧
        (∀ e ∈ t.ctxs, e.2.launch = r.id → e.1 / 2048 = die → e.2.started = true) ∧
        (∀ e ∈ t.units, e.2.launch = r.id → e.1 / 16384 = die → e.1 % 64 < 20 → e.2.started = true) ∧
        (r.image = [] → ∀ q ∈ d.streams, ∃ z, SMap.find? (t.streamer (streamerId d.die q.str)).queues q.queue = some z ∧
          z.armed.isSome = true) ∧
        ∀ id, (s.ctx id).launch ≠ r.id → t.ctx id = s.ctx id

/-- O55. A context that a running graph holds takes its next configuration into its splice buffer (R220); once EOS has passed its inputs
and it has drained, and no running context still needs the grammar words it changes (R60), the configuration applies, its hold registers
kept (R219, R220).
An operator unit that waits takes its parameters once its own EOS has passed (R220). A launch that can finish leaves the running ones,
its contexts and units idle, its outcome in part.trigger, and vector 0 signalled (R213, R214); one that was neither killed nor pre-empted
keeps the accumulators of REDUCE, the contents of QUEUE and the hold registers (R219). -/
def Obligations.SplicesApplyAndLaunchesFinish : Prop :=
  ∀ s : State,
    (∀ (die tile ctx : Nat) (r : Running) (d : DieConf) (x : TileConf) (k : CtxConf), let id := ctxId die tile ctx
      let c := s.ctx id
      let conf (r : Running) : Option CtxConf := (tileConfAt r (id / 8)).bind fun x => ctxConf? x.2 ctx
      c.active = true → c.killed = false → c.splice = none →
      (s.part c.part).running.find? (fun r => r.refused.isNone && r.id != c.launch && !r.acked.contains die && (conf r).isSome) = some r →
      tileConfAt r (id / 8) = some (d, x) → ctxConf? x ctx = some k →
      exec (.spliceConfig die tile ctx) s = .next (s.setCtx id { c with splice := some (r.id, k) })) ∧
    (∀ (die tile ctx l : Nat) (k : CtxConf) (r : Running) (d : DieConf) (x : TileConf), let id := ctxId die tile ctx
      let c := s.ctx id
      ctx < 8 → c.splice = some (l, k) → runningOf s c.part l = some r → tileConfAt r (id / 8) = some (d, x) →
      drained s id = true → (∀ n ∈ ctxInputs s id, (s.inc (id / 8 * 64 + n)).eos = true) → regionFree s (id / 8) ctx k = true →
      ∃ t, exec (.spliceApply die tile ctx) s = .next t ∧ t.mem = s.mem ∧ (∀ j, j ≠ id → t.ctx j = s.ctx j) ∧
        let y := t.ctx id
        (r.image = [] → y.active = true ∧ y.splice = none ∧ y.part = c.part ∧ y.launch = r.id ∧ y.image = k.image ∧
          y.grammar = k.grammar ∧ y.prio = k.prio &&& 7 ∧ y.frames = [] ∧ y.ahead = 0 ∧ y.chead = 0 ∧ y.stops = [] ∧
          y.seq.run = .running ∧ y.started = r.started.contains (id / 2048) ∧ y.holds = c.holds)) ∧
    (∀ (part : Nat) (r : Running) (a : Nat × Nat) (d : DieConf) (x : TileConf) (u : UnitConf),
      tileConfAt r a.1 = some (d, x) → unitConf? x a.2 = some u → u.u = a.2 → a.2 < 32 → r.image = [] →
      unitTurn s part r a = true →
      (unitFree s a.1 u = false → applyUnit part r s a = s) ∧
      (unitFree s a.1 u = true → let t := applyUnit part r s a
        (t.unit (a.1 * 64 + a.2)).active = true ∧ (t.unit (a.1 * 64 + a.2)).launch = r.id ∧ (t.unit (a.1 * 64 + a.2)).owner = u.owner ∧
        (a.2 = 22 → (t.unit (a.1 * 64 + a.2)).store = (s.unit (a.1 * 64 + a.2)).store) ∧
        (a.2 = 30 → (t.unit (a.1 * 64 + a.2)).acc = (s.unit (a.1 * 64 + a.2)).acc) ∧ t.ctxs = s.ctxs)) ∧
    ∀ (part : Nat) (r : Running) (st : Nat), let p := s.part part
      p.running.findSome? (fun r => (outcomeOf s r).map fun st => (r, st)) = some (r, st) →
      ∃ t, exec (.launchFinish part) s = .next t ∧
        (t.part part).running = (p.running.filter fun q => q.id ≠ r.id) ∧ (t.part part).st = BitVec.ofNat 3 st ∧
        (t.part part).lastSlot = BitVec.ofNat 6 r.launch.slot ∧ (t.part part).queue = p.queue ∧
        t.msix = s.msix ++ [(part + 1, 0)] ∧
        (∀ e ∈ t.ctxs, e.2.part = part → e.2.launch = r.id → e.2.active = false) ∧
        (∀ e ∈ t.units, e.2.launch = r.id → e.2.active = false) ∧
        (∀ e ∈ t.islands, e.2.launch = r.id → e.2.active = false) ∧
        (r.killed = false → r.preempted = false → r.refused = none →
          (∀ id, (t.ctx id).holds = (s.ctx id).holds) ∧
          ∀ n, (t.unit n).store = (s.unit n).store ∧ (t.unit n).acc = (s.unit n).acc)

/-! ### Snapshots, the host port, checkpoints, boot and time -/

/-- O56. A snapshot that is asked for begins at once when none of its graph is in progress (R233, R399); one asked for by slot is of the
first running launch of the slot (log 23). A unit freezes at its first marker (R234). A unit whose channels are caught up has its record
taken, and thaws in checkpoint mode (R234); the record waits for the units of lower source numbers (R305, log 40). When every record of a
checkpoint-mode snapshot is written, what the records leave out (log 15) and then the header follow them (R235, log 40), and a LANTERN
record of one that no context issued enters the report queue (R231, R234). At every tick Vigil begins the window of a context
that it first sees stalled, with the length that holds then (R403), begins it anew after progress, and ends it for one that is not stalled; a context stalled
for its window is killed (R239, R240). -/
def Obligations.SnapshotsFreezeSaveAndComplete : Prop :=
  ∀ s : State,
    (∀ part slot pre va r, let p := s.part part
      s.ckptRun = none → p.running.find? (fun r => r.launch.slot = slot) = some r → (∀ x ∈ p.snaps, x.launch ≠ r.id) →
      ∃ t x, exec (.snapshotRequest part slot pre va) s = .next t ∧ t = s.setPart part (t.part part) ∧
        (t.part part).snaps = p.snaps ++ [x] ∧ x.launch = r.id ∧ x.injected = true ∧ x.pre = pre ∧ x.va = va % 2 ^ 56 ∧
        x.issuer = none ∧ x.time = s.almanac ∧ x.nrec = 0 ∧ x.size = 64) ∧
    (∀ u part x ch, snapshotOf s u = some (part, x) → x.recorded u = false → u ∈ x.inject →
      (∀ d str q, u = .queue d str q → SMap.find? (s.streamer (streamerId d str)).queues q ≠ none) →
      ∃ t, exec (.lanternMarkerArrival u ch) s = .next t ∧ refFrozen t u = true) ∧
    (∀ die tile n part x ch m, let u := UnitRef.op die tile n
      let i := refPlace u * 64 + ch
      snapshotOf s u = some (part, x) → x.recorded u = false → u ∉ x.inject → ch < 64 → (s.inc i).coming = some m →
      consumerRef s i = some u → (s.unit (unitId die tile n)).frozen = false → refOutputs s u = [] →
      exec (.lanternMarkerArrival u ch) s =
        .next ((s.setInc i { s.inc i with coming := none, marker := some m }).setUnit (unitId die tile n)
          { s.unit (unitId die tile n) with frozen := true })) ∧
    (∀ u v part x r rest, snapshotOf s u = some (part, x) → runningOf s part x.launch = some r → refDead s u = false →
      x.recorded u = false → u ∉ x.inject → saveReady s x.all u = true → x.units = v :: rest → v ≠ u →
      x.saved.find? (fun e => e.1 = v) = none → refDead s v = false →
      exec (.unitSaveComplete u) s = .next (editSnap (if x.pre then s else thawRef s u) part x fun _ =>
        { x with
          saved := x.saved ++ [(u, recordBytes s r.graph u ((refInputs s u).map (caughtOf s x.all)))]
          rest := x.rest ++ restBytes s r.graph u })) ∧
    (∀ part x r t0 t1, let p := s.part part
      p.snaps.find? (fun x => x.injected && x.units.isEmpty && !x.whole) = some x → runningOf s part x.launch = some r →
      x.pre = false → x.ckpt = false → x.issuer = none →
      (x.rest = [] ∧ t0 = s ∨ x.rest ≠ [] ∧ partWrite s part (x.va + x.size) x.rest = (t0, .ok ())) →
      partWrite t0 part x.va (imageHeader r.graph x.pre.toNat r.launch.slot x.nrec (x.size + x.rest.length) x.time) = (t1, .ok ()) →
      let p := t1.part part
      (p.prod - p.cons).toNat < 64 → p.waiting = [] →
      ∃ t y, exec (.snapshotComplete part) s = .next t ∧ t.mem = t1.mem ∧ t.l2 = t1.l2 ∧
        (t.part part).prod = p.prod + 1 ∧ SMap.find? (t.part part).reports (p.prod.toNat % 64) = some y ∧
        y.code = 0x0F ∧ y.snap = BitVec.ofNat 64 x.va ∧ t.msix = t1.msix ++ [(part + 1, 1)]) ∧
    (∀ id, let c := s.ctx id
      let w := ((watchAll s).ctx id).watch
      (busyStalled s id = false → w = none) ∧
      (busyStalled s id = true →
        (∀ y, c.watch = some y → y.firings = c.firings → y.commits = c.commits → y.marks = c.marks → w = some y) ∧
        ((∀ y, c.watch = some y → ¬(y.firings = c.firings ∧ y.commits = c.commits ∧ y.marks = c.marks)) →
          w = some ⟨(s.time (id / 2048)).toNat, c.firings, c.commits, c.marks, ((s.part c.part).vigil.extractLsb' 58 6).toNat⟩))) ∧
    ∀ die tile ctx, let id := ctxId die tile ctx
      let c := s.ctx id
      (busyStalled s id = false → exec (.vigilExpiry die tile ctx) s = .next s) ∧
      ∀ y, busyStalled s id = true → c.watch = some y → y.firings = c.firings → y.commits = c.commits → y.marks = c.marks →
        (y.since + 2 ^ y.lw ≤ (s.time die).toNat →
          ∃ t, exec (.vigilExpiry die tile ctx) s = .next t ∧ (t.ctx id).killed = true ∧ (t.ctx id).frames = []) ∧
        ((s.time die).toNat < y.since + 2 ^ y.lw → exec (.vigilExpiry die tile ctx) s = .next s)

/-- O57. A write to gate.unmap with go starts an unmap, whose markers enter the streams of every unit of the address space; a range that
is too large or not aligned sets err (R153, R154), and a write of go 0 clears it and leaves done, there as in part.kvgive (log 25). When the marker of a context or unit emerges, no line of the
range is left in the bank of its tile (R154, R184). The unmap ends when every marker has passed: no line of the range and no cached
translation of it is left (R154). A write to part.kvgive hands its list over and ends with done, and with err as well where an entry is
refused or the list cannot be read (R260, log 26); one to part.clk waits for the partition's launches, one to
rq.cons frees entries of the report queue (R259, R266). -/
def Obligations.UnmapClocksAndQueues : Prop :=
  ∀ s : State,
    (∀ v, s.unmapReg.getLsbD 63 = false →
      let asid : BitVec 8 := v.extractLsb' 53 8
      let body : W64 := (0 : BitVec 3) ++ asid ++ v.extractLsb' 48 5 ++ (0 : BitVec 8) ++ v.extractLsb' 0 40
      (v.getLsbD 63 = false → exec (.unmap 0 v) s = .next { s with unmapReg := (s.unmapReg &&& 0x4000000000000000) ||| body }) ∧
      (v.getLsbD 63 = true →
        (unmapSize v ≤ 26 → unmapPage v % 2 ^ unmapSize v = 0 →
          exec (.unmap 0 v) s = .next { s with
            unmapReg := 0x8000000000000000 ||| body
            unmapRun := some ⟨asid, unmapPage v * 65536, 2 ^ unmapSize v * 65536, streamsOf s asid⟩ }) ∧
        ((26 < unmapSize v ∨ unmapPage v % 2 ^ unmapSize v ≠ 0) →
          exec (.unmap 0 v) s = .next { s with unmapReg := 0x2000000000000000 ||| body }))) ∧
    (∀ r u, s.unmapRun = some r → u ∈ r.pending →
      ∃ t, exec (.unmapMarkerPass u) s = .next t ∧ t.unmapRun = some { r with pending := r.pending.filter (· ≠ u) } ∧
        t.ctxs = s.ctxs ∧ t.parts = s.parts ∧ t.unmapReg = s.unmapReg ∧
        ∀ die tile n, (u = .ctx die tile n ∨ u = .op die tile n) → ∀ l ∈ (t.tile (placeOf die tile)).l1, r.line l = false) ∧
    (∀ r, s.unmapRun = some r → r.pending = [] → unmapFills s r = false →
      ∃ t, exec .unmapComplete s = .next t ∧ t.unmapRun = none ∧ t.unmapReg.getLsbD 63 = false ∧ t.unmapReg.getLsbD 62 = true ∧
        t.unmapReg.getLsbD 61 = false ∧ t.unmapReg.extractLsb' 0 61 = s.unmapReg.extractLsb' 0 61 ∧ t.ctxs = s.ctxs ∧
        (∀ l ∈ t.l2, r.line l = false) ∧ (∀ p ∈ placesOf s, ∀ l ∈ (t.tile p).l1, r.line l = false) ∧
        ∀ g ∈ t.tlbs, ∀ e ∈ g.2, r.meets e.asid (e.va * 2 ^ e.size) (2 ^ e.size) = false) ∧
    ∀ part, let p := s.part part
      p.live = true →
      (∀ v : W64, let list := v &&& 0x00FFFFFFFFFFFFF8
        let r := handOver (s.setPart part { p with kvgive := 0x8000000000000000 ||| list }) part list.toNat
        (v.getLsbD 63 = false → exec (.handOver part v) s =
          .next (s.setPart part { p with kvgive := (p.kvgive &&& 0x6000000000000000) ||| list })) ∧
        (v.getLsbD 63 = true → ∃ t, exec (.handOver part v) s = .next t ∧ t.mem = r.1.mem ∧ t.l2 = r.1.l2 ∧
          (t.part part).kvgive = (if r.2 then 0x4000000000000000 else 0x6000000000000000) ||| list)) ∧
      (∀ v : W64, exec (.clockChange part v) s = .next
        (if clkOk (v.extractLsb' 0 12).toNat then
          s.setPart part { p with clkNext := some (clkWritten p.clk (v.extractLsb' 0 32)) } else s)) ∧
      (∀ c, p.clkNext = some c → p.running = [] → p.queue.all Launch.held = true →
        ∃ t, exec (.clockTakesEffect part) s = .next t ∧ t = { s with parts := t.parts, fabric := t.fabric } ∧
          t.part part = { p with clk := c, clkNext := none, queue := p.queue.map fun l => { l with held := false } } ∧
          ∀ d, d < 4 → (∀ o ∈ s.owners, o.1 / 256 = d → o.2 = part) → (∃ o ∈ s.owners, o.1 / 256 = d) →
            SMap.get 0 t.fabric d = c.toNat) ∧
      ∀ v : W64, let n := v.extractLsb' 0 32
        p.waiting = [] →
        exec (.reportQueueConsume part v) s = .next
          (if (n - p.cons).toNat ≤ (p.prod - p.cons).toNat then s.setPart part { p with cons := n } else s)

/-- O58. A checkpoint starts at a write to host.ckpt with go where a ring port is free, and sets err where none is (R270); a write of go 0 starts nothing and leaves done and err (log 25). Once the graphs are pre-empted the stream is written with main memory, its poison, version and time, and the graphs
of its images are queued to be restored, before the launches that it held; when they stand again the checkpoint ends, with done, or with
err where the write failed (R270); that a failed write queues the restores, too, is log 61. A restore needs the partitions of the stream and no launch; when its read ends, main memory and its
poison are those of the stream and the caches are empty; a read that fails sets err and leaves each byte of main memory as it was or as
the stream has it (R271). -/
def Obligations.CheckpointsAndRestores : Prop :=
  ∀ s : State,
    (∀ v, s.ckpt.getLsbD 63 = true → exec (.checkpoint v) s = .next s ∧ exec (.checkpointRestore v) s = .next s) ∧
    (∀ v : W64, s.ckpt.getLsbD 63 = false → v.getLsbD 63 = false →
      ∃ t, exec (.checkpoint v) s = .next t ∧ t = { s with ckpt := t.ckpt } ∧ t.ckpt.getLsbD 63 = false ∧
        t.ckpt.extractLsb' 61 2 = s.ckpt.extractLsb' 61 2) ∧
    (∀ v : W64, s.ckpt.getLsbD 63 = false → v.getLsbD 63 = true → freePorts s = [] →
      ∃ t, exec (.checkpoint v) s = .next t ∧ t = { s with ckpt := t.ckpt, ckptRun := none } ∧
        t.ckpt.getLsbD 63 = false ∧ t.ckpt.getLsbD 62 = false ∧ t.ckpt.getLsbD 61 = true) ∧
    (∀ v : W64, s.ckpt.getLsbD 63 = false → v.getLsbD 63 = true → freePorts s ≠ [] →
      (∃ t k, exec (.checkpoint v) s = .next t ∧ t.ckpt.getLsbD 63 = true ∧ t.ckptRun = some k ∧ k.restore = false ∧
        k.time = s.almanac ∧ 1 ≤ k.ports ∧ k.ports ≤ (freePorts s).length ∧ t.mem = s.mem ∧ t.storage = s.storage) ∧
      ∃ t, exec (.checkpointRestore v) s = .next t ∧ t = { s with ckpt := t.ckpt, ckptRun := t.ckptRun } ∧
        (if mayRestore s then t.ckpt.getLsbD 63 = true ∧ ∃ k, t.ckptRun = some k ∧ k.restore = true ∧ k.time = s.almanac
         else t.ckpt.getLsbD 63 = false ∧ t.ckpt.getLsbD 61 = true ∧ t.ckptRun = none)) ∧
    (∀ k, s.ckptRun = some k → k.restore = false → k.written = none → (∀ e ∈ s.parts, e.2.running = []) → (∀ l ∈ s.l2, l.dirty = 0) →
      ∃ t, exec .checkpointWriteComplete s = .next t ∧ t.ckptRun = some { k with written := some !k.failed } ∧ t.ckpt = s.ckpt ∧
        t.mem = s.mem ∧
        (k.failed = false → ∃ x, t.storage = some x ∧ x.mem = s.mem ∧ x.poison = s.dramPoison ∧ x.version = s.version ∧ x.time = k.time ∧
          ∀ e ∈ x.slots, e.2 = (s.part e.1).slots) ∧
        ∀ n, n < 32 → (s.part n).live = true →
          (t.part n).queue = ((k.images.filter fun x => x.1 = n).map fun x => ⟨x.2.1, true, x.2.2, false⟩) ++ (s.part n).queue) ∧
    (∀ k good, s.ckptRun = some k → k.restore = false → k.written = some good →
      (k.images.all (restored s) = false → exec .checkpointWriteComplete s = .next s) ∧
      (k.images.all (restored s) = true →
        ∃ t, exec .checkpointWriteComplete s = .next t ∧ t = { s with ckpt := t.ckpt, ckptRun := none } ∧
          t.ckpt.getLsbD 63 = false ∧ t.ckpt.getLsbD 62 = good ∧ t.ckpt.getLsbD 61 = !good)) ∧
    (∀ k, runOutside { s with ckptRun := some k } .storageFails = { s with ckptRun := some { k with failed := true } }) ∧
    ∀ k x, s.ckptRun = some k → k.restore = true → s.storage = some x →
      (∃ t, exec (.checkpointReadComplete true) s = .next t ∧ t.mem = x.mem ∧ t.dramPoison = x.poison ∧ t.l2 = [] ∧
        t.tlbs = [] ∧ (∀ p, (t.tile p).l1 = []) ∧ t.ckptRun = none ∧ t.ckpt.getLsbD 63 = false ∧ t.ckpt.getLsbD 62 = true) ∧
      ∃ t, exec (.checkpointReadComplete false) s = .next t ∧ t.ckptRun = none ∧ t.ckpt.getLsbD 63 = false ∧
        t.ckpt.getLsbD 61 = true ∧ t.ctxs = s.ctxs ∧
        (Memory.wf s.mem → Memory.wf x.mem → ∀ a, Memory.read t.mem a = Memory.read s.mem a ∨ Memory.read t.mem a = Memory.read x.mem a)

/-- O59. A mailbox command ends with done set, go clear, its status, and the mailbox vector (R264). PSETUP of a live partition and PFREE
of one that is not live answer 4; a partition that has drained is released with its tiles and its root entry (R264, R265). ROOT writes a
root entry and drops the cached translations of its ASID (R264). INSTALL and REMOVE of a slot in use answer 4, of
another they write and free it (R264). FWLOAD replaces the copy in flash where the new image verifies (R269). A write to the BAR0
window writes the register it names, one to a half keeps the other half (R263); a setup gives the partition its tiles, its address
space and its root entry (R265). The model's readings are: no grant list for w7 or ngrant 0, 0x03 for slots over 1,024 in sum, and the half
that a write keeps (log 35); which values of a setup descriptor are reserved (log 75); graph images as data and host memory that cannot
be read (log 10, log 16); and the verification by log 9. -/
def Obligations.CommandsAndRegisters : Prop :=
  ∀ s : State,
    (∀ fn st, let t := finishCommand s fn st
      t = { s with mailboxes := t.mailboxes, msix := s.msix ++ [(fn, if fn = 0 then 0 else 3)] } ∧
      (mailbox t fn).cmd.getLsbD 63 = false ∧ (mailbox t fn).cmd.getLsbD 62 = true ∧ (mailbox t fn).cmd.extractLsb' 48 8 = st ∧
      (mailbox t fn).args = (mailbox s fn).args) ∧
    (∀ m, command s 0 1 = some m →
      exec .psetup s = .next (match hostBytes s (arg m 0).toNat 256 with
        | none => finishCommand s 0 0x06
        | some b =>
          let x : Setup := ⟨wordsOf b 32⟩
          if livePart s x.part then finishCommand s 0 0x04
          else if !x.wellFormed || (otherParts s x.part).any fun p => p.asid == x.asid then finishCommand s 0 0x02
          else match readGrants s x with
            | none => finishCommand s 0 0x06
            | some ws => match grantsOf ws with
              | none => finishCommand s 0 0x02
              | some grants =>
                if resourceTaken s x grants then finishCommand s 0 0x03 else finishCommand (setUpPart s x b grants) 0 0x00)) ∧
    (∀ (x : Setup) b grants, let t := setUpPart s x b grants
      (t.part x.part).live = true ∧ (t.part x.part).asid = x.asid ∧ (t.part x.part).queue = [] ∧
      SMap.get 0 t.roots x.asid.toNat = rootEntry (x.word 1) ∧ (∀ p ∈ x.places, SMap.find? t.owners p = some x.part) ∧
      (∀ p, p ∉ x.places → SMap.find? t.owners p = SMap.find? s.owners p) ∧ ∀ n, n ≠ x.part → t.part n = s.part n) ∧
    (∀ m, command s 0 2 = some m → let part := ((arg m 0).extractLsb' 0 5).toNat
      ((s.part part).live = false → exec .pfree s = .next (finishCommand s 0 0x04)) ∧
      ((s.part part).live = true → (s.part part).freeing = false → ∃ t, exec .pfree s = .next t ∧ (t.part part).queue = [] ∧
        (t.part part).freeing = true ∧ (∀ r ∈ (t.part part).running, r.killed = true) ∧
        ∀ id, (t.ctx id).active = true → (t.ctx id).part = part → (t.ctx id).killed = true)) ∧
    (∀ part, (s.part part).live = true → (s.part part).freeing = true → (s.part part).running = [] →
      ∃ t, exec (.partitionRelease part) s = .next t ∧ (t.part part).live = false ∧ (∀ o ∈ t.owners, o.2 ≠ part) ∧
        SMap.find? t.roots (s.part part).asid.toNat = none ∧ (∀ g ∈ t.streamGrants, g.2.2.2.2 ≠ part) ∧
        ∀ q, q ≠ part → t.part q = s.part q) ∧
    (∀ m, command s 0 3 = some m → let asid : BitVec 8 := (arg m 0).extractLsb' 0 8
      let pa := arg m 1
      pa.extractLsb' 0 16 = 0 → pa.extractLsb' 52 12 = 0 →
      ∃ t, exec .root s = .next t ∧ t = { s with roots := t.roots, tlbs := t.tlbs, mailboxes := t.mailboxes, msix := t.msix } ∧
        SMap.get 0 t.roots asid.toNat = (if pa = 0 then 0 else 0x8000000000000000 ||| pa) ∧
        (∀ j, j ≠ asid.toNat → SMap.find? t.roots j = SMap.find? s.roots j) ∧ ∀ g ∈ t.tlbs, ∀ e ∈ g.2, e.asid ≠ asid) ∧
    (∀ part m, command s (part + 1) 0x10 = some m →
      slotBusy (s.part part) ((arg m 0).extractLsb' 0 6).toNat = true →
      exec (.install part) s = .next (finishCommand s (part + 1) 0x04)) ∧
    (∀ part m g, let p := s.part part
      let slot := ((arg m 0).extractLsb' 0 6).toNat
      command s (part + 1) 0x10 = some m → slotBusy p slot = false → SMap.find? s.busImages (arg m 1).toNat = some g →
      g.size = (arg m 2).toNat → g.data = [] → slotBytes p slot + g.size ≤ p.smem →
      exec (.install part) s = .next (if Config.hostReadable (arg m 1).toNat g.size then
        finishCommand (s.setPart part { p with slots := SMap.set p.slots slot g }) (part + 1) 0x00
        else finishCommand s (part + 1) 0x06)) ∧
    (∀ part m, let p := s.part part
      let slot := ((arg m 0).extractLsb' 0 6).toNat
      command s (part + 1) 0x11 = some m →
      exec (.remove part) s = .next (if slotBusy p slot then finishCommand s (part + 1) 0x04
        else finishCommand (s.setPart part { p with slots := SMap.erase p.slots slot }) (part + 1) 0x00)) ∧
    (∀ m, command s 0 4 = some m →
      exec .fwload s = .next (match hostBytes s (arg m 0).toNat (arg m 1).toNat with
        | none => finishCommand s 0 0x06
        | some b => if verifies b then finishCommand { s with flash := b } 0 0x00 else finishCommand s 0 0x05)) ∧
    ∀ part v, part < 32 → let p := s.part part
      p.live = true →
      exec (.registerWrite (part + 1) 0x50 false v) s = .next (s.setPart part { p with vigil := vigilWritten p.vigil v }) ∧
      exec (.registerWrite (part + 1) 0x54 true v) s = .next (s.setPart part
        { p with vigil := vigilWritten p.vigil (v.extractLsb' 0 32 ++ p.vigil.extractLsb' 0 32) })

/-- O60. A reset leaves the state after power-on, in which what the spec states no value for is the model's choice (log 4), and keeps
flash, the storage node and what lies outside the package: the image in flash
boots where it verifies, and a fetch follows where it does not; a fetched copy that verifies boots and is written to flash, the third
that does not ends the boot (R267). Almanac copies are corrected forwards alone (R272), every published health entry holds its days and
its alert (R273), and heat changes no result (R274). -/
def Obligations.BootTimeAndHealth : Prop :=
  ∀ s : State,
    (∃ t, exec .deviceReset s = .next t ∧ t = { State.reset with
        agenda := s.agenda, turns := s.turns, draws := s.draws, flash := s.flash, storage := s.storage, hostMem := s.hostMem
        busImages := s.busImages, hot := s.hot, stage := t.stage, version := t.version } ∧
      t.stage = (if verifies s.flash then 4 else 2) ∧
      t.version = (if verifies s.flash then (imageWord s.flash).extractLsb' 32 16 else 0)) ∧
    (∀ b, s.stage ≠ 2 → exec (.recoveryFetchComplete b) s = .next s) ∧
    (∀ b, s.stage = 2 → exec (.recoveryFetchComplete b) s = .next
      (if verifies b then { s with fetches := s.fetches + 1, flash := b, stage := 4, version := (imageWord b).extractLsb' 32 16 }
       else { s with fetches := s.fetches + 1, failures := s.failures + 1, stage := if s.failures + 1 < 3 then 2 else 5 })) ∧
    (∀ die, die < s.copies.length →
      ∃ t, exec (.almanacCorrection die) s = .next t ∧ t = { s with copies := t.copies } ∧
        (t.copies.getD die 0).toNat = max (s.copies.getD die 0).toNat s.almanac.toNat ∧
        ∀ j, j ≠ die → t.copies.getD j 0 = s.copies.getD j 0) ∧
    (∃ t, exec .healthEvaluation s = .next t ∧ t = { s with health := t.health, draws := t.draws, msix := t.msix } ∧
      ∀ src, src < 80 → healthSource src = true → ∃ w, SMap.find? t.health src = some w ∧
        (w.extractLsb' 8 8).toNat = src ∧ w.extractLsb' 1 7 = 0 ∧
        (w.getLsbD 0 = true ↔ (w.extractLsb' 16 16).toNat < 180)) ∧
    ∀ src : W16,
      (∃ t, exec (.thermalLimit src) s = .next t ∧ t = { s with hot := t.hot } ∧ ∀ x, x ∈ t.hot ↔ (x = src ∨ x ∈ s.hot)) ∧
      ∃ t, exec (.thermalSensorBelowLimit src) s = .next t ∧ t = { s with hot := t.hot } ∧ ∀ x, x ∈ t.hot ↔ (x ≠ src ∧ x ∈ s.hot)

end
end

