-- ==== Sys2Proof/Laws/State.lean ====
section
/-! SUPPORT. What each update of the state leaves: one lemma for each field, and reading back what was written. -/
namespace Sys2Proof

namespace SMap
variable {α : Type}

/-- Writing an entry again replaces it. -/
@[simp] theorem set_set (m : SMap α) (n : Nat) (v w : α) : set (set m n v) n w = set m n w := by
  induction m with
  | nil => simp [set]
  | cons e t ih =>
    obtain ⟨k, x⟩ := e
    by_cases h : k = n
    · simp [set, h]
    · by_cases h2 : n < k
      · simp [set, h, h2]
      · simp [set, h, h2, ih]

/-- An erased entry is gone. -/
@[simp] theorem find?_erase_self (m : SMap α) (n : Nat) : find? (erase m n) n = none := by
  induction m with
  | nil => rfl
  | cons e t ih =>
    obtain ⟨k, x⟩ := e
    by_cases h : k = n
    · simpa [erase, h] using ih
    · simpa [erase, h, find?] using ih

theorem find?_erase_ne (m : SMap α) {n j : Nat} (h : j ≠ n) : find? (erase m n) j = find? m j := by
  induction m with
  | nil => rfl
  | cons e t ih =>
    obtain ⟨k, x⟩ := e
    by_cases hk : k = n
    · subst hk; simpa [erase, find?, h.symm] using ih
    · by_cases hj : k = j
      · subst hj; simp [erase, hk, find?]
      · simpa [erase, hk, find?, hj] using ih

/-- A map that keeps its numbers, read. -/
theorem find?_map (m : SMap α) (f : Nat → α → α) (n : Nat) :
    find? (m.map fun e => (e.1, f e.1 e.2)) n = (find? m n).map (f n) := by
  induction m with
  | nil => rfl
  | cons e t ih =>
    obtain ⟨k, x⟩ := e
    by_cases h : k = n
    · subst h; simp [find?]
    · simpa [find?, h] using ih

/-- What holds of every entry holds of every entry once one has been written for which it holds. -/
theorem forall_set {p : Nat × α → Prop} {m : SMap α} {n : Nat} {v : α} (h : ∀ e ∈ m, p e) (hv : p (n, v)) :
    ∀ e ∈ set m n v, p e := by
  induction m with
  | nil => simpa [set] using hv
  | cons e t ih =>
    obtain ⟨k, x⟩ := e
    have ht : ∀ e ∈ t, p e := fun e he => h e (List.mem_cons_of_mem _ he)
    have hx : p (k, x) := h (k, x) (List.mem_cons_self)
    by_cases hk : k = n
    · intro e he
      simp only [set, hk, if_true, List.mem_cons] at he
      rcases he with rfl | he
      · exact hv
      · exact ht e he
    · by_cases h2 : n < k
      · intro e he
        simp only [set, hk, h2, if_true, if_false, List.mem_cons] at he
        rcases he with rfl | rfl | he
        · exact hv
        · exact hx
        · exact ht e he
      · intro e he
        simp only [set, hk, h2, if_false, List.mem_cons] at he
        rcases he with rfl | he
        · exact hx
        · exact ih ht e he

end SMap

namespace Machine
namespace State
variable (s : State)

/-! ### setCtx -/

@[simp] theorem setCtx_agenda (i : Nat) (c : Ctx) : (s.setCtx i c).agenda = s.agenda := rfl
@[simp] theorem setCtx_turns (i : Nat) (c : Ctx) : (s.setCtx i c).turns = s.turns := rfl
@[simp] theorem setCtx_draws (i : Nat) (c : Ctx) : (s.setCtx i c).draws = s.draws := rfl
@[simp] theorem setCtx_focus (i : Nat) (c : Ctx) : (s.setCtx i c).focus = s.focus := rfl
@[simp] theorem setCtx_acted (i : Nat) (c : Ctx) : (s.setCtx i c).acted = s.acted := rfl
@[simp] theorem setCtx_almanac (i : Nat) (c : Ctx) : (s.setCtx i c).almanac = s.almanac := rfl
@[simp] theorem setCtx_copies (i : Nat) (c : Ctx) : (s.setCtx i c).copies = s.copies := rfl
@[simp] theorem setCtx_stage (i : Nat) (c : Ctx) : (s.setCtx i c).stage = s.stage := rfl
@[simp] theorem setCtx_version (i : Nat) (c : Ctx) : (s.setCtx i c).version = s.version := rfl
@[simp] theorem setCtx_fetches (i : Nat) (c : Ctx) : (s.setCtx i c).fetches = s.fetches := rfl
@[simp] theorem setCtx_failures (i : Nat) (c : Ctx) : (s.setCtx i c).failures = s.failures := rfl
@[simp] theorem setCtx_flash (i : Nat) (c : Ctx) : (s.setCtx i c).flash = s.flash := rfl
@[simp] theorem setCtx_ckpt (i : Nat) (c : Ctx) : (s.setCtx i c).ckpt = s.ckpt := rfl
@[simp] theorem setCtx_ckptRun (i : Nat) (c : Ctx) : (s.setCtx i c).ckptRun = s.ckptRun := rfl
@[simp] theorem setCtx_storage (i : Nat) (c : Ctx) : (s.setCtx i c).storage = s.storage := rfl
@[simp] theorem setCtx_unmapReg (i : Nat) (c : Ctx) : (s.setCtx i c).unmapReg = s.unmapReg := rfl
@[simp] theorem setCtx_unmapRun (i : Nat) (c : Ctx) : (s.setCtx i c).unmapRun = s.unmapRun := rfl
@[simp] theorem setCtx_mailboxes (i : Nat) (c : Ctx) : (s.setCtx i c).mailboxes = s.mailboxes := rfl
@[simp] theorem setCtx_hostMem (i : Nat) (c : Ctx) : (s.setCtx i c).hostMem = s.hostMem := rfl
@[simp] theorem setCtx_busImages (i : Nat) (c : Ctx) : (s.setCtx i c).busImages = s.busImages := rfl
@[simp] theorem setCtx_msix (i : Nat) (c : Ctx) : (s.setCtx i c).msix = s.msix := rfl
@[simp] theorem setCtx_roots (i : Nat) (c : Ctx) : (s.setCtx i c).roots = s.roots := rfl
@[simp] theorem setCtx_tlbs (i : Nat) (c : Ctx) : (s.setCtx i c).tlbs = s.tlbs := rfl
@[simp] theorem setCtx_walks (i : Nat) (c : Ctx) : (s.setCtx i c).walks = s.walks := rfl
@[simp] theorem setCtx_filter (i : Nat) (c : Ctx) : (s.setCtx i c).filter = s.filter := rfl
@[simp] theorem setCtx_l2 (i : Nat) (c : Ctx) : (s.setCtx i c).l2 = s.l2 := rfl
@[simp] theorem setCtx_slices (i : Nat) (c : Ctx) : (s.setCtx i c).slices = s.slices := rfl
@[simp] theorem setCtx_responses (i : Nat) (c : Ctx) : (s.setCtx i c).responses = s.responses := rfl
@[simp] theorem setCtx_routers (i : Nat) (c : Ctx) : (s.setCtx i c).routers = s.routers := rfl
@[simp] theorem setCtx_mem (i : Nat) (c : Ctx) : (s.setCtx i c).mem = s.mem := rfl
@[simp] theorem setCtx_dramPoison (i : Nat) (c : Ctx) : (s.setCtx i c).dramPoison = s.dramPoison := rfl
@[simp] theorem setCtx_health (i : Nat) (c : Ctx) : (s.setCtx i c).health = s.health := rfl
@[simp] theorem setCtx_hot (i : Nat) (c : Ctx) : (s.setCtx i c).hot = s.hot := rfl
@[simp] theorem setCtx_parts (i : Nat) (c : Ctx) : (s.setCtx i c).parts = s.parts := rfl
@[simp] theorem setCtx_owners (i : Nat) (c : Ctx) : (s.setCtx i c).owners = s.owners := rfl
@[simp] theorem setCtx_streamGrants (i : Nat) (c : Ctx) : (s.setCtx i c).streamGrants = s.streamGrants := rfl
@[simp] theorem setCtx_fabric (i : Nat) (c : Ctx) : (s.setCtx i c).fabric = s.fabric := rfl
@[simp] theorem setCtx_ringNext (i : Nat) (c : Ctx) : (s.setCtx i c).ringNext = s.ringNext := rfl
@[simp] theorem setCtx_package (i : Nat) (c : Ctx) : (s.setCtx i c).package = s.package := rfl
@[simp] theorem setCtx_episodes (i : Nat) (c : Ctx) : (s.setCtx i c).episodes = s.episodes := rfl
@[simp] theorem setCtx_nextEpisode (i : Nat) (c : Ctx) : (s.setCtx i c).nextEpisode = s.nextEpisode := rfl
@[simp] theorem setCtx_tiles (i : Nat) (c : Ctx) : (s.setCtx i c).tiles = s.tiles := rfl
@[simp] theorem setCtx_ins (i : Nat) (c : Ctx) : (s.setCtx i c).ins = s.ins := rfl
@[simp] theorem setCtx_outs (i : Nat) (c : Ctx) : (s.setCtx i c).outs = s.outs := rfl
@[simp] theorem setCtx_units (i : Nat) (c : Ctx) : (s.setCtx i c).units = s.units := rfl
@[simp] theorem setCtx_islands (i : Nat) (c : Ctx) : (s.setCtx i c).islands = s.islands := rfl
@[simp] theorem setCtx_engines (i : Nat) (c : Ctx) : (s.setCtx i c).engines = s.engines := rfl
@[simp] theorem setCtx_streamers (i : Nat) (c : Ctx) : (s.setCtx i c).streamers = s.streamers := rfl
@[simp] theorem setCtx_tile (i : Nat) (c : Ctx) (j : Nat) : (s.setCtx i c).tile j = s.tile j := rfl
@[simp] theorem setCtx_inc (i : Nat) (c : Ctx) (j : Nat) : (s.setCtx i c).inc j = s.inc j := rfl
@[simp] theorem setCtx_outc (i : Nat) (c : Ctx) (j : Nat) : (s.setCtx i c).outc j = s.outc j := rfl
@[simp] theorem setCtx_unit (i : Nat) (c : Ctx) (j : Nat) : (s.setCtx i c).unit j = s.unit j := rfl
@[simp] theorem setCtx_island (i : Nat) (c : Ctx) (j : Nat) : (s.setCtx i c).island j = s.island j := rfl
@[simp] theorem setCtx_engine (i : Nat) (c : Ctx) (j : Nat) : (s.setCtx i c).engine j = s.engine j := rfl
@[simp] theorem setCtx_streamer (i : Nat) (c : Ctx) (j : Nat) : (s.setCtx i c).streamer j = s.streamer j := rfl
@[simp] theorem setCtx_part (i : Nat) (c : Ctx) (j : Nat) : (s.setCtx i c).part j = s.part j := rfl
@[simp] theorem setCtx_ctx_self (i : Nat) (c : Ctx) : (s.setCtx i c).ctx i = c := by simp [setCtx, ctx]
@[simp] theorem setCtx_ctx_ne (i : Nat) (c : Ctx) {j : Nat} (h : j ≠ i) : (s.setCtx i c).ctx j = s.ctx j := by
  simp [setCtx, ctx, SMap.get_set_ne, h]
theorem setCtx_ctx_get (i : Nat) (c : Ctx) (j : Nat) : (s.setCtx i c).ctx j = if j = i then c else s.ctx j := by
  by_cases h : j = i <;> simp [h]
@[simp] theorem setCtx_setCtx (i : Nat) (c : Ctx) (y : Ctx) : (s.setCtx i c).setCtx i y = s.setCtx i y := by simp [setCtx]
@[simp] theorem setCtx_time (i : Nat) (c : Ctx) (d : Nat) : (s.setCtx i c).time d = s.time d := rfl

/-! ### setTile -/

@[simp] theorem setTile_agenda (p : Nat) (t : Tile) : (s.setTile p t).agenda = s.agenda := rfl
@[simp] theorem setTile_turns (p : Nat) (t : Tile) : (s.setTile p t).turns = s.turns := rfl
@[simp] theorem setTile_draws (p : Nat) (t : Tile) : (s.setTile p t).draws = s.draws := rfl
@[simp] theorem setTile_focus (p : Nat) (t : Tile) : (s.setTile p t).focus = s.focus := rfl
@[simp] theorem setTile_acted (p : Nat) (t : Tile) : (s.setTile p t).acted = s.acted := rfl
@[simp] theorem setTile_almanac (p : Nat) (t : Tile) : (s.setTile p t).almanac = s.almanac := rfl
@[simp] theorem setTile_copies (p : Nat) (t : Tile) : (s.setTile p t).copies = s.copies := rfl
@[simp] theorem setTile_stage (p : Nat) (t : Tile) : (s.setTile p t).stage = s.stage := rfl
@[simp] theorem setTile_version (p : Nat) (t : Tile) : (s.setTile p t).version = s.version := rfl
@[simp] theorem setTile_fetches (p : Nat) (t : Tile) : (s.setTile p t).fetches = s.fetches := rfl
@[simp] theorem setTile_failures (p : Nat) (t : Tile) : (s.setTile p t).failures = s.failures := rfl
@[simp] theorem setTile_flash (p : Nat) (t : Tile) : (s.setTile p t).flash = s.flash := rfl
@[simp] theorem setTile_ckpt (p : Nat) (t : Tile) : (s.setTile p t).ckpt = s.ckpt := rfl
@[simp] theorem setTile_ckptRun (p : Nat) (t : Tile) : (s.setTile p t).ckptRun = s.ckptRun := rfl
@[simp] theorem setTile_storage (p : Nat) (t : Tile) : (s.setTile p t).storage = s.storage := rfl
@[simp] theorem setTile_unmapReg (p : Nat) (t : Tile) : (s.setTile p t).unmapReg = s.unmapReg := rfl
@[simp] theorem setTile_unmapRun (p : Nat) (t : Tile) : (s.setTile p t).unmapRun = s.unmapRun := rfl
@[simp] theorem setTile_mailboxes (p : Nat) (t : Tile) : (s.setTile p t).mailboxes = s.mailboxes := rfl
@[simp] theorem setTile_hostMem (p : Nat) (t : Tile) : (s.setTile p t).hostMem = s.hostMem := rfl
@[simp] theorem setTile_busImages (p : Nat) (t : Tile) : (s.setTile p t).busImages = s.busImages := rfl
@[simp] theorem setTile_msix (p : Nat) (t : Tile) : (s.setTile p t).msix = s.msix := rfl
@[simp] theorem setTile_roots (p : Nat) (t : Tile) : (s.setTile p t).roots = s.roots := rfl
@[simp] theorem setTile_tlbs (p : Nat) (t : Tile) : (s.setTile p t).tlbs = s.tlbs := rfl
@[simp] theorem setTile_walks (p : Nat) (t : Tile) : (s.setTile p t).walks = s.walks := rfl
@[simp] theorem setTile_filter (p : Nat) (t : Tile) : (s.setTile p t).filter = s.filter := rfl
@[simp] theorem setTile_l2 (p : Nat) (t : Tile) : (s.setTile p t).l2 = s.l2 := rfl
@[simp] theorem setTile_slices (p : Nat) (t : Tile) : (s.setTile p t).slices = s.slices := rfl
@[simp] theorem setTile_responses (p : Nat) (t : Tile) : (s.setTile p t).responses = s.responses := rfl
@[simp] theorem setTile_routers (p : Nat) (t : Tile) : (s.setTile p t).routers = s.routers := rfl
@[simp] theorem setTile_mem (p : Nat) (t : Tile) : (s.setTile p t).mem = s.mem := rfl
@[simp] theorem setTile_dramPoison (p : Nat) (t : Tile) : (s.setTile p t).dramPoison = s.dramPoison := rfl
@[simp] theorem setTile_health (p : Nat) (t : Tile) : (s.setTile p t).health = s.health := rfl
@[simp] theorem setTile_hot (p : Nat) (t : Tile) : (s.setTile p t).hot = s.hot := rfl
@[simp] theorem setTile_parts (p : Nat) (t : Tile) : (s.setTile p t).parts = s.parts := rfl
@[simp] theorem setTile_owners (p : Nat) (t : Tile) : (s.setTile p t).owners = s.owners := rfl
@[simp] theorem setTile_streamGrants (p : Nat) (t : Tile) : (s.setTile p t).streamGrants = s.streamGrants := rfl
@[simp] theorem setTile_fabric (p : Nat) (t : Tile) : (s.setTile p t).fabric = s.fabric := rfl
@[simp] theorem setTile_ringNext (p : Nat) (t : Tile) : (s.setTile p t).ringNext = s.ringNext := rfl
@[simp] theorem setTile_package (p : Nat) (t : Tile) : (s.setTile p t).package = s.package := rfl
@[simp] theorem setTile_episodes (p : Nat) (t : Tile) : (s.setTile p t).episodes = s.episodes := rfl
@[simp] theorem setTile_nextEpisode (p : Nat) (t : Tile) : (s.setTile p t).nextEpisode = s.nextEpisode := rfl
@[simp] theorem setTile_ctxs (p : Nat) (t : Tile) : (s.setTile p t).ctxs = s.ctxs := rfl
@[simp] theorem setTile_ins (p : Nat) (t : Tile) : (s.setTile p t).ins = s.ins := rfl
@[simp] theorem setTile_outs (p : Nat) (t : Tile) : (s.setTile p t).outs = s.outs := rfl
@[simp] theorem setTile_units (p : Nat) (t : Tile) : (s.setTile p t).units = s.units := rfl
@[simp] theorem setTile_islands (p : Nat) (t : Tile) : (s.setTile p t).islands = s.islands := rfl
@[simp] theorem setTile_engines (p : Nat) (t : Tile) : (s.setTile p t).engines = s.engines := rfl
@[simp] theorem setTile_streamers (p : Nat) (t : Tile) : (s.setTile p t).streamers = s.streamers := rfl
@[simp] theorem setTile_ctx (p : Nat) (t : Tile) (j : Nat) : (s.setTile p t).ctx j = s.ctx j := rfl
@[simp] theorem setTile_inc (p : Nat) (t : Tile) (j : Nat) : (s.setTile p t).inc j = s.inc j := rfl
@[simp] theorem setTile_outc (p : Nat) (t : Tile) (j : Nat) : (s.setTile p t).outc j = s.outc j := rfl
@[simp] theorem setTile_unit (p : Nat) (t : Tile) (j : Nat) : (s.setTile p t).unit j = s.unit j := rfl
@[simp] theorem setTile_island (p : Nat) (t : Tile) (j : Nat) : (s.setTile p t).island j = s.island j := rfl
@[simp] theorem setTile_engine (p : Nat) (t : Tile) (j : Nat) : (s.setTile p t).engine j = s.engine j := rfl
@[simp] theorem setTile_streamer (p : Nat) (t : Tile) (j : Nat) : (s.setTile p t).streamer j = s.streamer j := rfl
@[simp] theorem setTile_part (p : Nat) (t : Tile) (j : Nat) : (s.setTile p t).part j = s.part j := rfl
@[simp] theorem setTile_tile_self (p : Nat) (t : Tile) : (s.setTile p t).tile p = t := by simp [setTile, tile]
@[simp] theorem setTile_tile_ne (p : Nat) (t : Tile) {j : Nat} (h : j ≠ p) : (s.setTile p t).tile j = s.tile j := by
  simp [setTile, tile, SMap.get_set_ne, h]
theorem setTile_tile_get (p : Nat) (t : Tile) (j : Nat) : (s.setTile p t).tile j = if j = p then t else s.tile j := by
  by_cases h : j = p <;> simp [h]
@[simp] theorem setTile_setTile (p : Nat) (t : Tile) (y : Tile) : (s.setTile p t).setTile p y = s.setTile p y := by simp [setTile]
@[simp] theorem setTile_time (p : Nat) (t : Tile) (d : Nat) : (s.setTile p t).time d = s.time d := rfl

/-! ### setInc -/

@[simp] theorem setInc_agenda (i : Nat) (c : InChan) : (s.setInc i c).agenda = s.agenda := rfl
@[simp] theorem setInc_turns (i : Nat) (c : InChan) : (s.setInc i c).turns = s.turns := rfl
@[simp] theorem setInc_draws (i : Nat) (c : InChan) : (s.setInc i c).draws = s.draws := rfl
@[simp] theorem setInc_focus (i : Nat) (c : InChan) : (s.setInc i c).focus = s.focus := rfl
@[simp] theorem setInc_acted (i : Nat) (c : InChan) : (s.setInc i c).acted = s.acted := rfl
@[simp] theorem setInc_almanac (i : Nat) (c : InChan) : (s.setInc i c).almanac = s.almanac := rfl
@[simp] theorem setInc_copies (i : Nat) (c : InChan) : (s.setInc i c).copies = s.copies := rfl
@[simp] theorem setInc_stage (i : Nat) (c : InChan) : (s.setInc i c).stage = s.stage := rfl
@[simp] theorem setInc_version (i : Nat) (c : InChan) : (s.setInc i c).version = s.version := rfl
@[simp] theorem setInc_fetches (i : Nat) (c : InChan) : (s.setInc i c).fetches = s.fetches := rfl
@[simp] theorem setInc_failures (i : Nat) (c : InChan) : (s.setInc i c).failures = s.failures := rfl
@[simp] theorem setInc_flash (i : Nat) (c : InChan) : (s.setInc i c).flash = s.flash := rfl
@[simp] theorem setInc_ckpt (i : Nat) (c : InChan) : (s.setInc i c).ckpt = s.ckpt := rfl
@[simp] theorem setInc_ckptRun (i : Nat) (c : InChan) : (s.setInc i c).ckptRun = s.ckptRun := rfl
@[simp] theorem setInc_storage (i : Nat) (c : InChan) : (s.setInc i c).storage = s.storage := rfl
@[simp] theorem setInc_unmapReg (i : Nat) (c : InChan) : (s.setInc i c).unmapReg = s.unmapReg := rfl
@[simp] theorem setInc_unmapRun (i : Nat) (c : InChan) : (s.setInc i c).unmapRun = s.unmapRun := rfl
@[simp] theorem setInc_mailboxes (i : Nat) (c : InChan) : (s.setInc i c).mailboxes = s.mailboxes := rfl
@[simp] theorem setInc_hostMem (i : Nat) (c : InChan) : (s.setInc i c).hostMem = s.hostMem := rfl
@[simp] theorem setInc_busImages (i : Nat) (c : InChan) : (s.setInc i c).busImages = s.busImages := rfl
@[simp] theorem setInc_msix (i : Nat) (c : InChan) : (s.setInc i c).msix = s.msix := rfl
@[simp] theorem setInc_roots (i : Nat) (c : InChan) : (s.setInc i c).roots = s.roots := rfl
@[simp] theorem setInc_tlbs (i : Nat) (c : InChan) : (s.setInc i c).tlbs = s.tlbs := rfl
@[simp] theorem setInc_walks (i : Nat) (c : InChan) : (s.setInc i c).walks = s.walks := rfl
@[simp] theorem setInc_filter (i : Nat) (c : InChan) : (s.setInc i c).filter = s.filter := rfl
@[simp] theorem setInc_l2 (i : Nat) (c : InChan) : (s.setInc i c).l2 = s.l2 := rfl
@[simp] theorem setInc_slices (i : Nat) (c : InChan) : (s.setInc i c).slices = s.slices := rfl
@[simp] theorem setInc_responses (i : Nat) (c : InChan) : (s.setInc i c).responses = s.responses := rfl
@[simp] theorem setInc_routers (i : Nat) (c : InChan) : (s.setInc i c).routers = s.routers := rfl
@[simp] theorem setInc_mem (i : Nat) (c : InChan) : (s.setInc i c).mem = s.mem := rfl
@[simp] theorem setInc_dramPoison (i : Nat) (c : InChan) : (s.setInc i c).dramPoison = s.dramPoison := rfl
@[simp] theorem setInc_health (i : Nat) (c : InChan) : (s.setInc i c).health = s.health := rfl
@[simp] theorem setInc_hot (i : Nat) (c : InChan) : (s.setInc i c).hot = s.hot := rfl
@[simp] theorem setInc_parts (i : Nat) (c : InChan) : (s.setInc i c).parts = s.parts := rfl
@[simp] theorem setInc_owners (i : Nat) (c : InChan) : (s.setInc i c).owners = s.owners := rfl
@[simp] theorem setInc_streamGrants (i : Nat) (c : InChan) : (s.setInc i c).streamGrants = s.streamGrants := rfl
@[simp] theorem setInc_fabric (i : Nat) (c : InChan) : (s.setInc i c).fabric = s.fabric := rfl
@[simp] theorem setInc_ringNext (i : Nat) (c : InChan) : (s.setInc i c).ringNext = s.ringNext := rfl
@[simp] theorem setInc_package (i : Nat) (c : InChan) : (s.setInc i c).package = s.package := rfl
@[simp] theorem setInc_episodes (i : Nat) (c : InChan) : (s.setInc i c).episodes = s.episodes := rfl
@[simp] theorem setInc_nextEpisode (i : Nat) (c : InChan) : (s.setInc i c).nextEpisode = s.nextEpisode := rfl
@[simp] theorem setInc_tiles (i : Nat) (c : InChan) : (s.setInc i c).tiles = s.tiles := rfl
@[simp] theorem setInc_ctxs (i : Nat) (c : InChan) : (s.setInc i c).ctxs = s.ctxs := rfl
@[simp] theorem setInc_outs (i : Nat) (c : InChan) : (s.setInc i c).outs = s.outs := rfl
@[simp] theorem setInc_units (i : Nat) (c : InChan) : (s.setInc i c).units = s.units := rfl
@[simp] theorem setInc_islands (i : Nat) (c : InChan) : (s.setInc i c).islands = s.islands := rfl
@[simp] theorem setInc_engines (i : Nat) (c : InChan) : (s.setInc i c).engines = s.engines := rfl
@[simp] theorem setInc_streamers (i : Nat) (c : InChan) : (s.setInc i c).streamers = s.streamers := rfl
@[simp] theorem setInc_ctx (i : Nat) (c : InChan) (j : Nat) : (s.setInc i c).ctx j = s.ctx j := rfl
@[simp] theorem setInc_tile (i : Nat) (c : InChan) (j : Nat) : (s.setInc i c).tile j = s.tile j := rfl
@[simp] theorem setInc_outc (i : Nat) (c : InChan) (j : Nat) : (s.setInc i c).outc j = s.outc j := rfl
@[simp] theorem setInc_unit (i : Nat) (c : InChan) (j : Nat) : (s.setInc i c).unit j = s.unit j := rfl
@[simp] theorem setInc_island (i : Nat) (c : InChan) (j : Nat) : (s.setInc i c).island j = s.island j := rfl
@[simp] theorem setInc_engine (i : Nat) (c : InChan) (j : Nat) : (s.setInc i c).engine j = s.engine j := rfl
@[simp] theorem setInc_streamer (i : Nat) (c : InChan) (j : Nat) : (s.setInc i c).streamer j = s.streamer j := rfl
@[simp] theorem setInc_part (i : Nat) (c : InChan) (j : Nat) : (s.setInc i c).part j = s.part j := rfl
@[simp] theorem setInc_inc_self (i : Nat) (c : InChan) : (s.setInc i c).inc i = c := by simp [setInc, inc]
@[simp] theorem setInc_inc_ne (i : Nat) (c : InChan) {j : Nat} (h : j ≠ i) : (s.setInc i c).inc j = s.inc j := by
  simp [setInc, inc, SMap.get_set_ne, h]
theorem setInc_inc_get (i : Nat) (c : InChan) (j : Nat) : (s.setInc i c).inc j = if j = i then c else s.inc j := by
  by_cases h : j = i <;> simp [h]
@[simp] theorem setInc_setInc (i : Nat) (c : InChan) (y : InChan) : (s.setInc i c).setInc i y = s.setInc i y := by simp [setInc]
@[simp] theorem setInc_time (i : Nat) (c : InChan) (d : Nat) : (s.setInc i c).time d = s.time d := rfl

/-! ### setOutc -/

@[simp] theorem setOutc_agenda (i : Nat) (c : OutChan) : (s.setOutc i c).agenda = s.agenda := rfl
@[simp] theorem setOutc_turns (i : Nat) (c : OutChan) : (s.setOutc i c).turns = s.turns := rfl
@[simp] theorem setOutc_draws (i : Nat) (c : OutChan) : (s.setOutc i c).draws = s.draws := rfl
@[simp] theorem setOutc_focus (i : Nat) (c : OutChan) : (s.setOutc i c).focus = s.focus := rfl
@[simp] theorem setOutc_acted (i : Nat) (c : OutChan) : (s.setOutc i c).acted = s.acted := rfl
@[simp] theorem setOutc_almanac (i : Nat) (c : OutChan) : (s.setOutc i c).almanac = s.almanac := rfl
@[simp] theorem setOutc_copies (i : Nat) (c : OutChan) : (s.setOutc i c).copies = s.copies := rfl
@[simp] theorem setOutc_stage (i : Nat) (c : OutChan) : (s.setOutc i c).stage = s.stage := rfl
@[simp] theorem setOutc_version (i : Nat) (c : OutChan) : (s.setOutc i c).version = s.version := rfl
@[simp] theorem setOutc_fetches (i : Nat) (c : OutChan) : (s.setOutc i c).fetches = s.fetches := rfl
@[simp] theorem setOutc_failures (i : Nat) (c : OutChan) : (s.setOutc i c).failures = s.failures := rfl
@[simp] theorem setOutc_flash (i : Nat) (c : OutChan) : (s.setOutc i c).flash = s.flash := rfl
@[simp] theorem setOutc_ckpt (i : Nat) (c : OutChan) : (s.setOutc i c).ckpt = s.ckpt := rfl
@[simp] theorem setOutc_ckptRun (i : Nat) (c : OutChan) : (s.setOutc i c).ckptRun = s.ckptRun := rfl
@[simp] theorem setOutc_storage (i : Nat) (c : OutChan) : (s.setOutc i c).storage = s.storage := rfl
@[simp] theorem setOutc_unmapReg (i : Nat) (c : OutChan) : (s.setOutc i c).unmapReg = s.unmapReg := rfl
@[simp] theorem setOutc_unmapRun (i : Nat) (c : OutChan) : (s.setOutc i c).unmapRun = s.unmapRun := rfl
@[simp] theorem setOutc_mailboxes (i : Nat) (c : OutChan) : (s.setOutc i c).mailboxes = s.mailboxes := rfl
@[simp] theorem setOutc_hostMem (i : Nat) (c : OutChan) : (s.setOutc i c).hostMem = s.hostMem := rfl
@[simp] theorem setOutc_busImages (i : Nat) (c : OutChan) : (s.setOutc i c).busImages = s.busImages := rfl
@[simp] theorem setOutc_msix (i : Nat) (c : OutChan) : (s.setOutc i c).msix = s.msix := rfl
@[simp] theorem setOutc_roots (i : Nat) (c : OutChan) : (s.setOutc i c).roots = s.roots := rfl
@[simp] theorem setOutc_tlbs (i : Nat) (c : OutChan) : (s.setOutc i c).tlbs = s.tlbs := rfl
@[simp] theorem setOutc_walks (i : Nat) (c : OutChan) : (s.setOutc i c).walks = s.walks := rfl
@[simp] theorem setOutc_filter (i : Nat) (c : OutChan) : (s.setOutc i c).filter = s.filter := rfl
@[simp] theorem setOutc_l2 (i : Nat) (c : OutChan) : (s.setOutc i c).l2 = s.l2 := rfl
@[simp] theorem setOutc_slices (i : Nat) (c : OutChan) : (s.setOutc i c).slices = s.slices := rfl
@[simp] theorem setOutc_responses (i : Nat) (c : OutChan) : (s.setOutc i c).responses = s.responses := rfl
@[simp] theorem setOutc_routers (i : Nat) (c : OutChan) : (s.setOutc i c).routers = s.routers := rfl
@[simp] theorem setOutc_mem (i : Nat) (c : OutChan) : (s.setOutc i c).mem = s.mem := rfl
@[simp] theorem setOutc_dramPoison (i : Nat) (c : OutChan) : (s.setOutc i c).dramPoison = s.dramPoison := rfl
@[simp] theorem setOutc_health (i : Nat) (c : OutChan) : (s.setOutc i c).health = s.health := rfl
@[simp] theorem setOutc_hot (i : Nat) (c : OutChan) : (s.setOutc i c).hot = s.hot := rfl
@[simp] theorem setOutc_parts (i : Nat) (c : OutChan) : (s.setOutc i c).parts = s.parts := rfl
@[simp] theorem setOutc_owners (i : Nat) (c : OutChan) : (s.setOutc i c).owners = s.owners := rfl
@[simp] theorem setOutc_streamGrants (i : Nat) (c : OutChan) : (s.setOutc i c).streamGrants = s.streamGrants := rfl
@[simp] theorem setOutc_fabric (i : Nat) (c : OutChan) : (s.setOutc i c).fabric = s.fabric := rfl
@[simp] theorem setOutc_ringNext (i : Nat) (c : OutChan) : (s.setOutc i c).ringNext = s.ringNext := rfl
@[simp] theorem setOutc_package (i : Nat) (c : OutChan) : (s.setOutc i c).package = s.package := rfl
@[simp] theorem setOutc_episodes (i : Nat) (c : OutChan) : (s.setOutc i c).episodes = s.episodes := rfl
@[simp] theorem setOutc_nextEpisode (i : Nat) (c : OutChan) : (s.setOutc i c).nextEpisode = s.nextEpisode := rfl
@[simp] theorem setOutc_tiles (i : Nat) (c : OutChan) : (s.setOutc i c).tiles = s.tiles := rfl
@[simp] theorem setOutc_ctxs (i : Nat) (c : OutChan) : (s.setOutc i c).ctxs = s.ctxs := rfl
@[simp] theorem setOutc_ins (i : Nat) (c : OutChan) : (s.setOutc i c).ins = s.ins := rfl
@[simp] theorem setOutc_units (i : Nat) (c : OutChan) : (s.setOutc i c).units = s.units := rfl
@[simp] theorem setOutc_islands (i : Nat) (c : OutChan) : (s.setOutc i c).islands = s.islands := rfl
@[simp] theorem setOutc_engines (i : Nat) (c : OutChan) : (s.setOutc i c).engines = s.engines := rfl
@[simp] theorem setOutc_streamers (i : Nat) (c : OutChan) : (s.setOutc i c).streamers = s.streamers := rfl
@[simp] theorem setOutc_ctx (i : Nat) (c : OutChan) (j : Nat) : (s.setOutc i c).ctx j = s.ctx j := rfl
@[simp] theorem setOutc_tile (i : Nat) (c : OutChan) (j : Nat) : (s.setOutc i c).tile j = s.tile j := rfl
@[simp] theorem setOutc_inc (i : Nat) (c : OutChan) (j : Nat) : (s.setOutc i c).inc j = s.inc j := rfl
@[simp] theorem setOutc_unit (i : Nat) (c : OutChan) (j : Nat) : (s.setOutc i c).unit j = s.unit j := rfl
@[simp] theorem setOutc_island (i : Nat) (c : OutChan) (j : Nat) : (s.setOutc i c).island j = s.island j := rfl
@[simp] theorem setOutc_engine (i : Nat) (c : OutChan) (j : Nat) : (s.setOutc i c).engine j = s.engine j := rfl
@[simp] theorem setOutc_streamer (i : Nat) (c : OutChan) (j : Nat) : (s.setOutc i c).streamer j = s.streamer j := rfl
@[simp] theorem setOutc_part (i : Nat) (c : OutChan) (j : Nat) : (s.setOutc i c).part j = s.part j := rfl
@[simp] theorem setOutc_outc_self (i : Nat) (c : OutChan) : (s.setOutc i c).outc i = c := by simp [setOutc, outc]
@[simp] theorem setOutc_outc_ne (i : Nat) (c : OutChan) {j : Nat} (h : j ≠ i) : (s.setOutc i c).outc j = s.outc j := by
  simp [setOutc, outc, SMap.get_set_ne, h]
theorem setOutc_outc_get (i : Nat) (c : OutChan) (j : Nat) : (s.setOutc i c).outc j = if j = i then c else s.outc j := by
  by_cases h : j = i <;> simp [h]
@[simp] theorem setOutc_setOutc (i : Nat) (c : OutChan) (y : OutChan) : (s.setOutc i c).setOutc i y = s.setOutc i y := by simp [setOutc]
@[simp] theorem setOutc_time (i : Nat) (c : OutChan) (d : Nat) : (s.setOutc i c).time d = s.time d := rfl

/-! ### setUnit -/

@[simp] theorem setUnit_agenda (i : Nat) (u : OpUnit) : (s.setUnit i u).agenda = s.agenda := rfl
@[simp] theorem setUnit_turns (i : Nat) (u : OpUnit) : (s.setUnit i u).turns = s.turns := rfl
@[simp] theorem setUnit_draws (i : Nat) (u : OpUnit) : (s.setUnit i u).draws = s.draws := rfl
@[simp] theorem setUnit_focus (i : Nat) (u : OpUnit) : (s.setUnit i u).focus = s.focus := rfl
@[simp] theorem setUnit_acted (i : Nat) (u : OpUnit) : (s.setUnit i u).acted = s.acted := rfl
@[simp] theorem setUnit_almanac (i : Nat) (u : OpUnit) : (s.setUnit i u).almanac = s.almanac := rfl
@[simp] theorem setUnit_copies (i : Nat) (u : OpUnit) : (s.setUnit i u).copies = s.copies := rfl
@[simp] theorem setUnit_stage (i : Nat) (u : OpUnit) : (s.setUnit i u).stage = s.stage := rfl
@[simp] theorem setUnit_version (i : Nat) (u : OpUnit) : (s.setUnit i u).version = s.version := rfl
@[simp] theorem setUnit_fetches (i : Nat) (u : OpUnit) : (s.setUnit i u).fetches = s.fetches := rfl
@[simp] theorem setUnit_failures (i : Nat) (u : OpUnit) : (s.setUnit i u).failures = s.failures := rfl
@[simp] theorem setUnit_flash (i : Nat) (u : OpUnit) : (s.setUnit i u).flash = s.flash := rfl
@[simp] theorem setUnit_ckpt (i : Nat) (u : OpUnit) : (s.setUnit i u).ckpt = s.ckpt := rfl
@[simp] theorem setUnit_ckptRun (i : Nat) (u : OpUnit) : (s.setUnit i u).ckptRun = s.ckptRun := rfl
@[simp] theorem setUnit_storage (i : Nat) (u : OpUnit) : (s.setUnit i u).storage = s.storage := rfl
@[simp] theorem setUnit_unmapReg (i : Nat) (u : OpUnit) : (s.setUnit i u).unmapReg = s.unmapReg := rfl
@[simp] theorem setUnit_unmapRun (i : Nat) (u : OpUnit) : (s.setUnit i u).unmapRun = s.unmapRun := rfl
@[simp] theorem setUnit_mailboxes (i : Nat) (u : OpUnit) : (s.setUnit i u).mailboxes = s.mailboxes := rfl
@[simp] theorem setUnit_hostMem (i : Nat) (u : OpUnit) : (s.setUnit i u).hostMem = s.hostMem := rfl
@[simp] theorem setUnit_busImages (i : Nat) (u : OpUnit) : (s.setUnit i u).busImages = s.busImages := rfl
@[simp] theorem setUnit_msix (i : Nat) (u : OpUnit) : (s.setUnit i u).msix = s.msix := rfl
@[simp] theorem setUnit_roots (i : Nat) (u : OpUnit) : (s.setUnit i u).roots = s.roots := rfl
@[simp] theorem setUnit_tlbs (i : Nat) (u : OpUnit) : (s.setUnit i u).tlbs = s.tlbs := rfl
@[simp] theorem setUnit_walks (i : Nat) (u : OpUnit) : (s.setUnit i u).walks = s.walks := rfl
@[simp] theorem setUnit_filter (i : Nat) (u : OpUnit) : (s.setUnit i u).filter = s.filter := rfl
@[simp] theorem setUnit_l2 (i : Nat) (u : OpUnit) : (s.setUnit i u).l2 = s.l2 := rfl
@[simp] theorem setUnit_slices (i : Nat) (u : OpUnit) : (s.setUnit i u).slices = s.slices := rfl
@[simp] theorem setUnit_responses (i : Nat) (u : OpUnit) : (s.setUnit i u).responses = s.responses := rfl
@[simp] theorem setUnit_routers (i : Nat) (u : OpUnit) : (s.setUnit i u).routers = s.routers := rfl
@[simp] theorem setUnit_mem (i : Nat) (u : OpUnit) : (s.setUnit i u).mem = s.mem := rfl
@[simp] theorem setUnit_dramPoison (i : Nat) (u : OpUnit) : (s.setUnit i u).dramPoison = s.dramPoison := rfl
@[simp] theorem setUnit_health (i : Nat) (u : OpUnit) : (s.setUnit i u).health = s.health := rfl
@[simp] theorem setUnit_hot (i : Nat) (u : OpUnit) : (s.setUnit i u).hot = s.hot := rfl
@[simp] theorem setUnit_parts (i : Nat) (u : OpUnit) : (s.setUnit i u).parts = s.parts := rfl
@[simp] theorem setUnit_owners (i : Nat) (u : OpUnit) : (s.setUnit i u).owners = s.owners := rfl
@[simp] theorem setUnit_streamGrants (i : Nat) (u : OpUnit) : (s.setUnit i u).streamGrants = s.streamGrants := rfl
@[simp] theorem setUnit_fabric (i : Nat) (u : OpUnit) : (s.setUnit i u).fabric = s.fabric := rfl
@[simp] theorem setUnit_ringNext (i : Nat) (u : OpUnit) : (s.setUnit i u).ringNext = s.ringNext := rfl
@[simp] theorem setUnit_package (i : Nat) (u : OpUnit) : (s.setUnit i u).package = s.package := rfl
@[simp] theorem setUnit_episodes (i : Nat) (u : OpUnit) : (s.setUnit i u).episodes = s.episodes := rfl
@[simp] theorem setUnit_nextEpisode (i : Nat) (u : OpUnit) : (s.setUnit i u).nextEpisode = s.nextEpisode := rfl
@[simp] theorem setUnit_tiles (i : Nat) (u : OpUnit) : (s.setUnit i u).tiles = s.tiles := rfl
@[simp] theorem setUnit_ctxs (i : Nat) (u : OpUnit) : (s.setUnit i u).ctxs = s.ctxs := rfl
@[simp] theorem setUnit_ins (i : Nat) (u : OpUnit) : (s.setUnit i u).ins = s.ins := rfl
@[simp] theorem setUnit_outs (i : Nat) (u : OpUnit) : (s.setUnit i u).outs = s.outs := rfl
@[simp] theorem setUnit_islands (i : Nat) (u : OpUnit) : (s.setUnit i u).islands = s.islands := rfl
@[simp] theorem setUnit_engines (i : Nat) (u : OpUnit) : (s.setUnit i u).engines = s.engines := rfl
@[simp] theorem setUnit_streamers (i : Nat) (u : OpUnit) : (s.setUnit i u).streamers = s.streamers := rfl
@[simp] theorem setUnit_ctx (i : Nat) (u : OpUnit) (j : Nat) : (s.setUnit i u).ctx j = s.ctx j := rfl
@[simp] theorem setUnit_tile (i : Nat) (u : OpUnit) (j : Nat) : (s.setUnit i u).tile j = s.tile j := rfl
@[simp] theorem setUnit_inc (i : Nat) (u : OpUnit) (j : Nat) : (s.setUnit i u).inc j = s.inc j := rfl
@[simp] theorem setUnit_outc (i : Nat) (u : OpUnit) (j : Nat) : (s.setUnit i u).outc j = s.outc j := rfl
@[simp] theorem setUnit_island (i : Nat) (u : OpUnit) (j : Nat) : (s.setUnit i u).island j = s.island j := rfl
@[simp] theorem setUnit_engine (i : Nat) (u : OpUnit) (j : Nat) : (s.setUnit i u).engine j = s.engine j := rfl
@[simp] theorem setUnit_streamer (i : Nat) (u : OpUnit) (j : Nat) : (s.setUnit i u).streamer j = s.streamer j := rfl
@[simp] theorem setUnit_part (i : Nat) (u : OpUnit) (j : Nat) : (s.setUnit i u).part j = s.part j := rfl
@[simp] theorem setUnit_unit_self (i : Nat) (u : OpUnit) : (s.setUnit i u).unit i = u := by simp [setUnit, unit]
@[simp] theorem setUnit_unit_ne (i : Nat) (u : OpUnit) {j : Nat} (h : j ≠ i) : (s.setUnit i u).unit j = s.unit j := by
  simp [setUnit, unit, SMap.get_set_ne, h]
theorem setUnit_unit_get (i : Nat) (u : OpUnit) (j : Nat) : (s.setUnit i u).unit j = if j = i then u else s.unit j := by
  by_cases h : j = i <;> simp [h]
@[simp] theorem setUnit_setUnit (i : Nat) (u : OpUnit) (y : OpUnit) : (s.setUnit i u).setUnit i y = s.setUnit i y := by simp [setUnit]
@[simp] theorem setUnit_time (i : Nat) (u : OpUnit) (d : Nat) : (s.setUnit i u).time d = s.time d := rfl

/-! ### setIsland -/

@[simp] theorem setIsland_agenda (p : Nat) (x : Island) : (s.setIsland p x).agenda = s.agenda := rfl
@[simp] theorem setIsland_turns (p : Nat) (x : Island) : (s.setIsland p x).turns = s.turns := rfl
@[simp] theorem setIsland_draws (p : Nat) (x : Island) : (s.setIsland p x).draws = s.draws := rfl
@[simp] theorem setIsland_focus (p : Nat) (x : Island) : (s.setIsland p x).focus = s.focus := rfl
@[simp] theorem setIsland_acted (p : Nat) (x : Island) : (s.setIsland p x).acted = s.acted := rfl
@[simp] theorem setIsland_almanac (p : Nat) (x : Island) : (s.setIsland p x).almanac = s.almanac := rfl
@[simp] theorem setIsland_copies (p : Nat) (x : Island) : (s.setIsland p x).copies = s.copies := rfl
@[simp] theorem setIsland_stage (p : Nat) (x : Island) : (s.setIsland p x).stage = s.stage := rfl
@[simp] theorem setIsland_version (p : Nat) (x : Island) : (s.setIsland p x).version = s.version := rfl
@[simp] theorem setIsland_fetches (p : Nat) (x : Island) : (s.setIsland p x).fetches = s.fetches := rfl
@[simp] theorem setIsland_failures (p : Nat) (x : Island) : (s.setIsland p x).failures = s.failures := rfl
@[simp] theorem setIsland_flash (p : Nat) (x : Island) : (s.setIsland p x).flash = s.flash := rfl
@[simp] theorem setIsland_ckpt (p : Nat) (x : Island) : (s.setIsland p x).ckpt = s.ckpt := rfl
@[simp] theorem setIsland_ckptRun (p : Nat) (x : Island) : (s.setIsland p x).ckptRun = s.ckptRun := rfl
@[simp] theorem setIsland_storage (p : Nat) (x : Island) : (s.setIsland p x).storage = s.storage := rfl
@[simp] theorem setIsland_unmapReg (p : Nat) (x : Island) : (s.setIsland p x).unmapReg = s.unmapReg := rfl
@[simp] theorem setIsland_unmapRun (p : Nat) (x : Island) : (s.setIsland p x).unmapRun = s.unmapRun := rfl
@[simp] theorem setIsland_mailboxes (p : Nat) (x : Island) : (s.setIsland p x).mailboxes = s.mailboxes := rfl
@[simp] theorem setIsland_hostMem (p : Nat) (x : Island) : (s.setIsland p x).hostMem = s.hostMem := rfl
@[simp] theorem setIsland_busImages (p : Nat) (x : Island) : (s.setIsland p x).busImages = s.busImages := rfl
@[simp] theorem setIsland_msix (p : Nat) (x : Island) : (s.setIsland p x).msix = s.msix := rfl
@[simp] theorem setIsland_roots (p : Nat) (x : Island) : (s.setIsland p x).roots = s.roots := rfl
@[simp] theorem setIsland_tlbs (p : Nat) (x : Island) : (s.setIsland p x).tlbs = s.tlbs := rfl
@[simp] theorem setIsland_walks (p : Nat) (x : Island) : (s.setIsland p x).walks = s.walks := rfl
@[simp] theorem setIsland_filter (p : Nat) (x : Island) : (s.setIsland p x).filter = s.filter := rfl
@[simp] theorem setIsland_l2 (p : Nat) (x : Island) : (s.setIsland p x).l2 = s.l2 := rfl
@[simp] theorem setIsland_slices (p : Nat) (x : Island) : (s.setIsland p x).slices = s.slices := rfl
@[simp] theorem setIsland_responses (p : Nat) (x : Island) : (s.setIsland p x).responses = s.responses := rfl
@[simp] theorem setIsland_routers (p : Nat) (x : Island) : (s.setIsland p x).routers = s.routers := rfl
@[simp] theorem setIsland_mem (p : Nat) (x : Island) : (s.setIsland p x).mem = s.mem := rfl
@[simp] theorem setIsland_dramPoison (p : Nat) (x : Island) : (s.setIsland p x).dramPoison = s.dramPoison := rfl
@[simp] theorem setIsland_health (p : Nat) (x : Island) : (s.setIsland p x).health = s.health := rfl
@[simp] theorem setIsland_hot (p : Nat) (x : Island) : (s.setIsland p x).hot = s.hot := rfl
@[simp] theorem setIsland_parts (p : Nat) (x : Island) : (s.setIsland p x).parts = s.parts := rfl
@[simp] theorem setIsland_owners (p : Nat) (x : Island) : (s.setIsland p x).owners = s.owners := rfl
@[simp] theorem setIsland_streamGrants (p : Nat) (x : Island) : (s.setIsland p x).streamGrants = s.streamGrants := rfl
@[simp] theorem setIsland_fabric (p : Nat) (x : Island) : (s.setIsland p x).fabric = s.fabric := rfl
@[simp] theorem setIsland_ringNext (p : Nat) (x : Island) : (s.setIsland p x).ringNext = s.ringNext := rfl
@[simp] theorem setIsland_package (p : Nat) (x : Island) : (s.setIsland p x).package = s.package := rfl
@[simp] theorem setIsland_episodes (p : Nat) (x : Island) : (s.setIsland p x).episodes = s.episodes := rfl
@[simp] theorem setIsland_nextEpisode (p : Nat) (x : Island) : (s.setIsland p x).nextEpisode = s.nextEpisode := rfl
@[simp] theorem setIsland_tiles (p : Nat) (x : Island) : (s.setIsland p x).tiles = s.tiles := rfl
@[simp] theorem setIsland_ctxs (p : Nat) (x : Island) : (s.setIsland p x).ctxs = s.ctxs := rfl
@[simp] theorem setIsland_ins (p : Nat) (x : Island) : (s.setIsland p x).ins = s.ins := rfl
@[simp] theorem setIsland_outs (p : Nat) (x : Island) : (s.setIsland p x).outs = s.outs := rfl
@[simp] theorem setIsland_units (p : Nat) (x : Island) : (s.setIsland p x).units = s.units := rfl
@[simp] theorem setIsland_engines (p : Nat) (x : Island) : (s.setIsland p x).engines = s.engines := rfl
@[simp] theorem setIsland_streamers (p : Nat) (x : Island) : (s.setIsland p x).streamers = s.streamers := rfl
@[simp] theorem setIsland_ctx (p : Nat) (x : Island) (j : Nat) : (s.setIsland p x).ctx j = s.ctx j := rfl
@[simp] theorem setIsland_tile (p : Nat) (x : Island) (j : Nat) : (s.setIsland p x).tile j = s.tile j := rfl
@[simp] theorem setIsland_inc (p : Nat) (x : Island) (j : Nat) : (s.setIsland p x).inc j = s.inc j := rfl
@[simp] theorem setIsland_outc (p : Nat) (x : Island) (j : Nat) : (s.setIsland p x).outc j = s.outc j := rfl
@[simp] theorem setIsland_unit (p : Nat) (x : Island) (j : Nat) : (s.setIsland p x).unit j = s.unit j := rfl
@[simp] theorem setIsland_engine (p : Nat) (x : Island) (j : Nat) : (s.setIsland p x).engine j = s.engine j := rfl
@[simp] theorem setIsland_streamer (p : Nat) (x : Island) (j : Nat) : (s.setIsland p x).streamer j = s.streamer j := rfl
@[simp] theorem setIsland_part (p : Nat) (x : Island) (j : Nat) : (s.setIsland p x).part j = s.part j := rfl
@[simp] theorem setIsland_island_self (p : Nat) (x : Island) : (s.setIsland p x).island p = x := by simp [setIsland, island]
@[simp] theorem setIsland_island_ne (p : Nat) (x : Island) {j : Nat} (h : j ≠ p) : (s.setIsland p x).island j = s.island j := by
  simp [setIsland, island, SMap.get_set_ne, h]
theorem setIsland_island_get (p : Nat) (x : Island) (j : Nat) : (s.setIsland p x).island j = if j = p then x else s.island j := by
  by_cases h : j = p <;> simp [h]
@[simp] theorem setIsland_setIsland (p : Nat) (x : Island) (y : Island) : (s.setIsland p x).setIsland p y = s.setIsland p y := by simp [setIsland]
@[simp] theorem setIsland_time (p : Nat) (x : Island) (d : Nat) : (s.setIsland p x).time d = s.time d := rfl

/-! ### setEngine -/

@[simp] theorem setEngine_agenda (i : Nat) (x : Engine) : (s.setEngine i x).agenda = s.agenda := rfl
@[simp] theorem setEngine_turns (i : Nat) (x : Engine) : (s.setEngine i x).turns = s.turns := rfl
@[simp] theorem setEngine_draws (i : Nat) (x : Engine) : (s.setEngine i x).draws = s.draws := rfl
@[simp] theorem setEngine_focus (i : Nat) (x : Engine) : (s.setEngine i x).focus = s.focus := rfl
@[simp] theorem setEngine_acted (i : Nat) (x : Engine) : (s.setEngine i x).acted = s.acted := rfl
@[simp] theorem setEngine_almanac (i : Nat) (x : Engine) : (s.setEngine i x).almanac = s.almanac := rfl
@[simp] theorem setEngine_copies (i : Nat) (x : Engine) : (s.setEngine i x).copies = s.copies := rfl
@[simp] theorem setEngine_stage (i : Nat) (x : Engine) : (s.setEngine i x).stage = s.stage := rfl
@[simp] theorem setEngine_version (i : Nat) (x : Engine) : (s.setEngine i x).version = s.version := rfl
@[simp] theorem setEngine_fetches (i : Nat) (x : Engine) : (s.setEngine i x).fetches = s.fetches := rfl
@[simp] theorem setEngine_failures (i : Nat) (x : Engine) : (s.setEngine i x).failures = s.failures := rfl
@[simp] theorem setEngine_flash (i : Nat) (x : Engine) : (s.setEngine i x).flash = s.flash := rfl
@[simp] theorem setEngine_ckpt (i : Nat) (x : Engine) : (s.setEngine i x).ckpt = s.ckpt := rfl
@[simp] theorem setEngine_ckptRun (i : Nat) (x : Engine) : (s.setEngine i x).ckptRun = s.ckptRun := rfl
@[simp] theorem setEngine_storage (i : Nat) (x : Engine) : (s.setEngine i x).storage = s.storage := rfl
@[simp] theorem setEngine_unmapReg (i : Nat) (x : Engine) : (s.setEngine i x).unmapReg = s.unmapReg := rfl
@[simp] theorem setEngine_unmapRun (i : Nat) (x : Engine) : (s.setEngine i x).unmapRun = s.unmapRun := rfl
@[simp] theorem setEngine_mailboxes (i : Nat) (x : Engine) : (s.setEngine i x).mailboxes = s.mailboxes := rfl
@[simp] theorem setEngine_hostMem (i : Nat) (x : Engine) : (s.setEngine i x).hostMem = s.hostMem := rfl
@[simp] theorem setEngine_busImages (i : Nat) (x : Engine) : (s.setEngine i x).busImages = s.busImages := rfl
@[simp] theorem setEngine_msix (i : Nat) (x : Engine) : (s.setEngine i x).msix = s.msix := rfl
@[simp] theorem setEngine_roots (i : Nat) (x : Engine) : (s.setEngine i x).roots = s.roots := rfl
@[simp] theorem setEngine_tlbs (i : Nat) (x : Engine) : (s.setEngine i x).tlbs = s.tlbs := rfl
@[simp] theorem setEngine_walks (i : Nat) (x : Engine) : (s.setEngine i x).walks = s.walks := rfl
@[simp] theorem setEngine_filter (i : Nat) (x : Engine) : (s.setEngine i x).filter = s.filter := rfl
@[simp] theorem setEngine_l2 (i : Nat) (x : Engine) : (s.setEngine i x).l2 = s.l2 := rfl
@[simp] theorem setEngine_slices (i : Nat) (x : Engine) : (s.setEngine i x).slices = s.slices := rfl
@[simp] theorem setEngine_responses (i : Nat) (x : Engine) : (s.setEngine i x).responses = s.responses := rfl
@[simp] theorem setEngine_routers (i : Nat) (x : Engine) : (s.setEngine i x).routers = s.routers := rfl
@[simp] theorem setEngine_mem (i : Nat) (x : Engine) : (s.setEngine i x).mem = s.mem := rfl
@[simp] theorem setEngine_dramPoison (i : Nat) (x : Engine) : (s.setEngine i x).dramPoison = s.dramPoison := rfl
@[simp] theorem setEngine_health (i : Nat) (x : Engine) : (s.setEngine i x).health = s.health := rfl
@[simp] theorem setEngine_hot (i : Nat) (x : Engine) : (s.setEngine i x).hot = s.hot := rfl
@[simp] theorem setEngine_parts (i : Nat) (x : Engine) : (s.setEngine i x).parts = s.parts := rfl
@[simp] theorem setEngine_owners (i : Nat) (x : Engine) : (s.setEngine i x).owners = s.owners := rfl
@[simp] theorem setEngine_streamGrants (i : Nat) (x : Engine) : (s.setEngine i x).streamGrants = s.streamGrants := rfl
@[simp] theorem setEngine_fabric (i : Nat) (x : Engine) : (s.setEngine i x).fabric = s.fabric := rfl
@[simp] theorem setEngine_ringNext (i : Nat) (x : Engine) : (s.setEngine i x).ringNext = s.ringNext := rfl
@[simp] theorem setEngine_package (i : Nat) (x : Engine) : (s.setEngine i x).package = s.package := rfl
@[simp] theorem setEngine_episodes (i : Nat) (x : Engine) : (s.setEngine i x).episodes = s.episodes := rfl
@[simp] theorem setEngine_nextEpisode (i : Nat) (x : Engine) : (s.setEngine i x).nextEpisode = s.nextEpisode := rfl
@[simp] theorem setEngine_tiles (i : Nat) (x : Engine) : (s.setEngine i x).tiles = s.tiles := rfl
@[simp] theorem setEngine_ctxs (i : Nat) (x : Engine) : (s.setEngine i x).ctxs = s.ctxs := rfl
@[simp] theorem setEngine_ins (i : Nat) (x : Engine) : (s.setEngine i x).ins = s.ins := rfl
@[simp] theorem setEngine_outs (i : Nat) (x : Engine) : (s.setEngine i x).outs = s.outs := rfl
@[simp] theorem setEngine_units (i : Nat) (x : Engine) : (s.setEngine i x).units = s.units := rfl
@[simp] theorem setEngine_islands (i : Nat) (x : Engine) : (s.setEngine i x).islands = s.islands := rfl
@[simp] theorem setEngine_streamers (i : Nat) (x : Engine) : (s.setEngine i x).streamers = s.streamers := rfl
@[simp] theorem setEngine_ctx (i : Nat) (x : Engine) (j : Nat) : (s.setEngine i x).ctx j = s.ctx j := rfl
@[simp] theorem setEngine_tile (i : Nat) (x : Engine) (j : Nat) : (s.setEngine i x).tile j = s.tile j := rfl
@[simp] theorem setEngine_inc (i : Nat) (x : Engine) (j : Nat) : (s.setEngine i x).inc j = s.inc j := rfl
@[simp] theorem setEngine_outc (i : Nat) (x : Engine) (j : Nat) : (s.setEngine i x).outc j = s.outc j := rfl
@[simp] theorem setEngine_unit (i : Nat) (x : Engine) (j : Nat) : (s.setEngine i x).unit j = s.unit j := rfl
@[simp] theorem setEngine_island (i : Nat) (x : Engine) (j : Nat) : (s.setEngine i x).island j = s.island j := rfl
@[simp] theorem setEngine_streamer (i : Nat) (x : Engine) (j : Nat) : (s.setEngine i x).streamer j = s.streamer j := rfl
@[simp] theorem setEngine_part (i : Nat) (x : Engine) (j : Nat) : (s.setEngine i x).part j = s.part j := rfl
@[simp] theorem setEngine_engine_self (i : Nat) (x : Engine) : (s.setEngine i x).engine i = x := by simp [setEngine, engine]
@[simp] theorem setEngine_engine_ne (i : Nat) (x : Engine) {j : Nat} (h : j ≠ i) : (s.setEngine i x).engine j = s.engine j := by
  simp [setEngine, engine, SMap.get_set_ne, h]
theorem setEngine_engine_get (i : Nat) (x : Engine) (j : Nat) : (s.setEngine i x).engine j = if j = i then x else s.engine j := by
  by_cases h : j = i <;> simp [h]
@[simp] theorem setEngine_setEngine (i : Nat) (x : Engine) (y : Engine) : (s.setEngine i x).setEngine i y = s.setEngine i y := by simp [setEngine]
@[simp] theorem setEngine_time (i : Nat) (x : Engine) (d : Nat) : (s.setEngine i x).time d = s.time d := rfl

/-! ### setStreamer -/

@[simp] theorem setStreamer_agenda (i : Nat) (x : Streamer) : (s.setStreamer i x).agenda = s.agenda := rfl
@[simp] theorem setStreamer_turns (i : Nat) (x : Streamer) : (s.setStreamer i x).turns = s.turns := rfl
@[simp] theorem setStreamer_draws (i : Nat) (x : Streamer) : (s.setStreamer i x).draws = s.draws := rfl
@[simp] theorem setStreamer_focus (i : Nat) (x : Streamer) : (s.setStreamer i x).focus = s.focus := rfl
@[simp] theorem setStreamer_acted (i : Nat) (x : Streamer) : (s.setStreamer i x).acted = s.acted := rfl
@[simp] theorem setStreamer_almanac (i : Nat) (x : Streamer) : (s.setStreamer i x).almanac = s.almanac := rfl
@[simp] theorem setStreamer_copies (i : Nat) (x : Streamer) : (s.setStreamer i x).copies = s.copies := rfl
@[simp] theorem setStreamer_stage (i : Nat) (x : Streamer) : (s.setStreamer i x).stage = s.stage := rfl
@[simp] theorem setStreamer_version (i : Nat) (x : Streamer) : (s.setStreamer i x).version = s.version := rfl
@[simp] theorem setStreamer_fetches (i : Nat) (x : Streamer) : (s.setStreamer i x).fetches = s.fetches := rfl
@[simp] theorem setStreamer_failures (i : Nat) (x : Streamer) : (s.setStreamer i x).failures = s.failures := rfl
@[simp] theorem setStreamer_flash (i : Nat) (x : Streamer) : (s.setStreamer i x).flash = s.flash := rfl
@[simp] theorem setStreamer_ckpt (i : Nat) (x : Streamer) : (s.setStreamer i x).ckpt = s.ckpt := rfl
@[simp] theorem setStreamer_ckptRun (i : Nat) (x : Streamer) : (s.setStreamer i x).ckptRun = s.ckptRun := rfl
@[simp] theorem setStreamer_storage (i : Nat) (x : Streamer) : (s.setStreamer i x).storage = s.storage := rfl
@[simp] theorem setStreamer_unmapReg (i : Nat) (x : Streamer) : (s.setStreamer i x).unmapReg = s.unmapReg := rfl
@[simp] theorem setStreamer_unmapRun (i : Nat) (x : Streamer) : (s.setStreamer i x).unmapRun = s.unmapRun := rfl
@[simp] theorem setStreamer_mailboxes (i : Nat) (x : Streamer) : (s.setStreamer i x).mailboxes = s.mailboxes := rfl
@[simp] theorem setStreamer_hostMem (i : Nat) (x : Streamer) : (s.setStreamer i x).hostMem = s.hostMem := rfl
@[simp] theorem setStreamer_busImages (i : Nat) (x : Streamer) : (s.setStreamer i x).busImages = s.busImages := rfl
@[simp] theorem setStreamer_msix (i : Nat) (x : Streamer) : (s.setStreamer i x).msix = s.msix := rfl
@[simp] theorem setStreamer_roots (i : Nat) (x : Streamer) : (s.setStreamer i x).roots = s.roots := rfl
@[simp] theorem setStreamer_tlbs (i : Nat) (x : Streamer) : (s.setStreamer i x).tlbs = s.tlbs := rfl
@[simp] theorem setStreamer_walks (i : Nat) (x : Streamer) : (s.setStreamer i x).walks = s.walks := rfl
@[simp] theorem setStreamer_filter (i : Nat) (x : Streamer) : (s.setStreamer i x).filter = s.filter := rfl
@[simp] theorem setStreamer_l2 (i : Nat) (x : Streamer) : (s.setStreamer i x).l2 = s.l2 := rfl
@[simp] theorem setStreamer_slices (i : Nat) (x : Streamer) : (s.setStreamer i x).slices = s.slices := rfl
@[simp] theorem setStreamer_responses (i : Nat) (x : Streamer) : (s.setStreamer i x).responses = s.responses := rfl
@[simp] theorem setStreamer_routers (i : Nat) (x : Streamer) : (s.setStreamer i x).routers = s.routers := rfl
@[simp] theorem setStreamer_mem (i : Nat) (x : Streamer) : (s.setStreamer i x).mem = s.mem := rfl
@[simp] theorem setStreamer_dramPoison (i : Nat) (x : Streamer) : (s.setStreamer i x).dramPoison = s.dramPoison := rfl
@[simp] theorem setStreamer_health (i : Nat) (x : Streamer) : (s.setStreamer i x).health = s.health := rfl
@[simp] theorem setStreamer_hot (i : Nat) (x : Streamer) : (s.setStreamer i x).hot = s.hot := rfl
@[simp] theorem setStreamer_parts (i : Nat) (x : Streamer) : (s.setStreamer i x).parts = s.parts := rfl
@[simp] theorem setStreamer_owners (i : Nat) (x : Streamer) : (s.setStreamer i x).owners = s.owners := rfl
@[simp] theorem setStreamer_streamGrants (i : Nat) (x : Streamer) : (s.setStreamer i x).streamGrants = s.streamGrants := rfl
@[simp] theorem setStreamer_fabric (i : Nat) (x : Streamer) : (s.setStreamer i x).fabric = s.fabric := rfl
@[simp] theorem setStreamer_ringNext (i : Nat) (x : Streamer) : (s.setStreamer i x).ringNext = s.ringNext := rfl
@[simp] theorem setStreamer_package (i : Nat) (x : Streamer) : (s.setStreamer i x).package = s.package := rfl
@[simp] theorem setStreamer_episodes (i : Nat) (x : Streamer) : (s.setStreamer i x).episodes = s.episodes := rfl
@[simp] theorem setStreamer_nextEpisode (i : Nat) (x : Streamer) : (s.setStreamer i x).nextEpisode = s.nextEpisode := rfl
@[simp] theorem setStreamer_tiles (i : Nat) (x : Streamer) : (s.setStreamer i x).tiles = s.tiles := rfl
@[simp] theorem setStreamer_ctxs (i : Nat) (x : Streamer) : (s.setStreamer i x).ctxs = s.ctxs := rfl
@[simp] theorem setStreamer_ins (i : Nat) (x : Streamer) : (s.setStreamer i x).ins = s.ins := rfl
@[simp] theorem setStreamer_outs (i : Nat) (x : Streamer) : (s.setStreamer i x).outs = s.outs := rfl
@[simp] theorem setStreamer_units (i : Nat) (x : Streamer) : (s.setStreamer i x).units = s.units := rfl
@[simp] theorem setStreamer_islands (i : Nat) (x : Streamer) : (s.setStreamer i x).islands = s.islands := rfl
@[simp] theorem setStreamer_engines (i : Nat) (x : Streamer) : (s.setStreamer i x).engines = s.engines := rfl
@[simp] theorem setStreamer_ctx (i : Nat) (x : Streamer) (j : Nat) : (s.setStreamer i x).ctx j = s.ctx j := rfl
@[simp] theorem setStreamer_tile (i : Nat) (x : Streamer) (j : Nat) : (s.setStreamer i x).tile j = s.tile j := rfl
@[simp] theorem setStreamer_inc (i : Nat) (x : Streamer) (j : Nat) : (s.setStreamer i x).inc j = s.inc j := rfl
@[simp] theorem setStreamer_outc (i : Nat) (x : Streamer) (j : Nat) : (s.setStreamer i x).outc j = s.outc j := rfl
@[simp] theorem setStreamer_unit (i : Nat) (x : Streamer) (j : Nat) : (s.setStreamer i x).unit j = s.unit j := rfl
@[simp] theorem setStreamer_island (i : Nat) (x : Streamer) (j : Nat) : (s.setStreamer i x).island j = s.island j := rfl
@[simp] theorem setStreamer_engine (i : Nat) (x : Streamer) (j : Nat) : (s.setStreamer i x).engine j = s.engine j := rfl
@[simp] theorem setStreamer_part (i : Nat) (x : Streamer) (j : Nat) : (s.setStreamer i x).part j = s.part j := rfl
@[simp] theorem setStreamer_streamer_self (i : Nat) (x : Streamer) : (s.setStreamer i x).streamer i = x := by simp [setStreamer, streamer]
@[simp] theorem setStreamer_streamer_ne (i : Nat) (x : Streamer) {j : Nat} (h : j ≠ i) : (s.setStreamer i x).streamer j = s.streamer j := by
  simp [setStreamer, streamer, SMap.get_set_ne, h]
theorem setStreamer_streamer_get (i : Nat) (x : Streamer) (j : Nat) : (s.setStreamer i x).streamer j = if j = i then x else s.streamer j := by
  by_cases h : j = i <;> simp [h]
@[simp] theorem setStreamer_setStreamer (i : Nat) (x : Streamer) (y : Streamer) : (s.setStreamer i x).setStreamer i y = s.setStreamer i y := by simp [setStreamer]
@[simp] theorem setStreamer_time (i : Nat) (x : Streamer) (d : Nat) : (s.setStreamer i x).time d = s.time d := rfl

/-! ### setPart -/

@[simp] theorem setPart_agenda (i : Nat) (x : Part) : (s.setPart i x).agenda = s.agenda := rfl
@[simp] theorem setPart_turns (i : Nat) (x : Part) : (s.setPart i x).turns = s.turns := rfl
@[simp] theorem setPart_draws (i : Nat) (x : Part) : (s.setPart i x).draws = s.draws := rfl
@[simp] theorem setPart_focus (i : Nat) (x : Part) : (s.setPart i x).focus = s.focus := rfl
@[simp] theorem setPart_acted (i : Nat) (x : Part) : (s.setPart i x).acted = s.acted := rfl
@[simp] theorem setPart_almanac (i : Nat) (x : Part) : (s.setPart i x).almanac = s.almanac := rfl
@[simp] theorem setPart_copies (i : Nat) (x : Part) : (s.setPart i x).copies = s.copies := rfl
@[simp] theorem setPart_stage (i : Nat) (x : Part) : (s.setPart i x).stage = s.stage := rfl
@[simp] theorem setPart_version (i : Nat) (x : Part) : (s.setPart i x).version = s.version := rfl
@[simp] theorem setPart_fetches (i : Nat) (x : Part) : (s.setPart i x).fetches = s.fetches := rfl
@[simp] theorem setPart_failures (i : Nat) (x : Part) : (s.setPart i x).failures = s.failures := rfl
@[simp] theorem setPart_flash (i : Nat) (x : Part) : (s.setPart i x).flash = s.flash := rfl
@[simp] theorem setPart_ckpt (i : Nat) (x : Part) : (s.setPart i x).ckpt = s.ckpt := rfl
@[simp] theorem setPart_ckptRun (i : Nat) (x : Part) : (s.setPart i x).ckptRun = s.ckptRun := rfl
@[simp] theorem setPart_storage (i : Nat) (x : Part) : (s.setPart i x).storage = s.storage := rfl
@[simp] theorem setPart_unmapReg (i : Nat) (x : Part) : (s.setPart i x).unmapReg = s.unmapReg := rfl
@[simp] theorem setPart_unmapRun (i : Nat) (x : Part) : (s.setPart i x).unmapRun = s.unmapRun := rfl
@[simp] theorem setPart_mailboxes (i : Nat) (x : Part) : (s.setPart i x).mailboxes = s.mailboxes := rfl
@[simp] theorem setPart_hostMem (i : Nat) (x : Part) : (s.setPart i x).hostMem = s.hostMem := rfl
@[simp] theorem setPart_busImages (i : Nat) (x : Part) : (s.setPart i x).busImages = s.busImages := rfl
@[simp] theorem setPart_msix (i : Nat) (x : Part) : (s.setPart i x).msix = s.msix := rfl
@[simp] theorem setPart_roots (i : Nat) (x : Part) : (s.setPart i x).roots = s.roots := rfl
@[simp] theorem setPart_tlbs (i : Nat) (x : Part) : (s.setPart i x).tlbs = s.tlbs := rfl
@[simp] theorem setPart_walks (i : Nat) (x : Part) : (s.setPart i x).walks = s.walks := rfl
@[simp] theorem setPart_filter (i : Nat) (x : Part) : (s.setPart i x).filter = s.filter := rfl
@[simp] theorem setPart_l2 (i : Nat) (x : Part) : (s.setPart i x).l2 = s.l2 := rfl
@[simp] theorem setPart_slices (i : Nat) (x : Part) : (s.setPart i x).slices = s.slices := rfl
@[simp] theorem setPart_responses (i : Nat) (x : Part) : (s.setPart i x).responses = s.responses := rfl
@[simp] theorem setPart_routers (i : Nat) (x : Part) : (s.setPart i x).routers = s.routers := rfl
@[simp] theorem setPart_mem (i : Nat) (x : Part) : (s.setPart i x).mem = s.mem := rfl
@[simp] theorem setPart_dramPoison (i : Nat) (x : Part) : (s.setPart i x).dramPoison = s.dramPoison := rfl
@[simp] theorem setPart_health (i : Nat) (x : Part) : (s.setPart i x).health = s.health := rfl
@[simp] theorem setPart_hot (i : Nat) (x : Part) : (s.setPart i x).hot = s.hot := rfl
@[simp] theorem setPart_owners (i : Nat) (x : Part) : (s.setPart i x).owners = s.owners := rfl
@[simp] theorem setPart_streamGrants (i : Nat) (x : Part) : (s.setPart i x).streamGrants = s.streamGrants := rfl
@[simp] theorem setPart_fabric (i : Nat) (x : Part) : (s.setPart i x).fabric = s.fabric := rfl
@[simp] theorem setPart_ringNext (i : Nat) (x : Part) : (s.setPart i x).ringNext = s.ringNext := rfl
@[simp] theorem setPart_package (i : Nat) (x : Part) : (s.setPart i x).package = s.package := rfl
@[simp] theorem setPart_episodes (i : Nat) (x : Part) : (s.setPart i x).episodes = s.episodes := rfl
@[simp] theorem setPart_nextEpisode (i : Nat) (x : Part) : (s.setPart i x).nextEpisode = s.nextEpisode := rfl
@[simp] theorem setPart_tiles (i : Nat) (x : Part) : (s.setPart i x).tiles = s.tiles := rfl
@[simp] theorem setPart_ctxs (i : Nat) (x : Part) : (s.setPart i x).ctxs = s.ctxs := rfl
@[simp] theorem setPart_ins (i : Nat) (x : Part) : (s.setPart i x).ins = s.ins := rfl
@[simp] theorem setPart_outs (i : Nat) (x : Part) : (s.setPart i x).outs = s.outs := rfl
@[simp] theorem setPart_units (i : Nat) (x : Part) : (s.setPart i x).units = s.units := rfl
@[simp] theorem setPart_islands (i : Nat) (x : Part) : (s.setPart i x).islands = s.islands := rfl
@[simp] theorem setPart_engines (i : Nat) (x : Part) : (s.setPart i x).engines = s.engines := rfl
@[simp] theorem setPart_streamers (i : Nat) (x : Part) : (s.setPart i x).streamers = s.streamers := rfl
@[simp] theorem setPart_ctx (i : Nat) (x : Part) (j : Nat) : (s.setPart i x).ctx j = s.ctx j := rfl
@[simp] theorem setPart_tile (i : Nat) (x : Part) (j : Nat) : (s.setPart i x).tile j = s.tile j := rfl
@[simp] theorem setPart_inc (i : Nat) (x : Part) (j : Nat) : (s.setPart i x).inc j = s.inc j := rfl
@[simp] theorem setPart_outc (i : Nat) (x : Part) (j : Nat) : (s.setPart i x).outc j = s.outc j := rfl
@[simp] theorem setPart_unit (i : Nat) (x : Part) (j : Nat) : (s.setPart i x).unit j = s.unit j := rfl
@[simp] theorem setPart_island (i : Nat) (x : Part) (j : Nat) : (s.setPart i x).island j = s.island j := rfl
@[simp] theorem setPart_engine (i : Nat) (x : Part) (j : Nat) : (s.setPart i x).engine j = s.engine j := rfl
@[simp] theorem setPart_streamer (i : Nat) (x : Part) (j : Nat) : (s.setPart i x).streamer j = s.streamer j := rfl
@[simp] theorem setPart_part_self (i : Nat) (x : Part) : (s.setPart i x).part i = x := by simp [setPart, part]
@[simp] theorem setPart_part_ne (i : Nat) (x : Part) {j : Nat} (h : j ≠ i) : (s.setPart i x).part j = s.part j := by
  simp [setPart, part, SMap.get_set_ne, h]
theorem setPart_part_get (i : Nat) (x : Part) (j : Nat) : (s.setPart i x).part j = if j = i then x else s.part j := by
  by_cases h : j = i <;> simp [h]
@[simp] theorem setPart_setPart (i : Nat) (x : Part) (y : Part) : (s.setPart i x).setPart i y = s.setPart i y := by simp [setPart]
@[simp] theorem setPart_time (i : Nat) (x : Part) (d : Nat) : (s.setPart i x).time d = s.time d := rfl

/-! ### The context in focus -/

@[simp] theorem setHere_agenda (c : Ctx) : (s.setHere c).agenda = s.agenda := rfl
@[simp] theorem setHere_turns (c : Ctx) : (s.setHere c).turns = s.turns := rfl
@[simp] theorem setHere_draws (c : Ctx) : (s.setHere c).draws = s.draws := rfl
@[simp] theorem setHere_focus (c : Ctx) : (s.setHere c).focus = s.focus := rfl
@[simp] theorem setHere_acted (c : Ctx) : (s.setHere c).acted = s.acted := rfl
@[simp] theorem setHere_almanac (c : Ctx) : (s.setHere c).almanac = s.almanac := rfl
@[simp] theorem setHere_copies (c : Ctx) : (s.setHere c).copies = s.copies := rfl
@[simp] theorem setHere_stage (c : Ctx) : (s.setHere c).stage = s.stage := rfl
@[simp] theorem setHere_version (c : Ctx) : (s.setHere c).version = s.version := rfl
@[simp] theorem setHere_fetches (c : Ctx) : (s.setHere c).fetches = s.fetches := rfl
@[simp] theorem setHere_failures (c : Ctx) : (s.setHere c).failures = s.failures := rfl
@[simp] theorem setHere_flash (c : Ctx) : (s.setHere c).flash = s.flash := rfl
@[simp] theorem setHere_ckpt (c : Ctx) : (s.setHere c).ckpt = s.ckpt := rfl
@[simp] theorem setHere_ckptRun (c : Ctx) : (s.setHere c).ckptRun = s.ckptRun := rfl
@[simp] theorem setHere_storage (c : Ctx) : (s.setHere c).storage = s.storage := rfl
@[simp] theorem setHere_unmapReg (c : Ctx) : (s.setHere c).unmapReg = s.unmapReg := rfl
@[simp] theorem setHere_unmapRun (c : Ctx) : (s.setHere c).unmapRun = s.unmapRun := rfl
@[simp] theorem setHere_mailboxes (c : Ctx) : (s.setHere c).mailboxes = s.mailboxes := rfl
@[simp] theorem setHere_hostMem (c : Ctx) : (s.setHere c).hostMem = s.hostMem := rfl
@[simp] theorem setHere_busImages (c : Ctx) : (s.setHere c).busImages = s.busImages := rfl
@[simp] theorem setHere_msix (c : Ctx) : (s.setHere c).msix = s.msix := rfl
@[simp] theorem setHere_roots (c : Ctx) : (s.setHere c).roots = s.roots := rfl
@[simp] theorem setHere_tlbs (c : Ctx) : (s.setHere c).tlbs = s.tlbs := rfl
@[simp] theorem setHere_walks (c : Ctx) : (s.setHere c).walks = s.walks := rfl
@[simp] theorem setHere_filter (c : Ctx) : (s.setHere c).filter = s.filter := rfl
@[simp] theorem setHere_l2 (c : Ctx) : (s.setHere c).l2 = s.l2 := rfl
@[simp] theorem setHere_slices (c : Ctx) : (s.setHere c).slices = s.slices := rfl
@[simp] theorem setHere_responses (c : Ctx) : (s.setHere c).responses = s.responses := rfl
@[simp] theorem setHere_routers (c : Ctx) : (s.setHere c).routers = s.routers := rfl
@[simp] theorem setHere_mem (c : Ctx) : (s.setHere c).mem = s.mem := rfl
@[simp] theorem setHere_dramPoison (c : Ctx) : (s.setHere c).dramPoison = s.dramPoison := rfl
@[simp] theorem setHere_health (c : Ctx) : (s.setHere c).health = s.health := rfl
@[simp] theorem setHere_hot (c : Ctx) : (s.setHere c).hot = s.hot := rfl
@[simp] theorem setHere_parts (c : Ctx) : (s.setHere c).parts = s.parts := rfl
@[simp] theorem setHere_owners (c : Ctx) : (s.setHere c).owners = s.owners := rfl
@[simp] theorem setHere_streamGrants (c : Ctx) : (s.setHere c).streamGrants = s.streamGrants := rfl
@[simp] theorem setHere_fabric (c : Ctx) : (s.setHere c).fabric = s.fabric := rfl
@[simp] theorem setHere_ringNext (c : Ctx) : (s.setHere c).ringNext = s.ringNext := rfl
@[simp] theorem setHere_package (c : Ctx) : (s.setHere c).package = s.package := rfl
@[simp] theorem setHere_episodes (c : Ctx) : (s.setHere c).episodes = s.episodes := rfl
@[simp] theorem setHere_nextEpisode (c : Ctx) : (s.setHere c).nextEpisode = s.nextEpisode := rfl
@[simp] theorem setHere_tiles (c : Ctx) : (s.setHere c).tiles = s.tiles := rfl
@[simp] theorem setHere_ins (c : Ctx) : (s.setHere c).ins = s.ins := rfl
@[simp] theorem setHere_outs (c : Ctx) : (s.setHere c).outs = s.outs := rfl
@[simp] theorem setHere_units (c : Ctx) : (s.setHere c).units = s.units := rfl
@[simp] theorem setHere_islands (c : Ctx) : (s.setHere c).islands = s.islands := rfl
@[simp] theorem setHere_engines (c : Ctx) : (s.setHere c).engines = s.engines := rfl
@[simp] theorem setHere_streamers (c : Ctx) : (s.setHere c).streamers = s.streamers := rfl
@[simp] theorem setHere_tile (c : Ctx) (j : Nat) : (s.setHere c).tile j = s.tile j := rfl
@[simp] theorem setHere_inc (c : Ctx) (j : Nat) : (s.setHere c).inc j = s.inc j := rfl
@[simp] theorem setHere_outc (c : Ctx) (j : Nat) : (s.setHere c).outc j = s.outc j := rfl
@[simp] theorem setHere_unit (c : Ctx) (j : Nat) : (s.setHere c).unit j = s.unit j := rfl
@[simp] theorem setHere_island (c : Ctx) (j : Nat) : (s.setHere c).island j = s.island j := rfl
@[simp] theorem setHere_engine (c : Ctx) (j : Nat) : (s.setHere c).engine j = s.engine j := rfl
@[simp] theorem setHere_streamer (c : Ctx) (j : Nat) : (s.setHere c).streamer j = s.streamer j := rfl
@[simp] theorem setHere_part (c : Ctx) (j : Nat) : (s.setHere c).part j = s.part j := rfl
@[simp] theorem setHere_here (c : Ctx) : (s.setHere c).here = c := by simp [setHere, here]
@[simp] theorem setHere_ctx_self (c : Ctx) : (s.setHere c).ctx s.focus.ctxId = c := by simp [setHere]
@[simp] theorem setHere_ctx_ne (c : Ctx) {j : Nat} (h : j ≠ s.focus.ctxId) : (s.setHere c).ctx j = s.ctx j := by simp [setHere, h]
@[simp] theorem setHere_setHere (c d : Ctx) : (s.setHere c).setHere d = s.setHere d := by simp [setHere]
@[simp] theorem setHere_time (c : Ctx) (d : Nat) : (s.setHere c).time d = s.time d := rfl

@[simp] theorem setTile_here (p : Nat) (t : Tile) : (s.setTile p t).here = s.here := rfl
@[simp] theorem setInc_here (i : Nat) (c : InChan) : (s.setInc i c).here = s.here := rfl
@[simp] theorem setOutc_here (i : Nat) (c : OutChan) : (s.setOutc i c).here = s.here := rfl
@[simp] theorem setUnit_here (i : Nat) (u : OpUnit) : (s.setUnit i u).here = s.here := rfl
@[simp] theorem setIsland_here (p : Nat) (x : Island) : (s.setIsland p x).here = s.here := rfl
@[simp] theorem setEngine_here (i : Nat) (x : Engine) : (s.setEngine i x).here = s.here := rfl
@[simp] theorem setStreamer_here (i : Nat) (x : Streamer) : (s.setStreamer i x).here = s.here := rfl
@[simp] theorem setPart_here (i : Nat) (x : Part) : (s.setPart i x).here = s.here := rfl

/-! ### Maps over all parts of a kind -/

@[simp] theorem mapCtxs_agenda (f : Nat → Ctx → Ctx) : (s.mapCtxs f).agenda = s.agenda := rfl
@[simp] theorem mapCtxs_turns (f : Nat → Ctx → Ctx) : (s.mapCtxs f).turns = s.turns := rfl
@[simp] theorem mapCtxs_draws (f : Nat → Ctx → Ctx) : (s.mapCtxs f).draws = s.draws := rfl
@[simp] theorem mapCtxs_focus (f : Nat → Ctx → Ctx) : (s.mapCtxs f).focus = s.focus := rfl
@[simp] theorem mapCtxs_acted (f : Nat → Ctx → Ctx) : (s.mapCtxs f).acted = s.acted := rfl
@[simp] theorem mapCtxs_almanac (f : Nat → Ctx → Ctx) : (s.mapCtxs f).almanac = s.almanac := rfl
@[simp] theorem mapCtxs_copies (f : Nat → Ctx → Ctx) : (s.mapCtxs f).copies = s.copies := rfl
@[simp] theorem mapCtxs_stage (f : Nat → Ctx → Ctx) : (s.mapCtxs f).stage = s.stage := rfl
@[simp] theorem mapCtxs_version (f : Nat → Ctx → Ctx) : (s.mapCtxs f).version = s.version := rfl
@[simp] theorem mapCtxs_fetches (f : Nat → Ctx → Ctx) : (s.mapCtxs f).fetches = s.fetches := rfl
@[simp] theorem mapCtxs_failures (f : Nat → Ctx → Ctx) : (s.mapCtxs f).failures = s.failures := rfl
@[simp] theorem mapCtxs_flash (f : Nat → Ctx → Ctx) : (s.mapCtxs f).flash = s.flash := rfl
@[simp] theorem mapCtxs_ckpt (f : Nat → Ctx → Ctx) : (s.mapCtxs f).ckpt = s.ckpt := rfl
@[simp] theorem mapCtxs_ckptRun (f : Nat → Ctx → Ctx) : (s.mapCtxs f).ckptRun = s.ckptRun := rfl
@[simp] theorem mapCtxs_storage (f : Nat → Ctx → Ctx) : (s.mapCtxs f).storage = s.storage := rfl
@[simp] theorem mapCtxs_unmapReg (f : Nat → Ctx → Ctx) : (s.mapCtxs f).unmapReg = s.unmapReg := rfl
@[simp] theorem mapCtxs_unmapRun (f : Nat → Ctx → Ctx) : (s.mapCtxs f).unmapRun = s.unmapRun := rfl
@[simp] theorem mapCtxs_mailboxes (f : Nat → Ctx → Ctx) : (s.mapCtxs f).mailboxes = s.mailboxes := rfl
@[simp] theorem mapCtxs_hostMem (f : Nat → Ctx → Ctx) : (s.mapCtxs f).hostMem = s.hostMem := rfl
@[simp] theorem mapCtxs_busImages (f : Nat → Ctx → Ctx) : (s.mapCtxs f).busImages = s.busImages := rfl
@[simp] theorem mapCtxs_msix (f : Nat → Ctx → Ctx) : (s.mapCtxs f).msix = s.msix := rfl
@[simp] theorem mapCtxs_roots (f : Nat → Ctx → Ctx) : (s.mapCtxs f).roots = s.roots := rfl
@[simp] theorem mapCtxs_tlbs (f : Nat → Ctx → Ctx) : (s.mapCtxs f).tlbs = s.tlbs := rfl
@[simp] theorem mapCtxs_walks (f : Nat → Ctx → Ctx) : (s.mapCtxs f).walks = s.walks := rfl
@[simp] theorem mapCtxs_filter (f : Nat → Ctx → Ctx) : (s.mapCtxs f).filter = s.filter := rfl
@[simp] theorem mapCtxs_l2 (f : Nat → Ctx → Ctx) : (s.mapCtxs f).l2 = s.l2 := rfl
@[simp] theorem mapCtxs_slices (f : Nat → Ctx → Ctx) : (s.mapCtxs f).slices = s.slices := rfl
@[simp] theorem mapCtxs_responses (f : Nat → Ctx → Ctx) : (s.mapCtxs f).responses = s.responses := rfl
@[simp] theorem mapCtxs_routers (f : Nat → Ctx → Ctx) : (s.mapCtxs f).routers = s.routers := rfl
@[simp] theorem mapCtxs_mem (f : Nat → Ctx → Ctx) : (s.mapCtxs f).mem = s.mem := rfl
@[simp] theorem mapCtxs_dramPoison (f : Nat → Ctx → Ctx) : (s.mapCtxs f).dramPoison = s.dramPoison := rfl
@[simp] theorem mapCtxs_health (f : Nat → Ctx → Ctx) : (s.mapCtxs f).health = s.health := rfl
@[simp] theorem mapCtxs_hot (f : Nat → Ctx → Ctx) : (s.mapCtxs f).hot = s.hot := rfl
@[simp] theorem mapCtxs_parts (f : Nat → Ctx → Ctx) : (s.mapCtxs f).parts = s.parts := rfl
@[simp] theorem mapCtxs_owners (f : Nat → Ctx → Ctx) : (s.mapCtxs f).owners = s.owners := rfl
@[simp] theorem mapCtxs_streamGrants (f : Nat → Ctx → Ctx) : (s.mapCtxs f).streamGrants = s.streamGrants := rfl
@[simp] theorem mapCtxs_fabric (f : Nat → Ctx → Ctx) : (s.mapCtxs f).fabric = s.fabric := rfl
@[simp] theorem mapCtxs_ringNext (f : Nat → Ctx → Ctx) : (s.mapCtxs f).ringNext = s.ringNext := rfl
@[simp] theorem mapCtxs_package (f : Nat → Ctx → Ctx) : (s.mapCtxs f).package = s.package := rfl
@[simp] theorem mapCtxs_episodes (f : Nat → Ctx → Ctx) : (s.mapCtxs f).episodes = s.episodes := rfl
@[simp] theorem mapCtxs_nextEpisode (f : Nat → Ctx → Ctx) : (s.mapCtxs f).nextEpisode = s.nextEpisode := rfl
@[simp] theorem mapCtxs_tiles (f : Nat → Ctx → Ctx) : (s.mapCtxs f).tiles = s.tiles := rfl
@[simp] theorem mapCtxs_ins (f : Nat → Ctx → Ctx) : (s.mapCtxs f).ins = s.ins := rfl
@[simp] theorem mapCtxs_outs (f : Nat → Ctx → Ctx) : (s.mapCtxs f).outs = s.outs := rfl
@[simp] theorem mapCtxs_units (f : Nat → Ctx → Ctx) : (s.mapCtxs f).units = s.units := rfl
@[simp] theorem mapCtxs_islands (f : Nat → Ctx → Ctx) : (s.mapCtxs f).islands = s.islands := rfl
@[simp] theorem mapCtxs_engines (f : Nat → Ctx → Ctx) : (s.mapCtxs f).engines = s.engines := rfl
@[simp] theorem mapCtxs_streamers (f : Nat → Ctx → Ctx) : (s.mapCtxs f).streamers = s.streamers := rfl
@[simp] theorem mapCtxs_tile (f : Nat → Ctx → Ctx) (j : Nat) : (s.mapCtxs f).tile j = s.tile j := rfl
@[simp] theorem mapCtxs_inc (f : Nat → Ctx → Ctx) (j : Nat) : (s.mapCtxs f).inc j = s.inc j := rfl
@[simp] theorem mapCtxs_outc (f : Nat → Ctx → Ctx) (j : Nat) : (s.mapCtxs f).outc j = s.outc j := rfl
@[simp] theorem mapCtxs_unit (f : Nat → Ctx → Ctx) (j : Nat) : (s.mapCtxs f).unit j = s.unit j := rfl
@[simp] theorem mapCtxs_island (f : Nat → Ctx → Ctx) (j : Nat) : (s.mapCtxs f).island j = s.island j := rfl
@[simp] theorem mapCtxs_engine (f : Nat → Ctx → Ctx) (j : Nat) : (s.mapCtxs f).engine j = s.engine j := rfl
@[simp] theorem mapCtxs_streamer (f : Nat → Ctx → Ctx) (j : Nat) : (s.mapCtxs f).streamer j = s.streamer j := rfl
@[simp] theorem mapCtxs_part (f : Nat → Ctx → Ctx) (j : Nat) : (s.mapCtxs f).part j = s.part j := rfl

@[simp] theorem mapUnits_agenda (f : Nat → OpUnit → OpUnit) : (s.mapUnits f).agenda = s.agenda := rfl
@[simp] theorem mapUnits_turns (f : Nat → OpUnit → OpUnit) : (s.mapUnits f).turns = s.turns := rfl
@[simp] theorem mapUnits_draws (f : Nat → OpUnit → OpUnit) : (s.mapUnits f).draws = s.draws := rfl
@[simp] theorem mapUnits_focus (f : Nat → OpUnit → OpUnit) : (s.mapUnits f).focus = s.focus := rfl
@[simp] theorem mapUnits_acted (f : Nat → OpUnit → OpUnit) : (s.mapUnits f).acted = s.acted := rfl
@[simp] theorem mapUnits_almanac (f : Nat → OpUnit → OpUnit) : (s.mapUnits f).almanac = s.almanac := rfl
@[simp] theorem mapUnits_copies (f : Nat → OpUnit → OpUnit) : (s.mapUnits f).copies = s.copies := rfl
@[simp] theorem mapUnits_stage (f : Nat → OpUnit → OpUnit) : (s.mapUnits f).stage = s.stage := rfl
@[simp] theorem mapUnits_version (f : Nat → OpUnit → OpUnit) : (s.mapUnits f).version = s.version := rfl
@[simp] theorem mapUnits_fetches (f : Nat → OpUnit → OpUnit) : (s.mapUnits f).fetches = s.fetches := rfl
@[simp] theorem mapUnits_failures (f : Nat → OpUnit → OpUnit) : (s.mapUnits f).failures = s.failures := rfl
@[simp] theorem mapUnits_flash (f : Nat → OpUnit → OpUnit) : (s.mapUnits f).flash = s.flash := rfl
@[simp] theorem mapUnits_ckpt (f : Nat → OpUnit → OpUnit) : (s.mapUnits f).ckpt = s.ckpt := rfl
@[simp] theorem mapUnits_ckptRun (f : Nat → OpUnit → OpUnit) : (s.mapUnits f).ckptRun = s.ckptRun := rfl
@[simp] theorem mapUnits_storage (f : Nat → OpUnit → OpUnit) : (s.mapUnits f).storage = s.storage := rfl
@[simp] theorem mapUnits_unmapReg (f : Nat → OpUnit → OpUnit) : (s.mapUnits f).unmapReg = s.unmapReg := rfl
@[simp] theorem mapUnits_unmapRun (f : Nat → OpUnit → OpUnit) : (s.mapUnits f).unmapRun = s.unmapRun := rfl
@[simp] theorem mapUnits_mailboxes (f : Nat → OpUnit → OpUnit) : (s.mapUnits f).mailboxes = s.mailboxes := rfl
@[simp] theorem mapUnits_hostMem (f : Nat → OpUnit → OpUnit) : (s.mapUnits f).hostMem = s.hostMem := rfl
@[simp] theorem mapUnits_busImages (f : Nat → OpUnit → OpUnit) : (s.mapUnits f).busImages = s.busImages := rfl
@[simp] theorem mapUnits_msix (f : Nat → OpUnit → OpUnit) : (s.mapUnits f).msix = s.msix := rfl
@[simp] theorem mapUnits_roots (f : Nat → OpUnit → OpUnit) : (s.mapUnits f).roots = s.roots := rfl
@[simp] theorem mapUnits_tlbs (f : Nat → OpUnit → OpUnit) : (s.mapUnits f).tlbs = s.tlbs := rfl
@[simp] theorem mapUnits_walks (f : Nat → OpUnit → OpUnit) : (s.mapUnits f).walks = s.walks := rfl
@[simp] theorem mapUnits_filter (f : Nat → OpUnit → OpUnit) : (s.mapUnits f).filter = s.filter := rfl
@[simp] theorem mapUnits_l2 (f : Nat → OpUnit → OpUnit) : (s.mapUnits f).l2 = s.l2 := rfl
@[simp] theorem mapUnits_slices (f : Nat → OpUnit → OpUnit) : (s.mapUnits f).slices = s.slices := rfl
@[simp] theorem mapUnits_responses (f : Nat → OpUnit → OpUnit) : (s.mapUnits f).responses = s.responses := rfl
@[simp] theorem mapUnits_routers (f : Nat → OpUnit → OpUnit) : (s.mapUnits f).routers = s.routers := rfl
@[simp] theorem mapUnits_mem (f : Nat → OpUnit → OpUnit) : (s.mapUnits f).mem = s.mem := rfl
@[simp] theorem mapUnits_dramPoison (f : Nat → OpUnit → OpUnit) : (s.mapUnits f).dramPoison = s.dramPoison := rfl
@[simp] theorem mapUnits_health (f : Nat → OpUnit → OpUnit) : (s.mapUnits f).health = s.health := rfl
@[simp] theorem mapUnits_hot (f : Nat → OpUnit → OpUnit) : (s.mapUnits f).hot = s.hot := rfl
@[simp] theorem mapUnits_parts (f : Nat → OpUnit → OpUnit) : (s.mapUnits f).parts = s.parts := rfl
@[simp] theorem mapUnits_owners (f : Nat → OpUnit → OpUnit) : (s.mapUnits f).owners = s.owners := rfl
@[simp] theorem mapUnits_streamGrants (f : Nat → OpUnit → OpUnit) : (s.mapUnits f).streamGrants = s.streamGrants := rfl
@[simp] theorem mapUnits_fabric (f : Nat → OpUnit → OpUnit) : (s.mapUnits f).fabric = s.fabric := rfl
@[simp] theorem mapUnits_ringNext (f : Nat → OpUnit → OpUnit) : (s.mapUnits f).ringNext = s.ringNext := rfl
@[simp] theorem mapUnits_package (f : Nat → OpUnit → OpUnit) : (s.mapUnits f).package = s.package := rfl
@[simp] theorem mapUnits_episodes (f : Nat → OpUnit → OpUnit) : (s.mapUnits f).episodes = s.episodes := rfl
@[simp] theorem mapUnits_nextEpisode (f : Nat → OpUnit → OpUnit) : (s.mapUnits f).nextEpisode = s.nextEpisode := rfl
@[simp] theorem mapUnits_tiles (f : Nat → OpUnit → OpUnit) : (s.mapUnits f).tiles = s.tiles := rfl
@[simp] theorem mapUnits_ctxs (f : Nat → OpUnit → OpUnit) : (s.mapUnits f).ctxs = s.ctxs := rfl
@[simp] theorem mapUnits_ins (f : Nat → OpUnit → OpUnit) : (s.mapUnits f).ins = s.ins := rfl
@[simp] theorem mapUnits_outs (f : Nat → OpUnit → OpUnit) : (s.mapUnits f).outs = s.outs := rfl
@[simp] theorem mapUnits_islands (f : Nat → OpUnit → OpUnit) : (s.mapUnits f).islands = s.islands := rfl
@[simp] theorem mapUnits_engines (f : Nat → OpUnit → OpUnit) : (s.mapUnits f).engines = s.engines := rfl
@[simp] theorem mapUnits_streamers (f : Nat → OpUnit → OpUnit) : (s.mapUnits f).streamers = s.streamers := rfl
@[simp] theorem mapUnits_ctx (f : Nat → OpUnit → OpUnit) (j : Nat) : (s.mapUnits f).ctx j = s.ctx j := rfl
@[simp] theorem mapUnits_tile (f : Nat → OpUnit → OpUnit) (j : Nat) : (s.mapUnits f).tile j = s.tile j := rfl
@[simp] theorem mapUnits_inc (f : Nat → OpUnit → OpUnit) (j : Nat) : (s.mapUnits f).inc j = s.inc j := rfl
@[simp] theorem mapUnits_outc (f : Nat → OpUnit → OpUnit) (j : Nat) : (s.mapUnits f).outc j = s.outc j := rfl
@[simp] theorem mapUnits_island (f : Nat → OpUnit → OpUnit) (j : Nat) : (s.mapUnits f).island j = s.island j := rfl
@[simp] theorem mapUnits_engine (f : Nat → OpUnit → OpUnit) (j : Nat) : (s.mapUnits f).engine j = s.engine j := rfl
@[simp] theorem mapUnits_streamer (f : Nat → OpUnit → OpUnit) (j : Nat) : (s.mapUnits f).streamer j = s.streamer j := rfl
@[simp] theorem mapUnits_part (f : Nat → OpUnit → OpUnit) (j : Nat) : (s.mapUnits f).part j = s.part j := rfl

@[simp] theorem mapIslands_agenda (f : Nat → Island → Island) : (s.mapIslands f).agenda = s.agenda := rfl
@[simp] theorem mapIslands_turns (f : Nat → Island → Island) : (s.mapIslands f).turns = s.turns := rfl
@[simp] theorem mapIslands_draws (f : Nat → Island → Island) : (s.mapIslands f).draws = s.draws := rfl
@[simp] theorem mapIslands_focus (f : Nat → Island → Island) : (s.mapIslands f).focus = s.focus := rfl
@[simp] theorem mapIslands_acted (f : Nat → Island → Island) : (s.mapIslands f).acted = s.acted := rfl
@[simp] theorem mapIslands_almanac (f : Nat → Island → Island) : (s.mapIslands f).almanac = s.almanac := rfl
@[simp] theorem mapIslands_copies (f : Nat → Island → Island) : (s.mapIslands f).copies = s.copies := rfl
@[simp] theorem mapIslands_stage (f : Nat → Island → Island) : (s.mapIslands f).stage = s.stage := rfl
@[simp] theorem mapIslands_version (f : Nat → Island → Island) : (s.mapIslands f).version = s.version := rfl
@[simp] theorem mapIslands_fetches (f : Nat → Island → Island) : (s.mapIslands f).fetches = s.fetches := rfl
@[simp] theorem mapIslands_failures (f : Nat → Island → Island) : (s.mapIslands f).failures = s.failures := rfl
@[simp] theorem mapIslands_flash (f : Nat → Island → Island) : (s.mapIslands f).flash = s.flash := rfl
@[simp] theorem mapIslands_ckpt (f : Nat → Island → Island) : (s.mapIslands f).ckpt = s.ckpt := rfl
@[simp] theorem mapIslands_ckptRun (f : Nat → Island → Island) : (s.mapIslands f).ckptRun = s.ckptRun := rfl
@[simp] theorem mapIslands_storage (f : Nat → Island → Island) : (s.mapIslands f).storage = s.storage := rfl
@[simp] theorem mapIslands_unmapReg (f : Nat → Island → Island) : (s.mapIslands f).unmapReg = s.unmapReg := rfl
@[simp] theorem mapIslands_unmapRun (f : Nat → Island → Island) : (s.mapIslands f).unmapRun = s.unmapRun := rfl
@[simp] theorem mapIslands_mailboxes (f : Nat → Island → Island) : (s.mapIslands f).mailboxes = s.mailboxes := rfl
@[simp] theorem mapIslands_hostMem (f : Nat → Island → Island) : (s.mapIslands f).hostMem = s.hostMem := rfl
@[simp] theorem mapIslands_busImages (f : Nat → Island → Island) : (s.mapIslands f).busImages = s.busImages := rfl
@[simp] theorem mapIslands_msix (f : Nat → Island → Island) : (s.mapIslands f).msix = s.msix := rfl
@[simp] theorem mapIslands_roots (f : Nat → Island → Island) : (s.mapIslands f).roots = s.roots := rfl
@[simp] theorem mapIslands_tlbs (f : Nat → Island → Island) : (s.mapIslands f).tlbs = s.tlbs := rfl
@[simp] theorem mapIslands_walks (f : Nat → Island → Island) : (s.mapIslands f).walks = s.walks := rfl
@[simp] theorem mapIslands_filter (f : Nat → Island → Island) : (s.mapIslands f).filter = s.filter := rfl
@[simp] theorem mapIslands_l2 (f : Nat → Island → Island) : (s.mapIslands f).l2 = s.l2 := rfl
@[simp] theorem mapIslands_slices (f : Nat → Island → Island) : (s.mapIslands f).slices = s.slices := rfl
@[simp] theorem mapIslands_responses (f : Nat → Island → Island) : (s.mapIslands f).responses = s.responses := rfl
@[simp] theorem mapIslands_routers (f : Nat → Island → Island) : (s.mapIslands f).routers = s.routers := rfl
@[simp] theorem mapIslands_mem (f : Nat → Island → Island) : (s.mapIslands f).mem = s.mem := rfl
@[simp] theorem mapIslands_dramPoison (f : Nat → Island → Island) : (s.mapIslands f).dramPoison = s.dramPoison := rfl
@[simp] theorem mapIslands_health (f : Nat → Island → Island) : (s.mapIslands f).health = s.health := rfl
@[simp] theorem mapIslands_hot (f : Nat → Island → Island) : (s.mapIslands f).hot = s.hot := rfl
@[simp] theorem mapIslands_parts (f : Nat → Island → Island) : (s.mapIslands f).parts = s.parts := rfl
@[simp] theorem mapIslands_owners (f : Nat → Island → Island) : (s.mapIslands f).owners = s.owners := rfl
@[simp] theorem mapIslands_streamGrants (f : Nat → Island → Island) : (s.mapIslands f).streamGrants = s.streamGrants := rfl
@[simp] theorem mapIslands_fabric (f : Nat → Island → Island) : (s.mapIslands f).fabric = s.fabric := rfl
@[simp] theorem mapIslands_ringNext (f : Nat → Island → Island) : (s.mapIslands f).ringNext = s.ringNext := rfl
@[simp] theorem mapIslands_package (f : Nat → Island → Island) : (s.mapIslands f).package = s.package := rfl
@[simp] theorem mapIslands_episodes (f : Nat → Island → Island) : (s.mapIslands f).episodes = s.episodes := rfl
@[simp] theorem mapIslands_nextEpisode (f : Nat → Island → Island) : (s.mapIslands f).nextEpisode = s.nextEpisode := rfl
@[simp] theorem mapIslands_tiles (f : Nat → Island → Island) : (s.mapIslands f).tiles = s.tiles := rfl
@[simp] theorem mapIslands_ctxs (f : Nat → Island → Island) : (s.mapIslands f).ctxs = s.ctxs := rfl
@[simp] theorem mapIslands_ins (f : Nat → Island → Island) : (s.mapIslands f).ins = s.ins := rfl
@[simp] theorem mapIslands_outs (f : Nat → Island → Island) : (s.mapIslands f).outs = s.outs := rfl
@[simp] theorem mapIslands_units (f : Nat → Island → Island) : (s.mapIslands f).units = s.units := rfl
@[simp] theorem mapIslands_engines (f : Nat → Island → Island) : (s.mapIslands f).engines = s.engines := rfl
@[simp] theorem mapIslands_streamers (f : Nat → Island → Island) : (s.mapIslands f).streamers = s.streamers := rfl
@[simp] theorem mapIslands_ctx (f : Nat → Island → Island) (j : Nat) : (s.mapIslands f).ctx j = s.ctx j := rfl
@[simp] theorem mapIslands_tile (f : Nat → Island → Island) (j : Nat) : (s.mapIslands f).tile j = s.tile j := rfl
@[simp] theorem mapIslands_inc (f : Nat → Island → Island) (j : Nat) : (s.mapIslands f).inc j = s.inc j := rfl
@[simp] theorem mapIslands_outc (f : Nat → Island → Island) (j : Nat) : (s.mapIslands f).outc j = s.outc j := rfl
@[simp] theorem mapIslands_unit (f : Nat → Island → Island) (j : Nat) : (s.mapIslands f).unit j = s.unit j := rfl
@[simp] theorem mapIslands_engine (f : Nat → Island → Island) (j : Nat) : (s.mapIslands f).engine j = s.engine j := rfl
@[simp] theorem mapIslands_streamer (f : Nat → Island → Island) (j : Nat) : (s.mapIslands f).streamer j = s.streamer j := rfl
@[simp] theorem mapIslands_part (f : Nat → Island → Island) (j : Nat) : (s.mapIslands f).part j = s.part j := rfl

@[simp] theorem mapTiles_agenda (f : Nat → Tile → Tile) : (s.mapTiles f).agenda = s.agenda := rfl
@[simp] theorem mapTiles_turns (f : Nat → Tile → Tile) : (s.mapTiles f).turns = s.turns := rfl
@[simp] theorem mapTiles_draws (f : Nat → Tile → Tile) : (s.mapTiles f).draws = s.draws := rfl
@[simp] theorem mapTiles_focus (f : Nat → Tile → Tile) : (s.mapTiles f).focus = s.focus := rfl
@[simp] theorem mapTiles_acted (f : Nat → Tile → Tile) : (s.mapTiles f).acted = s.acted := rfl
@[simp] theorem mapTiles_almanac (f : Nat → Tile → Tile) : (s.mapTiles f).almanac = s.almanac := rfl
@[simp] theorem mapTiles_copies (f : Nat → Tile → Tile) : (s.mapTiles f).copies = s.copies := rfl
@[simp] theorem mapTiles_stage (f : Nat → Tile → Tile) : (s.mapTiles f).stage = s.stage := rfl
@[simp] theorem mapTiles_version (f : Nat → Tile → Tile) : (s.mapTiles f).version = s.version := rfl
@[simp] theorem mapTiles_fetches (f : Nat → Tile → Tile) : (s.mapTiles f).fetches = s.fetches := rfl
@[simp] theorem mapTiles_failures (f : Nat → Tile → Tile) : (s.mapTiles f).failures = s.failures := rfl
@[simp] theorem mapTiles_flash (f : Nat → Tile → Tile) : (s.mapTiles f).flash = s.flash := rfl
@[simp] theorem mapTiles_ckpt (f : Nat → Tile → Tile) : (s.mapTiles f).ckpt = s.ckpt := rfl
@[simp] theorem mapTiles_ckptRun (f : Nat → Tile → Tile) : (s.mapTiles f).ckptRun = s.ckptRun := rfl
@[simp] theorem mapTiles_storage (f : Nat → Tile → Tile) : (s.mapTiles f).storage = s.storage := rfl
@[simp] theorem mapTiles_unmapReg (f : Nat → Tile → Tile) : (s.mapTiles f).unmapReg = s.unmapReg := rfl
@[simp] theorem mapTiles_unmapRun (f : Nat → Tile → Tile) : (s.mapTiles f).unmapRun = s.unmapRun := rfl
@[simp] theorem mapTiles_mailboxes (f : Nat → Tile → Tile) : (s.mapTiles f).mailboxes = s.mailboxes := rfl
@[simp] theorem mapTiles_hostMem (f : Nat → Tile → Tile) : (s.mapTiles f).hostMem = s.hostMem := rfl
@[simp] theorem mapTiles_busImages (f : Nat → Tile → Tile) : (s.mapTiles f).busImages = s.busImages := rfl
@[simp] theorem mapTiles_msix (f : Nat → Tile → Tile) : (s.mapTiles f).msix = s.msix := rfl
@[simp] theorem mapTiles_roots (f : Nat → Tile → Tile) : (s.mapTiles f).roots = s.roots := rfl
@[simp] theorem mapTiles_tlbs (f : Nat → Tile → Tile) : (s.mapTiles f).tlbs = s.tlbs := rfl
@[simp] theorem mapTiles_walks (f : Nat → Tile → Tile) : (s.mapTiles f).walks = s.walks := rfl
@[simp] theorem mapTiles_filter (f : Nat → Tile → Tile) : (s.mapTiles f).filter = s.filter := rfl
@[simp] theorem mapTiles_l2 (f : Nat → Tile → Tile) : (s.mapTiles f).l2 = s.l2 := rfl
@[simp] theorem mapTiles_slices (f : Nat → Tile → Tile) : (s.mapTiles f).slices = s.slices := rfl
@[simp] theorem mapTiles_responses (f : Nat → Tile → Tile) : (s.mapTiles f).responses = s.responses := rfl
@[simp] theorem mapTiles_routers (f : Nat → Tile → Tile) : (s.mapTiles f).routers = s.routers := rfl
@[simp] theorem mapTiles_mem (f : Nat → Tile → Tile) : (s.mapTiles f).mem = s.mem := rfl
@[simp] theorem mapTiles_dramPoison (f : Nat → Tile → Tile) : (s.mapTiles f).dramPoison = s.dramPoison := rfl
@[simp] theorem mapTiles_health (f : Nat → Tile → Tile) : (s.mapTiles f).health = s.health := rfl
@[simp] theorem mapTiles_hot (f : Nat → Tile → Tile) : (s.mapTiles f).hot = s.hot := rfl
@[simp] theorem mapTiles_parts (f : Nat → Tile → Tile) : (s.mapTiles f).parts = s.parts := rfl
@[simp] theorem mapTiles_owners (f : Nat → Tile → Tile) : (s.mapTiles f).owners = s.owners := rfl
@[simp] theorem mapTiles_streamGrants (f : Nat → Tile → Tile) : (s.mapTiles f).streamGrants = s.streamGrants := rfl
@[simp] theorem mapTiles_fabric (f : Nat → Tile → Tile) : (s.mapTiles f).fabric = s.fabric := rfl
@[simp] theorem mapTiles_ringNext (f : Nat → Tile → Tile) : (s.mapTiles f).ringNext = s.ringNext := rfl
@[simp] theorem mapTiles_package (f : Nat → Tile → Tile) : (s.mapTiles f).package = s.package := rfl
@[simp] theorem mapTiles_episodes (f : Nat → Tile → Tile) : (s.mapTiles f).episodes = s.episodes := rfl
@[simp] theorem mapTiles_nextEpisode (f : Nat → Tile → Tile) : (s.mapTiles f).nextEpisode = s.nextEpisode := rfl
@[simp] theorem mapTiles_ctxs (f : Nat → Tile → Tile) : (s.mapTiles f).ctxs = s.ctxs := rfl
@[simp] theorem mapTiles_ins (f : Nat → Tile → Tile) : (s.mapTiles f).ins = s.ins := rfl
@[simp] theorem mapTiles_outs (f : Nat → Tile → Tile) : (s.mapTiles f).outs = s.outs := rfl
@[simp] theorem mapTiles_units (f : Nat → Tile → Tile) : (s.mapTiles f).units = s.units := rfl
@[simp] theorem mapTiles_islands (f : Nat → Tile → Tile) : (s.mapTiles f).islands = s.islands := rfl
@[simp] theorem mapTiles_engines (f : Nat → Tile → Tile) : (s.mapTiles f).engines = s.engines := rfl
@[simp] theorem mapTiles_streamers (f : Nat → Tile → Tile) : (s.mapTiles f).streamers = s.streamers := rfl
@[simp] theorem mapTiles_ctx (f : Nat → Tile → Tile) (j : Nat) : (s.mapTiles f).ctx j = s.ctx j := rfl
@[simp] theorem mapTiles_inc (f : Nat → Tile → Tile) (j : Nat) : (s.mapTiles f).inc j = s.inc j := rfl
@[simp] theorem mapTiles_outc (f : Nat → Tile → Tile) (j : Nat) : (s.mapTiles f).outc j = s.outc j := rfl
@[simp] theorem mapTiles_unit (f : Nat → Tile → Tile) (j : Nat) : (s.mapTiles f).unit j = s.unit j := rfl
@[simp] theorem mapTiles_island (f : Nat → Tile → Tile) (j : Nat) : (s.mapTiles f).island j = s.island j := rfl
@[simp] theorem mapTiles_engine (f : Nat → Tile → Tile) (j : Nat) : (s.mapTiles f).engine j = s.engine j := rfl
@[simp] theorem mapTiles_streamer (f : Nat → Tile → Tile) (j : Nat) : (s.mapTiles f).streamer j = s.streamer j := rfl
@[simp] theorem mapTiles_part (f : Nat → Tile → Tile) (j : Nat) : (s.mapTiles f).part j = s.part j := rfl

end State
end Machine
end Sys2Proof
end

