-- ==== Sys2Proof/Laws/Caches.lean ====
section
/-! SUPPORT. What an access and an operation of the caches can change: the caches themselves, main memory and its poison, the
scratchpads, the gates' translations and walks, the requests on their way to main memory, the slots of the slices and the requests
that wait there, and the free values used; nothing else of the state. -/
namespace Sys2Proof.Machine
open Sys2Proof

/-- Of the whole state only what belongs to memory differs. -/
def CachesOnly (s t : State) : Prop :=
  t = { s with
    tiles := t.tiles, l2 := t.l2, mem := t.mem, dramPoison := t.dramPoison, slices := t.slices, tlbs := t.tlbs, walks := t.walks, filter := t.filter
    responses := t.responses, draws := t.draws }

theorem CachesOnly.refl (s : State) : CachesOnly s s := rfl

theorem CachesOnly.trans {s t u : State} (h : CachesOnly s t) (g : CachesOnly t u) : CachesOnly s u := by
  unfold CachesOnly at *
  rw [g, h]

theorem CachesOnly.after {s t u : State} (g : CachesOnly t u) (h : CachesOnly s t) : CachesOnly s u := h.trans g

theorem CachesOnly.fold {α : Type} {f : State → α → State} (hf : ∀ s a, CachesOnly s (f s a)) (l : List α) (s : State) :
    CachesOnly s (l.foldl f s) := by
  induction l generalizing s with
  | nil => exact .refl s
  | cons a l ih => exact (hf s a).trans (ih _)

theorem CachesOnly.ctxs {s t : State} (h : CachesOnly s t) : t.ctxs = s.ctxs := by rw [h]
theorem CachesOnly.parts {s t : State} (h : CachesOnly s t) : t.parts = s.parts := by rw [h]
theorem CachesOnly.units {s t : State} (h : CachesOnly s t) : t.units = s.units := by rw [h]
theorem CachesOnly.islands {s t : State} (h : CachesOnly s t) : t.islands = s.islands := by rw [h]
theorem CachesOnly.engines {s t : State} (h : CachesOnly s t) : t.engines = s.engines := by rw [h]
theorem CachesOnly.streamers {s t : State} (h : CachesOnly s t) : t.streamers = s.streamers := by rw [h]
theorem CachesOnly.ins {s t : State} (h : CachesOnly s t) : t.ins = s.ins := by rw [h]
theorem CachesOnly.outs {s t : State} (h : CachesOnly s t) : t.outs = s.outs := by rw [h]
theorem CachesOnly.episodes {s t : State} (h : CachesOnly s t) : t.episodes = s.episodes := by rw [h]
theorem CachesOnly.owners {s t : State} (h : CachesOnly s t) : t.owners = s.owners := by rw [h]
theorem CachesOnly.roots {s t : State} (h : CachesOnly s t) : t.roots = s.roots := by rw [h]
theorem CachesOnly.focus {s t : State} (h : CachesOnly s t) : t.focus = s.focus := by rw [h]
theorem CachesOnly.msix {s t : State} (h : CachesOnly s t) : t.msix = s.msix := by rw [h]
theorem CachesOnly.unmapRun {s t : State} (h : CachesOnly s t) : t.unmapRun = s.unmapRun := by rw [h]
theorem CachesOnly.ckptRun {s t : State} (h : CachesOnly s t) : t.ckptRun = s.ckptRun := by rw [h]
theorem CachesOnly.ckpt {s t : State} (h : CachesOnly s t) : t.ckpt = s.ckpt := by rw [h]
theorem CachesOnly.almanac {s t : State} (h : CachesOnly s t) : t.almanac = s.almanac := by rw [h]
theorem CachesOnly.copies {s t : State} (h : CachesOnly s t) : t.copies = s.copies := by rw [h]
theorem CachesOnly.agenda {s t : State} (h : CachesOnly s t) : t.agenda = s.agenda := by rw [h]

theorem takeSlot_only (s : State) (slice part : Nat) : CachesOnly s (takeSlot s slice part) := rfl

theorem l1Set_only (s : State) (p : Nat) (g : List Line → List Line) : CachesOnly s (l1Set s p g) := rfl

theorem l2Put_only (s : State) (x : Line) : CachesOnly s (l2Put s x) := rfl

theorem l2Evict_only (s : State) (l : Line) : CachesOnly s (l2Evict s l) := by
  unfold l2Evict
  dsimp only
  split <;> rfl

theorem l2Way_only (s : State) (part slice line : Nat) : CachesOnly s (l2Way s part slice line).1 := by
  unfold l2Way
  dsimp only
  split
  · rfl
  · split
    · exact (l2Evict_only _ _).after rfl
    · rfl

theorem l2Fill_only (s : State) (part slice : Nat) (asid : BitVec 8) (line pa : Nat) (w : Bool) :
    CachesOnly s (l2Fill s part slice asid line pa w).1 :=
  (l2Way_only s part slice line).trans rfl

theorem readTable_only (s : State) (pa : Nat) : CachesOnly s (readTable s pa) := by
  unfold readTable
  dsimp only
  split
  · rfl
  · exact (l2Fill_only _ _ _ _ _ _ _).after rfl

theorem gateWalk_only (s : State) (asid : BitVec 8) (va : Nat) : CachesOnly s (gateWalk s asid va).1 := by
  unfold gateWalk
  extract_lets r reads u
  have h : CachesOnly s u := .fold readTable_only _ _
  split
  · exact h
  · split <;> exact h

theorem tlbInsert_only (s : State) (gate : Nat) (e : TlbEntry) : CachesOnly s (tlbInsert s gate e) := by
  unfold tlbInsert
  dsimp only
  split <;> rfl

theorem tlbKeep_only (s : State) (gate va : Nat) (e : TlbEntry) : CachesOnly s (tlbKeep s gate va e) := by
  unfold tlbKeep
  split
  · rfl
  · exact (tlbInsert_only _ _ _).after rfl

theorem l2At_only (s : State) (part slice : Nat) (x : Line) : CachesOnly s (l2At s part slice x).1 := by
  unfold l2At
  split
  · split
    · rfl
    · exact (l2Evict_only _ _).trans (l2Fill_only _ _ _ _ _ _ _)
  · exact l2Fill_only _ _ _ _ _ _ _

theorem l1WriteBack_only (s : State) (place : Nat) (x : Line) : CachesOnly s (l1WriteBack s place x) :=
  (((takeSlot_only s _ _).trans (l2At_only _ _ _ x)).trans (l2Put_only _ _)).trans (l1Set_only _ _ _)

theorem l1WriteBackAll_only (s : State) (place : Nat) (p : Line → Bool) : CachesOnly s (l1WriteBackAll s place p) :=
  .fold (fun s l => l1WriteBack_only s place l) _ _

theorem l1Flush_only (s : State) (place : Nat) (p : Line → Bool) : CachesOnly s (l1Flush s place p) :=
  (l1WriteBackAll_only s place p).trans rfl

/-- A bank that is flushed keeps none of the lines that are picked. -/
theorem l1Flush_bank (s : State) (place : Nat) (p : Line → Bool) : ∀ l ∈ ((l1Flush s place p).tile place).l1, p l = false := by
  intro l hl
  simp only [l1Flush, l1Set, State.setTile_tile_self, List.mem_filter] at hl
  simpa using hl.2

theorem l1Insert_only (s : State) (place : Nat) (x : Line) : CachesOnly s (l1Insert s place x) := by
  unfold l1Insert
  dsimp only
  split
  · rfl
  · split
    · rfl
    · exact CachesOnly.after ((l1WriteBack_only _ _ _).trans rfl) rfl

theorem filterEvict_only (s : State) : CachesOnly s (filterEvict s) := by
  unfold filterEvict
  split
  · rfl
  · exact (CachesOnly.fold (fun s p => l1Flush_only s p _) _ s).trans ((CachesOnly.fold l2Evict_only _ _).trans rfl)

theorem canonical_only (s : State) (asid : BitVec 8) (va : Nat) (e : TlbEntry) : CachesOnly s (canonical s asid va e).1 := by
  unfold canonical
  dsimp only
  split
  · split
    · rfl
    · split
      · rfl
      · exact (filterEvict_only s).trans rfl
  · rfl

/-! ### Walks and translation at a gate -/

theorem translated_only (s : State) (f : Fill) (e : TlbEntry) : CachesOnly s (translated s f e) :=
  (canonical_only s f.asid (f.line * 128) e).trans rfl

theorem finishWalk_only (s : State) (die : Nat) (f : Fill) : CachesOnly s (finishWalk s die f).1 := by
  unfold finishWalk
  dsimp only
  generalize hl : List.filter _ (SMap.get [] s.walks die) = l
  have h : CachesOnly s (gateWalk { s with walks := SMap.set s.walks die l } f.asid (f.line * 128)).1 := (gateWalk_only _ _ _).after rfl
  split <;> rename_i heq <;> rw [heq] at h
  · exact h
  · exact (h.trans (tlbKeep_only _ _ _ _)).trans (.fold (fun s g => translated_only s g _) _ _)

theorem walkRoom_only (s : State) (gate : Nat) : CachesOnly s (walkRoom s gate) := by
  unfold walkRoom
  split
  · rfl
  · split
    · exact finishWalk_only _ _ _
    · rfl

theorem walkOrJoin_only (s : State) (gate : Nat) (asid : BitVec 8) (va : Nat) : CachesOnly s (walkOrJoin s gate asid va).1 := by
  unfold walkOrJoin
  split
  · exact finishWalk_only _ _ _
  · have h := (walkRoom_only s gate).trans (gateWalk_only _ asid va)
    split <;> rename_i heq <;> rw [heq] at h
    · exact h
    · exact h.trans (tlbKeep_only _ _ _ _)

theorem walkAgain_only (s : State) (gate : Nat) (asid : BitVec 8) (va : Nat) (w : Bool) :
    CachesOnly s (walkAgain s gate asid va w).1 := by
  have h := walkOrJoin_only s gate asid va
  unfold walkAgain
  split <;> rename_i heq <;> rw [heq] at h
  · exact h
  · split <;> exact h

theorem translate_only (s : State) (gate : Nat) (asid : BitVec 8) (va : Nat) (w : Bool) :
    CachesOnly s (translate s gate asid va w).1 := by
  unfold translate
  dsimp only
  split
  · split
    · rfl
    · exact walkAgain_only _ _ _ _ _
  · exact walkAgain_only _ _ _ _ _

theorem translateFor_only (s : State) (gate : Nat) (asid : BitVec 8) (who : Option UnitRef) (va : Nat) (w : Bool) :
    CachesOnly s (translateFor s gate asid who va w).1 := by
  have h := gateWalk_only s asid (va % 2 ^ 56)
  unfold translateFor
  dsimp only
  split
  · split <;> rename_i heq <;> rw [heq] at h
    · exact h
    · split <;> exact h
  · split
    · rfl
    · split <;> rename_i heq <;> rw [heq] at h
      · exact h
      · split <;> exact h
  · exact translate_only _ _ _ _ _

theorem gateCheck_only (s : State) (gate : Nat) (asid : BitVec 8) (who : Option UnitRef) (va : Nat) :
    CachesOnly s (gateCheck s gate asid who va).1 := by
  have h : CachesOnly s (if tablesFor s asid who va = .cached then walkAgain s gate asid (va % 2 ^ 56) true
      else gateWalk s asid (va % 2 ^ 56)).1 := by
    split
    · exact walkAgain_only _ _ _ _ _
    · exact gateWalk_only _ _ _
  unfold gateCheck
  dsimp only
  split <;> rename_i heq <;> rw [heq] at h
  · exact h
  · split <;> exact h

theorem dropOther_only (s : State) (p : Line → Bool) (e : TlbEntry) (strict : Bool) : CachesOnly s (dropOther s p e strict) := by
  unfold dropOther
  dsimp only
  refine (CachesOnly.fold (fun s q => ?_) _ _).trans (.fold l2Evict_only _ _)
  split
  · exact l1Flush_only _ _ _
  · rfl

theorem settleLine_only (s : State) (gate : Nat) (asid : BitVec 8) (who : Option UnitRef) (va : Nat) :
    CachesOnly s (settleLine s gate asid who va).1 := by
  unfold settleLine
  dsimp only
  split
  · rfl
  · split
    · exact dropOther_only _ _ _ _
    · rfl
  · have h := gateWalk_only s asid (va % 2 ^ 56)
    split <;> rename_i heq <;> rw [heq] at h
    · exact h
    · exact h.trans (dropOther_only _ _ _ _)

/-! ### Releases, acquires and fences -/

theorem writeBackBanks_only (s : State) (v : Via) (p : Line → Bool) : CachesOnly s (writeBackBanks s v p) :=
  .fold (fun s q => l1WriteBackAll_only s q p) _ _

theorem releaseAt_only (s : State) (v : Via) (sc : Scope) : CachesOnly s (releaseAt s v sc) := by
  unfold releaseAt
  split
  · split
    · exact writeBackBanks_only _ _ _
    · rfl
  · exact writeBackBanks_only _ _ _

theorem invalidateBanks_only (s : State) (v : Via) : CachesOnly s (invalidateBanks s v) :=
  .fold (f := l1InvalidateClean) (fun _ _ => rfl) _ _

theorem acquireAt_only (s : State) (v : Via) : CachesOnly s (acquireAt s v) := invalidateBanks_only _ _

theorem fence_only (s : State) (v : Via) (b a : BitVec 6) (sc : Scope) : CachesOnly s (fence s v b a sc) := by
  unfold fence
  dsimp only
  generalize hu : (if (s.part v.part).bound then _ else _ : State) = u
  have h : CachesOnly s u := by
    subst hu
    split
    · split
      · exact writeBackBanks_only _ _ _
      · rfl
    · split
      · exact writeBackBanks_only _ _ _
      · exact releaseAt_only _ _ _
  split
  · exact h.trans (invalidateBanks_only _ _)
  · exact h

/-! ### Accesses -/

/-- An access changes what belongs to memory alone. -/
abbrev AccessOnly {α : Type} (s : State) (r : Acc α) : Prop := CachesOnly s r.1

theorem l2Line_only (s : State) (v : Via) (va : Nat) (w : Bool) : AccessOnly s (l2Line s v va w) := by
  unfold AccessOnly l2Line
  dsimp only
  split
  · split
    · rfl
    · have h := gateCheck_only s (sliceOf s v.part v.die (v.asid s) (lineOf va) / 32) (v.asid s) v.who va
      split <;> rename_i heq <;> rw [heq] at h
      · exact h
      · exact h.trans rfl
  · have h := translateFor_only s (sliceOf s v.part v.die (v.asid s) (lineOf va) / 32) (v.asid s) v.who va w
    split
    · rename_i heq
      rwa [heq] at h
    · rename_i u e heq
      rw [heq] at h
      have g := h.trans (canonical_only u (v.asid s) va e)
      split
      · exact g
      · exact g.trans (l2Fill_only _ _ _ _ _ _ _)

theorem fillBank_only (s : State) (f : Fill) (l : Line) : CachesOnly s (fillBank s f l) := by
  unfold fillBank
  split
  · split
    · rfl
    · exact l1Insert_only _ _ _
  · rfl

theorem serveRequest_only (s : State) (f : Fill) : CachesOnly s (serveRequest s f) := by
  unfold serveRequest
  dsimp only
  have h := settleLine_only s (f.slice / 32) f.asid f.who (f.line * 128)
  split <;> rename_i heq <;> rw [heq] at h
  · exact h
  · split
    · exact h.trans (fillBank_only _ _ _)
    · split
      · exact h.trans (translated_only _ _ _)
      · exact h.trans rfl

/-- Waiting for a slot serves other requests, and changes nothing but what those change. -/
theorem waitSlot_only (s : State) (slice part n : Nat) : CachesOnly s (waitSlot s slice part n) := by
  induction n generalizing s with
  | zero => exact takeSlot_only _ _ _
  | succ n ih =>
    unfold waitSlot
    dsimp only
    split
    · split
      · rfl
      · exact (ih _).after rfl
    · split
      · exact takeSlot_only _ _ _
      · refine ((CachesOnly.trans ?_ (serveRequest_only _ _)).trans (ih _))
        split
        · exact (walkRoom_only _ _).after rfl
        · rfl

theorem l2Access_only (s : State) (v : Via) (va : Nat) (w : Bool) : AccessOnly s (l2Access s v va w) :=
  (waitSlot_only _ _ _ _).trans (l2Line_only _ v va w)

theorem giveUp_only (s : State) (v : Via) (va : Nat) : CachesOnly s (giveUp s v va) := by
  unfold giveUp
  split
  · split
    · exact l1Flush_only _ _ _
    · rfl
  · rfl

theorem beforeAccess_only (s : State) (v : Via) (va : Nat) : AccessOnly s (beforeAccess s v va) := by
  unfold AccessOnly beforeAccess
  dsimp only
  split
  · exact giveUp_only s v va
  · exact (giveUp_only s v va).trans (settleLine_only _ _ _ _ _)

theorem bankLine_only (s : State) (v : Via) (place va : Nat) : AccessOnly s (bankLine s v place va) := by
  unfold AccessOnly bankLine
  split
  · rfl
  · have h := l2Access_only s v va false
    unfold AccessOnly at h
    split <;> rename_i heq <;> rw [heq] at h
    · exact h
    · exact h
    · exact h.trans (l1Insert_only _ _ _)

theorem loadGranule_only (s : State) (v : Via) (va : Nat) : AccessOnly s (loadGranule s v va) := by
  unfold AccessOnly loadGranule
  have h := beforeAccess_only s v va
  unfold AccessOnly at h
  dsimp only
  split <;> rename_i heq <;> rw [heq] at h
  · exact h
  · split
    · split <;> exact h
    · rename_i u _ _ _
      have g := h.trans (l2Access_only u v va false)
      split <;> rename_i e2 <;> rwa [e2] at g
    · rename_i u _ _ p _
      have g := h.trans (bankLine_only u v p va)
      split <;> rename_i e2 <;> rwa [e2] at g

theorem loadWord_only (s : State) (v : Via) (va : Nat) : AccessOnly s (loadWord s v va) := by
  have h := loadGranule_only s v va
  unfold AccessOnly at *
  unfold loadWord
  split <;> rename_i heq <;> rwa [heq] at h

theorem loadWords_only (s : State) (v : Via) (va n : Nat) : AccessOnly s (loadWords s v va n) := by
  induction n generalizing s va with
  | zero => rfl
  | succ n ih =>
    have h := loadWord_only s v va
    unfold AccessOnly at *
    unfold loadWords
    split <;> rename_i heq <;> rw [heq] at h
    · exact h
    · rename_i u _
      have g := h.trans (ih u (va + 4))
      split <;> rename_i e2 <;> rwa [e2] at g

/-- Checking a write, without the write. -/
theorem checkWrite_only (s : State) (v : Via) (va : Nat) : AccessOnly s (checkWrite s v va) := by
  have via (u : State) : AccessOnly u (match l2Line u v va true with
      | (s, .error e) => (s, .error e)
      | (s, .ok _) => (s, .ok ()) : Acc Unit) := by
    have h := l2Line_only u v va true
    unfold AccessOnly at *
    split <;> rename_i heq <;> rwa [heq] at h
  unfold AccessOnly at *
  have h := beforeAccess_only s v va
  unfold checkWrite
  dsimp only
  unfold AccessOnly at h
  split <;> rename_i heq <;> rw [heq] at h
  · exact h
  · rename_i u _
    split
    · split <;> exact h
    · exact h.trans (via u)
    · split
      · rename_i l _
        split
        · split
          · exact h
          · exact h.trans (via u)
        · have g := h.trans (gateCheck_only u (sliceOf u v.part v.die (v.asid u) (lineOf va) / 32) (v.asid u) v.who va)
          split <;> rename_i e2 <;> rw [e2] at g
          · exact g
          · rename_i w _
            have k := l2Line_only w v va true
            unfold AccessOnly at k
            rcases hr : l2Line w v va true with ⟨x, e | y⟩ <;> rw [hr] at k
            · exact g.trans k
            · exact (g.trans k).trans rfl
      · exact h.trans (via u)

theorem loadGranules_only (s : State) (v : Via) (va n : Nat) : AccessOnly s (loadGranules s v va n) := by
  induction n generalizing s va with
  | zero => rfl
  | succ n ih =>
    have h := loadGranule_only s v va
    unfold AccessOnly at *
    unfold loadGranules
    split <;> rename_i heq <;> rw [heq] at h
    · exact h
    · rename_i u _ _
      split
      · exact h
      · have g := h.trans (ih u (va + 8))
        split <;> rename_i e2 <;> rwa [e2] at g

theorem storeGranule_only (s : State) (v : Via) (va : Nat) (bs : List (Option Byte)) : AccessOnly s (storeGranule s v va bs) := by
  have direct (u : State) : CachesOnly u (match l2Access u v va true with
      | (s, .error e) => (s, .error e)
      | (s, .ok (l, _)) => ((l2Store s l (va % 128 / 8) bs).1, .ok (l2Store s l (va % 128 / 8) bs).2) : Acc Bool).1 := by
    have h := l2Access_only u v va true
    unfold AccessOnly at h
    split <;> rename_i heq <;> rw [heq] at h
    · exact h
    · exact h.trans rfl
  unfold AccessOnly storeGranule
  dsimp only
  have h := beforeAccess_only s v va
  unfold AccessOnly at h
  split <;> rename_i heq <;> rw [heq] at h
  · exact h
  · rename_i u _
    split
    · split
      · exact h.trans rfl
      · exact h
    · exact h.trans (direct u)
    · have g := h.trans (checkWrite_only u v va)
      split <;> rename_i e2 <;> rw [e2] at g
      · exact g
      · rename_i p _ _ w _
        have k := g.trans (bankLine_only w v p va)
        split <;> rename_i e3 <;> rw [e3] at k
        · exact k
        · exact k.trans (direct _)
        · rename_i x z
          split
          · exact k.trans rfl
          · have m := l2Access_only (l1Put x p { z with w := true }) v va true
            unfold AccessOnly at m
            have n := k.trans (rfl : CachesOnly x (l1Put x p { z with w := true }))
            rcases hr : l2Access (l1Put x p { z with w := true }) v va true with ⟨y, e | ⟨l, o⟩⟩ <;> rw [hr] at m
            · exact n.trans m
            · exact (n.trans m).trans rfl

/-- Reading a run of bytes of a partition, as the keep cores do. -/
theorem loadBytes_only (s : State) (v : Via) (va n : Nat) : AccessOnly s (loadBytes s v va n) := by
  unfold AccessOnly loadBytes
  split
  · rfl
  · have h := loadGranules_only s v (va / 8 * 8) ((va + n - 1) / 8 - va / 8 + 1)
    unfold AccessOnly at h
    split <;> rename_i heq <;> rwa [heq] at h

theorem partRead_only (s : State) (part va n : Nat) : AccessOnly s (partRead s part va n) := by
  unfold AccessOnly partRead
  split
  · rfl
  · exact loadBytes_only _ _ _ _

/-! ### Runs of bytes, written -/

theorem storeFrom_only (s : State) (v : Via) (va : Nat) (bs : List Byte) (g n : Nat) : AccessOnly s (storeFrom s v va bs g n) := by
  induction n generalizing s g with
  | zero => rfl
  | succ n ih =>
    have h := storeGranule_only s v g (granulePart va bs g)
    unfold AccessOnly at *
    unfold storeFrom
    split <;> rename_i heq <;> rw [heq] at h
    · exact h
    · exact h.trans (ih _ _)

theorem storeBytes_only (s : State) (v : Via) (va : Nat) (bs : List Byte) : AccessOnly s (storeBytes s v va bs) := by
  unfold AccessOnly storeBytes
  split
  · rfl
  · exact storeFrom_only _ _ _ _ _ _

end Sys2Proof.Machine
end

