-- ==== Sys2Proof/Laws/Memory.lean ====
section
/-! SUPPORT. Every operation over a memory keeps its canonical form, and what a read of it then gives. -/
namespace Sys2Proof.Machine.Memory
open Sys2Proof

@[simp] theorem wf_empty : wf ([] : Memory) := ⟨List.Pairwise.nil, by simp⟩

/-- Cells of a memory that has been filtered are cells of it, in the same order. -/
theorem wf_filter (m : Memory) (f : Host.Cell → Bool) (h : wf m) : wf (m.filter f) :=
  ⟨h.1.filter f, fun x hx => h.2 x (List.mem_filter.1 hx).1⟩

theorem mem_place {a : Nat} {v : Byte} {m : Memory} {c : Host.Cell} : c ∈ place a v m ↔ c = (a, v) ∨ c ∈ m := by
  induction m with
  | nil => simp [place]
  | cons e t ih =>
    obtain ⟨b, x⟩ := e
    by_cases h : a < b
    · simp [place, h]
    · simp [place, h, ih, or_left_comm]

/-- A new cell takes its place among cells of other addresses. -/
theorem wf_place {a : Nat} {v : Byte} {m : Memory} (h : wf m) (hv : v ≠ initialByte) (ha : ∀ c ∈ m, c.1 ≠ a) :
    wf (place a v m) := by
  refine ⟨?_, fun c hc => ?_⟩
  · induction m with
    | nil => simp [place]
    | cons e t ih =>
      obtain ⟨b, x⟩ := e
      have hp := List.pairwise_cons.1 h.1
      have ht : wf t := ⟨hp.2, fun c hc => h.2 c (List.mem_cons_of_mem _ hc)⟩
      by_cases hab : a < b
      · simp only [place, hab, if_true, List.pairwise_cons]
        exact ⟨fun c hc => by
          rcases List.mem_cons.1 hc with rfl | hc
          · exact hab
          · exact lt_trans hab (hp.1 c hc), hp⟩
      · simp only [place, hab, if_false, List.pairwise_cons]
        refine ⟨fun c hc => ?_, ih ht fun c hc => ha c (List.mem_cons_of_mem _ hc)⟩
        rcases mem_place.1 hc with rfl | hc
        · have : b ≠ a := ha (b, x) (List.mem_cons_self)
          simp only; omega
        · exact hp.1 c hc
  · rcases mem_place.1 hc with rfl | hc
    · exact hv
    · exact h.2 c hc

/-- Writing a byte keeps the canonical form. -/
theorem wf_write {m : Memory} (h : wf m) (a : Nat) (v : Byte) : wf (write m a v) := by
  unfold write
  split
  · exact wf_filter m _ h
  · refine wf_place (wf_filter m _ h) ‹_› fun c hc => ?_
    simpa using (List.mem_filter.1 hc).2

/-- Writing a run of bytes keeps the canonical form. -/
theorem wf_writeBytes (l : List (Option Byte)) {m : Memory} (h : wf m) (a : Nat) : wf (writeBytes m a l) := by
  induction l generalizing m a with
  | nil => exact h
  | cons b t ih =>
    cases b with
    | none => exact ih h (a + 1)
    | some v => exact ih (wf_write h a v) (a + 1)

/-- Writing a little-endian value keeps the canonical form. -/
theorem wf_put {m : Memory} (h : wf m) (a n v : Nat) : wf (put m a n v) := wf_writeBytes _ h a

/-- Writing cells one after another keeps the canonical form. -/
theorem wf_foldl_write (l : List Host.Cell) {m : Memory} (h : wf m) (f : Host.Cell → Byte) :
    wf (l.foldl (fun m c => m.write c.1 (f c)) m) := by
  induction l generalizing m with
  | nil => exact h
  | cons c t ih => exact ih (wf_write h c.1 (f c))

@[simp] theorem read_empty (a : Nat) : read [] a = initialByte := rfl

@[simp] theorem writeBytes_nil (m : Memory) (a : Nat) : writeBytes m a [] = m := rfl

@[simp] theorem writeBytes_none (m : Memory) (a : Nat) (l : List (Option Byte)) :
    writeBytes m a (none :: l) = writeBytes m (a + 1) l := rfl

@[simp] theorem writeBytes_some (m : Memory) (a : Nat) (v : Byte) (l : List (Option Byte)) :
    writeBytes m a (some v :: l) = writeBytes (write m a v) (a + 1) l := rfl

@[simp] theorem bytes_length (m : Memory) (a n : Nat) : (bytes m a n).length = n := by simp [bytes]

theorem natBytes_length (n v : Nat) : (natBytes n v).length = n := by
  induction n generalizing v with
  | zero => rfl
  | succ n ih => simp [natBytes, ih]

end Sys2Proof.Machine.Memory
end

