-- ==== Sys2Proof/Laws/Ops.lean ====
section
/-! SUPPORT. What each shared operation can do: faults, delivery, the end of a firing, channels. -/
namespace Sys2Proof.Machine
open Sys2Proof

/-! ### Channels (R109) -/

/-- Of the whole state only channel ends differ. -/
def ChannelsOnly (s t : State) : Prop := t = { s with ins := t.ins, outs := t.outs }

theorem consume_only (s : State) (i : Nat) : ChannelsOnly s (consume s i) := by
  unfold consume
  split
  · rfl
  · dsimp only
    split <;> rfl

/-- Consuming the head of a queue: the slot is freed, and a credit starts back unless the channel carries none. -/
theorem consume_spec {s : State} {i : Nat} {t : Token} {rest : List Token} (h : (s.inc i).queue = t :: rest) :
    let ic := s.inc i
    (consume s i).inc i = { ic with queue := rest, eos := t.isEos, cut := false } ∧
    (∀ j, j ≠ i → (consume s i).inc j = s.inc j) ∧
    (∀ j, j ≠ descPeer ic.desc → (consume s i).outc j = s.outc j) ∧
    (if descXp ic.desc ∨ descWc ic.desc then (consume s i).outs = s.outs
     else (consume s i).outc (descPeer ic.desc) =
       { s.outc (descPeer ic.desc) with returning := (s.outc (descPeer ic.desc)).returning + 1 }) := by
  unfold consume
  rw [h]
  dsimp only
  by_cases hx : descXp (s.inc i).desc = true <;> by_cases hw : descWc (s.inc i).desc = true <;>
    simp +contextual [hx, hw]

/-- There is nothing to consume in an empty queue. -/
theorem consume_nil {s : State} {i : Nat} (h : (s.inc i).queue = []) : consume s i = s := by
  unfold consume
  rw [h]

theorem sendOn_only (s : State) (i : Nat) (t : Token) : ChannelsOnly s (sendOn s i t) := by
  unfold sendOn
  dsimp only
  split <;> rfl

/-- Sending uses a credit, counts the token, and puts it on the link of a channel that stays on the package. -/
theorem sendOn_outc (s : State) (i : Nat) (t : Token) :
    (sendOn s i t).outc i =
      { s.outc i with credits := (s.outc i).credits - 1, sent := (s.outc i).sent + 1, eos := t.isEos } := by
  unfold sendOn
  dsimp only
  split <;> simp

theorem sendOn_outc_ne (s : State) (i : Nat) (t : Token) {j : Nat} (h : j ≠ i) : (sendOn s i t).outc j = s.outc j := by
  unfold sendOn
  dsimp only
  split <;> simp [h]

theorem sendOn_peer (s : State) (i : Nat) (t : Token) (h : descXp (s.outc i).desc = false) :
    (sendOn s i t).inc (descPeer (s.outc i).desc) =
      { s.inc (descPeer (s.outc i).desc) with flight := (s.inc (descPeer (s.outc i).desc)).flight ++ [t] } := by
  unfold sendOn
  simp [h]

/-! ### What touches one context -/

/-- Of the whole state only context `id` differs, and the count of free values used. -/
def ContextOnly (s t : State) (id : Nat) : Prop :=
  t = { s with ctxs := t.ctxs, draws := t.draws } ∧ ∀ j, j ≠ id → t.ctx j = s.ctx j

namespace ContextOnly
variable {s t u : State} {id : Nat}

theorem refl (s : State) (id : Nat) : ContextOnly s s id := ⟨rfl, fun _ _ => rfl⟩

theorem trans (h : ContextOnly s t id) (g : ContextOnly t u id) : ContextOnly s u id := by
  refine ⟨?_, fun j hj => (g.2 j hj).trans (h.2 j hj)⟩
  have h1 := h.1
  have g1 := g.1
  generalize ha : t.ctxs = a at h1
  generalize hb : t.draws = b at h1
  subst h1
  exact g1

theorem setCtx (s : State) (id : Nat) (c : Ctx) : ContextOnly s (s.setCtx id c) id :=
  ⟨rfl, fun j h => by simp [h]⟩

theorem setHere (s : State) (c : Ctx) : ContextOnly s (s.setHere c) s.focus.ctxId := setCtx s _ c

theorem focus (h : ContextOnly s t id) : t.focus = s.focus := by rw [h.1]
theorem mem (h : ContextOnly s t id) : t.mem = s.mem := by rw [h.1]
theorem tiles (h : ContextOnly s t id) : t.tiles = s.tiles := by rw [h.1]
theorem l2 (h : ContextOnly s t id) : t.l2 = s.l2 := by rw [h.1]
theorem parts (h : ContextOnly s t id) : t.parts = s.parts := by rw [h.1]
theorem ins (h : ContextOnly s t id) : t.ins = s.ins := by rw [h.1]
theorem outs (h : ContextOnly s t id) : t.outs = s.outs := by rw [h.1]
theorem units (h : ContextOnly s t id) : t.units = s.units := by rw [h.1]
theorem islands (h : ContextOnly s t id) : t.islands = s.islands := by rw [h.1]
theorem engines (h : ContextOnly s t id) : t.engines = s.engines := by rw [h.1]
theorem streamers (h : ContextOnly s t id) : t.streamers = s.streamers := by rw [h.1]
theorem time (h : ContextOnly s t id) (d : Nat) : t.time d = s.time d := by rw [h.1]; rfl
theorem here (h : ContextOnly s t s.focus.ctxId) : t.here = t.ctx s.focus.ctxId := by rw [State.here, h.focus]

end ContextOnly

/-! ### Faults (R7, R227, R228) -/

@[simp] theorem openWord_some (s : State) (w : W64) : openWord s (some w) = (s, w) := rfl

theorem openWord_only (s : State) (w : Option W64) : (openWord s w).1 = { s with draws := (openWord s w).1.draws } := by
  cases w <;> rfl

theorem takeFault_only (s : State) (id : Nat) (code : BitVec 8) (src : BitVec 16) (frame index : Nat) (aux detail : Option W64)
    (site : StopSite) (base : Option Nat) : ContextOnly s (takeFault s id code src frame index aux detail site base) id := by
  cases aux <;> cases detail <;> exact ⟨rfl, fun j h => by simp [takeFault, openWord, State.setCtx, State.ctx, SMap.get_set_ne, h]⟩

/-- A fault that is taken adds one record behind the others of its context. -/
theorem takeFault_spec (s : State) (id : Nat) (code : BitVec 8) (src : BitVec 16) (frame index : Nat) (aux detail : Option W64)
    (site : StopSite) (base : Option Nat) :
    ∃ x : Stop, (takeFault s id code src frame index aux detail site base).ctx id =
        { s.ctx id with stops := (s.ctx id).stops ++ [x] } ∧
      x.record.code = code ∧ x.record.source = src ∧ x.record.frame = BitVec.ofNat 12 frame ∧
      x.record.index = BitVec.ofNat 12 index ∧ x.record.part = BitVec.ofNat 5 (s.ctx id).part ∧ x.site = site ∧ x.base = base ∧
      x.delivered = false ∧ (∀ a, aux = some a → x.record.aux = a) ∧ ∀ d, detail = some d → x.record.detail = d := by
  cases aux <;> cases detail <;>
    exact ⟨_, by simp only [takeFault, openWord, State.setCtx_ctx_self]; rfl, rfl, rfl, rfl, rfl, rfl, rfl, rfl, rfl,
      by simp, by simp⟩

theorem faultAt_only (s : State) (code : BitVec 8) (aux detail : Option W64) (site : StopSite) :
    ContextOnly s (faultAt s code aux detail site) s.focus.ctxId :=
  (ContextOnly.setHere s _).trans (takeFault_only ..)

/-- A firing that faults leaves a record that marks its base frame; of the rest of its context only its resume goes. -/
theorem faultAt_spec (s : State) (code : BitVec 8) (aux detail : Option W64) (site : StopSite) :
    ∃ x : Stop, (faultAt s code aux detail site).here =
        { s.here with
          stops := s.here.stops ++ [x]
          resumes := s.here.resumes.filter fun x => !(x.1 = s.focus.ins ∧ x.2.1 = s.focus.frame) } ∧
      x.record.code = code ∧ x.record.frame = BitVec.ofNat 12 s.focus.frame ∧ x.record.index = BitVec.ofNat 12 s.focus.ins ∧
      x.site = site ∧ x.base = some s.focus.frame ∧ x.delivered = false ∧
      (∀ a, aux = some a → x.record.aux = a) ∧ ∀ d, detail = some d → x.record.detail = d := by
  obtain ⟨x, h, hc, _, hf, hi, _, hs, hb, hd, ha, hw⟩ := takeFault_spec (s.setHere { s.here with
    resumes := s.here.resumes.filter fun x => !(x.1 = s.focus.ins ∧ x.2.1 = s.focus.frame) }) s.focus.ctxId code
    (sourceAt s.focus.place (s.focus.ins % 16)) s.focus.frame s.focus.ins aux detail site (some s.focus.frame)
  refine ⟨x, ?_, hc, hf, hi, hs, hb, hd, ha, hw⟩
  rw [(faultAt_only s code aux detail site).here]
  exact h.trans (by simp)

/-! ### Delivery (R87, R88, R106) -/

/-- Delivery of a lane changes frames and the late count alone. -/
theorem putLane_frame (c : Ctx) (num ins : Nat) (p : Port) (l : Lane) (start : Bool) (fmt : BitVec 4) (key : BitVec 12)
    (fin : BitVec 4) : let d := (putLane c num ins p l start fmt key fin).1
    d = { c with frames := d.frames, late := d.late } := by
  unfold putLane
  split
  · rfl
  · dsimp only
    split <;> rfl

/-- So does the delivery of a run. -/
theorem putRun_frame (l : List Lane) (c : Ctx) (num ins : Nat) (p : Port) (fmt : BitVec 4) (key : BitVec 12) (count : BitVec 4)
    (start : Bool) : let d := (putRun c num ins p fmt key count start l).1
    d = { c with frames := d.frames, late := d.late } := by
  induction l generalizing c num start with
  | nil => rfl
  | cons a t ih =>
    have h1 := putLane_frame c num ins p a start fmt key (if t.isEmpty then count else 0)
    have h2 := ih (putLane c num ins p a start fmt key (if t.isEmpty then count else 0)).1 (num + 1) false
    dsimp only at h1 h2 ⊢
    simp only [putRun]
    rw [h2, h1]

theorem raiseDup_only (s : State) (id ins : Nat) (hdr : W64) (d : Dup) : ContextOnly s (raiseDup s id ins hdr d) id := by
  cases d with
  | none => exact .refl s id
  | some d =>
    obtain ⟨num, l, held⟩ := d
    simp only [raiseDup]
    exact takeFault_only ..

/-- Raising a duplicate changes the stops of its context alone. -/
theorem raiseDup_ctx (s : State) (id ins : Nat) (hdr : W64) (d : Dup) :
    (raiseDup s id ins hdr d).ctx id = { s.ctx id with stops := ((raiseDup s id ins hdr d).ctx id).stops } := by
  cases d with
  | none => rfl
  | some d =>
    obtain ⟨x, h, _⟩ := takeFault_spec s id codeDuplicate (sourceAt (id / 8) (ins % 16)) d.1 ins (some hdr)
      (some (d.2.1.getD 0 ++ d.2.2.getD 0)) .duplicate (some d.1)
    simp only [raiseDup]
    rw [h]

theorem deliverRun_only (s : State) (id num : Nat) (ins : BitVec 7) (p : Port) (fmt : BitVec 4) (key : BitVec 12)
    (count : BitVec 4) (l : List Lane) : ContextOnly s (deliverRun s id num ins p fmt key count l) id :=
  (ContextOnly.setCtx s id _).trans (raiseDup_only ..)

/-- Delivery changes frames, the late count and the stops of its context. -/
theorem deliverRun_ctx (s : State) (id num : Nat) (ins : BitVec 7) (p : Port) (fmt : BitVec 4) (key : BitVec 12)
    (count : BitVec 4) (l : List Lane) : let c := (deliverRun s id num ins p fmt key count l).ctx id
    c = { s.ctx id with frames := c.frames, late := c.late, stops := c.stops } := by
  dsimp only
  unfold deliverRun
  dsimp only
  rw [raiseDup_ctx]
  simp only [State.setCtx_ctx_self]
  rw [putRun_frame]

/-! ### The end of a firing (R88, R199) -/

/-- What a result may change of the context that sends it. -/
def SendFrame (c d : Ctx) : Prop :=
  d = { c with frames := d.frames, late := d.late, stops := d.stops, ack := d.ack, out := d.out }

theorem SendFrame.of_delivery {c d : Ctx} (h : d = { c with frames := d.frames, late := d.late, stops := d.stops }) : SendFrame c d := by
  have ha := congrArg Ctx.ack h
  have ho := congrArg Ctx.out h
  dsimp only at ha ho
  rw [SendFrame, ha, ho]
  exact h

theorem SendFrame.trans {c d e : Ctx} (h : SendFrame c d) (g : SendFrame d e) : SendFrame c e := by
  unfold SendFrame at *
  rw [g, h]

/-- A change of the context in focus adds nothing to the rest. -/
theorem ContextOnly.here_set {s t : State} (h : ContextOnly s t s.focus.ctxId) (c : Ctx) :
    ContextOnly s (t.setHere c) s.focus.ctxId := by
  have g := ContextOnly.setHere t c
  rw [h.focus] at g
  exact h.trans g

/-- A result goes nowhere but into its context. -/
theorem sendResult_only (s : State) (fmt : BitVec 4) (tb : Bool) (r : Run) (t : Target) :
    ContextOnly s (sendResult s fmt tb r t) s.focus.ctxId := by
  cases t with
  | nowhere => exact .refl s _
  | seq => exact .setHere s _
  | chan ch => exact .setHere s _
  | same i p => exact (deliverRun_only s s.focus.ctxId s.focus.frame i p fmt r.key _ _).here_set _
  | next i p => exact (deliverRun_only s s.focus.ctxId (s.focus.frame + 1) i p fmt r.key _ _).here_set _

theorem sendResult_here (s : State) (fmt : BitVec 4) (tb : Bool) (r : Run) (t : Target) :
    SendFrame s.here (sendResult s fmt tb r t).here := by
  have lateBy (u : State) (h : ContextOnly s u s.focus.ctxId)
      (hc : SendFrame s.here (u.ctx s.focus.ctxId)) (n : Nat) :
      SendFrame s.here (u.setHere { u.here with late := satAdd u.here.late n }).here := by
    rw [State.setHere_here]
    rw [← h.here] at hc
    exact hc.trans rfl
  cases t with
  | nowhere => rfl
  | seq => simp [sendResult, SendFrame]
  | chan ch => simp [sendResult, SendFrame]
  | same i p =>
    refine lateBy _ (deliverRun_only ..) ?_ _
    have h := deliverRun_ctx s s.focus.ctxId s.focus.frame i p fmt r.key
      (if existing s.here s.focus.frame s.focus.k < s.focus.k then 0 else r.count)
      (r.lanes.take (existing s.here s.focus.frame s.focus.k))
    exact .of_delivery h
  | next i p =>
    refine lateBy _ (deliverRun_only ..) ?_ _
    have h := deliverRun_ctx s s.focus.ctxId (s.focus.frame + 1) i p fmt r.key
      (if existing s.here s.focus.frame s.focus.k < s.focus.k then 0 else r.count)
      (r.lanes.take (existing s.here s.focus.frame s.focus.k))
    exact .of_delivery h

theorem finish_only (s : State) (d : Dst) (fa fb : BitVec 4) (ta tb : Run) : ContextOnly s (finish s d fa fb ta tb) s.focus.ctxId := by
  have h1 := ContextOnly.setHere s (markFired s.here s.focus.ins s.focus.frame s.focus.k)
  have h2 := h1.trans (sendResult_only (s.setHere (markFired s.here s.focus.ins s.focus.frame s.focus.k)) fa false ta d.ta)
  have h3 := sendResult_only (sendResult (s.setHere (markFired s.here s.focus.ins s.focus.frame s.focus.k)) fa false ta d.ta) fb true tb d.tb
  rw [h2.focus] at h3
  exact h2.trans h3

/-- A firing that ends has consumed its operands; what its results change of its context stands in SendFrame. -/
theorem finish_here (s : State) (d : Dst) (fa fb : BitVec 4) (ta tb : Run) :
    SendFrame (markFired s.here s.focus.ins s.focus.frame s.focus.k) (finish s d fa fb ta tb).here := by
  have h1 := sendResult_here (s.setHere (markFired s.here s.focus.ins s.focus.frame s.focus.k)) fa false ta d.ta
  have h2 := sendResult_here (sendResult (s.setHere (markFired s.here s.focus.ins s.focus.frame s.focus.k)) fa false ta d.ta) fb true tb d.tb
  rw [State.setHere_here] at h1
  exact h1.trans h2

/-- With no targets a firing only consumes its operands. -/
theorem finish_nowhere (s : State) (fa fb : BitVec 4) (ta tb : Run) :
    finish s ⟨.nowhere, .nowhere⟩ fa fb ta tb = s.setHere (markFired s.here s.focus.ins s.focus.frame s.focus.k) := rfl

/-- What markFired counts and clears. -/
@[simp] theorem markFired_firings (c : Ctx) (ins num k : Nat) : (markFired c ins num k).firings = c.firings + 1 := rfl
@[simp] theorem markFired_out (c : Ctx) (ins num k : Nat) : (markFired c ins num k).out = c.out := rfl
@[simp] theorem markFired_stops (c : Ctx) (ins num k : Nat) : (markFired c ins num k).stops = c.stops := rfl
@[simp] theorem markFired_ack (c : Ctx) (ins num k : Nat) : (markFired c ins num k).ack = c.ack := rfl
@[simp] theorem markFired_late (c : Ctx) (ins num k : Nat) : (markFired c ins num k).late = c.late := rfl
@[simp] theorem markFired_ahead (c : Ctx) (ins num k : Nat) : (markFired c ins num k).ahead = c.ahead := rfl
@[simp] theorem markFired_chead (c : Ctx) (ins num k : Nat) : (markFired c ins num k).chead = c.chead := rfl
@[simp] theorem markFired_image (c : Ctx) (ins num k : Nat) : (markFired c ins num k).image = c.image := rfl
@[simp] theorem markFired_fpflags (c : Ctx) (ins num k : Nat) : (markFired c ins num k).fpflags = c.fpflags := rfl
@[simp] theorem markFired_holds (c : Ctx) (ins num k : Nat) : (markFired c ins num k).holds = c.holds := rfl
@[simp] theorem markFired_seq (c : Ctx) (ins num k : Nat) : (markFired c ins num k).seq = c.seq := rfl
@[simp] theorem markFired_floor (c : Ctx) (ins num k : Nat) : (markFired c ins num k).floor = c.floor := rfl

/-- A frame of the context once a firing has consumed its operands. -/
theorem find_markFired (c : Ctx) (ins num k n : Nat) :
    (markFired c ins num k).find n = (c.find n).map fun fr =>
      if num ≤ fr.num ∧ fr.num < num + k ∧ fr.num < c.ahead then
        { fr with slots := fr.slots.filter (fun x => x.ins ≠ ins), fired := fr.fired ||| BitVec.twoPow 128 ins }
      else fr := by
  unfold Ctx.find markFired
  dsimp only
  rw [List.find?_map]
  congr 1
  congr 1
  funext fr
  simp only [Function.comp]
  split <;> rfl

/-! ### Editing one frame -/

/-- Editing a frame leaves every other frame. -/
theorem find_update_ne (c : Ctx) {num n : Nat} (g : Frame → Frame) (hg : ∀ fr, (g fr).num = fr.num) (h : n ≠ num) :
    (c.update num g).find n = c.find n := by
  unfold Ctx.find Ctx.update
  dsimp only
  rw [List.find?_map]
  have he : ((fun f : Frame => decide (f.num = n)) ∘ fun f => if f.num = num then g f else f) = fun f => decide (f.num = n) := by
    funext f
    simp only [Function.comp]
    split
    · rw [hg]
    · rfl
  rw [he]
  cases hf : c.frames.find? fun f => decide (f.num = n) with
  | none => rfl
  | some f =>
    have : f.num = n := by simpa using List.find?_some hf
    simp [this, h]

/-- The frame that was edited. -/
theorem find_update_self (c : Ctx) (num : Nat) (g : Frame → Frame) (hg : ∀ fr, (g fr).num = fr.num) :
    (c.update num g).find num = (c.find num).map g := by
  unfold Ctx.find Ctx.update
  dsimp only
  rw [List.find?_map]
  have he : ((fun f : Frame => decide (f.num = num)) ∘ fun f => if f.num = num then g f else f) = fun f => decide (f.num = num) := by
    funext f
    simp only [Function.comp]
    split
    · rw [hg]
    · rfl
  rw [he]
  cases hf : c.frames.find? fun f => decide (f.num = num) with
  | none => rfl
  | some f =>
    have : f.num = num := by simpa using List.find?_some hf
    simp [this]

end Sys2Proof.Machine
end

