-- ==== Sys2Proof/Tests/Slice0.lean ====
section
/-! SUPPORT. Tests: words of the spec and what they decode to, terms that WellFormed refuses, single steps with results that the
spec prints, and for each obligation with hypotheses a state that meets them. -/
namespace Sys2Proof.Tests
open Sys2Proof Sys2Proof.Machine

/-! ### Words written out field by field from the spec's encoding tables -/

/-- GOP[31:27] MC[26:23] LV[22:20] AUX[19:16] LBL[15:0] (R65, R66). -/
theorem test_decode_grammar :
    decodeGrammar 0x0F800000 = .ok (.mtch .any) ∧
    decodeGrammar 0x0B800000 = .ok (.mtch (.one .u1)) ∧
    decodeGrammar 0x10000FFF = .ok (.brm .data 0xFFF) ∧
    decodeGrammar 0x12000001 = .ok (.brm (.one .eb) 1) ∧
    decodeGrammar 0x18000800 = .ok (.swm 0x800) ∧
    decodeGrammar 0x20000123 = .ok (.jmpn 0x123) ∧
    decodeGrammar 0x28000ABC = .ok (.calln 0xABC) ∧
    decodeGrammar 0x30000000 = .ok (.retn) ∧
    decodeGrammar 0x3800018F = .ok (.take 99 .w) := by decide

/-- The remaining rows of R66. -/
theorem test_decode_grammar_more :
    decodeGrammar 0x38100000 = .ok (.takeDrop) ∧
    decodeGrammar 0x40730015 = .ok (.fire .mpay 3 5 .b) ∧
    decodeGrammar 0x4CC0003F = .ok (.emk .u3 .o4 63) ∧
    decodeGrammar 0x507007FF = .ok (.rcvr .eos 0x7FF) ∧
    decodeGrammar 0x50000000 = .ok (.rcvr .off 0) ∧
    decodeGrammar 0x5A800000 = .ok (.gwait 5) ∧
    decodeGrammar 0x60000000 = .ok (.acpt) ∧
    decodeGrammar 0x60100010 = .ok (.acptRestart 0x10) ∧
    decodeGrammar 0x68000FED = .ok (.gtrap 0xFED) := by decide

/-- OP[63:56] TY[55:52] TA[51:41] TB[40:30] X[29:0] (R198 to R205), moves. -/
theorem test_decode_moves :
    decodeBlock 0x00003D8000000000 = .ok (.nop ⟨.same 7 .c, .nowhere⟩) ∧
    decodeBlock 0x01C41B040180005A = .ok (.fan ⟨⟨.next 3 .b, .chan 2⟩, .bs4x8, .rne, .off, .imm, 0, 0x5A⟩) ∧
    decodeBlock 0x02803D80000FFFFF = .ok (.steer ⟨⟨.same 7 .c, .nowhere⟩, .e4m3x4, .rne, .off, .absorb, 0, 0xFFFFF⟩) ∧
    decodeBlock 0x03E31F8100012345 = .ok (.merge ⟨⟨.same 99 .w, .seq⟩, .q16x8, .rne, .off, .absorb, 0, 0x12345⟩) ∧
    decodeBlock 0x040C018000000000 = .ok (.drop) ∧
    decodeBlock 0x05441B0401234567 = .ok (.movi ⟨.next 3 .b, .chan 2⟩ .f32 (.imm 0x1234567)) ∧
    decodeBlock 0x05303D8020000005 = .ok (.movi ⟨.same 7 .c, .nowhere⟩ .n32 (.pool 5)) := by decide

/-- OP[63:56] TY[55:52] TA[51:41] TB[40:30] X[29:0] (R198 to R205), moves. -/
theorem test_decode_moves_2 :
    decodeBlock 0x06341B0400700000 = .ok (.tagr ⟨⟨.next 3 .b, .chan 2⟩, .n32, .rne, .off, .absorb, 7, 0x0⟩) ∧
    decodeBlock 0x07A03D8000100000 = .ok (.mask ⟨⟨.same 7 .c, .nowhere⟩, .i8x4, .rne, .off, .absorb, 1, 0x0⟩) ∧
    decodeBlock 0x08731F8100000F0F = .ok (.fill ⟨⟨.same 99 .w, .seq⟩, .f16x2, .rne, .off, .absorb, 0, 0xF0F⟩) ∧
    decodeBlock 0x09641B0409000011 = .ok (.hget ⟨.next 3 .b, .chan 2⟩ .bf16x2 9 false 17) ∧
    decodeBlock 0x0A203D800F800000 = .ok (.hset ⟨.same 7 .c, .nowhere⟩ .i32 15 true 0) ∧
    decodeBlock 0x0B1BF18000900ABC = .ok (.emit ⟨.chan 63, .nowhere⟩ .u3 false 0xABC) ∧
    decodeBlock 0x0B1C010200140000 = .ok (.emit ⟨.nowhere, .chan 1⟩ .er true 0) := by decide

/-- OP[63:56] TY[55:52] TA[51:41] TB[40:30] X[29:0] (R198 to R205), arithmetic. -/
theorem test_decode_arithmetic :
    decodeBlock 0x10441B041C880001 = .ok (.add ⟨⟨.next 3 .b, .chan 2⟩, .f32, .rdn, .finite, .forward, 0, 0x80001⟩) ∧
    decodeBlock 0x11603D803303F800 = .ok (.sub ⟨⟨.same 7 .c, .nowhere⟩, .bf16x2, .dyn, .clamp, .zero, 0, 0x3F800⟩) ∧
    decodeBlock 0x12931F812D8000FF = .ok (.mul ⟨⟨.same 99 .w, .seq⟩, .e5m2x4, .sto, .finite, .imm, 0, 0xFF⟩) ∧
    decodeBlock 0x13B41B0400800007 = .ok (.mulh ⟨⟨.next 3 .b, .chan 2⟩, .n8x4, .rne, .off, .forward, 0, 0x7⟩) ∧
    decodeBlock 0x14F03D8003000003 = .ok (.div ⟨⟨.same 7 .c, .nowhere⟩, .i4x8, .rne, .clamp, .zero, 0, 0x3⟩) ∧
    decodeBlock 0x15A31F8101800010 = .ok (.rem ⟨⟨.same 99 .w, .seq⟩, .i8x4, .rne, .off, .imm, 0, 0x10⟩) ∧
    decodeBlock 0x16341B0402800000 = .ok (.min ⟨⟨.next 3 .b, .chan 2⟩, .n32, .rne, .clamp, .forward, 0, 0x0⟩) := by decide

/-- OP[63:56] TY[55:52] TA[51:41] TB[40:30] X[29:0] (R198 to R205), arithmetic. -/
theorem test_decode_arithmetic_2 :
    decodeBlock 0x17703D8005007BFF = .ok (.max ⟨⟨.same 7 .c, .nowhere⟩, .f16x2, .rne, .finite, .zero, 0, 0x7BFF⟩) ∧
    decodeBlock 0x18231F81038000FF = .ok (.abs ⟨⟨.same 99 .w, .seq⟩, .i32, .rne, .clamp, .imm, 0, 0xFF⟩) ∧
    decodeBlock 0x19841B0404800000 = .ok (.neg ⟨⟨.next 3 .b, .chan 2⟩, .e4m3x4, .rne, .finite, .forward, 0, 0x0⟩) ∧
    decodeBlock 0x1A403D8001703F80 = .ok (.cmp ⟨⟨.same 7 .c, .nowhere⟩, .f32, .rne, .off, .zero, 7, 0x3F80⟩) ∧
    decodeBlock 0x1BB31F8100000000 = .ok (.clz ⟨⟨.same 99 .w, .seq⟩, .n8x4, .rne, .off, .absorb, 0, 0x0⟩) ∧
    decodeBlock 0x1CF41B040180000F = .ok (.popc ⟨⟨.next 3 .b, .chan 2⟩, .i4x8, .rne, .off, .imm, 0, 0xF⟩) := by decide

/-- OP[63:56] TY[55:52] TA[51:41] TB[40:30] X[29:0] (R198 to R205), logic. -/
theorem test_decode_logic :
    decodeBlock 0x20241B04008F0F0F = .ok (.and ⟨⟨.next 3 .b, .chan 2⟩, .i32, .rne, .off, .forward, 0, 0xF0F0F⟩) ∧
    decodeBlock 0x21303D8001000001 = .ok (.or ⟨⟨.same 7 .c, .nowhere⟩, .n32, .rne, .off, .zero, 0, 0x1⟩) ∧
    decodeBlock 0x22A31F81018000AA = .ok (.xor ⟨⟨.same 99 .w, .seq⟩, .i8x4, .rne, .off, .imm, 0, 0xAA⟩) ∧
    decodeBlock 0x23B41B0400000002 = .ok (.andn ⟨⟨.next 3 .b, .chan 2⟩, .n8x4, .rne, .off, .absorb, 0, 0x2⟩) ∧
    decodeBlock 0x24F03D8000000003 = .ok (.shl ⟨⟨.same 7 .c, .nowhere⟩, .i4x8, .rne, .off, .absorb, 0, 0x3⟩) ∧
    decodeBlock 0x25331F810100001F = .ok (.shr ⟨⟨.same 99 .w, .seq⟩, .n32, .rne, .off, .zero, 0, 0x1F⟩) ∧
    decodeBlock 0x26241B0400800020 = .ok (.sar ⟨⟨.next 3 .b, .chan 2⟩, .i32, .rne, .off, .forward, 0, 0x20⟩) := by decide

/-- OP[63:56] TY[55:52] TA[51:41] TB[40:30] X[29:0] (R198 to R205), floats. -/
theorem test_decode_floats :
    decodeBlock 0x30641B0423B00080 = .ok (.fma ⟨⟨.next 3 .b, .chan 2⟩, .bf16x2, .rna, .clamp, .imm, 3, 0x80⟩) ∧
    decodeBlock 0x31403D8004800000 = .ok (.rcp ⟨⟨.same 7 .c, .nowhere⟩, .f32, .rne, .finite, .forward, 0, 0x0⟩) ∧
    decodeBlock 0x32731F8103000000 = .ok (.rsq ⟨⟨.same 99 .w, .seq⟩, .f16x2, .rne, .clamp, .zero, 0, 0x0⟩) ∧
    decodeBlock 0x33441B040D80007F = .ok (.nrcp ⟨⟨.next 3 .b, .chan 2⟩, .f32, .rtz, .finite, .imm, 0, 0x7F⟩) ∧
    decodeBlock 0x34603D8012003F80 = .ok (.nrsq ⟨⟨.same 7 .c, .nowhere⟩, .bf16x2, .rup, .clamp, .absorb, 0, 0x3F80⟩) ∧
    decodeBlock 0x35431F811C800000 = .ok (.exp2 ⟨⟨.same 99 .w, .seq⟩, .f32, .rdn, .finite, .forward, 0, 0x0⟩) ∧
    decodeBlock 0x36741B0423000000 = .ok (.log2 ⟨⟨.next 3 .b, .chan 2⟩, .f16x2, .rna, .clamp, .zero, 0, 0x0⟩) := by decide

/-- OP[63:56] TY[55:52] TA[51:41] TB[40:30] X[29:0] (R198 to R205), floats. -/
theorem test_decode_floats_2 :
    decodeBlock 0x37603D8029800001 = .ok (.tanh ⟨⟨.same 7 .c, .nowhere⟩, .bf16x2, .sto, .off, .imm, 0, 0x1⟩) ∧
    decodeBlock 0x38831F8100800000 = .ok (.class ⟨⟨.same 99 .w, .seq⟩, .e4m3x4, .rne, .off, .forward, 0, 0x0⟩) ∧
    decodeBlock 0x39941B0431100000 = .ok (.rnd ⟨⟨.next 3 .b, .chan 2⟩, .e5m2x4, .dyn, .off, .zero, 1, 0x0⟩) := by decide

/-- OP[63:56] TY[55:52] TA[51:41] TB[40:30] X[29:0] (R198 to R205), conversions. -/
theorem test_decode_conversions :
    decodeBlock 0x40441B042DB8005A = .ok (.cvt ⟨⟨.next 3 .b, .chan 2⟩, .f32, .sto, .finite, .imm, 3, 0x8005A⟩) ∧
    decodeBlock 0x41703D8000B03C00 = .ok (.pack ⟨⟨.same 7 .c, .nowhere⟩, .f16x2, .rne, .off, .forward, 3, 0x3C00⟩) ∧
    decodeBlock 0x42A31F8101A0007F = .ok (.unpk ⟨⟨.same 99 .w, .seq⟩, .i8x4, .rne, .off, .imm, 2, 0x7F⟩) ∧
    decodeBlock 0x43641B0401300000 = .ok (.qdec ⟨⟨.next 3 .b, .chan 2⟩, .bf16x2, .rne, .off, .zero, 3, 0x0⟩) ∧
    decodeBlock 0x44E03D8000000000 = .ok (.qenc ⟨⟨.same 7 .c, .nowhere⟩, .q16x8, .rne, .off, .absorb, 0, 0x0⟩) ∧
    decodeBlock 0x45D31F8130000000 = .ok (.bsq ⟨⟨.same 99 .w, .seq⟩, .mx4x8, .dyn, .off, .absorb, 0, 0x0⟩) := by decide

/-- OP[63:56] TY[55:52] TA[51:41] TB[40:30] X[29:0] (R198 to R205), lanes. -/
theorem test_decode_lanes :
    decodeBlock 0x50441B040140BF00 = .ok (.shfl ⟨⟨.next 3 .b, .chan 2⟩, .f32, .rne, .off, .zero, 4, 0xBF00⟩) ∧
    decodeBlock 0x51A03D8000506000 = .ok (.lred ⟨⟨.same 7 .c, .nowhere⟩, .i8x4, .rne, .off, .absorb, 5, 0x6000⟩) ∧
    decodeBlock 0x52731F8113002000 = .ok (.lscn ⟨⟨.same 99 .w, .seq⟩, .f16x2, .rup, .clamp, .zero, 0, 0x2000⟩) ∧
    decodeBlock 0x53D41B0401008F00 = .ok (.lbct ⟨⟨.next 3 .b, .chan 2⟩, .mx4x8, .rne, .off, .zero, 0, 0x8F00⟩) ∧
    decodeBlock 0x86003D8007600000 = .ok (.selk ⟨.same 7 .c, .nowhere⟩ 7 3) := by decide

/-- OP[63:56] TY[55:52] TA[51:41] TB[40:30] X[29:0] (R198 to R205), memory. -/
theorem test_decode_memory :
    decodeBlock 0x60E41B042A708001 = .ok (.ld .q16x8 ⟨⟨.next 3 .b, .chan 2⟩, 5, .package, .acquire, .last, 0, 0x8001⟩) ∧
    decodeBlock 0x61603D8014900004 = .ok (.st .bf16x2 ⟨⟨.same 7 .c, .nowhere⟩, 2, .system, .release, .stream, 0, 0x4⟩) ∧
    decodeBlock 0x62431F813BE3FFFF = .ok (.atom .f32 ⟨⟨.same 99 .w, .seq⟩, 7, .ring, .acqRel, .keep, 3, 0xFFFF⟩) ∧
    decodeBlock 0x63341B0409C00010 = .ok (.cas .n32 ⟨⟨.next 3 .b, .chan 2⟩, 1, .die, .acqRel, .normal, 0, 0x10⟩) ∧
    decodeBlock 0x64003D80311F7FFF = .ok (.pref ⟨⟨.same 7 .c, .nowhere⟩, 6, .die, .plain, .stream, 15, 0x7FFF⟩) ∧
    decodeBlock 0x65031F811C8E0002 = .ok (.disc ⟨⟨.same 99 .w, .seq⟩, 3, .system, .release, .normal, 14, 0x2⟩) ∧
    decodeBlock 0x66041B0422810003 = .ok (.wbk ⟨⟨.next 3 .b, .chan 2⟩, 4, .package, .release, .normal, 1, 0x3⟩) := by decide

/-- OP[63:56] TY[55:52] TA[51:41] TB[40:30] X[29:0] (R198 to R205), memory. -/
theorem test_decode_memory_2 :
    decodeBlock 0x67003D8000090100 = .ok (.inv ⟨⟨.same 7 .c, .nowhere⟩, 0, .tile, .plain, .normal, 9, 0x100⟩) ∧
    decodeBlock 0x68A31F8111970005 = .ok (.kvap .i8x4 ⟨⟨.same 99 .w, .seq⟩, 2, .die, .release, .stream, 7, 0x5⟩) ∧
    decodeBlock 0x69041B043B300006 = .ok (.kvfk ⟨⟨.next 3 .b, .chan 2⟩, 7, .ring, .plain, .last, 0, 0x6⟩) := by decide

/-- OP[63:56] TY[55:52] TA[51:41] TB[40:30] X[29:0] (R198 to R205), ordering. -/
theorem test_decode_ordering :
    decodeBlock 0x70003D80214A0000 = .ok (.xfen ⟨.same 7 .c, .nowhere⟩ 0x21 0x12 .system) ∧
    decodeBlock 0x71031F8115600000 = .ok (.sbar ⟨.same 99 .w, .seq⟩ 0x15 .ring) ∧
    decodeBlock 0x72041B043F54A000 = .ok (.bar ⟨.next 3 .b, .chan 2⟩ 0x3F .package 0xA5) := by decide

/-- OP[63:56] TY[55:52] TA[51:41] TB[40:30] X[29:0] (R198 to R205), islands. -/
theorem test_decode_islands :
    decodeBlock 0x80003D8003BBFFAA = .ok (.wload ⟨.same 7 .c, .nowhere⟩ 3 5 .mx4x8 511 0x55) ∧
    decodeBlock 0x81041B0402ABCAA8 = .ok (.wbind ⟨.next 3 .b, .chan 2⟩ 2 0xABC 0x155) ∧
    decodeBlock 0x82031F8100F91230 = .ok (.gath ⟨.same 99 .w, .seq⟩ 15 .e5m2x4 0x123) ∧
    decodeBlock 0x83003D8000F00F80 = .ok (.mout ⟨.same 7 .c, .nowhere⟩ 0xF0 0x0F true) ∧
    decodeBlock 0x84041B040001FE00 = .ok (.mclr ⟨.next 3 .b, .chan 2⟩ 0x01 0xFE) := by decide

/-- OP[63:56] TY[55:52] TA[51:41] TB[40:30] X[29:0] (R198 to R205), rings. -/
theorem test_decode_rings :
    decodeBlock 0x85003D8015E00000 = .ok (.attn ⟨.same 7 .c, .nowhere⟩ 21 true 6) ∧
    decodeBlock 0xA0041B0414FFF400 = .ok (.rota ⟨.next 3 .b, .chan 2⟩ 20 0x3FF true 5) ∧
    decodeBlock 0xA1031F8101D00000 = .ok (.rgrt ⟨.same 99 .w, .seq⟩ 1 6 true) ∧
    decodeBlock 0xA2003D8002E00000 = .ok (.rsnd ⟨.same 7 .c, .nowhere⟩ 2 7) ∧
    decodeBlock 0xA3041B0403800000 = .ok (.rstat ⟨.next 3 .b, .chan 2⟩ 3 true) := by decide

/-- OP[63:56] TY[55:52] TA[51:41] TB[40:30] X[29:0] (R198 to R205), objects. -/
theorem test_decode_objects :
    decodeBlock 0x90041B0420800000 = .ok (.opset ⟨.next 3 .b, .chan 2⟩ 32 16) ∧
    decodeBlock 0x91003D8012480000 = .ok (.opget ⟨.same 7 .c, .nowhere⟩ 18 9) ∧
    decodeBlock 0x92031F813FC00000 = .ok (.chset ⟨.same 99 .w, .seq⟩ 63 true 2) ∧
    decodeBlock 0x93041B043FBF8000 = .ok (.arm ⟨.next 3 .b, .chan 2⟩ 63 11 31 false) ∧
    decodeBlock 0x93003D8005104000 = .ok (.arm ⟨.same 7 .c, .nowhere⟩ 5 1 0 true) ∧
    decodeBlock 0x94031F811FB00000 = .ok (.cpy ⟨.same 99 .w, .seq⟩ 31 11) ∧
    decodeBlock 0x95041B041EA00000 = .ok (.wtil ⟨.next 3 .b, .chan 2⟩ 30 10) := by decide

/-- OP[63:56] TY[55:52] TA[51:41] TB[40:30] X[29:0] (R198 to R205), objects. -/
theorem test_decode_objects_2 :
    decodeBlock 0x96003D8000800000 = .ok (.time ⟨.same 7 .c, .nowhere⟩ .both) := by decide

/-- OP[63:56] TY[55:52] TA[51:41] TB[40:30] X[29:0] (R198 to R205), system. -/
theorem test_decode_system :
    decodeBlock 0xB0041B04050FF000 = .ok (.tres ⟨.next 3 .b, .chan 2⟩ 5 false 0xFF) ∧
    decodeBlock 0xB1003D8004800000 = .ok (.trel ⟨.same 7 .c, .nowhere⟩ 4 true 0) ∧
    decodeBlock 0xB2031F8101800000 = .ok (.tcnt ⟨.same 99 .w, .seq⟩ .late true) ∧
    decodeBlock 0xF000098000FED000 = .ok (.trap ⟨.same 1 .a, .nowhere⟩ 0xFED) ∧
    decodeBlock 0xF1041B0400400000 = .ok (.tret ⟨.next 3 .b, .chan 2⟩ .skip false) ∧
    decodeBlock 0xF20C0085BF000000 = .ok (.bkpt ⟨.nowhere, .next 5 .c⟩ 63) ∧
    decodeBlock 0xF30C018000000000 = .ok (.halt) := by decide

/-- OP[63:56] TY[55:52] TA[51:41] TB[40:30] X[29:0] (R198 to R205), system. -/
theorem test_decode_system_2 :
    decodeBlock 0xF4003D8000000000 = .ok (.yld ⟨.same 7 .c, .nowhere⟩) ∧
    decodeBlock 0xF5041B0400D00000 = .ok (.snap ⟨.next 3 .b, .chan 2⟩ 6 true) ∧
    decodeBlock 0xF6003D800003501E = .ok (.srd ⟨.same 7 .c, .nowhere⟩ 0 true 5 .hi (.base 6)) ∧
    decodeBlock 0xF7031F8100002083 = .ok (.swr ⟨.same 99 .w, .seq⟩ 0 false 0 .both .trigger) ∧
    decodeBlock 0xF8041B0407500000 = .ok (.prio ⟨.next 3 .b, .chan 2⟩ 7 false 5) := by decide

/-- Words that R204 and the entry of ADD print. -/
theorem test_decode_printed_words :
    decodeBlock 0x10241B0400000000 = .ok (.add ⟨⟨.next 3 .b, .chan 2⟩, .i32, .rne, .off, .absorb, 0, 0⟩) ∧
    decodeBlock 0x10204980000FFFFD = .ok (.add ⟨⟨.same 9 .a, .nowhere⟩, .i32, .rne, .off, .absorb, 0, 0xFFFFD⟩) ∧
    decodeBlock 0x61202F8011800004 = .ok (.st .i32 ⟨⟨.same 5 .w, .nowhere⟩, 2, .die, .release, .normal, 0, 4⟩) ∧
    decodeBlock 0x0540118020000001 = .ok (.movi ⟨.same 2 .a, .nowhere⟩ .f32 (.pool 1)) ∧
    decodeBlock 0x10603B800A000000 = .ok (.add ⟨⟨.same 7 .b, .nowhere⟩, .bf16x2, .rtz, .clamp, .absorb, 0, 0⟩) := by decide

/-- Words that R401, R407 and the worked programs print. -/
theorem test_decode_printed_words_more :
    decodeBlock 0x0240298000000000 = .ok (.steer ⟨⟨.same 5 .a, .nowhere⟩, .f32, .rne, .off, .absorb, 0, 0⟩) ∧
    decodeBlock 0xF600100305002040 = .ok (.srd ⟨.same 2 .a, .same 3 .a⟩ 5 false 0 .both .htab) ∧
    decodeBlock 0x80000980000C0306 = .ok (.wload ⟨.same 1 .a, .nowhere⟩ 0 0 .bf16x2 3 3) ∧
    decodeBlock 0x810C018000007000 = .ok (.wbind ⟨.nowhere, .nowhere⟩ 0 7 0) ∧
    decodeBlock 0x720C018001218000 = .ok (.bar ⟨.nowhere, .nowhere⟩ 1 .die 12) ∧
    decodeBlock 0xA100118000300000 = .ok (.rgrt ⟨.same 2 .a, .nowhere⟩ 0 1 true) ∧
    decodeBlock 0xA00C01800000C000 = .ok (.rota ⟨.nowhere, .nowhere⟩ 0 3 false 0) := by decide

/-- Words that the front end refuses, each with its reason (R208): a reserved opcode, a format outside the type set, a reserved
target, a set bit of a channel target, targets for DROP, a reserved field, a rounding mode on an integer type; a reserved
grammar operation, a mark class out of range, a label with a high bit. -/
theorem test_refused_words :
    decodeBlock 0x0C00000000000000 = .error .opcode ∧ decodeBlock 0x1050118000000000 = .error .format ∧
    decodeBlock 0x102C030000000000 = .error .target ∧
    decodeBlock 0x1028138000000000 = .error .target ∧ decodeBlock 0x0400018000000000 = .error .target ∧
    decodeBlock 0x9028118000000001 = .error .format ∧ decodeBlock 0x9000118000000001 = .error .xfield ∧
    decodeBlock 0x1028118008000000 = .error .xfield ∧
    decodeGrammar 0x00000000 = .error .grammarOp ∧ decodeGrammar 0x70000000 = .error .grammarOp ∧
    decodeGrammar 0x0D000000 = .error .grammarField ∧ decodeGrammar 0x20001000 = .error .grammarField := by decide

/-! ### WellFormed refuses -/

def anyDst : Dst := ⟨.nowhere, .nowhere⟩
def goodXA (ty : Fmt) : XA := ⟨anyDst, ty, .rne, .off, .absorb, 0, 0⟩
def goodXM : XM := ⟨anyDst, 0, .die, .plain, .normal, 0, 0⟩

/-- The checks of an XA word, each on a word that only it refuses: type set, rounding, saturation, empty policy, cond, immediate. -/
theorem test_wf_xa :
    (Instr.add (goodXA .i32)).wf = true ∧ (Instr.add (goodXA .mx4x8)).wf = false ∧ (Instr.and (goodXA .f32)).wf = false ∧
    (Instr.fma (goodXA .e4m3x4)).wf = false ∧ (Instr.tagr (goodXA .f32)).wf = false ∧ (Instr.class (goodXA .i32)).wf = false ∧
    (Instr.bsq (goodXA .q16x8)).wf = false ∧ (Instr.qenc (goodXA .bs4x8)).wf = false ∧ (Instr.qdec (goodXA .f32)).wf = false ∧
    (Instr.add { goodXA .i32 with rnd := .rtz }).wf = false ∧ (Instr.min { goodXA .f32 with rnd := .rtz }).wf = false ∧
    (Instr.and { goodXA .i32 with sat := .clamp }).wf = false ∧ (Instr.qdec { goodXA .bf16x2 with empty := .imm }).wf = false ∧
    (Instr.fill { goodXA .i32 with empty := .zero }).wf = false ∧ (Instr.add { goodXA .i32 with cond := 1 }).wf = false ∧
    (Instr.abs { goodXA .i32 with imm := 1 }).wf = false ∧ (Instr.abs { goodXA .i32 with empty := .imm, imm := 0x100 }).wf = false ∧
    (Instr.mask { goodXA .i32 with imm := 1 }).wf = false := by decide

/-- The checks of one entry each: CMP on integers, CVT's source, part and spare bits, PACK's types, the lane entries' groups. -/
theorem test_wf_xa_entries :
    (Instr.cmp { goodXA .i32 with cond := 6 }).wf = false ∧ (Instr.cmp { goodXA .f32 with cond := 6 }).wf = true ∧
    (Instr.cvt { goodXA .i32 with imm := 0x40000 }).wf = true ∧ (Instr.cvt { goodXA .i32 with imm := 0xE0000 }).wf = false ∧
    (Instr.cvt { goodXA .i32 with imm := 0x40000, cond := 1 }).wf = false ∧
    (Instr.cvt { goodXA .i32 with imm := 0x40100 }).wf = false ∧ (Instr.cvt { goodXA .i32 with imm := 0x40001 }).wf = false ∧
    (Instr.pack (goodXA .i32)).wf = false ∧ (Instr.unpk (goodXA .f32)).wf = false ∧
    (Instr.shfl { goodXA .i32 with cond := 1, imm := 0xC000 }).wf = false ∧
    (Instr.shfl { goodXA .i32 with cond := 1, imm := 0x2200 }).wf = false ∧
    (Instr.shfl { goodXA .i32 with imm := 0x2100 }).wf = false ∧ (Instr.shfl { goodXA .i32 with cond := 5 }).wf = false ∧
    (Instr.lred { goodXA .f32 with cond := 3 }).wf = false ∧ (Instr.lred { goodXA .i32 with cond := 1, sat := .clamp }).wf = false ∧
    (Instr.lred { goodXA .i32 with imm := 0x2100 }).wf = false ∧ (Instr.lbct { goodXA .i32 with imm := 0x2200 }).wf = false ∧
    (Instr.lbct { goodXA .i32 with imm := 1 }).wf = false := by decide

/-- The checks of an XM word: order, scope, policy, aop, and the type sets of ATOM and CAS. -/
theorem test_wf_xm :
    (Instr.ld .f32 goodXM).wf = true ∧ (Instr.ld .f32 { goodXM with order := .release }).wf = false ∧
    (Instr.st .f32 { goodXM with order := .acquire }).wf = false ∧ (Instr.ld .f32 { goodXM with aop := 1 }).wf = false ∧
    (Instr.atom .bf16x2 goodXM).wf = false ∧ (Instr.atom .f32 { goodXM with aop := 4 }).wf = false ∧
    (Instr.atom .i32 { goodXM with aop := 7 }).wf = false ∧ (Instr.cas .i8x4 goodXM).wf = false ∧
    (Instr.pref { goodXM with scope := .package }).wf = false ∧ (Instr.disc { goodXM with pol := .keep }).wf = false ∧
    (Instr.inv goodXM).wf = false ∧ (Instr.kvap .f32 { goodXM with scope := .tile }).wf = false ∧
    (Instr.kvfk { goodXM with aop := 1 }).wf = false := by decide

/-- Targets: NOP takes no channel, EMIT no port. -/
theorem test_wf_targets :
    (Instr.nop ⟨.chan 1, .nowhere⟩).wf = false ∧ (Instr.nop ⟨.same 1 .a, .next 2 .b⟩).wf = true ∧
    (Instr.emit ⟨.same 1 .a, .nowhere⟩ .er false 0).wf = false ∧ (Instr.trap ⟨.seq, .nowhere⟩ 0).wf = false ∧
    (Instr.bkpt ⟨.nowhere, .chan 2⟩ 0).wf = false ∧ (Instr.yld ⟨.chan 0, .nowhere⟩).wf = false := by decide

/-- The field ranges of the other block entries. -/
theorem test_wf_fields :
    (Instr.rcvr .off 1).wf = false ∧ (Instr.movi anyDst .bf16x2 (.imm 0)).wf = false ∧ (Instr.hget anyDst .i32 0 true 1).wf = false ∧
    (Instr.hset anyDst .i32 0 true 1).wf = false ∧ (Instr.emit anyDst .er true 1).wf = false ∧
    (Instr.xfen anyDst 0 1 .die).wf = false ∧ (Instr.xfen anyDst 1 0 .die).wf = false ∧ (Instr.xfen anyDst 0x20 1 .die).wf = false ∧
    (Instr.sbar anyDst 0 .die).wf = false ∧ (Instr.wload anyDst 0 0 .bf16x2 128 0).wf = false ∧
    (Instr.wload anyDst 0 0 .f32 0 0).wf = false ∧ (Instr.gath anyDst 0 .f32 0).wf = false ∧ (Instr.mout anyDst 1 255 false).wf = false ∧
    (Instr.mclr anyDst 255 1).wf = false ∧ (Instr.attn anyDst 22 false 0).wf = false ∧ (Instr.selk anyDst 2 1).wf = false ∧
    (Instr.selk anyDst 0 6).wf = false ∧ (Instr.opset anyDst 17 0).wf = false ∧ (Instr.opget anyDst 18 17).wf = false ∧
    (Instr.chset anyDst 0 false 3).wf = false ∧ (Instr.arm anyDst 0 12 0 false).wf = false ∧ (Instr.arm anyDst 0 0 1 true).wf = false ∧
    (Instr.cpy anyDst 32 0).wf = false ∧ (Instr.wtil anyDst 0 12).wf = false := by decide

/-- The field ranges of the ring and system entries. -/
theorem test_wf_system :
    (Instr.rota anyDst 22 0 false 0).wf = false ∧ (Instr.rgrt anyDst 22 0 false).wf = false ∧ (Instr.rsnd anyDst 22 0).wf = false ∧
    (Instr.rstat anyDst 22 false).wf = false ∧ (Instr.tres anyDst 6 false 0).wf = false ∧ (Instr.tres anyDst 0 true 1).wf = false ∧
    (Instr.trel anyDst 6 false 0).wf = false ∧ (Instr.tcnt anyDst .live true).wf = false ∧ (Instr.tret anyDst .skip true).wf = false ∧
    (Instr.srd anyDst 1 false 0 .lo .prio).wf = false ∧ (Instr.srd anyDst 0 false 1 .lo .prio).wf = false ∧
    (Instr.srd anyDst 0 false 0 .hi .prio).wf = false ∧ (Instr.swr anyDst 0 false 0 .lo .trigger).wf = false ∧
    (Instr.prio anyDst 0 true 1).wf = false := by decide

/-- The places of the events. -/
theorem test_wf_events :
    (Instr.channelTokenArrival 3 187 63).wf = true ∧ (Instr.channelTokenArrival 0 144 0).wf = false ∧
    (Instr.channelTokenArrival 0 0 64).wf = false ∧ (Instr.creditReturn 4 0 0).wf = false ∧ (Instr.outputTokenSend 0 0 64).wf = false ∧
    (Instr.handlerTableServe 0 144).wf = false ∧ (Instr.frameCommit 0 0 8).wf = false ∧ (Instr.firingAging 0 0 0 128 0).wf = false ∧
    (Instr.readEmit 0 0 2).wf = false ∧ (Instr.writeStore 0 0 2).wf = false ∧ (Instr.parameterWriteEffect 0 0 33).wf = false ∧
    (Instr.chunkIssue 0 44).wf = false ∧ (Instr.templateFire 0 12 0).wf = false ∧ (Instr.grantArrival 0 22).wf = false ∧
    (Instr.chainPositionRequest 0 144).wf = false ∧ (Instr.memoryResponse 4 0).wf = false ∧ (Instr.l2SliceRequest 128).wf = false ∧
    (Instr.routerArbitration 0 0 6).wf = false ∧ (Instr.launch 32 0).wf = false ∧ (Instr.placement 0 4).wf = false ∧
    (Instr.unitSaveComplete (.op 0 0 17)).wf = false ∧ (Instr.unitSaveComplete (.ctx 0 144 0)).wf = false ∧
    (Instr.unitSaveComplete (.island 0 44)).wf = false ∧ (Instr.unitSaveComplete (.queue 0 0 64)).wf = false ∧
    (Instr.unmap 33 0).wf = false ∧ (Instr.registerWrite 33 0 false 0).wf = false ∧ (Instr.almanacCorrection 4).wf = false := by decide
/-! ### Small states -/

/-- An image of one instruction without a gate. -/
def imageOf (w : W64) : List W64 := [0, 0, 0, 1, 0, 0, 0, 0, w]

def slotsFor (j k : Nat) (fin : BitVec 4) (rows : List (Port × List Lane)) : List Slot :=
  rows.map fun r => ⟨0, r.1, r.2.getD j none, j == 0, fmtN32, 7, if j + 1 = k then fin else 0⟩

/-- Context 0 of tile 0 with instruction 0 the word `w`, in whose first `k` frames these runs wait at ports a, b and c. -/
def ctxOf (w : W64) (k : Nat) (fin : BitVec 4) (a b c : List Lane) : Ctx :=
  { active := true, image := imageOf w, grammar := some { len := 1 }, ahead := k
    frames := (List.range k).map fun j => { num := j, slots := slotsFor j k fin [(.a, a), (.b, b), (.c, c)] } }

def firing (w : W64) (k : Nat) (a b c : List Lane) : State :=
  { stage := 4, focus := { k := k }, ctxs := [(0, ctxOf w k 0 a b c)] }

/-- The lanes that a firing of the word puts into the output buffer. -/
def sentBy (w : W64) (k : Nat) (fin : BitVec 4) (a b c : List Lane) : List (List Lane) :=
  match decodeBlock w with
  | .error _ => []
  | .ok i => match exec i { stage := 4, focus := { k := k }, ctxs := [(0, ctxOf w k fin a b c)] } with
    | .next t => t.here.out.map fun e => e.tok.lanes
    | _ => []

/-- fpflags after a firing of the word over one frame. -/
def flagsBy (w : W64) (a b c : List Lane) : W32 :=
  match decodeBlock w with
  | .error _ => 0
  | .ok i => match exec i (firing w 1 a b c) with
    | .next t => t.here.fpflags
    | _ => 0

/-! ### Results that the spec prints -/

/-- The worked lane of R380. -/
theorem test_popc_example : sentBy 0x1CA8118000000000 1 0 [some 0xFF0F0180] [] [] = [[some 0x08040101]] := by decide

/-- The worked lanes of R394: SAR and SHR with counts 1, 2, 3 and 8. -/
theorem test_shift_example :
    sentBy 0x26A8118000000000 1 0 [some 0x80F0407F] [some 0x08030201] [] = [[some 0xFFFE103F]] ∧
    sentBy 0x25A8118000000000 1 0 [some 0x80F0407F] [some 0x08030201] [] = [[some 0x001E103F]] := by decide

/-- 1.0 + 2^−8 in bf16x2 lies halfway: rne, rtz and rdn give 1.0, rup and rna 1.0078125, each with NX (R315). -/
theorem test_add_halfway :
    sentBy 0x1068118000000000 1 0 [some 0x3F80] [some 0x3B80] [] = [[some 0x3F80]] ∧
    sentBy 0x1068118010000000 1 0 [some 0x3F80] [some 0x3B80] [] = [[some 0x3F81]] ∧
    sentBy 0x1068118020000000 1 0 [some 0x3F80] [some 0x3B80] [] = [[some 0x3F81]] ∧
    flagsBy 0x1068118000000000 [some 0x3F80] [some 0x3B80] [] = 1 := by decide

/-- The estimate of 1/3 under R386, and the Newton step of R374 that rounds it correctly. -/
theorem test_rcp_of_three :
    sentBy 0x3148118000000000 1 0 [some 0x40400000] [] [] = [[some 0x3EAAAA00]] ∧
    sentBy 0x3348118000000000 1 0 [some 0x40400000] [some 0x3EAAAA00] [] = [[some 0x3EAAAAAB]] := by decide

/-- The worked element of R46 and R383: code 14 under s = 0.75 and c = 3. -/
theorem test_qdec_example :
    sentBy 0x4368118000300000 1 0 [some 0x7E000000] [some 0x3F400000] [some 3] = [[some 0x00003C0C]] := by decide

/-- The worked group of R398: 10, 20, 30, 40 under xor and up with d = 1. -/
theorem test_shfl_example :
    sentBy 0x5028118000104100 4 0 [some 10, some 20, some 30, some 40] [] [] = [[some 20, some 10, some 40, some 30]] ∧
    sentBy 0x5028118000204100 4 0 [some 10, some 20, some 30, some 40] [] [] = [[none, some 10, some 20, some 30]] := by decide

/-- The worked lane of R342: (5, −3, 7, invalid) filled with 0. -/
theorem test_fill_example :
    sentBy 0x08A8118000000000 1 3 [some 0x0007FD05] [some 0] [] = [[some 0x0007FD05]] := by decide

/-- MOVI with the pattern of 1.5 (R368). -/
theorem test_movi_float : sentBy 0x0548118007F80000 1 0 [some 9] [] [] = [[some 0x3FC00000]] := by decide

/-- AND with 0 gates a present lane and leaves an empty one (R316); the immediate of R84 is sign-extended (R204). -/
theorem test_immediates :
    sentBy 0x2028118000000000 2 0 [some 5, none] [some 0, some 0] [] = [[some 0, none]] ∧
    Image.immOf (imageOf 0x10204980000FFFFD) 0 = 0xFFFFFFFD := by decide

/-- Numbers that the spec works out: source numbers (R20), slices (R143), holes (R24), block headers (R80), triggers (R213). -/
theorem test_worked_numbers :
    sourceNo 3 28 9 = 0xC709 ∧ sourceNo 1 48 32 = 0x4C20 ∧
    sliceOf State.reset 0 0 5 (2 ^ 39 / 128) = 21 ∧ sliceOf State.reset 0 0 5 (2 ^ 39 / 128 + 1) = 20 ∧
    isHole 0x30123456000 = false ∧
    Image.count [0xB1160E2140000000] = 12 ∧ Image.slotField [0xB1160E2140000000] = 14 ∧
    Image.constCount [0xB1160E2140000000] = 2 ∧ Image.lead [0xB1160E2140000000] = 5 ∧
    triggerSlot 0x0C00004000020000 = 3 ∧ triggerList 0x0C00004000020000 = 0x4000020000 := by decide

/-! ### States that meet the hypotheses of the obligations: words, steps, the sequencer -/

theorem test_witness_O1 : (Instr.fire .mpay 3 5 .b).wf = true ∧ encodeGrammar (.fire .mpay 3 5 .b) = some 0x40730015 := by decide

theorem test_witness_O1_block :
    (Instr.add (goodXA .i32)).wf = true ∧ encodeBlock (.add (goodXA .i32)) = some 0x102C018000000000 := by decide

theorem test_witness_O2 :
    decodeGrammar 0x40730015 = .ok (.fire .mpay 3 5 .b) ∧ decodeBlock 0x102C018000000000 = .ok (.add (goodXA .i32)) := by decide

/-- The sequencer's word and its recovery loop, an element's word, an event, and the open turn. -/
theorem test_witness_O4 :
    (let s := State.reset.withFetchWord 32 0x20000123
     let v := serving (noteWaits { s with agenda := [] } 0 8) 0 0 0
     s.stage = 4 ∧ s.agenda = [.sequencer 0 0] ∧ sequencerPick (noteWaits { s with agenda := [] } 0 8) 0 = some 0 ∧
     v.here.seq.recov = false ∧ decodeGrammar (gmemAt v v.focus.place v.here.seq.pc.toNat) = .ok (.jmpn 0x123)) ∧
    (let s := State.reset.withFetchWord 64 0x102C018000000000
     let v := { s with agenda := [], focus := ⟨0, 0, 0, 0, 0, 1⟩ }
     s.stage = 4 ∧ s.agenda = [.element 0 0 0] ∧ elementPick { s with agenda := [] } 0 0 = some (0, 0, 0, 1) ∧
     decodeBlock (Image.code v.here.image 0) = .ok (.add (goodXA .i32))) ∧
    isEvent (.frameCommit 0 0 0) = true ∧ State.reset.agenda = [] ∧ State.reset.acted ≤ (sourceNo 0 0 0).toNat ∧
    eventSource (.almanacCorrection 0) ≠ none ∧ eventSource (.barEpisodeFill 0) = none ∧
    turnSource (.sequencer 0 1) = some (sourceNo 0 1 16).toNat ∧ (sourceNo 0 1 16).toNat < (sourceNo 0 2 16).toNat := by decide +kernel

/-- A context in its recovery loop is served as such. -/
theorem test_witness_O4_recovery :
    let s := State.reset.withFetchWord 32 0x20000123
    let s := { s.setCtx 0 { s.ctx 0 with seq := { (s.ctx 0).seq with recov := true } } with agenda := [] }
    sequencerPick (noteWaits s 0 8) 0 = some 0 ∧ (serving (noteWaits s 0 8) 0 0 0).here.seq.recov = true := by decide

theorem test_witness_O7 :
    let s : State := { agenda := [.wait 1], mem := [⟨5, 1⟩], tiles := [(3, { scratch := [⟨0, 7⟩] })] }
    Memory.wf s.mem ∧ Memory.wf s.hostMem ∧ (∀ e ∈ s.tiles, Memory.wf e.2.scratch) ∧ s.storage = none ∧ s.stage.toNat ≤ 5 ∧
      s.copies.length = 4 ∧ step s = .next (passTime { s with agenda := [] } 1) :=
  ⟨by decide, by decide, by decide, rfl, by decide, rfl, rfl⟩

theorem test_witness_O8 : Memory.wf [⟨1, 2⟩, ⟨4, 1⟩] := by decide

/-- Context 0 of tile 0 runs a grammar; these tokens wait on its lead channel 0. -/
def seqState (q : List Token) (x : Seq) : State :=
  { stage := 4, ctxs := [(0, { active := true, image := [0], grammar := some { len := 4096 }, seq := x })]
    ins := [(0, { queue := q, sink := .lead 0 })] }

def aMark : Token := .mark 0 .er 9
def anEos : Token := .mark 0 .eos 0
def someData : Token := .data 0 0 3 5 0 [some 10, none, some 30]

theorem test_witness_O9 :
    let s := seqState [aMark] {}
    let d := seqState [someData] {}
    (s.inc (leadEnd s)).queue = [aMark] ∧ SelMeets (.one .er) aMark ∧ SelMeets .any aMark ∧
      (d.inc (leadEnd d)).queue = [someData] ∧ someData.isMark = false := by
  refine ⟨by decide, rfl, trivial, by decide, rfl⟩

theorem test_witness_O9_branches :
    let s := (seqState [aMark] { stack := [{ ret := 5 }, {}] }).setTile 0 { gmem := [(0, 0x00070006)] }
    (s.inc (leadEnd s)).queue = [aMark] ∧ LookMeets .any aMark ∧ ¬ LookMeets .data aMark ∧
      swmLabel (gmemAt s (servedPlace s)) 0 aMark.cls = some 7 ∧ s.here.seq.stack.length ≠ 64 ∧
      s.here.seq.stack = { ret := 5 } :: {} :: [] := by
  refine ⟨by decide, trivial, id, by decide, by decide, by decide⟩

/-- All three lanes find frames; with a cap of 2 the tail waits. -/
theorem test_witness_O10 :
    let s := seqState [someData] {}
    let t := s.setCtx 0 { s.ctx 0 with floor := 0x0020000000000001 }
    (s.inc (leadEnd s)).queue = [.data 0 0 3 5 0 [some 10, none, some 30]] ∧
      (allocateUpTo s s.focus.ctxId s.here.seq 3 0).2 = 3 ∧ s.here.frames = [] ∧
      (allocateUpTo t t.focus.ctxId t.here.seq 3 0).2 = 2 ∧ t.here.frames = [] ∧ leadEnd t = leadEnd s := by decide +kernel

theorem test_witness_O11 :
    let s := seqState [aMark] {}
    mayAllocate s (s.focus.ctxId / 8) (s.focus.ctxId % 8) (s.here.seq.stack.length - 1) = true ∧ s.here.frames = [] := by decide

theorem test_witness_O12 :
    let s := seqState [anEos] {}
    let t := s.setCtx 0 { s.ctx 0 with ahead := 3, chead := 1 }
    let u := seqState [anEos] { closing := true }
    s.here.out.length < s.here.quota ∧ (s.ctx (s.focus.ctxId / 8 * 8 + 7)).active = false ∧ (s.inc (leadEnd s)).queue = [anEos] ∧
      s.here.seq.closing = false ∧ s.here.chead = s.here.ahead ∧ t.here.chead ≠ t.here.ahead ∧ t.here.seq.closing = false ∧
      u.here.seq.closing = true ∧ u.here.chead = u.here.ahead := by decide

/-- Each word that can mismatch does; a call at depth 63; a return at depth 0. -/
theorem test_witness_O13 :
    let s := seqState [aMark] {}
    (s.inc (leadEnd s)).queue = [aMark] ∧ mismatchOf s aMark (.mtch (.one .eg)) = some (1, 2) ∧
      mismatchOf s someData (.mtch .any) = some (1, 15) ∧ mismatchOf (s.setTile 0 { gmem := [(0, 0xFFFFFFFF), (7, 0xFFFFFFFF)] }) aMark (.swm 0) = some (2, 0) ∧
      mismatchOf s aMark (.take 0 .a) = some (3, 0) ∧ mismatchOf s aMark .takeDrop = some (3, 0) ∧
      mismatchOf s aMark .acpt = some (4, 0) ∧ mismatchOf s aMark (.acptRestart 0) = some (4, 0) ∧
      (∀ e ∈ s.here.seq.stack, e.rv = false) ∧ s.here.seq.stack.length = 1 := by decide

theorem test_witness_O13_deep :
    let d := seqState [someData] { stack := List.replicate 64 {} }
    (d.inc (leadEnd d)).queue = [someData] ∧ d.here.seq.stack.length = 64 := ⟨rfl, List.length_replicate⟩

theorem test_witness_O14 :
    let s := seqState [aMark] { stack := [{}, { rv := true, rlev := 1, rlbl := 9 }, {}] }
    let t := seqState [aMark] { stack := [{ rv := true, rlev := 1, rlbl := 9 }, {}], recov := true }
    mismatchOf s aMark (.mtch (.one .eg)) = some (1, 2) ∧ (s.inc (leadEnd s)).queue = [aMark] ∧
      s.here.seq.stack = [({} : StackEntry)] ++ ({ rv := true, rlev := 1, rlbl := 9 } : StackEntry) :: [({} : StackEntry)] ∧
      (t.inc (leadEnd t)).queue = [aMark] ∧ t.here.seq.recov = true ∧ t.here.seq.dcnt ≠ 0xFFFFFFFF ∧
      (({ rv := true, rlev := 1, rlbl := 9 } : StackEntry).rlev.toNat ≤ markLevel .er) := by decide

/-! ### Firings that compute -/

def addWord : W64 := 0x1020118000000000
def xaTo (ta : Target) (ty : Fmt) : XA := { goodXA ty with d := ⟨ta, .nowhere⟩ }

theorem test_witness_O18 :
    let s := firing addWord 1 [some 1] [some 2] []
    computes (.add (goodXA .i32)) = some (anyDst, 2, 2, resAdd (goodXA .i32)) ∧
      (trapEnables s.here.fpmode &&& (resAdd (goodXA .i32) (operands s)).flags) = 0 := ⟨rfl, by decide⟩

theorem test_witness_O19 :
    let s := firing addWord 1 [some 1] [some 2] []
    (computes (.add (goodXA .i32))).isSome ∧ (∃ t, exec (.add (goodXA .i32)) s = .next t) ∧ (∃ t, exec .drop s = .next t) ∧
      (∃ t, exec (.nop anyDst) s = .next t) ∧ (∃ t, exec (.hget anyDst .i32 0 false 0) s = .next t) ∧
      ∃ t, exec (.emit anyDst .er false 0) s = .next t :=
  ⟨rfl, ⟨_, rfl⟩, ⟨_, rfl⟩, ⟨_, rfl⟩, ⟨_, rfl⟩, ⟨_, rfl⟩⟩

theorem test_witness_O20 :
    let s := firing addWord 2 [some 1, some 3] [some 2, none] []
    (trapEnables s.here.fpmode &&& (resAdd (goodXA .i32) (operands s)).flags) = 0 ∧ s.focus.ins < 128 ∧
      (∃ t, exec (.add (goodXA .i32)) s = .next t) ∧ s.focus.frame ≤ 1 ∧ 1 < s.focus.frame + s.focus.k ∧ 1 < s.here.ahead ∧
      (s.here.find 1).isSome := ⟨by decide, by decide, ⟨_, rfl⟩, by decide, by decide, by decide, by decide⟩

/-- Port b of instruction 5 is free in frame 0, taken in frame 1, and the instruction has fired in frame 2. -/
theorem test_witness_O21 :
    let x := xaTo (.same 5 .b) .i32
    let c := ctxOf addWord 3 0 [some 1, some 2, some 3] [some 4, some 5, some 6] []
    let c := { c with frames := c.frames.map fun f =>
      if f.num = 1 then { f with slots := f.slots ++ [⟨5, .b, some 9, true, 2, 0, 0⟩] } else if f.num = 2 then { f with fired := 32 } else f }
    let s : State := { focus := { k := 3 }, ctxs := [(0, c)] }
    computes (.add x) = some (x.d, 2, 2, resAdd x) ∧ x.d = ⟨.same 5 .b, .nowhere⟩ ∧
      (trapEnables s.here.fpmode &&& (resAdd x (operands s)).flags) = 0 ∧ (5 : BitVec 7).toNat ≠ s.focus.ins ∧
      s.focus.frame + s.focus.k ≤ s.here.ahead ∧ (∃ t, exec (.add x) s = .next t) ∧ (resAdd x (operands s)).ta.lanes.length = 3 ∧
      ((s.here.find 0).any fun fr => !fr.fired.getLsbD 5 && (slotAt fr 5 .b).isNone) = true ∧
      ((s.here.find 1).any fun fr => (slotAt fr 5 .b).isSome) = true ∧ ((s.here.find 2).any fun fr => fr.fired.getLsbD 5) = true :=
  ⟨rfl, rfl, by decide, by decide, by decide, ⟨_, rfl⟩, by decide, by decide, by decide, by decide⟩

theorem test_witness_O22 :
    let s := firing addWord 1 [some 1] [some 2] []
    computes (.add (xaTo (.chan 2) .i32)) = some (⟨.chan 2, .nowhere⟩, 2, 2, resAdd (xaTo (.chan 2) .i32)) ∧
      computes (.add (xaTo .seq .n32)) = some (⟨.seq, .nowhere⟩, 3, 3, resAdd (xaTo .seq .n32)) ∧
      computes (.add (goodXA .i32)) = some (⟨.nowhere, .nowhere⟩, 2, 2, resAdd (goodXA .i32)) ∧
      (∀ ty, ty = Fmt.i32 ∨ ty = Fmt.n32 → (trapEnables s.here.fpmode &&& (resAdd (goodXA ty) (operands s)).flags) = 0) ∧
      s.focus.frame + s.focus.k ≤ s.here.ahead ∧ (∃ t, exec (.add (xaTo (.chan 2) .i32)) s = .next t) ∧
      ∃ t, exec (.add (xaTo .seq .n32)) s = .next t :=
  ⟨rfl, rfl, rfl, by rintro ty (rfl | rfl) <;> decide, by decide, ⟨_, rfl⟩, ⟨_, rfl⟩⟩

def divWord : W64 := 0x1420118000000000

/-- A division by zero with teDZ set. -/
def dividing (fpmode b : W32) : State :=
  { focus := {}, ctxs := [(0, { ctxOf divWord 1 0 [some 10] [some b] [] with fpmode := fpmode })] }

theorem test_witness_O23 :
    computes (.div (goodXA .i32)) = some (anyDst, 2, 2, resDiv (goodXA .i32)) ∧
      (trapEnables (dividing 0x40 0).here.fpmode &&& (resDiv (goodXA .i32) (operands (dividing 0x40 0))).flags) ≠ 0 :=
  ⟨rfl, by decide⟩

/-- The count of leading zeros of a 4-bit element. -/
theorem test_witness_O24 :
    (goodXA .i4x8).ty.isInt = true ∧
      ∃ clz : Nat → Nat, ∀ v, v < 2 ^ elemWidth .i4x8 → clz v ≤ elemWidth .i4x8 ∧
        (∀ q, elemWidth .i4x8 - clz v ≤ q → v.testBit q = false) ∧
        (clz v < elemWidth .i4x8 → v.testBit (elemWidth .i4x8 - 1 - clz v) = true) := by
  refine ⟨rfl, fun v => if v = 0 then 4 else 3 - v.log2, fun v hv => ?_⟩
  have h : ∀ v : Fin 16, (if v.1 = 0 then 4 else 3 - v.1.log2) ≤ 4 ∧ v.1 < 2 ^ (4 - (if v.1 = 0 then 4 else 3 - v.1.log2)) ∧
      ((if v.1 = 0 then 4 else 3 - v.1.log2) < 4 → v.1.testBit (4 - 1 - (if v.1 = 0 then 4 else 3 - v.1.log2)) = true) := by
    decide +kernel
  obtain ⟨h1, h2, h3⟩ := h ⟨v, hv⟩
  exact ⟨h1, fun q hq => Nat.testBit_lt_two_pow (lt_of_lt_of_le h2 (Nat.pow_le_pow_right (by decide) hq)), h3⟩

theorem test_witness_O25 : (goodXA .i32).ty.isInt = true ∧ (goodXA .i4x8).ty.isInt = true := by decide

/-- Both kinds of divisor, with and without the trap. -/
theorem test_witness_O26 :
    (goodXA .i32).ty.isInt = true ∧ DividesByZero (goodXA .i32) (operands (dividing 0 0)) ∧
      ¬ DividesByZero (goodXA .i32) (operands (dividing 0 2)) ∧ (trapEnables (dividing 0 0).here.fpmode).getLsbD 3 = false ∧
      (trapEnables (dividing 0x40 0).here.fpmode).getLsbD 3 = true ∧ DividesByZero (goodXA .i32) (operands (dividing 0x40 0)) := by
  refine ⟨rfl, ⟨0, by decide, 10, 0, 0, by decide, 0, by decide, by decide⟩, ?_, by decide, by decide,
    ⟨0, by decide, 10, 0, 0, by decide, 0, by decide, by decide⟩⟩
  rintro ⟨j, hj, a, b, c, h, e, he, h0⟩
  have hk : (operands (dividing 0 2)).k = 1 := by decide
  have hj0 : j = 0 := by omega
  subst hj0
  have hp : emptyPolicy (goodXA .i32).empty (replLane (goodXA .i32).ty ((goodXA .i32).imm.extractLsb' 0 8))
      (Opnds.lane (operands (dividing 0 2)).a 0) (Opnds.lane (operands (dividing 0 2)).b 0)
      (Opnds.lane (operands (dividing 0 2)).c 0) = .compute 10 2 0 := by decide
  rw [hp] at h
  cases h
  have he0 : e = 0 := by
    have h1 : Opnds.validAt (operands (dividing 0 2)) (goodXA .i32).ty.epl 0 = 1 := by decide
    omega
  subst he0
  exact absurd h0 (by decide)

theorem test_witness_O27 : (goodXA .n8x4).ty.isInt = true ∧ Fmt.signed .n8x4 = false ∧ Fmt.signed .i8x4 = true := by decide

def addF32 (u v : W32) : State := firing 0x1040118000000000 1 [some u] [some v] []
def negF32 (u : W32) : State := firing 0x1940118000000000 1 [some u] [] []

theorem test_witness_O28 :
    F32Pair (addF32 0x7FC00000 1) 0x7FC00000 1 ∧ (f32Nan 0x7FC00000 ∧ ¬ (f32Signalling 0x7FC00000 ∨ f32Signalling 1)) ∧
      F32Pair (addF32 1 0x7F800001) 1 0x7F800001 ∧ f32Signalling 0x7F800001 ∧
      F32Pair (addF32 0x7F800000 0xFF800000) 0x7F800000 0xFF800000 ∧ F32Pair (addF32 0x7F800000 0x7F800000) 0x7F800000 0x7F800000 ∧
      F32Pair (addF32 0x80000000 0x7F800000) 0x80000000 0x7F800000 ∧ trapEnables (addF32 0 0).here.fpmode = 0 ∧
      F32One (negF32 0x3F800000) 0x3F800000 ∧ F32One (negF32 0xFF800000) 0xFF800000 ∧ F32One (negF32 0x7FC00000) 0x7FC00000 ∧
      F32One (negF32 0xFF800001) 0xFF800001 ∧ f32Signalling 0xFF800001 := by
  unfold F32Pair F32One f32Signalling f32Nan
  refine ⟨?_, ?_, ?_, ?_, ?_, ?_, ?_, ?_, ?_, ?_, ?_, ?_, ?_⟩ <;> decide

theorem test_witness_O29 :
    let s := firing 0x0A2C018000000000 3 [some 7, none, some 9] [] []
    s.here.holds.length = 16 ∧ (∀ h ∈ s.here.holds, h.length = 32) ∧ s.focus.k ≤ 32 ∧ (operands s).a = [some 7, none, some 9] := by
  decide +kernel


/-! ### Accesses to memory -/

/-- Instruction 0 is `i`. -/
def placed (i : Instr) : W64 := (encodeBlock i).getD 0

/-- A firing of `i` whose base register 0 names the scratchpad. -/
def atScratch (i : Instr) (k : Nat) (a b c : List Lane) : State :=
  let s := firing (placed i) k a b c
  s.setCtx 0 { s.ctx 0 with bases := [0xFFFFFFFFE00000, 0xFFFFFFFFE00000, 0, 0, 0, 0, 0, 0] }

def scratchHolds (s : State) (m : Memory) : State := s.setTile 0 { s.tile 0 with scratch := m }

/-- Two lanes of a load name scratchpad words; the third is empty. -/
theorem test_witness_O30 :
    let s := scratchHolds (atScratch (.ld .n32 goodXM) 3 [some 1, none, some 5] [] []) [(4, 9)]
    (∃ s' l, ldLanes s (viaHere s .die) goodXM .n32 (operands s) (List.range s.focus.k) = (s', .ok l)) ∧
      (goodXM.order = .plain) ∧ (operands s).a = [some 1, none, some 5] ∧
      ScratchWord s goodXM 1 (effAddr s goodXM 1 % 2 ^ 21) ∧ ScratchWord s goodXM 5 (effAddr s goodXM 5 % 2 ^ 21) := by
  refine ⟨⟨_, _, rfl⟩, rfl, by decide, ?_, ?_⟩ <;> unfold ScratchWord <;> decide

/-- A line of the L2 for lines at virtual address 0 of address space 0. -/
def zeroLine : Line :=
  { asid := 0, line := 0, data := List.replicate 128 0, poison := 0, dirty := 0, scope := .package, w := true, slice := 0, way := 0, pa := 0 }

theorem test_witness_O31 :
    let s := atScratch (.st .n32 goodXM) 1 [some 1] [some 7] []
    let u := { firing (placed (.st .n32 goodXM)) 1 [some 1] [some 7] [] with l2 := [zeroLine] }
    (operands s).a = [some 1] ∧ (operands s).b = [some 7] ∧ portCount s.here s.focus.frame 1 s.focus.ins .b = 0 ∧
      (∃ off, ScratchWord s goodXM 1 off) ∧ (∃ t, exec (.st .n32 goodXM) s = .next t) ∧ (operands u).a = [some 1] ∧
      (operands u).b = [some 7] ∧ portCount u.here u.focus.frame 1 u.focus.ins .b = 0 ∧ effAddr u goodXM 1 = 4 ∧
      isWindow (effAddr u goodXM 1) = false ∧ (u.part u.here.part).bound = false ∧ l1Steps (u.tile u.focus.place) = 0 ∧
      l2Find u (u.part u.here.part).asid (lineOf (effAddr u goodXM 1)) = some zeroLine ∧ zeroLine.w = true ∧
      zeroLine.poison.getLsbD (4 % 128 / 8) = false := by
  refine ⟨by decide, by decide, by decide, ⟨4, ?_⟩, ⟨_, rfl⟩, ?_, ?_, ?_, ?_, ?_, ?_, ?_, ?_, ?_, ?_⟩
  · unfold ScratchWord; decide
  all_goals decide +kernel

theorem test_witness_O32 :
    let s := atScratch (.cas .n32 goodXM) 1 [some 1] [some 7] [some 9]
    (operands s).a = [some 1] ∧ (operands s).b = [some 7] ∧ (operands s).c = [some 9] ∧ FreshFiring s ∧ ScratchWord s goodXM 1 4 ∧
      (trapEnables s.here.fpmode &&& (atomNew .n32 goodXM.aop (scratchWord s 4) 7).2) = 0 := by
  unfold FreshFiring ScratchWord
  decide

theorem test_witness_O33 :
    let s := { firing (placed (.disc goodXM)) 1 [some 0] [] [] with tlbs := [(0, [⟨0, 0, 16, 0, false, true⟩])] }
    FreshFiring s ∧ (∃ s', rangeLanes s (viaHere s .die) .disc goodXM (operands s) none (List.range s.focus.k) = (s', none)) ∧
      (∃ s', rangeLanes s (viaHere s .die) .wbk goodXM (operands s) none (List.range s.focus.k) = (s', none)) ∧
      (operands s).a = [some 0] ∧ goodXM.aop = 0 ∧ effAddr s goodXM 0 = 0 ∧ isWindow (effAddr s goodXM 0) = false := by
  refine ⟨?_, ⟨_, rfl⟩, ⟨_, rfl⟩, ?_, ?_, ?_, ?_⟩
  · unfold FreshFiring; decide
  all_goals decide

/-- The pool's descriptors lie from 0x1000 in the scratchpad; slot 0 names descriptor 1, a page with one sharer and no row. -/
def kvState : State :=
  let s := scratchHolds (atScratch (.kvap .n32 goodXM) 1 [some 0] [some 1] [])
    [(0, 1), (0x1012, 0xE1), (0x1013, 0xFF), (0x1014, 0xFF), (0x1015, 0xFF), (0x1016, 0xFF), (0x101E, 1)]
  s.setPart 0 { s.part 0 with kvpool := 0xFFFFFFFFE01000 }

/-- Whether an access has gone through. -/
def went (r : Acc Unit) : Bool := match r.2 with
  | .ok _ => true
  | .error _ => false

theorem went_spec (r : Acc Unit) (h : went r = true) : ∃ s', r = (s', .ok ()) := by
  obtain ⟨s, e | u⟩ := r
  · cases h
  · exact ⟨s, rfl⟩

theorem test_witness_O34 :
    let s := kvState
    let v := viaSlice s .die
    (operands s).a = [some 0] ∧ (operands s).b = [some 1] ∧ FreshFiring s ∧
      (∃ s' st p, kvapLane s v goodXM 0 1 = (s', .ok (st, p))) ∧ (∃ s' st p, kvfkLane s v goodXM 0 1 = (s', .ok (st, p))) ∧
      (let d := Desc.make 0 0xFFFFFFFFE10000 0 1 0 5
       (d.withFill 4096).capacity ≤ (d.withFill 4096).fill ∧ d.fill < d.capacity ∧ d.count < 2 ∧
         ∃ s', checkRuns s v [(d.page + d.fill * d.rowSize, (List.replicate 16 (0 : Byte)).length), (descAddr s v.part 1, 16)] =
           (s', .ok ())) := by
  refine ⟨by decide, by decide, ?_, ⟨_, _, _, rfl⟩, ⟨_, _, _, rfl⟩, by decide +kernel, by decide +kernel, by decide +kernel, went_spec _ (by decide +kernel)⟩
  unfold FreshFiring; decide

/-- Base register 1 is not aligned, base register 2 names an address past the scratchpad, base register 3 an unmapped page. -/
theorem test_witness_O35 :
    let s := firing (placed (.cas .n32 goodXM)) 1 [some 0] [some 0] [some 0]
    let s := s.setCtx 0 { s.ctx 0 with bases := [0, 1, 0xFFFFFFFFFFFF00, 0x10000, 0, 0, 0, 0] }
    let x (n : BitVec 3) : XM := { goodXM with base := n }
    (operands s).a = [some 0] ∧ (operands s).b = [some 0] ∧ (operands s).c = [some 0] ∧ FreshFiring s ∧
      effAddr s (x 1) 0 % 4 ≠ 0 ∧ effAddr s (x 2) 0 % 4 = 0 ∧ isWindow (effAddr s (x 2) 0) = true ∧
      scratchSize (s.tile s.focus.place) ≤ effAddr s (x 2) 0 % 2 ^ 21 ∧ effAddr s (x 3) 0 % 4 = 0 ∧
      isWindow (effAddr s (x 3) 0) = false ∧ (s.part s.here.part).bound = false ∧ l1Steps (s.tile s.focus.place) = 0 ∧
      l2Find s 0 (lineOf (effAddr s (x 3) 0)) = none ∧ s.tlbs = [] ∧ walk s 0 (effAddr s (x 3) 0) = none := by
  unfold FreshFiring
  decide

theorem test_witness_O36_opens :
    let i : Instr := .bar anyDst 2 .die 0
    let s := firing (placed i) 1 [some 3] [] []
    let s1 := releaseAt s (viaHere s .die) .die
    (operands (firing (placed i) 1 [none] [] [])).a.any Option.isSome = false ∧ (operands s).a = [some 3] ∧ FreshFiring s ∧
      s.here.inflight = [] ∧ s1.episodes = s.episodes ∧ s1.nextEpisode = s.nextEpisode ∧ s1.here = s.here ∧ s1.focus = s.focus ∧
      s.episodes = [] := by
  unfold FreshFiring
  decide

theorem test_witness_O36_fills :
    let s := firing (placed (.bar anyDst 2 .die 0)) 1 [some 3] [] []
    let w : Inflight := ⟨0, 0, 1, .barrier []⟩
    let s := { s.setCtx 0 { s.ctx 0 with inflight := [w] } with episodes := [⟨7, 0, 2, .die, 2000, 1, [(0, 0, 0, 0)], 0⟩] }
    (s.episodes.find? (fun y => y.id = 7)).isSome ∧ inflightOf (s.ctx 0) 0 0 = some w ∧
      Image.instr (s.ctx 0).image 0 = some (.bar anyDst 2 .die 0) ∧ barrierDone (portLanes (s.ctx 0) 0 w.k 0 .a) [0] = true := by
  decide

/-! ### Islands and engines -/

theorem test_witness_O37 :
    let s := firing (placed (.gath anyDst 0 .n32 5)) 1 [some 0x10000] [some 0x10000] []
    let x := s.island s.focus.place
    x.latch.length = 4 ∧ (x.latch.getD 1 {}).loading = false ∧ (operands s).a.any Option.isSome = true ∧ baseVa s 0 % 4 = 0 ∧
      (∀ w ∈ s.here.inflight, ¬ (w.ins = s.focus.ins ∧ w.frame = s.focus.frame)) ∧
      (∀ r ∈ s.here.resumes, ¬ (r.1 = s.focus.ins ∧ r.2.1 = s.focus.frame)) ∧
      (operands s).a = [some 0x10000] ∧ (operands s).b = [some 0x10000] ∧ (0x10000 : W32).extractLsb' 14 2 = 0 ∧
      (0x10000 : W32).extractLsb' 16 16 ≠ 0 := by decide

/-- Island 0 of die 0 with rows, gather sets and accepted loads. -/
def withIsland (x : Island) : State := { islands := [(0, x)] }

def fullRow : IslandRow := { key := 5, fmt := Fmt.bf16x2.code, lanes := List.replicate 64 (some 0x3F803F80), valid := List.replicate 64 2 }
def boundLatch : LatchTile := { fmt := some .bf16x2, bind := some (5, 0) }

theorem test_witness_O38_issues :
    let s := withIsland { rows := [fullRow], latch := [boundLatch, {}, {}, {}] }
    let x := (islandPrepare s 0).island 0
    islandPlace 0 0 = 0 ∧ (s.island 0).engine = false ∧ (s.island 0).frozen = false ∧ x.rows = [fullRow] ∧ fullRow.mark = none ∧
      fullRow.lanes.any Option.isSome = true ∧ 64 * (fullRow.next + 1) ≤ fullRow.lanes.length ∧ fullRow.complete = false ∧
      boundTile x fullRow.key fullRow.next = some boundLatch ∧ scalesHere x fullRow fullRow.next = true := by
  refine ⟨?_, ?_, ?_, ?_, ?_, ?_, ?_, ?_, ?_, ?_⟩ <;> decide +kernel

theorem test_witness_O38_passes :
    let s := withIsland { rows := [{ mark := some (.eg, 3), complete := true }] }
    let x := (islandPrepare s 0).island 0
    (s.island 0).engine = false ∧ (s.island 0).frozen = false ∧ x.rows = [{ mark := some (.eg, 3), complete := true }] ∧
      x.out.length < 8 ∧ MarkClass.eg ≠ .eos := by
  refine ⟨?_, ?_, ?_, ?_, ?_⟩ <;> decide +kernel

/-- A fill that WLOAD has begun, and a set whose only row is padded. -/
theorem test_witness_O38_loads :
    let w : Inflight := ⟨0, 0, 1, .weights 1 0⟩
    let s := firing (placed (.wload anyDst 1 0 .bf16x2 0 0)) 1 [some 1] [] []
    let s := { s.setCtx 0 { s.ctx 0 with inflight := [w] } with islands := [(0, { loads := [(0, 0, 0)] })] }
    let g : GatherSet := { ctx := 0, ins := 0, frame := 0, lane := 0, chunks := 1, fmt := 2, key := 0, n := 0, total := 1, ivec := 0, table := 0 }
    let u := withIsland { sets := [g] }
    (s.island 0).loads = [(0, 0, 0)] ∧ (s.ctx 0).frozen = false ∧ inflightOf (s.ctx 0) 0 0 = some w ∧
      Image.instr (s.ctx 0).image 0 = some (.wload anyDst 1 0 .bf16x2 0 0) ∧ (u.island 0).sets = [g] ∧
      (u.island 0).frozen = false ∧ (u.ctx g.ctx).frozen = false ∧ stoppedAt (u.ctx g.ctx) g.ins g.frame = false ∧
      rowCount (u.island 0) < 16 ∧ g.next < g.total ∧ g.n ≤ g.next ∧ g.next + 1 = g.total := by
  refine ⟨?_, ?_, ?_, ?_, ?_, ?_, ?_, ?_, ?_, ?_, ?_, ?_⟩ <;> decide +kernel

/-- Islands 0 and 1 of die 0 stand in engine mode and belong to partition 0; the ring has one member, this one; a block of one row of
zeros lies at the beginning of the scratchpad. -/
def engineState (g : Engine) (i : Instr) : State :=
  { atScratch i 1 [some 0] [] [] with
    islands := [(0, { engine := true }), (1, { engine := true })], owners := [(0, 0), (1, 0)]
    ringNext := [(0, 0x8000000000000000)], engines := [(0, g)] }

theorem test_witness_O39_attn :
    let s := engineState { latched := true } (.attn anyDst 0 true 0)
    let s0 := s.setEngine 0 { getEngine s 0 0 with jobs := [(0, 0, 0)] }
    let va := (((baseVa s 0 : Int) + (0 : W32).toInt * 128) % 2 ^ 56).toNat
    (operands s).a = [some 0] ∧ s.here.resumes = [] ∧ (getEngine s 0 0).jobs = [] ∧ (getEngine s 0 0).rot = none ∧
      ownsEngine s s.here.part 0 0 = true ∧ engaged s 0 0 = true ∧ va % 128 = 0 ∧ headerOk 0 = true ∧
      ∃ s1, readHeader s0 (viaRing s 0) va = (s1, .ok 0) ∧
        ∃ s2, attnRows s1 ⟨0, 0, anyDst, true, 0⟩ va 0 0 (headerRows 0) = (s2, none) ∧ (getEngine s2 0 0).latched = true := by
  refine ⟨by decide, by decide, by decide, by decide, by decide, by decide, by decide, by decide, _, rfl, _, rfl, ?_⟩
  decide +kernel

theorem test_witness_O39_ring :
    let s := engineState { held := [2] } (.rota anyDst 0 0 false 0)
    (operands s).a = [some 0] ∧ s.here.resumes = [] ∧ ownsEngine s s.here.part 0 0 = true ∧ ringEn (ringReg s 0) = true ∧
      (0 : BitVec 10).toNat + 1 ≤ ringCount (ringReg s 0) ∧ engaged s 0 0 = true ∧ (getEngine s 0 0).rot = none ∧
      baseVa s 0 % 128 = 0 ∧ (0 : BitVec 3).toNat < slotCount s 0 0 ∧ slotFree ((getEngine s 0 0).slots.getD 0 {}) = true ∧
      (getEngine s 0 0).held = [2] ∧
      ∃ s1, readHeader s (viaRing s 0) (baseVa s 0) = (s1, .ok 0) ∧ headerOk 0 = true ∧ s1.focus = s.focus ∧
        (sendRows (sendItem (s1.setEngine 0 { getEngine s1 0 0 with held := [] }) 0 0 2 (.header 0)) 0 (baseVa s 0) 2 0
          (headerRows 0)).2 = none := by
  refine ⟨by decide, by decide, by decide, by decide, by decide, by decide, by decide, by decide, by decide, by decide, by decide,
    _, rfl, by decide, rfl, ?_⟩
  decide +kernel

/-- Channel 4 of tile 0 feeds port 0 of the unit `u` of that tile. -/
def feeding (u : Nat) (q : List Token) : SMap InChan := [(4, { desc := 0x8000000000000000, queue := q, sink := .unit u 0 })]

theorem test_witness_O40_slots :
    let s : State := { engines := [(0, { arriving := [(1, .header 7)], grants := [3] })] }
    let g := getEngine s 0 0
    let d : State := { islands := [(0, { engine := true }), (1, { engine := true })], ins := feeding 32 [someData] }
    let m : State := { d with ins := feeding 32 [.mark 0 .eg 0] }
    enginePlace 0 0 = 0 ∧ (s.island 0).frozen = false ∧ g.rot = none ∧ g.arriving = [(1, .header 7)] ∧ 1 < g.slots.length ∧ g.grants = [3] ∧
      engaged d 0 0 = true ∧ (d.island 0).frozen = false ∧ (d.island 0).out = [] ∧
      (getEngine d 0 0).jobs = [] ∧ (getEngine d 0 0).latched = false ∧ headOf d 0 32 0 = some (4, someData) ∧ engaged m 0 0 = true ∧
      (m.island 0).frozen = false ∧ (m.island 0).out = [] ∧ headOf m 0 32 0 = some (4, .mark 0 .eg 0) := by
  refine ⟨?_, ?_, ?_, ?_, ?_, ?_, ?_, ?_, ?_, ?_, ?_, ?_, ?_, ?_, ?_, ?_⟩ <;> decide +kernel

/-- The rotation of a ROTA that has applied its last step. -/
def lastStep : Rotation := { ctx := 0, ins := 0, frame := 0, steps := 1, header := 0, chain := false, va := 0, emitting := true }

theorem test_witness_O40_emits :
    let w : Inflight := ⟨0, 0, 1, .rotation 0⟩
    let s := engineState { rot := some lastStep, latched := true } (.rota anyDst 0 0 false 0)
    let s := s.setCtx 0 { s.ctx 0 with inflight := [w] }
    let s1 := endRotation (emitOutput s 0 0 0) 0 0
    (getEngine s 0 0).rot = some lastStep ∧ (getEngine s 0 0).latched = true ∧ rotationStopped s 0 0 lastStep = false ∧
      (s.island 0).frozen = false ∧ (s.ctx 0).frozen = false ∧ inflightOf (s1.ctx 0) 0 0 = some w ∧
      Image.instr (s1.ctx 0).image 0 = some (.rota anyDst 0 0 false 0) := by
  refine ⟨?_, ?_, ?_, ?_, ?_, rfl, rfl⟩ <;> decide +kernel

theorem test_witness_O40_chains :
    let s (l : W64) : State := { tiles := [(0, { chain := [(0, 5, 0)], limit := l })] }
    ((s 0).tile (placeOf 0 0)).chain = [(0, 5, 0)] ∧ (0 : W64).getLsbD 63 = false ∧
      (0x8000000000000003 : W64).getLsbD 63 = true ∧ (0x8000000000000003 : W64).getLsbD 62 = false ∧
      ((0x8000000000000003 : W64).extractLsb' 0 32).toNat < 5 := by decide

/-! ### System instructions -/

def oneLane (i : Instr) (v : W32) : State := firing (placed i) 1 [some v] [] []

theorem test_witness_O41 :
    let s := oneLane (.opset anyDst 20 3) 7
    let u := { s with owners := [(0, 0)], ins := [(3, { desc := 0x0000000800000000, want := 9 })] }
    let old := (u.inc 3).desc
    s.focus.k = 1 ∧ (operands s).a = [some 7] ∧ s.here.resumes = [] ∧ s.here.inflight = [] ∧ (s.unit 20).writes = [] ∧
      (s.island 0).writes = [] ∧ foreignPeer u u.here.part (descWritten old 7) = false ∧
      (descEn old && holdsTokens u 3 false old) = false ∧ descWc old = true ∧ (u.inc 3).words < 7 ∧ 7 < (u.inc 3).want := by
  refine ⟨?_, ?_, ?_, ?_, ?_, ?_, ?_, ?_, ?_, ?_, ?_⟩ <;> decide

theorem test_witness_O42 :
    let s := oneLane (.tres anyDst 5 false 2) 7
    (5 : BitVec 6).toNat < 6 ∧ s.focus.k = 1 ∧ (operands s).a = [some 7] := by decide

/-- Context 1 handles the faults of context 0 and has the record of its firing. -/
theorem test_witness_O43 :
    let s := oneLane (.trap anyDst 5) 7
    let r : Record := ⟨0x0C, 0, 0, 0, 0, 0, 0, 7, 5, 0⟩
    let x : Stop := { record := r, site := .firing 0 0 1 {}, base := some 0, delivered := true }
    let u := (s.setCtx 0 { s.ctx 0 with stops := [x] }).setCtx 1 { answering := some 0 }
    (∃ rest, (operands s).a = some 7 :: rest) ∧ FreshFiring s ∧ s.focus.k = 1 ∧ (s.ctx 1).answering = none ∧
      (u.ctx 1).answering = some 0 ∧ 1 / 8 * 8 + 0 ≠ 1 ∧ (u.ctx 0).stops.find? Stop.delivered = some x ∧
      x.record.code ≠ codeLantern ∧ x.record.code ≠ codeDuplicate ∧ (u.ctx 0).active = true ∧ (u.ctx 0).killed = false := by
  refine ⟨⟨_, rfl⟩, ?_, rfl, rfl, rfl, by decide, by decide, by decide, by decide, rfl, rfl⟩
  unfold FreshFiring; decide

theorem test_witness_O44 :
    let s := oneLane (.snap anyDst 0 false) 0
    let va := (((baseVa s 0 : Int) + (0 : W32).toInt * 4096) % 2 ^ 56).toNat
    (∃ rest, (operands s).a = some 0 :: rest) ∧ s.here.halting = none ∧ s.focus.ins < 128 ∧
      (operands s).a.any Option.isSome = true ∧ s.focus.k = 1 ∧ (operands s).a = [some 0] ∧ s.here.resumes = [] ∧ va % 4096 = 0 :=
  ⟨⟨_, rfl⟩, rfl, by decide, by decide, rfl, by decide, rfl, by decide⟩

theorem test_witness_O45 :
    let s := firing (placed (.swr anyDst 0 false 0 .both .prio)) 1 [some 3] [some 4] []
    let u := oneLane (.swr anyDst 0 false 0 .lo .prio) 3
    s.focus.k = 1 ∧ (operands s).a = [some 3] ∧ (operands s).b = [some 4] ∧ (operands u).a = [some 3] ∧
      SysReg.ways ∈ [SysReg.almanac, .sram, .htab, .ways, .bw, .vcw, .kvpool, .clk, .kvgive, .ringNext, .unmap] := by decide

/-! ### Streamer islands -/

/-- Template 1 of streamer 0 copies 8 bytes within the scratchpad of tile 0 to its offset 0x100; queue 0 and the template are
given to partition 0. -/
def copyTemplate : List W64 := [0xFFFFFFFFE0000000, 0xFFFFFFFFE0010002, 0x0000000100000002, 0x0000000100000001, 1, 0, 0, 0]

def streamState (i : Instr) (x : Streamer) : State :=
  { firing (placed i) 1 [some 0] [some 0] [] with
    streamGrants := [(0, 0, false, 0, 0), (0, 0, true, 1, 0)], streamers := [(0, { x with templates := [(1, copyTemplate)] })] }

def aCopy : Copy :=
  { ctx := 0, ins := 0, frame := 0, launch := 0, part := 0, armed := false, bad := false, tpl := 1, w := copyTemplate, soff := 0, doff := 0
    total := 2, promise := 0 }

theorem test_witness_O46_firings :
    let s := streamState (.cpy anyDst 1 0) {}
    let u := streamState (.wtil anyDst 1 0) {}
    (operands s).a = [some 0] ∧ (operands s).b = [some 0] ∧ s.here.resumes = [] ∧ s.here.inflight = [] ∧ given s 0 0 false 0 s.here.part = true ∧
      given s 0 0 true 1 s.here.part = true ∧ tplBad (tplOf s 0 0 1) = false ∧ (operands u).a = [some 0] ∧
      promiseTime (u.time 0).toNat 0 ≤ (u.time 0).toNat ∧ lacksWords u 0 0 1 u.focus.ctxId (promiseTime (u.time 0).toNat 0) = false ∧
      (u.time 0).toNat < promiseTime (u.time 0).toNat 1 := by
  refine ⟨?_, ?_, ?_, ?_, ?_, ?_, ?_, ?_, ?_, ?_, ?_⟩ <;> decide

/-- A queue that is armed has a token; one word of a copy lands, and one of a copy from an unmapped page cannot. -/
theorem test_witness_O46_copies :
    let t : Token := .data 0 0 3 0 0 [some 4, some 8]
    let s := { streamState (.cpy anyDst 1 0) { queues := [(0, { armed := some (1, 0, 0, 0) })], copies := [(0, aCopy)] } with
      ins := [(queueChan 0 0 0, { queue := [t] })] }
    let lost : Copy := { aCopy with w := 0 :: copyTemplate.drop 1 }
    (SMap.get {} (s.streamer (streamerId 0 0)).queues 0).armed = some (1, 0, 0, 0) ∧
      (SMap.get {} (s.streamer (streamerId 0 0)).queues 0).frozen = false ∧ (s.inc (queueChan 0 0 0)).queue = [t] ∧
      findCopy s 0 0 0 = some aCopy ∧ aCopy.live = true ∧ aCopy.bad = false ∧ 0 < aCopy.total ∧ 0 ∉ aCopy.landed ∧
      aCopy.landed.length + 1 ≠ aCopy.total ∧ went (copyWord s aCopy 0) = true ∧ lost.live = true ∧ went (copyWord s lost 0) = false := by
  refine ⟨?_, ?_, ?_, ?_, ?_, ?_, ?_, ?_, ?_, ?_, ?_, ?_⟩ <;> decide +kernel

theorem test_witness_O46_promise :
    let w : Inflight := ⟨0, 0, 1, .promise [(0, 5)] []⟩
    let s := streamState (.wtil anyDst 1 0) {}
    let s := s.setCtx 0 { s.ctx 0 with inflight := [w] }
    inflightOf (s.ctx 0) 0 0 = some w ∧ Image.instr (s.ctx 0).image 0 = some (.wtil anyDst 1 0) ∧ (s.ctx 0).frozen = false := by
  decide

/-! ### Events of a tile -/

def open1 : W64 := 0x8000000000000000

/-- A token waits on channel 2 for instruction 5 port a of context 0, whose frame 0 awaits it. -/
theorem test_witness_O47 :
    let lane1 : Token := .data 0 0 3 5 0 [some 10]
    let s (t : Token) : State :=
      { ctxs := [(0, { active := true, ahead := 1, frames := [{ num := 0 }], out := [⟨4, 0, 0, false, 0, aMark, true⟩] })]
        ins := [(2, { sink := .bound 0 5 .a none, queue := [t], flight := [t], await := [0] })]
        outs := [(4, { src := .context 0, desc := open1, credits := 1, returning := 1 })] }
    (((s lane1).inc 2).flight = [lane1] ∧ discardsInput ((s lane1).ctx 0) = false ∧ ((s lane1).inc 2).sink = .bound 0 5 .a none) ∧
      (descXp ((s lane1).outc 4).desc = false ∧ 0 < ((s lane1).outc 4).returning) ∧
      (((s lane1).ctx 0).frozen = false ∧ ((s lane1).ctx 0).killed = false ∧ ((s lane1).ctx 0).splice = none ∧
        ((s aMark).inc 2).queue = [aMark] ∧ ((s lane1).inc 2).queue = [lane1] ∧ ((s lane1).inc 2).await = [0] ∧
        ((s lane1).ctx 0).find 0 = some { num := 0 } ∧ slotAt { num := 0 } 5 .a = none) ∧
      ((s lane1).outc 4).src = .context 0 ∧
      ((s lane1).ctx 0).out.find? (fun e => e.chan = 4) = some ⟨4, 0, 0, false, 0, aMark, true⟩ ∧
      descEn ((s lane1).outc 4).desc = true ∧ 0 < ((s lane1).outc 4).credits := by
  decide

/-- Channel 3 enters context 0 at instruction 5 port a, as a lead entry or not. -/
def entryState (lead : BitVec 1) (t : Token) : State :=
  { ctxs := [(0, { active := true, started := true, image := imageOf addWord })]
    tiles := [(0, { htab := [(3, (1 : BitVec 1) ++ (0 : BitVec 3) ++ Target.bits (.same 5 .a) ++ lead ++ (0 : BitVec 48))] })]
    ins := [(3, { sink := .entry 0, queue := [t] })] }

theorem test_witness_O48 :
    let lane1 : Token := .data 0 0 3 5 0 [some 10]
    ∀ lead : BitVec 1, let s := entryState lead lane1
      let m := entryState 1 aMark
      let s1 := noteEntryWaits s 0 8
      bestOf (entryBefore s1 0) ((List.range 64).filter fun ch => runnable s1 0 ch && servable s1 0 ch) = some 3 ∧
        (s1.inc 3).queue = [lane1] ∧ htabTarget (entryOf s 0 3) = some (.same 5 .a) ∧ htabCtx (entryOf s 0 3) = 0 ∧
        (s.ctx 0).frames = [] ∧ mayAllocate s 0 0 0 = true ∧ (s.inc 3).queue = [lane1] ∧ (m.inc 3).queue = [aMark] ∧
        htabLead (entryOf m 0 3) = true ∧ htabLead (entryOf (entryState 0 lane1) 0 3) = false := by
  decide +kernel

theorem test_witness_O49 :
    let fr (fired : BitVec 128) : Frame := { num := 0, fired := fired }
    let e : OutEntry := ⟨4, 0, 0, false, 1, aMark, false⟩
    let s (f : BitVec 128) : State := { ctxs := [(0, { image := imageOf addWord, ahead := 1, frames := [fr f], out := [e], seq := { closing := true } })] }
    let x := (s 1).ctx 0
    x.find x.chead = some (fr 1) ∧ x.chead < x.ahead ∧ x.frozen = false ∧ x.killed = false ∧ (fr 1).poisoned = false ∧
      (fr 1).fired &&& Image.commit x.image = Image.commit x.image ∧ x.stops = [] ∧ x.halting = none ∧ x.seq.closing = true ∧
      x.out = [e] ∧ e.need ≤ x.chead + 1 ∧ ((s 0).ctx 0).find 0 = some (fr 0) ∧
      (fr 0).fired &&& Image.commit ((s 0).ctx 0).image ≠ Image.commit ((s 0).ctx 0).image := by
  decide

/-- A TAKE that waits for its frame while its cap of 1 is reached. -/
theorem test_witness_O50_waits :
    let s := seqState [someData] { wait := some 0 }
    let s := { s.setCtx 0 { s.ctx 0 with floor := 0x0010000000000001, ahead := 1, frames := [{ num := 0 }], started := true } with
      tiles := [(0, { gmem := [(0, (encodeGrammar (.take 0 .a)).getD 0)] })], copies := [65536, 0, 0, 0] }
    let x := s.ctx 0
    let f := firing addWord 1 [some 1] [some 2] []
    x.seq.wait = some 0 ∧ (throttledAt s 0).isSome ∧ x.frozen = false ∧ x.killed = false ∧ x.stops = [] ∧
      max 0 x.lastCommit + 65536 ≤ (s.time 0).toNat ∧ fires (f.ctx 0) = true ∧ (0, 1) ∈ firingsOf f 0 0 := by
  decide +kernel

/-- A record without a handler, and one whose handler is context 1. -/
theorem test_witness_O50_delivers :
    let y : Stop := { record := ⟨0x0A, 0, 0, 0, 0, 0, 0, 0, 0, 0⟩, site := .grammar 1, base := none }
    let s (h : W32) : State :=
      { ctxs := [(0, { active := true, image := imageOf addWord, handler := h, stops := [y] }),
          (1, { active := true, image := [0x20000000, 0, 0, 0, 0, 0, 0, 0, addWord] })] }
    nextDelivery ((s 0).ctx 0) = some y ∧ ((s 0).ctx 0).frozen = false ∧ y.record.code ≠ codeLantern ∧ toOwner (s 0) 0 y.record = true ∧
      ((s 0).ctx 0).active = true ∧ ((s 0).ctx 0).killed = false ∧ (((s 0).part 0).prod - ((s 0).part 0).cons).toNat < 64 ∧
      ((s 0).part 0).waiting = [] ∧ nextDelivery ((s 0x90000000).ctx 0) = some y ∧ toOwner (s 0x90000000) 0 y.record = false ∧
      handlerCtx ((s 0x90000000).ctx 0) = 1 ∧ ((s 0x90000000).ctx 1).answering = none ∧
      mayAllocate (s 0x90000000) 0 1 0 = true ∧ ((s 0x90000000).ctx 1).holds.length = 16 := by
  decide +kernel

/-! ### Operator units -/

theorem unitOut_bare (s : State) (h : s.outs = []) (place u p : Nat) : unitOut s place u p = none := by
  simp [unitOut, State.outc, h, SMap.get, SMap.find?]

/-- Unit `u` of tile 0 with a token at its port 0, and no output bound. -/
def unitState (u : Nat) (x : OpUnit) (q : List Token) : State := { units := [(u, x)], ins := feeding u q }

/-- The same unit with its output 0 on channel 9. -/
def sending (u : Nat) (x : OpUnit) (q : List Token) : State :=
  { unitState u x q with outs := [(9, { src := .unit u 0, desc := open1, credits := 1 })] }

theorem waits_bare (s : State) (place u : Nat) (ho : s.outs = [])
    (h : let o := s.unit (place * 64 + u)
      o.active = true ∧ o.frozen = false ∧ o.stopped = false ∧ sbarHolds s place u = false ∧ o.spliced = false ∧ o.ended = false ∧
        o.out = []) : UnitWaits s place u := by
  obtain ⟨h1, h2, h3, h7, h4, h5, h6⟩ := h
  refine ⟨h1, h2, h3, h7, h4, h5, h6, fun p c hc => ?_⟩
  rw [unitOut_bare s ho] at hc
  cases hc

theorem test_witness_O51_sends :
    let r : State := sending 18 { active := true, started := true, past := true } []
    let q := sending 22 { active := true, p := [4], store := [(0, 0)] } [aMark]
    let b : State := { q with ins := [] }
    let f := sending 23 { active := true, p := [1] } [someData]
    (unitReady (r.unit 18) = true ∧ (r.unit 18).started = true ∧ (r.unit 18).ended = false ∧ (r.unit 18).past = true ∧
        unitOut r 0 18 0 = some 9 ∧ canSend r 9 = true) ∧
      (unitOpen q 0 22 = true ∧ headOf q 0 22 0 = some (4, aMark) ∧ (q.unit 22).store.length < queueCap (q.unit 22)) ∧
      (unitOpen b 0 22 = true ∧ (b.unit 22).store = [(0, 0)] ∧ unitOut b 0 22 0 = some 9 ∧ canSend b 9 = true ∧ unitIn b 0 22 0 = none) ∧
      unitOpen f 0 23 = true ∧ headOf f 0 23 0 = some (4, someData) ∧ someData.isEos = false ∧ (f.unit 23).p.getD 0 0 = 1 ∧
      unitOut f 0 23 0 = some 9 ∧ canSend f 9 = true := by
  decide +kernel

theorem test_witness_O51_takes :
    let w := unitState 20 { active := true, p := [0, MarkClass.er.code.zeroExtend 32 <<< 28, 4, 4, 4, 4] } [aMark]
    let r (e : W32) := unitState 24 { active := true, p := [0, 0, e] } [someData]
    let m := unitState 25 { active := true } [someData]
    (UnitWaits w 0 20 ∧ headOf w 0 20 0 = some (4, aMark) ∧ dimClass (w.unit 20) 0 = MarkClass.er.code ∧ (w.unit 20).i1 + 1 < extent (w.unit 20) 1 ∧ (w.unit 20).i2 < extent (w.unit 20) 2) ∧
      (∀ e, UnitWaits (r e) 0 24) ∧ (headOf (r 0) 0 24 0 = some (4, someData) ∧ (((r 0).unit 24).p.getD 0 0).toNat % 4 = 0 ∧ headOf (r 0x00900000) 0 24 0 = some (4, someData) ∧
        (((r 0x00900000).unit 24).p.getD 0 0).toNat % 4 = 0) ∧
      routeOutput ((r 0x00900000).unit 24) (5 : BitVec 12).toNat = some 1 ∧ routeOutput ((r 0).unit 24) (5 : BitVec 12).toNat = none ∧
      ((r 0).unit 24).cnt ≠ 0xFFFFFF ∧
      UnitWaits m 0 25 ∧ ((m.unit 25).p.getD 0 0).getLsbD 0 = false ∧
      nextInput ((mergeInputs m 0).filter fun n => !(m.unit 25).done.contains n) (m.unit 25).cur = some 0 ∧
      headOf m 0 25 0 = some (4, someData) := by
  refine ⟨⟨waits_bare _ _ _ rfl ?_, ?_, ?_⟩, fun e => waits_bare _ _ _ rfl ⟨rfl, rfl, rfl, rfl, rfl, rfl, rfl⟩, ?_, ?_, ?_, ?_, waits_bare _ _ _ rfl ?_, ?_, ?_, ?_⟩ <;>
    decide +kernel

theorem test_witness_O52_tokens :
    let t (l : List Lane) : Token := .data 0 0 3 5 0 l
    let a := unitState 26 { active := true, p := [4, 6], i0 := 1 } [t [some 7, some 1]]
    let g := unitState 27 { active := true, p := [0, 0, 9] } [t [some 9]]
    let c := unitState 29 { active := true, p := [0] } [t [some 9]]
    (UnitWaits a 0 26 ∧ headOf a 0 26 0 = some (4, t [some 7, some 1]) ∧ (a.unit 26).store = [] ∧
        (7 : W32) = (a.unit 26).p.getD 1 0 + BitVec.ofNat 32 (a.unit 26).i0) ∧
      (UnitWaits g 0 27 ∧ headOf g 0 27 0 = some (4, t [some 9]) ∧ extent (g.unit 27) 0 ≤ (9 : W32).toNat ∧ (g.unit 27).cnt ≠ 0xFFFFFF) ∧
      UnitWaits c 0 29 ∧ headOf c 0 29 0 = some (4, t [some 9]) ∧ ((c.unit 29).p.getD 0 0).getLsbD 30 = false ∧
      (c.unit 29).rows.length + 1 ≤ 256 := by
  refine ⟨⟨waits_bare _ _ _ rfl ?_, ?_, ?_, ?_⟩, ⟨waits_bare _ _ _ rfl ?_, ?_, ?_, ?_⟩, waits_bare _ _ _ rfl ?_, ?_, ?_, ?_⟩ <;> decide +kernel

theorem test_witness_O52_pairs :
    let t (l : Lane) : Token := .data 0 0 3 5 0 [l]
    let ch (n : Nat) (l : Lane) : Nat × InChan := (n, { desc := open1, queue := [t l], sink := .unit 28 n })
    let s : State := { units := [(28, { active := true })], ins := [ch 0 (some 3), ch 1 (some 8), ch 2 (some 3), ch 3 (some 9)] }
    UnitWaits s 0 28 ∧ (s.unit 28).last = [none, none] ∧ headOf s 0 28 0 = some (0, t (some 3)) ∧ headOf s 0 28 1 = some (1, t (some 8)) ∧
      headOf s 0 28 2 = some (2, t (some 3)) ∧ headOf s 0 28 3 = some (3, t (some 9)) := by
  refine ⟨waits_bare _ _ _ rfl ?_, ?_, ?_, ?_, ?_, ?_⟩ <;> decide +kernel

theorem test_witness_O52_marks :
    let r := unitState 30 { active := true, p := [0x10], acc := [some 5], got := true } [aMark]
    let c := unitState 31 { active := true, p := [0x30000000] } [aMark]
    let w : ParamWrite := ⟨2, 5, 0, 1, 0⟩
    let v : ParamWrite := ⟨2, 6, 0, 1, 0⟩
    let s : State := { units := [(24, { writes := [w, v] })] }
    (UnitWaits r 0 30 ∧ headOf r 0 30 0 = some (4, aMark) ∧ markLevel .er = (((r.unit 30).p.getD 0 0).extractLsb' 4 3).toNat ∧
        (r.unit 30).acc ≠ []) ∧
      (UnitWaits c 0 31 ∧ headOf c 0 31 0 = some (4, aMark) ∧ convertTarget (c.unit 31) = some .n32 ∧ (c.unit 31).skipping = 0) ∧
      (s.unit 24).writes = [w, v] ∧ unitMidToken s 0 24 = false ∧ (s.unit 24).frozen = false ∧ unitHeld s w.ctx (.op 0 0 24) = false ∧
      inflightOf (s.ctx w.ctx) w.ins w.frame = none := by
  refine ⟨⟨waits_bare _ _ _ rfl ?_, ?_, ?_, ?_⟩, ⟨waits_bare _ _ _ rfl ?_, ?_, ?_, ?_⟩, ?_, ?_, ?_, ?_, ?_⟩ <;> decide +kernel

/-! ### Memory, launch and splice events -/

/-- A request for line 0 of address space 0. -/
def aFill : Fill := { asid := 0, line := 0, part := 0, tile := none, slice := 0 }

/-- The page at address 0 of address space 0 lies at physical address 0. -/
def mapped (s : State) : State :=
  { s with roots := [(0, 0x8000000000010000)], mem := [(0x10000, 1), (0x10002, 2), (0x20000, 7)] }

theorem test_witness_O53 :
    let s : State := { walks := [(0, [aFill])], responses := [(0, [aFill])], slices := [(0, { queue := [aFill] })], l2 := [zeroLine] }
    let r (q : List Packet) : Router := { queue := q }
    let c : Packet := ⟨.control, 0, 1, 0, 5⟩
    let m : Packet := ⟨.marker, 0, 1, 0, 5⟩
    (SMap.get [] s.walks 0)[0]? = some aFill ∧ walk s aFill.asid (aFill.line * 128) = none ∧
      (walk (mapped s) aFill.asid (aFill.line * 128)).isSome = true ∧ (SMap.get [] s.responses 0)[0]? = some aFill ∧ aFill.tile = none ∧
      zeroLine.dirty = 0 ∧ l2Find { s with l2 := [] } 0 0 = none ∧ slicePick s (SMap.get {} s.slices 0).window (SMap.get {} s.slices 0).window.asks = some 0 ∧
      (SMap.get {} s.slices 0).queue.find? (fun f => f.part = 0) = some aFill ∧ l2Find s aFill.asid aFill.line = some zeroLine ∧
      (r [c]).queue.find? (fun x => x.vc = 5) = none ∧ (r [c]).queue.find? (fun x => x.vc = 4) = some c ∧
      (r [c, m]).queue.find? (fun x => x.vc = 5) = some m ∧ exitRouter 0 c = some 5 ∧ outputPort 0 5 (leavesDie 0 c) = 1 ∧
      isHole 0 = false ∧ 0 < scratchSize (s.tile (placeOf 0 0)) := by
  refine ⟨?_, ?_, ?_, ?_, ?_, ?_, ?_, ?_, ?_, ?_, ?_, ?_, ?_, ?_, ?_, ?_, ?_⟩ <;> decide +kernel

/-- A graph of one tile with one context of one instruction, that a handler-table entry starts. -/
def oneConf : CtxConf := { image := [0xB100010000000000, 0, 0, 1, 0, 0, 0, 0, placed .drop], handler := 0 }
def oneTile : TileConf :=
  { x := 0, y := 0, ctxs := [(0, oneConf)], ins := [{ ch := 3, desc := 0x9800000000000000, sink := .entry 0 }]
    htab := [(3, (1 : BitVec 1) ++ (0 : BitVec 3) ++ Target.bits (.same 0 .a) ++ (1 : BitVec 1) ++ (0 : BitVec 48))] }
def oneDie : DieConf := { die := 0, ox := 0, oy := 0, tiles := [oneTile] }
def oneGraph : GraphImage := { size := 100, dies := [oneDie] }
def aLaunch : Launch := ⟨5, false, 0, false⟩
def aRun : Running := { id := 32, launch := aLaunch, graph := oneGraph, ctxs := [0] }

theorem test_witness_O54_starts :
    let s (g : SMap GraphImage) : State := { parts := [(0, { live := true, queue := [aLaunch], slots := g })] }
    let p := (s []).part 0
    p.live = true ∧ p.queue = [aLaunch] ∧ (s []).ckptRun = none ∧ p.freeing = false ∧ aLaunch.held = false ∧ aLaunch.rs = false ∧
      SMap.find? p.slots aLaunch.slot = none ∧ SMap.find? ((s [(5, oneGraph)]).part 0).slots aLaunch.slot = some oneGraph ∧
      aLaunch.plist = 0 ∧ canStart (s [(5, oneGraph)]) 0 oneGraph = true := by decide +kernel

theorem test_witness_O54_places :
    let s (o : SMap Nat) (r : Running) : State := { parts := [(0, { live := true, running := [r] })], owners := o }
    let p := (s [] aRun).part 0
    let q := (s [(0, 0)] { aRun with acked := [0] }).part 0
    p.running.find? (fun r => r.refused.isNone && !r.killed && !r.acked.contains 0 && (r.graph.die? 0).isSome) = some aRun ∧
      aRun.graph.die? 0 = some oneDie ∧ (∀ id ∈ dieCtxs oneDie, ((s [] aRun).ctx id).active = false) ∧
      (∀ x ∈ oneDie.tiles, SMap.find? (s [] aRun).owners (oneDie.place x) ≠ some 0) ∧ oneDie.tiles ≠ [] ∧
      dieCheck (s [(0, 0)] aRun) 0 aRun.graph oneDie = none ∧ aRun.image = [] ∧
      q.running.find? (fun r => r.refused.isNone && !r.started.contains 0 && (r.graph.die? 0).isSome &&
        r.graph.dies.all fun d => r.acked.contains d.die) = some { aRun with acked := [0] } := by
  refine ⟨?_, ?_, ?_, ?_, ?_, ?_, ?_, ?_⟩ <;> decide +kernel

theorem test_witness_O55 :
    let s : State := { parts := [(0, { running := [aRun] })], ctxs := [(0, { active := true, launch := 64 })] }
    let c := s.ctx 0
    let u : State := { s with ctxs := [(0, { active := true, launch := 64, splice := some (32, oneConf), seq := { run := .accepted } })] }
    let r3 : Running := { aRun with refused := some 3 }
    let f : State := { s with parts := [(0, { running := [r3] })] }
    c.active = true ∧ c.killed = false ∧ c.splice = none ∧ (s.part c.part).running = [aRun] ∧ aRun.refused = none ∧ aRun.id ≠ c.launch ∧
      aRun.acked.contains 0 = false ∧ tileConfAt aRun (0 / 8) = some (oneDie, oneTile) ∧ ctxConf? oneTile 0 = some oneConf ∧
      (u.ctx 0).splice = some (32, oneConf) ∧ runningOf u (u.ctx 0).part 32 = some aRun ∧ drained u 0 = true ∧ ctxInputs u 0 = [] ∧
      (f.part 0).running.findSome? (fun r => (outcomeOf f r).map fun st => (r, st)) = some (r3, 3) := by
  refine ⟨?_, ?_, ?_, ?_, ?_, ?_, ?_, ?_, ?_, ?_, ?_, ?_, ?_, ?_⟩ <;> decide +kernel

/-! ### Snapshots and the host port -/

def aSnap (u : List UnitRef) (inject : List UnitRef) : Snapshot :=
  { launch := 32, va := 0, pre := false, issuer := none, injected := true, all := u, units := u, inject := inject }

/-- The running launch with one snapshot. -/
def snapState (x : Snapshot) : State :=
  mapped { parts := [(0, { live := true, running := [aRun], snaps := [x] })], ctxs := [(0, { active := true, launch := 32 })]
           ins := [(3, { desc := open1, sink := .unit 24 0, coming := some 5 })] }

theorem test_witness_O56_requests :
    let s : State := { parts := [(0, { running := [aRun] })] }
    let x := aSnap [.ctx 0 0 0] [.ctx 0 0 0]
    let m := aSnap [.op 0 0 24] []
    s.ckptRun = none ∧ (s.part 0).running.find? (fun r => r.launch.slot = 5) = some aRun ∧ (s.part 0).snaps = [] ∧
      snapshotOf (snapState x) (.ctx 0 0 0) = some (0, x) ∧ x.recorded (.ctx 0 0 0) = false ∧ .ctx 0 0 0 ∈ x.inject ∧
      snapshotOf (snapState m) (.op 0 0 24) = some (0, m) ∧ m.recorded (.op 0 0 24) = false ∧ m.inject = [] ∧
      refPlace (.op 0 0 24) * 64 + 3 = 3 ∧ ((snapState m).inc 3).coming = some 5 ∧ consumerRef (snapState m) 3 = some (.op 0 0 24) ∧
      ((snapState m).unit (unitId 0 0 24)).frozen = false ∧ refOutputs (snapState m) (.op 0 0 24) = [] := by
  refine ⟨?_, ?_, ?_, ?_, ?_, ?_, ?_, ?_, ?_, ?_, ?_, ?_, ?_, ?_⟩ <;> decide +kernel

theorem test_witness_O56_saves :
    let u : UnitRef := .ctx 0 0 0
    let x : Snapshot := { aSnap [.op 0 0 24, u] [] with pre := true }
    let s := snapState x
    let s := s.setCtx 0 { s.ctx 0 with frozen := true }
    let y := aSnap [] []
    let v := snapState y
    snapshotOf s u = some (0, x) ∧ runningOf s 0 x.launch = some aRun ∧ refDead s u = false ∧ x.recorded u = false ∧ x.inject = [] ∧
      saveReady s x.all u = true ∧ x.units = [.op 0 0 24, u] ∧ x.saved = [] ∧ refDead s (.op 0 0 24) = false ∧
      (v.part 0).snaps.find? (fun x => x.injected && x.units.isEmpty && !x.whole) = some y ∧ runningOf v 0 y.launch = some aRun ∧
      y.pre = false ∧ y.ckpt = false ∧ y.issuer = none ∧
      (let r := partWrite v 0 y.va (imageHeader aRun.graph y.pre.toNat aRun.launch.slot y.nrec y.size y.time)
       went r = true ∧ ((r.1.part 0).prod - (r.1.part 0).cons).toNat < 64 ∧ (r.1.part 0).waiting = []) := by
  refine ⟨?_, ?_, ?_, ?_, ?_, ?_, ?_, ?_, ?_, ?_, ?_, ?_, ?_, ?_, ?_⟩ <;> decide +kernel

/-- A stalled context, unseen, seen just now, and seen a window of 2^16 ticks ago; and one that has fired since. -/
theorem test_witness_O56_vigil :
    let s (now : W64) (w : Option Watch) : State :=
      { ctxs := [(0, { active := true, ahead := 1, frames := [{ num := 0 }], inflight := [⟨0, 0, 1, .gather⟩], watch := w })]
        ins := [(0, { desc := 0x8000000000000000, queue := [someData], sink := .lead 0 })], copies := [now, 0, 0, 0] }
    let y : Watch := ⟨0, 0, 0, 0, 16⟩
    busyStalled {} 0 = false ∧ busyStalled (s 0 none) 0 = true ∧ ((s 0 none).ctx 0).watch = none ∧
      busyStalled (s 0 (some y)) 0 = true ∧ ((s 0 (some y)).time 0).toNat < y.since + 2 ^ y.lw ∧
      busyStalled (s 65536 (some y)) 0 = true ∧ y.since + 2 ^ y.lw ≤ ((s 65536 none).time 0).toNat ∧
      busyStalled (s 0 (some { y with firings := 1 })) 0 = true ∧ ((s 0 (some y)).ctx 0).firings ≠ 1 := by
  decide +kernel

theorem test_witness_O57 :
    let r : Unmap := ⟨0, 0, 65536, [.op 0 0 18, .ctx 0 0 1]⟩
    let s : State := { unmapRun := some r, parts := [(0, { live := true, clkNext := some 600 })] }
    let e : State := { unmapRun := some { r with pending := [] } }
    ({} : State).unmapReg.getLsbD 63 = false ∧ (0x8000000000000000 : W64).getLsbD 63 = true ∧ unmapSize 0x8000000000000000 ≤ 26 ∧
      unmapPage 0x8000000000000000 % 2 ^ unmapSize 0x8000000000000000 = 0 ∧ (0x801B000000000000 : W64).getLsbD 63 = true ∧
      26 < unmapSize 0x801B000000000000 ∧ .op 0 0 18 ∈ r.pending ∧ .ctx 0 0 1 ∈ r.pending ∧
      e.unmapRun = some { r with pending := [] } ∧ unmapFills e { r with pending := [] } = false ∧ (s.part 0).live = true ∧
      (s.part 0).clkNext = some 600 ∧ (s.part 0).running = [] ∧ (s.part 0).queue.all Launch.held = true ∧
      (∀ d < 4, ∀ o ∈ [(5, 0)], o.1 / 256 = d → o.2 = 0) ∧ (∃ o ∈ [(5, 0)], o.1 / 256 = 0) ∧ (s.part 0).waiting = [] := by
  refine ⟨?_, ?_, ?_, ?_, ?_, ?_, ?_, ?_, ?_, ?_, ?_, ?_, ?_, ?_, ?_, ?_, ?_⟩ <;> decide

theorem test_witness_O58 :
    let busy : State := { ckpt := 0x8000000000000000 }
    let full : State := { parts := [(0, { live := true, rports := 0xFFFF })] }
    let k (b : Bool) : Checkpoint := ⟨b, 1, 0, [], false, none⟩
    let w : State := { ckptRun := some (k false) }
    let x : Stream := ⟨1, 0, [], [], [], []⟩
    let r : State := { ckptRun := some (k true), storage := some x }
    busy.ckpt.getLsbD 63 = true ∧ full.ckpt.getLsbD 63 = false ∧ (0x8000000000000000 : W64).getLsbD 63 = true ∧ freePorts full = [] ∧
      freePorts {} ≠ [] ∧ w.ckptRun = some (k false) ∧ (k false).restore = false ∧ (∀ e ∈ w.parts, e.2.running = []) ∧
      (∀ l ∈ w.l2, l.dirty = 0) ∧ r.ckptRun = some (k true) ∧ (k true).restore = true ∧ r.storage = some x := by
  refine ⟨?_, ?_, ?_, ?_, ?_, ?_, ?_, ?_, ?_, ?_, ?_, ?_⟩ <;> decide

/-- The mailbox of function `fn` holds a command. -/
def commanded (fn op : Nat) (args : List W64) (p : Part) : State :=
  { mailboxes := [(fn, { cmd := 0x8000000000000000 ||| BitVec.ofNat 64 op, args := args })], parts := [(0, p)] }

theorem test_witness_O59 :
    let live : Part := { live := true, running := [aRun], smem := 1000 }
    let g : GraphImage := { size := 100 }
    (command (commanded 0 1 [] {}) 0 1).isSome ∧
      (∃ m, command (commanded 0 2 [0] {}) 0 2 = some m ∧ ((arg m 0).extractLsb' 0 5).toNat = 0) ∧
      ((commanded 0 2 [0] {}).part 0).live = false ∧ ((commanded 0 2 [0] live).part 0).live = true ∧ live.freeing = false ∧
      ({ live with running := [], freeing := true } : Part).freeing = true ∧
      (∃ m, command (commanded 0 3 [7, 0x10000] {}) 0 3 = some m ∧ (arg m 1).extractLsb' 0 16 = 0 ∧ (arg m 1).extractLsb' 52 12 = 0) ∧
      (∃ m, command (commanded 1 0x10 [5] live) 1 0x10 = some m ∧ slotBusy live ((arg m 0).extractLsb' 0 6).toNat = true) ∧
      (∃ m, command { commanded 1 0x10 [4, 64, 100] live with busImages := [(64, g)] } 1 0x10 = some m ∧
        slotBusy live ((arg m 0).extractLsb' 0 6).toNat = false ∧ SMap.find? [(64, g)] (arg m 1).toNat = some g ∧ g.size = (arg m 2).toNat ∧
        g.data = [] ∧ slotBytes live ((arg m 0).extractLsb' 0 6).toNat + g.size ≤ live.smem) ∧
      (command (commanded 1 0x11 [4] live) 1 0x11).isSome ∧ (command (commanded 0 4 [0, 0] {}) 0 4).isSome := by
  refine ⟨by decide, ⟨_, rfl, by decide⟩, by decide, by decide, by decide, by decide, ⟨_, rfl, by decide, by decide⟩,
    ⟨_, rfl, by decide⟩, ⟨_, rfl, by decide, by decide, by decide, by decide, by decide⟩, by decide, by decide⟩

theorem test_witness_O60 :
    ({} : State).stage ≠ 2 ∧ ({ stage := 2 } : State).stage = 2 ∧ 3 < ({} : State).copies.length ∧ healthSource 79 = true ∧
      (79 : Nat) < 80 := by decide

/-! ### Further clauses of the statements -/

/-- A GWAIT on context 1, which has a frame that the wait was begun behind, or not. -/
theorem test_witness_O12_gwait :
    let s (g : Option (Nat × Nat)) : State := { ctxs := [(0, { active := true, seq := { gwait := g } }), (1, { active := true, ahead := 2, chead := 1, frames := [{ num := 1 }] })] }
    (∃ x, x = (s none).ctx 1 ∧ x.active = true ∧ x.live ≠ 0 ∧ x.launch = 0 ∧ ¬ 2 ≤ x.chead) ∧ (s (some (0, 1))).here.seq.gwait = some (0, 1) ∧
      1 ≤ ((s none).ctx 1).chead := by
  refine ⟨⟨_, rfl, ?_⟩, ?_⟩ <;> decide

theorem test_witness_O31_open :
    (firing (placed (.st .n32 goodXM)) 1 [some 1] [some 7] []).unmapRun = none := rfl

theorem test_witness_O33_ranges :
    let s (x : XM) : State := firing (placed (.pref x)) 1 [some 0] [] []
    goodXM.scope = .die ∧ (s goodXM).focus.k = 1 ∧ (operands (s goodXM)).a = [some 0] ∧ effAddr (s goodXM) goodXM 0 % 128 = 0 ∧
      effAddr (s goodXM) goodXM 0 + 128 * 2 ^ goodXM.aop.toNat ≤ 2 ^ 56 := by
  refine ⟨?_, ?_, ?_, ?_, ?_⟩ <;> decide

/-- A fork whose slot lies in a poisoned granule of the scratchpad. -/
theorem test_witness_O34_poison :
    let s := kvState
    let t := scratchHolds (atScratch (.kvfk goodXM) 1 [some 0] [some 2] []) (s.tile 0).scratch
    let t := (t.setPart 0 (s.part 0)).setTile 0 { t.tile 0 with poison := [1] }
    let a (r : State × Except KvFault (Nat × Lane)) : Option Nat := match r.2 with
      | .ok (st, _) => some st
      | .error _ => none
    a (kvfkLane s (viaSlice s .die) goodXM 0 1) = some 0 ∧ a (kvfkLane t (viaSlice t .die) goodXM 0 2) = some 8 ∧
      (operands t).a = [some 0] ∧ (operands t).b = [some 2] ∧ goodXM.order = .plain ∧ FreshFiring t := by
  unfold FreshFiring
  refine ⟨?_, ?_, ?_, ?_, ?_, ?_⟩ <;> decide +kernel

/-- The root entry names a table whose first entry is not valid. -/
theorem test_witness_O35_walks :
    let s := firing (placed (.ld .n32 goodXM)) 1 [some 0] [] []
    let t : State := { s with roots := [(0, 0x8000000000010000)] }
    (SMap.get 0 s.roots 0).getLsbD 63 = false ∧ s.unmapRun = none ∧ walk t 0 (effAddr t goodXM 0) = none ∧
      (∀ a ∈ walkReads t (effAddr t goodXM 0) (((SMap.get 0 t.roots 0).extractLsb' 16 36).toNat * 65536) 0 levels, tablePoison t a = false) ∧
      l2Find t 0 (lineOf (effAddr t goodXM 0)) = none := by
  refine ⟨?_, ?_, ?_, ?_, ?_⟩ <;> decide +kernel

/-- An open episode of the key, and a firing two of whose three lanes have still to end. -/
theorem test_witness_O36_joins :
    let i : Instr := .bar anyDst 2 .die 0
    let e : Episode := ⟨7, 0, 2, .die, scopeInstance {} [] .die, 2, [(9, 0, 0, 0)], 0⟩
    let s := { firing (placed i) 1 [some 3] [] [] with episodes := [e] }
    let f : Episode := { e with need := 1 }
    let w : Inflight := ⟨0, 0, 3, .barrier [2]⟩
    let u := firing (placed i) 3 [some 1, some 2, some 3] [] []
    let u := { u.setCtx 0 { u.ctx 0 with inflight := [w] } with episodes := [{ f with arrivals := [(0, 0, 0, 1)] }] }
    (s.episodes.find? fun e => e.part = s.here.part ∧ e.obj = (2 : BitVec 6).toNat ∧
        e.inst = scopeInstance s.focus (farOf s s.here) .die ∧ e.full = false) = some e ∧
      (u.episodes.find? fun y => y.id = 7).isSome ∧ { f with arrivals := [(0, 0, 0, 1)] }.full = true ∧
      inflightOf (u.ctx 0) 0 0 = some w ∧ portLanes (u.ctx 0) 0 w.k 0 .a = [some 1, some 2, some 3] := by
  refine ⟨?_, ?_, ?_, ?_, ?_⟩ <;> decide +kernel

/-- A WLOAD of two lanes and one of none; a MOUT of two rows with the stage full before the second. -/
theorem test_witness_O37_lanes :
    let s := firing (placed (.wload anyDst 1 0 .bf16x2 0 0)) 2 [none, some 1] [] []
    let z := firing (placed (.wload anyDst 1 0 .bf16x2 0 0)) 1 [none] [] []
    let m (n : Nat) : State :=
      let u := firing (placed (.mout anyDst 0 1 false)) 1 [some 1] [] []
      u.setIsland 0 { u.island 0 with out := List.replicate n (aMark, false) }
    let ends (l : List (Nat × Nat)) : Bool := (moutRows (m 0) 0 (operands (m 0)).key false l).2.isNone
    (operands s).a = [none] ++ some 1 :: [] ∧ FreshFiring s ∧ (s.island 0).latch.length = 4 ∧ baseVa s 0 % 4 = 0 ∧ s.here.inflight = [] ∧
      (operands z).a.any Option.isSome = false ∧ FreshFiring z ∧ FreshFiring (m 0) ∧ ((m 0).island 0).out.length ≤ 4 ∧
      ends [(0, 0)] = true ∧ ends [(0, 0), (0, 1)] = false := by
  refine ⟨?_, ?_, ?_, ?_, ?_, ?_, ?_, ?_, ?_, ?_, ?_⟩ <;> first | decide +kernel | (unfold FreshFiring; decide +kernel)

/-- The last chunk of a complete row, and a row of empty lanes; a row of a set that the scratchpad holds. -/
theorem test_witness_O38_last :
    let s := withIsland { rows := [{ fullRow with complete := true }], latch := [boundLatch, {}, {}, {}] }
    let z := withIsland { rows := [{ lanes := [none], valid := [2], complete := true }] }
    let g : GatherSet := { ctx := 0, ins := 0, frame := 0, lane := 0, chunks := 1, fmt := 2, key := 0, n := 1, total := 1, ivec := 0, table := 0 }
    let r (l : Nat) : Bool := match setRow (s.tile 0) { g with n := l } 0 with
      | .ok x => x.isSome == decide (l = 1)
      | .error _ => false
    islandAsked s 0 = false ∧ ((islandPrepare s 0).island 0).rows = [{ fullRow with complete := true }] ∧
      fullRow.next + 1 = (fullRow.lanes.length + 63) / 64 ∧ ((islandPrepare s 0).island 0).out.length ≤ 4 ∧
      ((islandPrepare z 0).island 0).rows = [{ lanes := [none], valid := [2], complete := true }] ∧ r 1 = true ∧ r 0 = true := by
  refine ⟨?_, ?_, ?_, ?_, ?_, ?_, ?_⟩ <;> decide +kernel

/-- A descriptor of a foreign peer, one that holds tokens, and the consumer's end of a copy channel. -/
theorem test_witness_O41_channels :
    let s := oneLane (.chset anyDst 3 false 0) 7
    let v : W32 := 0x80000000
    let h := { s with owners := [(0, 0)], ins := [(3, { desc := 0x8000000000000001, queue := [someData] })] }
    let w := { s with ins := [(3, { desc := 0x8000000800000000, want := 9 })] }
    foreignPeer s s.here.part (descWritten 0 v) = true ∧ s.here.resumes = [] ∧
      (descEn (h.inc 3).desc = true ∧ foreignPeer h h.here.part (descWritten (h.inc 3).desc 0x90000000) = false ∧
        descWritten (h.inc 3).desc 0x90000000 ≠ (h.inc 3).desc ∧ holdsTokens h 3 false (h.inc 3).desc = true) ∧
      consumerEnd 3 false (w.inc 3).desc = some 3 ∧ descWc (w.inc 3).desc = true := by
  refine ⟨?_, ?_, ⟨?_, ?_, ?_, ?_⟩, ?_, ?_⟩ <;> decide

/-- The lowest non-empty lane is the second of three; a BKPT that has been retried. -/
theorem test_witness_O43_lanes :
    let s := firing (placed (.bkpt anyDst 3)) 3 [none, some 7, none] [] []
    let r := s.setCtx 0 { s.ctx 0 with resumes := [(0, 0, 3, { lane := 2 })] }
    (operands s).a = [none] ++ some 7 :: [none] ∧ FreshFiring s ∧ (resumeHere s).lane = 0 ∧ 0 < (resumeHere r).lane ∧
      Image.instr (s.ctx 0).image 0 = some (.bkpt anyDst 3) := by
  unfold FreshFiring
  refine ⟨?_, ?_, ?_, ?_, ?_⟩ <;> decide +kernel

/-- HALT in frame 0 with nothing halting, and behind an older halting frame. -/
theorem test_witness_O44_halts :
    let s (g : Option Nat) : State := { firing (placed .halt) 1 [some 1] [] [] with ctxs := [(0, { (firing (placed .halt) 1 [some 1] [] []).ctx 0 with halting := g })] }
    (operands (s none)).a = [] ++ some 1 :: [] ∧ (s none).here.halting = none ∧ (s (some 0)).here.halting = some 0 ∧
      (s (some 1)).here.halting = some 1 ∧ (s none).focus.frame + 0 = 0 := by
  refine ⟨?_, ?_, ?_, ?_, ?_⟩ <;> decide +kernel

/-- A handler whose context has no TH, and one that names none. -/
theorem test_witness_O45_handlers :
    let s := oneLane (.swr anyDst 0 false 0 .lo .handler) 0x90000000
    (0x90000000 : W32).getLsbD 31 = true ∧ Image.th (s.ctx (0 / 8 * 8 + 1)).image = false ∧ badHandler s 0 .handler 0 = false ∧
      badHandler s 0 .prio 5 = false := by
  refine ⟨?_, ?_, ?_, ?_⟩ <;> decide

/-- A queue of a die that has started; a parked WTIL whose times have passed. -/
theorem test_witness_O46_started :
    let t (l : List Lane) : Token := .data 0 0 3 0 0 l
    let s (l : List Lane) : State :=
      { streamState (.cpy anyDst 1 0) { queues := [(0, { armed := some (1, 0, 0, 0) })] } with
        ctxs := [(0, { active := true, started := true })], ins := [(queueChan 0 0 0, { queue := [t l] })] }
    let x := getQueue (s [some 4]) 0 0 0
    let bad : Copy := { aCopy with bad := true }
    x.armed = some (1, 0, 0, 0) ∧ x.frozen = false ∧ x.olds = [] ∧ ((s [some 4]).ctx 0).started = true ∧
      ((s [some 4, some 8]).inc (queueChan 0 0 0)).queue = [t [some 4, some 8]] ∧
      ((s [some 4]).inc (queueChan 0 0 0)).queue = [t [some 4]] ∧ bad.live = true := by
  refine ⟨?_, ?_, ?_, ?_, ?_, ?_, ?_⟩ <;> decide +kernel

/-- A credit of a channel to another package, with room for it. -/
theorem test_witness_O47_far :
    let s : State := { outs := [(4, { src := .context 0, desc := 0x8000000400000000, credits := 0 })] }
    descXp (s.outc 4).desc = true ∧ (s.outc 4).credits < descDepth (s.outc 4).desc := by decide

/-- An entry whose run of three lanes finds a frame for each. -/
theorem test_witness_O48_run :
    let s := entryState 1 (.data 0 0 3 5 0 [some 10, none, some 30])
    (entryFrames s 0 (htabCtx (entryOf s 0 3)) 3 0).2 = 3 ∧ (s.ctx 0).frames = [] := by
  refine ⟨?_, ?_⟩ <;> decide +kernel

/-- A poisoned head frame, and one that a stop names. -/
theorem test_witness_O49_holds :
    let s (p : Bool) (l : List Stop) : State :=
      { ctxs := [(0, { image := imageOf addWord, ahead := 1, frames := [{ num := 0, fired := 1, poisoned := p }], stops := l })] }
    let y : Stop := { record := ⟨0x0A, 0, 0, 0, 0, 0, 0, 0, 0, 0⟩, site := .grammar 1, base := some 0 }
    ((s true []).ctx 0).find 0 = some { num := 0, fired := 1, poisoned := true } ∧ ((s false [y]).ctx 0).stops = [y] ∧ y.base = some 0 := by
  refine ⟨?_, ?_, ?_⟩ <;> decide

/-- The waits brought up to date: a TAKE that waits still waits; the report queue full. -/
theorem test_witness_O50_noted :
    let s := seqState [someData] { wait := some 0 }
    let s := { s.setCtx 0 { s.ctx 0 with floor := 0x0010000000000001, ahead := 1, frames := [{ num := 0 }], started := true } with
      tiles := [(0, { gmem := [(0, (encodeGrammar (.take 0 .a)).getD 0)] })], copies := [65536, 0, 0, 0] }
    let s1 := noteTile s (placeOf 0 0)
    let x := s1.ctx 0
    let full : State := { parts := [(0, { prod := 64 })] }
    x.seq.wait = some 0 ∧ (throttledAt s1 0).isSome ∧ x.frozen = false ∧ x.killed = false ∧ x.stops = [] ∧
      max 0 x.lastCommit + 65536 ≤ (s.time 0).toNat ∧ ¬ ((full.part 0).prod - (full.part 0).cons).toNat < 64 := by
  refine ⟨?_, ?_, ?_, ?_, ?_, ?_, ?_⟩ <;> decide +kernel

/-- A token that QUEUE has stored goes on, and does not where one of its granules is poisoned; FANOUT without a credit. -/
theorem test_witness_O51_stored :
    let q := sending 22 { active := true, p := [4], store := [(0, 0)] } []
    let q := storeToken q 0 0 4 someData
    let b := q.setTile 0 { q.tile 0 with poison := [0] }
    let r (s : State) : Option Token := match (loadToken s 0 0 false).2 with
      | .ok t => some t
      | .error _ => none
    let f := { sending 23 { active := true, p := [1] } [someData] with outs := [(9, { src := .unit 23 0, desc := open1, credits := 0 })] }
    unitOpen q 0 22 = true ∧ (q.unit 22).store = [(0, 0)] ∧ unitOut q 0 22 0 = some 9 ∧ canSend q 9 = true ∧ r q = some someData ∧
      r b = none ∧ (b.unit 22).skipping = 0 ∧ unitOpen f 0 23 = true ∧ headOf f 0 23 0 = some (4, someData) ∧
      (unitOut f 0 23 0).all (canSend f) = false ∧ someData.lanes.length = 3 := by
  refine ⟨?_, ?_, ?_, ?_, ?_, ?_, ?_, ?_, ?_, ?_, ?_⟩ <;> decide +kernel

/-- The token whose number is next is read back from its place of the window. -/
theorem test_witness_O52_reorder :
    let t : Token := .data 0 0 3 5 0 [some 7, some 1]
    let s := unitState 26 { active := true, p := [4, 6], i0 := 1 } [t]
    let o := s.unit 26
    let r := storeToken s 0 ((o.p.getD 0 0).toNat * 128 + 144 * ((7 : W32).toNat % 64)) 4 t
    let back : Option Token := match (loadToken r 0 ((o.p.getD 0 0).toNat * 128 + 144 * ((7 : W32).toNat % 64)) (o.skipping != 0)).2 with
      | .ok t => some t
      | .error _ => none
    (7 : W32).toNat = reorderNext o ∧ o.store = [] ∧ back = some t ∧ 1 < t.lanes.length := by
  refine ⟨?_, ?_, ?_, ?_⟩ <;> decide +kernel

/-- A walk that fails and one that ends; a packet on its way to tile 5, and one at its router. -/
theorem test_witness_O53_walks :
    let ok (r : State × Except MemFault TlbEntry) : Bool := match r.2 with
      | .ok _ => true
      | .error _ => false
    ok (gateWalk {} 0 0) = false ∧ ok (gateWalk (mapped {}) 0 0) = true ∧ neighbour 0 (outputPort 0 5 false) = 1 ∧
      l2Find {} (aFill.canon.getD (aFill.asid, aFill.line)).1 (aFill.canon.getD (aFill.asid, aFill.line)).2 = none ∧
      (dramLine {} aFill.pa).2 = 0 ∧ (dramLine { dramPoison := [0] } aFill.pa).2 ≠ 0 := by
  refine ⟨?_, ?_, ?_, ?_, ?_, ?_⟩ <;> decide +kernel

/-- Launches that start, that are refused, that wait; a die's part with a fault, without one, and an image that does not fit. -/
theorem test_witness_O54_more :
    let s (p : Part) (o : SMap Nat) : State := { parts := [(0, { p with live := true })], owners := o }
    let q : Part := { queue := [aLaunch], slots := [(5, oneGraph)] }
    let src := launchSource (s q []) 0 aLaunch
    let busy := { s q [] with ctxs := [(0, { active := true, killed := true })] }
    let r : Running := { aRun with graph := oneGraph, image := List.replicate 64 0 }
    ckptHolds (s q []) 0 aLaunch = false ∧ (∃ g, src.2.2 = .ok (g, [])) ∧
      (∃ st, (launchSource (s { queue := [aLaunch] } []) 0 aLaunch).2.2 = .error st) ∧ canStart busy 0 oneGraph = false ∧
      (∀ id ∈ graphCtxs oneGraph, ((s q []).ctx id).active = false) ∧ (dieCheck (s {} []) 0 oneGraph oneDie).isSome = true ∧
      dieCheck (s {} [(0, 0)]) 0 oneGraph oneDie = none ∧ r.refused = none ∧ ((({} : Part).prod) - ({} : Part).cons).toNat < 64 := by
  refine ⟨?_, ⟨_, rfl⟩, ⟨_, rfl⟩, ?_, ?_, ?_, ?_, ?_, ?_⟩ <;> decide +kernel

/-- A successor that a context can take, and a waiting unit that is idle, or not. -/
theorem test_witness_O55_units :
    let c : UnitConf := { u := 24, owner := 0 }
    let tl : TileConf := { oneTile with units := [c] }
    let g : GraphImage := { oneGraph with dies := [{ oneDie with tiles := [tl] }] }
    let r : Running := { aRun with graph := g, later := [(0, 24)] }
    let s (o : OpUnit) : State := { parts := [(0, { running := [r] })], units := [(24, o)], ins := feeding 24 [] }
    let u : State := { s {} with ctxs := [(0, { active := true, launch := 64, splice := some (32, oneConf), seq := { run := .accepted } })] }
    tileConfAt r 0 = some ({ oneDie with tiles := [tl] }, tl) ∧ unitConf? tl 24 = some c ∧ unitTurn (s {}) 0 r (0, 24) = true ∧
      unitFree (s {}) 0 c = true ∧ unitFree (s { active := true }) 0 c = false ∧ regionFree u 0 0 oneConf = true ∧
      r.image = [] := by
  refine ⟨?_, ?_, ?_, ?_, ?_, ?_, ?_⟩ <;> decide +kernel

/-- A queue that takes part in a snapshot. -/
theorem test_witness_O56_queues :
    let x := aSnap [.queue 0 0 0] [.queue 0 0 0]
    let s := { snapState x with streamers := [(0, { queues := [(0, {})] })] }
    snapshotOf s (.queue 0 0 0) = some (0, x) ∧ x.recorded (.queue 0 0 0) = false ∧
      SMap.find? (s.streamer (streamerId 0 0)).queues 0 ≠ none := by
  refine ⟨?_, ?_, ?_⟩ <;> decide +kernel

theorem test_witness_O57_idle :
    (0x0000000000000005 : W64).getLsbD 63 = false ∧ unmapPage 0x8001000000000001 % 2 ^ unmapSize 0x8001000000000001 ≠ 0 := by decide

/-- The stream is written and its graph stands again, or waits. -/
theorem test_witness_O58_second :
    let k : Checkpoint := { restore := false, ports := 1, time := 0, images := [(0, 5, 64)], written := some true }
    let s (q : List Launch) : State := { ckptRun := some k, parts := [(0, { live := true, queue := q })] }
    k.images.all (restored (s [])) = true ∧ k.images.all (restored (s [⟨5, true, 64, false⟩])) = false ∧ k.written = some true ∧
      (0 : Nat) < 32 ∧ ((s []).part 0).live = true := by
  refine ⟨?_, ?_, ?_, ?_, ?_⟩ <;> decide

/-! ### Clauses of the moves, the lane instructions and rounding -/

/-- A slice that refuses an access, and none. -/
theorem test_witness_O4_granted :
    let s : State := { slices := [(3, { refused := true })] }
    (3, ({ refused := true } : Slice)) ∈ s.slices ∧ (∀ e ∈ ({} : State).slices, e.2.refused = false) := by decide

/-- A restored GWAIT on a context that stands again, and on one that has still to be placed; the output buffer has room. -/
theorem test_witness_O12_restored :
    let r : Running := { id := 64, launch := ⟨5, false, 0, false⟩, graph := {}, ctxs := [1] }
    let s (l : Nat) : State :=
      { ctxs := [(0, { active := true, quota := 3, launch := 64, seq := { goal := some 4 } }), (1, { active := true, launch := l, ahead := 5, chead := 2, frames := [{ num := 2 }] })]
        parts := [(0, { running := [r] })] }
    (s 64).here.seq.goal = some 4 ∧ 0 < (s 64).here.outRoom ∧ placesLater (s 64) (s 64).here.part (s 64).here.launch 1 = false ∧
      placesLater (s 32) (s 32).here.part (s 32).here.launch 1 = true ∧ restoredNum 2 5 4 = 4 ∧ ((s 64).ctx 1).live ≠ 0 := by
  refine ⟨?_, ?_, ?_, ?_, ?_, ?_⟩ <;> decide

/-- The frame of a TAGR whose three operands have lanes. -/
theorem test_witness_O15 :
    let s := firing (placed (.tagr (goodXA .n32))) 1 [some 1] [some 2] [some 3]
    let o := operands s
    Opnds.lane o.a 0 ≠ none ∧ Opnds.lane o.b 0 ≠ none ∧ Opnds.lane o.c 0 ≠ none ∧ (s.here.find (s.focus.frame + 0)).isSome = true := by
  decide

theorem test_witness_O16 :
    (goodXA .n8x4).cond.toNat ≤ 3 ∧ (goodXA .n8x4).ty.isInt = true ∧ 2 ≤ (goodXA .n8x4).ty.epl ∧
      TakesPart (goodXA .n8x4) (operands (firing addWord 1 [some 1] [some 2] [])) 0 := by
  unfold TakesPart
  decide

/-- Finite operands whose results lie in range, and of opposite sign; a fused form; an integer to convert. -/
theorem test_witness_O17 :
    let x := goodXA .f32
    let s := addF32 0x3F800000 0x40490FDB
    let z := addF32 0x3F800000 0xBF800000
    let f := firing (placed (.fma x)) 1 [some 0x3F800000] [some 0x40490FDB] [some 0x3F000000]
    let c : XA := { x with imm := 0x20000 }
    x.empty = .absorb ∧ trapEnables s.here.fpmode = 0 ∧ effRnd x.rnd (operands s).mode ≠ .sto ∧ F32Pair s 0x3F800000 0x40490FDB ∧
      f32Finite 0x3F800000 ∧ f32Finite 0x40490FDB ∧
      (f32Fine 0x3F800000 + f32Fine 0x40490FDB).natAbs ≤ (f32Fine 0x7F7FFFFF).natAbs ∧
      (f32Units 0x3F800000 * f32Units 0x40490FDB).natAbs ≤ (f32Fine 0x7F7FFFFF).natAbs ∧
      F32Pair z 0x3F800000 0xBF800000 ∧ (0xBF800000 : W32) = 0x3F800000 ^^^ 0x80000000 ∧
      F32Three f 0x3F800000 0x40490FDB 0x3F000000 ∧ x.cond.toNat ≤ 3 ∧ cvtSource c.imm = some .i32 ∧ c.cond = 0 ∧
      F32One (negF32 0x3F800000) 0x3F800000 := by
  unfold F32Pair F32Three F32One f32Finite
  refine ⟨?_, ?_, ?_, ?_, ?_, ?_, ?_, ?_, ?_, ?_, ?_, ?_, ?_, ?_, ?_⟩ <;> decide

/-- A result for TB in the next frame, where port b of instruction 5 is free, and for a port of the firing instruction itself. -/
theorem test_witness_O21_next :
    let x : XA := { goodXA .i32 with d := ⟨.nowhere, .next 5 .b⟩ }
    let y : XA := { goodXA .i32 with d := ⟨.nowhere, .same 0 .c⟩ }
    let c := { ctxOf addWord 1 0 [some 1] [some 4] [] with ahead := 2 }
    let c := { c with frames := c.frames ++ [{ num := 1 }] }
    let s : State := { focus := { k := 1 }, ctxs := [(0, c)] }
    computes (.add x) = some (⟨.nowhere, .next 5 .b⟩, 2, 2, resAdd x) ∧ computes (.add y) = some (⟨.nowhere, .same 0 .c⟩, 2, 2, resAdd y) ∧
      (trapEnables s.here.fpmode &&& (resAdd x (operands s)).flags) = 0 ∧ s.focus.frame + s.focus.k ≤ s.here.ahead ∧
      (∃ t, exec (.add x) s = .next t) ∧ (∃ t, exec (.add y) s = .next t) ∧ (resAdd x (operands s)).tb.lanes.length = 1 ∧
      ((s.here.find 1).any fun fr => !fr.fired.getLsbD 5 && (slotAt fr 5 .b).isNone) = true ∧ (s.here.find 0).isSome = true := by
  refine ⟨rfl, rfl, ?_, ?_, ⟨_, rfl⟩, ⟨_, rfl⟩, ?_, ?_, ?_⟩ <;> decide

theorem test_witness_O22_tb :
    let x : XA := { goodXA .i32 with d := ⟨.nowhere, .chan 2⟩ }
    let s := firing addWord 1 [some 1] [some 2] []
    computes (.add x) = some (⟨.nowhere, .chan 2⟩, 2, 2, resAdd x) ∧ (∃ t, exec (.add x) s = .next t) := ⟨rfl, ⟨_, rfl⟩⟩

/-- Operands of the unary cases: zeros, infinities, a negative number, 3, a power of two. -/
theorem test_witness_O28_unary :
    let one (u : W32) : Prop := F32One (negF32 u) u
    (one 0x80000000 ∧ (0x80000000 : W32).extractLsb' 0 31 = 0) ∧ (one 0x7F800000 ∧ (0x7F800000 : W32).extractLsb' 0 31 = 0x7F800000) ∧
      (one 0xBF800000 ∧ f32Finite 0xBF800000 ∧ f32Units 0xBF800000 < 0) ∧
      (one 0x40400000 ∧ f32Units 0x40400000 = 3 * 2 ^ 149) ∧ (0x40000000 : W32) = BitVec.ofNat 32 (128 * 2 ^ 23) ∧
      (goodXA .f32).sat = .off ∧ effRnd (goodXA .f32).rnd (operands (negF32 0x40400000)).mode ≠ .sto := by
  unfold F32One f32Finite
  refine ⟨⟨?_, ?_⟩, ⟨?_, ?_⟩, ⟨?_, ?_, ?_⟩, ⟨?_, ?_⟩, ?_, ?_, ?_⟩ <;> decide

/-! ### Clauses of the accesses, the fences and the frames -/

theorem test_witness_O31_full :
    let s := atScratch (.st .n32 goodXM) 1 [some 1] [some 7] []
    validElts Fmt.n32.epl ((operands s).fin.getD 0 0) = Fmt.n32.epl ∧
      (SMap.get {} s.slices (sliceOf s s.here.part (s.focus.place / 256) 0 0)).queue = [] := by decide

theorem test_witness_O35_room :
    (walkPages {} 0).length < 16 ∧ ∀ e ∈ ({} : State).slices, e.2.queue = [] := by decide

/-- An SBAR whose unit is frozen, and one whose unit a fault has stopped inside a token. -/
theorem test_witness_O36_sbar :
    let s (o : OpUnit) : State := { firing (placed (.sbar anyDst 2 .die)) 1 [some 1] [] [] with units := [(19, o)] }
    let f := s { active := true, frozen := true }
    let h := s { active := true, halfway := true }
    sbarUnits 2 = [19] ∧ (f.unit 19).frozen = true ∧ (h.unit 19).frozen = false ∧ cutWaits h 0 19 = true ∧ FreshFiring h ∧
      (s {}).focus.k = 1 ∧ cutWaits (s {}) 0 19 = false ∧ ((s {}).unit 19).frozen = false ∧ (operands h).a = [some 1] := by
  unfold FreshFiring
  refine ⟨?_, ?_, ?_, ?_, ?_, ?_, ?_, ?_, ?_⟩ <;> decide

/-- The halting frame is the head frame and has fired all. -/
theorem test_witness_O49_halting :
    let s : State := { ctxs := [(0, { image := imageOf addWord, ahead := 1, frames := [{ num := 0, fired := 1 }], halting := some 0 })]
                       outs := [(4, { src := .context 0 })], ins := [(2, { sink := .lead 0, queue := [anEos] })] }
    let x := s.ctx 0
    x.find x.chead = some { num := 0, fired := 1 } ∧ x.chead < x.ahead ∧ x.frozen = false ∧ x.killed = false ∧
      (1 : BitVec 128) &&& Image.commit x.image = Image.commit x.image ∧ x.stops = [] ∧ x.halting = some x.chead ∧
      (s.outc 4).src = .context 0 ∧ feedsCtx (s.inc 2).sink 0 = true := by
  refine ⟨?_, ?_, ?_, ?_, ?_, ?_, ?_, ?_, ?_⟩ <;> decide

/-! ### Clauses of the operator units and of the memory events -/

/-- The elements and the mark of a READ in the scratchpad. -/
theorem test_witness_O51_reads :
    let o : OpUnit := { active := true, started := true, p := [0x06000000, MarkClass.er.code.zeroExtend 32 <<< 28, 3, 1, 1, 1, 0, 0, 0, 0, 0] }
    let s (o : OpUnit) : State := { sending 18 o [] with ctxs := [(0, { bases := [0xFFFFFFFFE00000] })] }
    let r := s o
    let m := s { o with i0 := 3 }
    let got (x : State × List (Except MemFault W32)) : Bool := x.2.all fun e => match e with
      | .ok _ => true
      | .error _ => false
    unitReady (r.unit 18) = true ∧ (r.unit 18).past = false ∧ sbarHolds r 0 18 = false ∧ (r.unit 18).i0 < extent (r.unit 18) 0 ∧
      rowStart r 0 (r.unit 18) % 4 = 0 ∧ got (readLanes r (viaUnit r 0 18 (r.unit 18)) (rowStart r 0 (r.unit 18)) false 3) = true ∧
      extent (m.unit 18) 0 ≤ (m.unit 18).i0 ∧ (stepMarks (m.unit 18))[(m.unit 18).dim]? = some .er := by
  refine ⟨?_, ?_, ?_, ?_, ?_, ?_, ?_, ?_⟩ <;> decide +kernel

/-- A lane that WRITE stores into the scratchpad: inside its row, and at the end of one that no mark closes. -/
theorem test_witness_O51_writes :
    let o : OpUnit := { active := true, p := [0x06000000, 0, 2, 2, 1, 1, 8, 0, 0, 0, 0] }
    let s (o : OpUnit) : State := { unitState 20 o [.data 0 0 3 5 0 [some 7]] with ctxs := [(0, { bases := [0xFFFFFFFFE00000] })] }
    let stored (s : State) : Option (BitVec 8) := match (storeLane (drain s 0 20) (viaUnit s 0 20 (s.unit 20))
        ((rowStart s 0 (s.unit 20) + (s.unit 20).i0 * 4) % 2 ^ 56) 7 (validMask .n32 0)).2 with
      | .ok st => some st
      | .error _ => none
    UnitWaits (s o) 0 20 ∧ headOf (s o) 0 20 0 = some (4, .data 0 0 3 5 0 [some 7]) ∧ unitFmt o = .n32 ∧ stored (s o) = some 0 ∧
      (0 + Fmt.n32.epl < extent o 0 ∧ 0 < extent o 3) ∧ stored (s { o with i0 := 1 }) = some 0 ∧ extent o 0 ≤ 1 + Fmt.n32.epl ∧
      dimClass o 0 = 0 ∧ 0 + 1 < extent o 1 := by
  refine ⟨waits_bare _ _ _ rfl ?_, ?_, ?_, ?_, ?_, ?_, ?_, ?_, ?_⟩ <;> decide +kernel

/-- ROUTE by a predicate, with a mark, and replaying a row for expert 0; MERGE by keys. -/
theorem test_witness_O51_routes :
    let t (k : BitVec 12) (l : List Lane) : Token := .data 0 0 3 k 0 l
    let two (u : Nat) (o : OpUnit) (a b : Token) : State :=
      { units := [(u, o)], ins := [(4, { desc := open1, queue := [a], sink := .unit u 0 }), (5, { desc := open1, queue := [b], sink := .unit u 1 })] }
    let p := two 24 { active := true, p := [1] } (t 5 [some 1, some 2]) (t 0 [some 0, some 9])
    let m := unitState 24 { active := true, p := [0] } [aMark]
    let r := two 24 { active := true, p := [2, 0, 8], started := true, toks := [(0, t 5 [some 1])], last := [some 0, none] } aMark (t 0 [some 0])
    let r := { r with outs := [(9, { src := .unit 24 0, desc := open1, credits := 0 })] }
    let g := two 25 { active := true, p := [1] } (t 5 [some 1]) (t 3 [some 2])
    (UnitWaits p 0 24 ∧ headOf p 0 24 0 = some (4, t 5 [some 1, some 2]) ∧ headOf p 0 24 1 = some (5, t 0 [some 0, some 9]) ∧
        ((p.unit 24).p.getD 0 0).toNat % 4 = 1) ∧
      (UnitWaits m 0 24 ∧ headOf m 0 24 0 = some (4, aMark) ∧ aMark.isMark = true) ∧
      (unitOpen r 0 24 = true ∧ canSend r 9 = false ∧ (r.unit 24).started = true ∧ headOf r 0 24 1 = some (5, t 0 [some 0]) ∧
        logEntry 0 0 = (false, (r.unit 24).n % 2 ^ 20, 0) ∧ routeOutput (r.unit 24) 0 = some 0 ∧ unitOut r 0 24 0 = some 9) ∧
      UnitWaits g 0 25 ∧ ((mergeInputs g 0).filterMap fun n => headOf g 0 25 n) = [(4, t 5 [some 1])] ++ (5, t 3 [some 2]) :: [] ∧
      (mergeInputs g 0).length = 2 := by
  refine ⟨⟨waits_bare _ _ _ rfl ?_, ?_, ?_, ?_⟩, ⟨waits_bare _ _ _ rfl ?_, ?_, ?_⟩, ⟨?_, ?_, ?_, ?_, ?_, ?_, ?_⟩,
    waits_bare _ _ _ rfl ?_, ?_, ?_⟩ <;> decide +kernel

/-- An index in the range of a GATHER in the scratchpad. -/
theorem test_witness_O52_gathers :
    let t : Token := .data 0 0 3 5 0 [some 1]
    let g : State := { unitState 27 { active := true, p := [0x06000000, 0, 9, 0, 0, 0, 0, 0, 0, 0] } [t] with ctxs := [(0, { bases := [0xFFFFFFFFE00000] })] }
    let o := g.unit 27
    let r := gatherElement (drain g 0 27) (viaUnit g 0 27 o) 32
      (((unitBase g 0 o : Int) + (o.p.getD 9 0).toInt + ((1 : W32).toNat : Int) * (32 : Nat) / 8) % 2 ^ 56).toNat true
    let v : Option W32 := match r.2 with
      | .ok v => some v
      | .error _ => none
    UnitWaits g 0 27 ∧ headOf g 0 27 0 = some (4, t) ∧ (1 : W32).toNat < extent o 0 ∧ extent o 0 ≤ 2 ^ 31 ∧ elemWidth (unitFmt o) = 32 ∧
      v = some 0 ∧ (r.1.unit 27 = g.unit 27) ∧ r.1.outs = g.outs := by
  refine ⟨waits_bare _ _ _ rfl ?_, ?_, ?_, ?_, ?_, ?_, ?_, ?_⟩ <;> decide +kernel

/-- An OPSET whose write has taken effect: with a further lane, and with none; a word of an island. -/
theorem test_witness_O52_opset :
    let i : Instr := .opset anyDst 24 2
    let s (l : List Lane) : State :=
      let s := firing (placed i) l.length l [] []
      s.setCtx 0 { s.ctx 0 with inflight := [⟨0, 0, l.length, .parameter 24 2 0⟩] }
    let w : ParamWrite := ⟨2, 5, 0, 0, 0⟩
    let x : State := { islands := [(0, { writes := [w] })] }
    (inflightOf ((s [some 1]).ctx 0) 0 0 = some ⟨0, 0, 1, .parameter 24 2 0⟩ ∧ Image.instr ((s [some 1]).ctx 0).image 0 = some i ∧
        (operands (focusOn (s [some 1]) 0 0 0 1)).a = [some 1]) ∧
      (operands (focusOn (s [some 1, none, some 3]) 0 0 0 3)).a = [some 1, none, some 3] ∧ (x.island 0).writes = [w] ∧
      (x.island 0).frozen = false ∧ islandBoundary x 0 = true ∧ islandHeld x w.ctx = false := by
  refine ⟨⟨?_, ?_, ?_⟩, ?_, ?_, ?_, ?_, ?_⟩ <;> decide +kernel

/-- Token packets of two partitions at an output; lines of the L2 and of a bank that an error strikes. -/
theorem test_witness_O53_shares :
    let x : Packet := { kind := .token, part := 0, flits := 3, die := 0, index := 5 }
    let r : Router := { queue := [x] }
    let b : State := (({} : State).setTile 0 { l1 := [zeroLine] })
    x.vc < 4 ∧ (∀ y ∈ r.queue, y.vc < 4) ∧ headPacket r x.vc 0 = some x ∧ SMap.find? r.turns x.vc = none ∧
      roundRobin 31 (fun q => (headPacket r x.vc q).isSome) = some 0 ∧ x.flits ≤ deficit r x.vc 0 + vcWeight {} 0 x.vc ∧
      x.flits ≤ deficit { r with deficits := [(x.vc * 32, 4)], turns := [(x.vc, 0)] } x.vc 0 ∧
      l2Find { l2 := [zeroLine] } (BitVec.ofNat 8 0) 0 = some zeroLine ∧ l1Find (b.tile 0) (BitVec.ofNat 8 0) 0 = some zeroLine := by
  refine ⟨?_, ?_, ?_, ?_, ?_, ?_, ?_, ?_, ?_⟩ <;> decide

/-! ### Clauses of snapshots and checkpoints -/

/-- A snapshot whose records leave something out. -/
theorem test_witness_O56_rest :
    let y : Snapshot := { aSnap [] [] with rest := List.replicate 8 7 }
    let v := snapState y
    let a := partWrite v 0 (y.va + y.size) y.rest
    y.rest ≠ [] ∧ went a = true ∧
      went (partWrite a.1 0 y.va (imageHeader aRun.graph y.pre.toNat aRun.launch.slot y.nrec (y.size + y.rest.length) y.time)) = true := by
  refine ⟨?_, ?_, ?_⟩ <;> decide +kernel

theorem test_witness_O58_memories : Memory.wf ({} : State).mem ∧ Memory.wf [⟨1, 2⟩] := by decide

end Sys2Proof.Tests
end

/-! ## Memory, read and written (O8) -/

namespace Sys2Proof.Machine.Memory
open Sys2Proof

/-! ### One byte -/

/-- Without the cells of an address, the address reads as nothing had been written there. -/
theorem read_without (m : Memory) (a b : Nat) :
    read (m.filter fun c => c.1 != a) b = if b = a then initialByte else read m b := by
  induction m with
  | nil => simp
  | cons c t ih =>
    obtain ⟨k, v⟩ := c
    by_cases hk : k = a
    · subst hk
      by_cases hb : b = k
      · simpa [hb] using ih
      · simpa [read, hb, Ne.symm hb] using ih
    · by_cases hb : k = b
      · subst hb; simp [read, hk]
      · simpa [read, hk, hb] using ih

/-- A cell placed among cells of other addresses is read at its own address alone. -/
theorem read_place {m : Memory} {a : Nat} (ha : ∀ c ∈ m, c.1 ≠ a) (v : Byte) (b : Nat) :
    read (place a v m) b = if b = a then v else read m b := by
  induction m with
  | nil => simp [place, read, eq_comm]
  | cons c t ih =>
    obtain ⟨k, x⟩ := c
    have hk : k ≠ a := ha (k, x) List.mem_cons_self
    by_cases hlt : a < k
    · simp [place, hlt, read, eq_comm]
    · have ht := ih fun c hc => ha c (List.mem_cons_of_mem _ hc)
      by_cases hb : k = b
      · subst hb; simp [place, hlt, read, hk]
      · simpa [place, hlt, read, hb] using ht

/-- A byte reads back, and no other byte changes (R3). -/
theorem read_write (m : Memory) (a b : Nat) (v : Byte) : read (write m a v) b = if b = a then v else read m b := by
  unfold write
  dsimp only
  split
  case isTrue hv => rw [read_without, hv]
  case isFalse =>
    have hother : ∀ c ∈ m.filter (fun c => c.1 != a), c.1 ≠ a := fun c hc => by simpa using (List.mem_filter.1 hc).2
    rw [read_place hother, read_without]
    split <;> rfl

/-! ### A run of bytes -/

/-- A run leaves what lies below and behind it. -/
theorem read_writeBytes_outside (l : List (Option Byte)) (m : Memory) (a b : Nat) (h : b < a ∨ a + l.length ≤ b) :
    read (writeBytes m a l) b = read m b := by
  induction l generalizing m a with
  | nil => rfl
  | cons x t ih =>
    rw [List.length_cons] at h
    have ht : b < a + 1 ∨ a + 1 + t.length ≤ b := by omega
    cases x with
    | none => rw [writeBytes_none, ih _ _ ht]
    | some v =>
      have hb : b ≠ a := by omega
      rw [writeBytes_some, ih _ _ ht, read_write, if_neg hb]

theorem bytes_succ (m : Memory) (a n : Nat) : bytes m a (n + 1) = read m a :: bytes m (a + 1) n := by
  simp [bytes, List.range_succ_eq_map, Function.comp_def, Nat.add_assoc, Nat.add_comm 1]

/-- A whole run reads back. -/
theorem bytes_writeBytes (l : List Byte) (m : Memory) (a : Nat) : bytes (writeBytes m a (l.map some)) a l.length = l := by
  induction l generalizing m a with
  | nil => rfl
  | cons v t ih =>
    have hfirst : read (writeBytes (write m a v) (a + 1) (t.map some)) a = v := by
      rw [read_writeBytes_outside _ _ _ _ (.inl (Nat.lt_succ_self a)), read_write, if_pos rfl]
    rw [List.length_cons, bytes_succ, List.map_cons, writeBytes_some, hfirst, ih]

/-! ### Little-endian values (R3) -/

/-- The `n` low bytes of a value, put together again. -/
theorem leNat_natBytes (n v : Nat) : leNat (natBytes n v) = v % 256 ^ n := by
  induction n generalizing v with
  | zero => simp [natBytes, leNat, Nat.mod_one]
  | succ n ih =>
    rw [natBytes, leNat, ih, Nat.pow_succ', Nat.mod_mul]
    simp

/-- What stands where a little-endian value was put. -/
theorem leNat_bytes_put (m : Memory) (a n v : Nat) : leNat (bytes (put m a n v) a n) = v % 256 ^ n := by
  have h := bytes_writeBytes (natBytes n v) m a
  rw [natBytes_length] at h
  rw [put, h, leNat_natBytes]

theorem word32_put (m : Memory) (a : Nat) (v : W32) : word32 (put m a 4 v.toNat) a = v := by
  have hv : v.toNat % 256 ^ 4 = v.toNat := Nat.mod_eq_of_lt v.isLt
  rw [word32, leNat_bytes_put, hv, BitVec.ofNat_toNat, BitVec.setWidth_eq]

theorem word64_put (m : Memory) (a : Nat) (v : W64) : word64 (put m a 8 v.toNat) a = v := by
  have hv : v.toNat % 256 ^ 8 = v.toNat := Nat.mod_eq_of_lt v.isLt
  rw [word64, leNat_bytes_put, hv, BitVec.ofNat_toNat, BitVec.setWidth_eq]

/-- A value that is put leaves every byte outside its `n` bytes. -/
theorem read_put_outside (m : Memory) (a n v b : Nat) (h : b < a ∨ a + n ≤ b) : read (put m a n v) b = read m b := by
  refine read_writeBytes_outside _ _ _ _ ?_
  rwa [List.length_map, natBytes_length]

/-! ### Canonical memories -/

/-- Below its first cell a memory reads as nothing had been written. -/
theorem read_below {m : Memory} {b : Nat} (h : ∀ c ∈ m, b < c.1) : read m b = initialByte := by
  induction m with
  | nil => rfl
  | cons c t ih =>
    obtain ⟨k, v⟩ := c
    have hk : k ≠ b := (h (k, v) List.mem_cons_self).ne'
    rw [read, if_neg hk, ih fun c hc => h c (List.mem_cons_of_mem _ hc)]

theorem wf_cons {k : Nat} {v : Byte} {t : Memory} :
    wf (⟨k, v⟩ :: t) ↔ (∀ c ∈ t, k < c.1) ∧ v ≠ initialByte ∧ wf t := by
  simp only [wf, List.pairwise_cons, List.forall_mem_cons]
  exact ⟨fun ⟨⟨hk, hp⟩, hv, ht⟩ => ⟨hk, hv, hp, ht⟩, fun ⟨hk, hv, hp, ht⟩ => ⟨⟨hk, hp⟩, hv, ht⟩⟩

theorem read_cons_self (k : Nat) (v : Byte) (t : Memory) : read (⟨k, v⟩ :: t) k = v := if_pos rfl

/-- Memories that read alike have no first cell where the other has none as low: a cell's byte is never what an unlisted address
reads as. -/
theorem not_below_of_read_eq {k : Nat} {v : Byte} {t m : Memory} (h : wf (⟨k, v⟩ :: t))
    (hr : ∀ a, read (⟨k, v⟩ :: t) a = read m a) : ¬ ∀ c ∈ m, k < c.1 := by
  intro hlow
  obtain ⟨-, hv, -⟩ := wf_cons.1 h
  apply hv
  rw [← read_cons_self k v t, hr k, read_below hlow]

/-- Canonical memories that read alike are equal: their first cells agree, and so do the rest. -/
theorem ext_of_read {m m' : Memory} (h : wf m) (h' : wf m') (hr : ∀ a, read m a = read m' a) : m = m' := by
  induction m generalizing m' with
  | nil =>
    cases m' with
    | nil => rfl
    | cons c t => exact absurd (by simp) (not_below_of_read_eq h' fun a => (hr a).symm)
  | cons c t ih =>
    cases m' with
    | nil => exact absurd (by simp) (not_below_of_read_eq h hr)
    | cons c' t' =>
      obtain ⟨k, v⟩ := c
      obtain ⟨k', v'⟩ := c'
      obtain ⟨hk, -, ht⟩ := wf_cons.1 h
      obtain ⟨hk', -, ht'⟩ := wf_cons.1 h'
      have hge : ¬ k < k' := fun hlt => not_below_of_read_eq h hr
        (List.forall_mem_cons.2 ⟨hlt, fun c hc => hlt.trans (hk' c hc)⟩)
      have hle : ¬ k' < k := fun hlt => not_below_of_read_eq h' (fun a => (hr a).symm)
        (List.forall_mem_cons.2 ⟨hlt, fun c hc => hlt.trans (hk c hc)⟩)
      obtain rfl : k = k' := by omega
      obtain rfl : v = v' := by rw [← read_cons_self k v t, hr k, read_cons_self]
      have hrest : ∀ a, read t a = read t' a := by
        intro a
        by_cases ha : k = a
        · subst ha; rw [read_below hk, read_below hk']
        · simpa [read, ha] using hr a
      rw [ih ht ht' hrest]

end Sys2Proof.Machine.Memory

namespace Sys2Proof.Machine
open Sys2Proof

/-- Settles O8: a byte by the cell that a write places, words by the bytes of a run that reads back, and equality by comparing the
first cells of canonical memories. -/
theorem memoryReadsBackWhatWasWritten : Obligations.MemoryReadsBackWhatWasWritten :=
  ⟨Memory.read_write, Memory.word32_put, Memory.word64_put, Memory.read_put_outside, fun _ _ => Memory.ext_of_read⟩

end Sys2Proof.Machine

/-! ## Accesses that fault (O35) -/

namespace Sys2Proof.SMap

/-- What holds of every entry and of the default holds of what is read. -/
theorem get_of_forall {α : Type} {p : α → Prop} {m : SMap α} {d : α} (h : ∀ e ∈ m, p e.2) (hd : p d) (n : Nat) :
    p (get d m n) := by
  induction m with
  | nil => exact hd
  | cons e t ih =>
    obtain ⟨hk, ht⟩ := List.forall_mem_cons.1 h
    obtain ⟨k, x⟩ := e
    by_cases heq : k = n
    · simpa [get, find?, heq] using hk
    · simpa [get, find?, heq] using ih ht

end Sys2Proof.SMap

namespace Sys2Proof.Machine
open Sys2Proof

/-! ### A firing that stops at the fault of an access -/

/-- Nothing of what a stopped firing keeps (R7, R227) has changed on the way to its fault. -/
structure FiringKept (s u : State) : Prop where
  focus : u.focus = s.focus
  tiles : u.tiles = s.tiles
  stops : u.here.stops = s.here.stops
  frames : u.here.frames = s.here.frames
  out : u.here.out = s.here.out
  ack : u.here.ack = s.here.ack
  firings : u.here.firings = s.here.firings
  others : ∀ j, j ≠ s.focus.ctxId → u.ctx j = s.ctx j

theorem FiringKept.refl (s : State) : FiringKept s s := ⟨rfl, rfl, rfl, rfl, rfl, rfl, rfl, fun _ _ => rfl⟩

/-- What an access does in the caches and behind them keeps the firing, as long as no tile changes. -/
theorem FiringKept.of_caches {s u : State} (h : CachesOnly s u) (ht : u.tiles = s.tiles) : FiringKept s u := by
  have hctx (j : Nat) : u.ctx j = s.ctx j := by rw [State.ctx, State.ctx, h.ctxs]
  have hhere : u.here = s.here := by rw [State.here, State.here, h.focus, hctx]
  exact ⟨h.focus, ht, by rw [hhere], by rw [hhere], by rw [hhere], by rw [hhere], by rw [hhere], fun j _ => hctx j⟩

/-- So does the raising of flags. -/
theorem FiringKept.of_fpflags (s : State) (f : W32) : FiringKept s (s.setHere { s.here with fpflags := f }) :=
  ⟨rfl, rfl, by simp, by simp, by simp, by simp, by simp, fun _ hj => State.setHere_ctx_ne _ _ hj⟩

/-- The fault of an access stops the firing in focus. -/
theorem FiringKept.stoppedFiring {s u : State} (h : FiringKept s u) (e : MemFault) (detail : Option W64) (r : Resume) :
    StoppedFiring s (accessFault u e detail r) e.code (natW64 e.va) := by
  let site : StopSite := .firing u.focus.ins u.focus.frame u.focus.k r
  have honly := faultAt_only u e.code (some (natW64 e.va)) detail site
  obtain ⟨x, hx, hcode, hframe, hindex, -, hbase, -, haux, -⟩ := faultAt_spec u e.code (some (natW64 e.va)) detail site
  rw [h.focus] at hframe hindex hbase honly
  change StoppedFiring s (faultAt u e.code (some (natW64 e.va)) detail site) _ _
  refine ⟨⟨x, ?_, hcode, haux _ rfl, hbase, hindex, hframe⟩, ?_, ?_, ?_, ?_, ?_, fun j hj => ?_⟩
  · rw [hx, ← h.stops]
  · rw [hx, ← h.frames]
  · rw [hx, ← h.out]
  · rw [hx, ← h.ack]
  · rw [hx, ← h.firings]
  · rw [honly.tiles, h.tiles]
  · rw [honly.2 j hj, h.others j hj]

/-- The fault of an access adds nothing to what the access did to main memory and the L2. -/
theorem accessFault_keeps_memory (u : State) (e : MemFault) (detail : Option W64) (r : Resume) :
    (accessFault u e detail r).mem = u.mem ∧ (accessFault u e detail r).l2 = u.l2 :=
  have h := faultAt_only u e.code (some (natW64 e.va)) detail (.firing u.focus.ins u.focus.frame u.focus.k r)
  ⟨h.mem, h.l2⟩

theorem FiringKept.stoppedAtFault {s u : State} (h : FiringKept s u) (hm : u.mem = s.mem) (hl : u.l2 = s.l2) (e : MemFault)
    (detail : Option W64) (r : Resume) : StoppedAtFault s (accessFault u e detail r) e.code (natW64 e.va) := by
  obtain ⟨hmem, hl2⟩ := accessFault_keeps_memory u e detail r
  exact ⟨h.stoppedFiring e detail r, hmem.trans hm, hl2.trans hl⟩

/-- The firing of `i` stops at this fault, and memory is as it was. -/
def StopsStill (i : Instr) (s : State) (e : MemFault) : Prop :=
  ∃ t, exec i s = .next t ∧ StoppedAtFault s t e.code (natW64 e.va)

/-- It stops so once `i` comes to its fault with the state unchanged. -/
theorem stopsStill_of_exec {i : Instr} {s : State} {e : MemFault} {detail : Option W64} {r : Resume}
    (h : exec i s = .next (accessFault s e detail r)) : StopsStill i s e :=
  ⟨_, h, (FiringKept.refl s).stoppedAtFault rfl rfl e detail r⟩

/-! ### The operands of a firing of one lane -/

theorem operands_k (s : State) : (operands s).k = s.focus.k := rfl

theorem laneAt_single (v : Lane) : laneAt [v] 0 = v := rfl

/-- A firing that no fault has stopped starts with its first lane. -/
theorem resumeHere_fresh {s : State} (h : FreshFiring s) : resumeHere s = {} := by
  have hnone : (s.here.resumes.find? fun x => decide (x.1 = s.focus.ins ∧ x.2.1 = s.focus.frame)) = none := by
    rw [List.find?_eq_none]
    intro r hr
    simpa using h r hr
  rw [resumeHere, hnone]

/-! ### From the fault of a lane's access to the end of the firing -/

section
variable {s : State} {ty : Fmt} {x : XM} {a : W32} {e : MemFault}

/-- An LD of one lane is the load of that lane (R358). -/
theorem exec_ld_fault {u : State} (hk : s.focus.k = 1) (ho : x.order = .plain)
    (hf : ldLanes s (viaHere s x.scope) x ty (operands s) [0] = (u, .error e)) :
    exec (.ld ty x) s = .next (accessFault u e none {}) := by
  change execLd ty x s = _
  unfold execLd
  simp [ho, operands_k, hk, hf]

/-- The store lanes of an ST of one lane. -/
theorem stLanes_one {b : W32} (hk : s.focus.k = 1) (ha : (operands s).a = [some a]) (hb : (operands s).b = [some b]) :
    stLanes s x ty (operands s) =
      [(0, effAddr s x a, b, BitVec.ofNat 32 (validMask ty ((operands s).fin.getD 0 0)))] := by
  simp only [stLanes, operands_k, hk, ha, hb]
  rfl

/-- An ST of one lane checks that lane before it writes (R404). -/
theorem exec_st_fault {b : W32} (hk : s.focus.k = 1) (ha : (operands s).a = [some a]) (hb : (operands s).b = [some b])
    (hf : ∀ m, stCheck s (viaHere s x.scope) [(0, effAddr s x a, b, m)] = (s, .error e)) :
    exec (.st ty x) s = .next (accessFault s e none {}) := by
  change execSt ty x s = _
  unfold execSt
  simp only [stLanes_one hk ha hb, hf]

/-- A read-modify-write of one lane starts with it and changes nothing before its access (R318). -/
theorem fireRmw_fault {f : Nat → Option (W32 → W32 × FpFlags)} (hk : s.focus.k = 1) (ho : x.order = .plain) (hfresh : FreshFiring s)
    (hf : rmwLanes s (viaHere s x.scope) x (operands s) f [0] = (s, [], 0, some (0, e))) :
    ∃ r, fireRmw ty x s (operands s) f =
      accessFault (s.setHere { s.here with fpflags := raiseFlags s.here.fpflags 0 }) e (some (natW64 0)) r := by
  refine ⟨{ lane := 0, ta := [], flags := 0 ||| 0 }, ?_⟩
  have horder : orderRmw s (viaHere s x.scope) x = s := by simp [orderRmw, ho]
  unfold fireRmw
  simp only [resumeHere_fresh hfresh, operands_k, hk, horder, ite_self, List.range_one, List.drop_zero, hf]
  rfl

theorem fireRmw_stopsStill {i : Instr} {f : Nat → Option (W32 → W32 × FpFlags)}
    (hi : exec i s = .next (fireRmw ty x s (operands s) f)) (hk : s.focus.k = 1) (ho : x.order = .plain) (hfresh : FreshFiring s)
    (hf : rmwLanes s (viaHere s x.scope) x (operands s) f [0] = (s, [], 0, some (0, e))) : StopsStill i s e := by
  obtain ⟨r, hr⟩ := fireRmw_fault (ty := ty) hk ho hfresh hf
  rw [hr] at hi
  exact ⟨_, hi, (FiringKept.of_fpflags s _).stoppedAtFault rfl rfl e _ r⟩

theorem rmwLanes_misaligned {v : Via} {o : Opnds} {f : Nat → Option (W32 → W32 × FpFlags)} {g : W32 → W32 × FpFlags}
    (ha : laneAt o.a 0 = some a) (hg : f 0 = some g) (h : effAddr s x a % 4 ≠ 0) :
    rmwLanes s v x o f [0] = (s, [], 0, some (0, faultAlign (effAddr s x a))) := by
  simp [rmwLanes, ha, hg, h]

/-- A lane whose word fails before anything is written ends the read-modify-write there. -/
theorem rmwLanes_fault {v : Via} {o : Opnds} {f : Nat → Option (W32 → W32 × FpFlags)} {g : W32 → W32 × FpFlags}
    (ha : laneAt o.a 0 = some a) (hg : f 0 = some g) (h : effAddr s x a % 4 = 0)
    (hw : rmwWord s v (effAddr s x a) g = (s, .error e)) : rmwLanes s v x o f [0] = (s, [], 0, some (0, e)) := by
  simp [rmwLanes, ha, hg, h, hw]

theorem ldLanes_misaligned {v : Via} {o : Opnds} {rest : List Nat} (ha : laneAt o.a 0 = some a) (h : effAddr s x a % 4 ≠ 0) :
    ldLanes s v x ty o (0 :: rest) = (s, .error (faultAlign (effAddr s x a))) := by
  simp [ldLanes, ha, h]

theorem ldLanes_fault {u : State} {v : Via} {o : Opnds} {rest : List Nat} (ha : laneAt o.a 0 = some a) (h : effAddr s x a % 4 = 0)
    (hw : loadWord s v (effAddr s x a) = (u, .error e)) : ldLanes s v x ty o (0 :: rest) = (u, .error e) := by
  simp [ldLanes, ha, h, hw]

end

/-! ### Past the end of the scratchpad (R140) -/

section
variable {s : State} {v : Via} {va : Nat}

theorem scratchOk_past_end {place off : Nat} (h : scratchSize (s.tile place) ≤ off) : scratchOk s place off = false := by
  simp [scratchOk, Nat.not_lt.2 h]

theorem routeOf_window (hw : isWindow va = true) : routeOf s v va = .scratch (va % 2 ^ 21) := by
  rw [routeOf, if_pos hw]

/-- An element's access of the window needs nothing before it. -/
theorem beforeAccess_window (hv : v.atSlice = false) (hw : isWindow va = true) : beforeAccess s v va = (s, .ok ()) := by
  simp [beforeAccess, giveUp, hv, hw]

theorem loadWord_past_end (hv : v.atSlice = false) (hw : isWindow va = true) (h : scratchSize (s.tile v.place) ≤ va % 2 ^ 21) :
    loadWord s v va = (s, .error (faultProtection va)) := by
  simp [-Nat.reducePow, loadWord, loadGranule, beforeAccess_window hv hw, routeOf_window hw, scratchOk_past_end h]

theorem checkWrite_past_end (hv : v.atSlice = false) (hw : isWindow va = true) (h : scratchSize (s.tile v.place) ≤ va % 2 ^ 21) :
    checkWrite s v va = (s, .error (faultProtection va)) := by
  simp [-Nat.reducePow, checkWrite, beforeAccess_window hv hw, routeOf_window hw, scratchOk_past_end h]

theorem rmwWord_past_end {g : W32 → W32 × FpFlags} (hv : v.atSlice = false) (hw : isWindow va = true)
    (h : scratchSize (s.tile v.place) ≤ va % 2 ^ 21) : rmwWord s v va g = (s, .error (faultProtection va)) := by
  simp [rmwWord, rmwPoint, routeOf_window hw, checkWrite_past_end hv hw h]

end

/-! ### Walks of the page tables (R146 to R149) -/

/-- The entries that a walk of an address space reads for an address: none without a valid root. -/
def gateReads (s : State) (asid : BitVec 8) (va : Nat) : List Nat :=
  let r := SMap.get 0 s.roots asid.toNat
  if r.getLsbD 63 then walkReads s va ((r.extractLsb' 16 36).toNat * 65536) 0 levels else []

/-- A walk that finds no translation and reads no poison fails with TRANSLATION, once its reads have gone through the L2. -/
theorem gateWalk_untranslated {s : State} {asid : BitVec 8} {va : Nat} (hw : walk s asid va = none)
    (hp : ∀ a ∈ gateReads s asid va, tablePoison s a = false) :
    gateWalk s asid va = ((gateReads s asid va).foldl readTable s, .error (faultTranslation va)) := by
  have hclean : ¬ (gateReads s asid va).any (tablePoison s) = true := by simpa using hp
  unfold gateWalk
  dsimp only
  rw [← gateReads, if_neg hclean, hw]

theorem walk_invalid_root {s : State} {asid : BitVec 8} (h : (SMap.get 0 s.roots asid.toNat).getLsbD 63 = false) (va : Nat) :
    walk s asid va = none ∧ gateReads s asid va = [] := by
  simp only [walk, gateReads, h, Bool.false_eq_true, if_false, and_self]

/-! A walk depends on nothing of an address below its page of 64 KiB, so it ends alike for every address of the page. -/

theorem levels_lowest : ∀ l ∈ levels, 16 ≤ l.1 := by decide

theorem div_eq_of_samePage {va vb lo : Nat} (h : va / 65536 = vb / 65536) (hlo : 16 ≤ lo) : va / 2 ^ lo = vb / 2 ^ lo := by
  obtain ⟨k, rfl⟩ := Nat.exists_eq_add_of_le hlo
  rw [Nat.pow_add, ← Nat.div_div_eq_div_mul, ← Nat.div_div_eq_div_mul, h]

theorem walkFrom_samePage (s : State) {va vb : Nat} (h : va / 65536 = vb / 65536) (ls : List (Nat × Nat)) (hls : ∀ l ∈ ls, 16 ≤ l.1)
    (table lv : Nat) : walkFrom s va table lv ls = walkFrom s vb table lv ls := by
  induction ls generalizing table lv with
  | nil => rfl
  | cons l rest ih =>
    obtain ⟨hlo, hrest⟩ := List.forall_mem_cons.1 hls
    simp only [walkFrom, div_eq_of_samePage h hlo, ih hrest]

theorem walkReads_samePage (s : State) {va vb : Nat} (h : va / 65536 = vb / 65536) (ls : List (Nat × Nat)) (hls : ∀ l ∈ ls, 16 ≤ l.1)
    (table lv : Nat) : walkReads s va table lv ls = walkReads s vb table lv ls := by
  induction ls generalizing table lv with
  | nil => rfl
  | cons l rest ih =>
    obtain ⟨hlo, hrest⟩ := List.forall_mem_cons.1 hls
    simp only [walkReads, div_eq_of_samePage h hlo, ih hrest]

theorem gateReads_samePage (s : State) (asid : BitVec 8) {va vb : Nat} (h : va / 65536 = vb / 65536) :
    gateReads s asid va = gateReads s asid vb := by
  simp only [gateReads, walkReads_samePage s h levels levels_lowest]

/-- The physical address of a leaf is one of a page of 64 KiB (R147). -/
theorem pteKind_leaf_page {level : Nat} {e : W64} {pa : Nat} {sh w : Bool} (h : pteKind level e = .leaf pa sh w) : 65536 ∣ pa := by
  unfold pteKind at h
  dsimp only at h
  split at h
  · cases h
  · split at h
    · split at h
      · cases h
      · injection h with hpa
        rw [← hpa]
        exact Nat.dvd_mul_left _ _
    · split at h <;> cases h

/-- What a walk finds is a page of 64 KiB or more, at an address of such a page. -/
theorem walkFrom_page {s : State} {va n pa : Nat} {sh w : Bool} (ls : List (Nat × Nat)) (hls : ∀ l ∈ ls, 16 ≤ l.1) (table lv : Nat)
    (h : walkFrom s va table lv ls = some (n, pa, sh, w)) : 16 ≤ n ∧ 65536 ∣ pa := by
  induction ls generalizing table lv with
  | nil => cases h
  | cons l rest ih =>
    obtain ⟨hlo, hrest⟩ := List.forall_mem_cons.1 hls
    rw [walkFrom] at h
    split at h
    case h_1 => cases h
    case h_2 hleaf =>
      cases h
      exact ⟨hlo, pteKind_leaf_page hleaf⟩
    case h_3 => exact ih hrest _ _ h

/-- A hole is made of whole pages (R23). -/
theorem isHole_page {a b : Nat} (h : a / 65536 = b / 65536) : isHole a = isHole b := by
  unfold isHole
  rw [decide_eq_decide]
  omega

/-- Two addresses of a page of 64 KiB lie on one page of 64 KiB under every translation. -/
theorem phys_samePage {va vb n pa : Nat} (h : va / 65536 = vb / 65536) (hn : 16 ≤ n) (hpa : 65536 ∣ pa) :
    (pa + va % 2 ^ n) / 65536 = (pa + vb % 2 ^ n) / 65536 := by
  obtain ⟨q, rfl⟩ := hpa
  obtain ⟨k, rfl⟩ := Nat.exists_eq_add_of_le hn
  have hsplit (x : Nat) : x % 2 ^ (16 + k) = x % 65536 + 65536 * (x / 65536 % 2 ^ k) := by
    rw [Nat.pow_add, Nat.mod_mul]
  rw [hsplit, hsplit, h]
  omega

theorem walk_none_samePage {s : State} {asid : BitVec 8} {va vb : Nat} (h : va / 65536 = vb / 65536) (hw : walk s asid va = none) :
    walk s asid vb = none := by
  unfold walk at hw ⊢
  dsimp only at hw ⊢
  rw [← walkFrom_samePage s h levels levels_lowest]
  split at hw
  case isFalse hroot => rw [if_neg hroot]
  case isTrue hroot =>
    rw [if_pos hroot]
    split at hw
    case h_2 => rfl
    case h_1 hfrom =>
      obtain ⟨hn, hpa⟩ := walkFrom_page levels levels_lowest _ _ hfrom
      rw [← isHole_page (phys_samePage h hn hpa)]
      split at hw
      case isTrue hhole => rw [if_pos hhole]
      case isFalse => cases hw

/-! ### What the reads of a walk leave alone (R148) -/

theorem l2Evict_tiles (s : State) (l : Line) : (l2Evict s l).tiles = s.tiles := by
  unfold l2Evict
  dsimp only
  split <;> rfl

theorem l2Way_tiles (s : State) (part slice line : Nat) : (l2Way s part slice line).1.tiles = s.tiles := by
  unfold l2Way
  dsimp only
  split
  · rfl
  · split
    · exact l2Evict_tiles _ _
    · rfl

theorem readTable_tiles (s : State) (pa : Nat) : (readTable s pa).tiles = s.tiles := by
  unfold readTable
  dsimp only
  split
  · rfl
  · exact l2Way_tiles _ _ _ _

theorem foldl_readTable_tiles (l : List Nat) (s : State) : (l.foldl readTable s).tiles = s.tiles := by
  induction l generalizing s with
  | nil => rfl
  | cons a l ih => rw [List.foldl_cons, ih, readTable_tiles]

/-! ### A walk that an access waits for, and that fails -/

/-- A state whose walk for an address has made its reads: the slots of the slices and the walks in progress were `x` and `y` then. -/
def walked (s : State) (asid : BitVec 8) (va : Nat) (x : SMap Slice) (y : SMap (List Fill)) : State :=
  (gateReads s asid va).foldl readTable { s with slices := x, walks := y }

theorem walked_tiles (s : State) (asid : BitVec 8) (va : Nat) (x : SMap Slice) (y : SMap (List Fill)) :
    (walked s asid va x y).tiles = s.tiles := foldl_readTable_tiles _ _

theorem walked_only (s : State) (asid : BitVec 8) (va : Nat) (x : SMap Slice) (y : SMap (List Fill)) :
    CachesOnly s (walked s asid va x y) :=
  (CachesOnly.fold readTable_only _ _).after rfl

/-- Without a valid root nothing is read, and nothing else changes. -/
theorem walked_invalid_root {s : State} {asid : BitVec 8} (h : (SMap.get 0 s.roots asid.toNat).getLsbD 63 = false) (va : Nat)
    (x : SMap Slice) (y : SMap (List Fill)) : walked s asid va x y = { s with slices := x, walks := y } := by
  rw [walked, (walk_invalid_root h va).2, List.foldl_nil]

/-! Neither the slots of the slices nor the walks in progress matter to what a walk reads and finds. -/

theorem tableWordAt_with (s : State) (x : SMap Slice) (y : SMap (List Fill)) (pa : Nat) :
    tableWordAt { s with slices := x, walks := y } pa = tableWordAt s pa := rfl

theorem tablePoison_with (s : State) (x : SMap Slice) (y : SMap (List Fill)) (pa : Nat) :
    tablePoison { s with slices := x, walks := y } pa = tablePoison s pa := rfl

theorem walkFrom_with (s : State) (x : SMap Slice) (y : SMap (List Fill)) (va : Nat) (ls : List (Nat × Nat)) (table lv : Nat) :
    walkFrom { s with slices := x, walks := y } va table lv ls = walkFrom s va table lv ls := by
  induction ls generalizing table lv with
  | nil => rfl
  | cons l rest ih => simp only [walkFrom, tableWordAt_with, ih]

theorem walkReads_with (s : State) (x : SMap Slice) (y : SMap (List Fill)) (va : Nat) (ls : List (Nat × Nat)) (table lv : Nat) :
    walkReads { s with slices := x, walks := y } va table lv ls = walkReads s va table lv ls := by
  induction ls generalizing table lv with
  | nil => rfl
  | cons l rest ih => simp only [walkReads, tableWordAt_with, ih]

theorem walk_with (s : State) (x : SMap Slice) (y : SMap (List Fill)) (asid : BitVec 8) (va : Nat) :
    walk { s with slices := x, walks := y } asid va = walk s asid va := by
  simp only [walk, walkFrom_with]

theorem gateReads_with (s : State) (x : SMap Slice) (y : SMap (List Fill)) (asid : BitVec 8) (va : Nat) :
    gateReads { s with slices := x, walks := y } asid va = gateReads s asid va := by
  simp only [gateReads, walkReads_with]

theorem walked_with (s : State) (x x' : SMap Slice) (y y' : SMap (List Fill)) (asid : BitVec 8) (va : Nat) :
    walked { s with slices := x, walks := y } asid va x' y' = walked s asid va x' y' := by
  rw [walked, gateReads_with, walked]

/-- The tables hold no translation of an address, and no poison where the walk reads them. -/
structure NoTranslation (s : State) (asid : BitVec 8) (va : Nat) : Prop where
  walk : walk s asid va = none
  clean : ∀ a ∈ gateReads s asid va, tablePoison s a = false

theorem NoTranslation.of_invalid_root {s : State} {asid : BitVec 8} (h : (SMap.get 0 s.roots asid.toNat).getLsbD 63 = false) (va : Nat) :
    NoTranslation s asid va := by
  obtain ⟨hw, hr⟩ := walk_invalid_root h va
  exact ⟨hw, by simp [hr]⟩

theorem NoTranslation.samePage {s : State} {asid : BitVec 8} {va vb : Nat} (n : NoTranslation s asid va) (h : va / 65536 = vb / 65536) :
    NoTranslation s asid vb :=
  ⟨walk_none_samePage h n.walk, gateReads_samePage s asid h ▸ n.clean⟩

theorem NoTranslation.with_slots {s : State} {asid : BitVec 8} {va : Nat} (n : NoTranslation s asid va) (x : SMap Slice)
    (y : SMap (List Fill)) : NoTranslation { s with slices := x, walks := y } asid va :=
  ⟨(walk_with ..).trans n.walk, fun a ha => (tablePoison_with ..).trans (n.clean a (gateReads_with s x y asid va ▸ ha))⟩

/-- The walk of a request's page fails for every request that joined it. -/
theorem finishWalk_untranslated {s : State} {gate : Nat} {f : Fill} (n : NoTranslation s f.asid (f.line * 128)) :
    ∃ y, finishWalk s gate f = (walked s f.asid (f.line * 128) s.slices y, .error (faultTranslation (f.line * 128))) := by
  let y := SMap.set s.walks gate ((SMap.get [] s.walks gate).filter fun g => !(g.asid == f.asid && g.line / 512 == f.line / 512))
  have hn := n.with_slots s.slices y
  have hg := gateWalk_untranslated hn.walk hn.clean
  rw [gateReads_with, ← walked] at hg
  refine ⟨y, ?_⟩
  unfold finishWalk
  dsimp only
  rw [hg]

/-- A miss fails where there is no translation, whether it walks or joins the walk of its page (R148). -/
theorem walkOrJoin_untranslated {s : State} {gate : Nat} {asid : BitVec 8} {va : Nat} (hroom : (walkPages s gate).length < 16)
    (n : NoTranslation s asid va) :
    ∃ y vb, walkOrJoin s gate asid va = (walked s asid va s.slices y, .error (faultTranslation vb)) := by
  unfold walkOrJoin
  split
  case h_1 f hjoin =>
    obtain ⟨rfl, hpage⟩ : f.asid = asid ∧ f.line / 512 = va / 65536 := by simpa using List.find?_some hjoin
    have hsame : va / 65536 = f.line * 128 / 65536 := by omega
    obtain ⟨y, hy⟩ := finishWalk_untranslated (gate := gate) (n.samePage hsame)
    exact ⟨y, _, by rw [hy, walked, walked, gateReads_samePage s _ hsame]⟩
  case h_2 =>
    refine ⟨s.walks, va, ?_⟩
    rw [walkRoom, if_pos hroom, gateWalk_untranslated n.walk n.clean]
    rfl

/-- The fault names the address of the access itself. -/
theorem walkAgain_untranslated {s : State} {gate : Nat} {asid : BitVec 8} {va : Nat} (hroom : (walkPages s gate).length < 16)
    (n : NoTranslation s asid va) (write : Bool) :
    ∃ y, walkAgain s gate asid va write = (walked s asid va s.slices y, .error (faultTranslation va)) := by
  obtain ⟨y, vb, h⟩ := walkOrJoin_untranslated hroom n
  exact ⟨y, by rw [walkAgain, h]; rfl⟩

theorem tablesFor_cached {s : State} (h : s.unmapRun = none) (asid : BitVec 8) (who : Option UnitRef) (va : Nat) :
    tablesFor s asid who va = .cached := by
  simp only [tablesFor, h]

/-- A load that finds neither a cached translation nor one in the tables fails at its gate (R149). -/
theorem translateFor_untranslated {s : State} {gate : Nat} {asid : BitVec 8} {va : Nat} (hva : va < 2 ^ 56) (hu : s.unmapRun = none)
    (ht : tlbFind s gate asid va = none) (hroom : (walkPages s gate).length < 16) (n : NoTranslation s asid va)
    (who : Option UnitRef) (write : Bool) :
    ∃ y, translateFor s gate asid who va write = (walked s asid va s.slices y, .error (faultTranslation va)) := by
  obtain ⟨y, h⟩ := walkAgain_untranslated hroom n write
  refine ⟨y, ?_⟩
  rw [translateFor, tablesFor_cached hu, translate]
  simp only [Nat.mod_eq_of_lt hva, ht, h]

/-! ### The slice of a line at which no request waits (R145) -/

theorem window_queue (q : Slice) : q.window.queue = q.queue := by
  rw [Slice.window]
  split <;> rfl

/-- Where no request waits before it, an access waits for its own slot alone. -/
theorem waitSlot_alone (n : Nat) (s : State) (slice part : Nat) (h : (SMap.get {} s.slices slice).queue = []) :
    ∃ x, waitSlot s slice part n = { s with slices := x } := by
  induction n generalizing s with
  | zero => exact ⟨_, rfl⟩
  | succ n ih =>
    have hq : (SMap.get {} s.slices slice).window.queue = [] := (window_queue _).trans h
    unfold waitSlot
    dsimp only
    split
    · split
      · exact ⟨_, rfl⟩
      · exact ih _ (by rw [SMap.get_set_self]; exact hq)
    · rw [hq]
      exact ⟨_, rfl⟩

/-! ### A load that no translation serves (R149, R358) -/

/-- A load of an element finds its line in no cache and its page in no table: it goes to the L2 past the banks, the L2 does not hold the
line, the gate holds no translation of it and has room for a walk, no unmap runs. -/
structure Untranslated (s : State) (v : Via) (va : Nat) : Prop where
  own : v.atSlice = false
  address : va < 2 ^ 56
  memory : isWindow va = false
  route : routeOf s v va = .l2
  l2 : l2Find s (v.asid s) (lineOf va) = none
  tlb : tlbFind s (sliceOf s v.part v.die (v.asid s) (lineOf va) / 32) (v.asid s) va = none
  unmap : s.unmapRun = none
  room : (walkPages s (sliceOf s v.part v.die (v.asid s) (lineOf va) / 32)).length < 16
  tables : NoTranslation s (v.asid s) va

section
variable {s : State} {v : Via} {va : Nat}

/-- The slots of the slices do not matter to it. -/
theorem Untranslated.with_slices (h : Untranslated s v va) (x : SMap Slice) : Untranslated { s with slices := x } v va :=
  ⟨h.own, h.address, h.memory, h.route, h.l2, h.tlb, h.unmap, h.room, h.tables.with_slots x s.walks⟩

theorem l2Line_untranslated (h : Untranslated s v va) :
    ∃ y, l2Line s v va false = (walked s (v.asid s) va s.slices y, .error (faultTranslation va)) := by
  obtain ⟨y, hy⟩ := translateFor_untranslated h.address h.unmap h.tlb h.room h.tables v.who false
  exact ⟨y, by simp only [l2Line, h.l2, hy]⟩

theorem l2Access_untranslated (h : Untranslated s v va) (hq : ∀ e ∈ s.slices, e.2.queue = []) :
    ∃ x y, l2Access s v va false = (walked s (v.asid s) va x y, .error (faultTranslation va)) := by
  let slice := sliceOf s v.part v.die (v.asid s) (lineOf va)
  obtain ⟨x, hx⟩ := waitSlot_alone (2 * (SMap.get {} s.slices slice).queue.length + 2) s slice v.part
    (SMap.get_of_forall (p := fun q : Slice => q.queue = []) hq rfl slice)
  obtain ⟨y, hy⟩ := l2Line_untranslated (h.with_slices x)
  have hwalked := walked_with s x x s.walks y (v.asid s) va
  refine ⟨x, y, ?_⟩
  rw [l2Access, hx, hy, ← hwalked]
  rfl

/-- An element's access of memory needs nothing before it while no unmap runs. -/
theorem beforeAccess_memory (hv : v.atSlice = false) (hw : isWindow va = false) (hu : s.unmapRun = none) :
    beforeAccess s v va = (s, .ok ()) := by
  simp [beforeAccess, giveUp, hv, hw, settleLine, tablesFor_cached hu]

theorem loadWord_untranslated (h : Untranslated s v va) (hq : ∀ e ∈ s.slices, e.2.queue = []) :
    ∃ x y, loadWord s v va = (walked s (v.asid s) va x y, .error (faultTranslation va)) := by
  obtain ⟨x, y, hxy⟩ := l2Access_untranslated h hq
  refine ⟨x, y, ?_⟩
  simp only [loadWord, loadGranule, beforeAccess_memory h.own h.memory h.unmap, h.route, hxy]

/-- An address that names memory goes past the banks where a partition in scoped mode has none on the tile (R157). -/
theorem routeOf_no_bank (hw : isWindow va = false) (hb : (s.part v.part).bound = false) (hl : l1Steps (s.tile v.place) = 0) :
    routeOf s v va = .l2 := by
  simp [routeOf, hw, hb, hl]

theorem tlbFind_none {gate : Nat} {asid : BitVec 8} (h : ∀ e ∈ SMap.get [] s.tlbs gate, e.covers asid va = false) :
    tlbFind s gate asid va = none := by
  rw [tlbFind, List.find?_eq_none]
  intro e he
  simp [h e he]

end

/-! ### The three faults, instruction by instruction -/

theorem effAddr_lt (s : State) (x : XM) (l : W32) : effAddr s x l < 2 ^ 56 := by
  unfold effAddr
  omega

/-- The memory instructions of an element that access one word for each lane, of a firing whose other ports hold the one lane. -/
def WordAccess (s : State) (ty : Fmt) (x : XM) (i : Instr) : Prop :=
  i = .ld ty x ∨ (∃ b, (operands s).b = [some b]) ∧
    (i = .st ty x ∨ i = .atom ty x ∨ (∃ c, (operands s).c = [some c]) ∧ i = .cas ty x)

section
variable {s : State} {ty : Fmt} {x : XM} {a : W32} {i : Instr}

/-- A word access stops at the fault that its lane meets before anything has changed: a load at the fault of its read, a store at the
fault of its check, a read-modify-write at the fault of its word. -/
theorem wordAccess_stopsStill {e : MemFault} (hi : WordAccess s ty x i) (hk : s.focus.k = 1) (ha : (operands s).a = [some a])
    (ho : x.order = .plain) (hfresh : FreshFiring s)
    (hload : ldLanes s (viaHere s x.scope) x ty (operands s) [0] = (s, .error e))
    (hstore : ∀ b m, stCheck s (viaHere s x.scope) [(0, effAddr s x a, b, m)] = (s, .error e))
    (hrmw : ∀ f : Nat → Option (W32 → W32 × FpFlags), (f 0).isSome →
      rmwLanes s (viaHere s x.scope) x (operands s) f [0] = (s, [], 0, some (0, e))) : StopsStill i s e := by
  obtain rfl | ⟨⟨b, hb⟩, rfl | rfl | ⟨⟨c, hc⟩, rfl⟩⟩ := hi
  case inl => exact stopsStill_of_exec (exec_ld_fault hk ho hload)
  case inr.inl => exact stopsStill_of_exec (exec_st_fault hk ha hb (hstore b))
  case inr.inr.inl => exact fireRmw_stopsStill rfl hk ho hfresh (hrmw _ (by simp [hb, laneAt_single]))
  case inr.inr.inr => exact fireRmw_stopsStill rfl hk ho hfresh (hrmw _ (by simp [hb, hc, laneAt_single]))

/-- A word access of an address that is no multiple of 4 stops at ALIGN. -/
theorem wordAccess_misaligned (hi : WordAccess s ty x i) (hk : s.focus.k = 1) (ha : (operands s).a = [some a])
    (ho : x.order = .plain) (hfresh : FreshFiring s) (h : effAddr s x a % 4 ≠ 0) :
    StopsStill i s (faultAlign (effAddr s x a)) := by
  have hlane : laneAt (operands s).a 0 = some a := by rw [ha, laneAt_single]
  refine wordAccess_stopsStill hi hk ha ho hfresh (ldLanes_misaligned hlane h) (fun b m => ?_) fun f hf => ?_
  · simp only [stCheck, ne_eq, h, not_false_eq_true, if_true]
  · obtain ⟨g, hg⟩ := Option.isSome_iff_exists.1 hf
    exact rmwLanes_misaligned hlane hg h

/-- A word access past the end of the scratchpad stops at PROTECTION. -/
theorem wordAccess_past_end (hi : WordAccess s ty x i) (hk : s.focus.k = 1) (ha : (operands s).a = [some a])
    (ho : x.order = .plain) (hfresh : FreshFiring s) (h : effAddr s x a % 4 = 0) (hw : isWindow (effAddr s x a) = true)
    (hend : scratchSize (s.tile s.focus.place) ≤ effAddr s x a % 2 ^ 21) :
    StopsStill i s (faultProtection (effAddr s x a)) := by
  have hlane : laneAt (operands s).a 0 = some a := by rw [ha, laneAt_single]
  refine wordAccess_stopsStill hi hk ha ho hfresh (ldLanes_fault hlane h (loadWord_past_end rfl hw hend)) (fun b m => ?_) fun f hf => ?_
  · simp only [stCheck, h, ne_eq, not_true_eq_false, if_false, checkWrite_past_end (v := viaHere s x.scope) rfl hw hend]
  · obtain ⟨g, hg⟩ := Option.isSome_iff_exists.1 hf
    exact rmwLanes_fault hlane hg h (rmwWord_past_end rfl hw hend)

theorem fireRange_misaligned (op : RangeOp) (hk : s.focus.k = 1) (ha : (operands s).a = [some a]) (hfresh : FreshFiring s)
    (h : effAddr s x a % 4 ≠ 0) : fireRange op x s = accessFault s (faultAlign (effAddr s x a)) none {} := by
  have hlane : laneAt (operands s).a 0 = some a := by rw [ha, laneAt_single]
  unfold fireRange
  simp [resumeHere_fresh hfresh, operands_k, hk, rangeLanes, hlane, h]

theorem execInv_misaligned (ha : (operands s).a = [some a]) (h : effAddr s x a % 4 ≠ 0) :
    execInv x s = .next (accessFault s (faultAlign (effAddr s x a)) none {}) := by
  unfold execInv
  simp [ha, invLanes, h]

/-- A line operation on an address that is no multiple of 4 stops at ALIGN (R335, R352, R424). -/
theorem lineOperation_misaligned (hi : i ∈ [Instr.disc x, .wbk x, .inv x]) (hk : s.focus.k = 1) (ha : (operands s).a = [some a])
    (hfresh : FreshFiring s) (h : effAddr s x a % 4 ≠ 0) : StopsStill i s (faultAlign (effAddr s x a)) := by
  simp only [List.mem_cons, List.not_mem_nil, or_false] at hi
  obtain rfl | rfl | rfl := hi
  case inl => exact stopsStill_of_exec (congrArg Host.Outcome.next (fireRange_misaligned .disc hk ha hfresh h))
  case inr.inl => exact stopsStill_of_exec (congrArg Host.Outcome.next (fireRange_misaligned .wbk hk ha hfresh h))
  case inr.inr => exact stopsStill_of_exec (execInv_misaligned ha h)

/-- An LD that no translation serves comes to its fault with nothing done but the reads of its walk. -/
theorem exec_ld_untranslated (hk : s.focus.k = 1) (ha : (operands s).a = [some a]) (ho : x.order = .plain)
    (h4 : effAddr s x a % 4 = 0) (h : Untranslated s (viaHere s x.scope) (effAddr s x a)) (hq : ∀ e ∈ s.slices, e.2.queue = []) :
    ∃ y z, exec (.ld ty x) s = .next (accessFault
      (walked s (s.part s.here.part).asid (effAddr s x a) y z) (faultTranslation (effAddr s x a)) none {}) := by
  have hlane : laneAt (operands s).a 0 = some a := by rw [ha, laneAt_single]
  obtain ⟨y, z, hyz⟩ := loadWord_untranslated h hq
  exact ⟨y, z, exec_ld_fault hk ho (ldLanes_fault hlane h4 hyz)⟩

/-- Its firing stops at TRANSLATION. -/
theorem ld_untranslated_stops (hk : s.focus.k = 1) (ha : (operands s).a = [some a]) (ho : x.order = .plain)
    (h4 : effAddr s x a % 4 = 0) (h : Untranslated s (viaHere s x.scope) (effAddr s x a)) (hq : ∀ e ∈ s.slices, e.2.queue = []) :
    ∃ t, exec (.ld ty x) s = .next t ∧ StoppedFiring s t 0x05 (natW64 (effAddr s x a)) := by
  obtain ⟨y, z, hyz⟩ := exec_ld_untranslated hk ha ho h4 h hq
  exact ⟨_, hyz, (FiringKept.of_caches (walked_only ..) (walked_tiles ..)).stoppedFiring _ _ _⟩

/-- Without a valid root entry it reads no table, and memory is as it was. -/
theorem ld_invalid_root_stops (hk : s.focus.k = 1) (ha : (operands s).a = [some a]) (ho : x.order = .plain)
    (h4 : effAddr s x a % 4 = 0) (h : Untranslated s (viaHere s x.scope) (effAddr s x a)) (hq : ∀ e ∈ s.slices, e.2.queue = [])
    (hroot : (SMap.get 0 s.roots (s.part s.here.part).asid.toNat).getLsbD 63 = false) :
    StopsStill (.ld ty x) s (faultTranslation (effAddr s x a)) := by
  obtain ⟨y, z, hyz⟩ := exec_ld_untranslated hk ha ho h4 h hq
  have hkept := FiringKept.of_caches (walked_only s (s.part s.here.part).asid (effAddr s x a) y z) (walked_tiles ..)
  have hsame := walked_invalid_root hroot (effAddr s x a) y z
  exact ⟨_, hyz, hkept.stoppedAtFault (by rw [hsame]) (by rw [hsame]) _ _ _⟩

end

/-- Settles O35: a fault that comes before the lane's access has changed anything leaves the state as it was but for the record of the
stopped firing; a load without a translation changes what the reads of its walk change, and without a valid root there are none. -/
theorem accessFaultsHaveNoEffect : Obligations.AccessFaultsHaveNoEffect := by
  unfold Obligations.AccessFaultsHaveNoEffect
  intro s ty x a o va hk ha ho hfresh
  refine ⟨fun i hi => ⟨wordAccess_misaligned hi hk ha ho hfresh, wordAccess_past_end hi hk ha ho hfresh⟩,
    fun h i hi => lineOperation_misaligned hi hk ha hfresh h, ?_⟩
  intro asid gate h4 hw hbound hl1 hl2 htlb hunmap hroom hq root
  have huntranslated (n : NoTranslation s asid va) : Untranslated s (viaHere s x.scope) va :=
    ⟨rfl, effAddr_lt s x a, hw, routeOf_no_bank hw hbound hl1, hl2, tlbFind_none htlb, hunmap, hroom, n⟩
  constructor
  · intro hroot
    exact ld_invalid_root_stops hk ha ho h4 (huntranslated (.of_invalid_root hroot va)) hq hroot
  · intro hwalk hclean
    have hreads : ∀ b ∈ gateReads s asid va, tablePoison s b = false := by
      unfold gateReads
      dsimp only
      split
      · exact hclean
      · exact fun _ hb => absurd hb List.not_mem_nil
    exact ld_untranslated_stops hk ha ho h4 (huntranslated ⟨hwalk, hreads⟩) hq

end Sys2Proof.Machine

/-! ## The turn that a step takes (O4) -/

namespace Sys2Proof.Machine
open Sys2Proof

/-! ### The order of turns (R26, log 2) -/

/-- A step takes the first turn of the agenda. -/
theorem step_cons {s : State} {turn : Turn} {rest : List Turn} (h : s.agenda = turn :: rest) :
    step s = runTurn turn { s with agenda := rest } := by
  rw [step, h]

/-- With nothing on the agenda it takes the open turn. -/
theorem step_nil {s : State} (h : s.agenda = []) : step s = runTurn (Config.turn s.turns) { s with turns := s.turns + 1 } := by
  rw [step, h]

/-- An open turn is taken as one that stands on the agenda. -/
theorem step_open {s : State} (h : s.agenda = []) :
    step s = step { s with agenda := [Config.turn s.turns], turns := s.turns + 1 } := by
  have hs : { s with turns := s.turns + 1 } =
      { { s with agenda := [Config.turn s.turns], turns := s.turns + 1 } with agenda := [] } := by rw [← h]
  rw [step_nil h, hs]
  rfl

section
variable {s : State} {turn : Turn} {rest : List Turn} {n : Nat}

/-- A turn that belongs to no unit is taken at any time. -/
theorem step_sourceless (h : s.agenda = turn :: rest) (hsource : turnSource turn = none) :
    step s = grantedOr { s with agenda := rest } (doTurn turn { s with agenda := rest }) := by
  rw [step_cons h, runTurn, hsource]

/-- A unit acts when none of a higher source number has acted in this tick. -/
theorem step_acts (h : s.agenda = turn :: rest) (hsource : turnSource turn = some n) (hn : s.acted ≤ n) :
    step s = grantedOr { s with agenda := rest } (doTurn turn { s with agenda := rest, acted := n }) := by
  rw [step_cons h, runTurn, hsource]
  exact if_neg (Nat.not_lt.2 hn)

/-- Behind one with a higher source number it waits. -/
theorem step_waits (h : s.agenda = turn :: rest) (hsource : turnSource turn = some n) (hn : n < s.acted) :
    step s = .next { s with agenda := rest } := by
  rw [step_cons h, runTurn, hsource]
  exact if_pos hn

end

/-! ### What a turn adds around exec (R145) -/

theorem grantedOr_granted (s : State) (o : Out) (h : ∀ t, o = .next t → ∀ e ∈ t.slices, e.2.refused = false) :
    grantedOr s o = o := by
  cases o with
  | next t =>
    have hnone : ¬ (t.slices.any fun e => e.2.refused) = true := by simpa using h t rfl
    rw [grantedOr, if_neg hnone]
  | fault r => rfl
  | refused r => rfl

theorem grantedOr_refused (s t : State) (e : Nat × Slice) (he : e ∈ t.slices) (hr : e.2.refused = true) :
    grantedOr s (.next t) = .next s := by
  rw [grantedOr, if_pos (List.any_eq_true.2 ⟨e, he, hr⟩)]

/-! ### From a turn to its instruction (R59, R60, R224) -/

section
variable {s : State} {die tile c : Nat} {i : Instr}

theorem ready_of_stage (h : s.stage = 4) : ready s = true := by
  rw [ready, h, beq_self_eq_true]

theorem onGrid_of_lt (hd : die < 4) (ht : tile < 144) : onGrid die tile = true := decide_eq_true ⟨hd, ht⟩

/-- The served context performs its recovery loop, or the word that its pc names. -/
theorem runWord_eq_exec (h : if s.here.seq.recov then i = .recoveryDiscard else decodeGrammar (fetchWord s) = .ok i) :
    runWord s = exec i s := by
  unfold runWord
  split at h
  case isTrue hr => rw [if_pos hr, h]
  case isFalse hr => rw [if_neg hr, h]

theorem runFiring_eq_exec (h : decodeBlock (firingWord s) = .ok i) : runFiring s = exec i s := by
  rw [runFiring, h]

/-- The sequencer serves the context that it picks, once the waits that begin are noted. -/
theorem sequencerTurn_eq_runWord {u : State} (hu : noteWaits s (placeOf die tile) 8 = u)
    (hc : sequencerPick u (placeOf die tile) = some c) : sequencerTurn die tile s = runWord (serving u die tile c) := by
  unfold sequencerTurn
  subst hu
  simp only [hc]

theorem doTurn_sequencer (hs : s.stage = 4) (hd : die < 4) (ht : tile < 144) :
    doTurn (.sequencer die tile) s = sequencerTurn die tile s := by
  have hruns : (ready s && onGrid die tile) = true := by rw [ready_of_stage hs, onGrid_of_lt hd ht, Bool.and_self]
  rw [doTurn, if_pos hruns]

/-- A turn of an element performs the firing that it picks. -/
theorem doTurn_element {e ins f k : Nat} (hs : s.stage = 4) (hd : die < 4) (ht : tile < 144) (he : e < 16)
    (hp : elementPick s (placeOf die tile) e = some (c, ins, f, k)) :
    doTurn (.element die tile e) s = runFiring { s with focus := ⟨die, tile, c, ins, f, k⟩ } := by
  have hruns : (ready s && onGrid die tile && decide (e < 16)) = true := by
    rw [ready_of_stage hs, onGrid_of_lt hd ht, decide_eq_true he, Bool.and_self, Bool.and_self]
  rw [doTurn, if_pos hruns, elementTurn, hp]

/-- A turn of an event performs it. -/
theorem doTurn_event (hs : s.stage = 4) (hi : isEvent i = true) : doTurn (.event i) s = exec i s := by
  have hruns : (isEvent i && (ready s || beforeReady i)) = true := by
    rw [hi, ready_of_stage hs, Bool.true_or, Bool.and_self]
  rw [doTurn, if_pos hruns]

end

/-- Settles O4: the agenda gives the turn, the source number decides whether its unit acts, and each kind of turn comes to exec of the
word that it decodes. -/
theorem stepRunsTheDecodedInstruction : Obligations.StepRunsTheDecodedInstruction := by
  unfold Obligations.StepRunsTheDecodedInstruction
  refine ⟨?sequencer, ?element, ?event, fun s o => grantedOr_granted s o, fun s t e => grantedOr_refused s t e,
    fun _ _ _ _ => step_waits, fun _ => step_open⟩
  case sequencer =>
    intro s rest die tile c i hs hd ht ha hacted u
    have hu : noteWaits _ (placeOf die tile) 8 = u := rfl
    clear_value u
    intro hc v hi
    rw [step_acts ha rfl hacted, doTurn_sequencer _ hd ht, sequencerTurn_eq_runWord hu hc, runWord_eq_exec hi]
    exact hs
  case element =>
    intro s rest die tile e c ins f k i hs hd ht he ha hacted u hp v hi
    rw [step_acts ha rfl hacted, doTurn_element _ hd ht he hp, runFiring_eq_exec hi]
    exact hs
  case event =>
    intro s rest i hs ha hi
    constructor
    · intro hsource
      rw [step_sourceless ha hsource, doTurn_event _ hi]
      exact hs
    · intro n hsource hacted
      rw [step_acts ha hsource hacted, doTurn_event _ hi]
      exact hs

end Sys2Proof.Machine

/-! ## Walks, responses, slices, router outputs and uncorrectable errors (O53) -/

namespace Sys2Proof.Machine
open Sys2Proof

/-! ### One hop of X-first routing (R18) -/

/-- Each hop on the mesh stays on the grid and comes one router nearer, and one that has the goal's column still to reach keeps its row. -/
theorem outputPort_nearer {tile goal : Nat} (ht : tile < 144) (hg : goal < 144) (hne : tile ≠ goal) (link : Bool) :
    let next := neighbour tile (outputPort tile goal link)
    next < 144 ∧
      ((next % 12 - goal % 12) + (goal % 12 - next % 12)) + ((next / 12 - goal / 12) + (goal / 12 - next / 12)) + 1 =
        ((tile % 12 - goal % 12) + (goal % 12 - tile % 12)) + ((tile / 12 - goal / 12) + (goal / 12 - tile / 12)) ∧
      (tile % 12 ≠ goal % 12 → next / 12 = tile / 12) := by
  have hapart : tile % 12 ≠ goal % 12 ∨ tile / 12 ≠ goal / 12 := by omega
  -- One case for each way to go; the packet has not arrived, so the last two cannot be.
  unfold outputPort
  split_ifs <;> simp only [neighbour] <;> omega

/-! ### What lies behind the gates

The reads of a walk and the remap filter (R148, R151) change caches and main memory; the translations that the gates have cached, the
walks in progress and the requests on their way to main memory stay. -/

/-- Of the whole state only caches, main memory, the slots of the slices, the remap filter and the free values used differ. -/
def BehindGates (s t : State) : Prop :=
  t = { s with
    tiles := t.tiles, l2 := t.l2, mem := t.mem, dramPoison := t.dramPoison, slices := t.slices, filter := t.filter
    draws := t.draws }

namespace BehindGates
variable {s t u : State}

theorem refl (s : State) : BehindGates s s := rfl

theorem trans (h : BehindGates s t) (g : BehindGates t u) : BehindGates s u := by
  unfold BehindGates at *
  rw [g, h]

theorem after (g : BehindGates t u) (h : BehindGates s t) : BehindGates s u := h.trans g

theorem fold {α : Type} {f : State → α → State} (hf : ∀ s a, BehindGates s (f s a)) (l : List α) (s : State) :
    BehindGates s (l.foldl f s) := by
  induction l generalizing s with
  | nil => exact .refl s
  | cons a l ih => exact (hf s a).trans (ih _)

theorem ctxs (h : BehindGates s t) : t.ctxs = s.ctxs := by rw [h]
theorem tlbs (h : BehindGates s t) : t.tlbs = s.tlbs := by rw [h]
theorem walks (h : BehindGates s t) : t.walks = s.walks := by rw [h]
theorem responses (h : BehindGates s t) : t.responses = s.responses := by rw [h]
theorem unmapRun (h : BehindGates s t) : t.unmapRun = s.unmapRun := by rw [h]

end BehindGates

theorem l2Evict_behindGates (s : State) (l : Line) : BehindGates s (l2Evict s l) := by
  unfold l2Evict
  dsimp only
  split <;> rfl

theorem l2Way_behindGates (s : State) (part slice line : Nat) : BehindGates s (l2Way s part slice line).1 := by
  unfold l2Way
  dsimp only
  split
  · rfl
  · split
    · exact (l2Evict_behindGates _ _).after rfl
    · rfl

theorem l2Fill_behindGates (s : State) (part slice : Nat) (asid : BitVec 8) (line pa : Nat) (w : Bool) :
    BehindGates s (l2Fill s part slice asid line pa w).1 :=
  (l2Way_behindGates s part slice line).trans rfl

theorem readTable_behindGates (s : State) (pa : Nat) : BehindGates s (readTable s pa) := by
  unfold readTable
  dsimp only
  split
  · rfl
  · exact (l2Fill_behindGates _ _ _ _ _ _ _).after rfl

theorem gateWalk_behindGates (s : State) (asid : BitVec 8) (va : Nat) : BehindGates s (gateWalk s asid va).1 := by
  have h : BehindGates s ((gateReads s asid va).foldl readTable s) := .fold readTable_behindGates _ _
  unfold gateWalk
  dsimp only
  rw [← gateReads]
  split
  · exact h
  · split <;> exact h

theorem l2At_behindGates (s : State) (part slice : Nat) (x : Line) : BehindGates s (l2At s part slice x).1 := by
  unfold l2At
  split
  · split
    · rfl
    · exact (l2Evict_behindGates _ _).trans (l2Fill_behindGates _ _ _ _ _ _ _)
  · exact l2Fill_behindGates _ _ _ _ _ _ _

theorem l1WriteBack_behindGates (s : State) (place : Nat) (x : Line) : BehindGates s (l1WriteBack s place x) :=
  have hslot : BehindGates s (takeSlot s _ _) := rfl
  (hslot.trans (l2At_behindGates _ _ _ x)).trans rfl

theorem l1Flush_behindGates (s : State) (place : Nat) (p : Line → Bool) : BehindGates s (l1Flush s place p) :=
  have hback : BehindGates s (l1WriteBackAll s place p) := .fold (fun s l => l1WriteBack_behindGates s place l) _ _
  hback.trans rfl

theorem filterEvict_behindGates (s : State) : BehindGates s (filterEvict s) := by
  unfold filterEvict
  split
  · rfl
  · exact (BehindGates.fold (fun s p => l1Flush_behindGates s p _) _ s).trans
      ((BehindGates.fold l2Evict_behindGates _ _).trans rfl)

theorem canonical_behindGates (s : State) (asid : BitVec 8) (va : Nat) (e : TlbEntry) :
    BehindGates s (canonical s asid va e).1 := by
  unfold canonical
  dsimp only
  split
  · split
    · rfl
    · split
      · rfl
      · exact (filterEvict_behindGates s).trans rfl
  · rfl

/-! ### A walk that ends (R148) -/

/-- A request waits for the walk of the page that another one waits for. -/
def Fill.joins (f g : Fill) : Bool := g.asid == f.asid && g.line / 512 == f.line / 512

/-- The requests of a walk have left the gate. -/
def leaveGate (s : State) (die : Nat) (f : Fill) : State :=
  { s with walks := SMap.set s.walks die ((SMap.get [] s.walks die).filter fun g => !f.joins g) }

theorem finishWalk_failed {s u : State} {die : Nat} {f : Fill} {e : MemFault}
    (h : gateWalk (leaveGate s die f) f.asid (f.line * 128) = (u, .error e)) : finishWalk s die f = (u, .error e) := by
  unfold finishWalk
  dsimp only
  rw [leaveGate] at h
  simp only [Fill.joins] at h
  rw [h]

theorem finishWalk_mapped {s u : State} {die : Nat} {f : Fill} {e : TlbEntry}
    (h : gateWalk (leaveGate s die f) f.asid (f.line * 128) = (u, .ok e)) :
    finishWalk s die f = (((SMap.get [] s.walks die).filter f.joins).foldl (fun s g => translated s g e)
      (tlbKeep u die (f.line * 128) e), .ok e) := by
  unfold finishWalk
  dsimp only
  rw [leaveGate] at h
  simp only [Fill.joins] at h
  rw [h]
  rfl

theorem exec_translationWalkComplete {s : State} {die n : Nat} {f : Fill} (h : (SMap.get [] s.walks die)[n]? = some f) :
    exec (.translationWalkComplete die n) s = .next (finishWalk s die f).1 := by
  change execTranslationWalkComplete die n s = _
  rw [execTranslationWalkComplete, h]

/-! #### The translation that the gate caches -/

theorem tlbInsert_frame (s : State) (gate : Nat) (e : TlbEntry) :
    tlbInsert s gate e = { s with tlbs := (tlbInsert s gate e).tlbs, draws := (tlbInsert s gate e).draws } := by
  unfold tlbInsert
  dsimp only
  split <;> rfl

theorem mem_tlbInsert (s : State) (gate : Nat) (e : TlbEntry) : e ∈ SMap.get [] (tlbInsert s gate e).tlbs gate := by
  unfold tlbInsert
  dsimp only
  split <;> simp

/-- While no unmap runs, the gate caches what it found in place of what it had cached for the address. -/
theorem tlbKeep_inserts {s : State} (h : s.unmapRun = none) (gate va : Nat) (e : TlbEntry) :
    tlbKeep s gate va e = tlbInsert (tlbForget s gate e.asid va) gate e := by
  simp [tlbKeep, h]

/-- The gate's own state once it has cached what it found. -/
theorem tlbKeep_spec {s : State} (h : s.unmapRun = none) (gate va : Nat) (e : TlbEntry) :
    (tlbKeep s gate va e).ctxs = s.ctxs ∧ (tlbKeep s gate va e).walks = s.walks ∧
      (tlbKeep s gate va e).responses = s.responses ∧ e ∈ SMap.get [] (tlbKeep s gate va e).tlbs gate := by
  rw [tlbKeep_inserts h]
  have hs := tlbInsert_frame (tlbForget s gate e.asid va) gate e
  refine ⟨?_, ?_, ?_, mem_tlbInsert _ _ _⟩ <;> rw [hs] <;> rfl

/-! #### The requests that joined the walk -/

/-- What a request of a gate is on its way to main memory, under a translation (R23, R24). -/
def TranslatedAs (e : TlbEntry) (g y : Fill) : Prop :=
  y.asid = g.asid ∧ y.line = g.line ∧ y.tile = g.tile ∧ y.slice = g.slice ∧ y.pa = e.phys (g.line * 128) ∧ y.w = e.w

/-- The memory of the die that its address selects has the request, translated. -/
def OnItsWay (s : State) (e : TlbEntry) (g : Fill) : Prop :=
  ∃ y ∈ SMap.get [] s.responses (memDie (e.phys (g.line * 128))), TranslatedAs e g y

theorem translated_keeps (s : State) (f : Fill) (e : TlbEntry) :
    (translated s f e).ctxs = s.ctxs ∧ (translated s f e).walks = s.walks ∧ (translated s f e).tlbs = s.tlbs :=
  have h := canonical_behindGates s f.asid (f.line * 128) e
  ⟨h.ctxs, h.walks, h.tlbs⟩

/-- The request goes behind those that the memory of its die has. -/
theorem translated_responses (s : State) (f : Fill) (e : TlbEntry) :
    ∃ y, TranslatedAs e f y ∧ (translated s f e).responses =
      SMap.set s.responses (memDie (e.phys (f.line * 128))) (SMap.get [] s.responses (memDie (e.phys (f.line * 128))) ++ [y]) := by
  have h := (canonical_behindGates s f.asid (f.line * 128) e).responses
  refine ⟨{ f with
    pa := e.phys (f.line * 128), w := e.w
    canon := some ((canonical s f.asid (f.line * 128) e).2.1, (canonical s f.asid (f.line * 128) e).2.2)
    bank := memModule (e.phys (f.line * 128)) }, ⟨rfl, rfl, rfl, rfl, rfl, rfl⟩, ?_⟩
  rw [← h]
  rfl

theorem translated_onItsWay (s : State) (f : Fill) (e : TlbEntry) : OnItsWay (translated s f e) e f := by
  obtain ⟨y, hy, hresp⟩ := translated_responses s f e
  refine ⟨y, ?_, hy⟩
  rw [hresp, SMap.get_set_self]
  exact List.mem_append_right _ (List.mem_singleton.2 rfl)

/-- Requests on their way stay so when another one follows. -/
theorem OnItsWay.translated {s : State} {e e' : TlbEntry} {g : Fill} (h : OnItsWay s e g) (f : Fill) :
    OnItsWay (translated s f e') e g := by
  obtain ⟨y, hmem, hy⟩ := h
  obtain ⟨z, -, hresp⟩ := translated_responses s f e'
  refine ⟨y, ?_, hy⟩
  rw [hresp, SMap.get_set]
  split
  case isTrue heq => exact List.mem_append_left _ (heq ▸ hmem)
  case isFalse => exact hmem

theorem foldl_translated_keeps (l : List Fill) (e : TlbEntry) (s : State) :
    let t := l.foldl (fun s g => translated s g e) s
    t.ctxs = s.ctxs ∧ t.walks = s.walks ∧ t.tlbs = s.tlbs := by
  induction l generalizing s with
  | nil => exact ⟨rfl, rfl, rfl⟩
  | cons g l ih =>
    obtain ⟨hc, hw, ht⟩ := ih (translated s g e)
    obtain ⟨hc', hw', ht'⟩ := translated_keeps s g e
    exact ⟨hc.trans hc', hw.trans hw', ht.trans ht'⟩

theorem OnItsWay.foldl_translated {e : TlbEntry} {g : Fill} (l : List Fill) {s : State} (h : OnItsWay s e g) :
    OnItsWay (l.foldl (fun s g => Machine.translated s g e) s) e g := by
  induction l generalizing s with
  | nil => exact h
  | cons f l ih => exact ih (h.translated f)

theorem foldl_translated_onItsWay (l : List Fill) (e : TlbEntry) (s : State) :
    ∀ g ∈ l, OnItsWay (l.foldl (fun s g => translated s g e) s) e g := by
  induction l generalizing s with
  | nil => simp
  | cons f l ih =>
    refine List.forall_mem_cons.2 ⟨?_, ih _⟩
    exact (translated_onItsWay s f e).foldl_translated l

/-! #### The end of the walk -/

/-- A walk that fails caches and answers nothing; the requests that joined it have left the gate. -/
theorem finishWalk_failed_spec {s : State} {die : Nat} {f : Fill} {e : MemFault}
    (h : (gateWalk (leaveGate s die f) f.asid (f.line * 128)).2 = .error e) :
    let t := (finishWalk s die f).1
    t.ctxs = s.ctxs ∧ t.walks = (leaveGate s die f).walks ∧ t.tlbs = s.tlbs ∧ t.responses = s.responses := by
  have hgates := gateWalk_behindGates (leaveGate s die f) f.asid (f.line * 128)
  rw [finishWalk_failed (Prod.ext rfl h)]
  exact ⟨hgates.ctxs, hgates.walks, hgates.tlbs, hgates.responses⟩

/-- One that finds a page caches it and sends each request that joined it on to its memory. -/
theorem finishWalk_mapped_spec {s : State} {die : Nat} {f : Fill} {e : TlbEntry} (hu : s.unmapRun = none)
    (h : (gateWalk (leaveGate s die f) f.asid (f.line * 128)).2 = .ok e) :
    let t := (finishWalk s die f).1
    t.ctxs = s.ctxs ∧ t.walks = (leaveGate s die f).walks ∧ e ∈ SMap.get [] t.tlbs die ∧
      ∀ g ∈ SMap.get [] s.walks die, f.joins g = true → OnItsWay t e g := by
  have hgates := gateWalk_behindGates (leaveGate s die f) f.asid (f.line * 128)
  obtain ⟨hkctxs, hkwalks, -, hcached⟩ := tlbKeep_spec (hgates.unmapRun.trans hu) die (f.line * 128) e
  obtain ⟨hctxs, hwalks, htlbs⟩ := foldl_translated_keeps ((SMap.get [] s.walks die).filter f.joins) e
    (tlbKeep (gateWalk (leaveGate s die f) f.asid (f.line * 128)).1 die (f.line * 128) e)
  rw [finishWalk_mapped (Prod.ext rfl h)]
  refine ⟨(hctxs.trans hkctxs).trans hgates.ctxs, (hwalks.trans hkwalks).trans hgates.walks, ?_, fun g hg hjoins => ?_⟩
  · rw [htlbs]
    exact hcached
  · exact foldl_translated_onItsWay _ e _ g (List.mem_filter.2 ⟨hg, hjoins⟩)

/-! ### A response of main memory (R24, R381) -/

/-- A clean line leaves the L2 without a write to main memory (R143). -/
theorem l2Evict_clean {l : Line} (h : l.dirty = 0) (s : State) : l2Evict s l = l2Drop s l.asid l.line := by
  simp [l2Evict, h]

/-- While every line of the L2 is clean, making room for a line changes the L2 and the free values used alone. -/
theorem l2Way_clean {s : State} (h : ∀ l ∈ s.l2, l.dirty = 0) (part slice line : Nat) :
    (l2Way s part slice line).1 =
      { s with l2 := (l2Way s part slice line).1.l2, draws := (l2Way s part slice line).1.draws } := by
  unfold l2Way
  dsimp only
  split
  · rfl
  · split
    · rename_i l hl
      have hmem : l ∈ s.l2 := (List.mem_filter.1 (List.mem_of_find?_eq_some hl)).1
      rw [l2Evict_clean (h l hmem)]
      rfl
    · rfl

/-- Then a fill changes those alone as well, and its line holds what main memory does (R159). -/
theorem l2Fill_clean {s : State} (h : ∀ l ∈ s.l2, l.dirty = 0) (part slice : Nat) (asid : BitVec 8) (line pa : Nat) (w : Bool) :
    ∃ x ls n, l2Fill s part slice asid line pa w = ({ s with l2 := ls ++ [x], draws := n }, x) ∧
      x.asid = asid ∧ x.line = line ∧ x.data = (dramLine s pa).1 ∧ x.poison = (dramLine s pa).2 ∧ x.dirty = 0 := by
  have hway := l2Way_clean h part slice line
  have hdram : dramLine (l2Way s part slice line).1 pa = dramLine s pa := by rw [hway]; rfl
  refine ⟨(l2Fill s part slice asid line pa w).2, (l2Way s part slice line).1.l2, (l2Way s part slice line).1.draws,
    Prod.ext ?_ rfl, rfl, rfl, congrArg Prod.fst hdram, congrArg Prod.snd hdram, rfl⟩
  exact congrArg (fun u : State => { u with l2 := u.l2 ++ [(l2Fill s part slice asid line pa w).2] }) hway

theorem Line.named_iff {l : Line} {asid : BitVec 8} {line : Nat} : l.named asid line = true ↔ l.asid = asid ∧ l.line = line := by
  simp [Line.named]

/-- A line that stands in the L2 under the name of another one gives way to it. -/
theorem mem_l2Put {s : State} {l x : Line} (hl : l ∈ s.l2) (h : l.named x.asid x.line = true) : x ∈ (l2Put s x).l2 :=
  List.mem_map.2 ⟨l, hl, if_pos h⟩

theorem fillBank_noTile {f : Fill} (h : f.tile = none) (s : State) (l : Line) : fillBank s f l = s := by
  rw [fillBank, h]

section
variable {s : State} {die n : Nat} {f : Fill}

/-- The request whose response arrives has left its memory. -/
def answered (s : State) (die n : Nat) : State :=
  { s with responses := SMap.set s.responses die ((SMap.get [] s.responses die).eraseIdx n) }

/-- The response of a poisoned line is dropped (R381). -/
theorem exec_memoryResponse_poisoned (hf : (SMap.get [] s.responses die)[n]? = some f)
    (hmiss : l2Find s (f.canon.getD (f.asid, f.line)).1 (f.canon.getD (f.asid, f.line)).2 = none)
    (hp : (dramLine s f.pa).2 ≠ 0) : exec (.memoryResponse die n) s = .next (answered s die n) := by
  change execMemoryResponse die n s = _
  have hmiss' : l2Find (answered s die n) (f.canon.getD (f.asid, f.line)).1 (f.canon.getD (f.asid, f.line)).2 = none := hmiss
  have hp' : (dramLine (answered s die n) f.pa).2 ≠ 0 := hp
  unfold execMemoryResponse
  dsimp only
  rw [hf]
  dsimp only
  rw [← answered, hmiss']
  dsimp only
  rw [if_pos hp']

/-- Any other one that the L2 does not hold fills its line there. -/
theorem exec_memoryResponse_fills (hf : (SMap.get [] s.responses die)[n]? = some f) (htile : f.tile = none)
    (hmiss : l2Find s (f.canon.getD (f.asid, f.line)).1 (f.canon.getD (f.asid, f.line)).2 = none)
    (hp : (dramLine s f.pa).2 = 0) :
    ∃ slice w, exec (.memoryResponse die n) s =
      let r := l2Fill (answered s die n) f.part slice (f.canon.getD (f.asid, f.line)).1 (f.canon.getD (f.asid, f.line)).2 f.pa w
      .next (l2Put r.1 { r.2 with hint := f.hint }) := by
  change ∃ slice w, execMemoryResponse die n s = _
  have hmiss' : l2Find (answered s die n) (f.canon.getD (f.asid, f.line)).1 (f.canon.getD (f.asid, f.line)).2 = none := hmiss
  have hp' : ¬ (dramLine (answered s die n) f.pa).2 ≠ 0 := not_not.2 hp
  unfold execMemoryResponse
  dsimp only
  rw [hf]
  dsimp only
  rw [← answered, hmiss']
  dsimp only
  rw [if_neg hp']
  simp only [fillBank_noTile htile]
  exact ⟨_, _, rfl⟩

/-- While every line of the L2 is clean, the line that a response fills is all that it brings. -/
theorem memoryResponse_fills_line (hf : (SMap.get [] s.responses die)[n]? = some f) (htile : f.tile = none)
    (hclean : ∀ l ∈ s.l2, l.dirty = 0)
    (hmiss : l2Find s (f.canon.getD (f.asid, f.line)).1 (f.canon.getD (f.asid, f.line)).2 = none)
    (hp : (dramLine s f.pa).2 = 0) :
    ∃ t l, exec (.memoryResponse die n) s = .next t ∧ t.ctxs = s.ctxs ∧ t.mem = s.mem ∧
      t.responses = (answered s die n).responses ∧ l ∈ t.l2 ∧
      l.named (f.canon.getD (f.asid, f.line)).1 (f.canon.getD (f.asid, f.line)).2 = true ∧
      l.data = (dramLine s f.pa).1 ∧ l.poison = 0 ∧ l.dirty = 0 := by
  obtain ⟨slice, w, hexec⟩ := exec_memoryResponse_fills hf htile hmiss hp
  obtain ⟨x, ls, k, hfill, hasid, hline, hdata, hpoison, hdirty⟩ :=
    l2Fill_clean (s := answered s die n) hclean f.part slice (f.canon.getD (f.asid, f.line)).1
      (f.canon.getD (f.asid, f.line)).2 f.pa w
  rw [hfill] at hexec
  refine ⟨_, { x with hint := f.hint }, hexec, rfl, rfl, rfl, ?_, Line.named_iff.2 ⟨hasid, hline⟩, hdata, hpoison.trans hp, hdirty⟩
  exact mem_l2Put (l := x) (List.mem_append_right _ (List.mem_singleton.2 rfl)) (Line.named_iff.2 ⟨rfl, rfl⟩)

end

/-! ### A slice (R145) -/

/-- A window that goes on goes on whatever waits. -/
theorem window_with_queue (q : Slice) (l : List Fill) : { q.window with queue := l }.window = { q.window with queue := l } := by
  unfold Slice.window
  split
  · rfl
  · rfl

/-- Serving a request that hits the L2 and asks for no bank changes nothing (R145). -/
theorem serveRequest_hit {s : State} {f : Fill} {l : Line} (hu : s.unmapRun = none) (hl : l2Find s f.asid f.line = some l)
    (ht : f.tile = none) : serveRequest s f = s := by
  unfold serveRequest
  simp only [settleLine, tablesFor_cached hu, hl, fillBank_noTile ht]

theorem gateFull_hit {s : State} {f : Fill} {l : Line} (hl : l2Find s f.asid f.line = some l) : gateFull s f = false := by
  simp [gateFull, hl]

theorem exec_l2SliceRequest_hit {s : State} {slice p : Nat} {f : Fill} {l : Line}
    (hpick : slicePick s (SMap.get {} s.slices slice).window (SMap.get {} s.slices slice).window.asks = some p)
    (hf : (SMap.get {} s.slices slice).window.queue.find? (fun f => f.part = p) = some f)
    (hl : l2Find s f.asid f.line = some l) (ht : f.tile = none) (hu : s.unmapRun = none) :
    exec (.l2SliceRequest slice) s =
      let q := (SMap.get {} s.slices slice).window
      .next { s with slices := SMap.set s.slices slice { q with
        queue := q.queue.erase f, used := SMap.set q.used p (SMap.get 0 q.used p + 1), last := p, cycle := q.cycle + 1 } } := by
  change execL2SliceRequest slice s = _
  have hpart : f.part = p := by simpa using List.find?_some hf
  unfold execL2SliceRequest
  dsimp only
  rw [hpick, Option.bind_some, hf]
  dsimp only
  rw [gateFull_hit hl, if_neg Bool.false_ne_true, serveRequest_hit (l := l) (by exact hu) (by exact hl) ht]
  rw [takeSlot]
  dsimp only
  rw [SMap.get_set_self, window_with_queue, hpart, SMap.set_set]

/-! ### A router output (R167) -/

/-- A packet of VC 4 or above leaves no deficit to settle. -/
theorem sentPacket_of_le {x : Packet} (h : 4 ≤ x.vc) (r : Router) : sentPacket r x = { r with queue := r.queue.erase x } := by
  rw [sentPacket, if_neg fun hlow => Nat.not_lt.2 h hlow.1]

theorem passOn_enters {s : State} {die tile port goal : Nat} {x : Packet} (h0 : port ≠ 0) (h5 : port ≠ 5)
    (hexit : exitRouter die x = some goal) :
    passOn s die tile port x =
      let j := routerId die (neighbour tile port) (outputPort (neighbour tile port) goal (leavesDie die x))
      let r := SMap.get {} s.routers j
      { s with routers := SMap.set s.routers j { r with queue := r.queue ++ [x] } } := by
  rw [passOn, if_neg h0, if_pos h5, enterRouter, hexit]

section
variable {s : State} {die tile port : Nat}

/-- The output sends the oldest packet of VC 5, and where there is none of it the oldest of VC 4. -/
theorem exec_routerArbitration_urgent {v : Nat} {x : Packet} {r : Router}
    (hr : SMap.get {} s.routers (routerId die tile port) = r) (hx : r.queue.find? (fun x => x.vc = v) = some x)
    (hv : v = 5 ∨ (v = 4 ∧ r.queue.find? (fun x => x.vc = 5) = none)) :
    exec (.routerArbitration die tile port) s = .next (passOn
      { s with routers := SMap.set s.routers (routerId die tile port) { r with queue := r.queue.erase x } } die tile port x) := by
  change execRouterArbitration die tile port s = _
  have hvc : x.vc = v := by simpa using List.find?_some hx
  have hsent : sentPacket r x = { r with queue := r.queue.erase x } := sentPacket_of_le (by omega) r
  unfold execRouterArbitration
  dsimp only
  rw [hr]
  obtain rfl | ⟨rfl, hnone⟩ := hv
  · simp only [hx, hsent]
  · simp only [hnone, hx, hsent]

/-- Where no packet of theirs waits, VC 0 to 3 share the output. -/
theorem exec_routerArbitration_shared {x : Packet} {r r' : Router} (hr : SMap.get {} s.routers (routerId die tile port) = r)
    (hlow : ∀ y ∈ r.queue, y.vc < 4) (hpick : weightedPick s r = some (r', x)) :
    exec (.routerArbitration die tile port) s =
      .next (passOn { s with routers := SMap.set s.routers (routerId die tile port) r' } die tile port x) := by
  change execRouterArbitration die tile port s = _
  have hnone (v : Nat) (hv : 4 ≤ v) : r.queue.find? (fun x => decide (x.vc = v)) = none := by
    rw [List.find?_eq_none]
    intro y hy
    have := hlow y hy
    simp only [decide_eq_true_eq]
    omega
  unfold execRouterArbitration
  dsimp only
  rw [hr]
  simp only [hnone 5 (by omega), hnone 4 (by omega), hpick]

end

/-- The first VC from the pointer on for which `ok` holds. -/
theorem find?_from_pointer {ok : Nat → Bool} {v pointer : Nat} (hv : v < 4) (hok : ok v = true)
    (hskip : ∀ n, n < (v + 4 - pointer % 4) % 4 → ok ((pointer + n) % 4) = false) :
    ((List.range 4).map fun n => (pointer + n) % 4).find? ok = some v := by
  have hk : (v + 4 - pointer % 4) % 4 < 4 := Nat.mod_lt _ (by omega)
  have hvk : (pointer + (v + 4 - pointer % 4) % 4) % 4 = v := by omega
  generalize (v + 4 - pointer % 4) % 4 = k at hk hvk hskip
  have hfirst : (List.range 4).find? (ok ∘ fun n => (pointer + n) % 4) = some k := by
    rw [List.find?_range_eq_some]
    exact ⟨(congrArg ok hvk).trans hok, List.mem_range.2 hk, fun n hn => by simp [hskip n hn]⟩
  rw [List.find?_map, hfirst, Option.map_some, hvk]

section
variable {s : State} {r : Router} {v p : Nat} {x : Packet}

/-- A partition whose turn it is sends its head packet where its deficit pays for it. -/
theorem drrPick_turn (hturn : SMap.find? r.turns v = some p) (hx : headPacket r v p = some x) (hpays : x.flits ≤ deficit r v p)
    (n : Nat) : drrPick s v r (n + 1) = some (setDeficit r v p (deficit r v p - x.flits), x) := by
  simp only [drrPick, hturn, Option.bind_some, hx, if_pos hpays]

/-- Where the partition whose turn it is cannot pay, the next one with a packet gets its weight. -/
theorem drrPick_next
    (hpoor : ∀ q y, SMap.find? r.turns v = some q → headPacket r v q = some y → deficit r v q < y.flits)
    (hnext : roundRobin ((SMap.find? r.turns v).getD 31) (fun q => (headPacket r v q).isSome) = some p) (n : Nat) :
    drrPick s v r (n + 1) =
      drrPick s v { setDeficit r v p (deficit r v p + vcWeight s p v) with turns := SMap.set r.turns v p } n := by
  have hnone : ((SMap.find? r.turns v).bind fun q => (headPacket r v q).bind fun y =>
      if y.flits ≤ deficit r v q then some (setDeficit r v q (deficit r v q - y.flits), y) else none) = none := by
    rw [Option.bind_eq_none_iff]
    intro q hq
    rw [Option.bind_eq_none_iff]
    intro y hy
    exact if_neg (Nat.not_le.2 (hpoor q y hq hy))
  rw [drrPick, hnone, hnext]

/-- Then that partition sends, where its deficit now pays for its head packet. -/
theorem drrPick_next_turn
    (hpoor : ∀ q y, SMap.find? r.turns v = some q → headPacket r v q = some y → deficit r v q < y.flits)
    (hnext : roundRobin ((SMap.find? r.turns v).getD 31) (fun q => (headPacket r v q).isSome) = some p)
    (hx : headPacket r v p = some x) (hpays : x.flits ≤ deficit r v p + vcWeight s p v) (n : Nat) :
    let c := { setDeficit r v p (deficit r v p + vcWeight s p v) with turns := SMap.set r.turns v p }
    drrPick s v r (n + 2) = some (setDeficit c v p (deficit c v p - x.flits), x) := by
  intro c
  have hdeficit : deficit c v p = deficit r v p + vcWeight s p v := SMap.get_set_self 0 r.deficits _ _
  rw [drrPick_next hpoor hnext]
  exact drrPick_turn (r := c) (SMap.find?_set_self _ _ _) hx (hdeficit.symm ▸ hpays) n

end

/-- Shares of VC 0 to 3 in this round: what is left of them, or all anew where no VC with a packet has one left (R167). -/
def roundShares (r : Router) : List Nat :=
  if (List.range 4).any (fun u => decide (0 < r.shares.getD u 0) && r.queue.any fun y => y.vc == u) then r.shares else [4, 4, 3, 5]

/-- The VC that the pointer comes to first sends the packet that deficit round-robin picks on it. -/
theorem weightedPick_eq {s : State} {r r' : Router} {v : Nat} {x : Packet} (hv : v < 4) (hshare : 0 < (roundShares r).getD v 0)
    (hwaits : (r.queue.any fun y => y.vc == v) = true)
    (hskip : ∀ n, n < (v + 4 - r.pointer % 4) % 4 →
      (roundShares r).getD ((r.pointer + n) % 4) 0 = 0 ∨ (r.queue.any fun y => y.vc == (r.pointer + n) % 4) = false)
    (hpick : ∀ n, drrPick s v r (n + 2) = some (r', x)) :
    weightedPick s r = some ({ sentPacket r' x with
      shares := (roundShares r).set v ((roundShares r).getD v 0 - x.flits), pointer := (v + 1) % 4 }, x) := by
  have hfirst : ((List.range 4).map fun n => (r.pointer + n) % 4).find?
      (fun u => decide (0 < (roundShares r).getD u 0) && r.queue.any fun y => y.vc == u) = some v := by
    refine find?_from_pointer hv ?_ fun n hn => ?_
    · rw [decide_eq_true hshare, hwaits, Bool.and_self]
    · obtain h | h := hskip n hn
      · rw [h, decide_eq_false (Nat.lt_irrefl 0), Bool.false_and]
      · rw [h, Bool.and_false]
  obtain ⟨m, hm⟩ : ∃ m, (r.queue.foldl (fun n x => max n x.flits) 0 + 2) * 33 = m + 2 :=
    Nat.exists_eq_add_of_le' (by omega)
  unfold weightedPick
  dsimp only
  rw [← roundShares, hfirst]
  dsimp only
  rw [hm, hpick]

/-- The router once partition `p` has sent a packet on VC `v` (R167, R168). -/
def sharedSend (r c : Router) (v p : Nat) (x : Packet) : Router :=
  { sentPacket (setDeficit c v p (deficit c v p - x.flits)) x with
    shares := (roundShares r).set v ((roundShares r).getD v 0 - x.flits), pointer := (v + 1) % 4 }

/-- An output with packets of VC 0 to 3 alone sends the one that deficit round-robin picks on the VC that the pointer comes to. -/
theorem exec_routerArbitration_weighted {s : State} {die tile port v p : Nat} {r c : Router} {x : Packet}
    (hr : SMap.get {} s.routers (routerId die tile port) = r) (hlow : ∀ y ∈ r.queue, y.vc < 4) (hv : v < 4)
    (hshare : 0 < (roundShares r).getD v 0) (hwaits : (r.queue.any fun y => y.vc == v) = true)
    (hskip : ∀ n, n < (v + 4 - r.pointer % 4) % 4 →
      (roundShares r).getD ((r.pointer + n) % 4) 0 = 0 ∨ (r.queue.any fun y => y.vc == (r.pointer + n) % 4) = false)
    (hpick : ∀ n, drrPick s v r (n + 2) = some (setDeficit c v p (deficit c v p - x.flits), x)) :
    exec (.routerArbitration die tile port) s = .next (passOn
      { s with routers := SMap.set s.routers (routerId die tile port) (sharedSend r c v p x) } die tile port x) :=
  exec_routerArbitration_shared hr hlow (weightedPick_eq hv hshare hwaits hskip hpick)

/-! ### Uncorrectable errors (R159) -/

theorem mem_setPoison (l : List Nat) (x g : Nat) : g ∈ setPoison l x true ↔ (g = x ∨ g ∈ l) := by
  unfold setPoison
  rw [if_pos rfl]
  split
  case isTrue h =>
    have hx : x ∈ l := by simpa using h
    exact ⟨.inr, fun hg => hg.elim (fun heq => heq ▸ hx) id⟩
  case isFalse => rw [List.mem_append, List.mem_singleton, or_comm]

theorem named_of_find? {ls : List Line} {asid : BitVec 8} {line : Nat} {l : Line}
    (h : ls.find? (fun l => l.named asid line) = some l) : l.named asid line = true :=
  List.find?_some (p := fun l : Line => l.named asid line) h

/-- Of lines under names, the first of a name once another line has taken the place of all that bear it. -/
theorem find?_named_replaced {ls : List Line} {asid : BitVec 8} {line : Nat} {l x : Line}
    (hl : ls.find? (fun l => l.named asid line) = some l) (hx : x.named asid line = true) :
    (ls.map fun l => if l.named x.asid x.line then x else l).find? (fun l => l.named asid line) = some x := by
  obtain ⟨rfl, rfl⟩ := Line.named_iff.1 hx
  have hnamed : (fun l : Line => l.named x.asid x.line) ∘ (fun l => if l.named x.asid x.line then x else l) =
      fun l => l.named x.asid x.line := by
    funext y
    dsimp only [Function.comp]
    split
    case isTrue h => rw [hx, h]
    case isFalse => rfl
  rw [List.find?_map, hnamed, hl, Option.map_some, if_pos (List.find?_some hl)]

theorem poisonGran_named {l : Line} {asid : BitVec 8} {line : Nat} (h : l.named asid line = true) (gran : Nat) :
    (poisonGran l gran).named asid line = true := h

theorem exec_uncorrectableError (site : ErrSite) (s : State) :
    exec (.uncorrectableError site) s = execUncorrectableError site s := rfl

theorem l2_error_poisons {s : State} {asid line gran : Nat} {l : Line} (h : l2Find s (BitVec.ofNat 8 asid) line = some l) :
    ∃ t, exec (.uncorrectableError (.l2 asid line gran)) s = .next t ∧ t = { s with l2 := t.l2 } ∧
      l2Find t (BitVec.ofNat 8 asid) line = some (poisonGran l gran) := by
  refine ⟨l2Put s (poisonGran l gran), ?_, rfl, find?_named_replaced h (poisonGran_named (named_of_find? h) gran)⟩
  rw [exec_uncorrectableError]
  simp only [execUncorrectableError, h]

theorem l1_error_poisons {s : State} {die tile asid line gran : Nat} {l : Line}
    (h : l1Find (s.tile (placeOf die tile)) (BitVec.ofNat 8 asid) line = some l) :
    ∃ t, exec (.uncorrectableError (.l1 die tile asid line gran)) s = .next t ∧
      t = s.setTile (placeOf die tile) { s.tile (placeOf die tile) with l1 := (t.tile (placeOf die tile)).l1 } ∧
      l1Find (t.tile (placeOf die tile)) (BitVec.ofNat 8 asid) line = some (poisonGran l gran) := by
  refine ⟨l1Put s (placeOf die tile) (poisonGran l gran), ?_, ?_, ?_⟩
  · rw [exec_uncorrectableError]
    simp only [execUncorrectableError, h]
  · rw [l1Put, l1Set, State.setTile_tile_self]
  · rw [l1Put, l1Set, State.setTile_tile_self]
    exact find?_named_replaced h (poisonGran_named (named_of_find? h) gran)

theorem dram_error_poisons {s : State} {pa : Nat} (h : isHole pa = false) :
    ∃ t, exec (.uncorrectableError (.dram pa)) s = .next t ∧ t = { s with dramPoison := t.dramPoison } ∧
      ∀ g, g ∈ t.dramPoison ↔ (g = pa / 64 ∨ g ∈ s.dramPoison) := by
  refine ⟨{ s with dramPoison := setPoison s.dramPoison (pa / 64) true }, ?_, rfl, mem_setPoison _ _⟩
  rw [exec_uncorrectableError]
  rw [execUncorrectableError, if_neg (by simp [h])]

theorem scratch_error_poisons {s : State} {die tile off : Nat} (h : off < scratchSize (s.tile (placeOf die tile))) :
    ∃ t, exec (.uncorrectableError (.scratch die tile off)) s = .next t ∧
      t = s.setTile (placeOf die tile) { s.tile (placeOf die tile) with poison := (t.tile (placeOf die tile)).poison } ∧
      ∀ g, g ∈ (t.tile (placeOf die tile)).poison ↔ (g = off / 8 ∨ g ∈ (s.tile (placeOf die tile)).poison) := by
  let x := s.tile (placeOf die tile)
  refine ⟨s.setTile (placeOf die tile) { x with poison := setPoison x.poison (off / 8) true }, ?_, ?_, fun g => ?_⟩
  · rw [exec_uncorrectableError]
    rw [execUncorrectableError]
    exact if_neg (Nat.not_le.2 h)
  · rw [State.setTile_tile_self]
  · rw [State.setTile_tile_self]
    exact mem_setPoison _ _ _

/-- Settles O53: each event through the rule of the unit that it belongs to. -/
theorem memoryEventsServeTheirQueues : Obligations.MemoryEventsServeTheirQueues := by
  unfold Obligations.MemoryEventsServeTheirQueues
  refine ⟨fun tile goal ht hg hne => outputPort_nearer ht hg hne, fun s => ⟨?walk, ?response, fun _ => rfl, ?slice, ?urgent,
    ?shared, fun _ _ _ _ => l2_error_poisons, fun _ _ _ _ _ _ => l1_error_poisons, fun _ => dram_error_poisons,
    fun _ _ _ => scratch_error_poisons⟩⟩
  case walk =>
    intro die n f hf same s1 hu
    rw [exec_translationWalkComplete hf]
    cases hwalk : (gateWalk (leaveGate s die f) f.asid (f.line * 128)).2 with
    | error e =>
      obtain ⟨hctxs, hwalks, htlbs, hresponses⟩ := finishWalk_failed_spec hwalk
      exact ⟨_, rfl, hctxs, hwalks, fun _ _ => ⟨htlbs, hresponses⟩, fun _ he => (nomatch hwalk.symm.trans he)⟩
    | ok e =>
      obtain ⟨hctxs, hwalks, hcached, hsent⟩ := finishWalk_mapped_spec hu hwalk
      refine ⟨_, rfl, hctxs, hwalks, fun _ he => (nomatch hwalk.symm.trans he), fun e' he => ?_⟩
      obtain rfl : e = e' := Except.ok.inj (hwalk.symm.trans he)
      exact ⟨hcached, hsent⟩
  case response =>
    intro die n f hf htile hclean hmiss s1
    exact ⟨exec_memoryResponse_poisoned hf hmiss, memoryResponse_fills_line hf htile hclean hmiss⟩
  case slice =>
    intro slice p f l q hpick hf hl ht hu q2
    exact exec_l2SliceRequest_hit hpick hf hl ht hu
  case urgent =>
    intro die tile port v x i r hx hv s1
    exact ⟨exec_routerArbitration_urgent rfl hx hv, fun goal h0 h5 hexit => passOn_enters h0 h5 hexit⟩
  case shared =>
    intro die tile port v p x i r has sh hlow hv hshare hwaits hskip hx sends
    constructor
    · intro hturn hpays
      exact exec_routerArbitration_weighted rfl hlow hv hshare hwaits hskip fun n => drrPick_turn hturn hx hpays (n + 1)
    · intro hpoor hnext hpays
      exact exec_routerArbitration_weighted rfl hlow hv hshare hwaits hskip fun n => drrPick_next_turn hpoor hnext hx hpays n

end Sys2Proof.Machine

/-! ## Firings that compute on lanes: what their meaning does with the results (O23) -/

namespace Sys2Proof.Machine
open Sys2Proof

/-- Every instruction that computes fires with its result function (R312). -/
theorem exec_of_computes {i : Instr} {d : Dst} {fa fb : BitVec 4} {f : Opnds → Res} (h : computes i = some (d, fa, fb, f))
    (s : State) : exec i s = .next (fireWith s d fa fb f) := by
  cases i <;> cases h <;> rfl

/-- Whether flags trap, as R54 tests it. -/
theorem fpTraps_iff (fpmode : W32) (fl : FpFlags) : fpTraps fpmode fl = true ↔ trapEnables fpmode &&& fl ≠ 0 := by
  simp [fpTraps]

/-- The flags of a firing noted, and its generator (R49, R52): only fpflags of its context and its tile's generators differ. -/
theorem noteResult_here (s : State) (r : Res) :
    (noteResult s r).here = { s.here with fpflags := s.here.fpflags ||| r.flags.zeroExtend 32 } := by
  unfold noteResult
  dsimp only
  split <;> simp [setGen, State.here, State.setHere]

theorem noteResult_focus (s : State) (r : Res) : (noteResult s r).focus = s.focus := by
  unfold noteResult
  dsimp only
  split <;> rfl

/-- A firing with a flag that traps notes its flags and stops at FPTRAP (R54). -/
theorem fireWith_traps {s : State} {d : Dst} {fa fb : BitVec 4} {f : Opnds → Res}
    (h : trapEnables s.here.fpmode &&& (f (operands s)).flags ≠ 0) :
    fireWith s d fa fb f =
      faultFiring (noteResult s (f (operands s))) codeFptrap none (some ((f (operands s)).flags.zeroExtend 64)) {} :=
  if_pos ((fpTraps_iff ..).2 h)

/-- A firing whose flags do not trap completes (R52, R88, R199). -/
theorem fireWith_completes {s : State} {d : Dst} {fa fb : BitVec 4} {f : Opnds → Res}
    (h : trapEnables s.here.fpmode &&& (f (operands s)).flags = 0) :
    fireWith s d fa fb f = completed s d fa fb (f (operands s)) :=
  if_neg fun ht => (fpTraps_iff ..).1 ht h

theorem exec_completes {i : Instr} {s : State} {d : Dst} {fa fb : BitVec 4} {f : Opnds → Res} (hc : computes i = some (d, fa, fb, f))
    (h : trapEnables s.here.fpmode &&& (f (operands s)).flags = 0) : exec i s = .next (completed s d fa fb (f (operands s))) := by
  rw [exec_of_computes hc, fireWith_completes h]

/-- Settles O23: the flags are noted, and the fault of the firing adds one record behind the others. -/
theorem fpTrapSendsNoResult : Obligations.FpTrapSendsNoResult := by
  intro i s d fa fb f hc htrap
  have hexec : exec i s = .next (faultFiring (noteResult s (f (operands s))) codeFptrap none
      (some ((f (operands s)).flags.zeroExtend 64)) {}) := by rw [exec_of_computes hc, fireWith_traps htrap]
  obtain ⟨x, hhere, hcode, hframe, hindex, -, hbase, -, -, hdetail⟩ :=
    faultAt_spec (noteResult s (f (operands s))) codeFptrap none (some ((f (operands s)).flags.zeroExtend 64))
      (.firing s.focus.ins s.focus.frame s.focus.k {})
  rw [noteResult_focus] at hframe hindex hbase
  refine ⟨_, x, hexec, ?_⟩
  rw [noteResult_here] at hhere
  unfold faultFiring
  rw [noteResult_focus, hhere]
  exact ⟨rfl, rfl, rfl, rfl, rfl, rfl, hcode, hdetail _ rfl, hindex, hframe, hbase⟩

end Sys2Proof.Machine

/-! ## Reset (O5) -/

namespace Sys2Proof.Machine
open Sys2Proof

/-- Settles O5: nothing is written at reset, so each part of the state reads as its initial value. -/
theorem resetLeavesTheStatedValues : Obligations.ResetLeavesTheStatedValues := by
  unfold Obligations.ResetLeavesTheStatedValues
  refine ⟨rfl, rfl, rfl, fun _ => rfl, fun _ => ⟨rfl, rfl, rfl, rfl, rfl⟩, fun _ => ⟨rfl, rfl, rfl, rfl, rfl⟩, fun e r => ⟨?_, ?_⟩, ?_,
    rfl, fun _ _ => rfl⟩
  · show (List.replicate 128 (0xFF800000 : W32)).getD r 0xFF800000 = 0xFF800000
    rw [List.getD_eq_getElem?_getD, List.getElem?_getD_replicate_default_eq]
  · show (List.replicate 128 (0 : W32)).getD r 0 = 0
    rw [List.getD_eq_getElem?_getD, List.getElem?_getD_replicate_default_eq]
  · decide

end Sys2Proof.Machine

/-! ## Elements of a lane and operations that neither flag nor draw (O27) -/

namespace Sys2Proof.Machine
open Sys2Proof

theorem elt_lt (w e : Nat) (v : W32) : elt w e v < 2 ^ w := Nat.mod_lt _ (Nat.two_pow_pos w)

/-- The number that elements packed `w` bits apart make (R32). -/
def packNat (w : Nat) (l : List Nat) : Nat := l.foldr (fun b acc => b % 2 ^ w + acc * 2 ^ w) 0

theorem packNat_lt (w : Nat) (l : List Nat) : packNat w l < 2 ^ (w * l.length) := by
  induction l with
  | nil => simp [packNat]
  | cons b t ih =>
    have hb : b % 2 ^ w < 2 ^ w := Nat.mod_lt _ (Nat.two_pow_pos w)
    calc packNat w (b :: t) = b % 2 ^ w + packNat w t * 2 ^ w := rfl
      _ < 2 ^ w + packNat w t * 2 ^ w := by omega
      _ = (packNat w t + 1) * 2 ^ w := by ring
      _ ≤ 2 ^ (w * t.length) * 2 ^ w := Nat.mul_le_mul_right _ ih
      _ = 2 ^ (w * (b :: t).length) := by rw [← pow_add, List.length_cons, Nat.mul_succ]

theorem packNat_div (w e : Nat) (l : List Nat) : packNat w l / 2 ^ (w * e) % 2 ^ w = l.getD e 0 % 2 ^ w := by
  have hw : 0 < 2 ^ w := Nat.two_pow_pos w
  induction l generalizing e with
  | nil => simp [packNat]
  | cons b t ih =>
    cases e with
    | zero => simp [packNat, Nat.add_mul_mod_self_right]
    | succ e =>
      have hstep : packNat w (b :: t) / 2 ^ w = packNat w t := by
        change (b % 2 ^ w + packNat w t * 2 ^ w) / 2 ^ w = _
        rw [Nat.add_mul_div_right _ _ hw, Nat.div_eq_of_lt (Nat.mod_lt _ hw), Nat.zero_add]
      rw [Nat.mul_succ, Nat.add_comm, pow_add, ← Nat.div_div_eq_div_mul, hstep, ih]
      rfl

/-- An element of a packed lane is the element that was packed; past the elements it is zero (R32). -/
theorem elt_packElts {w : Nat} {l : List Nat} (hl : w * l.length ≤ 32) (e : Nat) : elt w e (packElts w l) = l.getD e 0 % 2 ^ w := by
  have hlt : packNat w l < 2 ^ 32 := (packNat_lt w l).trans_le (Nat.pow_le_pow_right (by decide) hl)
  have hnat : (packElts w l).toNat = packNat w l := by
    change (BitVec.ofNat 32 (packNat w l)).toNat = _
    rw [BitVec.toNat_ofNat, Nat.mod_eq_of_lt hlt]
  rw [elt, hnat, packNat_div]

theorem getLsbD_packElts_one {l : List Nat} (hl : l.length ≤ 32) (e : Nat) : (packElts 1 l).getLsbD e = decide (l.getD e 0 % 2 = 1) := by
  have h := elt_packElts (w := 1) (by omega : 1 * l.length ≤ 32) e
  rw [elt, Nat.one_mul, pow_one] at h
  rw [BitVec.getLsbD, Nat.testBit_eq_decide_div_mod_eq, h]

theorem elemWidth_mul_epl (t : Fmt) : elemWidth t * t.epl = 32 := by cases t <;> rfl

theorem elemWidth_pos (t : Fmt) : 0 < elemWidth t := by cases t <;> decide

theorem epl_le (t : Fmt) : t.epl ≤ 32 := by cases t <;> decide

theorem getD_map_range {α : Type} (f : Nat → α) (n i : Nat) (d : α) : ((List.range n).map f).getD i d = if i < n then f i else d := by
  by_cases h : i < n <;> simp [List.getD_eq_getElem?_getD, h]

/-! ### Loops over elements and lanes -/

/-- Elements whose operation neither flags nor draws. -/
theorem eltLoop_steady {lim : Nat} {f : Nat → W32 → EltRes} {v : Nat → Nat} (h : ∀ e g, f e g = ⟨v e, 0, g⟩) (n e : Nat) (g : W32) :
    eltLoop lim f n e g = ((List.range n).map fun i => if e + i < lim then v (e + i) else 0, 0, g) := by
  induction n generalizing e with
  | zero => rfl
  | succ n ih =>
    have hr : (if e < lim then f e g else ⟨0, 0, g⟩) = (⟨if e < lim then v e else 0, 0, g⟩ : EltRes) := by
      split
      · exact h e g
      · rfl
    simp only [eltLoop, hr, ih, List.range_succ_eq_map, List.map_cons, List.map_map, Nat.add_zero]
    refine Prod.ext ?_ rfl
    simp [Function.comp_def, Nat.add_assoc, Nat.add_comm 1]

/-- Lanes whose function neither flags nor draws. -/
theorem laneLoop_steady {f : Nat → W32 → Lane × FpFlags × W32} {v : Nat → Lane} (h : ∀ j g, f j g = (v j, 0, g)) (n j : Nat) (g : W32) :
    laneLoop f n j g = ((List.range n).map fun i => v (j + i), 0, g) := by
  induction n generalizing j with
  | zero => rfl
  | succ n ih =>
    simp only [laneLoop, h, ih, List.range_succ_eq_map, List.map_cons, List.map_map, Nat.add_zero]
    refine Prod.ext ?_ rfl
    simp [Function.comp_def, Nat.add_assoc, Nat.add_comm 1]

/-- On elements of `w` bits the operation is the function `f`, without a flag or a draw (R312). -/
def Steady (w : Nat) (op : EltOp) (f : Nat → Nat → Nat) : Prop :=
  ∀ a b c g, a < 2 ^ w → b < 2 ^ w → op a b c g = ⟨f a b, 0, g⟩

/-- The elements that a function of two elements gives for one lane: zero where R34 makes the element invalid. -/
def eltsOf (ty : Fmt) (lim : Nat) (f : Nat → Nat → Nat) (a b : W32) : List Nat :=
  (List.range ty.epl).map fun e => if e < lim then f (elt (elemWidth ty) e a) (elt (elemWidth ty) e b) else 0

/-- The lane that such a function gives under the empty policy, its results `ow` bits apart. -/
def steadyLane (x : XA) (ow : Nat) (o : Opnds) (f : Nat → Nat → Nat) (j : Nat) : Lane :=
  match emptyPolicy x.empty (replLane x.ty (x.imm.extractLsb' 0 8)) (Opnds.lane o.a j) (Opnds.lane o.b j) (Opnds.lane o.c j) with
  | .decided l => l
  | .compute a b _ => some (packElts ow (eltsOf x.ty (o.validAt x.ty.epl j) f a b))

theorem runElts_steady {x : XA} {op : EltOp} {f : Nat → Nat → Nat} (h : Steady (elemWidth x.ty) op f) (ow : Nat) (o : Opnds) :
    runElts x ow o op = .both ⟨(List.range o.k).map (steadyLane x ow o f), o.key, o.count⟩ 0 o.gen := by
  have hlane (j : Nat) (a b c g : W32) : eltLane x.ty ow (o.validAt x.ty.epl j) op a b c g =
      (packElts ow (eltsOf x.ty (o.validAt x.ty.epl j) f a b), 0, g) := by
    rw [eltLane, eltLoop_steady (v := fun e => f (elt (elemWidth x.ty) e a) (elt (elemWidth x.ty) e b))
      fun e g => h _ _ _ g (elt_lt _ e a) (elt_lt _ e b)]
    simp only [Nat.zero_add, eltsOf]
  unfold runElts policyLanes
  dsimp only
  rw [laneLoop_steady (v := steadyLane x ow o f)]
  · simp [resA]
  · intro j g
    rcases hp : emptyPolicy x.empty (replLane x.ty (x.imm.extractLsb' 0 8)) (Opnds.lane o.a j) (Opnds.lane o.b j) (Opnds.lane o.c j)
      with l | ⟨a, b, c⟩ <;> simp only [steadyLane, hp, hlane]

/-- An instruction whose element operation neither flags nor draws answers what its function gives (R312). -/
theorem answers_of_steady {i : Instr} {x : XA} {s : State} {op : EltOp} {f : Nat → Nat → Nat} {r : Opnds → Res}
    (hc : computes i = some (x.d, x.ty.code, x.ty.code, r)) (hr : r (operands s) = runXA x (operands s) op)
    (h : Steady (elemWidth x.ty) op f) (hf : ∀ a b, a < 2 ^ elemWidth x.ty → b < 2 ^ elemWidth x.ty → f a b < 2 ^ elemWidth x.ty) :
    Answers i x s f 0 := by
  have hrun : r (operands s) = _ := hr.trans (runElts_steady h _ _)
  refine ⟨⟨(List.range s.focus.k).map (steadyLane x (elemWidth x.ty) (operands s) f), (operands s).key, (operands s).count⟩, rfl, rfl,
    by simp, fun j hj => ?_, ?_⟩
  · rw [getD_map_range, if_pos hj]
    rcases hp : emptyPolicy x.empty (replLane x.ty (x.imm.extractLsb' 0 8)) (Opnds.lane (operands s).a j) (Opnds.lane (operands s).b j)
      (Opnds.lane (operands s).c j) with l | ⟨a, b, c⟩ <;> simp only [LaneOf, steadyLane, hp]
    · refine ⟨_, rfl, fun e he => ?_⟩
      rw [elt_packElts (by simp [eltsOf, elemWidth_mul_epl]), eltsOf, getD_map_range, if_pos he]
      split
      · exact Nat.mod_eq_of_lt (hf _ _ (elt_lt ..) (elt_lt ..))
      · exact Nat.zero_mod _
  · rw [exec_completes hc (by simp [hrun, Res.both]), hrun]
    rfl

/-- An instruction whose element operation gives a truth value answers those as bits (R331). -/
theorem answersBits_of_steady {i : Instr} {x : XA} {s : State} {op : EltOp} {q : Nat → Nat → Bool} {p : Nat → Nat → Prop} {r : Opnds → Res}
    (hc : computes i = some (x.d, fmtN32, fmtN32, r)) (hr : r (operands s) = runElts x 1 (operands s) op)
    (h : Steady (elemWidth x.ty) op fun a b => (q a b).toNat)
    (hq : ∀ a b, a < 2 ^ elemWidth x.ty → b < 2 ^ elemWidth x.ty → (q a b = true ↔ p a b)) : AnswersBits i x s p := by
  have hrun : r (operands s) = _ := hr.trans (runElts_steady h _ _)
  refine ⟨(List.range s.focus.k).map (steadyLane x 1 (operands s) fun a b => (q a b).toNat), by simp, fun j hj => ?_, ?_⟩
  · rw [getD_map_range, if_pos hj]
    rcases hp : emptyPolicy x.empty (replLane x.ty (x.imm.extractLsb' 0 8)) (Opnds.lane (operands s).a j) (Opnds.lane (operands s).b j)
      (Opnds.lane (operands s).c j) with l | ⟨a, b, c⟩ <;> simp only [steadyLane, hp]
    · refine ⟨_, rfl, fun e => ?_⟩
      have hbit (t : Bool) : t.toNat % 2 = 1 ↔ t = true := by cases t <;> decide
      rw [getLsbD_packElts_one (by simp [eltsOf, epl_le]), decide_eq_true_iff, eltsOf, getD_map_range]
      by_cases he : e < x.ty.epl <;> by_cases hv : e < (operands s).validAt x.ty.epl j <;>
        simp [he, hv, hbit, hq _ _ (elt_lt (elemWidth x.ty) e a) (elt_lt (elemWidth x.ty) e b)]
  · rw [exec_completes hc (by simp [hrun, Res.both]), hrun]
    rfl

/-! ### Integer values -/

section
variable {w : Nat} {a b : Nat}

/-- The value of an element as the statements write it. -/
theorem intVal_eq (hw : 0 < w) (signed : Bool) (ha : a < 2 ^ w) :
    intVal signed w a = if signed then (BitVec.ofNat w a).toInt else (a : Int) := by
  have hhalf : 2 ^ w = 2 * 2 ^ (w - 1) := by rw [← pow_succ', Nat.sub_add_cancel hw]
  cases signed with
  | false => simp [intVal]
  | true =>
    simp only [intVal, true_and, if_true, BitVec.toInt_eq_toNat_cond, BitVec.toNat_ofNat, Nat.mod_eq_of_lt ha]
    by_cases h : 2 ^ (w - 1) ≤ a
    · rw [if_pos h, if_neg (by omega)]; norm_cast
    · rw [if_neg h, if_pos (by omega)]

theorem intVal_inj (signed : Bool) (ha : a < 2 ^ w) (hb : b < 2 ^ w) (h : intVal signed w a = intVal signed w b) : a = b := by
  have ha' : (a : Int) < 2 ^ w := by exact_mod_cast ha
  have hb' : (b : Int) < 2 ^ w := by exact_mod_cast hb
  unfold intVal at h
  split at h <;> split at h <;> omega

theorem intLo_le_intHi (signed : Bool) (w : Nat) : intLo signed w ≤ intHi signed w := by
  have h1 : (1 : Int) ≤ 2 ^ (w - 1) := one_le_pow₀ (by decide)
  have h2 : (1 : Int) ≤ 2 ^ w := one_le_pow₀ (by decide)
  cases signed <;> simp only [intLo, intHi, if_true, Bool.false_eq_true, if_false] <;> omega

/-- Narrowing as the statements write it: wrap, or clamp to the range of the type first (R50). -/
theorem narrow_eq (signed : Bool) (w : Nat) (sat : Sat) (k : Int) :
    narrow signed w sat k = (BitVec.ofInt w (if sat = .off then k else if k < intLo signed w then intLo signed w
      else if intHi signed w < k then intHi signed w else k)).toNat := by
  have hle := intLo_le_intHi signed w
  have hclamp : max (intLo signed w) (min (intHi signed w) k) =
      if k < intLo signed w then intLo signed w else if intHi signed w < k then intHi signed w else k := by
    split
    · omega
    · split <;> omega
  rw [BitVec.toNat_ofInt]
  cases sat <;> simp [narrow, hclamp]

theorem narrow_lt (signed : Bool) (w : Nat) (sat : Sat) (k : Int) : narrow signed w sat k < 2 ^ w := by
  rw [narrow_eq]
  exact BitVec.isLt _

end

section
variable {x : XA} (hint : x.ty.isInt = true)
include hint

theorem arithOp_steady (mode : Rnd) (iop : Int → Int → Int) (fop : FVal → FVal → Option FVal) :
    Steady (elemWidth x.ty) (arithOp x mode iop fop) fun a b => narrow (Fmt.signed x.ty) (elemWidth x.ty) x.sat
      (iop (intVal (Fmt.signed x.ty) (elemWidth x.ty) a) (intVal (Fmt.signed x.ty) (elemWidth x.ty) b)) := by
  intro a b c g _ _
  simp [arithOp, hint]

theorem signOp_steady (neg : Bool) :
    Steady (elemWidth x.ty) (signOp x neg) fun a _ => narrow (Fmt.signed x.ty) (elemWidth x.ty) x.sat
      (if neg then -intVal (Fmt.signed x.ty) (elemWidth x.ty) a else (intVal (Fmt.signed x.ty) (elemWidth x.ty) a).natAbs) := by
  intro a b c g _ _
  simp [signOp, hint]

theorem pickOp_steady (larger : Bool) :
    Steady (elemWidth x.ty) (pickOp x larger) fun a b =>
      if decide (intVal (Fmt.signed x.ty) (elemWidth x.ty) a < intVal (Fmt.signed x.ty) (elemWidth x.ty) b) = larger then b else a := by
  intro a b c g _ _
  simp [pickOp, hint]

end

theorem bitOp_steady (w : Nat) (f : Nat → Nat → Nat) : Steady w (bitOp f) f := fun _ _ _ _ _ _ => rfl

/-- What CMP tests under each condition, given whether one element is below the other and whether they are equal (R331). -/
def cmpTest (cond : Nat) (u v : Int) : Bool :=
  match cond with
  | 0 => decide (u = v)
  | 1 => !decide (u = v)
  | 2 => decide (u < v)
  | 3 => decide (u < v) || decide (u = v)
  | 4 => !decide (u < v) && !decide (u = v)
  | 5 => !decide (u < v)
  | 6 => true
  | _ => false

theorem cmpOp_steady {ty : Fmt} (hint : ty.isInt = true) (cond : Nat) :
    Steady (elemWidth ty) (cmpOp ty cond) fun a b =>
      (cmpTest cond (intVal (Fmt.signed ty) (elemWidth ty) a) (intVal (Fmt.signed ty) (elemWidth ty) b)).toNat := by
  intro a b c g _ _
  simp only [cmpOp, hint, if_true, cmpTest] <;> rfl

theorem cmpTest_iff (cond : Nat) (u v : Int) : cond ≤ 5 → (cmpTest cond u v = true ↔ match cond with
    | 0 => u = v
    | 1 => u ≠ v
    | 2 => u < v
    | 3 => u ≤ v
    | 4 => v < u
    | _ => v ≤ u) := by
  intro h
  interval_cases cond <;> simp [cmpTest] <;> omega

section
variable {x : XA} {s : State} {i : Instr}

/-- A function of two elements matters at elements of the type's width alone. -/
theorem Answers.congr {f g : Nat → Nat → Nat} {fl : FpFlags} (h : Answers i x s f fl)
    (hfg : ∀ a b, a < 2 ^ elemWidth x.ty → b < 2 ^ elemWidth x.ty → f a b = g a b) : Answers i x s g fl := by
  obtain ⟨r, hkey, hcount, hlen, hlanes, hexec⟩ := h
  refine ⟨r, hkey, hcount, hlen, fun j hj => ?_, hexec⟩
  have hl := hlanes j hj
  rcases hp : emptyPolicy x.empty (replLane x.ty (x.imm.extractLsb' 0 8)) (Opnds.lane (operands s).a j) (Opnds.lane (operands s).b j)
      (Opnds.lane (operands s).c j) with l | ⟨a, b, c⟩ <;> simp only [LaneOf, hp] at hl ⊢
  · exact hl
  · obtain ⟨v, hv, he⟩ := hl
    refine ⟨v, hv, fun e h => ?_⟩
    rw [he e h, hfg _ _ (elt_lt ..) (elt_lt ..)]

theorem answers_arithOp (hint : x.ty.isInt = true) (iop : Int → Int → Int) (fop : Rnd → FVal → FVal → Option FVal)
    (hc : computes i =
      some (x.d, x.ty.code, x.ty.code, fun o => runXA x o (arithOp x (effRnd x.rnd o.mode) iop (fop (effRnd x.rnd o.mode))))) :
    Answers i x s (fun a b => narrow (Fmt.signed x.ty) (elemWidth x.ty) x.sat
      (iop (intVal (Fmt.signed x.ty) (elemWidth x.ty) a) (intVal (Fmt.signed x.ty) (elemWidth x.ty) b))) 0 :=
  answers_of_steady hc rfl (arithOp_steady hint _ iop _) fun _ _ _ _ => narrow_lt _ _ _ _

theorem answers_signOp (hint : x.ty.isInt = true) (neg : Bool)
    (hc : computes i = some (x.d, x.ty.code, x.ty.code, fun o => runXA x o (signOp x neg))) :
    Answers i x s (fun a _ => narrow (Fmt.signed x.ty) (elemWidth x.ty) x.sat
      (if neg then -intVal (Fmt.signed x.ty) (elemWidth x.ty) a else (intVal (Fmt.signed x.ty) (elemWidth x.ty) a).natAbs)) 0 :=
  answers_of_steady hc rfl (signOp_steady hint neg) fun _ _ _ _ => narrow_lt _ _ _ _

theorem answers_pickOp (hint : x.ty.isInt = true) (larger : Bool)
    (hc : computes i = some (x.d, x.ty.code, x.ty.code, fun o => runXA x o (pickOp x larger))) :
    Answers i x s (fun a b =>
      if decide (intVal (Fmt.signed x.ty) (elemWidth x.ty) a < intVal (Fmt.signed x.ty) (elemWidth x.ty) b) = larger then b else a) 0 :=
  answers_of_steady hc rfl (pickOp_steady hint larger) fun _ _ ha hb => by split <;> assumption

theorem answers_bitOp (f : Nat → Nat → Nat)
    (hc : computes i = some (x.d, x.ty.code, x.ty.code, fun o => runXA x o (bitOp f)))
    (hf : ∀ a b, a < 2 ^ elemWidth x.ty → b < 2 ^ elemWidth x.ty → f a b < 2 ^ elemWidth x.ty) : Answers i x s f 0 :=
  answers_of_steady hc rfl (bitOp_steady _ f) hf

end

/-- ANDN as the statement writes it (R316). -/
theorem andnBits_eq {w a : Nat} (ha : a < 2 ^ w) (b : Nat) : andnBits w a b = (BitVec.ofNat w a &&& ~~~BitVec.ofNat w b).toNat := by
  rw [BitVec.toNat_and, BitVec.toNat_not, BitVec.toNat_ofNat, BitVec.toNat_ofNat, Nat.mod_eq_of_lt ha, andnBits]

/-- Settles O27: each operation neither flags nor draws, and its function of two elements is the one that the statement writes. -/
theorem integerArithmeticIsExactThenNarrowed : Obligations.IntegerArithmeticIsExactThenNarrowed := by
  intro x s hint w val least most sat
  have hval {a : Nat} (ha : a < 2 ^ elemWidth x.ty) : intVal (Fmt.signed x.ty) (elemWidth x.ty) a = val a :=
    intVal_eq (elemWidth_pos x.ty) _ ha
  have hinj {a b : Nat} (ha : a < 2 ^ elemWidth x.ty) (hb : b < 2 ^ elemWidth x.ty) (h : val a = val b) : a = b :=
    intVal_inj (Fmt.signed x.ty) ha hb ((hval ha).trans (h.trans (hval hb).symm))
  have hsat (k : Int) : narrow (Fmt.signed x.ty) (elemWidth x.ty) x.sat k = sat k := narrow_eq _ _ _ _
  clear_value val least most sat
  refine ⟨?add, ?sub, ?mul, ?neg, ?abs, ?min, ?max, ?and, ?or, ?xor, ?andn, fun hcond => ?cmp⟩
  case add =>
    exact (answers_arithOp hint (· + ·) fadd rfl).congr fun a b ha hb => by rw [hval ha, hval hb, hsat]
  case sub =>
    exact (answers_arithOp hint (· - ·) (fun m u v => fadd m u v.negate) rfl).congr fun a b ha hb => by rw [hval ha, hval hb, hsat]
  case mul =>
    exact (answers_arithOp hint (· * ·) (fun _ => fmul) rfl).congr fun a b ha hb => by rw [hval ha, hval hb, hsat]
  case neg =>
    exact (answers_signOp hint true rfl).congr fun a b ha hb => by rw [hval ha, hsat, if_pos rfl]
  case abs =>
    refine (answers_signOp hint false rfl).congr fun a b ha hb => ?_
    rw [hval ha, hsat, if_neg Bool.false_ne_true]
    congr 1
    split <;> omega
  case min =>
    refine (answers_pickOp hint false rfl).congr fun a b ha hb => ?_
    rw [hval ha, hval hb]
    rcases lt_trichotomy (val a) (val b) with h | h | h
    · simp [h, h.le]
    · simp [hinj ha hb h]
    · simp [h, h.le]
  case max =>
    refine (answers_pickOp hint true rfl).congr fun a b ha hb => ?_
    rw [hval ha, hval hb]
    simp only [decide_eq_true_iff]
  case and => exact answers_bitOp _ rfl fun a b _ hb => Nat.and_lt_two_pow a hb
  case or => exact answers_bitOp _ rfl fun a b ha hb => Nat.or_lt_two_pow ha hb
  case xor => exact answers_bitOp _ rfl fun a b ha hb => Nat.xor_lt_two_pow ha hb
  case andn =>
    exact (answers_bitOp (andnBits (elemWidth x.ty)) rfl fun a b ha _ => andnBits_eq ha b ▸ BitVec.isLt _).congr
      fun a b ha _ => andnBits_eq ha b
  case cmp =>
    refine answersBits_of_steady (q := fun a b => cmpTest x.cond.toNat _ _) rfl rfl (cmpOp_steady hint _) fun a b ha hb => ?_
    rw [hval ha, hval hb]
    exact cmpTest_iff _ _ _ hcond

end Sys2Proof.Machine

/-! ## Delivery of a run to the ports of frames (O21) -/

namespace Sys2Proof.Machine
open Sys2Proof

/-- A frame's port takes no lane: it holds one, or its instruction has fired (R106). -/
def PortTaken (fr : Frame) (ins : Nat) (p : Port) : Prop := fr.fired.getLsbD ins = true ∨ slotAt fr ins p ≠ none

theorem num_of_find {c : Ctx} {n : Nat} {fr : Frame} (h : c.find n = some fr) : fr.num = n := by
  simpa using List.find?_some h

section
variable {c : Ctx} {fr : Frame} {num ins : Nat} {p : Port} {fmt : BitVec 4} {key : BitVec 12}

theorem putLane_find_ne {n : Nat} (h : n ≠ num) (l : Lane) (start : Bool) (fin : BitVec 4) :
    (putLane c num ins p l start fmt key fin).1.find n = c.find n := by
  unfold putLane
  split
  · rfl
  · dsimp only
    split
    · exact find_update_ne c _ (fun _ => rfl) h
    · exact find_update_ne c _ (fun _ => rfl) h

/-- A lane for a taken port poisons the frame and is a duplicate (R106). -/
theorem putLane_taken (h : c.find num = some fr) (ht : PortTaken fr ins p) (l : Lane) (start : Bool) (fin : BitVec 4) :
    (putLane c num ins p l start fmt key fin).1.find num = some { fr with poisoned := true } ∧
      (putLane c num ins p l start fmt key fin).2.isSome = true := by
  have hdup : fr.fired.getLsbD ins = true ∨ (fr.slots.find? fun x => x.ins = ins ∧ x.port = p).isSome = true :=
    ht.imp_right Option.isSome_iff_ne_none.2
  simp only [putLane, h, if_pos hdup]
  exact ⟨by rw [find_update_self c num (fun g => { g with poisoned := true }) fun _ => rfl, h]; rfl, rfl⟩

/-- A lane for a free port stands in its slot (R87). -/
theorem putLane_free (h : c.find num = some fr) (ht : ¬ PortTaken fr ins p) (l : Lane) (start : Bool) (fin : BitVec 4) :
    (putLane c num ins p l start fmt key fin).1.find num =
      some { fr with slots := fr.slots ++ [⟨ins, p, l, start, fmt, key, fin⟩] } := by
  have hdup : ¬ (fr.fired.getLsbD ins = true ∨ (fr.slots.find? fun x => x.ins = ins ∧ x.port = p).isSome = true) :=
    fun h => ht (h.imp_right Option.isSome_iff_ne_none.1)
  simp only [putLane, h, if_neg hdup]
  rw [find_update_self c num (fun g => { g with slots := g.slots ++ [⟨ins, p, l, start, fmt, key, fin⟩] }) fun _ => rfl, h]
  rfl

/-- A run leaves the frames before its first as they are. -/
theorem putRun_find_lt {n : Nat} (h : n < num) (count : BitVec 4) (start : Bool) (l : List Lane) :
    (putRun c num ins p fmt key count start l).1.find n = c.find n := by
  induction l generalizing c num start with
  | nil => rfl
  | cons a t ih =>
    simp only [putRun]
    rw [ih (by omega), putLane_find_ne (by omega)]

/-- A run with a lane for a taken port poisons that frame, and some lane of it is a duplicate (R106). -/
theorem putRun_taken (l : List Lane) (m : Nat) (hm : m < l.length) (h : c.find (num + m) = some fr) (ht : PortTaken fr ins p)
    (count : BitVec 4) (start : Bool) :
    (putRun c num ins p fmt key count start l).1.find (num + m) = some { fr with poisoned := true } ∧
      (putRun c num ins p fmt key count start l).2.isSome = true := by
  induction l generalizing c num start m with
  | nil => exact absurd hm (Nat.not_lt_zero m)
  | cons a t ih =>
    simp only [putRun]
    cases m with
    | zero =>
      obtain ⟨hfind, hdup⟩ := putLane_taken (fmt := fmt) (key := key) h ht a start (if t.isEmpty then count else 0)
      rw [Nat.add_zero] at hfind hdup ⊢
      obtain ⟨d, hd⟩ := Option.isSome_iff_exists.1 hdup
      exact ⟨(putRun_find_lt (by omega) ..).trans hfind, by rw [hd]; rfl⟩
    | succ m =>
      rw [Nat.add_comm m 1, ← Nat.add_assoc] at h ⊢
      have hkept := (putLane_find_ne (ins := ins) (p := p) (fmt := fmt) (key := key) (by omega : num + 1 + m ≠ num) a start
        (if t.isEmpty then count else 0)).trans h
      obtain ⟨hfind, hdup⟩ := ih m (by simpa using hm) hkept false
      refine ⟨hfind, ?_⟩
      split
      · rfl
      · exact hdup

/-- A run's lane for a free port stands in its slot, the first marked as the start of the run (R87). -/
theorem putRun_free (l : List Lane) (m : Nat) (hm : m < l.length) (h : c.find (num + m) = some fr) (ht : ¬ PortTaken fr ins p)
    (count : BitVec 4) (start : Bool) :
    ∃ fin, (putRun c num ins p fmt key count start l).1.find (num + m) =
      some { fr with slots := fr.slots ++ [⟨ins, p, l.getD m none, start && decide (m = 0), fmt, key, fin⟩] } := by
  induction l generalizing c num start m with
  | nil => exact absurd hm (Nat.not_lt_zero m)
  | cons a t ih =>
    simp only [putRun]
    cases m with
    | zero =>
      refine ⟨if t.isEmpty then count else 0, ?_⟩
      rw [putRun_find_lt (by omega)]
      simpa using putLane_free (fmt := fmt) (key := key) h ht a start (if t.isEmpty then count else 0)
    | succ m =>
      rw [Nat.add_comm m 1, ← Nat.add_assoc] at h ⊢
      have hkept := (putLane_find_ne (ins := ins) (p := p) (fmt := fmt) (key := key) (by omega : num + 1 + m ≠ num) a start
        (if t.isEmpty then count else 0)).trans h
      obtain ⟨fin, hfind⟩ := ih m (by simpa using hm) hkept false
      exact ⟨fin, by simpa [Nat.add_comm 1 m] using hfind⟩

/-- A new slot of a port that held none is what the port then holds. -/
theorem slotAt_append (h : slotAt fr ins p = none) {y : Slot} (hi : y.ins = ins) (hp : y.port = p) :
    slotAt { fr with slots := fr.slots ++ [y] } ins p = some y := by
  unfold slotAt at h ⊢
  rw [List.find?_append, h]
  simp [hi, hp]

end

section
variable (s : State) (id num : Nat) (ins : BitVec 7) (p : Port) (fmt : BitVec 4) (key : BitVec 12) (count : BitVec 4) (l : List Lane)

/-- The frames that a delivered run leaves. -/
theorem deliverRun_find (n : Nat) :
    ((deliverRun s id num ins p fmt key count l).ctx id).find n =
      (putRun (s.ctx id) num ins.toNat p (if l.all Option.isNone then 0 else fmt) key (if l.all Option.isNone then 0 else count) true
        l).1.find n := by
  unfold deliverRun
  dsimp only
  rw [raiseDup_ctx]
  simp only [State.setCtx_ctx_self, Ctx.find]

/-- A run with a duplicate lane leaves a DUPLICATE that names the port's instruction (R106, R228). -/
theorem deliverRun_duplicate
    (h : (putRun (s.ctx id) num ins.toNat p (if l.all Option.isNone then 0 else fmt) key (if l.all Option.isNone then 0 else count) true
      l).2.isSome = true) :
    ∃ x ∈ ((deliverRun s id num ins p fmt key count l).ctx id).stops,
      x.record.code = 4 ∧ x.record.index = BitVec.ofNat 12 ins.toNat := by
  unfold deliverRun
  dsimp only
  obtain ⟨⟨n, a, b⟩, hd⟩ := Option.isSome_iff_exists.1 h
  rw [hd]
  simp only [raiseDup]
  obtain ⟨x, hx, hcode, _, _, hindex, _⟩ := takeFault_spec _ id codeDuplicate _ n ins.toNat _ _ .duplicate _
  exact ⟨x, by rw [hx]; simp, hcode, hindex⟩

end

/-- A result for a port, of the same frames or of the next (R87). -/
def portTarget (next : Bool) (j : BitVec 7) (p : Port) : Target := if next then .next j p else .same j p

/-- The first frame that such a result reaches. -/
def portBase (s : State) (next : Bool) : Nat := s.focus.frame + (if next then 1 else 0)

section
variable {s : State} (hk : s.focus.frame + s.focus.k ≤ s.here.ahead)
include hk

/-- A result of a firing whose frames all exist is delivered whole. -/
theorem sendResult_port (fmt : BitVec 4) (tb next : Bool) (r : Run) (j : BitVec 7) (p : Port) :
    ∃ late, (sendResult s fmt tb r (portTarget next j p)).here =
      { (deliverRun s s.focus.ctxId (portBase s next) j p fmt r.key r.count (r.lanes.take s.focus.k)).ctx s.focus.ctxId with late := late } := by
  have hn : existing s.here s.focus.frame s.focus.k = s.focus.k := by unfold existing; omega
  cases next <;>
    · simp only [portTarget, portBase, Bool.false_eq_true, if_false, if_true, sendResult, hn, Nat.lt_irrefl]
      rw [State.setHere_here, (deliverRun_only ..).here]
      exact ⟨_, rfl⟩

/-- A lane of such a result for a taken port: the frame is poisoned and a DUPLICATE stands (R106). -/
theorem sendResult_taken (fmt : BitVec 4) (tb next : Bool) (r : Run) (j : BitVec 7) (p : Port) {m : Nat} {fr : Frame}
    (hm : m < s.focus.k) (hl : m < r.lanes.length) (h : s.here.find (portBase s next + m) = some fr) (ht : PortTaken fr j.toNat p) :
    (sendResult s fmt tb r (portTarget next j p)).here.find (portBase s next + m) = some { fr with poisoned := true } ∧
      ∃ x ∈ (sendResult s fmt tb r (portTarget next j p)).here.stops, x.record.code = 4 ∧ x.record.index = BitVec.ofNat 12 j.toNat := by
  obtain ⟨late, hhere⟩ := sendResult_port hk fmt tb next r j p
  have hrun := fun fmt count => putRun_taken (fmt := fmt) (key := r.key) (r.lanes.take s.focus.k) m (by simp; omega) h ht count true
  rw [hhere]
  refine ⟨?_, deliverRun_duplicate _ _ _ _ _ _ _ _ _ (hrun _ _).2⟩
  exact (deliverRun_find _ _ _ _ _ _ _ _ _ _).trans (hrun _ _).1

/-- A lane of such a result for a free port stands in its slot (R31, R87). -/
theorem sendResult_free (fmt : BitVec 4) (tb next : Bool) (r : Run) (j : BitVec 7) (p : Port) {m : Nat} {fr : Frame}
    (hm : m < s.focus.k) (hl : m < r.lanes.length) (h : s.here.find (portBase s next + m) = some fr) (ht : ¬ PortTaken fr j.toNat p) :
    ∃ fin, (sendResult s fmt tb r (portTarget next j p)).here.find (portBase s next + m) = some { fr with
      slots := fr.slots ++ [⟨j.toNat, p, r.lanes.getD m none, decide (m = 0),
        if (r.lanes.take s.focus.k).all Option.isNone then 0 else fmt, r.key, fin⟩] } := by
  obtain ⟨late, hhere⟩ := sendResult_port hk fmt tb next r j p
  obtain ⟨fin, hrun⟩ := putRun_free (fmt := if (r.lanes.take s.focus.k).all Option.isNone then 0 else fmt) (key := r.key)
    (r.lanes.take s.focus.k) m (by simp; omega) h ht (if (r.lanes.take s.focus.k).all Option.isNone then 0 else r.count) true
  have hlane : (r.lanes.take s.focus.k).getD m none = r.lanes.getD m none := by
    simp [List.getD_eq_getElem?_getD, hm]
  rw [hlane, Bool.true_and] at hrun
  rw [hhere]
  exact ⟨fin, (deliverRun_find _ _ _ _ _ _ _ _ _ _).trans hrun⟩

end

/-- A frame once the firing of `ins` over frames `num` to `num + k - 1` has consumed its operands (R88). -/
def firedFrame (c : Ctx) (ins num k : Nat) (fr : Frame) : Frame :=
  if num ≤ fr.num ∧ fr.num < num + k ∧ fr.num < c.ahead then
    { fr with slots := fr.slots.filter (fun x => x.ins ≠ ins), fired := fr.fired ||| BitVec.twoPow 128 ins }
  else fr

theorem firedFrame_poisoned (c : Ctx) (ins num k : Nat) (fr : Frame) : (firedFrame c ins num k fr).poisoned = fr.poisoned := by
  unfold firedFrame
  split <;> rfl

theorem slotAt_filter_ne {fr : Frame} {ins j : Nat} (h : j ≠ ins) (p : Port) (fired : BitVec 128) :
    slotAt { fr with slots := fr.slots.filter (fun x => x.ins ≠ ins), fired := fired } j p = slotAt fr j p := by
  unfold slotAt
  dsimp only
  rw [List.find?_filter]
  congr 1
  funext x
  by_cases hx : x.ins = j
  · simp [hx, h]
  · simp [hx]

/-- Once it has fired, the firing's own ports are taken in its frames, and every other port as before. -/
theorem portTaken_firedFrame {c : Ctx} {ins num k j n : Nat} {p : Port} {fr : Frame} (hj : j < 128) (hn : fr.num = n) (hle : num ≤ n)
    (hk : num + k ≤ c.ahead) :
    PortTaken (firedFrame c ins num k fr) j p ↔ slotAt fr j p ≠ none ∨ fr.fired.getLsbD j = true ∨ (j = ins ∧ n < num + k) := by
  subst hn
  unfold firedFrame PortTaken
  by_cases hin : fr.num < num + k
  · rw [if_pos ⟨hle, hin, by omega⟩]
    by_cases he : j = ins
    · subst he
      simp [hj, hin]
    · rw [slotAt_filter_ne he]
      simp [hj, he, or_comm]
  · rw [if_neg (by omega)]
    simp [hin, or_comm]

/-- A firing that completes with one target sends the result of that side alone, from the state in which it has fired. -/
theorem completed_oneTarget (s : State) (fa fb : BitVec 4) (r : Res) (tb : Bool) (goal : Target) :
    completed s (if tb then ⟨.nowhere, goal⟩ else ⟨goal, .nowhere⟩) fa fb r =
      sendResult ((noteResult s r).setHere (markFired (noteResult s r).here s.focus.ins s.focus.frame s.focus.k))
        (if tb then fb else fa) tb (if tb then r.tb else r.ta) goal := by
  cases tb <;> simp [completed, finish, sendResult, noteResult_focus]

/-- Settles O21: each lane reaches its frame as the firing has left it, where the port is free or taken. -/
theorem resultLanesReachTheirFrames : Obligations.ResultLanesReachTheirFrames := by
  intro i s t d fa fb f tb next j p hc htrap goal r hd hk hexec m fr hm hl n hfr taken
  obtain rfl : completed s d fa fb (f (operands s)) = t := by
    rw [exec_completes hc htrap] at hexec
    exact Host.Outcome.next.inj hexec
  rw [hd, completed_oneTarget]
  generalize hs1 : (noteResult s (f (operands s))).setHere
    (markFired (noteResult s (f (operands s))).here s.focus.ins s.focus.frame s.focus.k) = s1
  have hfocus : s1.focus = s.focus := by rw [← hs1]; exact noteResult_focus _ _
  have hhere : s1.here = markFired (noteResult s (f (operands s))).here s.focus.ins s.focus.frame s.focus.k := by
    rw [← hs1, State.setHere_here]
  have hahead : s1.here.ahead = s.here.ahead := by rw [hhere, markFired_ahead, noteResult_here]
  have hfind : s1.here.find n = some (firedFrame s.here s.focus.ins s.focus.frame s.focus.k fr) := by
    rw [hhere, find_markFired, noteResult_here]
    change Option.map _ (s.here.find n) = _
    rw [hfr]
    rfl
  have hn : n = portBase s1 next + m := by rw [portBase, hfocus]
  have htaken : PortTaken (firedFrame s.here s.focus.ins s.focus.frame s.focus.k fr) j.toNat p ↔ taken :=
    portTaken_firedFrame j.isLt (num_of_find hfr) (by omega) hk
  have hk1 : s1.focus.frame + s1.focus.k ≤ s1.here.ahead := by rw [hfocus, hahead]; exact hk
  have hm1 : m < s1.focus.k := by rw [hfocus]; exact hm
  rw [hn] at hfind ⊢
  by_cases ht : taken
  · obtain ⟨hfr', hdup⟩ := sendResult_taken hk1 (if tb then fb else fa) tb next r j p hm1 hl hfind (htaken.2 ht)
    exact ⟨_, hfr', fun h => absurd ht h, fun _ => ⟨rfl, hdup⟩⟩
  · have hfree := fun h => ht (htaken.1 h)
    obtain ⟨fin, hfr'⟩ := sendResult_free hk1 (if tb then fb else fa) tb next r j p hm1 hl hfind hfree
    have hslot : slotAt (firedFrame s.here s.focus.ins s.focus.frame s.focus.k fr) j.toNat p = none :=
      not_not.1 fun h => hfree (.inr h)
    refine ⟨_, hfr', fun _ => ⟨_, slotAt_append hslot rfl rfl, rfl, ?_, rfl, rfl, firedFrame_poisoned ..⟩, fun h => absurd h ht⟩
    rw [hfocus]

end Sys2Proof.Machine

/-! ## Loads of scratchpad words (O30) -/

namespace Sys2Proof.Machine.Memory
open Sys2Proof

/-- Part of a run of bytes is the shorter run at its place. -/
theorem bytes_drop_take (m : Memory) (a : Nat) {n d k : Nat} (h : d + k ≤ n) : ((bytes m a n).drop d).take k = bytes m (a + d) k := by
  refine List.ext_getElem ?_ fun i h1 h2 => ?_
  · simp; omega
  · simp [bytes, Nat.add_assoc]

/-- A read after a run of bytes: the run's byte there, or the byte that stood there where the run leaves it alone. -/
theorem read_writeBytes (l : List (Option Byte)) (m : Memory) (a b : Nat) :
    read (writeBytes m a l) b = if a ≤ b then (l.getD (b - a) none).getD (read m b) else read m b := by
  induction l generalizing m a with
  | nil => simp
  | cons x t ih =>
    have hrest (m' : Memory) (hm : ∀ c, c ≠ a → read m' c = read m c) (hne : b ≠ a) :
        read (writeBytes m' (a + 1) t) b = if a ≤ b then ((x :: t).getD (b - a) none).getD (read m b) else read m b := by
      rw [ih, hm b hne]
      by_cases hlt : a ≤ b
      · obtain ⟨d, rfl⟩ : ∃ d, b = a + 1 + d := ⟨b - a - 1, by omega⟩
        rw [if_pos (by omega), if_pos hlt, show a + 1 + d - (a + 1) = d by omega, show a + 1 + d - a = d + 1 by omega]
        rfl
      · rw [if_neg (by omega), if_neg hlt]
    by_cases hb : b = a
    · subst hb
      cases x with
      | none => rw [writeBytes_none, read_writeBytes_outside _ _ _ _ (.inl (Nat.lt_succ_self b))]; simp
      | some v => rw [writeBytes_some, read_writeBytes_outside _ _ _ _ (.inl (Nat.lt_succ_self b)), read_write]; simp
    · cases x with
      | none => exact hrest m (fun _ _ => rfl) hb
      | some v => exact hrest _ (fun c hc => by rw [read_write, if_neg hc]) hb

/-- Bytes that are left alone before and behind a run. -/
theorem writeBytes_padded (l : List (Option Byte)) (m : Memory) (a d e : Nat) :
    writeBytes m a (List.replicate d none ++ l ++ List.replicate e none) = writeBytes m (a + d) l := by
  have hbehind (l : List (Option Byte)) (m : Memory) (a : Nat) : writeBytes m a (l ++ List.replicate e none) = writeBytes m a l := by
    induction l generalizing m a with
    | nil =>
      induction e generalizing a with
      | zero => rfl
      | succ e ih => exact ih (a + 1)
    | cons x t ih =>
      cases x with
      | none => exact ih m (a + 1)
      | some v => exact ih _ (a + 1)
  rw [List.append_assoc]
  induction d generalizing a with
  | zero => exact hbehind l m a
  | succ d ih => rw [List.replicate_succ, List.cons_append, writeBytes_none, ih, Nat.add_assoc, Nat.add_comm 1]

end Sys2Proof.Machine.Memory

namespace Sys2Proof.Machine
open Sys2Proof

section
variable {s : State} {ty : Fmt} {x : XM}

/-- A load of a granule of the window reads the issuing tile's scratchpad (R140). -/
theorem loadGranule_scratch {v : Via} {va : Nat} (hv : v.atSlice = false) (hw : isWindow va = true)
    (hok : scratchOk s v.place (va % 2 ^ 21) = true) :
    loadGranule s v va = (s, .ok ((s.tile v.place).scratch.bytes (va % 2 ^ 21 / 8 * 8) 8,
      (s.tile v.place).poison.contains (va % 2 ^ 21 / 8))) := by
  simp only [loadGranule, beforeAccess_window hv hw, routeOf_window hw, hok, if_true]

/-- A load of a word of the scratchpad changes nothing (R140). -/
theorem loadWord_scratch {a : W32} {off : Nat} (h : ScratchWord s x a off) :
    loadWord s (viaHere s x.scope) (effAddr s x a) = (s, .ok (scratchWord s off)) := by
  obtain ⟨halign, hw, rfl, hok, hpoison⟩ := h
  simp only [loadWord, loadGranule_scratch (v := viaHere s x.scope) rfl hw hok]
  simp only [viaHere] at hpoison ⊢
  rw [hpoison]
  dsimp only
  rw [Memory.bytes_drop_take _ _ (by omega : effAddr s x a % 8 + 4 ≤ 8), scratchWord, Memory.word32]
  congr 6
  omega

/-- What LD answers in lane `j` when its words come from the scratchpad: the word, its invalid elements zero (R34, R358). -/
def scratchLane (s : State) (ty : Fmt) (x : XM) (o : Opnds) (j : Nat) : Lane :=
  (o.a.getD j none).map fun a =>
    scratchWord s (effAddr s x a % 2 ^ 21) &&& BitVec.ofNat 32 (2 ^ (elemWidth ty * validElts ty.epl (o.fin.getD j 0)) - 1)

theorem ldLanes_scratch {o : Opnds} (l : List Nat)
    (h : ∀ j ∈ l, ∀ a, o.a.getD j none = some a → ScratchWord s x a (effAddr s x a % 2 ^ 21)) :
    ldLanes s (viaHere s x.scope) x ty o l = (s, .ok (l.map (scratchLane s ty x o))) := by
  induction l with
  | nil => rfl
  | cons j rest ih =>
    have hrest := ih fun j hj => h j (List.mem_cons_of_mem _ hj)
    have hj := h j List.mem_cons_self
    rw [List.map_cons, scratchLane]
    rcases ha : o.a.getD j none with _ | a
    · simp only [ldLanes, laneAt, ha, hrest, Option.map_none]
    · have hword := hj a ha
      simp only [ldLanes, laneAt, ha, hword.1, ne_eq, not_true_eq_false, if_false, loadWord_scratch hword, hrest, Option.map_some]
      rfl

/-- LD completes with its lanes when none of their accesses fails (R358). -/
theorem exec_ld_completes {s' : State} {l : List Lane}
    (h : ldLanes (if x.order = .acquire ∧ (operands s).anyLane then acquireAt s (viaHere s x.scope) else s) (viaHere s x.scope) x ty
      (operands s) (List.range s.focus.k) = (s', .ok l)) :
    exec (.ld ty x) s = .next (finish s' x.d ty.code fmtN32 ⟨l, (operands s).key, (operands s).count⟩
      ⟨List.replicate s.focus.k (some 0), (operands s).key, (operands s).count⟩) := by
  change execLd ty x s = _
  unfold execLd
  simp only [operands_k, h, statusRun]

/-- Settles O30: LD goes through its lanes, and each lane of the scratchpad reads its word. -/
theorem loadsGiveTheWordsAtTheirAddresses : Obligations.LoadsGiveTheWordsAtTheirAddresses := by
  intro s ty x o status
  refine ⟨fun s' l h => exec_ld_completes h, fun horder hwords => ?_⟩
  refine ⟨(List.range s.focus.k).map (scratchLane s ty x o), by simp, fun j hj => ?_, ?_⟩
  · rw [getD_map_range, if_pos hj]
    rfl
  · refine exec_ld_completes ?_
    rw [if_neg (by rw [horder]; exact fun h => nomatch h.1)]
    exact ldLanes_scratch _ fun j hj a ha => hwords j a (List.mem_range.1 hj) ha

end

end Sys2Proof.Machine

/-! ## Stores to the scratchpad (O31) -/

namespace Sys2Proof.Machine
open Sys2Proof

/-! ### The bytes of a stored word -/

/-- Byte `i` of the low bytes of a value. -/
theorem natBytes_getElem? (n v i : Nat) : (natBytes n v)[i]? = if i < n then some (BitVec.ofNat 8 (v / 256 ^ i)) else none := by
  induction n generalizing v i with
  | zero => simp [natBytes]
  | succ n ih =>
    cases i with
    | zero => simp [natBytes]
    | succ i => simp [natBytes, ih, Nat.div_div_eq_div_mul, ← Nat.pow_succ']

/-- Byte `i` of a word is the slice of its bits (R3). -/
theorem ofNat_byte (w : W32) (i : Nat) : BitVec.ofNat 8 (w.toNat / 256 ^ i) = w.extractLsb' (8 * i) 8 := by
  apply BitVec.eq_of_toNat_eq
  rw [BitVec.toNat_ofNat, BitVec.extractLsb'_toNat, Nat.shiftRight_eq_div_pow, pow_mul]
  rfl

/-- Two adjoining slices of a word make one. -/
theorem extractLsb'_nibbles (w : W32) (i : Nat) :
    w.extractLsb' (8 * i + 4) 4 ++ w.extractLsb' (8 * i) 4 = w.extractLsb' (8 * i) 8 := by
  ext k hk
  simp only [BitVec.getElem_append, BitVec.getElem_extractLsb']
  split
  · rfl
  · congr 1; omega

/-- Byte `i` of the granule that a word at offset `d` of it covers. -/
def wordByte (d : Nat) (w : W32) (i : Nat) : Option Byte :=
  if d ≤ i ∧ i < d + 4 then some (w.extractLsb' (8 * (i - d)) 8) else none

/-- A word at its place in its granule, byte by byte. -/
theorem wordInGranule_eq {va : Nat} (hva : va % 4 = 0) (w : W32) : wordInGranule va w = (List.range 8).map (wordByte (va % 8) w) := by
  have hd : va % 8 = 0 ∨ va % 8 = 4 := by omega
  have hbytes : natBytes 4 w.toNat = (List.range 4).map fun i => w.extractLsb' (8 * i) 8 := by
    refine List.ext_getElem? fun i => ?_
    rw [natBytes_getElem?, ofNat_byte]
    by_cases hi : i < 4 <;> simp [hi]
  rw [wordInGranule, hbytes]
  rcases hd with h | h <;> rw [h] <;> rfl

/-- Nibble `n` of that granule. -/
def wordNibble (d : Nat) (w : W32) (n : Nat) : Option (BitVec 4) :=
  if d ≤ n / 2 ∧ n / 2 < d + 4 then some (w.extractLsb' (8 * (n / 2 - d) + 4 * (n % 2)) 4) else none

/-- The nibbles of the granule that one lane's whole word covers (R404). -/
theorem stNibbles_word {va : Nat} (hva : va % 4 = 0) (w : W32) (j : Nat) :
    stNibbles (va / 8 * 8) [(j, va, w, BitVec.allOnes 32)] = (List.range 16).map (wordNibble (va % 8) w) := by
  refine List.map_congr_left fun n _ => ?_
  unfold wordNibble
  by_cases hn : va % 8 ≤ n / 2 ∧ n / 2 < va % 8 + 4
  · have hbit : 8 * (va / 8 * 8 + n / 2 - va) + 4 * (n % 2) = 8 * (n / 2 - va % 8) + 4 * (n % 2) := by omega
    have hvalid : (BitVec.allOnes 32).getLsbD (8 * (n / 2 - va % 8) + 4 * (n % 2)) = true := by
      rw [BitVec.getLsbD_allOnes, decide_eq_true_iff]
      omega
    dsimp only [List.foldl_cons, List.foldl_nil]
    rw [if_pos hn, hbit, hvalid, if_pos ⟨by omega, by omega, rfl⟩]
  · dsimp only [List.foldl_cons, List.foldl_nil]
    rw [if_neg hn, if_neg (by omega)]

/-- A lane whose bits are all valid stores whole bytes alone: those of its word (R34, R404). -/
theorem stBytes_word {va : Nat} (hva : va % 4 = 0) (old : List Byte) (w : W32) (j : Nat) (whole : Bool) :
    stBytes old (stNibbles (va / 8 * 8) [(j, va, w, BitVec.allOnes 32)]) whole =
      if whole then wordInGranule va w else List.replicate 8 none := by
  have hbytes : stBytes old (stNibbles (va / 8 * 8) [(j, va, w, BitVec.allOnes 32)]) whole =
      (List.range 8).map fun i => if whole then wordByte (va % 8) w i else none := by
    have hnibble {n : Nat} (hn : n < 16) : (stNibbles (va / 8 * 8) [(j, va, w, BitVec.allOnes 32)]).getD n none = wordNibble (va % 8) w n := by
      rw [stNibbles_word hva, getD_map_range, if_pos hn]
    refine List.map_congr_left fun i hi => ?_
    have hi := List.mem_range.1 hi
    rw [hnibble (by omega : 2 * i < 16), hnibble (by omega : 2 * i + 1 < 16), wordByte, wordNibble, wordNibble, show 2 * i / 2 = i by omega,
      show (2 * i + 1) / 2 = i by omega, show 2 * i % 2 = 0 by omega, show (2 * i + 1) % 2 = 1 by omega]
    by_cases hd : va % 8 ≤ i ∧ i < va % 8 + 4
    · simp only [if_pos hd, ← extractLsb'_nibbles, Nat.mul_zero, Nat.add_zero, Nat.mul_one]
    · simp only [if_neg hd, ite_self]
  rw [hbytes]
  cases whole with
  | true => rw [if_pos rfl, wordInGranule_eq hva]; rfl
  | false => rfl

/-! ### A granule of the window -/

section
variable {s : State} {v : Via} {g : Nat}

/-- A store into a granule of the window goes to the issuing tile's scratchpad (R140). -/
theorem storeGranule_scratch (hv : v.atSlice = false) (hw : isWindow g = true) (hok : scratchOk s v.place (g % 2 ^ 21) = true)
    (bs : List (Option Byte)) :
    storeGranule s v g bs = ((scratchStore s v.place (g % 2 ^ 21) bs).1, .ok (scratchStore s v.place (g % 2 ^ 21) bs).2) := by
  simp only [storeGranule, beforeAccess_window hv hw, routeOf_window hw, hok, if_true]

theorem checkWrite_scratch (hv : v.atSlice = false) (hw : isWindow g = true) (hok : scratchOk s v.place (g % 2 ^ 21) = true) :
    checkWrite s v g = (s, .ok ()) := by
  simp only [checkWrite, beforeAccess_window hv hw, routeOf_window hw, hok, if_true]

end

/-- The granule of a word of the window, and its offset. -/
theorem isWindow_granule {va : Nat} (hw : isWindow va = true) : isWindow (va / 8 * 8) = true ∧ va / 8 * 8 % 2 ^ 21 = va % 2 ^ 21 / 8 * 8 := by
  unfold isWindow at hw ⊢
  rw [beq_iff_eq] at hw ⊢
  omega

/-- Slot memories begin and end at multiples of 8 bytes, so a granule lies in one whole or not at all (R244). -/
theorem inArmedSlot_granule (s : State) (place off : Nat) : inArmedSlot s place (off / 8 * 8) = inArmedSlot s place off := by
  unfold inArmedSlot
  congr 1
  funext j
  have hlo : 8 ∣ (slotArea (s.island place).p).1 := Dvd.dvd.mul_left (by decide) _
  have hhi : 8 ∣ (slotArea (s.island place).p).2 := (Nat.dvd_add_right hlo).2 (Dvd.dvd.mul_left (by decide) _)
  congr 1
  rw [decide_eq_decide]
  omega

theorem scratchOk_granule {s : State} {place off : Nat} (h : scratchOk s place off = true) : scratchOk s place (off / 8 * 8) = true := by
  unfold scratchOk at h ⊢
  rw [inArmedSlot_granule]
  simp only [Bool.and_eq_true, decide_eq_true_iff] at h ⊢
  exact ⟨⟨by omega, h.1.2⟩, h.2⟩

/-- A word put into a granule that is not poisoned changes its four bytes alone. -/
theorem scratchStore_word {s : State} {va off : Nat} (hva : va % 4 = 0) (hoff : off = va % 2 ^ 21)
    (hp : (s.tile s.focus.place).poison.contains (off / 8) = false) (w : W32) :
    scratchStore s s.focus.place (off / 8 * 8) (wordInGranule va w) = (scratchPut s off w, false) := by
  have hgran : off / 8 * 8 / 8 = off / 8 := by omega
  have hsome : (wordInGranule va w).all Option.isSome = false := by
    rw [wordInGranule_eq hva, List.all_eq_false]
    refine ⟨wordByte (va % 8) w (4 - va % 8), List.mem_map.2 ⟨_, List.mem_range.2 (by omega), rfl⟩, ?_⟩
    rw [wordByte, if_neg (by omega)]
    exact Bool.false_ne_true
  unfold scratchStore scratchPut
  dsimp only
  rw [hgran, hp, hsome, Bool.false_and, Bool.false_and, wordInGranule, Memory.writeBytes_padded, Memory.put,
    show off / 8 * 8 + va % 8 = off by omega]
  rfl

/-! ### Storing into one granule -/

/-- Bytes stored into the granule at `g`, and whether it kept its poison; nothing is stored where every byte is left alone (R404). -/
def putGranule (s : State) (v : Via) (g : Nat) (bs : List (Option Byte)) : State × Bool :=
  if bs.all Option.isNone then (s, false)
  else match storeGranule s v g bs with
    | (s, .error _) => (s, false)
    | (s, .ok kept) => (s, kept)

section
variable {s u : State} {v : Via} {g : Nat} {ls : List StLane}

theorem putGranule_none {bs : List (Option Byte)} (h : bs.all Option.isNone = true) : putGranule s v g bs = (s, false) := if_pos h

theorem putGranule_stored {bs : List (Option Byte)} {kept : Bool} (h : bs.all Option.isNone = false)
    (hst : storeGranule s v g bs = (u, .ok kept)) : putGranule s v g bs = (u, kept) := by
  rw [putGranule, h, hst]
  rfl

/-- A granule that cannot be read is left alone. -/
theorem stGranule_error {e : MemFault} (h : loadGranule s v g = (u, .error e)) : stGranule s v g ls = (u, false) := by
  rw [stGranule, h]

/-- First the bytes of which one nibble is stored, then the whole bytes (R34, R161). -/
theorem stGranule_ok {old : List Byte} {p : Bool} (h : loadGranule s v g = (u, .ok (old, p))) :
    let r := putGranule u v g (stBytes old (stNibbles g ls) false)
    let q := putGranule r.1 v g (stBytes old (stNibbles g ls) true)
    stGranule s v g ls = (q.1, r.2 || q.2) := by
  rw [stGranule, h]
  rfl

/-- One lane's whole word is stored into its granule at once. -/
theorem stGranule_word {va j : Nat} {w : W32} {old : List Byte} {p kept : Bool} {t : State} (hva : va % 4 = 0)
    (hload : loadGranule s v (va / 8 * 8) = (u, .ok (old, p)))
    (hst : storeGranule u v (va / 8 * 8) (wordInGranule va w) = (t, .ok kept)) :
    stGranule s v (va / 8 * 8) [(j, va, w, BitVec.allOnes 32)] = (t, kept) := by
  have hsome : (wordInGranule va w).all Option.isNone = false := by
    rw [wordInGranule_eq hva, List.all_eq_false]
    refine ⟨wordByte (va % 8) w (va % 8), List.mem_map.2 ⟨_, List.mem_range.2 (by omega), rfl⟩, ?_⟩
    rw [wordByte, if_pos (by omega)]
    exact Bool.false_ne_true
  have hnone : (List.replicate 8 none : List (Option Byte)).all Option.isNone = true := rfl
  simp only [stGranule_ok hload, stBytes_word hva, Bool.false_eq_true, if_false, if_true, putGranule_none hnone,
    putGranule_stored hsome hst, Bool.false_or]

end

/-- With every element of its final lane valid, every bit of a lane is stored (R34). -/
theorem validMask_full {ty : Fmt} {c : Nat} (h : validElts ty.epl c = ty.epl) : BitVec.ofNat 32 (validMask ty c) = BitVec.allOnes 32 := by
  rw [validMask, h, elemWidth_mul_epl]
  rfl

section
variable {s : State} {ty : Fmt} {x : XM} {a b : W32}

/-- An ST of one whole word that passes its check and leaves no poison (R404). -/
theorem exec_st_word {t : State} (hk : s.focus.k = 1) (ho : x.order = .plain) (ha : (operands s).a = [some a])
    (hb : (operands s).b = [some b]) (hv : validElts ty.epl ((operands s).fin.getD 0 0) = ty.epl) (hva : effAddr s x a % 4 = 0)
    (hcheck : checkWrite s (viaHere s x.scope) (effAddr s x a) = (s, .ok ()))
    (hst : stGranule s (viaHere s x.scope) (effAddr s x a / 8 * 8) [(0, effAddr s x a, b, BitVec.allOnes 32)] = (t, false)) :
    exec (.st ty x) s = .next (finishStatus t x.d (operands s) [some 0]) := by
  have hpass : stCheck s (viaHere s x.scope) [(0, effAddr s x a, b, BitVec.allOnes 32)] = (s, .ok ()) := by
    simp [stCheck, hva, hcheck]
  have hstores : stGranules s (viaHere s x.scope) [(0, effAddr s x a, b, BitVec.allOnes 32)]
      [(0, effAddr s x a, b, BitVec.allOnes 32).2.1 / 8 * 8] = (t, []) := by
    simp only [stGranules, hst, Bool.false_eq_true, if_false]
  have hone : [effAddr s x a / 8 * 8].dedup = [effAddr s x a / 8 * 8] := List.Nodup.dedup (List.nodup_singleton _)
  change execSt ty x s = _
  unfold execSt
  simp only [stLanes_one hk ha hb, validMask_full hv, hpass, ho, operands_k, hk, reduceCtorEq, false_and, if_false, List.map_cons,
    List.map_nil, hone, hstores]
  rfl

/-- An ST of one whole word of the scratchpad stores it there (R140). -/
theorem exec_st_scratch {off : Nat} (hk : s.focus.k = 1) (ho : x.order = .plain) (ha : (operands s).a = [some a])
    (hb : (operands s).b = [some b]) (hv : validElts ty.epl ((operands s).fin.getD 0 0) = ty.epl) (h : ScratchWord s x a off) :
    exec (.st ty x) s = .next (finishStatus (scratchPut s off b) x.d (operands s) [some 0]) := by
  obtain ⟨halign, hw, hoff, hok, hpoison⟩ := h
  rw [hoff] at hok hpoison
  obtain ⟨hwg, hgoff⟩ := isWindow_granule hw
  have hokg : scratchOk s s.focus.place (effAddr s x a / 8 * 8 % 2 ^ 21) = true := hgoff ▸ scratchOk_granule hok
  have hstore := storeGranule_scratch (v := viaHere s x.scope) rfl hwg hokg (wordInGranule (effAddr s x a) b)
  rw [hgoff] at hstore
  have hword := scratchStore_word halign rfl hpoison b
  refine exec_st_word hk ho ha hb hv halign (checkWrite_scratch rfl hw hok)
    (stGranule_word halign (loadGranule_scratch rfl hwg hokg) ?_)
  rw [hstore, hoff]
  simp only [viaHere, hword]

end

/-! ### What any ST to the scratchpad leaves (R404) -/

/-- Of the whole state only the scratchpad of one place and its poison differ, and of its bytes only those in the words of the lanes. -/
def ScratchStored (place : Nat) (ls : List StLane) (s t : State) : Prop :=
  t = { s with tiles := t.tiles } ∧ (∀ p, p ≠ place → t.tile p = s.tile p) ∧
  ∀ b, (∀ l ∈ ls, b < l.2.1 % 2 ^ 21 ∨ l.2.1 % 2 ^ 21 + 4 ≤ b) →
    Memory.read (t.tile place).scratch b = Memory.read (s.tile place).scratch b

section
variable {place : Nat} {ls : List StLane} {s t u : State} {v : Via} {g : Nat}

theorem ScratchStored.refl (s : State) : ScratchStored place ls s s := ⟨rfl, fun _ _ => rfl, fun _ _ => rfl⟩

theorem ScratchStored.trans (h : ScratchStored place ls s t) (h' : ScratchStored place ls t u) : ScratchStored place ls s u := by
  obtain ⟨hrest, hother, hread⟩ := h
  obtain ⟨hrest', hother', hread'⟩ := h'
  exact ⟨hrest'.trans (by rw [hrest]), fun p hp => (hother' p hp).trans (hother p hp), fun b hb => (hread' b hb).trans (hread b hb)⟩

/-- The lanes whose words cover byte `i` of the granule at `g`. -/
def Covers (g : Nat) (ls : List StLane) (i : Nat) : Prop := ∃ l ∈ ls, l.2.1 ≤ g + i ∧ g + i < l.2.1 + 4

/-- A nibble is stored only where a lane's word covers it. -/
theorem covers_of_stNibbles {n : Nat} (h : (stNibbles g ls).getD n none ≠ none) : Covers g ls (n / 2) := by
  unfold stNibbles at h
  rw [getD_map_range] at h
  have hfold (acc : Option (BitVec 4)) (hacc : acc = none) (hne : ls.foldl (fun acc (l : StLane) =>
      if l.2.1 ≤ g + n / 2 ∧ g + n / 2 < l.2.1 + 4 ∧ l.2.2.2.getLsbD (8 * (g + n / 2 - l.2.1) + 4 * (n % 2)) then
        some (l.2.2.1.extractLsb' (8 * (g + n / 2 - l.2.1) + 4 * (n % 2)) 4) else acc) acc ≠ none) : Covers g ls (n / 2) := by
    by_contra hnone
    refine hne ?_
    clear hne h
    induction ls generalizing acc with
    | nil => exact hacc
    | cons l t ih =>
      have hl : ¬ (l.2.1 ≤ g + n / 2 ∧ g + n / 2 < l.2.1 + 4) := fun hl => hnone ⟨l, List.mem_cons_self, hl⟩
      rw [List.foldl_cons, if_neg fun hc => hl ⟨hc.1, hc.2.1⟩]
      exact ih acc hacc fun ⟨l', hl', hc⟩ => hnone ⟨l', List.mem_cons_of_mem _ hl', hc⟩
  by_cases hn : n < 16
  · rw [if_pos hn] at h
    exact hfold none rfl h
  · rw [if_neg hn] at h
    exact absurd rfl h

/-- A byte is stored only where a lane's word covers it. -/
theorem covers_of_stBytes {old : List Byte} {whole : Bool} {i : Nat} (h : (stBytes old (stNibbles g ls) whole).getD i none ≠ none) :
    i < 8 ∧ Covers g ls i := by
  unfold stBytes at h
  rw [getD_map_range] at h
  by_cases hi : i < 8
  · refine ⟨hi, ?_⟩
    rw [if_pos hi] at h
    by_cases hlo : (stNibbles g ls).getD (2 * i) none = none
    · by_cases hhi : (stNibbles g ls).getD (2 * i + 1) none = none
      · rw [hlo, hhi] at h
        exact absurd rfl h
      · have := covers_of_stNibbles hhi
        rwa [show (2 * i + 1) / 2 = i by omega] at this
    · have := covers_of_stNibbles hlo
      rwa [show 2 * i / 2 = i by omega] at this
  · rw [if_neg hi] at h
    exact absurd rfl h

/-- Every lane stores into the window, below the top of the address space. -/
def InWindow (ls : List StLane) : Prop := ∀ l ∈ ls, isWindow l.2.1 = true ∧ l.2.1 < 2 ^ 56

/-- Bytes stored into a granule that a lane touches, all in words of lanes, change nothing else. -/
theorem scratchStore_stored {bs : List (Option Byte)} (hls : InWindow ls) (hg8 : g % 8 = 0) (hlt : g < 2 ^ 56)
    (hbs : ∀ i, bs.getD i none ≠ none → i < 8 ∧ Covers g ls i) : ScratchStored place ls s (scratchStore s place (g % 2 ^ 21) bs).1 := by
  refine ⟨rfl, fun p hp => State.setTile_tile_ne s _ _ hp, fun b hb => ?_⟩
  simp only [scratchStore, State.setTile_tile_self, Memory.read_writeBytes]
  split
  case isFalse => rfl
  case isTrue hle =>
    suffices hnone : bs.getD (b - g % 2 ^ 21 / 8 * 8) none = none by rw [hnone]; rfl
    by_contra hsome
    obtain ⟨hi, l, hl, hcov, hcov'⟩ := hbs _ hsome
    obtain ⟨hw, hl56⟩ := hls l hl
    have hout := hb l hl
    unfold isWindow at hw
    rw [beq_iff_eq] at hw
    omega

theorem loadGranule_window (hv : v.atSlice = false) (hw : isWindow g = true) : (loadGranule s v g).1 = s := by
  simp only [loadGranule, beforeAccess_window hv hw, routeOf_window hw]
  split <;> rfl

theorem putGranule_stored_scratch {bs : List (Option Byte)} (hv : v.atSlice = false) (hls : InWindow ls) (hg : isWindow g = true)
    (hg8 : g % 8 = 0) (hlt : g < 2 ^ 56) (hbs : ∀ i, bs.getD i none ≠ none → i < 8 ∧ Covers g ls i) :
    ScratchStored v.place ls s (putGranule s v g bs).1 := by
  have hstored := scratchStore_stored (s := s) (place := v.place) hls hg8 hlt hbs
  unfold putGranule
  split
  · exact .refl s
  · by_cases hok : scratchOk s v.place (g % 2 ^ 21) = true
    · rw [storeGranule_scratch hv hg hok]
      exact hstored
    · have herr : storeGranule s v g bs = (s, .error (faultProtection g)) := by
        simp only [storeGranule, beforeAccess_window hv hg, routeOf_window hg, if_neg hok]
      rw [herr]
      exact .refl s

theorem stGranule_stored (hv : v.atSlice = false) (hls : InWindow ls) (hg : isWindow g = true) (hg8 : g % 8 = 0) (hlt : g < 2 ^ 56) :
    ScratchStored v.place ls s (stGranule s v g ls).1 := by
  have hu := loadGranule_window (s := s) hv hg
  rcases hload : loadGranule s v g with ⟨u, e | ⟨old, p⟩⟩ <;> rw [hload] at hu <;> dsimp only at hu <;> subst hu
  · rw [stGranule_error hload]
    exact .refl _
  · rw [stGranule_ok hload]
    exact (putGranule_stored_scratch hv hls hg hg8 hlt fun i => covers_of_stBytes).trans
      (putGranule_stored_scratch hv hls hg hg8 hlt fun i => covers_of_stBytes)

theorem stGranules_stored (hv : v.atSlice = false) (hls : InWindow ls) (gs : List Nat)
    (hgs : ∀ g ∈ gs, isWindow g = true ∧ g % 8 = 0 ∧ g < 2 ^ 56) : ScratchStored v.place ls s (stGranules s v ls gs).1 := by
  induction gs generalizing s with
  | nil => exact .refl s
  | cons g t ih =>
    obtain ⟨hg, hg8, hlt⟩ := hgs g List.mem_cons_self
    exact (stGranule_stored hv hls hg hg8 hlt).trans (ih fun g hg => hgs g (List.mem_cons_of_mem _ hg))

/-- The check of an ST whose words all lie in the scratchpad passes and changes nothing. -/
theorem stCheck_scratch (hv : v.atSlice = false)
    (hls : ∀ l ∈ ls, l.2.1 % 4 = 0 ∧ isWindow l.2.1 = true ∧ scratchOk s v.place (l.2.1 % 2 ^ 21) = true) :
    stCheck s v ls = (s, .ok ()) := by
  induction ls with
  | nil => rfl
  | cons l t ih =>
    obtain ⟨halign, hw, hok⟩ := hls l List.mem_cons_self
    have ht := ih fun l hl => hls l (List.mem_cons_of_mem _ hl)
    obtain ⟨j, va, w, m⟩ := l
    simp only at halign hw hok
    simp only [stCheck, halign, ne_eq, not_true_eq_false, if_false, checkWrite_scratch hv hw hok, ht]

end

section
variable {s : State} {ty : Fmt} {x : XM}

/-- The lanes of an ST that store are those that both ports hold. -/
theorem mem_stLanes {o : Opnds} {l : StLane} (h : l ∈ stLanes s x ty o) :
    ∃ a b, o.a.getD l.1 none = some a ∧ o.b.getD l.1 none = some b ∧ l.2.1 = effAddr s x a := by
  obtain ⟨j, -, hj⟩ := List.mem_filterMap.1 h
  rcases ha : laneAt o.a j with _ | a <;> rcases hb : laneAt o.b j with _ | b <;> simp only [ha, hb, reduceCtorEq, Option.some.injEq] at hj
  subst hj
  exact ⟨a, b, ha, hb, rfl⟩

/-- The granules that the lanes of an ST touch, each once. -/
def stTouched (ls : List StLane) : List Nat := (ls.map fun l => l.2.1 / 8 * 8).dedup

theorem finishStatus_only (u : State) (d : Dst) (o : Opnds) (l : List Lane) : ContextOnly u (finishStatus u d o l) u.focus.ctxId :=
  finish_only ..

/-- An ST without a release that passes its check without a change stores its granules; then only its context changes (R161, R404). -/
theorem exec_st_stored {t : State} (ho : x.order = .plain)
    (hcheck : stCheck s (viaHere s x.scope) (stLanes s x ty (operands s)) = (s, .ok ())) (h : exec (.st ty x) s = .next t) :
    ∃ id, ContextOnly (stGranules s (viaHere s x.scope) (stLanes s x ty (operands s)) (stTouched (stLanes s x ty (operands s)))).1 t id := by
  change execSt ty x s = _ at h
  unfold execSt at h
  simp only [hcheck, ho, reduceCtorEq, false_and, if_false] at h
  rw [← stTouched] at h
  generalize stGranules s (viaHere s x.scope) (stLanes s x ty (operands s)) (stTouched (stLanes s x ty (operands s))) = r at h ⊢
  split at h
  · obtain rfl := Host.Outcome.next.inj h
    exact ⟨_, finishStatus_only ..⟩
  · obtain rfl := Host.Outcome.next.inj h
    have hstatus := finishStatus_only r.1 x.d (operands s)
    exact ⟨r.1.focus.ctxId, (hstatus _).trans ((hstatus _).focus ▸ faultAt_only ..)⟩

/-- Any ST to the scratchpad changes its words alone (R404). -/
theorem st_scratch_frame {t : State} (ho : x.order = .plain)
    (hls : ∀ j a b, (operands s).a.getD j none = some a → (operands s).b.getD j none = some b → ∃ off, effAddr s x a % 4 = 0 ∧
      isWindow (effAddr s x a) = true ∧ off = effAddr s x a % 2 ^ 21 ∧ scratchOk s s.focus.place off = true)
    (h : exec (.st ty x) s = .next t) :
    ∃ u id, ScratchStored s.focus.place (stLanes s x ty (operands s)) s u ∧ ContextOnly u t id := by
  have hlanes : ∀ l ∈ stLanes s x ty (operands s), l.2.1 < 2 ^ 56 ∧ l.2.1 % 4 = 0 ∧ isWindow l.2.1 = true ∧
      scratchOk s s.focus.place (l.2.1 % 2 ^ 21) = true := by
    intro l hl
    obtain ⟨a, b, ha, hb, hva⟩ := mem_stLanes hl
    obtain ⟨off, halign, hw, hoff, hok⟩ := hls l.1 a b ha hb
    rw [hva]
    exact ⟨effAddr_lt s x a, halign, hw, hoff ▸ hok⟩
  obtain ⟨id, ht⟩ := exec_st_stored ho (stCheck_scratch rfl fun l hl => (hlanes l hl).2) h
  refine ⟨_, id, stGranules_stored (v := viaHere s x.scope) rfl (fun l hl => ⟨(hlanes l hl).2.2.1, (hlanes l hl).1⟩) _ fun g hg => ?_, ht⟩
  obtain ⟨l, hl, rfl⟩ := List.mem_map.1 (List.mem_dedup.1 hg)
  obtain ⟨hlt, -, hw, -⟩ := hlanes l hl
  exact ⟨(isWindow_granule hw).1, by omega, by omega⟩

end

end Sys2Proof.Machine

/-! ## A store that hits a line of the L2 (O31) -/

namespace Sys2Proof.Machine
open Sys2Proof

/-! ### The bytes of a line once a granule has been merged into it -/

theorem getLsbD_granuleMask (g i : Nat) (hi : i < 128) (bs : List (Option Byte)) (k : Nat) (m : BitVec 128) :
    ((bs.zipIdx k).foldl (fun m e => if e.1.isSome then m ||| BitVec.twoPow 128 (8 * g + e.2) else m) m).getLsbD i =
      (m.getLsbD i || (decide (8 * g + k ≤ i) && (bs.getD (i - (8 * g + k)) none).isSome)) := by
  induction bs generalizing k m with
  | nil => simp
  | cons b t ih =>
    rw [List.zipIdx_cons, List.foldl_cons, ih]
    have htwo : (BitVec.twoPow 128 (8 * g + k)).getLsbD i = decide (8 * g + k = i) := by
      rw [BitVec.getLsbD_twoPow]
      rcases eq_or_ne (8 * g + k) i with h | h <;> simp [h, hi]
    rcases Nat.lt_trichotomy i (8 * g + k) with h | h | h
    · have h1 : ¬ 8 * g + (k + 1) ≤ i := by omega
      have h2 : ¬ 8 * g + k ≤ i := by omega
      have h3 : ¬ 8 * g + k = i := by omega
      cases b <;> simp [htwo, h1, h2, h3]
    · have h1 : ¬ 8 * g + (k + 1) ≤ i := by omega
      subst h
      cases b <;> simp [htwo]
    · obtain ⟨d, rfl⟩ : ∃ d, i = 8 * g + (k + 1) + d := ⟨i - (8 * g + (k + 1)), by omega⟩
      have h3 : ¬ 8 * g + k = 8 * g + (k + 1) + d := by omega
      have h4 : 8 * g + (k + 1) + d - (8 * g + k) = d + 1 := by omega
      have h5 : 8 * g + k ≤ 8 * g + (k + 1) + d := by omega
      cases b <;> simp [htwo, h3, h4, h5]

/-- A byte that is given stands at its place among the bytes of a line. -/
theorem granuleBytes_data {g i : Nat} {bs : List (Option Byte)} {v : Byte} (hle : 8 * g ≤ i) (hv : bs.getD (i - 8 * g) none = some v) :
    (granuleBytes g bs).1.getD i 0 = v := by
  have hlt : i - 8 * g < bs.length := by
    by_contra hge
    rw [List.getD_eq_default _ _ (by omega)] at hv
    cases hv
  rw [List.getD_eq_getElem?_getD, List.getElem?_eq_getElem hlt] at hv
  simp only [Option.getD_some] at hv
  rw [granuleBytes, List.getD_eq_getElem?_getD, List.append_assoc, List.getElem?_append_right (by simpa using hle),
    List.getElem?_append_left (by simpa using hlt), List.length_replicate, List.getElem?_map, List.getElem?_eq_getElem hlt]
  simp [hv]

/-- What a line holds after bytes of one granule were merged into it (R161). -/
theorem merge_granule_data (l : Line) {g i : Nat} (hi : i < 128) (bs : List (Option Byte)) (poison : BitVec 16) (dirty : BitVec 128) :
    (l.merge (granuleBytes g bs).1 poison (granuleBytes g bs).2 dirty).data.getD i 0 =
      if 8 * g ≤ i then (bs.getD (i - 8 * g) none).getD (l.data.getD i 0) else l.data.getD i 0 := by
  have hmask : (granuleBytes g bs).2.getLsbD i = (decide (8 * g ≤ i) && (bs.getD (i - 8 * g) none).isSome) := by
    rw [granuleBytes, getLsbD_granuleMask g i hi]
    simp
  simp only [Line.merge, mergeBytes]
  rw [getD_map_range, if_pos hi]
  simp only [hmask, Bool.and_eq_true, decide_eq_true_iff]
  by_cases hle : 8 * g ≤ i
  · rcases hb : bs.getD (i - 8 * g) none with _ | v
    · rw [if_neg (fun h => nomatch h.2), if_pos hle]
      rfl
    · rw [if_pos ⟨hle, rfl⟩, if_pos hle, granuleBytes_data hle hb]
      rfl
  · rw [if_neg fun h => hle h.1, if_neg hle]

/-- A granule that is not poisoned is not poisoned by bytes merged from a source that is not (R161). -/
theorem mergePoison_clean {old : BitVec 16} {g : Nat} (h : old.getLsbD g = false) (mask : BitVec 128) :
    (mergePoison old 0 mask).getLsbD g = false := by
  unfold mergePoison
  suffices hfold : ∀ (l : List Nat) (acc : BitVec 16), acc.getLsbD g = false → (l.foldl (fun acc g =>
      if mask &&& granMask g = 0 then acc
      else if (0 : BitVec 16).getLsbD g || (old.getLsbD g && mask &&& granMask g != granMask g) then acc ||| BitVec.twoPow 16 g
      else acc &&& ~~~BitVec.twoPow 16 g) acc).getLsbD g = false from hfold _ _ h
  intro l
  induction l with
  | nil => exact fun acc hacc => hacc
  | cons n t ih =>
    intro acc hacc
    rw [List.foldl_cons]
    refine ih _ ?_
    split
    · exact hacc
    · split
      · rename_i hset
        have hne : n ≠ g := by
          rintro rfl
          simp [h] at hset
        simp [hacc, hne]
      · simp [hacc]

/-! ### Lines by name -/

/-- A line that takes the place of another name's leaves the first line of this name. -/
theorem find?_named_other {ls : List Line} {x : Line} {asid : BitVec 8} {line : Nat} (h : ¬ (x.asid = asid ∧ x.line = line)) :
    (ls.map fun l => if l.named x.asid x.line then x else l).find? (fun l => l.named asid line) =
      ls.find? fun l => l.named asid line := by
  have hx : x.named asid line = false := by
    rw [← Bool.not_eq_true, Line.named_iff]
    exact h
  have hkeep {l : Line} (hl : l.named asid line = true) : l.named x.asid x.line = false := by
    rw [Line.named_iff] at hl
    rw [← Bool.not_eq_true, Line.named_iff]
    exact fun hl' => h ⟨hl'.1.symm.trans hl.1, hl'.2.symm.trans hl.2⟩
  induction ls with
  | nil => rfl
  | cons l t ih =>
    rw [List.map_cons, List.find?_cons, List.find?_cons, ih]
    by_cases hl : l.named asid line = true
    · rw [hkeep hl]
      simp [hl]
    · by_cases hl' : l.named x.asid x.line = true <;> simp [hl, hl', hx]

/-! ### The access at the line's slice -/

/-- Where no request waits, an access takes a slot of its slice, and still none waits (R145). -/
theorem waitSlot_alone_empty (n : Nat) (s : State) (slice part : Nat) (h : (SMap.get {} s.slices slice).queue = []) :
    ∃ x, waitSlot s slice part n = { s with slices := x } ∧ (SMap.get {} x slice).queue = [] := by
  have htake (s : State) (h : (SMap.get {} s.slices slice).queue = []) :
      ∃ x, takeSlot s slice part = { s with slices := x } ∧ (SMap.get {} x slice).queue = [] :=
    ⟨_, rfl, by rw [SMap.get_set_self]; exact (window_queue _).trans h⟩
  induction n generalizing s with
  | zero => exact htake s h
  | succ n ih =>
    have hq : (SMap.get {} s.slices slice).window.queue = [] := (window_queue _).trans h
    unfold waitSlot
    dsimp only
    split
    · split
      · exact ⟨_, rfl, by rw [SMap.get_set_self]; exact hq⟩
      · exact ih _ (by rw [SMap.get_set_self]; exact hq)
    · rw [hq]
      exact htake s h

/-- An element's store reaches a writable line of the L2 past the banks: no unmap runs, no request waits at the line's slice, and the
granule is not poisoned. -/
structure L2Hit (s : State) (v : Via) (va : Nat) (l : Line) : Prop where
  own : v.atSlice = false
  memory : isWindow va = false
  unbound : (s.part v.part).bound = false
  noBank : l1Steps (s.tile v.place) = 0
  unmap : s.unmapRun = none
  hit : l2Find s (v.asid s) (lineOf va) = some l
  writable : l.w = true
  alone : (SMap.get {} s.slices (sliceOf s v.part v.die (v.asid s) (lineOf va))).queue = []

section
variable {s : State} {v : Via} {va : Nat} {l : Line}

theorem L2Hit.with_slices (h : L2Hit s v va l) {x : SMap Slice}
    (hx : (SMap.get {} x (sliceOf s v.part v.die (v.asid s) (lineOf va))).queue = []) : L2Hit { s with slices := x } v va l :=
  ⟨h.own, h.memory, h.unbound, h.noBank, h.unmap, h.hit, h.writable, hx⟩

/-- Another address of the same line. -/
theorem L2Hit.sameLine (h : L2Hit s v va l) {vb : Nat} (hline : lineOf vb = lineOf va) (hw : isWindow vb = false) : L2Hit s v vb l :=
  ⟨h.own, hw, h.unbound, h.noBank, h.unmap, hline ▸ h.hit, h.writable, hline ▸ h.alone⟩

theorem L2Hit.route (h : L2Hit s v va l) : routeOf s v va = .l2 := routeOf_no_bank h.memory h.unbound h.noBank

theorem L2Hit.before (h : L2Hit s v va l) : beforeAccess s v va = (s, .ok ()) := beforeAccess_memory h.own h.memory h.unmap

theorem L2Hit.line (h : L2Hit s v va l) (write : Bool) : l2Line s v va write = (s, .ok (l, true)) := by
  simp [l2Line, h.hit, h.writable]

theorem L2Hit.access (h : L2Hit s v va l) (write : Bool) :
    ∃ x, l2Access s v va write = ({ s with slices := x }, .ok (l, true)) ∧ L2Hit { s with slices := x } v va l := by
  obtain ⟨x, hwait, hx⟩ := waitSlot_alone_empty (2 * (SMap.get {} s.slices (sliceOf s v.part v.die (v.asid s) (lineOf va))).queue.length + 2)
    s _ v.part h.alone
  refine ⟨x, ?_, h.with_slices hx⟩
  rw [l2Access, hwait, (h.with_slices hx).line]

theorem L2Hit.checkWrite (h : L2Hit s v va l) : checkWrite s v va = (s, .ok ()) := by
  simp only [Machine.checkWrite, h.before, h.route, h.line]

theorem L2Hit.loadGranule (h : L2Hit s v va l) :
    ∃ x, loadGranule s v va = ({ s with slices := x }, .ok (l.granule (va % 128 / 8))) ∧ L2Hit { s with slices := x } v va l := by
  obtain ⟨x, haccess, hx⟩ := h.access false
  exact ⟨x, by simp only [Machine.loadGranule, h.before, h.route, haccess], hx⟩

theorem L2Hit.storeGranule (h : L2Hit s v va l) (bs : List (Option Byte)) :
    ∃ x, storeGranule s v va bs = ((l2Store { s with slices := x } l (va % 128 / 8) bs).1,
      .ok (l2Store { s with slices := x } l (va % 128 / 8) bs).2) := by
  obtain ⟨x, haccess, -⟩ := h.access true
  exact ⟨x, by simp only [Machine.storeGranule, h.before, h.route, haccess]⟩

end

/-- The line that a word's bytes have been merged into. -/
def mergedWord (l : Line) (va : Nat) (w : W32) : Line :=
  l.merge (granuleBytes (va % 128 / 8) (wordInGranule va w)).1 0 (granuleBytes (va % 128 / 8) (wordInGranule va w)).2
    (l.dirty ||| (granuleBytes (va % 128 / 8) (wordInGranule va w)).2)

/-- Its bytes: those of the word in the word's place, the others as before. -/
theorem mergedWord_data {va i : Nat} (hva : va % 4 = 0) (hi : i < 128) (l : Line) (w : W32) :
    (mergedWord l va w).data.getD i 0 =
      if va % 128 ≤ i ∧ i < va % 128 + 4 then w.extractLsb' (8 * (i - va % 128)) 8 else l.data.getD i 0 := by
  rw [mergedWord, merge_granule_data l hi, wordInGranule_eq hva, getD_map_range]
  unfold wordByte
  by_cases hword : va % 128 ≤ i ∧ i < va % 128 + 4
  · rw [if_pos (by omega), if_pos (by omega), if_pos (by omega), if_pos hword,
      show i - 8 * (va % 128 / 8) - va % 8 = i - va % 128 by omega]
    rfl
  · rw [if_neg hword]
    split
    · split
      · rw [if_neg (by omega)]
        rfl
      · rfl
    · rfl

section
variable {s : State} {asid : BitVec 8} {va : Nat} {l : Line}

/-- What the L2 holds once a word has been merged into the line of its address: the word there, every other byte as before. -/
theorem l2Byte_mergedWord (hl : l2Find s asid (lineOf va) = some l) (hva : va % 4 = 0) (hlt : va < 2 ^ 56) (w : W32) (slots : SMap Slice)
    (asid' : BitVec 8) {q : Nat} (hq : q < 2 ^ 56) :
    l2Byte { s with l2 := (l2Put s (mergedWord l va w)).l2, slices := slots } asid' q =
      if asid' = asid ∧ va ≤ q ∧ q < va + 4 then some (w.extractLsb' (8 * (q - va)) 8) else l2Byte s asid' q := by
  obtain ⟨hasid, hline⟩ := Line.named_iff.1 (named_of_find? hl)
  have hname : (mergedWord l va w).named asid (lineOf va) = true := Line.named_iff.2 ⟨hasid, hline⟩
  unfold l2Byte
  by_cases hsame : asid' = asid ∧ lineOf q = lineOf va
  · obtain ⟨rfl, hq'⟩ := hsame
    have hfind : l2Find { s with l2 := (l2Put s (mergedWord l va w)).l2, slices := slots } asid' (lineOf q) = some (mergedWord l va w) := by
      rw [hq']
      exact find?_named_replaced hl hname
    rw [hfind, hq', hl, Option.map_some, Option.map_some, mergedWord_data hva (Nat.mod_lt _ (by decide))]
    unfold lineOf at hq'
    by_cases hword : va ≤ q ∧ q < va + 4
    · rw [if_pos (by omega), if_pos ⟨rfl, hword⟩, show q % 128 - va % 128 = q - va by omega]
    · rw [if_neg (by omega), if_neg fun h => hword h.2]
  · have hfind : l2Find { s with l2 := (l2Put s (mergedWord l va w)).l2, slices := slots } asid' (lineOf q) = l2Find s asid' (lineOf q) :=
      find?_named_other fun h => hsame ⟨h.1.symm.trans hasid, h.2.symm.trans hline⟩
    rw [hfind, if_neg]
    rintro ⟨rfl, hword⟩
    refine hsame ⟨rfl, ?_⟩
    unfold lineOf
    omega

end

/-- An ST of one whole word that hits a writable line of the L2 merges it there (R161, R404). -/
theorem exec_st_l2 {s : State} {ty : Fmt} {x : XM} {a b : W32} {l : Line} (hk : s.focus.k = 1) (ho : x.order = .plain)
    (ha : (operands s).a = [some a]) (hb : (operands s).b = [some b]) (hv : validElts ty.epl ((operands s).fin.getD 0 0) = ty.epl)
    (hva : effAddr s x a % 4 = 0) (h : L2Hit s (viaHere s x.scope) (effAddr s x a) l)
    (hpoison : l.poison.getLsbD (effAddr s x a % 128 / 8) = false) :
    ∃ slots, exec (.st ty x) s = .next (finishStatus
      { s with l2 := (l2Put s (mergedWord l (effAddr s x a) b)).l2, slices := slots } x.d (operands s) [some 0]) := by
  have hlt := effAddr_lt s x a
  have hgran : effAddr s x a / 8 * 8 % 128 / 8 = effAddr s x a % 128 / 8 := by omega
  have hmem := h.memory
  have hg : L2Hit s (viaHere s x.scope) (effAddr s x a / 8 * 8) l := by
    refine h.sameLine (by unfold lineOf; omega) ?_
    unfold isWindow at hmem ⊢
    rw [beq_eq_false_iff_ne] at hmem ⊢
    omega
  obtain ⟨y, hload, hy⟩ := hg.loadGranule
  obtain ⟨slots, hst⟩ := hy.storeGranule (wordInGranule (effAddr s x a) b)
  have hkept : (l2Store { s with slices := slots } l (effAddr s x a % 128 / 8) (wordInGranule (effAddr s x a) b)).2 = false := by
    change (_ != 0 && (mergePoison l.poison 0 _).getLsbD _) = false
    rw [mergePoison_clean hpoison, Bool.and_false]
  rw [hgran] at hst
  refine ⟨slots, exec_st_word hk ho ha hb hv hva h.checkWrite (stGranule_word hva hload (hst.trans ?_))⟩
  rw [hkept]
  rfl

/-- Settles O31: one word of the scratchpad, any lanes of it, and one word that hits a line of the L2. -/
theorem storesChangeTheirWordsAlone : Obligations.StoresChangeTheirWordsAlone := by
  intro s ty x ho o
  refine ⟨fun a b off hk ha hb hv h => exec_st_scratch hk ho ha hb hv h, fun t hls hexec => ?_, ?_⟩
  · obtain ⟨u, id, ⟨hu, hother, hread⟩, ht⟩ := st_scratch_frame ho hls hexec
    have htile (p : Nat) : t.tile p = u.tile p := by rw [State.tile, ht.tiles, State.tile]
    refine ⟨ht.mem.trans (by rw [hu]), ht.l2.trans (by rw [hu]), fun p hp => (htile p).trans (hother p hp), fun b hb => ?_⟩
    rw [htile]
    refine hread b fun l hl => ?_
    obtain ⟨a, w, ha, hw, hva⟩ := mem_stLanes hl
    rw [hva]
    exact hb _ a w ha hw
  · intro a b l hk ha hb hv va asid hva hw hbound hbank hl hwr hpoison hunmap hqueue
    obtain ⟨slots, hexec⟩ := exec_st_l2 (l := l) hk ho ha hb hv hva
      ⟨rfl, hw, hbound, hbank, hunmap, hl, hwr, hqueue⟩ hpoison
    exact ⟨_, slots, hexec, fun asid' q hq => l2Byte_mergedWord hl hva (effAddr_lt s x a) b slots asid' hq⟩

end Sys2Proof.Machine

/-! ## The events of a matrix island (O38) -/

namespace Sys2Proof.Machine
open Sys2Proof

section
variable {s : State} {die i : Nat} {r : IslandRow} {rest : List IslandRow}

/-! ### Chunks of the head row (R129, R131) -/

/-- An island that issues chunks: not in engine mode, not frozen, and serving no MOUT request. -/
structure Issues (s : State) (p : Nat) : Prop where
  engine : (s.island p).engine = false
  frozen : (s.island p).frozen = false
  asked : islandAsked s p = false

/-- Once it is prepared, its head row is no mark. -/
structure HeadRow (s : State) (p : Nat) (r : IslandRow) : Prop where
  issues : Issues s p
  row : ∃ rest, ((islandPrepare s p).island p).rows = r :: rest
  data : r.mark = none

theorem any_isSome_iff (l : List Lane) : l.any Option.isSome = true ↔ l.all Option.isNone = false := by
  induction l with
  | nil => simp
  | cons a t ih => cases a <;> simp_all

/-- A row that holds a lane issues its next chunk where the whole chunk is here, its tile is bound and its scales have come; the last one
needs room in the output stage (R129). -/
theorem exec_chunkIssue_issues {tl : LatchTile} (h : HeadRow s (islandPlace die i) r) (hlanes : r.lanes.any Option.isSome = true)
    (htile : boundTile ((islandPrepare s (islandPlace die i)).island (islandPlace die i)) r.key r.next = some tl)
    (hscales : scalesHere ((islandPrepare s (islandPlace die i)).island (islandPlace die i)) r r.next = true) (last : Bool)
    (hhere : if last then r.complete = true ∧ r.next + 1 = chunkCount r ∧
        ((islandPrepare s (islandPlace die i)).island (islandPlace die i)).out.length ≤ 4
      else (r.complete = false ∧ 64 * (r.next + 1) ≤ r.lanes.length) ∨ (r.complete = true ∧ r.next + 1 < chunkCount r)) :
    exec (.chunkIssue die i) s = .next (islandDrain
      (issueChunk (islandPrepare s (islandPlace die i)) (islandPlace die i) r r.next tl last) (islandPlace die i) 16) := by
  obtain ⟨⟨hengine, hfrozen, hasked⟩, ⟨rest, hrows⟩, hmark⟩ := h
  have hbare := (any_isSome_iff _).1 hlanes
  change execChunkIssue die i s = _
  unfold execChunkIssue
  cases last with
  | false =>
    rw [if_neg Bool.false_ne_true] at hhere
    rcases hhere with ⟨hopen, hlen⟩ | ⟨hcomplete, hnext⟩
    · simp [hengine, hfrozen, hasked, hrows, hmark, hbare, hopen, Nat.not_lt.2 hlen, htile, hscales]
    · have hmore : ¬ chunkCount r ≤ r.next := by omega
      simp [hengine, hfrozen, hasked, hrows, hmark, hbare, hcomplete, hmore, Nat.not_le.2 hnext, htile, hscales]
  | true =>
    obtain ⟨hcomplete, hnext, hroom⟩ := hhere
    have hmore : ¬ chunkCount r ≤ r.next := by omega
    simp [hengine, hfrozen, hasked, hrows, hmark, hbare, hcomplete, hmore, hnext, stageFree, hroom, htile, hscales]

/-- A complete row of empty lanes ends without a chunk (R56, R131). -/
theorem exec_chunkIssue_bare (h : HeadRow s (islandPlace die i) r) (hlanes : r.lanes.any Option.isSome = false)
    (hcomplete : r.complete = true) (hroom : ((islandPrepare s (islandPlace die i)).island (islandPlace die i)).out.length ≤ 4) :
    exec (.chunkIssue die i) s = .next (islandDrain ((islandPrepare s (islandPlace die i)).setIsland (islandPlace die i)
      (endIslandRow ((islandPrepare s (islandPlace die i)).island (islandPlace die i)) r true)) (islandPlace die i) 16) := by
  obtain ⟨⟨hengine, hfrozen, hasked⟩, ⟨rest, hrows⟩, hmark⟩ := h
  have hbare : r.lanes.all Option.isNone = true := by
    rw [← Bool.not_eq_false, ← any_isSome_iff, hlanes]
    exact Bool.false_ne_true
  change execChunkIssue die i s = _
  unfold execChunkIssue
  simp [hengine, hfrozen, hasked, hrows, hmark, hbare, hcomplete, stageFree, hroom]

/-! ### Marks (R129, R282) -/

/-- The island `x` once a mark has passed: n restarts at a mark of class gcls, and EOS ends the stream and its scales (R43, R129, R282). -/
def markPassed (x : Island) (rest : List IslandRow) (t : Token) (m : MarkClass) (scaled : Bool) : Island :=
  let x := { x with rows := rest, out := x.out ++ [(t, false)] }
  let x := if m.code = (x.p.getD 0 0).extractLsb' 18 4 then { x with n := 0 } else x
  if m = .eos then { x with ended := true, scaleBuf := [], scaleEos := false, scaleSkip := scaled && !x.scaleEos } else x

theorem markPassed_spec (x : Island) (rest : List IslandRow) (t : Token) (m : MarkClass) (scaled : Bool) :
    (markPassed x rest t m scaled).rows = rest ∧ (markPassed x rest t m scaled).out = x.out ++ [(t, false)] ∧
      (markPassed x rest t m scaled).acc = x.acc ∧ (markPassed x rest t m scaled).latch = x.latch ∧
      (markPassed x rest t m scaled).n = if m.code = (x.p.getD 0 0).extractLsb' 18 4 then 0 else x.n := by
  unfold markPassed
  dsimp only
  split <;> split <;> exact ⟨rfl, rfl, rfl, rfl, rfl⟩

/-- A mark of the channel passes from the head of the rows to the output stage. -/
theorem exec_islandMarkPass {m : MarkClass} {pay : BitVec 12} (hengine : (s.island (islandPlace die i)).engine = false)
    (hfrozen : (s.island (islandPlace die i)).frozen = false) {x : Island}
    (hx : (islandPrepare s (islandPlace die i)).island (islandPlace die i) = x) (hrows : x.rows = r :: rest) (hmark : r.mark = some (m, pay))
    (hgathered : r.gathered = false) (hroom : x.out.length < 8) :
    ∃ scaled, exec (.islandMarkPass die i) s = .next (islandDrain ((islandPrepare s (islandPlace die i)).setIsland (islandPlace die i)
      (markPassed x rest (.mark r.ctx m pay) m scaled)) (islandPlace die i) 16) := by
  have hfull : ¬ 8 ≤ x.out.length := by omega
  change ∃ scaled, execIslandMarkPass die i s = _
  unfold execIslandMarkPass
  simp only [hengine, hfrozen, hx, hrows, hmark, hgathered, hfull, Bool.false_and, Bool.false_eq_true, or_false, if_false]
  exact ⟨_, rfl⟩

end

/-! ### Fills of the weight latch (R422) -/

/-- The oldest accepted fill runs in the focus of its firing. -/
theorem exec_weightFillComplete {s : State} {die i c ins frame : Nat} {rest : List (Nat × Nat × Nat)} {w : Inflight} {d : Dst}
    {obj : BitVec 2} {base : BitVec 3} {f : Fmt} {kr : BitVec 9} {nc : BitVec 7} {tile lane : Nat}
    (hloads : (s.island (islandPlace die i)).loads = (c, ins, frame) :: rest)
    (hfrozen : (s.ctx (islandPlace die i * 8 + c)).frozen = false)
    (hw : inflightOf (s.ctx (islandPlace die i * 8 + c)) ins frame = some w)
    (hinstr : Image.instr (s.ctx (islandPlace die i * 8 + c)).image ins = some (.wload d obj base f kr nc))
    (hwork : w.work = .weights tile lane) :
    let p := islandPlace die i
    let s1 := s.setIsland p { s.island p with loads := rest }
    let s2 := s1.setCtx (p * 8 + c)
      { s.ctx (p * 8 + c) with inflight := (s.ctx (p * 8 + c)).inflight.filter fun y => !(y.ins = ins ∧ y.frame = frame) }
    exec (.weightFillComplete die i) s = .next (withFocus s2 (p * 8 + c) ins frame w.k fun s =>
      fillTile s d tile lane base f (kr.toNat + 1) (nc.toNat + 1) (stillLoading s1 p rest tile)) := by
  obtain ⟨wins, wframe, k, work⟩ := w
  dsimp only at hwork
  subst hwork
  change execWeightFillComplete die i s = _
  unfold execWeightFillComplete
  simp only [hloads, hfrozen, hw, hinstr, Bool.false_eq_true, if_false]
  rfl

/-! ### Rows that a set gathers (R345) -/

section
variable {x : Island} {r : IslandRow}

theorem mem_insertRow {q : IslandRow} : q ∈ (insertRow x r).rows ↔ q = r ∨ q ∈ x.rows := by
  simp only [insertRow, List.mem_append, List.mem_filter, List.mem_singleton]
  cases q.complete <;> simp [or_comm]

/-- A row that enters counts among the sixteen unless it is a mark. -/
theorem rowCount_insertRow : rowCount (insertRow x r) = rowCount x + (if r.mark.isNone then 1 else 0) := by
  have hsplit (l : List IslandRow) : ((l.filter (·.complete)).filter (·.mark.isNone)).length +
      ((l.filter (!·.complete)).filter (·.mark.isNone)).length = (l.filter (·.mark.isNone)).length := by
    induction l with
    | nil => rfl
    | cons q t ih =>
      by_cases hc : q.complete = true <;> by_cases hm : q.mark.isNone = true <;> simp [hc, hm] at ih ⊢ <;> omega
  have hone : ([r].filter fun q => q.mark.isNone).length = if r.mark.isNone then 1 else 0 := by
    by_cases h : r.mark.isNone = true <;> simp [h]
  have hx := hsplit x.rows
  simp only [rowCount, insertRow, List.filter_append, List.length_append, hone]
  omega

end

/-- The row that GATH ROW COLLECT makes of a set's lanes. -/
def gatheredRow (g : GatherSet) (lanes : List Lane) : IslandRow :=
  { ctx := BitVec.ofNat 3 (g.ctx % 8), key := g.key, fmt := g.fmt, lanes := lanes
    valid := lanes.map fun _ => ((Fmt.ofCode g.fmt).getD .bf16x2).epl
    complete := true, gathered := true }

/-- The EG behind a set's last row. -/
def gatheredEnd (g : GatherSet) : IslandRow :=
  { mark := some (.eg, 0), ctx := BitVec.ofNat 3 (g.ctx % 8), complete := true, gathered := true }

/-- The island once the next row of its head set has entered the queue, with the set's EG behind its last row. -/
def collected (x : Island) (g : GatherSet) (lanes : List Lane) : Island :=
  let y := insertRow { x with sets := x.sets.modify 0 fun g => { g with next := g.next + 1 } } (gatheredRow g lanes)
  if g.next + 1 = g.total then insertRow y (gatheredEnd g) else y

section
variable {s : State} {die i : Nat} {g : GatherSet} {rest : List GatherSet}

theorem exec_gathRowCollect (hsets : (s.island (islandPlace die i)).sets = g :: rest)
    (hfrozen : (s.island (islandPlace die i)).frozen = false) (hctx : (s.ctx g.ctx).frozen = false)
    (hstop : stoppedAt (s.ctx g.ctx) g.ins g.frame = false) (hroom : rowCount (s.island (islandPlace die i)) < 16)
    (hnext : g.next < g.total) {l : Option (List Lane)} (hrow : setRow (s.tile (islandPlace die i)) g g.next = .ok l) :
    exec (.gathRowCollect die i) s =
      .next (s.setIsland (islandPlace die i) (collected (s.island (islandPlace die i)) g (l.getD []))) := by
  have hgo : ¬ (16 ≤ rowCount (s.island (islandPlace die i))) := by omega
  have hleft : ¬ g.total ≤ g.next := by omega
  change execGathRowCollect die i s = _
  unfold execGathRowCollect
  simp only [collected, gatheredRow, gatheredEnd, hsets, hfrozen, hctx, hstop, hgo, hleft, hrow, Bool.false_eq_true, or_self, if_false]

theorem collected_sets {x : Island} (h : x.sets = g :: rest) (lanes : List Lane) :
    (collected x g lanes).sets = { g with next := g.next + 1 } :: rest := by
  have hsets : (x.sets.modify 0 fun g => { g with next := g.next + 1 }) = { g with next := g.next + 1 } :: rest := by rw [h]; rfl
  unfold collected
  dsimp only
  split <;> exact hsets

theorem collected_rowCount (x : Island) (lanes : List Lane) : rowCount (collected x g lanes) = rowCount x + 1 := by
  have hx (y : List GatherSet) : rowCount { x with sets := y } = rowCount x := rfl
  unfold collected
  dsimp only
  split <;> simp [rowCount_insertRow, gatheredRow, gatheredEnd, hx]

theorem mem_collected (x : Island) (lanes : List Lane) : gatheredRow g lanes ∈ (collected x g lanes).rows := by
  unfold collected
  dsimp only
  split <;> simp [mem_insertRow]

theorem end_mem_collected {x : Island} (h : g.next + 1 = g.total) (lanes : List Lane) : gatheredEnd g ∈ (collected x g lanes).rows := by
  unfold collected
  rw [if_pos h]
  exact mem_insertRow.2 (.inl rfl)

/-- Rows past the set's own have no lanes (R345). -/
theorem setRow_padded (t : Tile) {n : Nat} (h : g.n ≤ n) : setRow t g n = .ok none := if_pos (.inr h)

end

/-- Settles O38: each event of an island under what lets it act. -/
theorem islandEventsAct : Obligations.IslandEventsAct := by
  intro s die i p
  refine ⟨?chunk, ?mark, ?fill, ?gather⟩
  case chunk =>
    intro r rest hengine hfrozen hasked s1 x hrows hmark
    have h : HeadRow s p r := ⟨⟨hengine, hfrozen, hasked⟩, ⟨rest, hrows⟩, hmark⟩
    refine ⟨fun tl hlanes htile hscales => ⟨fun hmore => ?_, fun hcomplete hlast hroom => ?_⟩,
      fun hlanes hcomplete hroom => exec_chunkIssue_bare h hlanes hcomplete hroom⟩
    · exact exec_chunkIssue_issues h hlanes htile hscales false hmore
    · exact exec_chunkIssue_issues h hlanes htile hscales true ⟨hcomplete, hlast, hroom⟩
  case mark =>
    intro r rest m pay hengine hfrozen s1 x hrows hmark hgathered hroom
    obtain ⟨scaled, hexec⟩ := exec_islandMarkPass hengine hfrozen rfl hrows hmark hgathered hroom
    exact ⟨_, hexec, markPassed_spec x rest _ m scaled⟩
  case fill =>
    intro c ins frame rest w d obj base f kr nc tile lane hloads hfrozen hw hinstr hwork
    exact exec_weightFillComplete hloads hfrozen hw hinstr hwork
  case gather =>
    intro g rest hsets hfrozen hctx hstop hroom hnext
    refine ⟨fun hn => setRow_padded _ hn, fun l hrow => ?_⟩
    refine ⟨_, gatheredRow g (l.getD []), exec_gathRowCollect hsets hfrozen hctx hstop hroom hnext hrow, rfl, ?_⟩
    rw [State.setIsland_island_self]
    exact ⟨collected_sets hsets _, collected_rowCount _ _, mem_collected _ _, rfl, rfl, rfl, rfl, rfl, rfl,
      fun hlast => ⟨_, end_mem_collected hlast _, rfl, rfl⟩⟩

end Sys2Proof.Machine

/-! ## Firings of one f32 lane (O17, O28) -/

namespace Sys2Proof.Machine
open Sys2Proof

/-- A firing of one lane whose ports hold these words; a port that the entry does not have counts as a lane of zeros (R98). -/
structure OneLane (s : State) (a b c : W32) : Prop where
  k : s.focus.k = 1
  a : Opnds.lane (operands s).a 0 = some a
  b : Opnds.lane (operands s).b 0 = some b
  c : Opnds.lane (operands s).c 0 = some c

theorem OneLane.of_one {s : State} {u : W32} (h : F32One s u) : OneLane s u 0 0 := by
  obtain ⟨hk, ha, hb, hc⟩ := h
  exact ⟨hk, by rw [ha]; rfl, by rw [hb]; rfl, by rw [hc]; rfl⟩

theorem OneLane.of_pair {s : State} {u v : W32} (h : F32Pair s u v) : OneLane s u v 0 := by
  obtain ⟨hk, ha, hb, hc⟩ := h
  exact ⟨hk, by rw [ha]; rfl, by rw [hb]; rfl, by rw [hc]; rfl⟩

theorem OneLane.of_three {s : State} {u v z : W32} (h : F32Three s u v z) : OneLane s u v z := by
  obtain ⟨hk, ha, hb, hc⟩ := h
  exact ⟨hk, by rw [ha]; rfl, by rw [hb]; rfl, by rw [hc]; rfl⟩

theorem validElts_one (c : Nat) : validElts 1 c = 1 := by
  unfold validElts
  split <;> omega

theorem elt_whole (v : W32) : elt 32 0 v = v.toNat := by
  rw [elt, Nat.mul_zero, Nat.pow_zero, Nat.div_one]
  exact Nat.mod_eq_of_lt v.isLt

theorem packElts_single {w b : Nat} (h : b < 2 ^ w) : packElts w [b] = BitVec.ofNat 32 b := by
  simp [packElts, Nat.mod_eq_of_lt h]

section
variable {x : XA} {s : State} {a b c : W32}

/-- An f32 operation on one full lane is one element operation (R312). -/
theorem runElts_oneLane (hty : x.ty = .f32) (h : OneLane s a b c) (ow : Nat) (op : EltOp) :
    runElts x ow (operands s) op =
      .both ⟨[some (packElts ow [(op a.toNat b.toNat c.toNat (operands s).gen).bits])], (operands s).key, (operands s).count⟩
        (op a.toNat b.toNat c.toNat (operands s).gen).flags (op a.toNat b.toNat c.toNat (operands s).gen).gen := by
  obtain ⟨hk, ha, hb, hc⟩ := h
  have hlim : (operands s).validAt 1 0 = 1 := validElts_one _
  have hor (f : FpFlags) : f ||| 0 = f := BitVec.or_zero
  unfold runElts policyLanes
  rw [hty, operands_k, hk]
  simp only [laneLoop, ha, hb, hc, emptyPolicy, eltLane, Fmt.epl, hlim, eltLoop, elemWidth, Nat.div_one, elt_whole, Nat.zero_lt_one,
    if_true, hor, resA]

/-- An f32 instruction on one full lane answers what its element operation gives, where no trap is enabled and no draw is made. -/
theorem answersLane_of_op {i : Instr} {r : Opnds → Res} {op : EltOp} {v : W32} {fl : FpFlags} (hty : x.ty = .f32)
    (htrap : trapEnables s.here.fpmode = 0) (h : OneLane s a b c) (hi : computes i = some (x.d, x.ty.code, x.ty.code, r))
    (hr : r (operands s) = runXA x (operands s) op)
    (hop : op a.toNat b.toNat c.toNat (operands s).gen = ⟨v.toNat, fl, (operands s).gen⟩) : AnswersLane i x s v fl := by
  have hrun : r (operands s) = .both ⟨[some v], (operands s).key, (operands s).count⟩ fl (operands s).gen := by
    rw [hr, runXA, runElts_oneLane hty h, hop, hty]
    change Res.both ⟨[some (packElts 32 [v.toNat])], _, _⟩ _ _ = _
    rw [packElts_single v.isLt, BitVec.ofNat_toNat, BitVec.setWidth_eq]
  rw [AnswersLane, exec_completes hi (by rw [htrap]; exact BitVec.zero_and), hrun]
  rfl

end

/-! ### The fields of an f32 word (R39) -/

/-- Exponent field and trailing significand of an f32 word. -/
def f32Exp (u : W32) : Nat := (u.extractLsb' 23 8).toNat
def f32Sig (u : W32) : Nat := (u.extractLsb' 0 23).toNat

theorem f32Exp_eq (u : W32) : f32Exp u = u.toNat / 2 ^ 23 % 2 ^ 8 := by
  rw [f32Exp, BitVec.extractLsb'_toNat, Nat.shiftRight_eq_div_pow]

theorem f32Sig_eq (u : W32) : f32Sig u = u.toNat % 2 ^ 23 := by
  rw [f32Sig, BitVec.extractLsb'_toNat, Nat.shiftRight_zero]

theorem f32Sign_eq (u : W32) : u.getLsbD 31 = decide (2 ^ 31 ≤ u.toNat) := by
  have := u.isLt
  rw [BitVec.getLsbD, Nat.testBit_eq_decide_div_mod_eq, decide_eq_decide]
  omega

theorem f32Finite_iff (u : W32) : f32Finite u ↔ f32Exp u ≠ 255 := by
  rw [f32Finite, f32Exp, ← BitVec.toNat_inj.ne]
  rfl

theorem f32Nan_iff (u : W32) : f32Nan u ↔ f32Exp u = 255 ∧ f32Sig u ≠ 0 := by
  rw [f32Nan, f32Exp, f32Sig, ← BitVec.toNat_inj, ← BitVec.toNat_inj.ne]
  rfl

/-- The value of an f32 word (R39 to R41). -/
theorem decode_f32 (u : W32) : fpF32.decode u.toNat =
    if f32Exp u = 255 then (if f32Sig u = 0 then .inf (u.getLsbD 31) else .nan (!u.getLsbD 22))
    else if f32Exp u = 0 then .fin (u.getLsbD 31) (f32Sig u) (-149)
    else .fin (u.getLsbD 31) (f32Sig u + 2 ^ 23) ((f32Exp u : Int) - 150) := by
  have hquiet : (fpF32 != fpE5m2 && f32Sig u / 2 ^ (fpF32.sig - 1) == 0) = !u.getLsbD 22 := by
    change (f32Sig u / 2 ^ 22 == 0) = _
    rw [BitVec.getLsbD, Nat.testBit_eq_decide_div_mod_eq, f32Sig_eq, ← decide_not, Bool.beq_eq_decide_eq, decide_eq_decide]
    omega
  have hwhole : u.toNat % 2 ^ fpF32.width = u.toNat := Nat.mod_eq_of_lt u.isLt
  have hsign : decide (2 ^ (fpF32.width - 1) ≤ u.toNat) = u.getLsbD 31 := (f32Sign_eq u).symm
  have hexp : u.toNat / 2 ^ fpF32.sig % 2 ^ fpF32.exp = f32Exp u := (f32Exp_eq u).symm
  have hsig : u.toNat % 2 ^ fpF32.sig = f32Sig u := (f32Sig_eq u).symm
  unfold FParam.decode
  simp only [hwhole, hsign, hexp, hsig, hquiet]
  by_cases htop : f32Exp u = 255
  · by_cases hzero : f32Sig u = 0
    · simp [htop, hzero, fpF32]
    · simp [htop, hzero, fpF32]
  · have hbias (e : Int) : e - 127 - 23 = e - 150 := by omega
    by_cases hsub : f32Exp u = 0 <;> simp [htop, hsub, fpF32, FParam.emin, hbias]

/-! ### Exact values in units of 2^-298 -/

/-- A magnitude with a sign. -/
def signed (neg : Bool) (n : Nat) : Int := if neg then -(n : Int) else n

theorem signed_natAbs (neg : Bool) (n : Nat) : (signed neg n).natAbs = n := by cases neg <;> simp [signed]

theorem neg_signed (neg : Bool) (n : Nat) : -signed neg n = signed (!neg) n := by cases neg <;> simp [signed]

theorem signed_mul (neg : Bool) (m n : Nat) : signed neg m * (n : Int) = signed neg (m * n) := by cases neg <;> simp [signed]

theorem signed_mul_signed (a b : Bool) (m n : Nat) : signed a m * signed b n = signed (a != b) (m * n) := by
  cases a <;> cases b <;> simp [signed]

theorem scaled_eq (neg : Bool) (m : Nat) (e q : Int) : scaled neg m e q = signed neg (m * 2 ^ (e - q).toNat) := rfl

/-- Magnitude of a finite f32 word in units of 2^-149. -/
def f32Mag (u : W32) : Nat := if f32Exp u = 0 then f32Sig u else (f32Sig u + 2 ^ 23) * 2 ^ (f32Exp u - 1)

theorem f32Units_eq (u : W32) : f32Units u = signed (u.getLsbD 31) (f32Mag u) := by
  have hmag : (if f32Exp u = 0 then (f32Sig u : Int) else ((f32Sig u : Int) + 2 ^ 23) * 2 ^ (f32Exp u - 1)) = (f32Mag u : Nat) := by
    unfold f32Mag
    split <;> push_cast <;> rfl
  change (if u.getLsbD 31 then -(if f32Exp u = 0 then (f32Sig u : Int) else ((f32Sig u : Int) + 2 ^ 23) * 2 ^ (f32Exp u - 1))
    else (if f32Exp u = 0 then (f32Sig u : Int) else ((f32Sig u : Int) + 2 ^ 23) * 2 ^ (f32Exp u - 1))) = _
  rw [hmag, signed]

theorem f32Fine_eq (u : W32) : f32Fine u = signed (u.getLsbD 31) (f32Mag u * 2 ^ 149) := by
  rw [f32Fine, f32Units_eq, ← signed_mul]
  norm_cast

/-- A finite value of a word, as its sign, a magnitude and an exponent. -/
theorem decode_f32_finite {u : W32} (h : f32Finite u) :
    ∃ m e, fpF32.decode u.toNat = .fin (u.getLsbD 31) m e ∧ -149 ≤ e ∧ m * 2 ^ (e + 149).toNat = f32Mag u := by
  rw [f32Finite_iff] at h
  rw [decode_f32, if_neg h, f32Mag]
  by_cases hsub : f32Exp u = 0
  · rw [if_pos hsub, if_pos hsub]
    exact ⟨_, _, rfl, le_rfl, by simp⟩
  · rw [if_neg hsub, if_neg hsub]
    refine ⟨_, _, rfl, by omega, ?_⟩
    rw [show ((f32Exp u : Int) - 150 + 149).toNat = f32Exp u - 1 by omega]

/-- A finite value that is `n` units of 2^-298. -/
def IsFine (v : FVal) (n : Int) : Prop := ∃ neg m e, v = .fin neg m e ∧ -298 ≤ e ∧ signed neg (m * 2 ^ (e + 298).toNat) = n

theorem isFine_decode {u : W32} (h : f32Finite u) : IsFine (fpF32.decode u.toNat) (f32Fine u) := by
  obtain ⟨m, e, hdec, he, hmag⟩ := decode_f32_finite h
  refine ⟨_, m, e, hdec, by omega, ?_⟩
  rw [f32Fine_eq, ← hmag, Nat.mul_assoc, ← pow_add, show (e + 298).toNat = (e + 149).toNat + 149 by omega]

theorem IsFine.negate {v : FVal} {n : Int} (h : IsFine v n) : IsFine v.negate (-n) := by
  obtain ⟨neg, m, e, rfl, he, rfl⟩ := h
  exact ⟨!neg, m, e, rfl, he, (neg_signed ..).symm⟩

theorem isFine_zero (neg : Bool) : IsFine (.fin neg 0 0) 0 := ⟨neg, 0, 0, rfl, by omega, by rw [Nat.zero_mul]; cases neg <;> rfl⟩

theorem isFine_ofScaled (k : Int) {q : Int} (hq : -298 ≤ q) (zneg : Bool) : IsFine (ofScaled k q zneg) (k * 2 ^ (q + 298).toNat) := by
  unfold ofScaled
  by_cases hk : k = 0
  · rw [if_pos hk, hk, Int.zero_mul]
    exact isFine_zero zneg
  · rw [if_neg hk]
    refine ⟨_, _, _, rfl, hq, ?_⟩
    have hsign : signed (decide (k < 0)) k.natAbs = k := by
      unfold signed
      by_cases hneg : k < 0
      · rw [if_pos (decide_eq_true hneg)]; omega
      · rw [if_neg (by simpa using hneg)]; omega
    rw [← signed_mul, hsign, Nat.cast_pow]
    rfl

/-- A sum is exact (R315, R48). -/
theorem fadd_isFine {u v : FVal} {a b : Int} (hu : IsFine u a) (hv : IsFine v b) (mode : Rnd) :
    ∃ w, fadd mode u v = some w ∧ IsFine w (a + b) := by
  obtain ⟨s, m, e, rfl, he, rfl⟩ := hu
  obtain ⟨t, n, f, rfl, hf, rfl⟩ := hv
  simp only [fadd]
  split
  case isTrue hzero =>
    obtain ⟨rfl, rfl⟩ := hzero
    refine ⟨_, rfl, ?_⟩
    rw [Nat.zero_mul, Nat.zero_mul, show signed s 0 + signed t 0 = 0 by cases s <;> cases t <;> rfl]
    exact isFine_zero _
  case isFalse =>
    refine ⟨_, rfl, ?_⟩
    have hq : -298 ≤ min e f := le_min he hf
    convert isFine_ofScaled (scaled s m e (min e f) + scaled t n f (min e f)) hq (zeroSumNeg mode) using 1
    have hterm (neg : Bool) (m : Nat) {g : Int} (hg : min e f ≤ g) :
        scaled neg m g (min e f) * 2 ^ (min e f + 298).toNat = signed neg (m * 2 ^ (g + 298).toNat) := by
      rw [scaled_eq]
      have := signed_mul neg (m * 2 ^ (g - min e f).toNat) (2 ^ (min e f + 298).toNat)
      push_cast at this
      rw [this, Nat.mul_assoc, ← pow_add, show (g - min e f).toNat + (min e f + 298).toNat = (g + 298).toNat by omega]
    rw [Int.add_mul, hterm s m (min_le_left e f), hterm t n (min_le_right e f)]

/-- A product of two words is exact (R370). -/
theorem fmul_isFine {u v : W32} (hu : f32Finite u) (hv : f32Finite v) :
    ∃ w, fmul (fpF32.decode u.toNat) (fpF32.decode v.toNat) = some w ∧ IsFine w (f32Units u * f32Units v) := by
  obtain ⟨m, e, hdu, he, hmu⟩ := decode_f32_finite hu
  obtain ⟨n, f, hdv, hf, hmv⟩ := decode_f32_finite hv
  rw [hdu, hdv, f32Units_eq, f32Units_eq, signed_mul_signed, ← hmu, ← hmv]
  refine ⟨_, rfl, _, _, _, rfl, ?_, ?_⟩
  · split <;> omega
  · congr 1
    split
    case isTrue hzero => rw [hzero, Nat.zero_mul, Nat.mul_mul_mul_comm, hzero, Nat.zero_mul]
    case isFalse => rw [Nat.mul_mul_mul_comm, ← pow_add, show (e + f + 298).toNat = (e + 149).toNat + (f + 149).toNat by omega]

end Sys2Proof.Machine

/-! ## One rounding to f32 (O17) -/

namespace Sys2Proof.Machine
open Sys2Proof

/-! ### The words of a format's grid -/

/-- The f32 word of magnitude `y * 2^j` units of 2^-149, for a significand up to a carry out of its 24 bits. -/
def f32Word (neg : Bool) (j y : Nat) : W32 := BitVec.ofNat 32 ((if neg then 2 ^ 31 else 0) + j * 2 ^ 23 + y)

/-- A significand `y` stands at quantum `2^j`: only the lowest quantum has significands below 2^23 (R39), and the magnitude is at most the
largest finite one. -/
structure OnGrid (j y : Nat) : Prop where
  le : y ≤ 2 ^ 24
  normal : j = 0 ∨ 2 ^ 23 ≤ y
  range : y * 2 ^ j ≤ (2 ^ 24 - 1) * 2 ^ 253

section
variable {j y : Nat} (h : OnGrid j y) (neg : Bool)
include h

theorem OnGrid.bits_lt : j * 2 ^ 23 + y < 255 * 2 ^ 23 := by
  obtain ⟨hle, hnormal, hrange⟩ := h
  by_contra hge
  have hj : 253 ≤ j := by omega
  have hy : 2 ^ 23 ≤ y := by omega
  rcases Nat.lt_or_ge j 254 with hj' | hj'
  · obtain rfl : j = 253 := by omega
    have := Nat.le_of_mul_le_mul_right hrange (Nat.two_pow_pos 253)
    omega
  · have hpow : 2 ^ 254 ≤ 2 ^ j := Nat.pow_le_pow_right (by decide) hj'
    have := (Nat.mul_le_mul hy hpow).trans hrange
    rw [pow_succ 2 253, Nat.mul_comm (2 ^ 253) 2, ← Nat.mul_assoc] at this
    have := Nat.le_of_mul_le_mul_right this (Nat.two_pow_pos 253)
    omega

theorem f32Word_toNat : (f32Word neg j y).toNat = (if neg then 2 ^ 31 else 0) + j * 2 ^ 23 + y := by
  have := h.bits_lt
  rw [f32Word, BitVec.toNat_ofNat]
  apply Nat.mod_eq_of_lt
  cases neg <;> simp only [Bool.false_eq_true, if_false, if_true] <;> omega

theorem f32Word_sign : (f32Word neg j y).getLsbD 31 = neg := by
  have := h.bits_lt
  rw [f32Sign_eq, f32Word_toNat h]
  cases neg <;> simp <;> omega

theorem f32Word_exp : f32Exp (f32Word neg j y) = (j * 2 ^ 23 + y) / 2 ^ 23 := by
  have := h.bits_lt
  rw [f32Exp_eq, f32Word_toNat h]
  cases neg <;> simp only [Bool.false_eq_true, if_false, if_true] <;> omega

theorem f32Word_sig : f32Sig (f32Word neg j y) = y % 2 ^ 23 := by
  rw [f32Sig_eq, f32Word_toNat h]
  cases neg <;> simp only [Bool.false_eq_true, if_false, if_true] <;> omega

theorem f32Word_finite : f32Finite (f32Word neg j y) := by
  have := h.bits_lt
  rw [f32Finite_iff, f32Word_exp h]
  omega

theorem f32Word_mag : f32Mag (f32Word neg j y) = y * 2 ^ j := by
  have hle := h.le
  have hnormal := h.normal
  unfold f32Mag
  rw [f32Word_exp h, f32Word_sig h]
  rcases Nat.lt_trichotomy y (2 ^ 23) with hy | rfl | hy
  · obtain rfl : j = 0 := by omega
    rw [if_pos (by omega), Nat.mod_eq_of_lt hy, pow_zero, Nat.mul_one]
  · rw [if_neg (by omega), show (j * 2 ^ 23 + 2 ^ 23) / 2 ^ 23 - 1 = j by omega, Nat.mod_self, Nat.zero_add]
  · rw [if_neg (by omega)]
    rcases Nat.lt_or_ge y (2 ^ 24) with hy' | hy'
    · rw [show (j * 2 ^ 23 + y) / 2 ^ 23 - 1 = j by omega, show y % 2 ^ 23 + 2 ^ 23 = y by omega]
    · obtain rfl : y = 2 ^ 24 := by omega
      rw [show (j * 2 ^ 23 + 2 ^ 24) / 2 ^ 23 - 1 = j + 1 by omega, show 2 ^ 24 % 2 ^ 23 + 2 ^ 23 = 2 ^ 23 from rfl, pow_succ 2 j]
      ring

theorem f32Word_fine : f32Fine (f32Word neg j y) = signed neg (y * 2 ^ j * 2 ^ 149) := by
  rw [f32Fine_eq, f32Word_sign h, f32Word_mag h]

theorem f32Word_even : (f32Word neg j y).getLsbD 0 = decide (y % 2 = 1) := by
  rw [BitVec.getLsbD, Nat.testBit_eq_decide_div_mod_eq, f32Word_toNat h, decide_eq_decide]
  cases neg <;> simp only [Bool.false_eq_true, if_false, if_true] <;> omega

end

/-- A word by its fields. -/
theorem f32_toNat (u : W32) : u.toNat = (if u.getLsbD 31 then 2 ^ 31 else 0) + f32Exp u * 2 ^ 23 + f32Sig u := by
  have := u.isLt
  rw [f32Sign_eq, f32Exp_eq, f32Sig_eq]
  simp only [decide_eq_true_eq]
  split <;> omega

/-- A finite word as a magnitude of the grid (R39). -/
theorem f32_eq_word {u : W32} (h : f32Finite u) : ∃ j y, OnGrid j y ∧ y < 2 ^ 24 ∧ u = f32Word (u.getLsbD 31) j y ∧
    fpF32.decode u.toNat = .fin (u.getLsbD 31) y ((j : Int) - 149) := by
  have hsig : f32Sig u < 2 ^ 23 := by rw [f32Sig_eq]; omega
  have hexp : f32Exp u < 2 ^ 8 := by rw [f32Exp_eq]; omega
  rw [f32Finite_iff] at h
  have hrange {j y : Nat} (hj : j ≤ 253) (hy : y < 2 ^ 24) : y * 2 ^ j ≤ (2 ^ 24 - 1) * 2 ^ 253 :=
    Nat.mul_le_mul (by omega) (Nat.pow_le_pow_right (by decide) hj)
  rw [decode_f32, if_neg h]
  by_cases hsub : f32Exp u = 0
  · have hgrid : OnGrid 0 (f32Sig u) := ⟨by omega, .inl rfl, hrange (by omega) (by omega)⟩
    refine ⟨0, f32Sig u, hgrid, by omega, BitVec.eq_of_toNat_eq ?_, by rw [if_pos hsub]; rfl⟩
    have := f32_toNat u
    have := f32Word_toNat hgrid (u.getLsbD 31)
    omega
  · have hgrid : OnGrid (f32Exp u - 1) (f32Sig u + 2 ^ 23) := ⟨by omega, .inr (by omega), hrange (by omega) (by omega)⟩
    refine ⟨f32Exp u - 1, f32Sig u + 2 ^ 23, hgrid, by omega, BitVec.eq_of_toNat_eq ?_, ?_⟩
    · have := f32_toNat u
      have := f32Word_toNat hgrid (u.getLsbD 31)
      omega
    · rw [if_neg hsub, show (f32Exp u : Int) - 150 = ((f32Exp u - 1 : Nat) : Int) - 149 by omega]

/-- No finite word lies between two neighbours of the grid. -/
theorem f32Mag_gap {u : W32} (h : f32Finite u) {j kept : Nat} (hn : j = 0 ∨ 2 ^ 23 ≤ kept) :
    f32Mag u ≤ kept * 2 ^ j ∨ (kept + 1) * 2 ^ j ≤ f32Mag u := by
  obtain ⟨i, k, hgrid, hk, hword, -⟩ := f32_eq_word h
  rw [hword, f32Word_mag hgrid]
  rcases Nat.lt_or_ge i j with hij | hij
  · have hkept : 2 ^ 23 ≤ kept := by omega
    left
    calc k * 2 ^ i ≤ 2 ^ 24 * 2 ^ i := Nat.mul_le_mul_right _ hk.le
      _ = 2 ^ 23 * 2 ^ (i + 1) := by rw [pow_succ 2 i]; ring
      _ ≤ kept * 2 ^ j := Nat.mul_le_mul hkept (Nat.pow_le_pow_right (by decide) hij)
  · obtain ⟨d, rfl⟩ := Nat.exists_eq_add_of_le hij
    have hsplit : k * 2 ^ (j + d) = k * 2 ^ d * 2 ^ j := by rw [pow_add]; ring
    rw [hsplit]
    rcases Nat.lt_or_ge kept (k * 2 ^ d) with hlt | hge
    · exact .inr (Nat.mul_le_mul_right _ hlt)
    · exact .inl (Nat.mul_le_mul_right _ hge)

/-! ### A magnitude cut at its quantum -/

/-- The magnitude `n`, in units of 2^-298, cut at the quantum `2^j`: `kept` quanta and a rest below one (R48). -/
structure IsCut (n j kept rest : Nat) : Prop where
  eq : n = kept * (2 ^ j * 2 ^ 149) + rest
  rest_lt : rest < 2 ^ j * 2 ^ 149
  kept_lt : kept < 2 ^ 24
  normal : j = 0 ∨ 2 ^ 23 ≤ kept
  range : n ≤ (2 ^ 24 - 1) * 2 ^ 253 * 2 ^ 149

/-- Whether the rest of a magnitude rounds it up, `q` being the quantum (R47). -/
def RoundsUp (mode : Rnd) (neg : Bool) (kept rest q : Nat) : Prop :=
  match mode with
  | .rne | .dyn => q < 2 * rest ∨ (2 * rest = q ∧ kept % 2 = 1)
  | .rtz | .sto => False
  | .rup => rest ≠ 0 ∧ neg = false
  | .rdn => rest ≠ 0 ∧ neg = true
  | .rna => q ≤ 2 * rest

theorem RoundsUp.rest_ne {mode : Rnd} {neg : Bool} {kept rest q : Nat} (h : RoundsUp mode neg kept rest q) (hq : 0 < q) : rest ≠ 0 := by
  cases mode <;> simp only [RoundsUp] at h <;> omega

theorem signed_gap {m a q : Nat} (h : m ≤ a ∨ a + q ≤ m) (neg sign : Bool) :
    (if neg then -signed sign m else signed sign m) ≤ (a : Int) ∨
      ((a + q : Nat) : Int) ≤ (if neg then -signed sign m else signed sign m) := by
  cases neg <;> cases sign <;> simp only [signed, Bool.false_eq_true, if_false, if_true] <;> omega

section
variable {n j kept rest : Nat}

theorem quantum_pos (j : Nat) : 0 < 2 ^ j * 2 ^ 149 := Nat.mul_pos (Nat.two_pow_pos j) (Nat.two_pow_pos 149)

/-- The neighbours of the magnitude lie on the grid; the upper one where the magnitude is none itself. -/
theorem IsCut.onGrid (h : IsCut n j kept rest) (up : Bool) (hup : up = true → rest ≠ 0) : OnGrid j (kept + up.toNat) := by
  have hq := quantum_pos j
  obtain ⟨heq, hlt, hkept, hnormal, hrange⟩ := h
  have hbelow : kept * 2 ^ j ≤ (2 ^ 24 - 1) * 2 ^ 253 := by
    have : kept * 2 ^ j * 2 ^ 149 ≤ (2 ^ 24 - 1) * 2 ^ 253 * 2 ^ 149 := by
      rw [Nat.mul_assoc]
      omega
    exact Nat.le_of_mul_le_mul_right this (Nat.two_pow_pos 149)
  cases up with
  | false => exact ⟨hkept.le, hnormal, hbelow⟩
  | true =>
    have hrest := hup rfl
    refine ⟨hkept, hnormal.imp_right fun h => h.trans (Nat.le_succ _), ?_⟩
    have hmax : f32Mag 0x7F7FFFFF = (2 ^ 24 - 1) * 2 ^ 253 := by decide
    rcases f32Mag_gap (u := 0x7F7FFFFF) (by unfold f32Finite; decide) hnormal with hle | hge
    · exfalso
      rw [hmax] at hle
      have := Nat.mul_le_mul_right (2 ^ 149) hle
      rw [Nat.mul_assoc kept] at this
      omega
    · rw [hmax] at hge
      exact hge

end

/-! ### Which neighbour is the rounded one -/

/-- The lower neighbour `a` of a magnitude, or the upper one a quantum `q` above. -/
def gridNeighbour (a q : Nat) (up : Bool) : Nat := a + if up then q else 0

/-- A value, signed so that the rounded magnitude is positive, is not between the neighbours. -/
def Apart (neg : Bool) (a q : Nat) (fy : Int) : Prop :=
  (if neg then -fy else fy) ≤ (a : Int) ∨ ((a + q : Nat) : Int) ≤ (if neg then -fy else fy)

section
variable {a q rest : Nat} {neg up : Bool} {fy : Int} (hy : Apart neg a q fy)
include hy

theorem nearest_le (hlt : rest < q) (hup : up = true → q ≤ 2 * rest) (hdown : up = false → 2 * rest ≤ q) :
    (signed neg (gridNeighbour a q up) - signed neg (a + rest)).natAbs ≤ (fy - signed neg (a + rest)).natAbs := by
  unfold Apart at hy
  cases neg <;> cases up <;>
    simp only [gridNeighbour, signed, Bool.false_eq_true, if_false, if_true, forall_const, false_imp_iff] at hy hup hdown ⊢ <;>
    omega

theorem nearest_tie (hlt : rest < q) (hup : up = true → q ≤ 2 * rest) (hdown : up = false → 2 * rest ≤ q)
    (heq : (signed neg (gridNeighbour a q up) - signed neg (a + rest)).natAbs = (fy - signed neg (a + rest)).natAbs) :
    fy = signed neg (gridNeighbour a q up) ∨ (2 * rest = q ∧ (fy.natAbs ≤ (signed neg (gridNeighbour a q up)).natAbs ∨ up = false)) := by
  unfold Apart at hy
  cases neg <;> cases up <;>
    simp only [gridNeighbour, signed, Bool.false_eq_true, if_false, if_true, forall_const, false_imp_iff, or_true, and_true,
      or_false, reduceCtorEq] at hy hup hdown heq ⊢ <;>
    omega

omit hy in
theorem le_gridNeighbour (hrest : rest ≤ q) (hup : up = true ↔ rest ≠ 0 ∧ neg = false) :
    signed neg (a + rest) ≤ signed neg (gridNeighbour a q up) := by
  cases neg <;> cases up <;> simp [gridNeighbour, signed] at hup ⊢ <;> omega

omit hy in
theorem gridNeighbour_le (hrest : rest ≤ q) (hup : up = true ↔ rest ≠ 0 ∧ neg = true) :
    signed neg (gridNeighbour a q up) ≤ signed neg (a + rest) := by
  cases neg <;> cases up <;> simp [gridNeighbour, signed] at hup ⊢ <;> omega

theorem gridNeighbour_floor (hrest : rest < q) (hle : fy ≤ signed neg (a + rest)) (hup : up = true ↔ rest ≠ 0 ∧ neg = true) :
    fy ≤ signed neg (gridNeighbour a q up) := by
  unfold Apart at hy
  cases neg <;> cases up <;>
    simp only [gridNeighbour, signed, Bool.false_eq_true, if_false, if_true, and_true, and_false, true_iff, false_iff, not_not, ne_eq,
      iff_false, not_true_eq_false] at hy hup hle ⊢ <;> omega

theorem gridNeighbour_ceil (hrest : rest < q) (hle : signed neg (a + rest) ≤ fy) (hup : up = true ↔ rest ≠ 0 ∧ neg = false) :
    signed neg (gridNeighbour a q up) ≤ fy := by
  unfold Apart at hy
  cases neg <;> cases up <;>
    simp only [gridNeighbour, signed, Bool.false_eq_true, if_false, if_true, and_true, true_iff, false_iff, not_not, ne_eq]
      at hy hup hle ⊢ <;> omega

theorem gridNeighbour_trunc (hy' : Apart (!neg) a q fy) (hrest : rest < q) (hle : fy.natAbs ≤ (signed neg (a + rest)).natAbs) :
    fy.natAbs ≤ (signed neg (gridNeighbour a q false)).natAbs := by
  unfold Apart at hy hy'
  cases neg <;>
    simp only [gridNeighbour, signed, Bool.false_eq_true, if_false, if_true, Bool.not_false, Bool.not_true] at hy hy' hle ⊢ <;> omega

end

section
variable {n j kept rest : Nat}

/-- Seen from either sign, a finite word lies at or below the lower neighbour of the cut, or at or above the upper one. -/
theorem IsCut.gap (h : IsCut n j kept rest) (neg : Bool) {y : W32} (hy : f32Finite y) :
    Apart neg (kept * (2 ^ j * 2 ^ 149)) (2 ^ j * 2 ^ 149) (f32Fine y) := by
  have hgap : f32Mag y * 2 ^ 149 ≤ kept * (2 ^ j * 2 ^ 149) ∨ kept * (2 ^ j * 2 ^ 149) + 2 ^ j * 2 ^ 149 ≤ f32Mag y * 2 ^ 149 := by
    rcases f32Mag_gap hy h.normal with hle | hge
    · left
      rw [← Nat.mul_assoc]
      exact Nat.mul_le_mul_right _ hle
    · right
      have := Nat.mul_le_mul_right (2 ^ 149) hge
      rwa [Nat.add_mul, Nat.add_mul, Nat.one_mul, Nat.mul_assoc kept] at this
  rw [f32Fine_eq, Apart]
  exact signed_gap hgap neg _

/-- The neighbour that the mode picks is the magnitude rounded under it (R47, R48). -/
theorem IsCut.roundsTo (h : IsCut n j kept rest) {mode : Rnd} (hmode : mode ≠ .sto) (neg up : Bool)
    (hup : up = true ↔ RoundsUp mode neg kept rest (2 ^ j * 2 ^ 149)) :
    RoundsTo mode (signed neg n) (f32Word neg j (kept + up.toNat)) ∧
      (f32Fine (f32Word neg j (kept + up.toNat)) ≠ signed neg n ↔ rest ≠ 0) := by
  have hq := quantum_pos j
  have hgrid := h.onGrid up fun hu => (hup.1 hu).rest_ne hq
  have hgap := fun y hy => h.gap neg (y := y) hy
  have hgap' := fun y hy => h.gap (!neg) (y := y) hy
  have hfine := f32Word_fine hgrid neg
  have hsign := f32Word_sign hgrid neg
  have heven := f32Word_even hgrid neg
  have hfin := f32Word_finite hgrid neg
  obtain ⟨w, hw⟩ : ∃ w, f32Word neg j (kept + up.toNat) = w := ⟨_, rfl⟩
  rw [hw] at hfine hsign heven hfin ⊢
  have hval : (kept + up.toNat) * 2 ^ j * 2 ^ 149 = gridNeighbour (kept * (2 ^ j * 2 ^ 149)) (2 ^ j * 2 ^ 149) up := by
    cases up <;> simp [gridNeighbour, Nat.mul_assoc, Nat.add_mul]
  rw [hval] at hfine
  obtain ⟨heq, hlt, -, -, -⟩ := h
  obtain ⟨q, hq'⟩ : ∃ q, 2 ^ j * 2 ^ 149 = q := ⟨_, rfl⟩
  rw [hq'] at hq hup hgap hgap' hfine heq hlt
  obtain ⟨a, ha⟩ : ∃ a, kept * q = a := ⟨_, rfl⟩
  rw [ha] at hgap hgap' hfine heq
  subst heq
  rw [hfine]
  refine ⟨⟨hfin, ?_, ?_⟩, ?_⟩
  · intro hne
    rw [hsign]
    cases neg <;> simp only [signed, Bool.false_eq_true, if_false, if_true] at hne ⊢ <;> simp <;> omega
  · have hnear (hmode : up = true → q ≤ 2 * rest) (hmode' : up = false → 2 * rest ≤ q) (y : W32) (hy : f32Finite y) :=
      And.intro (nearest_le (hgap y hy) hlt hmode hmode') (nearest_tie (hgap y hy) hlt hmode hmode')
    cases mode <;> simp only [RoundsUp] at hup <;> simp only [hfine]
    case sto => exact absurd rfl hmode
    case rtz =>
      obtain rfl : up = false := by simpa using hup
      refine ⟨?_, fun y hy hle => gridNeighbour_trunc (hgap y hy) (hgap' y hy) hlt hle⟩
      simp [signed_natAbs, gridNeighbour]
    case rup =>
      exact ⟨le_gridNeighbour hlt.le hup, fun y hy hle => gridNeighbour_ceil (hgap y hy) hlt hle hup⟩
    case rdn =>
      exact ⟨gridNeighbour_le hlt.le hup, fun y hy hle => gridNeighbour_floor (hgap y hy) hlt hle hup⟩
    case rna =>
      intro y hy
      obtain ⟨hle, htie⟩ := hnear (by grind) (by grind) y hy
      refine ⟨hle, fun heq => ?_⟩
      rcases htie heq with hsame | ⟨htie, hbelow | hdown⟩
      · rw [hsame]
      · exact hbelow
      · grind
    all_goals
      intro y hy
      obtain ⟨hle, htie⟩ := hnear (by grind) (by grind) y hy
      refine ⟨hle, fun heq hne => ?_⟩
      rcases htie heq with hsame | ⟨htie, -⟩
      · exact absurd hsame hne
      · rw [heven]
        cases up <;> simp at hup ⊢ <;> omega
  · have hrest : up = true → rest ≠ 0 := fun hu => (hup.1 hu).rest_ne hq
    cases neg <;> cases up <;> simp [gridNeighbour, signed] at hrest ⊢ <;> omega

end

end Sys2Proof.Machine

/-! ## The model's rounding (O17) -/

namespace Sys2Proof.Machine
open Sys2Proof

theorem two_pow_le_of_ne_zero {m : Nat} (hm : m ≠ 0) : 2 ^ (bitLen m - 1) ≤ m := by
  rw [bitLen, if_neg hm, Nat.add_sub_cancel]
  exact Nat.log2_self_le hm

theorem lt_two_pow_bitLen (m : Nat) : m < 2 ^ bitLen m := by
  unfold bitLen
  split
  · omega
  · exact Nat.lt_log2_self

theorem bitLen_pos {m : Nat} (hm : m ≠ 0) : 0 < bitLen m := by
  rw [bitLen, if_neg hm]
  exact Nat.succ_pos _

theorem bitLen_eq {m k : Nat} (hlow : 2 ^ k ≤ m) (hhigh : m < 2 ^ (k + 1)) : bitLen m = k + 1 := by
  have hm : m ≠ 0 := by have := Nat.two_pow_pos k; omega
  rw [bitLen, if_neg hm, Nat.add_right_cancel_iff, Nat.log2_eq_iff hm]
  exact ⟨hlow, hhigh⟩

theorem bitLen_le {m k : Nat} (h : m < 2 ^ k) : bitLen m ≤ k := by
  unfold bitLen
  split
  case isTrue => exact Nat.zero_le k
  case isFalse hm => exact (Nat.log2_lt hm).2 h

/-- The quantum, as an exponent of 2, at which f32 rounds the magnitude `m * 2^e` (R48). -/
def f32Quantum (m : Nat) (e : Int) : Int := max (e + bitLen m - 1) fpF32.emin - fpF32.sig

/-- The same quantum counted in steps above the smallest one. -/
def f32Step (m : Nat) (e : Int) : Nat := (f32Quantum m e + 149).toNat

theorem f32Quantum_eq (m : Nat) (e : Int) : f32Quantum m e = max (e + bitLen m - 1) (-126) - 23 := rfl

theorem f32Quantum_step (m : Nat) (e : Int) : f32Quantum m e = (f32Step m e : Int) - 149 := by
  rw [f32Step, f32Quantum_eq]
  omega

/-- What `cut` leaves, in units of 2^-298: `c` of them are one unit of its remainder. -/
theorem cut_fine (m : Nat) {e q : Int} (he : -298 ≤ e) (hq : -298 ≤ q) :
    ∃ c, 0 < c ∧ 2 ^ (q + 298).toNat = (cut m e q).2.2 * c ∧
      m * 2 ^ (e + 298).toNat = (cut m e q).1 * 2 ^ (q + 298).toNat + (cut m e q).2.1 * c ∧ (cut m e q).2.1 < (cut m e q).2.2 := by
  unfold cut pow2
  split
  case isTrue hle =>
    refine ⟨2 ^ (q + 298).toNat, Nat.two_pow_pos _, (Nat.one_mul _).symm, ?_, Nat.one_pos⟩
    rw [Nat.zero_mul, Nat.add_zero, Nat.mul_assoc, ← pow_add, show (e - q).toNat + (q + 298).toNat = (e + 298).toNat by omega]
  case isFalse hlt =>
    have hpow : 2 ^ (q + 298).toNat = 2 ^ (q - e).toNat * 2 ^ (e + 298).toNat := by
      rw [← pow_add, show (q - e).toNat + (e + 298).toNat = (q + 298).toNat by omega]
    refine ⟨2 ^ (e + 298).toNat, Nat.two_pow_pos _, hpow, ?_, Nat.mod_lt _ (Nat.two_pow_pos _)⟩
    rw [hpow, ← Nat.mul_assoc, ← Nat.add_mul, Nat.div_add_mod']

/-- At the quantum of f32 the magnitude keeps 24 bits, and 24 significant ones above the smallest quantum. -/
theorem cut_kept {m : Nat} (hm : m ≠ 0) (e : Int) :
    (cut m e (f32Quantum m e)).1 < 2 ^ 24 ∧ (f32Step m e = 0 ∨ 2 ^ 23 ≤ (cut m e (f32Quantum m e)).1) := by
  have hlow := two_pow_le_of_ne_zero hm
  have hhigh := lt_two_pow_bitLen m
  have hlen := bitLen_pos hm
  have hstep := f32Quantum_step m e
  have hquantum := f32Quantum_eq m e
  generalize f32Quantum m e = q at *
  unfold cut pow2
  split
  case isTrue hle =>
    constructor
    · calc m * 2 ^ (e - q).toNat < 2 ^ bitLen m * 2 ^ (e - q).toNat := Nat.mul_lt_mul_of_pos_right hhigh (Nat.two_pow_pos _)
        _ = 2 ^ (bitLen m + (e - q).toNat) := (pow_add ..).symm
        _ ≤ 2 ^ 24 := Nat.pow_le_pow_right (by decide) (by omega)
    · rw [or_iff_not_imp_left]
      intro hj
      calc 2 ^ 23 ≤ 2 ^ (bitLen m - 1 + (e - q).toNat) := Nat.pow_le_pow_right (by decide) (by omega)
        _ = 2 ^ (bitLen m - 1) * 2 ^ (e - q).toNat := pow_add ..
        _ ≤ m * 2 ^ (e - q).toNat := Nat.mul_le_mul_right _ hlow
  case isFalse hlt =>
    constructor
    · rw [Nat.div_lt_iff_lt_mul (Nat.two_pow_pos _), ← pow_add]
      exact hhigh.trans_le (Nat.pow_le_pow_right (by decide) (by omega))
    · rw [or_iff_not_imp_left, Nat.le_div_iff_mul_le (Nat.two_pow_pos _), ← pow_add]
      intro hj
      exact (Nat.pow_le_pow_right (by decide) (by omega)).trans hlow

/-- The model's choice between the neighbours is that of the mode (R47). -/
theorem roundUp_iff {mode : Rnd} (hmode : mode ≠ .sto) (neg : Bool) (kept rem den r : Nat) {c : Nat} (hc : 0 < c) :
    roundUp mode neg kept rem den false r = true ↔ RoundsUp mode neg kept (rem * c) (den * c) := by
  have hlt : den * c < 2 * (rem * c) ↔ den < 2 * rem := by
    rw [← Nat.mul_assoc]
    exact Nat.mul_lt_mul_right hc
  have heq : 2 * (rem * c) = den * c ↔ 2 * rem = den := by
    rw [← Nat.mul_assoc]
    exact Nat.mul_left_inj hc.ne'
  have hle : den * c ≤ 2 * (rem * c) ↔ den ≤ 2 * rem := by
    rw [← Nat.mul_assoc]
    exact Nat.mul_le_mul_right_iff hc
  have hzero : rem * c ≠ 0 ↔ rem ≠ 0 := by simp [hc.ne']
  cases mode <;> simp only [RoundsUp, roundUp, hlt, heq, hle, hzero]
  case sto => exact absurd rfl hmode
  case rna =>
    simp
    omega
  all_goals simp

/-- A magnitude of the grid does not overflow (R48). -/
theorem OnGrid.not_overflow {j y : Nat} (h : OnGrid j y) : ltMag fpF32.lm fpF32.le y ((j : Int) - 149) = false := by
  have hrange := h.range
  change decide ((2 ^ 24 - 1) * 2 ^ ((104 : Int) - min 104 ((j : Int) - 149)).toNat <
    y * 2 ^ ((j : Int) - 149 - min 104 ((j : Int) - 149)).toNat) = _
  rw [decide_eq_false_iff_not, not_lt]
  apply Nat.le_of_mul_le_mul_right _ (Nat.two_pow_pos (min 104 ((j : Int) - 149) + 149).toNat)
  rw [Nat.mul_assoc, Nat.mul_assoc, ← pow_add, ← pow_add]
  convert hrange using 3 <;> omega

/-- The bits of a finite value: its magnitude cut at its quantum (R39). -/
theorem encode_f32 (neg : Bool) {m : Nat} (hm : m ≠ 0) (e : Int) : fpF32.encode (.fin neg m e) =
    (if neg then 2 ^ 31 else 0) + f32Step m e * 2 ^ 23 + (cut m e (f32Quantum m e)).1 := by
  have hcut : (cut m e (f32Quantum m e)).1 =
      if f32Quantum m e ≤ e then m * pow2 (e - f32Quantum m e) else m / pow2 (f32Quantum m e - e) := by
    unfold cut
    split <;> rfl
  obtain ⟨hkept, hnormal⟩ := cut_kept hm e
  have hfield : (max (e + bitLen m - 1) fpF32.emin + fpF32.bias).toNat = f32Step m e + 1 := by
    change (max (e + bitLen m - 1) (-126) + 127).toNat = _
    rw [f32Step, f32Quantum_eq]
    omega
  have hencode : fpF32.encode (.fin neg m e) = (if neg then 2 ^ 31 else 0) +
      (if (cut m e (f32Quantum m e)).1 < 2 ^ 23 then 0 else f32Step m e + 1) * 2 ^ 23 + (cut m e (f32Quantum m e)).1 % 2 ^ 23 := by
    rw [FParam.encode, if_neg hm, ← hfield, hcut]
    rfl
  rw [hencode]
  generalize (if neg then 2 ^ 31 else 0) = sign
  split <;> omega

/-- The bits of a magnitude of the grid. -/
theorem OnGrid.encode {j y : Nat} (h : OnGrid j y) (neg : Bool) :
    fpF32.encode (.fin neg y ((j : Int) - 149)) = (f32Word neg j y).toNat := by
  rw [f32Word_toNat h]
  obtain ⟨hle, hnormal, -⟩ := h
  by_cases hy : y = 0
  · obtain rfl : j = 0 := by omega
    subst hy
    rfl
  · rw [encode_f32 neg hy]
    have hquantum := f32Quantum_eq y ((j : Int) - 149)
    have hstep := f32Quantum_step y ((j : Int) - 149)
    rcases Nat.lt_or_ge y (2 ^ 24) with hlt | hge
    · have hsame : f32Quantum y ((j : Int) - 149) = (j : Int) - 149 := by
        rcases Nat.lt_or_ge y (2 ^ 23) with hsub | hge
        · have := bitLen_le hsub
          omega
        · have := bitLen_eq hge hlt
          omega
      rw [show f32Step y ((j : Int) - 149) = j by omega, hsame, cut, if_pos le_rfl, sub_self]
      exact congrArg _ (Nat.mul_one y)
    · obtain rfl : y = 2 ^ 24 := by omega
      have := bitLen_eq (m := 2 ^ 24) (k := 24) le_rfl (by decide)
      rw [show f32Step (2 ^ 24) ((j : Int) - 149) = j + 1 by omega, show f32Quantum (2 ^ 24) ((j : Int) - 149) = j - 148 by omega,
        cut, if_neg (by omega : ¬ (j : Int) - 148 ≤ j - 149), show (j : Int) - 148 - (j - 149) = 1 by omega]
      change _ + (j + 1) * 2 ^ 23 + 2 ^ 24 / 2 = _
      omega

/-- Whether the model rounds the magnitude `m * 2^e` up at its quantum. -/
def f32Up (mode : Rnd) (neg : Bool) (m : Nat) (e : Int) (r : Nat) : Bool :=
  roundUp mode neg (cut m e (f32Quantum m e)).1 (cut m e (f32Quantum m e)).2.1 (cut m e (f32Quantum m e)).2.2 false r

/-- Without overflow the rounded magnitude stands at the quantum, and NX and UF say what was left out (R48). -/
theorem roundTo_of_not_overflow (mode : Rnd) (neg : Bool) {m : Nat} (hm : m ≠ 0) (e : Int) (r : Nat)
    (hover : ltMag fpF32.lm fpF32.le ((cut m e (f32Quantum m e)).1 + (f32Up mode neg m e r).toNat) (f32Quantum m e) = false) :
    ∃ tiny, roundTo fpF32 mode neg m e false r =
      ⟨.fin neg ((cut m e (f32Quantum m e)).1 + (f32Up mode neg m e r).toNat) (f32Quantum m e), false,
        flagIf ((cut m e (f32Quantum m e)).2.1 != 0 || false) flagNX |||
          flagIf (((cut m e (f32Quantum m e)).2.1 != 0 || false) && tiny) flagUF⟩ := by
  have hkept : (cut m e (f32Quantum m e)).1 + (f32Up mode neg m e r).toNat =
      if f32Up mode neg m e r then (cut m e (f32Quantum m e)).1 + 1 else (cut m e (f32Quantum m e)).1 := by
    cases f32Up mode neg m e r <;> rfl
  have hnot : ¬ ltMag fpF32.lm fpF32.le ((cut m e (f32Quantum m e)).1 + (f32Up mode neg m e r).toNat) (f32Quantum m e) = true := by
    rw [hover]
    exact Bool.false_ne_true
  rw [hkept] at hnot ⊢
  exact ⟨_, (if_neg hm).trans (if_neg hnot)⟩

/-- The rounding of a finite magnitude within f32: one of the two neighbours at its quantum, without overflow (R48). -/
theorem roundTo_f32 {mode : Rnd} (hmode : mode ≠ .sto) (neg : Bool) {m : Nat} (hm : m ≠ 0) {e : Int} (he : -298 ≤ e) (r : Nat)
    (hrange : m * 2 ^ (e + 298).toNat ≤ (2 ^ 24 - 1) * 2 ^ 253 * 2 ^ 149) :
    ∃ j kept rest up tiny, IsCut (m * 2 ^ (e + 298).toNat) j kept rest ∧ (up = true ↔ RoundsUp mode neg kept rest (2 ^ j * 2 ^ 149)) ∧
      roundTo fpF32 mode neg m e false r = ⟨.fin neg (kept + up.toNat) ((j : Int) - 149), false,
        flagIf (decide (rest ≠ 0)) flagNX ||| flagIf (decide (rest ≠ 0) && tiny) flagUF⟩ := by
  have hstep := f32Quantum_step m e
  obtain ⟨c, hc, hden, hcut, hrem⟩ := cut_fine m he (q := f32Quantum m e) (by omega)
  obtain ⟨hkept, hnormal⟩ := cut_kept hm e
  have hquantum : 2 ^ (f32Quantum m e + 298).toNat = 2 ^ f32Step m e * 2 ^ 149 := by
    rw [← pow_add, show (f32Quantum m e + 298).toNat = f32Step m e + 149 by omega]
  rw [hquantum] at hden hcut
  have hisCut : IsCut (m * 2 ^ (e + 298).toNat) (f32Step m e) (cut m e (f32Quantum m e)).1 ((cut m e (f32Quantum m e)).2.1 * c) :=
    ⟨hcut, by rw [hden]; exact Nat.mul_lt_mul_of_pos_right hrem hc, hkept, hnormal, hrange⟩
  have hup : f32Up mode neg m e r = true ↔ RoundsUp mode neg (cut m e (f32Quantum m e)).1 ((cut m e (f32Quantum m e)).2.1 * c)
      (2 ^ f32Step m e * 2 ^ 149) := by
    rw [hden]
    exact roundUp_iff hmode neg _ _ _ r hc
  have hover := (hisCut.onGrid _ fun hu => (hup.1 hu).rest_ne (quantum_pos _)).not_overflow
  rw [← hstep] at hover
  obtain ⟨tiny, hround⟩ := roundTo_of_not_overflow mode neg hm e r hover
  refine ⟨_, _, _, _, tiny, hisCut, hup, ?_⟩
  have hrest : decide ((cut m e (f32Quantum m e)).2.1 * c ≠ 0) = ((cut m e (f32Quantum m e)).2.1 != 0 || false) := by
    simp [hc.ne', bne, Bool.beq_eq_decide_eq]
  rw [hround, hrest, hstep]

/-- `w` and `fl` are what f32 gives for the exact value of sign `neg` and magnitude `n` units of 2^-298, within its range (R48, R52). -/
structure IsRounded (mode : Rnd) (neg : Bool) (n : Nat) (w : W32) (fl : FpFlags) : Prop where
  rounds : RoundsTo mode (signed neg n) w
  sign : w.getLsbD 31 = neg
  nx : fl.getLsbD 0 = true ↔ f32Fine w ≠ signed neg n
  exact : fl.getLsbD 0 = false → fl = 0
  of : fl.getLsbD 2 = false
  dz : fl.getLsbD 3 = false
  iv : fl.getLsbD 4 = false

theorem drawFor_of_ne_sto {mode : Rnd} (hmode : mode ≠ .sto) (g : W32) : drawFor mode g = (0, g) := by
  cases mode
  case sto => exact absurd rfl hmode
  all_goals rfl

theorem IsCut.isRounded {n j kept rest : Nat} (h : IsCut n j kept rest) {mode : Rnd} (hmode : mode ≠ .sto) (neg up tiny : Bool)
    (hup : up = true ↔ RoundsUp mode neg kept rest (2 ^ j * 2 ^ 149)) :
    IsRounded mode neg n (f32Word neg j (kept + up.toNat))
      (flagIf (decide (rest ≠ 0)) flagNX ||| flagIf (decide (rest ≠ 0) && tiny) flagUF) := by
  obtain ⟨hrounds, hnx⟩ := h.roundsTo hmode neg up hup
  have hgrid := h.onGrid up fun hu => (hup.1 hu).rest_ne (quantum_pos _)
  have hflags (b : Bool) : (flagIf b flagNX ||| flagIf (b && tiny) flagUF).getLsbD 0 = b ∧
      (b = false → flagIf b flagNX ||| flagIf (b && tiny) flagUF = 0) ∧ (flagIf b flagNX ||| flagIf (b && tiny) flagUF).getLsbD 2 = false ∧
      (flagIf b flagNX ||| flagIf (b && tiny) flagUF).getLsbD 3 = false ∧
      (flagIf b flagNX ||| flagIf (b && tiny) flagUF).getLsbD 4 = false := by
    cases b <;> cases tiny <;> decide
  obtain ⟨hbit, hexact, hof, hdz, hiv⟩ := hflags (decide (rest ≠ 0))
  refine ⟨hrounds, f32Word_sign hgrid neg, ?_, fun hzero => hexact (hbit.symm.trans hzero), hof, hdz, hiv⟩
  rw [hbit, decide_eq_true_iff, hnx]

theorem isCut_zero : IsCut 0 0 0 0 := ⟨rfl, by decide, by decide, .inl rfl, Nat.zero_le _⟩

theorem not_roundsUp_zero (mode : Rnd) (neg : Bool) : ¬ RoundsUp mode neg 0 0 (2 ^ 0 * 2 ^ 149) := fun h => h.rest_ne (by decide) rfl

theorem isRounded_zero {mode : Rnd} (hmode : mode ≠ .sto) (neg : Bool) : IsRounded mode neg 0 (f32Word neg 0 0) 0 :=
  isCut_zero.isRounded hmode neg false false ⟨nofun, fun h => absurd h (not_roundsUp_zero mode neg)⟩

theorem roundSat_of_roundTo {mode : Rnd} (hmode : mode ≠ .sto) (sat : Sat) (g : W32) {neg : Bool} {m y : Nat} {e q : Int} {fl : FpFlags}
    (h : roundTo fpF32 mode neg m e false 0 = ⟨.fin neg y q, false, fl⟩) :
    roundSat fpF32 mode sat g (.fin neg m e) = ⟨fpF32.encode (.fin neg y q), fl, g⟩ := by
  simp only [roundSat, drawFor_of_ne_sto hmode, h, satBits]
  exact congrArg (fun f => EltRes.mk _ f g) BitVec.or_zero

/-- `Sat` of `Round` on a finite value within f32, for a mode that makes no draw (R48, R50). -/
theorem roundSat_f32 {mode : Rnd} (hmode : mode ≠ .sto) (sat : Sat) (g : W32) (neg : Bool) (m : Nat) {e : Int} (he : -298 ≤ e)
    (hrange : m * 2 ^ (e + 298).toNat ≤ (2 ^ 24 - 1) * 2 ^ 253 * 2 ^ 149) :
    ∃ w fl, roundSat fpF32 mode sat g (.fin neg m e) = ⟨w.toNat, fl, g⟩ ∧ IsRounded mode neg (m * 2 ^ (e + 298).toNat) w fl := by
  by_cases hm : m = 0
  · subst hm
    rw [Nat.zero_mul]
    refine ⟨_, _, (roundSat_of_roundTo hmode sat g (y := 0) (q := 0) rfl).trans ?_, isRounded_zero hmode neg⟩
    cases neg <;> rfl
  · obtain ⟨j, kept, rest, up, tiny, hcut, hup, hround⟩ := roundTo_f32 hmode neg hm he 0 hrange
    have hgrid := hcut.onGrid up fun hu => (hup.1 hu).rest_ne (quantum_pos _)
    exact ⟨_, _, by rw [roundSat_of_roundTo hmode sat g hround, hgrid.encode], hcut.isRounded hmode neg up tiny hup⟩

end Sys2Proof.Machine

namespace Sys2Proof.Machine
open Sys2Proof

theorem FVal.isNan_of_isFine {v : FVal} {n : Int} (h : IsFine v n) : v.isNan = false := by
  obtain ⟨_, _, _, rfl, _, _⟩ := h
  rfl

theorem FVal.isInf_of_isFine {v : FVal} {n : Int} (h : IsFine v n) : v.isInf = false := by
  obtain ⟨_, _, _, rfl, _, _⟩ := h
  rfl

/-- The largest finite f32 value. -/
theorem f32Fine_largest : (f32Fine 0x7F7FFFFF).natAbs = (2 ^ 24 - 1) * 2 ^ 253 * 2 ^ 149 := by
  rw [f32Fine_eq, signed_natAbs, show f32Mag 0x7F7FFFFF = (2 ^ 24 - 1) * 2 ^ 253 by decide]

/-- A finite value within f32 is rounded once (R48). -/
theorem IsFine.roundSat {v : FVal} {n : Int} (h : IsFine v n) {mode : Rnd} (hmode : mode ≠ .sto) (sat : Sat) (g : W32)
    (hrange : n.natAbs ≤ (f32Fine 0x7F7FFFFF).natAbs) :
    ∃ w fl neg k, Machine.roundSat fpF32 mode sat g v = ⟨w.toNat, fl, g⟩ ∧ IsRounded mode neg k w fl ∧ signed neg k = n := by
  obtain ⟨neg, m, e, rfl, he, rfl⟩ := h
  rw [signed_natAbs, f32Fine_largest] at hrange
  obtain ⟨w, fl, heq, hw⟩ := roundSat_f32 hmode sat g neg m he hrange
  exact ⟨w, fl, neg, _, heq, hw, rfl⟩

section
variable {x : XA} {s : State} {a b c : W32}

/-- An f32 instruction whose element operation rounds an exact finite value answers it rounded. -/
theorem answersRounded_of_op {i : Instr} {r : Opnds → Res} {op : EltOp} {y : FVal} {n : Int} (hty : x.ty = .f32)
    (htrap : trapEnables s.here.fpmode = 0) (hmode : effRnd x.rnd (operands s).mode ≠ .sto) (h : OneLane s a b c)
    (hi : computes i = some (x.d, x.ty.code, x.ty.code, r)) (hr : r (operands s) = runXA x (operands s) op)
    (hop : op a.toNat b.toNat c.toNat (operands s).gen =
      roundSat fpF32 (effRnd x.rnd (operands s).mode) x.sat (operands s).gen y)
    (hy : IsFine y n) (hrange : n.natAbs ≤ (f32Fine 0x7F7FFFFF).natAbs) : AnswersRounded i x s n := by
  obtain ⟨w, fl, neg, k, heq, hw, rfl⟩ := hy.roundSat hmode x.sat (operands s).gen hrange
  exact ⟨w, fl, answersLane_of_op hty htrap h hi hr (hop.trans heq), hw.rounds, hw.nx, hw.of, hw.dz, hw.iv⟩

/-- The element rule of ADD, SUB and MUL on finite f32 operands (R312). -/
theorem arithOp_f32 (hty : x.ty = .f32) (mode : Rnd) (iop : Int → Int → Int) {fop : FVal → FVal → Option FVal} {u v : W32}
    {y : FVal} (hu : f32Finite u) (hv : f32Finite v) (hy : fop (fpF32.decode u.toNat) (fpF32.decode v.toNat) = some y) (k : Nat) (g : W32) :
    arithOp x mode iop fop u.toNat v.toNat k g = roundSat fpF32 mode x.sat g y := by
  simp only [arithOp, hty, fparam, FVal.isNan_of_isFine (isFine_decode hu), FVal.isNan_of_isFine (isFine_decode hv), hy, Bool.or_false]
  rfl

/-- Without draws a rounding leaves the generator (R49). -/
theorem roundSat_gen {mode : Rnd} (hmode : mode ≠ .sto) (p : FParam) (sat : Sat) (g : W32) (v : FVal) :
    (roundSat p mode sat g v).gen = g := by
  cases v
  case fin => simp only [roundSat, drawFor_of_ne_sto hmode]
  all_goals rfl

/-- The element rule of FMA on finite f32 operands (R344). -/
theorem fmaOp_f32 (hty : x.ty = .f32) {mode : Rnd} (hmode : mode ≠ .sto) {u v z : W32} (hu : f32Finite u) (hv : f32Finite v)
    (hz : f32Finite z) (g : W32) :
    ∃ y, fmaOp x mode u.toNat v.toNat z.toNat g = roundSat fpF32 mode x.sat g y ∧
      IsFine y ((if x.cond = 2 ∨ x.cond = 3 then -(f32Units u * f32Units v) else f32Units u * f32Units v) +
        (if x.cond = 1 ∨ x.cond = 3 then -f32Fine z else f32Fine z)) := by
  have hcond1 : x.cond = 1 ↔ x.cond.toNat = 1 := BitVec.toNat_inj.symm
  have hcond2 : x.cond = 2 ↔ x.cond.toNat = 2 := BitVec.toNat_inj.symm
  have hcond3 : x.cond = 3 ↔ x.cond.toNat = 3 := BitVec.toNat_inj.symm
  obtain ⟨p, hprod, hp⟩ := fmul_isFine hu hv
  have hp' : IsFine (if x.cond.toNat = 2 ∨ x.cond.toNat = 3 then p.negate else p)
      (if x.cond = 2 ∨ x.cond = 3 then -(f32Units u * f32Units v) else f32Units u * f32Units v) := by
    simp only [hcond2, hcond3]
    split
    · exact hp.negate
    · exact hp
  have hz' : IsFine (if x.cond.toNat = 1 ∨ x.cond.toNat = 3 then (fpF32.decode z.toNat).negate else fpF32.decode z.toNat)
      (if x.cond = 1 ∨ x.cond = 3 then -f32Fine z else f32Fine z) := by
    simp only [hcond1, hcond3]
    split
    · exact (isFine_decode hz).negate
    · exact isFine_decode hz
  obtain ⟨y, hsum, hy⟩ := fadd_isFine hp' hz' mode
  refine ⟨y, ?_, hy⟩
  have hgen := roundSat_gen hmode fpF32 x.sat g y
  simp only [fmaOp, hty, fparam, fmul0, hprod, hsum, drawFor_of_ne_sto hmode, FVal.isNan_of_isFine (isFine_decode hu),
    FVal.isNan_of_isFine (isFine_decode hv), FVal.isNan_of_isFine (isFine_decode hz), FVal.isInf_of_isFine (isFine_decode hu),
    FVal.isInf_of_isFine (isFine_decode hv), Option.getD_some, Bool.and_false, Bool.false_and, Bool.or_false, Bool.false_eq_true, if_false]
  exact congrArg (EltRes.mk _ _) hgen.symm

/-- The element rule of CVT from a 32-bit integer to f32 (R334). -/
theorem cvtElt_f32 {src : Fmt} (hsrc : src = .i32 ∨ src = .n32) (mode : Rnd) (sat : Sat) (u : W32) (g : W32) :
    cvtElt src .f32 mode sat u.toNat g = roundSat fpF32 mode sat g (ofScaled (if src = .i32 then u.toInt else u.toNat) 0 false) := by
  have hval : intVal (Fmt.signed src) (elemWidth src) u.toNat = if src = .i32 then u.toInt else u.toNat := by
    rcases hsrc with rfl | rfl
    · have heq := intVal_eq (by decide : 0 < 32) true u.isLt
      rw [BitVec.ofNat_toNat, BitVec.setWidth_eq, if_pos rfl] at heq
      rw [if_pos rfl]
      exact heq
    · have heq := intVal_eq (by decide : 0 < 32) false u.isLt
      rw [if_neg Bool.false_ne_true] at heq
      rw [if_neg (by decide)]
      exact heq
  have hint : src.isInt = true := by rcases hsrc with rfl | rfl <;> rfl
  rw [cvtElt, hval, if_pos hint]
  exact if_neg Bool.false_ne_true

theorem cvtLane_f32 {src : Fmt} (hty : x.ty = .f32) (hsrc : src = .i32 ∨ src = .n32) (hcond : x.cond = 0) (mode : Rnd) (v g : W32) :
    cvtLane src x mode 1 v g =
      (some (packElts 32 [(cvtElt src .f32 mode x.sat v.toNat g).bits]), (cvtElt src .f32 mode x.sat v.toNat g).flags,
        (cvtElt src .f32 mode x.sat v.toNat g).gen) := by
  have hepl : src.epl = 1 := by rcases hsrc with rfl | rfl <;> rfl
  have hwidth : elemWidth src = 32 := by rcases hsrc with rfl | rfl <;> rfl
  have hf32width : elemWidth .f32 = 32 := rfl
  have hvalid : cvtValid 1 1 0 1 = 1 := rfl
  have hf32 : Fmt.f32.epl = 1 := rfl
  have hzero : (0 : BitVec 3).toNat = 0 := rfl
  have hor (f : FpFlags) : f ||| 0 = f := BitVec.or_zero
  unfold cvtLane
  simp only [hepl, hwidth, hty, hcond, hf32, hf32width, hzero, hvalid, eltLoop, le_refl, if_true,
    Nat.zero_mul, Nat.add_zero, Nat.zero_lt_one, elt_whole, hor, one_ne_zero, if_false]

/-- CVT of one 32-bit lane to f32 is one conversion (R334). -/
theorem cvtRes_oneLane {src : Fmt} (hty : x.ty = .f32) (hsource : cvtSource x.imm = some src) (hsrc : src = .i32 ∨ src = .n32)
    (h : OneLane s a b c) (hcond : x.cond = 0) {w : W32} {fl : FpFlags}
    (hr : cvtElt src .f32 (effRnd x.rnd (operands s).mode) x.sat a.toNat (operands s).gen = ⟨w.toNat, fl, (operands s).gen⟩) :
    cvtRes x (operands s) = .both ⟨[some w], (operands s).key, 0⟩ fl (operands s).gen := by
  obtain ⟨hk, ha, hb, hc⟩ := h
  have hepl : src.epl = 1 := by rcases hsrc with rfl | rfl <;> rfl
  have hlim : (operands s).validAt 1 0 = 1 := validElts_one _
  have hor (f : FpFlags) : f ||| 0 = f := BitVec.or_zero
  have hvalid : cvtValid 1 1 0 1 = 1 := rfl
  have hf32 : Fmt.f32.epl = 1 := rfl
  have hzero : (0 : BitVec 3).toNat = 0 := rfl
  have hlane := cvtLane_f32 hty hsrc hcond (effRnd x.rnd (operands s).mode) a (operands s).gen
  rw [hr, packElts_single w.isLt, BitVec.ofNat_toNat, BitVec.setWidth_eq] at hlane
  simp only [cvtRes, hsource, Option.getD_some, policyLanes, operands_k, hk, laneLoop, ha, hb, hc, emptyPolicy, hepl, hlim, hlane, hor,
    hty, hcond, hf32, hzero, hvalid, Nat.sub_self, decide_true, Bool.true_or, if_true]

end

/-! ### An exact zero sum -/

theorem f32Exp_flip (u : W32) : f32Exp (u ^^^ 0x80000000) = f32Exp u := by
  rw [f32Exp, BitVec.extractLsb'_xor, show BitVec.extractLsb' 23 8 (0x80000000 : W32) = 0 by decide, f32Exp]
  exact congrArg BitVec.toNat BitVec.xor_zero

theorem f32Sig_flip (u : W32) : f32Sig (u ^^^ 0x80000000) = f32Sig u := by
  rw [f32Sig, BitVec.extractLsb'_xor, show BitVec.extractLsb' 0 23 (0x80000000 : W32) = 0 by decide, f32Sig]
  exact congrArg BitVec.toNat BitVec.xor_zero

theorem f32Sign_flip (u : W32) : (u ^^^ 0x80000000).getLsbD 31 = !u.getLsbD 31 := by
  rw [BitVec.getLsbD_xor, show (0x80000000 : W32).getLsbD 31 = true by decide, Bool.xor_true]

/-- The word of the other sign has the value of the other sign (R39). -/
theorem decode_f32_flip {u : W32} (h : f32Finite u) : fpF32.decode (u ^^^ 0x80000000).toNat = (fpF32.decode u.toNat).negate := by
  rw [f32Finite_iff] at h
  rw [decode_f32, decode_f32, f32Exp_flip, f32Sig_flip, f32Sign_flip, if_neg h, if_neg h]
  split <;> rfl

/-- A value and its negative add to a zero whose sign the mode gives (R48). -/
theorem fadd_negate {v : FVal} {n : Int} (h : IsFine v n) (mode : Rnd) : fadd mode v v.negate = some (.fin (zeroSumNeg mode) 0 0) := by
  obtain ⟨neg, m, e, rfl, -, -⟩ := h
  have hsum : scaled neg m e e + scaled (!neg) m e e = 0 := by
    rw [scaled_eq, scaled_eq, ← neg_signed, Int.add_right_neg]
  simp only [FVal.negate, fadd, min_self, hsum, ofScaled, if_true]
  by_cases hm : m = 0 <;> simp [hm]

theorem roundSat_zero {mode : Rnd} (hmode : mode ≠ .sto) (sat : Sat) (g : W32) (neg : Bool) :
    roundSat fpF32 mode sat g (.fin neg 0 0) = ⟨(if neg then 0x80000000 else 0 : W32).toNat, 0, g⟩ := by
  rw [roundSat_of_roundTo hmode sat g (y := 0) (q := 0) rfl]
  cases neg <;> rfl

/-- The range of a 32-bit integer lies within f32. -/
theorem int32_inRange {k : Int} (h : k.natAbs ≤ 2 ^ 32) {p q : Nat} (hp : p = 149) (hq : q = p + 149) :
    (k * 2 ^ q).natAbs ≤ (f32Fine 0x7F7FFFFF).natAbs := by
  have hrange : k.natAbs * 2 ^ p ≤ (2 ^ 24 - 1) * 2 ^ 253 := by
    rw [hp]
    exact (Nat.mul_le_mul_right _ h).trans (by decide)
  rw [f32Fine_largest, Int.natAbs_mul, Int.natAbs_pow, hq, pow_add, ← Nat.mul_assoc]
  exact Nat.mul_le_mul_right _ hrange

/-- Settles O17: each element operation rounds one exact value, and rounding picks a neighbour of it on the grid of f32. -/
theorem f32ResultsAreRoundedOnce : Obligations.F32ResultsAreRoundedOnce := by
  unfold Obligations.F32ResultsAreRoundedOnce
  intro x s u v z hty _ htrap hmode
  refine ⟨?_, ?_, ?_⟩
  · intro hpair hu hv
    have hlane := OneLane.of_pair hpair
    have hu' := isFine_decode hu
    have hv' := isFine_decode hv
    refine ⟨?_, ?_, ?_, ?_⟩
    · obtain ⟨y, hsum, hy⟩ := fadd_isFine hu' hv' (effRnd x.rnd (operands s).mode)
      exact answersRounded_of_op hty htrap hmode hlane rfl rfl (arithOp_f32 hty _ _ hu hv hsum _ _) hy
    · obtain ⟨y, hdiff, hy⟩ := fadd_isFine hu' hv'.negate (effRnd x.rnd (operands s).mode)
      exact answersRounded_of_op hty htrap hmode hlane rfl rfl
        (arithOp_f32 (fop := fun u v => fadd _ u v.negate) hty _ _ hu hv hdiff _ _) hy
    · obtain ⟨y, hprod, hy⟩ := fmul_isFine hu hv
      exact answersRounded_of_op hty htrap hmode hlane rfl rfl (arithOp_f32 hty _ _ hu hv hprod _ _) hy
    · rintro rfl
      have hsum := fadd_negate hu' (effRnd x.rnd (operands s).mode)
      rw [← decode_f32_flip hu] at hsum
      have hword : (if effRnd x.rnd (operands s).mode = .rdn then 0x80000000 else 0 : W32) =
          if zeroSumNeg (effRnd x.rnd (operands s).mode) then 0x80000000 else 0 := by
        cases effRnd x.rnd (operands s).mode <;> rfl
      rw [hword]
      exact answersLane_of_op hty htrap hlane rfl rfl ((arithOp_f32 hty _ _ hu hv hsum _ _).trans (roundSat_zero hmode ..))
  · intro hthree hu hv hz _ n hrange
    obtain ⟨y, hop, hy⟩ := fmaOp_f32 hty hmode hu hv hz (operands s).gen
    exact answersRounded_of_op hty htrap hmode (OneLane.of_three hthree) rfl rfl hop hy hrange
  · intro src hsource hsrc hone hcond n
    have hint : (if src = .i32 then u.toInt else (u.toNat : Int)).natAbs ≤ 2 ^ 32 := by
      have := u.isLt
      have := u.toInt_lt
      have := u.le_toInt
      split <;> omega
    have hfine := isFine_ofScaled (if src = .i32 then u.toInt else u.toNat) (q := 0) (by omega) false
    obtain ⟨w, fl, neg, k, hround, hw, hn⟩ := hfine.roundSat hmode x.sat (operands s).gen (int32_inRange hint rfl rfl)
    have hres := cvtRes_oneLane hty hsource hsrc (OneLane.of_one hone) hcond ((cvtElt_f32 hsrc ..).trans hround)
    have hn' : signed neg k = n := hn
    refine ⟨w, fl, ?_, hn' ▸ hw.rounds, hn' ▸ hw.nx⟩
    rw [exec_completes rfl (by rw [htrap]; exact BitVec.zero_and), hres]
    rfl

end Sys2Proof.Machine

/-! ## The special cases of f32 (O28) -/

namespace Sys2Proof.Machine
open Sys2Proof

/-! ### Words by their fields -/

theorem f32_ext {u v : W32} (hsign : u.getLsbD 31 = v.getLsbD 31) (hexp : f32Exp u = f32Exp v) (hsig : f32Sig u = f32Sig v) : u = v := by
  apply BitVec.eq_of_toNat_eq
  rw [f32_toNat u, f32_toNat v, hsign, hexp, hsig]

/-- A word is known by its sign bit and its other 31 bits. -/
theorem eq_of_low_bits {u : W32} {k : BitVec 31} (h : u.extractLsb' 0 31 = k) :
    u = if u.getLsbD 31 then 0x80000000 + k.zeroExtend 32 else k.zeroExtend 32 := by
  subst h
  apply BitVec.eq_of_toNat_eq
  have := u.isLt
  rw [f32Sign_eq]
  simp only [decide_eq_true_eq]
  split <;> simp [BitVec.extractLsb'_toNat] <;> omega

/-- A magnitude has one significand and quantum. -/
theorem grid_unique {i j y z : Nat} (hy : y < 2 ^ 24) (hz : z < 2 ^ 24) (hi : i = 0 ∨ 2 ^ 23 ≤ y) (hj : j = 0 ∨ 2 ^ 23 ≤ z)
    (h : y * 2 ^ i = z * 2 ^ j) : i = j ∧ y = z := by
  have hle {i j y z : Nat} (hy : y < 2 ^ 24) (hj : j = 0 ∨ 2 ^ 23 ≤ z) (h : y * 2 ^ i = z * 2 ^ j) : j ≤ i := by
    by_contra hlt
    obtain ⟨d, rfl⟩ := Nat.exists_eq_add_of_lt (Nat.lt_of_not_le hlt)
    have hsplit : y = z * 2 ^ d * 2 := by
      apply Nat.eq_of_mul_eq_mul_right (Nat.two_pow_pos i)
      rw [h, pow_succ, pow_add]
      ring
    have := Nat.le_mul_of_pos_right z (Nat.two_pow_pos d)
    omega
  obtain rfl : i = j := le_antisymm (hle hz hi h.symm) (hle hy hj h)
  exact ⟨rfl, Nat.eq_of_mul_eq_mul_right (Nat.two_pow_pos i) h⟩

/-- A finite word is known by its sign and magnitude. -/
theorem f32_eq_of_mag {u v : W32} (hu : f32Finite u) (hv : f32Finite v) (hsign : u.getLsbD 31 = v.getLsbD 31)
    (hmag : f32Mag u = f32Mag v) : u = v := by
  obtain ⟨i, y, hy, hylt, hyu, -⟩ := f32_eq_word hu
  obtain ⟨j, z, hz, hzlt, hzv, -⟩ := f32_eq_word hv
  rw [hyu, hzv, f32Word_mag hy, f32Word_mag hz] at hmag
  obtain ⟨rfl, rfl⟩ := grid_unique hylt hzlt hy.normal hz.normal hmag
  rw [hyu, hzv, hsign]

/-! ### NaNs -/

theorem isNan_decode (u : W32) : (fpF32.decode u.toNat).isNan = true ↔ f32Nan u := by
  rw [decode_f32, f32Nan_iff]
  split
  case isTrue htop =>
    split
    case isTrue hzero => simp [FVal.isNan, hzero]
    case isFalse hne => simp [FVal.isNan, htop, hne]
  case isFalse htop =>
    split <;> simp [FVal.isNan, htop]

theorem isSignalling_decode (u : W32) : (fpF32.decode u.toNat).isSignalling = true ↔ f32Signalling u := by
  rw [f32Signalling, decode_f32, f32Nan_iff]
  split
  case isTrue htop =>
    split
    case isTrue hzero => simp [FVal.isSignalling, hzero]
    case isFalse hne => simp [FVal.isSignalling, htop, hne]
  case isFalse htop =>
    split <;> simp [FVal.isSignalling, htop]

theorem decode_nan {u : W32} (h : f32Nan u) : ∃ q, fpF32.decode u.toNat = .nan q := by
  rw [f32Nan_iff] at h
  obtain ⟨htop, hne⟩ := h
  exact ⟨_, by rw [decode_f32, if_pos htop, if_neg hne]⟩

/-- The NaN of R40, and +0 under sat 2 (R50). -/
theorem nanRes_f32 (sat : Sat) (g : W32) (iv : Bool) :
    nanRes fpF32 sat g iv = ⟨(if sat = .finite then 0 else 0x7FC00000 : W32).toNat, flagIf iv flagIV, g⟩ := by
  cases sat <;> cases iv <;> rfl

section
variable {x : XA} {s : State} {a b c : W32}

/-- An instruction whose element operation gives the NaN answers it, with IV as `iv` says. -/
theorem answersLane_nan {i : Instr} {r : Opnds → Res} {op : EltOp} {iv : Bool} (hty : x.ty = .f32)
    (htrap : trapEnables s.here.fpmode = 0) (h : OneLane s a b c) (hi : computes i = some (x.d, x.ty.code, x.ty.code, r))
    (hr : r (operands s) = runXA x (operands s) op)
    (hop : op a.toNat b.toNat c.toNat (operands s).gen = nanRes fpF32 x.sat (operands s).gen iv) :
    AnswersLane i x s (if x.sat = .finite then 0 else 0x7FC00000) (flagIf iv flagIV) :=
  answersLane_of_op hty htrap h hi hr (hop.trans (nanRes_f32 ..))

theorem arithOp_nan (hty : x.ty = .f32) (mode : Rnd) (iop : Int → Int → Int) (fop : FVal → FVal → Option FVal) {u v : W32}
    (h : f32Nan u ∨ f32Nan v) (k : Nat) (g : W32) : arithOp x mode iop fop u.toNat v.toNat k g =
      nanRes fpF32 x.sat g ((fpF32.decode u.toNat).isSignalling || (fpF32.decode v.toNat).isSignalling) := by
  have hnan : ((fpF32.decode u.toNat).isNan || (fpF32.decode v.toNat).isNan) = true := by
    rwa [Bool.or_eq_true, isNan_decode, isNan_decode]
  rw [arithOp, hty]
  exact if_pos hnan

theorem pickOp_nan (hty : x.ty = .f32) (larger : Bool) {u v : W32} (h : f32Nan u ∨ f32Nan v) (k : Nat) (g : W32) :
    pickOp x larger u.toNat v.toNat k g =
      nanRes fpF32 x.sat g ((fpF32.decode u.toNat).isSignalling || (fpF32.decode v.toNat).isSignalling) := by
  have hnan : ((fpF32.decode u.toNat).isNan || (fpF32.decode v.toNat).isNan) = true := by
    rwa [Bool.or_eq_true, isNan_decode, isNan_decode]
  rw [pickOp, hty]
  exact if_pos hnan

/-- A NaN operand of the two-operand instructions (R312, R52). -/
theorem pair_nan {u v : W32} (hty : x.ty = .f32) (htrap : trapEnables s.here.fpmode = 0) (hpair : F32Pair s u v)
    (h : f32Nan u ∨ f32Nan v) {i : Instr} (hi : i ∈ [Instr.add x, .sub x, .mul x, .min x, .max x]) :
    AnswersLane i x s (if x.sat = .finite then 0 else 0x7FC00000)
      (flagIf ((fpF32.decode u.toNat).isSignalling || (fpF32.decode v.toNat).isSignalling) flagIV) := by
  have hlane := OneLane.of_pair hpair
  simp only [List.mem_cons, List.not_mem_nil, or_false] at hi
  obtain rfl | rfl | rfl | rfl | rfl := hi
  · exact answersLane_nan hty htrap hlane rfl rfl (arithOp_nan hty _ _ _ h _ _)
  · exact answersLane_nan hty htrap hlane rfl rfl (arithOp_nan hty _ _ _ h _ _)
  · exact answersLane_nan hty htrap hlane rfl rfl (arithOp_nan hty _ _ _ h _ _)
  · exact answersLane_nan hty htrap hlane rfl rfl (pickOp_nan hty _ h _ _)
  · exact answersLane_nan hty htrap hlane rfl rfl (pickOp_nan hty _ h _ _)

end

/-! ### One-operand instructions by the value of their operand -/

section
variable {x : XA} {s : State} {u w : W32} {fl : FpFlags} (hty : x.ty = .f32) (htrap : trapEnables s.here.fpmode = 0)
  (hone : F32One s u)
include hty htrap hone

theorem answersLane_of_unary {i : Instr} {r : Opnds → Res} {f : Nat → W32 → FVal → EltRes} {v : FVal}
    (hi : computes i = some (x.d, x.ty.code, x.ty.code, r))
    (hr : r (operands s) = runXA x (operands s) fun a _ _ g => f a g ((fparam x.ty).decode a)) (hv : fpF32.decode u.toNat = v)
    (hf : f u.toNat (operands s).gen v = ⟨w.toNat, fl, (operands s).gen⟩) : AnswersLane i x s w fl := by
  refine answersLane_of_op hty htrap (OneLane.of_one hone) hi hr ?_
  rw [hty]
  exact (congrArg (f _ _) hv).trans hf

theorem answersLane_rcp {v : FVal} (hv : fpF32.decode u.toNat = v)
    (hf : rcpElt .f32 x.sat (operands s).gen v = ⟨w.toNat, fl, (operands s).gen⟩) : AnswersLane (.rcp x) x s w fl :=
  answersLane_of_unary hty htrap hone rfl rfl (f := fun _ g v => rcpElt x.ty x.sat g v) hv (by rw [hty]; exact hf)

theorem answersLane_rsq {v : FVal} (hv : fpF32.decode u.toNat = v)
    (hf : rsqElt .f32 x.sat (operands s).gen v = ⟨w.toNat, fl, (operands s).gen⟩) : AnswersLane (.rsq x) x s w fl :=
  answersLane_of_unary hty htrap hone rfl rfl (f := fun _ g v => rsqElt x.ty x.sat g v) hv (by rw [hty]; exact hf)

theorem answersLane_exp2 {v : FVal} (hv : fpF32.decode u.toNat = v)
    (hf : exp2Elt .f32 (effRnd x.rnd (operands s).mode) x.sat (operands s).gen u.toNat v = ⟨w.toNat, fl, (operands s).gen⟩) :
    AnswersLane (.exp2 x) x s w fl :=
  answersLane_of_unary hty htrap hone rfl rfl (f := fun a g v => exp2Elt x.ty (effRnd x.rnd (operands s).mode) x.sat g a v) hv
    (by rw [hty]; exact hf)

theorem answersLane_log2 {v : FVal} (hv : fpF32.decode u.toNat = v)
    (hf : log2Elt .f32 (effRnd x.rnd (operands s).mode) x.sat (operands s).gen u.toNat v = ⟨w.toNat, fl, (operands s).gen⟩) :
    AnswersLane (.log2 x) x s w fl :=
  answersLane_of_unary hty htrap hone rfl rfl (f := fun a g v => log2Elt x.ty (effRnd x.rnd (operands s).mode) x.sat g a v) hv
    (by rw [hty]; exact hf)

theorem answersLane_tanh {v : FVal} (hv : fpF32.decode u.toNat = v)
    (hf : tanhElt .f32 (effRnd x.rnd (operands s).mode) (operands s).gen u.toNat v = ⟨w.toNat, fl, (operands s).gen⟩) :
    AnswersLane (.tanh x) x s w fl :=
  answersLane_of_unary hty htrap hone rfl rfl (f := fun a g v => tanhElt x.ty (effRnd x.rnd (operands s).mode) g a v) hv
    (by rw [hty]; exact hf)

omit htrap hone in
/-- NEG and ABS give a NaN canonically (R312). -/
theorem signOp_nan {a : Nat} {q : Bool} (hv : fpF32.decode a = .nan q) (neg : Bool) (b c : Nat) (g : W32) :
    signOp x neg a b c g = nanRes fpF32 x.sat g q := by
  have hf32 : fparam .f32 = fpF32 := rfl
  have hint : Fmt.f32.isInt = false := rfl
  simp only [signOp, hty, hf32, hint, hv, Bool.false_eq_true, if_false]

omit htrap hone in
/-- NEG and ABS set the sign of a finite value (R313, R372). -/
theorem signOp_fin {a m : Nat} {n : Bool} {e : Int} (hv : fpF32.decode a = .fin n m e) (neg : Bool) (b c : Nat) (g : W32) :
    signOp x neg a b c g = ⟨fpF32.encode (.fin (neg && !n) m e), 0, g⟩ := by
  have hf32 : fparam .f32 = fpF32 := rfl
  have hint : Fmt.f32.isInt = false := rfl
  simp only [signOp, hty, hf32, hint, hv, Bool.false_eq_true, if_false]
  cases neg <;> rfl

omit htrap hone in
/-- NEG and ABS set the sign of an infinity that the format keeps (R313, R372). -/
theorem signOp_inf {a : Nat} {n : Bool} (hv : fpF32.decode a = .inf n) (hsat : x.sat ≠ .finite) (neg : Bool) (b c : Nat) (g : W32) :
    signOp x neg a b c g = ⟨(if neg && !n then 0xFF800000 else 0x7F800000 : W32).toNat, 0, g⟩ := by
  have hf32 : fparam .f32 = fpF32 := rfl
  have hint : Fmt.f32.isInt = false := rfl
  have hbits (b : Bool) : satBits fpF32 x.sat (.inf b) false = ((if b then 0xFF800000 else 0x7F800000 : W32).toNat, 0) := by
    cases hx : x.sat
    case finite => exact absurd hx hsat
    all_goals cases b <;> rfl
  simp only [signOp, hty, hf32, hint, hv, Bool.false_eq_true, if_false]
  cases neg
  · exact congrArg (fun p : Nat × FpFlags => EltRes.mk p.1 p.2 g) (hbits false)
  · exact congrArg (fun p : Nat × FpFlags => EltRes.mk p.1 p.2 g) (hbits !n)

/-- A NaN operand of the one-operand instructions (R312, R313, R340, R386). -/
theorem one_nan (h : f32Nan u) {i : Instr} (hi : i ∈ [Instr.neg x, .abs x, .rcp x, .rsq x, .exp2 x, .log2 x]) :
    AnswersLane i x s (if x.sat = .finite then 0 else 0x7FC00000) (flagIf (fpF32.decode u.toNat).isSignalling flagIV) := by
  obtain ⟨q, hq⟩ := decode_nan h
  have hnan := nanRes_f32 x.sat (operands s).gen q
  rw [hq]
  simp only [List.mem_cons, List.not_mem_nil, or_false] at hi
  obtain rfl | rfl | rfl | rfl | rfl | rfl := hi
  · exact answersLane_nan hty htrap (OneLane.of_one hone) rfl rfl (signOp_nan hty hq ..)
  · exact answersLane_nan hty htrap (OneLane.of_one hone) rfl rfl (signOp_nan hty hq ..)
  · exact answersLane_rcp hty htrap hone hq hnan
  · exact answersLane_rsq hty htrap hone hq hnan
  · exact answersLane_exp2 hty htrap hone hq hnan
  · exact answersLane_log2 hty htrap hone hq hnan

end

end Sys2Proof.Machine

namespace Sys2Proof.Machine
open Sys2Proof

/-! ### Exact results -/

theorem fine_eq_of_mag {u : W32} {neg : Bool} {n : Nat} (hsign : u.getLsbD 31 = neg) (hmag : f32Mag u * 2 ^ 149 = n) :
    f32Fine u = signed neg n := by rw [f32Fine_eq, hsign, hmag]

/-- A value that the format holds is its own rounding, without a flag (R48). -/
theorem IsRounded.eq_of_exact {mode : Rnd} {neg : Bool} {n : Nat} {w t : W32} {fl : FpFlags} (h : IsRounded mode neg n w fl)
    (ht : f32Finite t) (hsign : t.getLsbD 31 = neg) (hmag : f32Mag t * 2 ^ 149 = n) : w = t ∧ fl = 0 := by
  have hfine := fine_eq_of_mag hsign hmag
  obtain ⟨⟨hfin, -, hrounds⟩, hwsign, hnx, hexact, -, -, -⟩ := h
  have habs : (f32Fine w).natAbs = (f32Fine t).natAbs := by
    rw [← hfine] at hrounds
    cases mode
    case sto => exact hrounds.elim
    case rtz => exact le_antisymm hrounds.1 (hrounds.2 t ht le_rfl)
    case rup => exact congrArg _ (le_antisymm (hrounds.2 t ht le_rfl) hrounds.1)
    case rdn => exact congrArg _ (le_antisymm hrounds.1 (hrounds.2 t ht le_rfl))
    all_goals
      have hoff : (f32Fine w - f32Fine t).natAbs ≤ (f32Fine t - f32Fine t).natAbs := (hrounds t ht).1
      rw [sub_self, Int.natAbs_zero, Nat.le_zero, Int.natAbs_eq_zero, sub_eq_zero] at hoff
      rw [hoff]
  obtain rfl : w = t := by
    refine f32_eq_of_mag hfin ht (hwsign.trans hsign.symm) ?_
    rw [f32Fine_eq, f32Fine_eq, signed_natAbs, signed_natAbs] at habs
    exact Nat.eq_of_mul_eq_mul_right (Nat.two_pow_pos 149) habs
  refine ⟨rfl, hexact ?_⟩
  rw [← Bool.not_eq_true, hnx, not_not, hfine]

/-- The powers of two that f32 holds as normal values. -/
theorem onGrid_pow2 {j : Nat} (hj : j ≤ 253) : OnGrid j (2 ^ 23) :=
  ⟨by decide, .inr le_rfl, Nat.mul_le_mul (by decide) (Nat.pow_le_pow_right (by decide) hj)⟩

/-- A power of two is exact (R340). -/
theorem roundSat_pow2 {mode : Rnd} (hmode : mode ≠ .sto) (sat : Sat) (g : W32) {n : Int} (hlow : -126 ≤ n) (hhigh : n ≤ 127) :
    roundSat fpF32 mode sat g (.fin false 1 n) = ⟨(BitVec.ofNat 32 ((n + 127).toNat * 2 ^ 23)).toNat, 0, g⟩ := by
  have hgrid : OnGrid (n + 126).toNat (2 ^ 23) := onGrid_pow2 (by omega)
  have hword : f32Word false (n + 126).toNat (2 ^ 23) = BitVec.ofNat 32 ((n + 127).toNat * 2 ^ 23) := by
    rw [f32Word, if_neg Bool.false_ne_true, show (n + 127).toNat = (n + 126).toNat + 1 by omega]
    congr 1
    omega
  have hmag : f32Mag (f32Word false (n + 126).toNat (2 ^ 23)) * 2 ^ 149 = 1 * 2 ^ (n + 298).toNat := by
    rw [f32Word_mag hgrid, ← pow_add, ← pow_add, Nat.one_mul, show 23 + (n + 126).toNat + 149 = (n + 298).toNat by omega]
  have hrange : 1 * 2 ^ (n + 298).toNat ≤ (2 ^ 24 - 1) * 2 ^ 253 * 2 ^ 149 := by
    rw [← hmag, f32Word_mag hgrid]
    exact Nat.mul_le_mul_right _ hgrid.range
  obtain ⟨w, fl, heq, hw⟩ := roundSat_f32 hmode sat g false 1 (e := n) (by omega) hrange
  obtain ⟨rfl, rfl⟩ := hw.eq_of_exact (f32Word_finite hgrid false) (f32Word_sign hgrid false) hmag
  rw [heq, hword]

/-- A small whole number is a magnitude of the grid. -/
theorem exists_onGrid {k : Nat} (hk : k < 2 ^ 24) : ∃ j y, OnGrid j y ∧ y * 2 ^ j = k * 2 ^ 149 := by
  by_cases hzero : k = 0
  · exact ⟨0, 0, ⟨Nat.zero_le _, .inl rfl, Nat.zero_le _⟩, by rw [hzero, Nat.zero_mul, Nat.zero_mul]⟩
  · have hlen := bitLen_le hk
    have hpos := bitLen_pos hzero
    have hlow := two_pow_le_of_ne_zero hzero
    have hhigh := lt_two_pow_bitLen k
    have hval : k * 2 ^ (24 - bitLen k) * 2 ^ (125 + bitLen k) = k * 2 ^ 149 := by
      rw [Nat.mul_assoc, ← pow_add, show 24 - bitLen k + (125 + bitLen k) = 149 by omega]
    refine ⟨125 + bitLen k, k * 2 ^ (24 - bitLen k), ⟨?_, .inr ?_, ?_⟩, hval⟩
    · calc k * 2 ^ (24 - bitLen k) ≤ 2 ^ bitLen k * 2 ^ (24 - bitLen k) := Nat.mul_le_mul_right _ hhigh.le
        _ = 2 ^ 24 := by rw [← pow_add, Nat.add_sub_cancel' hlen]
    · calc 2 ^ 23 = 2 ^ (bitLen k - 1) * 2 ^ (24 - bitLen k) := by rw [← pow_add, show bitLen k - 1 + (24 - bitLen k) = 23 by omega]
        _ ≤ k * 2 ^ (24 - bitLen k) := Nat.mul_le_mul_right _ hlow
    · rw [hval]
      exact Nat.mul_le_mul (by omega) (Nat.pow_le_pow_right (by decide) (by decide))

/-- A small whole number is exact (R340). -/
theorem roundSat_whole {mode : Rnd} (hmode : mode ≠ .sto) (sat : Sat) (g : W32) {k : Int} (hk : k.natAbs < 2 ^ 24) :
    ∃ w, f32Finite w ∧ f32Units w = k * 2 ^ 149 ∧ roundSat fpF32 mode sat g (ofScaled k 0 false) = ⟨w.toNat, 0, g⟩ := by
  obtain ⟨j, y, hgrid, hval⟩ := exists_onGrid hk
  have hfine : IsFine (ofScaled k 0 false) (k * 2 ^ 149 * 2 ^ 149) := by
    have := isFine_ofScaled k (q := 0) (by omega) false
    rwa [show ((0 : Int) + 298).toNat = 149 + 149 by rfl, pow_add, ← Int.mul_assoc] at this
  have habs : (k * 2 ^ 149 * 2 ^ 149).natAbs = y * 2 ^ j * 2 ^ 149 := by
    rw [hval, Int.natAbs_mul, Int.natAbs_mul, Int.natAbs_pow]
    rfl
  have hrange : (k * 2 ^ 149 * 2 ^ 149).natAbs ≤ (f32Fine 0x7F7FFFFF).natAbs := by
    rw [f32Fine_largest, habs]
    exact Nat.mul_le_mul_right _ hgrid.range
  obtain ⟨w, fl, neg, n, heq, hw, hn⟩ := hfine.roundSat hmode sat g hrange
  have hmag : f32Mag (f32Word neg j y) * 2 ^ 149 = n := by
    rw [f32Word_mag hgrid, ← habs, ← hn, signed_natAbs]
  obtain ⟨rfl, rfl⟩ := hw.eq_of_exact (f32Word_finite hgrid neg) (f32Word_sign hgrid neg) hmag
  refine ⟨_, f32Word_finite hgrid neg, ?_, heq⟩
  have hunits := fine_eq_of_mag (f32Word_sign hgrid neg) hmag
  rw [hn, f32Fine] at hunits
  exact Int.eq_of_mul_eq_mul_right (pow_ne_zero 149 (by decide)) hunits

/-- A whole number below 2^7 in magnitude, as a significand of f32: it is a multiple of the significand's unit. -/
theorem whole_significand {j y k : Nat} (hnormal : j = 0 ∨ 2 ^ 23 ≤ y) (hpos : 0 < k) (hk : k < 2 ^ 7) (h : y * 2 ^ j = k * 2 ^ 149) :
    j < 149 ∧ y = k * 2 ^ (149 - j) := by
  have hj : j < 149 := by
    by_contra hge
    obtain ⟨d, rfl⟩ := Nat.exists_eq_add_of_le (Nat.le_of_not_lt hge)
    have hy : y * 2 ^ d = k := by
      apply Nat.eq_of_mul_eq_mul_right (Nat.two_pow_pos 149)
      rw [← h, pow_add]
      ring
    have := Nat.le_mul_of_pos_right y (Nat.two_pow_pos d)
    omega
  refine ⟨hj, Nat.eq_of_mul_eq_mul_right (Nat.two_pow_pos j) ?_⟩
  rw [h, Nat.mul_assoc, ← pow_add, Nat.sub_add_cancel hj.le]

/-- EXP2 of zero is 2^0. -/
theorem exp2Elt_zero (mode : Rnd) (sat : Sat) (g : W32) (bits : Nat) (neg : Bool) (e : Int) :
    exp2Elt .f32 mode sat g bits (.fin neg 0 e) = roundSat fpF32 mode sat g (.fin false 1 0) := rfl

/-- EXP2 of a whole number whose significand has a fraction part of zeros alone is a power of two. -/
theorem exp2Elt_of_whole (mode : Rnd) (sat : Sat) (g : W32) (bits : Nat) (neg : Bool) {k d : Nat} (hpos : 0 < k) (hk : k < 2 ^ 7)
    (hd : 0 < d) : exp2Elt .f32 mode sat g bits (.fin neg (k * 2 ^ d) (-d)) =
      roundSat fpF32 mode sat g (.fin false 1 (if neg then -(k : Int) else k)) := by
  have hlen : bitLen (k * 2 ^ d) ≤ 7 + d := bitLen_le (by rw [pow_add]; exact Nat.mul_lt_mul_of_pos_right hk (Nat.two_pow_pos d))
  have hpow : pow2 (-(-(d : Int))) = 2 ^ d := by rw [pow2, neg_neg, Int.toNat_natCast]
  have hne : k * 2 ^ d ≠ 0 := (Nat.mul_pos hpos (Nat.two_pow_pos d)).ne'
  simp only [exp2Elt]
  rw [if_neg hne, if_neg (by omega), if_neg (by omega), hpow, Nat.mul_mod_left, if_pos rfl, Nat.mul_div_cancel _ (Nat.two_pow_pos d)]
  rfl

/-- EXP2 of a whole number within the normal exponents (R340). -/
theorem exp2Elt_whole {mode : Rnd} (hmode : mode ≠ .sto) (sat : Sat) (g : W32) (bits : Nat) {u : W32} {n : Int} (hu : f32Finite u)
    (hunits : f32Units u = n * 2 ^ 149) (hlow : -126 ≤ n) (hhigh : n ≤ 127) :
    exp2Elt .f32 mode sat g bits (fpF32.decode u.toNat) = ⟨(BitVec.ofNat 32 ((n + 127).toNat * 2 ^ 23)).toNat, 0, g⟩ := by
  obtain ⟨j, y, hgrid, -, hword, hdec⟩ := f32_eq_word hu
  have hmag : f32Mag u = y * 2 ^ j := by rw [hword, f32Word_mag hgrid]
  rw [f32Units_eq] at hunits
  have hy : y * 2 ^ j = n.natAbs * 2 ^ 149 := by
    rw [← hmag, ← signed_natAbs (u.getLsbD 31) (f32Mag u), hunits, Int.natAbs_mul]
    rfl
  rw [hdec, ← roundSat_pow2 hmode sat g hlow hhigh]
  by_cases hn : n = 0
  · subst hn
    obtain rfl : y = 0 := by
      have := Nat.two_pow_pos j
      rw [Int.natAbs_zero, Nat.zero_mul] at hy
      exact (Nat.mul_eq_zero.1 hy).resolve_right this.ne'
    exact exp2Elt_zero ..
  · obtain ⟨hj, rfl⟩ := whole_significand hgrid.normal (by omega) (by omega) hy
    rw [show (j : Int) - 149 = -((149 - j : Nat) : Int) by omega, exp2Elt_of_whole _ _ _ _ _ (by omega) (by omega) (by omega)]
    have hsign : (if u.getLsbD 31 then -(n.natAbs : Int) else n.natAbs) = n := by
      have hval : signed (u.getLsbD 31) n.natAbs * 2 ^ 149 = n * 2 ^ 149 := by
        rw [← hunits, hmag, hy, ← signed_mul]
        rfl
      exact Int.eq_of_mul_eq_mul_right (pow_ne_zero 149 (by decide)) hval
    rw [hsign]

/-- LOG2 of a power of two is its exponent. -/
theorem log2Elt_of_pow2 (mode : Rnd) (sat : Sat) (g : W32) (bits : Nat) (e : Int) :
    log2Elt .f32 mode sat g bits (.fin false (2 ^ 23) e) = roundSat fpF32 mode sat g (ofScaled (e + 23) 0 false) := by
  have hlen : bitLen (2 ^ 23) = 24 := bitLen_eq le_rfl (by decide)
  simp only [log2Elt]
  rw [if_neg (by decide), if_neg Bool.false_ne_true, hlen, if_pos rfl, show e + (24 : Nat) - 1 = e + 23 by omega]
  rfl

/-- LOG2 of a power of two (R340). -/
theorem log2Elt_pow2 {mode : Rnd} (hmode : mode ≠ .sto) (sat : Sat) (g : W32) (bits : Nat) {n : Nat} (hlow : 1 ≤ n)
    (hhigh : n ≤ 254) :
    ∃ w, f32Finite w ∧ f32Units w = ((n : Int) - 127) * 2 ^ 149 ∧
      log2Elt .f32 mode sat g bits (fpF32.decode (BitVec.ofNat 32 (n * 2 ^ 23)).toNat) = ⟨w.toNat, 0, g⟩ := by
  obtain ⟨w, hfin, hunits, hround⟩ := roundSat_whole hmode sat g (k := (n : Int) - 127) (by omega)
  refine ⟨w, hfin, hunits, ?_⟩
  have hnat : (BitVec.ofNat 32 (n * 2 ^ 23)).toNat = n * 2 ^ 23 := by
    rw [BitVec.toNat_ofNat]
    omega
  have hdec : fpF32.decode (BitVec.ofNat 32 (n * 2 ^ 23)).toNat = .fin false (2 ^ 23) ((n : Int) - 150) := by
    have hexp : f32Exp (BitVec.ofNat 32 (n * 2 ^ 23)) = n := by rw [f32Exp_eq, hnat]; omega
    have hsig : f32Sig (BitVec.ofNat 32 (n * 2 ^ 23)) = 0 := by rw [f32Sig_eq, hnat]; omega
    have hsign : (BitVec.ofNat 32 (n * 2 ^ 23)).getLsbD 31 = false := by
      rw [f32Sign_eq, hnat, decide_eq_false_iff_not]
      omega
    rw [decode_f32, hexp, hsig, hsign, if_neg (by omega), if_neg (by omega), Nat.zero_add]
  rw [hdec, log2Elt_of_pow2, show (n : Int) - 150 + 23 = n - 127 by omega, hround]

end Sys2Proof.Machine

namespace Sys2Proof.Machine
open Sys2Proof

/-! ### Zeros and infinities -/

theorem f32_zero_cases {u : W32} (h : u.extractLsb' 0 31 = 0) : u = 0 ∨ u = 0x80000000 := by
  have := eq_of_low_bits h
  split at this
  · exact .inr this
  · exact .inl this

theorem f32_inf_cases {u : W32} (h : u.extractLsb' 0 31 = 0x7F800000) : u = 0x7F800000 ∨ u = 0xFF800000 := by
  have := eq_of_low_bits h
  split at this
  · exact .inr this
  · exact .inl this

theorem decode_zero {u : W32} (h : u.extractLsb' 0 31 = 0) : fpF32.decode u.toNat = .fin (u.getLsbD 31) 0 (-149) := by
  obtain rfl | rfl := f32_zero_cases h <;> rfl

theorem decode_inf {u : W32} (h : u.extractLsb' 0 31 = 0x7F800000) : fpF32.decode u.toNat = .inf (u.getLsbD 31) := by
  obtain rfl | rfl := f32_inf_cases h <;> rfl

theorem isNan_of_decode_inf {u : W32} (h : u.extractLsb' 0 31 = 0x7F800000) : (fpF32.decode u.toNat).isNan = false := by
  rw [decode_inf h]
  rfl

/-- The infinity of a sign through `Sat` (R50). -/
theorem satBits_inf (sat : Sat) (neg : Bool) : satBits fpF32 sat (.inf neg) false =
    (((if neg then 0x80000000 else 0) ||| if sat = .finite then 0x7F7FFFFF else 0x7F800000 : W32).toNat, 0) := by
  cases sat <;> cases neg <;> rfl

theorem sign_and (u : W32) : u &&& 0x80000000 = if u.getLsbD 31 then 0x80000000 else 0 := by
  apply f32_ext
  · rw [BitVec.getLsbD_and, show (0x80000000 : W32).getLsbD 31 = true by decide, Bool.and_true]
    cases u.getLsbD 31 <;> rfl
  · rw [f32Exp, BitVec.extractLsb'_and, show BitVec.extractLsb' 23 8 (0x80000000 : W32) = 0#_ by decide, BitVec.and_zero]
    cases u.getLsbD 31 <;> rfl
  · rw [f32Sig, BitVec.extractLsb'_and, show BitVec.extractLsb' 0 23 (0x80000000 : W32) = 0#_ by decide, BitVec.and_zero]
    cases u.getLsbD 31 <;> rfl

/-- The word of the other sign. -/
theorem flip_f32Word {j y : Nat} (h : OnGrid j y) (neg : Bool) : f32Word neg j y ^^^ 0x80000000 = f32Word (!neg) j y := by
  apply f32_ext
  · rw [f32Sign_flip, f32Word_sign h, f32Word_sign h]
  · rw [f32Exp_flip, f32Word_exp h, f32Word_exp h]
  · rw [f32Sig_flip, f32Word_sig h, f32Word_sig h]

/-- The word of the positive sign. -/
theorem magnitude_f32Word {j y : Nat} (h : OnGrid j y) (neg : Bool) : f32Word neg j y &&& 0x7FFFFFFF = f32Word false j y := by
  apply f32_ext
  · rw [BitVec.getLsbD_and, f32Word_sign h neg, f32Word_sign h false, show (0x7FFFFFFF : W32).getLsbD 31 = false by decide, Bool.and_false]
  · rw [f32Exp, BitVec.extractLsb'_and, show BitVec.extractLsb' 23 8 (0x7FFFFFFF : W32) = BitVec.allOnes 8 by decide, BitVec.and_allOnes,
      ← f32Exp, f32Word_exp h, f32Word_exp h]
  · rw [f32Sig, BitVec.extractLsb'_and, show BitVec.extractLsb' 0 23 (0x7FFFFFFF : W32) = BitVec.allOnes 23 by decide,
      BitVec.and_allOnes, ← f32Sig, f32Word_sig h, f32Word_sig h]

theorem fadd_inf_inf (mode : Rnd) {a b : Bool} (h : a ≠ b) : fadd mode (.inf a) (.inf b) = none := if_neg h

section
variable {x : XA} {s : State} {u v : W32} (hty : x.ty = .f32) (htrap : trapEnables s.here.fpmode = 0)

section
include hty

/-- An operation without a value gives the NaN with IV (R312, R52). -/
theorem arithOp_none (mode : Rnd) (iop : Int → Int → Int) {fop : FVal → FVal → Option FVal}
    (hu : (fpF32.decode u.toNat).isNan = false) (hv : (fpF32.decode v.toNat).isNan = false)
    (hnone : fop (fpF32.decode u.toNat) (fpF32.decode v.toNat) = none) (k : Nat) (g : W32) :
    arithOp x mode iop fop u.toNat v.toNat k g = nanRes fpF32 x.sat g true := by
  have hf32 : fparam .f32 = fpF32 := rfl
  have hint : Fmt.f32.isInt = false := rfl
  simp only [arithOp, hty, hf32, hint, hu, hv, hnone, Bool.or_false, Bool.false_eq_true, if_false]

end

include hty htrap

/-- ∞ − ∞ (R52). -/
theorem pair_inf (hpair : F32Pair s u v) (hu : u.extractLsb' 0 31 = 0x7F800000) (hv : v.extractLsb' 0 31 = 0x7F800000) :
    (u.getLsbD 31 ≠ v.getLsbD 31 → AnswersLane (.add x) x s (if x.sat = .finite then 0 else 0x7FC00000) flagIV) ∧
      (u.getLsbD 31 = v.getLsbD 31 → AnswersLane (.sub x) x s (if x.sat = .finite then 0 else 0x7FC00000) flagIV) := by
  have hlane := OneLane.of_pair hpair
  have hop (mode : Rnd) (iop : Int → Int → Int) {fop : FVal → FVal → Option FVal}
      (hnone : fop (.inf (u.getLsbD 31)) (.inf (v.getLsbD 31)) = none) (k : Nat) (g : W32) :
      arithOp x mode iop fop u.toNat v.toNat k g = nanRes fpF32 x.sat g true :=
    arithOp_none hty mode iop (isNan_of_decode_inf hu) (isNan_of_decode_inf hv) (by rw [decode_inf hu, decode_inf hv, hnone]) k g
  constructor
  · intro hne
    exact answersLane_nan (iv := true) hty htrap hlane rfl rfl (hop _ _ (fadd_inf_inf _ hne) _ _)
  · intro heq
    have hne : u.getLsbD 31 ≠ !v.getLsbD 31 := by
      rw [heq]
      cases v.getLsbD 31 <;> decide
    exact answersLane_nan (iv := true) hty htrap hlane rfl rfl (hop (fop := fun u v => fadd _ u v.negate) _ _ (fadd_inf_inf _ hne) _ _)

/-- 0 × ∞ (R52). -/
theorem pair_zero_inf (hpair : F32Pair s u v) (hu : u.extractLsb' 0 31 = 0) (hv : v.extractLsb' 0 31 = 0x7F800000) :
    AnswersLane (.mul x) x s (if x.sat = .finite then 0 else 0x7FC00000) flagIV := by
  have hnan : (fpF32.decode u.toNat).isNan = false := by
    rw [decode_zero hu]
    rfl
  have hnone : fmul (fpF32.decode u.toNat) (fpF32.decode v.toNat) = none := by
    rw [decode_zero hu, decode_inf hv]
    rfl
  exact answersLane_nan (iv := true) hty htrap (OneLane.of_pair hpair) rfl rfl
    (arithOp_none hty _ _ hnan (isNan_of_decode_inf hv) hnone _ _)

variable (hone : F32One s u)
include hone

/-- NEG and ABS of a finite number (R313, R372). -/
theorem sign_finite (hu : f32Finite u) :
    AnswersLane (.neg x) x s (u ^^^ 0x80000000) 0 ∧ AnswersLane (.abs x) x s (u &&& 0x7FFFFFFF) 0 := by
  obtain ⟨j, y, hgrid, -, hword, hdec⟩ := f32_eq_word hu
  constructor
  · refine answersLane_of_op hty htrap (OneLane.of_one hone) rfl rfl ((signOp_fin hty hdec true _ _ _).trans ?_)
    rw [hword, flip_f32Word hgrid, f32Word_sign hgrid, hgrid.encode, Bool.true_and]
  · refine answersLane_of_op hty htrap (OneLane.of_one hone) rfl rfl ((signOp_fin hty hdec false _ _ _).trans ?_)
    rw [hword, magnitude_f32Word hgrid, hgrid.encode, Bool.false_and]

/-- NEG and ABS of an infinity (R313, R372). -/
theorem sign_inf (hu : u.extractLsb' 0 31 = 0x7F800000) (hsat : x.sat ≠ .finite) :
    AnswersLane (.neg x) x s (u ^^^ 0x80000000) 0 ∧ AnswersLane (.abs x) x s (u &&& 0x7FFFFFFF) 0 := by
  have hdec := decode_inf hu
  constructor
  · refine answersLane_of_op hty htrap (OneLane.of_one hone) rfl rfl ((signOp_inf hty hdec hsat true _ _ _).trans ?_)
    obtain rfl | rfl := f32_inf_cases hu <;> rfl
  · refine answersLane_of_op hty htrap (OneLane.of_one hone) rfl rfl ((signOp_inf hty hdec hsat false _ _ _).trans ?_)
    obtain rfl | rfl := f32_inf_cases hu <;> rfl

/-- The one-operand instructions at a zero (R340, R386, R414). -/
theorem one_zero (hu : u.extractLsb' 0 31 = 0) :
    AnswersLane (.rcp x) x s ((u &&& 0x80000000) ||| if x.sat = .finite then 0x7F7FFFFF else 0x7F800000) flagDZ ∧
      AnswersLane (.rsq x) x s ((u &&& 0x80000000) ||| if x.sat = .finite then 0x7F7FFFFF else 0x7F800000) flagDZ ∧
      AnswersLane (.log2 x) x s (0x80000000 ||| if x.sat = .finite then 0x7F7FFFFF else 0x7F800000) flagDZ ∧
      (effRnd x.rnd (operands s).mode ≠ .sto → AnswersLane (.exp2 x) x s 0x3F800000 0) ∧
      AnswersLane (.tanh x) x s u 0 := by
  have hdec := decode_zero hu
  have hinf (neg : Bool) : EltRes.mk (satBits fpF32 x.sat (.inf neg) false).1 ((satBits fpF32 x.sat (.inf neg) false).2 ||| flagDZ)
      (operands s).gen = ⟨((if neg then 0x80000000 else 0) ||| if x.sat = .finite then 0x7F7FFFFF else 0x7F800000 : W32).toNat, flagDZ,
        (operands s).gen⟩ := by
    rw [satBits_inf]
    exact congrArg (fun f => EltRes.mk _ f _) BitVec.zero_or
  rw [sign_and]
  refine ⟨answersLane_rcp hty htrap hone hdec (hinf _), answersLane_rsq hty htrap hone hdec (hinf _),
    answersLane_log2 hty htrap hone hdec (hinf true), fun hmode => ?_, answersLane_tanh hty htrap hone hdec ?_⟩
  · exact answersLane_exp2 hty htrap hone hdec (roundSat_pow2 hmode x.sat _ (n := 0) (by decide) (by decide))
  · obtain rfl | rfl := f32_zero_cases hu <;> rfl

/-- The one-operand instructions at an infinity (R340, R386, R414). -/
theorem one_inf (hu : u.extractLsb' 0 31 = 0x7F800000) :
    AnswersLane (.rcp x) x s (u &&& 0x80000000) 0 ∧ AnswersLane (.tanh x) x s ((u &&& 0x80000000) ||| 0x3F800000) 0 ∧
      (u.getLsbD 31 = false → AnswersLane (.rsq x) x s 0 0 ∧
        AnswersLane (.exp2 x) x s (if x.sat = .finite then 0x7F7FFFFF else 0x7F800000) 0 ∧
        AnswersLane (.log2 x) x s (if x.sat = .finite then 0x7F7FFFFF else 0x7F800000) 0) ∧
      (u.getLsbD 31 = true → AnswersLane (.rsq x) x s (if x.sat = .finite then 0 else 0x7FC00000) flagIV ∧
        AnswersLane (.exp2 x) x s 0 0 ∧ AnswersLane (.log2 x) x s (if x.sat = .finite then 0 else 0x7FC00000) flagIV) := by
  have hdec := decode_inf hu
  have hnan := nanRes_f32 x.sat (operands s).gen true
  have hround : roundSat fpF32 (effRnd x.rnd (operands s).mode) x.sat (operands s).gen (.inf false) =
      ⟨(if x.sat = .finite then 0x7F7FFFFF else 0x7F800000 : W32).toNat, 0, (operands s).gen⟩ := by
    change EltRes.mk (satBits fpF32 x.sat (.inf false) false).1 (satBits fpF32 x.sat (.inf false) false).2 (operands s).gen = _
    rw [satBits_inf]
    exact congrArg (fun w : W32 => EltRes.mk w.toNat 0 _) BitVec.zero_or
  refine ⟨answersLane_rcp hty htrap hone hdec ?_, answersLane_tanh hty htrap hone hdec ?_, fun hpos => ?_, fun hneg => ?_⟩
  · obtain rfl | rfl := f32_inf_cases hu <;> rfl
  · obtain rfl | rfl := f32_inf_cases hu <;> rfl
  · rw [hpos] at hdec
    exact ⟨answersLane_rsq hty htrap hone hdec rfl, answersLane_exp2 hty htrap hone hdec hround,
      answersLane_log2 hty htrap hone hdec hround⟩
  · rw [hneg] at hdec
    exact ⟨answersLane_rsq hty htrap hone hdec hnan, answersLane_exp2 hty htrap hone hdec rfl,
      answersLane_log2 hty htrap hone hdec hnan⟩

/-- RSQ and LOG2 of a negative number (R340, R386). -/
theorem one_negative (hu : f32Finite u) (hneg : f32Units u < 0) :
    AnswersLane (.rsq x) x s (if x.sat = .finite then 0 else 0x7FC00000) flagIV ∧
      AnswersLane (.log2 x) x s (if x.sat = .finite then 0 else 0x7FC00000) flagIV := by
  obtain ⟨m, e, hdec, -, hmag⟩ := decode_f32_finite hu
  have hnan := nanRes_f32 x.sat (operands s).gen true
  rw [f32Units_eq] at hneg
  have hsign : u.getLsbD 31 = true := by
    by_contra hpos
    rw [Bool.not_eq_true] at hpos
    rw [hpos] at hneg
    exact absurd hneg (by simp [signed])
  have hm : m ≠ 0 := by
    rintro rfl
    rw [← hmag, Nat.zero_mul, hsign] at hneg
    exact absurd hneg (by simp [signed])
  rw [hsign] at hdec
  have hrsq : rsqElt .f32 x.sat (operands s).gen (.fin true m e) = nanRes fpF32 x.sat (operands s).gen true := by
    rw [rsqElt]
    exact (if_neg hm).trans (if_pos rfl)
  have hlog2 : log2Elt .f32 (effRnd x.rnd (operands s).mode) x.sat (operands s).gen u.toNat (.fin true m e) =
      nanRes fpF32 x.sat (operands s).gen true := by
    rw [log2Elt]
    exact (if_neg hm).trans (if_pos rfl)
  exact ⟨answersLane_rsq hty htrap hone hdec (hrsq.trans hnan), answersLane_log2 hty htrap hone hdec (hlog2.trans hnan)⟩

end

/-! ### CLASS -/

theorem f32Class_eq (u : W32) : f32Class u =
    if f32Exp u = 255 then (if f32Sig u = 0 then (if u.getLsbD 31 then 3 else 10) else if u.getLsbD 22 then 2 else 1)
    else if f32Exp u = 0 then (if f32Sig u = 0 then (if u.getLsbD 31 then 6 else 7) else if u.getLsbD 31 then 5 else 8)
    else if u.getLsbD 31 then 4 else 9 := rfl

theorem f32Class_lt (u : W32) : f32Class u < 2 ^ 4 := by
  rw [f32Class_eq]
  split_ifs <;> decide

/-- The class code of a word (R329). -/
theorem classOp_f32 (u : W32) (b c : Nat) (g : W32) : classOp .f32 u.toNat b c g = ⟨f32Class u, 0, g⟩ := by
  have hf32 : fparam .f32 = fpF32 := rfl
  have hexp : u.toNat / 2 ^ fpF32.sig % 2 ^ fpF32.exp = f32Exp u := (f32Exp_eq u).symm
  rw [f32Class_eq]
  simp only [classOp, hf32, hexp]
  rw [decode_f32]
  by_cases htop : f32Exp u = 255
  · by_cases hzero : f32Sig u = 0
    · simp only [htop, hzero, if_true]
    · simp only [htop, hzero, if_true, if_false]
      cases u.getLsbD 22 <;> rfl
  · rw [if_neg htop, if_neg htop]
    by_cases hsub : f32Exp u = 0
    · rw [if_pos hsub, if_pos hsub, hsub]
      by_cases hzero : f32Sig u = 0 <;> simp [hzero]
    · rw [if_neg hsub, if_neg hsub]
      simp [hsub]

/-- CLASS of one full lane (R329). -/
theorem exec_class_f32 {x : XA} {s : State} {u : W32} (hty : x.ty = .f32) (htrap : trapEnables s.here.fpmode = 0) (hone : F32One s u) :
    exec (.class x) s = .next (completed s x.d fmtN32 fmtN32
      ⟨⟨[some (BitVec.ofNat 32 (f32Class u))], (operands s).key, (operands s).count⟩,
       ⟨[some (BitVec.ofNat 32 (f32Class u))], (operands s).key, (operands s).count⟩, 0, (operands s).gen⟩) := by
  have hrun : resClass x (operands s) =
      .both ⟨[some (BitVec.ofNat 32 (f32Class u))], (operands s).key, (operands s).count⟩ 0 (operands s).gen := by
    rw [resClass, runElts_oneLane hty (OneLane.of_one hone), hty, classOp_f32, packElts_single (f32Class_lt u)]
  rw [exec_completes rfl (by rw [htrap]; exact BitVec.zero_and), hrun]
  rfl

theorem flagIf_signalling {p : Prop} {iv : Bool} (h : iv = true ↔ p) {P : FpFlags → Prop} (hP : P (flagIf iv flagIV)) :
    (p → P flagIV) ∧ (¬ p → P 0) := by
  constructor
  · intro hp
    rwa [h.2 hp] at hP
  · intro hp
    rwa [Bool.eq_false_of_not_eq_true (mt h.1 hp)] at hP

/-- Settles O28: the special cases are decided by the operand's class, before any rounding; the exact ones round to themselves. -/
theorem f32SpecialCases : Obligations.F32SpecialCases := by
  unfold Obligations.F32SpecialCases
  intro x s u v hty _ htrap nan infinite signOf
  refine ⟨fun hpair => ⟨fun hnan i hi => ?_, fun hu hv => pair_inf hty htrap hpair hu hv,
      fun hu hv => pair_zero_inf hty htrap hpair hu hv⟩,
    fun hone => ⟨?_, fun hnan i hi => ?_, fun hu => ?_, fun hu => ?_, fun hu hneg => one_negative hty htrap hone hu hneg,
      fun n hu hunits hlow hhigh hmode => ?_, fun n hlow hhigh hu hmode => ?_, exec_class_f32 hty htrap hone⟩⟩
  · refine flagIf_signalling ?_ (pair_nan hty htrap hpair hnan hi)
    rw [Bool.or_eq_true, isSignalling_decode, isSignalling_decode]
  · rintro (hu | ⟨hu, hsat⟩)
    · exact sign_finite hty htrap hone hu
    · exact sign_inf hty htrap hone hu hsat
  · exact flagIf_signalling (isSignalling_decode u) (one_nan hty htrap hone hnan hi)
  · obtain ⟨hrcp, hrsq, hlog2, hexp2, htanh⟩ := one_zero hty htrap hone hu
    exact ⟨hrcp, hrsq, hlog2, hexp2, fun _ => htanh⟩
  · obtain ⟨hrcp, htanh, hrest⟩ := one_inf hty htrap hone hu
    exact ⟨hrcp, fun _ => htanh, hrest⟩
  · exact answersLane_exp2 hty htrap hone rfl (exp2Elt_whole hmode x.sat _ _ hu hunits hlow hhigh)
  · obtain ⟨w, hfin, hunits, hlog2⟩ := log2Elt_pow2 hmode x.sat (operands s).gen u.toNat hlow hhigh
    exact ⟨w, hfin, hunits, answersLane_log2 hty htrap hone (by rw [hu]) hlog2⟩

end Sys2Proof.Machine

/-! ## Firings that compute on lanes: completion, operands, frame and the results that no port takes (O18, O19, O20, O22) -/

namespace Sys2Proof.Machine
open Sys2Proof

/-- Settles O18: the meaning of each such instruction is fireWith, which completes where no flag traps. -/
theorem computingFiringsComplete : Obligations.ComputingFiringsComplete :=
  fun _ _ _ _ _ _ hc htrap => exec_completes hc htrap

/-! ### Operands once the instruction has fired (R88) -/

/-- In frame `n` instruction `ins` has fired and none of its operands remains. -/
def FiredAt (c : Ctx) (ins n : Nat) : Prop :=
  ∃ fr, c.find n = some fr ∧ fr.fired.getLsbD ins = true ∧ ∀ y ∈ fr.slots, y.ins ≠ ins

theorem FiredAt.of_find {c d : Ctx} {ins n : Nat} (h : FiredAt c ins n) (hd : d.find n = c.find n) : FiredAt d ins n := by
  unfold FiredAt
  rw [hd]
  exact h

/-- A delivered lane brings no operand to an instruction that has fired: the lane is a duplicate (R106). -/
theorem FiredAt.putLane {c : Ctx} {ins n : Nat} (h : FiredAt c ins n) (num j : Nat) (p : Port) (l : Lane) (start : Bool)
    (fmt : BitVec 4) (key : BitVec 12) (fin : BitVec 4) : FiredAt (putLane c num j p l start fmt key fin).1 ins n := by
  by_cases hn : n = num
  · subst hn
    obtain ⟨fr, hfind, hfired, hslots⟩ := h
    by_cases ht : PortTaken fr j p
    · exact ⟨_, (putLane_taken hfind ht l start fin).1, hfired, hslots⟩
    · have hj : j ≠ ins := fun he => ht (.inl (he ▸ hfired))
      refine ⟨_, putLane_free hfind ht l start fin, hfired, fun y hy => ?_⟩
      obtain hy | hy := List.mem_append.1 hy
      · exact hslots y hy
      · rw [List.mem_singleton.1 hy]
        exact hj
  · exact h.of_find (putLane_find_ne hn l start fin)

theorem FiredAt.putRun {c : Ctx} {ins n : Nat} (h : FiredAt c ins n) (num j : Nat) (p : Port) (fmt : BitVec 4) (key : BitVec 12)
    (count : BitVec 4) (start : Bool) (l : List Lane) : FiredAt (putRun c num j p fmt key count start l).1 ins n := by
  induction l generalizing c num start with
  | nil => exact h
  | cons a t ih => exact ih (h.putLane num j p a start fmt key (if t.isEmpty then count else 0)) (num + 1) false

theorem FiredAt.deliverRun {s : State} {id ins n : Nat} (h : FiredAt (s.ctx id) ins n) (num : Nat) (j : BitVec 7) (p : Port)
    (fmt : BitVec 4) (key : BitVec 12) (count : BitVec 4) (l : List Lane) :
    FiredAt ((deliverRun s id num j p fmt key count l).ctx id) ins n :=
  (h.putRun num j.toNat p _ key _ true l).of_find (deliverRun_find s id num j p fmt key count l n)

/-- Nor does a result that the firing sends. -/
theorem FiredAt.sendResult {s : State} {ins n : Nat} (h : FiredAt s.here ins n) (fmt : BitVec 4) (tb : Bool) (r : Run) (t : Target) :
    FiredAt (sendResult s fmt tb r t).here ins n := by
  have lateBy {u : State} (hu : ContextOnly s u s.focus.ctxId) (hf : FiredAt (u.ctx s.focus.ctxId) ins n) (late : W32) :
      FiredAt (u.setHere { u.here with late := late }).here ins n := by
    rw [State.setHere_here]
    rw [← hu.here] at hf
    exact hf.of_find rfl
  cases t with
  | nowhere => exact h
  | seq => exact h.of_find (by simp [Machine.sendResult, Ctx.find])
  | chan ch => exact h.of_find (by simp [Machine.sendResult, Ctx.find])
  | same j p => exact lateBy (deliverRun_only ..) (h.deliverRun ..) _
  | next j p => exact lateBy (deliverRun_only ..) (h.deliverRun ..) _

/-- The frames of a firing, once it has consumed its operands. -/
theorem firedAt_markFired {c : Ctx} {ins num k n : Nat} {fr : Frame} (hi : ins < 128) (hfind : c.find n = some fr) (hle : num ≤ n)
    (hlt : n < num + k) (ha : n < c.ahead) : FiredAt (markFired c ins num k) ins n := by
  have hnum := num_of_find hfind
  refine ⟨_, by rw [find_markFired, hfind, Option.map_some, if_pos (by omega)], ?_, ?_⟩
  · simp [hi]
  · simp

/-- So a firing that ends leaves them. -/
theorem firedAt_finish {s : State} {n : Nat} (h : FiredAt (markFired s.here s.focus.ins s.focus.frame s.focus.k) s.focus.ins n)
    (d : Dst) (fa fb : BitVec 4) (ta tb : Run) : FiredAt (finish s d fa fb ta tb).here s.focus.ins n := by
  have hmarked : FiredAt (s.setHere (markFired s.here s.focus.ins s.focus.frame s.focus.k)).here s.focus.ins n := by
    rwa [State.setHere_here]
  exact (hmarked.sendResult fa false ta d.ta).sendResult fb true tb d.tb

theorem finish_firings (s : State) (d : Dst) (fa fb : BitVec 4) (ta tb : Run) :
    (finish s d fa fb ta tb).here.firings = s.here.firings + 1 :=
  congrArg Ctx.firings (finish_here s d fa fb ta tb)

/-- A completed firing, as the state that exec answers. -/
theorem eq_completed {i : Instr} {s t : State} {d : Dst} {fa fb : BitVec 4} {f : Opnds → Res} (hc : computes i = some (d, fa, fb, f))
    (htrap : trapEnables s.here.fpmode &&& (f (operands s)).flags = 0) (hexec : exec i s = .next t) :
    t = completed s d fa fb (f (operands s)) := by
  rw [exec_completes hc htrap] at hexec
  exact (Host.Outcome.next.inj hexec).symm

/-- Settles O20: the firing marks its frames, and no result that it sends adds an operand of its own there. -/
theorem firingConsumesItsOperands : Obligations.FiringConsumesItsOperands := by
  intro i s t d fa fb f hc htrap hins hexec
  obtain rfl := eq_completed hc htrap hexec
  constructor
  · rw [completed, finish_firings, noteResult_here]
  · intro n fr hle hlt hahead hfind
    have hmarked : FiredAt (markFired (noteResult s (f (operands s))).here s.focus.ins s.focus.frame s.focus.k) s.focus.ins n := by
      rw [noteResult_here]
      exact firedAt_markFired hins hfind hle hlt hahead
    have hdone := firedAt_finish (s := noteResult s (f (operands s)))
      (by rw [noteResult_focus]; exact hmarked) d fa fb (f (operands s)).ta (f (operands s)).tb
    rwa [noteResult_focus] at hdone

/-! ### The rest of the machine (R88, R97, R103, R106) -/

/-- Of a context only what a firing may change differs. -/
def FiringPart (c d : Ctx) : Prop :=
  d = { c with
    frames := d.frames, out := d.out, stops := d.stops, fpflags := d.fpflags, firings := d.firings, late := d.late, ack := d.ack
    inflight := d.inflight, resumes := d.resumes, ages := d.ages }

theorem FiringPart.trans {c d e : Ctx} (h : FiringPart c d) (g : FiringPart d e) : FiringPart c e := by
  unfold FiringPart at *
  rw [g, h]

theorem firingPart_markFired (c : Ctx) (ins num k : Nat) : FiringPart c (markFired c ins num k) := rfl

theorem SendFrame.firingPart {c d : Ctx} (h : SendFrame c d) : FiringPart c d := by
  unfold FiringPart
  rw [h]

theorem FiringFrame.refl (s : State) : FiringFrame s s := ⟨rfl, fun _ _ => rfl, fun _ _ => rfl, rfl, rfl⟩

/-- What a firing does in its own context alone, behind the noting of its flags. -/
theorem FiringFrame.after {s u t : State} (h : FiringFrame s u) (honly : ContextOnly u t u.focus.ctxId)
    (hpart : FiringPart u.here t.here) : FiringFrame s t := by
  obtain ⟨hs, hctx, htile, hgens, hhere⟩ := h
  have hfocus : u.focus = s.focus := by rw [hs]
  have htiles (p : Nat) : t.tile p = u.tile p := by rw [State.tile, State.tile, honly.tiles]
  rw [hfocus] at honly
  refine ⟨?_, fun j hj => (honly.2 j hj).trans (hctx j hj), fun p hp => (htiles p).trans (htile p hp), ?_, FiringPart.trans hhere hpart⟩
  · rw [honly.1, hs]
  · rw [htiles, hgens]

theorem setHere_frame {s u : State} (h : FiringFrame s u) {c : Ctx} (hc : FiringPart u.here c) : FiringFrame s (u.setHere c) :=
  h.after (.setHere u c) (by rwa [State.setHere_here])

/-- A generator of the firing's tile may go on (R49). -/
theorem setGen_frame {s u : State} (h : FiringFrame s u) (e : Nat) (g : W32) : FiringFrame s (setGen u s.focus.place e g) := by
  obtain ⟨hs, hctx, htile, hgens, hhere⟩ := h
  have hself : (setGen u s.focus.place e g).tile s.focus.place =
      { u.tile s.focus.place with gens := ((setGen u s.focus.place e g).tile s.focus.place).gens } := by
    rw [setGen, State.setTile_tile_self]
  refine ⟨?_, hctx, fun p hp => (State.setTile_tile_ne _ _ _ hp).trans (htile p hp), ?_, hhere⟩
  · rw [setGen, hs]
    rfl
  · rw [hself, hgens]

theorem noteResult_frame (s : State) (r : Res) : FiringFrame s (noteResult s r) := by
  have hflags := setHere_frame (.refl s) (c := { s.here with fpflags := s.here.fpflags ||| r.flags.zeroExtend 32 }) rfl
  unfold noteResult
  dsimp only
  split
  · exact hflags
  · exact setGen_frame hflags _ _

theorem finish_frame {s u : State} (h : FiringFrame s u) (d : Dst) (fa fb : BitVec 4) (ta tb : Run) :
    FiringFrame s (finish u d fa fb ta tb) :=
  h.after (finish_only ..) ((firingPart_markFired ..).trans (finish_here ..).firingPart)

/-- A fault of the firing adds its record and takes its resume (R227). -/
theorem faultFiring_frame {s u : State} (h : FiringFrame s u) (code : BitVec 8) (aux detail : Option W64) (r : Resume) :
    FiringFrame s (faultFiring u code aux detail r) := by
  obtain ⟨x, hx, -⟩ := faultAt_spec u code aux detail (.firing u.focus.ins u.focus.frame u.focus.k r)
  refine h.after (faultAt_only ..) ?_
  rw [faultFiring, hx]
  rfl

/-- A firing that computes changes what is its own, whether its flags trap or not (R54). -/
theorem fireWith_frame (s : State) (d : Dst) (fa fb : BitVec 4) (f : Opnds → Res) : FiringFrame s (fireWith s d fa fb f) := by
  by_cases htrap : trapEnables s.here.fpmode &&& (f (operands s)).flags = 0
  · rw [fireWith_completes htrap]
    exact finish_frame (noteResult_frame s _) ..
  · rw [fireWith_traps htrap]
    exact faultFiring_frame (noteResult_frame s _) ..

/-- A mark of EMIT stands in the output buffer (R338). -/
theorem emitMark_frame {s u : State} (h : FiringFrame s u) (tb : Bool) (t : Target) (m : Token) : FiringFrame s (emitMark u tb t m) := by
  unfold emitMark
  split
  · exact setHere_frame h rfl
  · exact h

theorem execEmit_frame {d : Dst} {c : MarkClass} {payA : Bool} {pay : BitVec 12} {s t : State} (h : execEmit d c payA pay s = .next t) :
    FiringFrame s t := by
  have hfired := setHere_frame (.refl s) (firingPart_markFired s.here s.focus.ins s.focus.frame s.focus.k)
  unfold execEmit at h
  dsimp only at h
  split at h <;> cases h
  · exact hfired
  · exact emitMark_frame (emitMark_frame hfired ..) ..

/-- Settles O19: each firing notes its flags, ends or stops, and every one of these changes its own context alone. -/
theorem computingFiringsLeaveTheRest : Obligations.ComputingFiringsLeaveTheRest := by
  rintro i s t (hc | rfl | ⟨d, rfl⟩ | ⟨d, ty, r, x, l, rfl⟩ | ⟨d, c, p, y, rfl⟩) hexec
  · obtain ⟨⟨d, fa, fb, f⟩, hf⟩ := Option.isSome_iff_exists.1 hc
    rw [exec_of_computes hf] at hexec
    cases hexec
    exact fireWith_frame ..
  · cases hexec
    exact finish_frame (.refl s) ..
  · cases hexec
    exact finish_frame (.refl s) ..
  · cases hexec
    exact finish_frame (.refl s) ..
  · exact execEmit_frame hexec

/-! ### Results that no port takes (R86, R103, R357) -/

/-- The output buffer holds one entry more (R103). -/
theorem insertOut_perm (e : OutEntry) (l : List OutEntry) : (insertOut e l).Perm (e :: l) := by
  induction l with
  | nil => exact .refl _
  | cons h t ih =>
    unfold insertOut
    split
    · exact .refl _
    · exact (ih.cons h).trans (.swap e h t)

section
variable {s : State} (hk : s.focus.frame + s.focus.k ≤ s.here.ahead)
include hk

theorem existing_of_le : existing s.here s.focus.frame s.focus.k = s.focus.k := by
  unfold existing
  omega

/-- A result for a channel is one token in the output buffer, which needs the frames of the firing. -/
theorem sendResult_chan (fmt : BitVec 4) (tb : Bool) (r : Run) (ch : BitVec 6) :
    (sendResult s fmt tb r (.chan ch)).here.out = insertOut ⟨ch.toNat, s.focus.frame, s.focus.ins + 1, tb, s.focus.frame + s.focus.k,
      Token.make (BitVec.ofNat 3 s.focus.ctx) (BitVec.ofNat 12 s.focus.frame) fmt r.key r.count (r.lanes.take s.focus.k), false⟩
      s.here.out := by
  simp only [sendResult, existing_of_le hk, Nat.lt_irrefl, if_false, State.setHere_here]
  rfl

/-- A result for SEQ is counted. -/
theorem sendResult_seq (fmt : BitVec 4) (tb : Bool) (r : Run) : (sendResult s fmt tb r .seq).here =
    { s.here with ack := s.here.ack + BitVec.ofNat 32 ((r.lanes.take s.focus.k).filter Option.isSome).length } := by
  simp only [sendResult, existing_of_le hk, State.setHere_here]

end

/-- Settles O22: what each kind of target does with the result of a firing that has consumed its operands. -/
theorem resultsLeaveByChannelOrCount : Obligations.ResultsLeaveByChannelOrCount := by
  intro i s t d fa fb f tb goal hc htrap hd hk hexec r
  obtain rfl := eq_completed hc htrap hexec
  rw [hd, completed_oneTarget]
  generalize hs1 : (noteResult s (f (operands s))).setHere
    (markFired (noteResult s (f (operands s))).here s.focus.ins s.focus.frame s.focus.k) = s1
  have hfocus : s1.focus = s.focus := by rw [← hs1]; exact noteResult_focus _ _
  have hhere : s1.here = markFired (noteResult s (f (operands s))).here s.focus.ins s.focus.frame s.focus.k := by
    rw [← hs1, State.setHere_here]
  rw [noteResult_here] at hhere
  have hout : s1.here.out = s.here.out := by rw [hhere, markFired_out]
  have hack : s1.here.ack = s.here.ack := by rw [hhere, markFired_ack]
  have hstops : s1.here.stops = s.here.stops := by rw [hhere, markFired_stops]
  have hk1 : s1.focus.frame + s1.focus.k ≤ s1.here.ahead := by rw [hfocus, hhere, markFired_ahead]; exact hk
  refine ⟨?_, ?_, ?_⟩
  · rintro ch rfl
    have hsent := sendResult_chan hk1 (if tb then fb else fa) tb r ch
    rw [hfocus, hout] at hsent
    rw [hsent]
    have hperm := insertOut_perm ⟨ch.toNat, s.focus.frame, s.focus.ins + 1, tb, s.focus.frame + s.focus.k,
      Token.make (BitVec.ofNat 3 s.focus.ctx) (BitVec.ofNat 12 s.focus.frame) (if tb then fb else fa) r.key r.count
        (r.lanes.take s.focus.k), false⟩ s.here.out
    exact ⟨hperm.length_eq, fun x hx => hperm.mem_iff.2 (.tail _ hx), hperm.mem_iff.2 (.head _)⟩
  · rintro rfl
    rw [sendResult_seq hk1, hfocus, hack]
    exact ⟨rfl, hout⟩
  · rintro rfl
    exact ⟨hack, hout, hstops⟩

end Sys2Proof.Machine

/-! ## Floors and counters (O42) -/

namespace Sys2Proof.Machine
open Sys2Proof

/-! ### One field of a floor (R92) -/

section
variable (floor : W64) {d : Nat} (v : Nat)

/-- Writing fd(d) sets its eight bits and leaves every other. -/
theorem getLsbD_setFd {b : Nat} (hb : b < 64) :
    (setFd floor d v).getLsbD b = if 8 * d ≤ b ∧ b < 8 * d + 8 then v.testBit (b - 8 * d) else floor.getLsbD b := by
  have hmask : (BitVec.ofNat 64 (255 * 2 ^ (8 * d))).getLsbD b = decide (8 * d ≤ b ∧ b < 8 * d + 8) := by
    have h255 : (255 : Nat) = 2 ^ 8 - 1 := rfl
    rw [BitVec.getLsbD_ofNat, Nat.testBit_mul_two_pow, h255, Nat.testBit_two_pow_sub_one]
    simp only [hb, decide_true, Bool.true_and, ← Bool.decide_and]
    exact decide_eq_decide.2 (by omega)
  have hfield : (BitVec.ofNat 64 (v % 256 * 2 ^ (8 * d))).getLsbD b =
      (decide (8 * d ≤ b ∧ b < 8 * d + 8) && v.testBit (b - 8 * d)) := by
    have h256 : (256 : Nat) = 2 ^ 8 := rfl
    rw [BitVec.getLsbD_ofNat, Nat.testBit_mul_two_pow, h256, Nat.testBit_mod_two_pow, ← Bool.and_assoc, ← Bool.and_assoc]
    simp only [hb, decide_true, Bool.true_and, ← Bool.decide_and]
    exact congrArg (· && _) (decide_eq_decide.2 (by omega))
  rw [setFd, BitVec.getLsbD_or, BitVec.getLsbD_and, BitVec.getLsbD_not, hmask, hfield]
  by_cases h : 8 * d ≤ b ∧ b < 8 * d + 8 <;> simp [h, hb]

theorem setFd_field (hd : d < 6) (hv : v < 256) : ((setFd floor d v).extractLsb' (8 * d) 8).toNat = v := by
  have hbits : (setFd floor d v).extractLsb' (8 * d) 8 = BitVec.ofNat 8 v := by
    ext i hi
    rw [BitVec.getElem_extractLsb', getLsbD_setFd floor v (by omega), if_pos (by omega), Nat.add_sub_cancel_left,
      BitVec.getElem_eq_testBit_toNat, BitVec.toNat_ofNat, Nat.testBit_mod_two_pow, decide_eq_true hi, Bool.true_and]
  rw [hbits, BitVec.toNat_ofNat, Nat.mod_eq_of_lt hv]

theorem setFd_outside {b : Nat} (hb : b < 8 * d ∨ 8 * d + 8 ≤ b) : (setFd floor d v).getLsbD b = floor.getLsbD b := by
  by_cases h : b < 64
  · rw [getLsbD_setFd floor v h, if_neg (by omega)]
  · rw [BitVec.getLsbD_of_ge _ _ (by omega), BitVec.getLsbD_of_ge _ _ (by omega)]

end

theorem fd_lt (c : Ctx) (d : Nat) : c.fd d < 256 := (c.floor.extractLsb' (8 * d) 8).isLt

/-! ### What R94 grants -/

/-- R94 allows field fd(d) of context `id` to rise by `n`. -/
def Grants (s : State) (id d n : Nat) : Prop :=
  (s.ctx id).fd d + n ≤ 255 ∧ floorTotal s (id / 8) + n * (s.ctx id).cost ≤ 16384 ∧
    ((List.range 8).map fun q => (s.ctx (id / 8 * 8 + q)).reserve).sum +
      (((s.ctx id).floorSum + n - (s.ctx id).live) - ((s.ctx id).floorSum - (s.ctx id).live)) * (s.ctx id).cost ≤ freeWords s (id / 8)

theorem grantable_of_grants {s : State} {id d m : Nat} (h : Grants s id d (m + 1)) : grantable s id d (m + 1) = m + 1 := by
  obtain ⟨hfield, htotal, hfree⟩ := h
  exact if_pos (by simpa [Nat.add_assoc] using ⟨⟨hfield, htotal⟩, hfree⟩)

theorem grantable_of_not_grants {s : State} {id d m : Nat} (h : ¬ Grants s id d (m + 1)) :
    grantable s id d (m + 1) = grantable s id d m := by
  refine if_neg fun hg => h ?_
  simp only [Bool.and_eq_true, decide_eq_true_eq] at hg
  exact ⟨hg.1.1, hg.1.2, hg.2⟩

/-- It is the largest raise up to `m` that R94 allows, 0 where it allows none. -/
theorem grantable_spec (s : State) (id d m : Nat) : grantable s id d m ≤ m ∧
    (grantable s id d m = 0 ∨ Grants s id d (grantable s id d m)) ∧
    ∀ n, grantable s id d m < n → n ≤ m → ¬ Grants s id d n := by
  induction m with
  | zero => exact ⟨Nat.le_refl 0, .inl rfl, fun n hn hm => absurd hn (Nat.not_lt.2 hm)⟩
  | succ m ih =>
    by_cases h : Grants s id d (m + 1)
    · rw [grantable_of_grants h]
      exact ⟨Nat.le_refl _, .inr h, fun n hn hm => absurd hn (Nat.not_lt.2 hm)⟩
    · rw [grantable_of_not_grants h]
      obtain ⟨hle, hgrants, hmax⟩ := ih
      refine ⟨Nat.le_succ_of_le hle, hgrants, fun n hn hm => ?_⟩
      obtain hlt | rfl := Nat.lt_or_eq_of_le hm
      · exact hmax n hn (Nat.le_of_lt_succ hlt)
      · exact h

theorem fd_add_grantable_lt (s : State) (id d m : Nat) : (s.ctx id).fd d + grantable s id d m < 256 := by
  obtain ⟨-, hzero | ⟨hfield, -⟩, -⟩ := grantable_spec s id d m
  · rw [hzero]
    exact fd_lt _ d
  · omega

/-! ### TRES, TREL and TCNT of one lane (R415, R418) -/

section
variable {s : State} {v : W32} (ha : (operands s).a = [some v]) (d : Dst)
include ha

theorem exec_tres_one (depth : BitVec 6) (srcA : Bool) (n : BitVec 8) :
    let r := raiseFloor s s.focus.ctxId depth.toNat (if srcA then min 255 v.toNat else n.toNat)
    exec (.tres d depth srcA n) s = .next (finishN32 r.1 d [some (BitVec.ofNat 32 r.2)]) := by
  change execTres d depth srcA n s = _
  rw [execTres, ha]
  rfl

theorem exec_trel_one (depth : BitVec 6) (srcA : Bool) (n : BitVec 8) :
    let r := lowerFloor s s.focus.ctxId depth.toNat (if srcA then min 255 v.toNat else n.toNat)
    exec (.trel d depth srcA n) s = .next (finishN32 r.1 d [some (BitVec.ofNat 32 r.2)]) := by
  change execTrel d depth srcA n s = _
  rw [execTrel, ha]
  rfl

/-- The counter is read before it is cleared. -/
theorem exec_tcnt_one (sel : CntSel) (clr : Bool) :
    exec (.tcnt d sel clr) s = .next (finishN32 (if clr then clearCounter s sel else s) d [some (counterOf s sel)]) := by
  change execTcnt d sel clr s = _
  rw [execTcnt, ha]
  rfl

end

/-- Settles O42: the grant is the largest that fits, and it is written into one field of the floor; a counter reads as it stands. -/
theorem floorsAndCounters : Obligations.FloorsAndCounters := by
  intro s o x
  refine ⟨?floors, ?counters⟩
  case floors =>
    intro d depth srcA n v hdepth hk ha m others
    have hothers (w : Nat) : others (setFd x.floor depth.toNat w) := fun b => setFd_outside x.floor w
    refine ⟨?raise, ?lower⟩
    case raise =>
      intro g fits
      obtain ⟨hle, hgrants, hmax⟩ := grantable_spec s s.focus.ctxId depth.toNat m
      refine ⟨hle, hgrants, hmax, setFd x.floor depth.toNat (x.fd depth.toNat + g), exec_tres_one ha d depth srcA n, ?_, hothers _⟩
      exact setFd_field _ _ hdepth (fd_add_grantable_lt ..)
    case lower =>
      intro g
      have hlt : x.fd depth.toNat - g < 256 := Nat.lt_of_le_of_lt (Nat.sub_le ..) (fd_lt x _)
      exact ⟨setFd x.floor depth.toNat (x.fd depth.toNat - g), exec_trel_one ha d depth srcA n, setFd_field _ _ hdepth hlt, hothers _⟩
  case counters =>
    intro d v hk ha
    have hcount := exec_tcnt_one ha d
    exact ⟨fun clr => ⟨hcount .ack clr, hcount .late clr⟩, hcount .live false, hcount .ahead false, hcount .chead false,
      hcount .free false⟩

end Sys2Proof.Machine

/-! ## Channel events (O47) -/

namespace Sys2Proof.Machine
open Sys2Proof

theorem ChannelsOnly.ctx {s t : State} (h : ChannelsOnly s t) (j : Nat) : t.ctx j = s.ctx j := by
  rw [h]
  rfl

section
variable {s : State} {die tile ch i : Nat} (hi : chanId die tile ch = i)
include hi

/-- A token that arrives takes a slot, where its channel's context takes input (R109, R232). -/
theorem exec_channelTokenArrival {tok : Token} {rest : List Token} (h : (s.inc i).flight = tok :: rest)
    (hd : ∀ c, sinkCtx (s.inc i).sink = some c → discardsInput (s.ctx (placeOf die tile * 8 + c)) = false) :
    exec (.channelTokenArrival die tile ch) s = .next (s.setInc i { s.inc i with
      queue := (s.inc i).queue ++ [tok], flight := rest, received := (s.inc i).received + 1 }) := by
  subst hi
  change execChannelTokenArrival die tile ch s = _
  simp only [execChannelTokenArrival, h]
  cases hs : sinkCtx (s.inc (chanId die tile ch)).sink with
  | none => rfl
  | some c => simp [hd c hs]

/-- A credit on its way back reaches the producer (R109). -/
theorem exec_creditReturn_near (hx : descXp (s.outc i).desc = false) (hr : 0 < (s.outc i).returning) :
    exec (.creditReturn die tile ch) s = .next (s.setOutc i { s.outc i with
      credits := (s.outc i).credits + 1, returning := (s.outc i).returning - 1 }) := by
  subst hi
  change execCreditReturn die tile ch s = _
  simp only [execCreditReturn, hx, Bool.false_eq_true, if_false, if_neg hr.ne']

theorem exec_creditReturn_far (hx : descXp (s.outc i).desc = true) :
    exec (.creditReturn die tile ch) s = .next (if (s.outc i).credits < descDepth (s.outc i).desc
      then s.setOutc i { s.outc i with credits := (s.outc i).credits + 1 } else s) := by
  subst hi
  exact if_pos hx

/-- A released token leaves for a credit (R103). -/
theorem exec_outputTokenSend {cx id : Nat} {e : OutEntry} (hid : ctxId die tile cx = id) (hsrc : (s.outc i).src = .context cx)
    (hfind : ((s.ctx id).out.find? fun e => e.chan = ch) = some e) (hr : e.released = true) (hf : (s.ctx id).frozen = false)
    (hen : descEn (s.outc i).desc = true) (hc : 0 < (s.outc i).credits) : exec (.outputTokenSend die tile ch) s =
      .next (sendOn (s.setCtx id { s.ctx id with out := (s.ctx id).out.erase e }) i e.tok) := by
  subst hi hid
  change execOutputTokenSend die tile ch s = _
  simp [execOutputTokenSend, hsrc, hfind, hr, hf, canSend, hen, hc]

end

/-! ### Bound channels (R95, R96, R238) -/

/-- A lane for a free port is no duplicate. -/
theorem putLane_free_dup {c : Ctx} {fr : Frame} {num ins : Nat} {p : Port} (h : c.find num = some fr) (ht : ¬ PortTaken fr ins p)
    (l : Lane) (start : Bool) (fmt : BitVec 4) (key : BitVec 12) (fin : BitVec 4) :
    (putLane c num ins p l start fmt key fin).2 = none := by
  have hdup : ¬ (fr.fired.getLsbD ins = true ∨ (fr.slots.find? fun x => x.ins = ins ∧ x.port = p).isSome = true) :=
    fun h => ht (h.imp_right Option.isSome_iff_ne_none.1)
  simp only [putLane, h, if_neg hdup]

/-- A token of one lane, for a frame that awaits it. -/
theorem putAwaited_one {c : Ctx} {f ins : Nat} {p : Port} {l : Lane} (t : Token)
    (h : (putLane c f ins p l true t.fmt t.key t.count).2 = none) :
    putAwaited c ins p t none [f] [l] = ((putLane c f ins p l true t.fmt t.key t.count).1, none) := by
  have hstart : (none != some f) = true := rfl
  simp [putAwaited, hstart, h]

theorem putLane_stops (c : Ctx) (num ins : Nat) (p : Port) (l : Lane) (start : Bool) (fmt : BitVec 4) (key : BitVec 12)
    (fin : BitVec 4) : (putLane c num ins p l start fmt key fin).1.stops = c.stops := by
  have h := putLane_frame c num ins p l start fmt key fin
  dsimp only at h
  rw [h]

section
variable {s : State} {die tile ch i cx id ins : Nat} {p : Port} {w : Option Nat} (hi : chanId die tile ch = i)
  (hid : ctxId die tile cx = id) (hsink : (s.inc i).sink = .bound cx ins p w) (hf : (s.ctx id).frozen = false)
  (hk : (s.ctx id).killed = false) (hsp : (s.ctx id).splice = none ∨ (s.inc i).eos = false)
include hi hid hsink hf hk hsp

theorem exec_boundDelivery_mark {c : BitVec 3} {cl : MarkClass} {pay : BitVec 12} {rest : List Token}
    (hq : (s.inc i).queue = .mark c cl pay :: rest) :
    exec (.boundChannelDelivery die tile ch) s = .next (consume (countMark s id) i) := by
  subst hi hid
  have hopen : ((s.ctx (ctxId die tile cx)).splice.isSome && (s.inc (chanId die tile ch)).eos) = false := by
    obtain h | h := hsp <;> simp [h]
  change execBoundChannelDelivery die tile ch s = _
  simp only [execBoundChannelDelivery, hsink, hq, hf, hk, hopen, Bool.or_false, Bool.false_eq_true, if_false, Token.isMark, if_true]

/-- The one lane of a token goes to the first frame that awaits one, and the token is consumed. -/
theorem exec_boundDelivery_lane {c : BitVec 3} {fn key : BitVec 12} {fm ct : BitVec 4} {l : Lane} {rest : List Token} {f : Nat}
    {fs : List Nat} {fr : Frame} (hq : (s.inc i).queue = .data c fn fm key ct [l] :: rest) (ha : (s.inc i).await = f :: fs)
    (hfind : (s.ctx id).find f = some fr) (ht : ¬ PortTaken fr ins p) : exec (.boundChannelDelivery die tile ch) s =
      .next (consume ((s.setCtx id (putLane (s.ctx id) f ins p l true fm key ct).1).setInc i { s.inc i with await := fs }) i) := by
  subst hi hid
  have hopen : ((s.ctx (ctxId die tile cx)).splice.isSome && (s.inc (chanId die tile ch)).eos) = false := by
    obtain h | h := hsp <;> simp [h]
  have hput : putAwaited (s.ctx (ctxId die tile cx)) ins p ((Token.data c fn fm key ct [l]).take 1) none [f] [l] =
      ((putLane (s.ctx (ctxId die tile cx)) f ins p l true fm key ct).1, none) :=
    putAwaited_one _ (putLane_free_dup hfind ht l true fm key ct)
  have hn : min 1 (f :: fs).length = 1 := by simp
  change execBoundChannelDelivery die tile ch s = _
  simp only [execBoundChannelDelivery, hsink, hq, ha, hf, hk, hopen, Bool.or_false, Bool.false_eq_true, if_false, Token.isMark,
    Token.lanes, List.length_singleton, hn, one_ne_zero, List.take_succ_cons, List.take_zero, hput, raiseDup, if_true,
    List.drop_succ_cons, List.drop_zero, State.setCtx_inc]

end

/-- Settles O47: each event as its equation gives it, and what consuming and sending leave at the two ends of the channel. -/
theorem channelEventsMoveTokens : Obligations.ChannelEventsMoveTokens := by
  intro s die tile ch i ic
  refine ⟨fun tok rest => exec_channelTokenArrival rfl, ⟨exec_creditReturn_near rfl, exec_creditReturn_far rfl⟩, ?bound, ?output⟩
  case bound =>
    intro cx ins p w hsink id hf hk hsp
    refine ⟨fun c cl pay rest hq => ?mark, fun c fn fm key ct l rest f fs fr hq ha hfind hfired hslot => ?lane⟩
    case mark =>
      obtain ⟨hinc, -⟩ := consume_spec (s := countMark s id) hq
      have hctx := (consume_only (countMark s id) i).ctx
      refine ⟨_, exec_boundDelivery_mark rfl rfl hsink hf hk hsp hq, by rw [hinc], ?_, fun j hj => ?_⟩
      · rw [hctx]
        exact State.setCtx_ctx_self _ _ _
      · rw [hctx]
        exact State.setCtx_ctx_ne _ _ _ hj
    case lane =>
      have ht : ¬ PortTaken fr ins p := by
        rintro (h | h)
        · exact Bool.false_ne_true (hfired.symm.trans h)
        · exact h hslot
      let put := (putLane (s.ctx id) f ins p l true fm key ct).1
      let s1 := (s.setCtx id put).setInc i { ic with await := fs }
      have hinc1 : s1.inc i = { ic with await := fs } := State.setInc_inc_self _ _ _
      obtain ⟨hinc, -⟩ := consume_spec (s := s1) (i := i) (by rw [hinc1]; exact hq)
      have hctx : (consume s1 i).ctx id = put := by
        rw [(consume_only s1 i).ctx]
        exact State.setCtx_ctx_self _ _ _
      refine ⟨_, _, ⟨ins, p, l, true, fm, key, ct⟩, exec_boundDelivery_lane rfl rfl hsink hf hk hsp hq ha hfind ht, by rw [hinc],
        by rw [hinc, hinc1], ?_, slotAt_append hslot rfl rfl, rfl, rfl, rfl, rfl, rfl, ?_⟩
      · exact (congrArg (Ctx.find · f) hctx).trans (putLane_free hfind ht l true ct)
      · exact (congrArg Ctx.stops hctx).trans (putLane_stops ..)
  case output =>
    intro cx e hsrc id hfind hr hf hen hc
    let s1 := s.setCtx id { s.ctx id with out := (s.ctx id).out.erase e }
    have hout := sendOn_outc s1 i e.tok
    refine ⟨_, exec_outputTokenSend rfl rfl hsrc hfind hr hf hen hc, ?_, ?_, ?_, fun hx => ?_⟩
    · rw [(sendOn_only s1 i e.tok).ctx]
      exact congrArg Ctx.out (State.setCtx_ctx_self _ _ _)
    · exact congrArg OutChan.credits hout
    · exact congrArg OutChan.sent hout
    · exact congrArg InChan.flight (sendOn_peer s1 i e.tok hx)

end Sys2Proof.Machine

/-! ## The waits of a tile, and the commit of frames (O49) -/

namespace Sys2Proof.Machine
open Sys2Proof

/-! ### What noting the waits changes (R104, R105, R348) -/

/-- Of a context only the waits differ. -/
def SameButWaits (c d : Ctx) : Prop :=
  d = { c with seq := { c.seq with wait := d.seq.wait, entry := d.seq.entry, gwait := d.seq.gwait, goal := d.seq.goal } }

theorem SameButWaits.trans {c d e : Ctx} (h : SameButWaits c d) (g : SameButWaits d e) : SameButWaits c e := by
  unfold SameButWaits at *
  rw [g, h]

theorem SameButWaits.out {c d : Ctx} (h : SameButWaits c d) : d.out = c.out := by rw [h]

/-- Only contexts differ, and of each only the waits. -/
def WaitsOnly (s t : State) : Prop := t = { s with ctxs := t.ctxs } ∧ ∀ j, SameButWaits (s.ctx j) (t.ctx j)

namespace WaitsOnly
variable {s t u : State}

theorem refl (s : State) : WaitsOnly s s := ⟨rfl, fun _ => rfl⟩

theorem trans (h : WaitsOnly s t) (g : WaitsOnly t u) : WaitsOnly s u := by
  refine ⟨?_, fun j => (h.2 j).trans (g.2 j)⟩
  rw [g.1, h.1]

theorem inc (h : WaitsOnly s t) (j : Nat) : t.inc j = s.inc j := by rw [h.1]; rfl
theorem time (h : WaitsOnly s t) (d : Nat) : t.time d = s.time d := by rw [h.1]; rfl

/-- An edit of the waits of one sequencer. -/
theorem editSeq (h : WaitsOnly s t) (id : Nat) {g : Seq → Seq} (hg : ∀ q : Seq, g q = { q with
    wait := (g q).wait, entry := (g q).entry, gwait := (g q).gwait, goal := (g q).goal }) : WaitsOnly s (editSeq t id g) := by
  refine h.trans ⟨rfl, fun j => ?_⟩
  by_cases hj : j = id
  · subst hj
    unfold Machine.editSeq SameButWaits
    rw [State.setCtx_ctx_self]
    exact congrArg (fun q => { t.ctx j with seq := q }) (hg _)
  · unfold Machine.editSeq SameButWaits
    rw [State.setCtx_ctx_ne _ _ _ hj]

theorem throttle (h : WaitsOnly s t) (id : Nat) : WaitsOnly s (throttle t id) :=
  h.editSeq id (g := fun q => { q with wait := some (q.wait.getD (t.time (id / 2048)).toNat) }) fun _ => rfl

theorem gwaitBegins (h : WaitsOnly s t) (id m : Nat) : WaitsOnly s (gwaitBegins t id m) := by
  unfold Machine.gwaitBegins
  split
  · exact h
  · exact h.editSeq id fun _ => rfl

theorem noteWait (h : WaitsOnly s t) (id : Nat) : WaitsOnly s (noteWait t id) := by
  have hquiet := h.editSeq id (g := fun q => { q with wait := none }) fun _ => rfl
  unfold Machine.noteWait
  dsimp only
  split
  · exact h
  · split
    · exact h.throttle id
    · split
      · split
        · exact hquiet
        · exact hquiet.gwaitBegins id _
      · exact hquiet

theorem noteWaits (h : WaitsOnly s t) (place n : Nat) : WaitsOnly s (noteWaits t place n) := by
  induction n with
  | zero => exact h
  | succ n ih => exact ih.noteWait _

theorem noteEntryWaits (h : WaitsOnly s t) (place n : Nat) : WaitsOnly s (noteEntryWaits t place n) := by
  induction n with
  | zero => exact h
  | succ n ih =>
    have hquiet := ih.editSeq (place * 8 + n) (g := fun q => { q with wait := none, entry := none }) fun _ => rfl
    unfold Machine.noteEntryWaits
    dsimp only
    split
    · exact ih
    · split
      · exact hquiet
      · split
        · refine WaitsOnly.editSeq (throttle ?_ _) _ fun _ => rfl
          split
          · exact ih
          · exact hquiet
        · exact hquiet

end WaitsOnly

theorem noteTile_waits (s : State) (place : Nat) : WaitsOnly s (noteTile s place) :=
  ((WaitsOnly.refl s).noteWaits place 8).noteEntryWaits place 8

/-- Beside a change of one context, the noting of waits. -/
theorem WaitsOnly.beside {s t : State} {id : Nat} {c : Ctx} (h : WaitsOnly (s.setCtx id c) t) : WaitsBeside s t id := by
  refine ⟨by rw [h.1]; rfl, fun j hj => ?_⟩
  have hj' := h.2 j
  rw [State.setCtx_ctx_ne _ _ _ hj] at hj'
  exact hj'

theorem WaitsOnly.beside_self {s t : State} (h : WaitsOnly s t) (id : Nat) : WaitsBeside s t id := ⟨h.1, fun j _ => h.2 j⟩

/-! ### The head frame's commit (R101, R103) -/

/-- The context once its head frame has committed. -/
def headCommitted (c : Ctx) (now : Nat) : Ctx :=
  (({ c with frames := c.frames.filter (fun f => f.num ≠ c.chead), chead := c.chead + 1, commits := c.commits + 1
             lastCommit := now } : Ctx).dropFired c.chead).release.accept

section
variable (c : Ctx) (now : Nat)

theorem Ctx.accept_seq : c.accept = { c with seq := c.accept.seq } := by
  unfold Ctx.accept
  split <;> rfl

theorem headCommitted_frames : (headCommitted c now).frames = c.frames.filter fun f => f.num ≠ c.chead := by
  rw [headCommitted, Ctx.accept_seq]
  rfl

theorem headCommitted_chead : (headCommitted c now).chead = c.chead + 1 := by
  rw [headCommitted, Ctx.accept_seq]
  rfl

theorem headCommitted_commits : (headCommitted c now).commits = c.commits + 1 := by
  rw [headCommitted, Ctx.accept_seq]
  rfl

theorem headCommitted_out : (headCommitted c now).out = releaseFrom (c.chead + 1) c.out [] := by
  rw [headCommitted, Ctx.accept_seq]
  rfl

/-- With its last frame a closing context accepts (R68). -/
theorem headCommitted_accepts (hclosing : c.seq.closing = true) (hlast : c.chead + 1 = c.ahead) :
    (headCommitted c now).seq.run = .accepted := by
  have haccepts : (c.seq.closing && c.chead + 1 == c.ahead) = true := by simp [hclosing, hlast]
  exact congrArg (fun d : Ctx => d.seq.run) (if_pos haccepts)

theorem releaseFrom_length (chead : Nat) (l : List OutEntry) (blocked : List Nat) : (releaseFrom chead l blocked).length = l.length := by
  induction l generalizing blocked with
  | nil => rfl
  | cons e t ih =>
    unfold releaseFrom
    split
    · simp [ih]
    · split <;> simp [ih]

/-- The first entry leaves once its frames have committed (R103). -/
theorem releaseFrom_cons {chead : Nat} {e : OutEntry} (h : e.need ≤ chead) (rest : List OutEntry) :
    ∃ rest', releaseFrom chead (e :: rest) [] = { e with released := true } :: rest' := by
  unfold releaseFrom
  split
  case isTrue hr => exact ⟨_, by rw [← hr]⟩
  case isFalse => exact ⟨_, if_pos (by simp [h])⟩

end

/-- What R101 asks of the head frame. -/
theorem canCommit_iff {c : Ctx} {fr : Frame} (hfind : c.find c.chead = some fr) (hlt : c.chead < c.ahead) (hf : c.frozen = false)
    (hk : c.killed = false) : c.canCommit = true ↔
      fr.poisoned = false ∧ fr.fired &&& Image.commit c.image = Image.commit c.image ∧ ∀ y ∈ c.stops, y.base ≠ some c.chead := by
  simp [Ctx.canCommit, hfind, hlt, hf, hk, and_assoc]

theorem commitFrame_of_not_canCommit {s : State} {id : Nat} (h : ¬ (s.ctx id).canCommit = true) : commitFrame s id = s := if_neg h

theorem commitFrame_of_canCommit {s : State} {id : Nat} (h : (s.ctx id).canCommit = true)
    (hh : (s.ctx id).halting ≠ some (s.ctx id).chead) :
    commitFrame s id = s.setCtx id (headCommitted (s.ctx id) (s.time (id / 2048)).toNat) := by
  simp only [commitFrame, h, if_true, hh, if_false, Nat.add_sub_cancel, headCommitted]

theorem commitFrame_of_halting {s : State} {id : Nat} (h : (s.ctx id).canCommit = true)
    (hh : (s.ctx id).halting = some (s.ctx id).chead) :
    commitFrame s id = finishHalt (s.setCtx id (headCommitted (s.ctx id) (s.time (id / 2048)).toNat)) id := by
  simp only [commitFrame, h, if_true, hh, Nat.add_sub_cancel, headCommitted]

/-- FRAME COMMIT commits and brings the waits of the tile up to date. -/
theorem exec_frameCommit (s : State) (die tile c : Nat) :
    ∃ t, exec (.frameCommit die tile c) s = .next t ∧ WaitsOnly (commitFrame s (ctxId die tile c)) t := by
  refine ⟨_, rfl, ?_⟩
  split
  · exact .refl _
  · exact noteTile_waits ..

/-! ### The end of a context: EOS on its outputs, its inputs to their EOS (R232, R349) -/

section
variable (s : State) (id : Nat) (once : Bool) (n : Nat)

/-- Queueing EOS adds entries behind those of the output buffer. -/
theorem queueEos_spec : ContextOnly s (queueEos s id once n) id ∧
    ∃ l, (queueEos s id once n).ctx id = { s.ctx id with out := (s.ctx id).out ++ l } := by
  induction n with
  | zero => exact ⟨.refl s id, [], by simp [queueEos]⟩
  | succ n ih =>
    obtain ⟨honly, l, hctx⟩ := ih
    unfold queueEos
    dsimp only
    split
    · refine ⟨honly.trans (.setCtx ..), l ++ [eosEntry ((queueEos s id once n).ctx id) (id % 8) n], ?_⟩
      rw [State.setCtx_ctx_self]
      simp only [hctx, List.append_assoc]
    · exact ⟨honly, l, hctx⟩

theorem queueEos_only : ContextOnly s (queueEos s id once n) id := (queueEos_spec ..).1

theorem queueEos_ctx : (queueEos s id once n).ctx id = { s.ctx id with out := ((queueEos s id once n).ctx id).out } := by
  obtain ⟨-, l, h⟩ := queueEos_spec s id once n
  rw [h]

theorem queueEos_outc (j : Nat) : (queueEos s id once n).outc j = s.outc j := by
  rw [State.outc, State.outc, (queueEos_only s id once n).outs]

theorem queueEos_inc (j : Nat) : (queueEos s id once n).inc j = s.inc j := by
  rw [State.inc, State.inc, (queueEos_only s id once n).ins]

theorem mem_queueEos_succ {e : OutEntry} (h : e ∈ ((queueEos s id once n).ctx id).out) :
    e ∈ ((queueEos s id once (n + 1)).ctx id).out := by
  rw [queueEos]
  split
  · rw [State.setCtx_ctx_self]
    exact List.mem_append_left _ h
  · exact h

end

/-- An EOS stands on channel `n` of the context, released. -/
def EosStands (c : Ctx) (n : Nat) : Prop := ∃ e ∈ c.out, e.chan = n ∧ e.tok.isEos = true ∧ e.released = true

theorem EosStands.of_out {c d : Ctx} {n : Nat} (h : EosStands c n) (hout : d.out = c.out) : EosStands d n := by
  unfold EosStands
  rw [hout]
  exact h

/-- Queued once, an EOS stands on every output of the context that has not released one. -/
theorem queueEos_stands (s : State) (id : Nat) {n m : Nat} (hm : m < n) (hsrc : (s.outc (id / 8 * 64 + m)).src = .context (id % 8)) :
    (s.outc (id / 8 * 64 + m)).eos = true ∨ EosStands ((queueEos s id true n).ctx id) m := by
  induction n with
  | zero => exact absurd hm (Nat.not_lt_zero m)
  | succ n ih =>
    obtain hlt | rfl := Nat.lt_or_eq_of_le (Nat.le_of_lt_succ hm)
    · obtain heos | ⟨e, he, hstands⟩ := ih hlt
      · exact .inl heos
      · exact .inr ⟨e, mem_queueEos_succ _ _ _ _ he, hstands⟩
    · unfold queueEos
      simp only [queueEos_outc, hsrc, true_and]
      by_cases hdone : (s.outc (id / 8 * 64 + m)).eos = true ∨ EosStands ((queueEos s id true m).ctx id) m
      · obtain heos | ⟨e, he, hchan, htok, hrel⟩ := hdone
        · exact .inl heos
        · right
          split
          · exact ⟨e, by rw [State.setCtx_ctx_self]; exact List.mem_append_left _ he, hchan, htok, hrel⟩
          · exact ⟨e, he, hchan, htok, hrel⟩
      · right
        have hqueues : (!(true && ((s.outc (id / 8 * 64 + m)).eos ||
            ((queueEos s id true m).ctx id).out.any fun e => e.chan = m ∧ e.tok.isEos ∧ e.released))) = true := by
          simpa [EosStands, not_or] using hdone
        rw [if_pos hqueues, State.setCtx_ctx_self]
        exact ⟨_, List.mem_append_right _ (List.mem_singleton_self _), rfl, rfl, rfl⟩

section
variable (s : State) (i : Nat)

theorem ChannelsOnly.refl : ChannelsOnly s s := rfl

theorem ChannelsOnly.trans {s t u : State} (h : ChannelsOnly s t) (g : ChannelsOnly t u) : ChannelsOnly s u := by
  unfold ChannelsOnly at *
  rw [g, h]

theorem sinkTokens_only (n : Nat) : ChannelsOnly s (sinkTokens s i n) := by
  induction n generalizing s with
  | zero => exact .refl s
  | succ n ih =>
    unfold sinkTokens
    split
    · exact .refl s
    · exact (consume_only s i).trans (ih _)

theorem consume_inc_ne {j : Nat} (h : j ≠ i) : (consume s i).inc j = s.inc j := by
  cases hq : (s.inc i).queue with
  | nil => rw [consume_nil hq]
  | cons t rest =>
    obtain ⟨-, hne, -⟩ := consume_spec hq
    exact hne j h

theorem sinkTokens_inc_ne {j : Nat} (h : j ≠ i) (n : Nat) : (sinkTokens s i n).inc j = s.inc j := by
  induction n generalizing s with
  | zero => rfl
  | succ n ih =>
    unfold sinkTokens
    split
    · rfl
    · rw [ih, consume_inc_ne s i h]

/-- As many turns as the channel holds tokens discard them up to its EOS. -/
theorem sinkTokens_done {n : Nat} (hn : (s.inc i).queue.length ≤ n) :
    ((sinkTokens s i n).inc i).eos = true ∨ ((sinkTokens s i n).inc i).queue = [] := by
  induction n generalizing s with
  | zero => exact .inr (List.eq_nil_of_length_eq_zero (Nat.le_zero.1 hn))
  | succ n ih =>
    unfold sinkTokens
    split
    case isTrue hdone => simpa using hdone
    case isFalse hmore =>
      cases hq : (s.inc i).queue with
      | nil => exact absurd (by simp [hq]) hmore
      | cons t rest =>
        obtain ⟨hinc, -⟩ := consume_spec hq
        rw [hq, List.length_cons] at hn
        exact ih _ (by rw [hinc]; exact Nat.le_of_succ_le_succ hn)

end

section
variable (s : State) (id : Nat)

theorem sinkInputs_only (n : Nat) : ChannelsOnly s (sinkInputs s id n) := by
  induction n with
  | zero => exact .refl s
  | succ n ih =>
    unfold sinkInputs
    dsimp only
    split
    · exact ih.trans (sinkTokens_only ..)
    · exact ih

theorem sinkInputs_inc_ge {n m : Nat} (h : n ≤ m) : (sinkInputs s id n).inc (id / 8 * 64 + m) = s.inc (id / 8 * 64 + m) := by
  induction n with
  | zero => rfl
  | succ n ih =>
    unfold sinkInputs
    dsimp only
    split
    · rw [sinkTokens_inc_ne _ _ (by omega), ih (by omega)]
    · exact ih (by omega)

/-- Every input of the context is discarded up to its EOS. -/
theorem sinkInputs_done {n m : Nat} (hm : m < n) (hfeeds : feedsCtx (s.inc (id / 8 * 64 + m)).sink (id % 8) = true) :
    ((sinkInputs s id n).inc (id / 8 * 64 + m)).eos = true ∨ ((sinkInputs s id n).inc (id / 8 * 64 + m)).queue = [] := by
  induction n with
  | zero => exact absurd hm (Nat.not_lt_zero m)
  | succ n ih =>
    unfold sinkInputs
    dsimp only
    obtain hlt | rfl := Nat.lt_or_eq_of_le (Nat.le_of_lt_succ hm)
    · split
      · rw [sinkTokens_inc_ne _ _ (by omega)]
        exact ih hlt
      · exact ih hlt
    · rw [sinkInputs_inc_ge s id (Nat.le_refl m), if_pos hfeeds]
      exact sinkTokens_done _ _ (by rw [sinkInputs_inc_ge s id (Nat.le_refl m)])

/-- The end of HALT adds EOS entries to the output buffer of its context and accepts (R349). -/
theorem finishHalt_ctx : (finishHalt s id).ctx id =
    { s.ctx id with out := ((queueEos s id true 64).ctx id).out, seq := { (s.ctx id).seq with run := .accepted } } := by
  unfold finishHalt
  dsimp only
  rw [State.setCtx_ctx_self, (sinkInputs_only ..).ctx, queueEos_ctx]

theorem finishHalt_out : ((finishHalt s id).ctx id).out = ((queueEos s id true 64).ctx id).out := by rw [finishHalt_ctx]

theorem finishHalt_inc (j : Nat) : (finishHalt s id).inc j = (sinkInputs (queueEos s id true 64) id 64).inc j := by
  unfold finishHalt
  dsimp only
  rw [State.setCtx_inc]

end

theorem ctxId_div (die tile : Nat) {c : Nat} (hc : c < 8) : ctxId die tile c / 8 = placeOf die tile := by
  unfold ctxId
  omega

theorem ctxId_mod (die tile : Nat) {c : Nat} (hc : c < 8) : ctxId die tile c % 8 = c := by
  unfold ctxId
  omega

/-- Settles O49: what the head frame's commit makes of its context, the end of a HALT behind it, and the noting of waits behind both. -/
theorem framesCommitInOrder : Obligations.FramesCommitInOrder := by
  intro s die tile c fr id x hfind hlt hfrozen hkilled
  have hcan := canCommit_iff hfind hlt hfrozen hkilled
  obtain ⟨t, hexec, hwaits⟩ := exec_frameCommit s die tile c
  have hctx := hwaits.2 id
  refine ⟨?commits, ?halts, ?waits⟩
  case commits =>
    intro hpoison hfired hstops hhalting
    have hcommit := commitFrame_of_canCommit (hcan.2 ⟨hpoison, hfired, hstops⟩) hhalting
    rw [hcommit] at hwaits hctx
    rw [State.setCtx_ctx_self] at hctx
    refine ⟨t, hexec, hwaits.beside, ?_⟩
    rw [hctx]
    refine ⟨headCommitted_chead .., headCommitted_commits .., headCommitted_frames .., ?_,
      fun hclosing hlast => headCommitted_accepts x _ hclosing hlast, ?_⟩
    · exact (congrArg List.length (headCommitted_out ..)).trans (releaseFrom_length ..)
    · intro e rest hout hneed
      obtain ⟨rest', h⟩ := releaseFrom_cons hneed rest
      exact ⟨rest', (headCommitted_out ..).trans (by rw [← h]; exact congrArg (releaseFrom _ · []) hout)⟩
  case halts =>
    intro hpoison hfired hstops hhalting hc
    have hdiv : id / 8 = placeOf die tile := ctxId_div die tile hc
    have hmod : id % 8 = c := ctxId_mod die tile hc
    have hcommit := commitFrame_of_halting (hcan.2 ⟨hpoison, hfired, hstops⟩) hhalting
    generalize hs1 : s.setCtx id (headCommitted x (s.time (id / 2048)).toNat) = s1 at hcommit
    have hinc1 (j : Nat) : s1.inc j = s.inc j := by rw [← hs1]; rfl
    have houtc1 (j : Nat) : s1.outc j = s.outc j := by rw [← hs1]; rfl
    have hctx1 : s1.ctx id = headCommitted x (s.time (id / 2048)).toNat := by rw [← hs1, State.setCtx_ctx_self]
    rw [hcommit] at hwaits hctx
    rw [finishHalt_ctx, hctx1] at hctx
    refine ⟨t, hexec, by rw [hctx]; exact headCommitted_chead .., by rw [hctx]; exact headCommitted_commits ..,
      by rw [hctx]; exact headCommitted_frames .., by rw [hctx], fun n hn hsrc => ?_, fun n hn hfeeds => ?_⟩
    · have hstands := queueEos_stands s1 id hn (by rw [houtc1, hdiv, hmod]; exact hsrc)
      rw [houtc1, hdiv] at hstands
      exact hstands.imp_right fun h => h.of_out ((hwaits.2 id).out.trans (finishHalt_out s1 id))
    · have hqueue : (queueEos s1 id true 64).inc (id / 8 * 64 + n) = s.inc (placeOf die tile * 64 + n) := by
        rw [queueEos_inc, hinc1, hdiv]
      have hdone := sinkInputs_done (queueEos s1 id true 64) id hn (by rw [hqueue, hmod]; exact hfeeds)
      rwa [hdiv, ← finishHalt_inc, ← hwaits.inc] at hdone
  case waits =>
    intro hnot
    have hcannot : ¬ x.canCommit = true := by
      rw [hcan]
      rintro ⟨hpoison, hfired, hstops⟩
      obtain h | h | ⟨y, hy, hbase⟩ := hnot
      · exact Bool.false_ne_true (hpoison.symm.trans h)
      · exact h hfired
      · exact hstops y hy hbase
    rw [commitFrame_of_not_canCommit hcannot] at hwaits hctx
    exact ⟨t, hexec, hwaits.beside_self id, hctx⟩

end Sys2Proof.Machine

/-! ## Tag exhaustion, aging, yields and the delivery of faults (O50) -/

namespace Sys2Proof.Machine
open Sys2Proof

/-! ### TAG EXHAUSTED (R105) -/

/-- The depth and the live frames that the detail word of R105 gives. -/
theorem tagsDetail_fields (s : State) (id depth : Nat) : (tagsDetail s id depth).extractLsb' 42 6 = BitVec.ofNat 6 depth ∧
    (tagsDetail s id depth).extractLsb' 30 12 = BitVec.ofNat 12 (s.ctx id).live := by
  have hfields (a : BitVec 16) (b : BitVec 6) (c : BitVec 12) (d : BitVec 8) (e : BitVec 7) (f : BitVec 15) :
      (a ++ b ++ c ++ d ++ e ++ f).extractLsb' 42 6 = b ∧ (a ++ b ++ c ++ d ++ e ++ f).extractLsb' 30 12 = c := by
    constructor <;>
      · ext i hi
        simp only [BitVec.getElem_extractLsb', BitVec.getLsbD_append]
        grind
  exact hfields ..

/-- A fault whose rule gives both words uses no free value. -/
theorem takeFault_given (s : State) (id : Nat) (code : BitVec 8) (src : BitVec 16) (frame index : Nat) (aux detail : W64)
    (site : StopSite) (base : Option Nat) :
    OnlyContext s (takeFault s id code src frame index (some aux) (some detail) site base) id :=
  ⟨rfl, (takeFault_only ..).2⟩

section
variable {s s1 : State} {die tile c id : Nat} (hid : ctxId die tile c = id) (hs1 : noteTile s (placeOf die tile) = s1)
include hid hs1

/-- A wait of 65,536 ticks without a commit is recorded. -/
theorem exec_tagExhausted {start index depth : Nat} {hdr : W64} (hwait : (s1.ctx id).seq.wait = some start)
    (hat : throttledAt s1 id = some (index, hdr, depth)) (hf : (s1.ctx id).frozen = false) (hk : (s1.ctx id).killed = false)
    (hstops : (s1.ctx id).stops = []) (hdue : max start (s1.ctx id).lastCommit + 65536 ≤ (s1.time die).toNat) :
    ∃ src, exec (.tagExhausted die tile c) s = .next (takeFault s1 id codeTags src (s1.ctx id).ahead index (some hdr)
      (some (tagsDetail s1 id depth)) .tags none) := by
  subst hid
  have hwaited : decide ((s1.time die).toNat < max start (s1.ctx (ctxId die tile c)).lastCommit + 65536) = false :=
    decide_eq_false (Nat.not_lt.2 hdue)
  refine ⟨sourceAt (ctxId die tile c / 8) (if (s1.ctx (ctxId die tile c)).grammar.isSome then 16 else 17), ?_⟩
  change execTagExhausted die tile c s = _
  unfold execTagExhausted
  simp only [hs1, hwait, hat, hf, hk, hstops, List.any_nil, hwaited, Bool.or_false, Bool.false_eq_true, if_false]

theorem exec_faultDelivery : exec (.faultDelivery die tile c) s = .next (deliverFault s1 id) := by
  rw [← hs1, ← hid]
  rfl

end

/-! ### FIRING AGING (R224) -/

/-- A ready firing's age goes up by one. -/
def agedCtx (c : Ctx) (ins frame : Nat) : Ctx :=
  { c with ages := (c.ages.filter fun x => !(x.1 = ins ∧ x.2.1 = frame)) ++
      [(ins, frame, min 7 (((c.ages.find? fun x => x.1 = ins ∧ x.2.1 = frame).map (·.2.2)).getD 0 + 1))] }

theorem exec_firingAging {s : State} {die tile c id ins frame k : Nat} (hid : ctxId die tile c = id)
    (hfires : fires (s.ctx id) = true) (hready : (frame, k) ∈ firingsOf s id ins) :
    exec (.firingAging die tile c ins frame) s = .next (s.setCtx id (agedCtx (s.ctx id) ins frame)) := by
  have hany : ((firingsOf s id ins).any fun f => f.1 = frame) = true := List.any_eq_true.2 ⟨_, hready, by simp⟩
  subst hid
  exact if_pos (by rw [hfires, hany, Bool.and_self])

theorem effPrio_agedCtx (c : Ctx) (ins frame : Nat) : effPrio (agedCtx c ins frame) ins frame = min 7 (effPrio c ins frame + 1) := by
  have hnone : (c.ages.filter fun x => !(x.1 = ins ∧ x.2.1 = frame)).find? (fun x => x.1 = ins ∧ x.2.1 = frame) = none := by
    rw [List.find?_eq_none]
    intro x hx
    rw [Bool.not_eq_true]
    have hother := (List.mem_filter.1 hx).2
    rwa [Bool.not_eq_true'] at hother
  have hage : (agedCtx c ins frame).ages.find? (fun x => x.1 = ins ∧ x.2.1 = frame) =
      some (ins, frame, min 7 (((c.ages.find? fun x => x.1 = ins ∧ x.2.1 = frame).map (·.2.2)).getD 0 + 1)) := by
    rw [agedCtx, List.find?_append, hnone]
    simp
  unfold effPrio
  dsimp only
  rw [hage]
  dsimp only [agedCtx, Option.map_some, Option.getD_some]
  omega

theorem ChannelsOnly.parts {s t : State} (h : ChannelsOnly s t) : t.parts = s.parts := by rw [h]

/-! ### What a kill leaves of the partitions (R221, R232) -/

/-- Of each partition only its running launches differ. -/
structure RunningOnly (s t : State) : Prop where
  part : ∀ p, t.part p = { s.part p with running := (t.part p).running }

namespace RunningOnly
variable {s t u : State}

theorem of_parts (h : t.parts = s.parts) : RunningOnly s t := ⟨fun p => by rw [State.part, State.part, h]⟩

theorem trans (h : RunningOnly s t) (g : RunningOnly t u) : RunningOnly s u := ⟨fun p => by rw [g.part p, h.part p]⟩

theorem fold {α : Type} {f : State → α → State} (hf : ∀ s a, RunningOnly s (f s a)) (l : List α) (s : State) :
    RunningOnly s (l.foldl f s) := by
  induction l generalizing s with
  | nil => exact of_parts rfl
  | cons a l ih => exact (hf s a).trans (ih (f s a))

end RunningOnly

theorem sendItem_parts (s : State) (die e k : Nat) (x : RingItem) : (sendItem s die e k x).parts = s.parts := by
  unfold sendItem
  split <;> rfl

theorem closeSends_running (s : State) (l : List (Nat × Nat × Nat)) : RunningOnly s (closeSends s l) :=
  .fold (fun _ _ => .of_parts (sendItem_parts ..)) l s

theorem editRunning_running (s : State) (part id : Nat) (g : Running → Running) : RunningOnly s (editRunning s part id g) := by
  refine ⟨fun p => ?_⟩
  unfold editRunning
  by_cases hp : p = part
  · subst hp
    rw [State.setPart_part_self]
  · rw [State.setPart_part_ne _ _ _ hp]

theorem markSpliced_parts (s : State) : (markSpliced s).parts = s.parts := rfl

theorem refuseSuccessors_running (s : State) (part launch : Nat) : RunningOnly s (refuseSuccessors s part launch) := by
  unfold refuseSuccessors
  dsimp only
  split
  · exact .of_parts rfl
  · exact (RunningOnly.fold (fun s id => editRunning_running s part id _) _ s).trans (.of_parts (markSpliced_parts _))

theorem markKilled_running (s : State) (id : Nat) : RunningOnly s (markKilled s id) :=
  (editRunning_running ..).trans (refuseSuccessors_running ..)

theorem endRotation_parts (s : State) (die e : Nat) : (endRotation s die e).parts = s.parts := by
  unfold endRotation withdrawGrants
  dsimp only
  split <;> rfl

theorem endRotations_running (s : State) (l : List (Nat × Engine)) :
    RunningOnly s (l.foldl (fun s e => endRotation s (e.1 / 32) (e.1 % 32)) s) := by
  refine RunningOnly.fold (fun s e => ?_) l s
  exact .of_parts (endRotation_parts s (e.1 / 32) (e.1 % 32))

theorem abandonUnits_running (s : State) (id : Nat) : RunningOnly s (abandonUnits s id) := by
  unfold abandonUnits
  dsimp only
  split
  · exact (RunningOnly.of_parts (State.setIsland_parts ..)).trans (endRotations_running ..)
  · exact endRotations_running ..

theorem withdrawArrivals_parts (s : State) (id : Nat) : (withdrawArrivals s id).parts = s.parts := rfl
theorem abandonCopies_parts (s : State) (id : Nat) : (abandonCopies s id).parts = s.parts := rfl

/-- What a kill does before it empties the context. -/
def killBegun (s : State) (id : Nat) : State :=
  abandonCopies (abandonUnits (withdrawArrivals (markKilled (closeSends s (openSends (s.ctx id) id)) id) id) id) id

theorem killBegun_running (s : State) (id : Nat) : RunningOnly s (killBegun s id) :=
  have hmarked := (closeSends_running s (openSends (s.ctx id) id)).trans (markKilled_running _ id)
  have hwithdrawn := hmarked.trans (.of_parts (withdrawArrivals_parts _ id))
  (hwithdrawn.trans (abandonUnits_running _ id)).trans (.of_parts (abandonCopies_parts _ id))

/-- A kill of a running context marks it, and of each partition changes the running launches alone. -/
theorem killContext_spec {s : State} {id : Nat} (ha : (s.ctx id).active = true) (hk : (s.ctx id).killed = false) :
    RunningOnly s (killContext s id) ∧ ((killContext s id).ctx id).killed = true := by
  have hlive : ((s.ctx id).killed || !(s.ctx id).active) = false := by rw [ha, hk]; rfl
  have hkill : ∃ c : Ctx, c.killed = true ∧
      killContext s id = sinkInputs (queueEos ((killBegun s id).setCtx id c) id false 64) id 64 := by
    unfold killContext
    dsimp only
    rw [hlive, if_neg Bool.false_ne_true]
    exact ⟨_, rfl, rfl⟩
  obtain ⟨c, hc, hkill⟩ := hkill
  rw [hkill]
  constructor
  · refine (killBegun_running s id).trans (.of_parts ?_)
    rw [(sinkInputs_only ..).parts, (queueEos_only ..).parts, State.setCtx_parts]
  · rw [(sinkInputs_only ..).ctx, queueEos_ctx, State.setCtx_ctx_self]
    exact hc

/-! ### The report queue (R231, R266) -/

/-- The report queue of a partition takes a record. -/
def QueueHasRoom (p : Part) : Prop := (p.prod - p.cons).toNat < 64 ∧ p.waiting = []

/-- A record placed in the report queue, and its signal. -/
def reported (s : State) (part : Nat) (r : Record) : State :=
  signal (s.setPart part { s.part part with
    reports := SMap.set (s.part part).reports ((s.part part).prod.toNat % 64) r, prod := (s.part part).prod + 1 }) (part + 1) 1

section
variable {s : State} {part : Nat} {r : Record} {id : Nat}

/-- With room the record stands in the queue and its context is killed. -/
theorem reportRecord_room (hroom : QueueHasRoom (s.part part)) (ha : (s.ctx id).active = true) (hk : (s.ctx id).killed = false) :
    ((reportRecord s part r (some id)).part part).prod = (s.part part).prod + 1 ∧
    SMap.find? ((reportRecord s part r (some id)).part part).reports ((s.part part).prod.toNat % 64) = some r ∧
    ((reportRecord s part r (some id)).ctx id).killed = true := by
  obtain ⟨hfree, hwaiting⟩ := hroom
  have hreport : reportRecord s part r (some id) = killContext (reported s part r) id :=
    if_pos ⟨hfree, List.isEmpty_iff.2 hwaiting⟩
  have hpart : (reported s part r).part part = { s.part part with
      reports := SMap.set (s.part part).reports ((s.part part).prod.toNat % 64) r, prod := (s.part part).prod + 1 } :=
    State.setPart_part_self _ _ _
  obtain ⟨hparts, hkilled⟩ := killContext_spec (s := reported s part r) (id := id) ha hk
  rw [hreport, hparts.part part, hpart]
  exact ⟨rfl, SMap.find?_set_self _ _ _, hkilled⟩

/-- Without room the keep cores hold the record. -/
theorem reportRecord_full (hroom : ¬ QueueHasRoom (s.part part)) (kill : Option Nat) :
    reportRecord s part r kill = s.setPart part { s.part part with waiting := (s.part part).waiting ++ [(r, kill)] } :=
  if_neg fun h => hroom ⟨h.1, List.isEmpty_iff.1 h.2⟩

end

/-! ### FAULT DELIVERY (R227, R229) -/

theorem foldl_pick_mem {α : Type} {f : Option α → α → Option α} (hf : ∀ acc x, f acc x = some x ∨ f acc x = acc) (l : List α)
    {acc : Option α} {y : α} (h : l.foldl f acc = some y) : y ∈ l ∨ acc = some y := by
  induction l generalizing acc with
  | nil => exact .inr h
  | cons a l ih =>
    obtain hy | hy := ih h
    · exact .inl (.tail _ hy)
    · obtain hpick | hkeep := hf acc a
      · rw [hpick] at hy
        exact .inl (by rw [Option.some.inj hy]; exact .head _)
      · exact .inr (hkeep.symm.trans hy)

/-- The record that is due is one of the context's. -/
theorem mem_of_nextDelivery {c : Ctx} {y : Stop} (h : nextDelivery c = some y) : y ∈ c.stops := by
  unfold nextDelivery at h
  split at h
  · exact absurd h (Option.some_ne_none y).symm
  · obtain hy | hy := foldl_pick_mem (fun acc x => by
      cases acc with
      | none => exact .inl rfl
      | some z =>
        dsimp only
        split
        · exact .inl rfl
        · exact .inr rfl) _ h
    · exact List.mem_of_mem_filter hy
    · exact absurd hy (Option.some_ne_none y).symm

theorem mem_setDelivered {c : Ctx} {y : Stop} (h : y ∈ c.stops) : { y with delivered := true } ∈ (setDelivered c y).stops :=
  List.mem_map.2 ⟨y, h, if_pos rfl⟩

section
variable {s : State} {id : Nat} {y : Stop} (hnext : nextDelivery (s.ctx id) = some y) (hf : (s.ctx id).frozen = false)
include hnext hf

theorem deliverFault_toOwner (howner : toOwner s id y.record = true) (hcode : y.record.code ≠ codeLantern) :
    deliverFault s id = reportRecord (s.setCtx id (setDelivered (s.ctx id) y)) (s.ctx id).part y.record (some id) := by
  have hlantern : (y.record.code == codeLantern) = false := beq_false_of_ne hcode
  simp only [deliverFault, hf, hnext, howner, hlantern, Bool.false_eq_true, if_false, if_true]

theorem deliverFault_toHandler (howner : toOwner s id y.record = false) : deliverFault s id = deliverToHandler s id y := by
  simp only [deliverFault, hf, hnext, howner, Bool.false_eq_true, if_false]

end

/-! ### The handler context's frame (R90, R229) -/

section
variable (s : State) (place c : Nat)

theorem noteBound_only (num : Nat) (word : Option Nat) (n : Nat) : ChannelsOnly s (noteBound s place c num word n) := by
  induction n with
  | zero => exact .refl s
  | succ n ih =>
    unfold noteBound
    dsimp only
    split
    · split
      · exact ih.trans rfl
      · exact ih
    · exact ih

/-- An allocation gives its context one frame ahead, and touches no other. -/
theorem allocate_ctx (fr : Frame) (j : Nat) : ∃ fs, (allocate s place c fr).ctx j = if j = place * 8 + c then
    { s.ctx (place * 8 + c) with frames := fs, ahead := (s.ctx (place * 8 + c)).ahead + 1 } else s.ctx j := by
  unfold allocate
  dsimp only
  rw [(noteBound_only ..).ctx, State.setCtx_ctx_get]
  exact ⟨_, rfl⟩

end

/-- A delivered run leaves the hold registers, the record that waits for its answer and the allocation head. -/
theorem deliverRun_keeps (s : State) (id num : Nat) (ins : BitVec 7) (p : Port) (fmt : BitVec 4) (key : BitVec 12) (count : BitVec 4)
    (l : List Lane) : let d := (deliverRun s id num ins p fmt key count l).ctx id
    d.holds = (s.ctx id).holds ∧ d.answering = (s.ctx id).answering ∧ d.ahead = (s.ctx id).ahead := by
  have h := deliverRun_ctx s id num ins p fmt key count l
  dsimp only at h ⊢
  rw [h]
  exact ⟨rfl, rfl, rfl⟩

/-- A handler context to which record `r` of context `c` of its tile has been handed. -/
def handlerGiven (hc : Ctx) (r : Record) (c : Nat) : Ctx := { hc with holds := hc.holds.set 15 (recordLanes r), answering := some c }

/-- Record `y` of context `id` handed to handler context `h`, which has no frame for it yet. -/
def handed (s : State) (id h : Nat) (y : Stop) : State :=
  let u := s.setCtx h (handlerGiven (s.ctx h) y.record (id % 8))
  u.setCtx id (setDelivered (u.ctx id) y)

section
variable {s : State} {id h : Nat} (y : Stop)

theorem handed_ctx_handler (hne : h ≠ id) : (handed s id h y).ctx h = handlerGiven (s.ctx h) y.record (id % 8) := by
  unfold handed
  dsimp only
  rw [State.setCtx_ctx_ne _ _ _ hne, State.setCtx_ctx_self]

theorem handed_ctx_self (hne : h ≠ id) : (handed s id h y).ctx id = setDelivered (s.ctx id) y := by
  unfold handed
  dsimp only
  rw [State.setCtx_ctx_self, State.setCtx_ctx_ne _ _ _ hne.symm]

variable (hh : id / 8 * 8 + handlerCtx (s.ctx id) = h) (hanswering : (s.ctx h).answering = none) (hwait : (s.ctx h).seq.wait = none)
  (hroom : mayAllocate s (id / 8) (handlerCtx (s.ctx id)) 0 = true)
include hh hanswering hwait hroom

/-- A handler that is free gets one frame, and in it the entry run where the handler register names a port. -/
theorem deliverToHandler_cases : ∃ fr, let u := allocate (handed s id h y) (id / 8) (handlerCtx (s.ctx id)) fr
    deliverToHandler s id y = u ∨ ∃ num i p l, deliverToHandler s id y = deliverRun u h num i p fmtN32 0 0 l := by
  subst hh
  refine ⟨{ num := (s.ctx (id / 8 * 8 + handlerCtx (s.ctx id))).ahead }, ?_⟩
  unfold deliverToHandler
  simp only [hanswering, hwait, hroom, Option.isSome_none, Bool.or_false, Bool.not_true, Bool.false_eq_true, if_false]
  split
  · exact .inr ⟨_, _, _, _, rfl⟩
  · exact .inl rfl

/-- The handler context holds the record and has one frame more; the record stands as delivered. -/
theorem deliverToHandler_spec (hne : h ≠ id) : let t := deliverToHandler s id y
    (t.ctx h).answering = some (id % 8) ∧ (t.ctx h).holds = (s.ctx h).holds.set 15 (recordLanes y.record) ∧
      (t.ctx h).ahead = (s.ctx h).ahead + 1 ∧ (t.ctx id).stops = (setDelivered (s.ctx id) y).stops := by
  dsimp only
  obtain ⟨fr, hcases⟩ := deliverToHandler_cases y hh hanswering hwait hroom
  obtain ⟨fs, hself⟩ := allocate_ctx (handed s id h y) (id / 8) (handlerCtx (s.ctx id)) fr h
  obtain ⟨_, hother⟩ := allocate_ctx (handed s id h y) (id / 8) (handlerCtx (s.ctx id)) fr id
  rw [hh, if_pos rfl, handed_ctx_handler y hne] at hself
  rw [hh, if_neg hne.symm, handed_ctx_self y hne] at hother
  obtain ht | ⟨num, i, p, l, ht⟩ := hcases
  · rw [ht, hself, hother]
    exact ⟨rfl, rfl, rfl, rfl⟩
  · obtain ⟨hholds, hans, hahead⟩ := deliverRun_keeps (allocate (handed s id h y) (id / 8) (handlerCtx (s.ctx id)) fr) h num i p
      fmtN32 0 0 l
    rw [ht, hholds, hans, hahead, (deliverRun_only ..).2 id hne.symm, hself, hother]
    exact ⟨rfl, rfl, rfl, rfl⟩

end

/-- Settles O50: each event from the state in which the waits of its tile have been noted. -/
theorem waitsAgesYieldsAndDelivery : Obligations.WaitsAgesYieldsAndDelivery := by
  intro s die tile c id s1 x
  have hs1 : noteTile s (placeOf die tile) = s1 := rfl
  have htime : s1.time die = s.time die := (noteTile_waits s (placeOf die tile)).time die
  clear_value s1
  refine ⟨?exhausted, ?aging, rfl, ?delivery⟩
  case exhausted =>
    intro start index hdr depth hwait hat hf hk hstops hdue
    rw [← htime] at hdue
    obtain ⟨src, hexec⟩ := exec_tagExhausted rfl hs1 hwait hat hf hk hstops hdue
    obtain ⟨y, hctx, hcode, -, hframe, hindex, -, -, -, -, haux, hdetail⟩ := takeFault_spec s1 id codeTags src x.ahead index (some hdr)
      (some (tagsDetail s1 id depth)) .tags none
    obtain ⟨hdepth, hlive⟩ := tagsDetail_fields s1 id depth
    refine ⟨_, y, hexec, takeFault_given .., ?_, hcode, hindex, hframe, haux _ rfl, ?_, ?_⟩
    · exact (congrArg Ctx.stops hctx).trans (congrArg (· ++ [y]) hstops)
    · rw [hdetail _ rfl, hdepth]
    · rw [hdetail _ rfl, hlive]
  case aging =>
    intro ins frame k hfires hready
    refine ⟨_, exec_firingAging rfl hfires hready, ⟨rfl, fun j hj => State.setCtx_ctx_ne _ _ _ hj⟩, ?_⟩
    rw [State.setCtx_ctx_self]
    exact ⟨effPrio_agedCtx .., rfl⟩
  case delivery =>
    intro y hnext hf hcode room
    have hexec := exec_faultDelivery (id := id) rfl hs1
    refine ⟨fun howner ha hk => ?_, ?_⟩
    · rw [deliverFault_toOwner hnext hf howner hcode] at hexec
      have hctx : (s1.setCtx id (setDelivered x y)).ctx id = setDelivered x y := State.setCtx_ctx_self _ _ _
      refine ⟨fun hroom => ⟨_, hexec, ?_⟩, fun hroom => ⟨_, hexec, ?_⟩⟩
      · exact reportRecord_room (s := s1.setCtx id (setDelivered x y)) hroom (by rw [hctx]; exact ha) (by rw [hctx]; exact hk)
      · rw [reportRecord_full (s := s1.setCtx id (setDelivered x y)) hroom, State.setPart_part_self]
        exact ⟨rfl, (congrArg Ctx.killed hctx).trans hk⟩
    · intro howner h hne hans hwait halloc hlen
      rw [deliverFault_toHandler hnext hf howner] at hexec
      obtain ⟨hansw, hholds, hahead, hstops⟩ := deliverToHandler_spec y rfl hans hwait halloc hne
      refine ⟨_, hexec, hansw, ?_, hahead, { y with delivered := true }, ?_, rfl, rfl⟩
      · rw [hholds, List.getD_eq_getElem?_getD, List.getElem?_set_self (by rw [hlen]; decide), Option.getD_some]
      · rw [hstops]
        exact mem_setDelivered (mem_of_nextDelivery hnext)

end Sys2Proof.Machine

/-! ## The instructions of a matrix island (O37) -/

namespace Sys2Proof.Machine
open Sys2Proof

/-! ### Bindings (R128, R423) -/

/-- A tile of the latch once tile `t` has taken binding `b`. -/
theorem bindTile_getD (x : Island) (t : Nat) (b : BitVec 12 × Nat) (n : Nat) : (bindTile x t b).latch.getD n {} =
    if n < x.latch.length ∧ n = t then { x.latch.getD n {} with bind := some b, pending := none }
    else if (x.latch.getD n {}).bind = some b then { x.latch.getD n {} with bind := none } else x.latch.getD n {} := by
  unfold bindTile
  by_cases h : n < x.latch.length
  · simp [List.getD_eq_getElem?_getD, h]
  · simp [List.getD_eq_getElem?_getD, h]

theorem bindTile_bind_self {x : Island} {t : Nat} (h : t < x.latch.length) (b : BitVec 12 × Nat) :
    ((bindTile x t b).latch.getD t {}).bind = some b := by
  rw [bindTile_getD, if_pos ⟨h, rfl⟩]

/-- No other tile keeps the binding, and one that had another is as it was. -/
theorem bindTile_other (x : Island) {t n : Nat} (h : n ≠ t) (b : BitVec 12 × Nat) :
    ((bindTile x t b).latch.getD n {}).bind ≠ some b ∧
      ((x.latch.getD n {}).bind ≠ some b → (bindTile x t b).latch.getD n {} = x.latch.getD n {}) := by
  rw [bindTile_getD, if_neg fun hn => h hn.2]
  split
  case isTrue hb => exact ⟨(Option.some_ne_none b).symm, fun hne => absurd hb hne⟩
  case isFalse hb => exact ⟨hb, fun _ => rfl⟩

section
variable {s : State} {d : Dst} {obj : BitVec 2}

theorem exec_wbind (key : BitVec 12) (q : BitVec 9) (hload : ((s.island s.focus.place).latch.getD obj.toNat {}).loading = false)
    (hany : (operands s).a.any Option.isSome = true) : exec (.wbind d obj key q) s = .next (finishN32
      (s.setIsland s.focus.place (bindTile (s.island s.focus.place) obj.toNat (key, q.toNat))) d (List.replicate s.focus.k (some 0))) := by
  change execWbind d obj key q s = _
  unfold execWbind
  simp only [Opnds.anyLane, hany, if_true, editIsland, hload, Bool.false_eq_true, if_false, operands_k]

end

/-! ### A firing that waits for its work -/

section
variable {s : State}

/-- Of its context the beginning of work changes the lists of firings alone. -/
theorem beginWork_eq (s : State) (w : Work) : beginWork s w =
    if s.here.inflight.any fun x => x.ins = s.focus.ins ∧ x.frame = s.focus.frame then s
    else s.setHere { s.here with
      inflight := s.here.inflight ++ [⟨s.focus.ins, s.focus.frame, s.focus.k, w⟩]
      resumes := s.here.resumes.filter fun x => !(x.1 = s.focus.ins ∧ x.2.1 = s.focus.frame) } := rfl

@[simp] theorem beginWork_frames (s : State) (w : Work) : (beginWork s w).here.frames = s.here.frames := by
  rw [beginWork_eq]
  split
  · rfl
  · rw [State.setHere_here]

@[simp] theorem beginWork_island (s : State) (w : Work) (p : Nat) : (beginWork s w).island p = s.island p := by
  rw [beginWork_eq]
  split <;> rfl

@[simp] theorem beginWork_mem (s : State) (w : Work) : (beginWork s w).mem = s.mem := by
  rw [beginWork_eq]
  split <;> rfl

/-- A firing that waits for nothing yet waits for its work. -/
theorem beginWork_inflight (h : ∀ w ∈ s.here.inflight, ¬ (w.ins = s.focus.ins ∧ w.frame = s.focus.frame)) (w : Work) :
    (beginWork s w).here.inflight = s.here.inflight ++ [⟨s.focus.ins, s.focus.frame, s.focus.k, w⟩] := by
  have hnone : (s.here.inflight.any fun x => decide (x.ins = s.focus.ins ∧ x.frame = s.focus.frame)) = false :=
    List.any_eq_false.2 fun x hx => by simpa using h x hx
  rw [beginWork_eq, hnone, if_neg Bool.false_ne_true, State.setHere_here]

/-- No resume stands for a fresh firing. -/
theorem FreshFiring.resumes_any (h : FreshFiring s) :
    (s.here.resumes.any fun x => decide (x.1 = s.focus.ins ∧ x.2.1 = s.focus.frame)) = false :=
  List.any_eq_false.2 fun x hx => by simpa using h x hx

/-- A lane that goes by itself changes of its context what a result may change, and nothing else. -/
theorem sendLane_keeps (s : State) (d : Dst) (j : Nat) (v : Lane) :
    ContextOnly s (sendLane s d j v) s.focus.ctxId ∧ SendFrame s.here (sendLane s d j v).here := by
  let u : State := { s with focus := { s.focus with frame := s.focus.frame + j, k := 1 } }
  let a := sendResult u fmtN32 false ⟨[v], 0, 0⟩ (inTileTarget d.ta)
  have ha : ContextOnly u a u.focus.ctxId := sendResult_only ..
  have hb : ContextOnly a (sendResult a fmtN32 true ⟨[v], 0, 0⟩ (inTileTarget d.tb)) a.focus.ctxId := sendResult_only ..
  rw [ha.focus] at hb
  have hfa := sendResult_here u fmtN32 false ⟨[v], 0, 0⟩ (inTileTarget d.ta)
  have hfb := sendResult_here a fmtN32 true ⟨[v], 0, 0⟩ (inTileTarget d.tb)
  obtain ⟨hrest, hctx⟩ := ha.trans hb
  refine ⟨⟨?_, hctx⟩, ?_⟩
  · exact congrArg (fun t : State => { t with focus := s.focus }) hrest
  · have h := hfa.trans hfb
    rw [(ha.trans hb).here] at h
    exact h

/-- So do the empty lanes of a firing. -/
theorem sendEmpty_keeps (d : Dst) (v : Lane) (l : List Lane) (s : State) (j : Nat) :
    ContextOnly s (sendEmpty s d v l j) s.focus.ctxId ∧ SendFrame s.here (sendEmpty s d v l j).here := by
  induction l generalizing s j with
  | nil => exact ⟨.refl s _, rfl⟩
  | cons a t ih =>
    cases a with
    | some w => exact ih s (j + 1)
    | none =>
      obtain ⟨honly, hhere⟩ := sendLane_keeps s d j v
      obtain ⟨honly', hhere'⟩ := ih (sendLane s d j v) (j + 1)
      rw [honly.focus] at honly'
      exact ⟨honly.trans honly', hhere.trans hhere'⟩

end

/-! ### Loads of weights (R279, R422) -/

theorem nextLane_none {l : List Lane} (h : l.any Option.isSome = false) (j : Nat) : nextLane l j = none := by
  refine List.find?_eq_none.2 fun i hi => ?_
  have hlane : laneAt l i = none := by
    rw [laneAt, List.getD_eq_getElem _ _ (List.mem_range.1 hi)]
    exact Option.not_isSome_iff_eq_none.1 (List.any_eq_false.1 h _ (List.getElem_mem _))
  simp [hlane]

/-- The first lane that holds a value stands behind the empty ones. -/
theorem nextLane_append {l : List Lane} (h : ∀ x ∈ l, x = none) (v : W32) (rest : List Lane) :
    nextLane (l ++ some v :: rest) 0 = some l.length := by
  refine List.find?_range_eq_some.2 ⟨?_, ?_, fun i hi => ?_⟩
  · simp [laneAt, List.getD_eq_getElem?_getD]
  · simp
  · simp [laneAt, List.getD_eq_getElem?_getD, List.getElem?_append_left hi, List.getElem?_eq_getElem hi, h _ (List.getElem_mem hi)]

/-- The island once the fill of tile `t` has been accepted: it is unbound, and `load` stands behind the loads before it. -/
def loadAccepted (x : Island) (t : Nat) (load : Nat × Nat × Nat) : Island :=
  { x with
    latch := x.latch.modify t fun y => { y with bind := none, pending := none, loading := true }
    loads := x.loads ++ [load] }

theorem loadAccepted_tile {x : Island} {t : Nat} (h : t < x.latch.length) (load : Nat × Nat × Nat) :
    ((loadAccepted x t load).latch.getD t {}).bind = none ∧ ((loadAccepted x t load).latch.getD t {}).loading = true := by
  simp [loadAccepted, List.getD_eq_getElem?_getD, h]

section
variable {s : State} {d : Dst} {obj : BitVec 2} {base : BitVec 3} {f : Fmt} {kr : BitVec 9} {nc : BitVec 7}

theorem exec_wload_empty (h : (operands s).a.any Option.isSome = false) :
    exec (.wload d obj base f kr nc) s = .next (finishN32 s d (List.replicate s.focus.k (some 0))) := by
  change execWload d obj base f kr nc s = _
  simp only [execWload, nextLane_none h, operands_k]

/-- The fill of the first lane with a value is accepted once the empty lanes have gone, and the firing waits for it. -/
theorem exec_wload_lane {l1 rest : List Lane} {v : W32} (hfresh : FreshFiring s) (ha : (operands s).a = l1 ++ some v :: rest)
    (hl : ∀ l ∈ l1, l = none) (halign : baseVa s base % 4 = 0) : exec (.wload d obj base f kr nc) s =
      .next (beginWork ((sendEmpty s d (some 0) (operands s).a 0).setIsland s.focus.place
        (loadAccepted (s.island s.focus.place) obj.toNat (s.focus.ctx, s.focus.ins, s.focus.frame))) (.weights obj.toNat l1.length)) := by
  have honly := (sendEmpty_keeps d (some 0) (operands s).a s 0).1
  have hisland (p : Nat) : (sendEmpty s d (some 0) (operands s).a 0).island p = s.island p := by
    rw [State.island, State.island, honly.islands]
  have hnext : nextLane (operands s).a (resumeHere s).lane = some l1.length := by
    rw [resumeHere_fresh hfresh, ha]
    exact nextLane_append hl v rest
  change execWload d obj base f kr nc s = _
  simp only [execWload, hnext, hfresh.resumes_any, Bool.false_eq_true, if_false, halign, ne_eq, not_true_eq_false, editIsland,
    loadAccepted, hisland]

end

/-! ### Sets of rows (R345) -/

/-- The set that GATH arms for a lane pair. -/
def armedSet (s : State) (chunks : BitVec 4) (f : Fmt) (key : BitVec 12) (a b : W32) : GatherSet :=
  { ctx := s.focus.ctxId, ins := s.focus.ins, frame := s.focus.frame, lane := 0, chunks := chunks.toNat + 1, fmt := f.code, key := key
    n := (a.extractLsb' 16 16).toNat, total := (b.extractLsb' 16 16).toNat
    ivec := (a.extractLsb' 0 14).toNat * 128, table := (b.extractLsb' 0 14).toNat * 128 }

theorem exec_gath_one {s : State} {d : Dst} {a b : W32} (chunks : BitVec 4) (f : Fmt) (key : BitVec 12) (hk : s.focus.k = 1)
    (ha : (operands s).a = [some a]) (hb : (operands s).b = [some b]) (hza : a.extractLsb' 14 2 = 0) (hzb : b.extractLsb' 14 2 = 0)
    (hrows : b.extractLsb' 16 16 ≠ 0) (hfresh : FreshFiring s) :
    exec (.gath d chunks f key) s = .next (beginWork (s.setIsland s.focus.place { s.island s.focus.place with
      sets := (s.island s.focus.place).sets ++ [armedSet s chunks f key a b] }) .gather) := by
  change execGath d chunks f key s = _
  simp only [execGath, resumeHere_fresh hfresh, operands_k, hk, Nat.sub_zero, armGather, ha, hb, laneAt_single, hza, hzb, hrows, ne_eq,
    not_true_eq_false, or_self, if_false, editIsland, armedSet]

/-! ### Rows of accumulators (R365, R366) -/

/-- A MOUT that no fault and no wait has stopped has all its rows before it. -/
theorem moutLeft_fresh (o : Opnds) (first count : BitVec 8) : moutLeft o first count {} =
    ((List.range o.k).filter fun j => (o.a.getD j none).isSome).flatMap fun j =>
      (List.range (count.toNat + 1)).map fun n => (j, (first.toNat + n) % 256) := by
  have hall (e : Nat × Nat) : (decide (0 < e.1) || (e.1 == 0 && decide (0 ≤ e.2))) = true := by
    by_cases h : e.1 = 0 <;> simp [h, Nat.pos_iff_ne_zero]
  simp only [moutLeft, rowRange, Option.getD_none, hall, List.filter_true, List.map_map, laneAt]
  rfl

section
variable {s s1 : State} {d : Dst} {first count : BitVec 8} {clr : Bool} (hfresh : FreshFiring s)
include hfresh

theorem exec_mout_done
    (h : moutRows s (BitVec.ofNat 3 s.focus.ctx) (operands s).key clr (moutLeft (operands s) first count {}) = (s1, none)) :
    exec (.mout d first count clr) s = .next (finishN32 s1 d (statusLanes (operands s).a)) := by
  change execMout d first count clr s = _
  simp only [execMout, resumeHere_fresh hfresh, h]

theorem exec_mout_waits {j r : Nat}
    (h : moutRows s (BitVec.ofNat 3 s.focus.ctx) (operands s).key clr (moutLeft (operands s) first count {}) = (s1, some (j, r))) :
    exec (.mout d first count clr) s =
      .next (addResume s1 s.focus.ctxId s.focus.ins s.focus.frame s.focus.k { lane := j, at' := some r }) := by
  change execMout d first count clr s = _
  simp only [execMout, resumeHere_fresh hfresh, h]

end

/-- The accumulators once the rows of a list are cleared. -/
theorem clearRows_acc (x : Island) (l : List Nat) (r : Nat) :
    SMap.get zeroRow (clearRows x l).acc r = if r ∈ l then zeroRow else SMap.get zeroRow x.acc r := by
  unfold clearRows
  dsimp only
  generalize x.acc = m
  induction l generalizing m with
  | nil => simp
  | cons a t ih => rw [List.foldl_cons, ih, SMap.get_set]; by_cases h : r ∈ t <;> by_cases ha : r = a <;> simp [h, ha]

theorem moutRow_acc (x : Island) (c : BitVec 3) (key : BitVec 12) (row : Nat) (clr : Bool) (r : Nat) :
    SMap.get zeroRow (moutRow x c key row clr).acc r = if clr = true ∧ r = row then zeroRow else SMap.get zeroRow x.acc r := by
  cases clr with
  | false => simp [moutRow]
  | true => simp [moutRow, clearRows_acc]

theorem moutRow_out (x : Island) (c : BitVec 3) (key : BitVec 12) (row : Nat) (clr : Bool) :
    (moutRow x c key row clr).out = x.out ++ rowTokens c key ((SMap.get zeroRow x.acc row).map some) false := by
  cases clr <;> rfl

/-- One row enters an output stage with four free places. -/
theorem moutRows_one {s : State} (hroom : (s.island s.focus.place).out.length ≤ 4) (c : BitVec 3) (key : BitVec 12) (clr : Bool)
    (j r : Nat) : moutRows s c key clr [(j, r)] =
      (islandDrain (s.setIsland s.focus.place (moutRow (s.island s.focus.place) c key r clr)) s.focus.place 16, none) := by
  simp only [moutRows, stageFree, hroom, decide_true, if_true, editIsland]

/-- Requests that clear the same rows clear them once; without one nothing changes. -/
theorem eachLane_clearRows (rows : List Nat) (l : List Lane) (x : Island) : let y := eachLane (fun x => clearRows x rows) x l
    y = { x with acc := y.acc } ∧
      ∀ r, SMap.get zeroRow y.acc r = if l.any Option.isSome = true ∧ r ∈ rows then zeroRow else SMap.get zeroRow x.acc r := by
  induction l generalizing x with
  | nil => exact ⟨rfl, fun r => by simp [eachLane]⟩
  | cons a t ih =>
    cases a with
    | none => exact ih x
    | some v =>
      obtain ⟨hrest, hacc⟩ := ih (clearRows x rows)
      refine ⟨hrest, fun r => (hacc r).trans ?_⟩
      rw [clearRows_acc]
      by_cases hr : r ∈ rows <;> simp [hr]

theorem exec_mclr (s : State) (d : Dst) (first count : BitVec 8) :
    exec (.mclr d first count) s = .next (finishN32 (s.setIsland s.focus.place
      (eachLane (fun x => clearRows x (rowRange first count)) (s.island s.focus.place) (operands s).a)) d
      (statusLanes (operands s).a)) := rfl

/-- Settles O37: each instruction of an island under what lets it complete. -/
theorem islandInstructionsComplete : Obligations.IslandInstructionsComplete := by
  intro s o p x
  refine ⟨?bind, ?load, ?gather, ?mout, ?row, ?clear⟩
  case bind =>
    intro d obj key q hlen hload hany
    refine ⟨_, exec_wbind key q hload hany, bindTile_bind_self (by rw [hlen]; exact obj.isLt) _, fun n hn => bindTile_other x hn _, rfl⟩
  case load =>
    intro d obj base f kr nc hfresh
    refine ⟨exec_wload_empty, fun l1 v rest ha hl hlen halign hfree => ?_⟩
    obtain ⟨honly, hhere⟩ := sendEmpty_keeps d (some 0) o.a s 0
    obtain ⟨hbind, hloading⟩ := loadAccepted_tile (x := x) (t := obj.toNat) (by rw [hlen]; exact obj.isLt)
      (s.focus.ctx, s.focus.ins, s.focus.frame)
    have hinflight : (sendEmpty s d (some 0) o.a 0).here.inflight = s.here.inflight := by rw [hhere]
    refine ⟨_, exec_wload_lane hfresh ha hl halign, ?_, ?_, ?_, ?_, beginWork_frames .., (beginWork_mem ..).trans honly.mem⟩
    · refine (beginWork_inflight ?_ _).trans ?_
      · intro w hw
        rw [State.setIsland_focus, honly.focus]
        exact hfree w (hinflight ▸ hw)
      · rw [State.setIsland_focus, honly.focus]
        exact congrArg (· ++ _) hinflight
    all_goals rw [beginWork_island, State.setIsland_island_self]
    · rfl
    · exact hbind
    · exact hloading
  case gather =>
    intro d chunks f key a b hk ha hb hza hzb hrows hfresh hfree
    refine ⟨_, armedSet s chunks f key a b, exec_gath_one chunks f key hk ha hb hza hzb hrows hfresh, ?_, rfl, rfl, rfl, rfl, rfl, rfl,
      rfl, rfl, rfl, rfl, (beginWork_inflight (by exact hfree) _).trans ?_, beginWork_frames ..⟩
    · rw [beginWork_island, State.setIsland_island_self]
    · exact hk ▸ rfl
  case mout =>
    intro d first count clr s1 hfresh requests rows
    have hrows : moutLeft o first count {} = rows := moutLeft_fresh o first count
    exact ⟨fun h => exec_mout_done hfresh (by rw [hrows]; exact h), fun j r h => exec_mout_waits hfresh (by rw [hrows]; exact h)⟩
  case row =>
    intro d first clr v hk ha hfresh hroom
    have hone : moutLeft o first 0 {} = [(0, first.toNat)] := by
      have hmod : first.toNat % 256 = first.toNat := Nat.mod_eq_of_lt first.isLt
      rw [moutLeft_fresh]
      simp [o, operands_k, hk, ha, hmod]
    refine ⟨_, (exec_mout_done hfresh (by rw [hone]; exact moutRows_one hroom ..)).trans ?_, moutRow_out ..,
      fun r => moutRow_acc _ _ _ _ clr r⟩
    rw [ha]
    rfl
  case clear =>
    intro d first count hany
    obtain ⟨hrest, hacc⟩ := eachLane_clearRows (rowRange first count) o.a x
    refine ⟨_, exec_mclr s d first count, hrest, fun r => ?_⟩
    have hr := hacc r
    simp only [hany, true_and] at hr
    exact hr

end Sys2Proof.Machine

/-! ## Streamer islands (O46) -/

namespace Sys2Proof.Machine
open Sys2Proof

/-! ### Firings that nothing has stopped -/

theorem freshFiring_of_no_resumes {s : State} (h : s.here.resumes = []) : FreshFiring s := fun r hr => by
  rw [h] at hr
  exact absurd hr List.not_mem_nil

theorem wtilOrder_one (now : Nat) (v : W32) : wtilOrder now [] [some v] = [(0, promiseTime now v)] := rfl

section
variable {s : State} {d : Dst} {str : BitVec 4} (hresumes : s.here.resumes = [])
include hresumes

/-! ### ARM (R134, R317) -/

theorem exec_arm_one {q : BitVec 6} {tpl : BitVec 5} {v : W32} (unb : Bool) (hk : s.focus.k = 1) (ha : (operands s).a = [some v])
    (hqueue : given s s.focus.die str.toNat false q.toNat s.here.part = true)
    (htpl : given s s.focus.die str.toNat true tpl.toNat s.here.part = true) :
    exec (.arm d q str tpl unb) s = .next (finishN32 (setQueue s s.focus.die str.toNat q.toNat
      { keepWords s s.focus.die str.toNat q.toNat (getQueue s s.focus.die str.toNat q.toNat) with
        armed := if unb then none else some (tpl.toNat, s.focus.ctxId, s.focus.ins, s.focus.frame) }) d [some 0]) := by
  change execArm d q str tpl unb s = _
  simp only [execArm, resumeHere_fresh (freshFiring_of_no_resumes hresumes), operands_k, hk, List.range_one, List.drop_zero, armLanes, ha,
    laneAt_single, hqueue, htpl]
  rfl

/-! ### CPY (R332) -/

/-- The copy of template `t` that a CPY issues for a pair of offsets. -/
def issuedCopy (s : State) (str t : Nat) (a b : W32) : Copy :=
  let w := tplOf s s.focus.die str t
  { ctx := s.focus.ctxId, ins := s.focus.ins, frame := s.focus.frame, launch := s.here.launch, part := s.here.part, armed := false
    bad := tplBad w, dead := s.here.killed, tpl := t, w := w, soff := a.toInt, doff := b.toInt, total := tplBytes w / 4
    promise := Config.promise s.draws }

/-- The state with that copy under way. -/
def withCopy (s : State) (str t : Nat) (a b : W32) : State :=
  let y := s.streamer (streamerId s.focus.die str)
  { s with draws := s.draws + 1 }.setStreamer (streamerId s.focus.die str)
    { y with copies := SMap.set y.copies y.nextCopy (issuedCopy s str t a b), nextCopy := y.nextCopy + 1 }

theorem exec_cpy_one {tpl : BitVec 6} {a b : W32} (hk : s.focus.k = 1) (ha : (operands s).a = [some a]) (hb : (operands s).b = [some b])
    (htpl : given s s.focus.die str.toNat true tpl.toNat s.here.part = true)
    (hgood : tplBad (tplOf s s.focus.die str.toNat tpl.toNat) = false) :
    exec (.cpy d tpl str) s =
      .next (finishN32 (withCopy s str.toNat tpl.toNat a b) d [some ((Config.promise s.draws).extractLsb' 0 32)]) := by
  change execCpy d tpl str s = _
  simp only [execCpy, resumeHere_fresh (freshFiring_of_no_resumes hresumes), operands_k, hk, List.range_one, List.drop_zero, cpyLanes, ha,
    hb, laneAt_single, htpl, hgood]
  rfl

/-! ### WTIL (R135, R426) -/

theorem exec_wtil_one {tpl : BitVec 6} {v : W32} (ha : (operands s).a = [some v])
    (htpl : given s s.focus.die str.toNat true tpl.toNat s.here.part = true) :
    exec (.wtil d tpl str) s = .next (wtilGo s d tpl.toNat str.toNat (operands s) []
      [(0, promiseTime (s.time s.focus.die).toNat v)]) := by
  change execWtil d tpl str s = _
  simp only [execWtil, resumeHere_fresh (freshFiring_of_no_resumes hresumes), htpl, if_true, ha, wtilOrder_one]

end

theorem wtilGo_passes {s : State} {d : Dst} {t str j time : Nat} {o : Opnds} {revised : List (Nat × W64)}
    (hcome : time ≤ (s.time s.focus.die).toNat) (hlanded : lacksWords s s.focus.die str t s.focus.ctxId time = false) :
    wtilGo s d t str o revised [(j, time)] = finishStatus s d o o.a := by
  simp only [wtilGo, Nat.not_lt.2 hcome, if_false, hlanded, Bool.false_eq_true]

theorem wtilGo_parks {s : State} {d : Dst} {t str j time : Nat} {o : Opnds} {revised : List (Nat × W64)} {rest : List (Nat × Nat)}
    (hwait : (s.time s.focus.die).toNat < time) :
    wtilGo s d t str o revised ((j, time) :: rest) = beginWork s (.promise ((j, time) :: rest) revised) := if_pos hwait

/-! ### Armed queues (R134) -/

theorem exec_templateFire {s : State} {die str q tpl id ins frame : Nat} {tok : Token} {rest : List Token}
    (harmed : (getQueue s die str q).armed = some (tpl, id, ins, frame)) (hfrozen : (getQueue s die str q).frozen = false)
    (hstarted : (s.ctx id).started = true) (hqueue : (s.inc (queueChan die str q)).queue = tok :: rest) :
    exec (.templateFire die str q) s = .next (firePairs
      (consume (setQueue s die str q (headWords s die str tpl (getQueue s die str q)).2) (queueChan die str q)) die str tpl
      (headWords s die str tpl (getQueue s die str q)).1 id ins frame tok.lanes) := by
  change execTemplateFire die str q s = _
  simp only [execTemplateFire, harmed, hqueue, hfrozen, hstarted, Bool.not_true, Bool.or_self, Bool.false_eq_true, if_false]

/-! ### Copies (R133, R333) -/

/-- A copy stops with a record on the context that issued or armed it. -/
def stopCopy (s : State) (die str n word : Nat) (x : Copy) (code : BitVec 8) (aux : Option W64) : State :=
  takeFault (editCopy s die str n fun y => y.map fun y => { y with paused := true }) x.ctx code (sourceNo die (176 + str) 0) x.frame
    x.ins aux none (.copy die str n word) none

section
variable {s : State} {die str n word : Nat} {x : Copy} (hfind : findCopy s die str n = some x) (hlive : x.live = true)
include hfind hlive

theorem exec_copyFault_bad (hbad : x.bad = true) :
    exec (.copyFault die str n word) s = .next (stopCopy s die str n word x codeAlign none) := by
  change execCopyFault die str n word s = _
  simp only [execCopyFault, hfind, hlive, hbad, Bool.not_true, Bool.false_eq_true, if_false, if_true, stopCopy]

variable (hbad : x.bad = false) (hword : word < x.total) (hleft : word ∉ x.landed)
include hbad hword hleft

theorem exec_copyFault_word {s1 : State} {e : MemFault} (hcopy : copyWord s x word = (s1, .error e)) :
    exec (.copyFault die str n word) s = .next (stopCopy s1 die str n word x e.code (some (natW64 e.va))) := by
  have hgo : ¬ (x.total ≤ word ∨ x.landed.contains word = true) := by simp [hword, hleft]
  change execCopyFault die str n word s = _
  simp only [execCopyFault, hfind, hlive, hbad, hgo, hcopy, Bool.not_true, Bool.false_eq_true, if_false, stopCopy]

theorem exec_copyWordLand {s1 : State} (hcopy : copyWord s x word = (s1, .ok ())) :
    exec (.copyWordLand die str n word) s = .next (countWord (editCopy s1 die str n fun y =>
      if x.landed.length + 1 = x.total then none else y.map fun y => { y with landed := word :: y.landed }) (tplChan x.w)) := by
  have hgo : (!x.live || x.bad || decide (x.total ≤ word) || x.landed.contains word) = false := by
    simp [hlive, hbad, hword, hleft]
  change execCopyWordLand die str n word s = _
  simp only [execCopyWordLand, hfind, hgo, hcopy, Bool.false_eq_true, if_false, decide_eq_true_eq]

end

/-! ### Parked WTILs (R426) -/

theorem exec_promiseCheck {s : State} {die tile c ins frame id : Nat} (hid : ctxId die tile c = id) {w : Inflight} {d : Dst}
    {tpl : BitVec 6} {str : BitVec 4} {left : List (Nat × Nat)} {revised : List (Nat × W64)}
    (hw : inflightOf (s.ctx id) ins frame = some w)
    (hinstr : Image.instr (s.ctx id).image ins = some (.wtil d tpl str)) (hwork : w.work = .promise left revised)
    (hfrozen : (s.ctx id).frozen = false) : exec (.promiseCheck die tile c ins frame) s = .next (withFocus
      (s.setCtx id { s.ctx id with inflight := (s.ctx id).inflight.filter (· ≠ w) }) id ins frame w.k fun s =>
        wtilGo s d tpl.toNat str.toNat (operands s) revised left) := by
  subst hid
  change execPromiseCheck die tile c ins frame s = _
  simp only [execPromiseCheck, hw, hinstr, hwork, hfrozen, Bool.false_eq_true, if_false]

/-- Settles O46: each instruction and each event of a streamer under what lets it act. -/
theorem streamersCopyAndKeepTime : Obligations.StreamersCopyAndKeepTime := by
  intro s o die
  refine ⟨?arm, ?cpy, ?wtil, ?fire, ?copy, ?check⟩
  case arm =>
    intro d q str tpl unb v hk ha hresumes hqueue htpl
    exact exec_arm_one hresumes unb hk ha hqueue htpl
  case cpy =>
    intro d tpl str a b hk ha hb hresumes htpl hgood
    refine ⟨_, _, issuedCopy s str.toNat tpl.toNat a b, exec_cpy_one hresumes hk ha hb htpl hgood, rfl, rfl, ?_, rfl, rfl, rfl, rfl, rfl,
      rfl, rfl, rfl⟩
    rw [findCopy, withCopy, State.setStreamer_streamer_self]
    exact SMap.find?_set_self _ _ _
  case wtil =>
    intro d tpl str v hk ha hresumes hinflight htpl now time
    have hexec := exec_wtil_one (d := d) hresumes ha htpl
    refine ⟨fun hcome hlanded => ?_, fun hwait => ?_⟩
    · rw [hexec, wtilGo_passes hcome hlanded, ha]
    · rw [wtilGo_parks hwait] at hexec
      refine ⟨_, hexec, beginWork_frames .., (beginWork_inflight (by simp [hinflight]) _).trans ?_⟩
      rw [hinflight, hk]
      rfl
  case fire =>
    intro dd str q tpl id ins frame c f fm k n a lanes rest i x harmed hfrozen hstarted hqueue words s1
    have hexec := exec_templateFire harmed hfrozen hstarted hqueue
    refine ⟨fun holds => ?_, fun b hlanes => ?_, fun hlanes => ?_⟩
    · simp only [words, headWords, holds]
    · subst hlanes
      exact hexec
    · subst hlanes
      exact hexec
  case copy =>
    intro dd str n word x hfind hlive stop
    exact ⟨fun hbad => exec_copyFault_bad hfind hlive hbad, fun hbad hword hleft =>
      ⟨fun s1 hcopy => exec_copyWordLand hfind hlive hbad hword hleft hcopy,
        fun s1 e hcopy => exec_copyFault_word hfind hlive hbad hword hleft hcopy⟩⟩
  case check =>
    intro dd tile c ins frame w d tpl str left revised id hw hinstr hwork hfrozen
    exact exec_promiseCheck rfl hw hinstr hwork hfrozen

end Sys2Proof.Machine

/-! ## A step of an operator unit (O51, O52) -/

namespace Sys2Proof.Machine
open Sys2Proof

/-! ### Output ends that keep their credits -/

/-- Every output end keeps what it is bound to and the credits that it holds; of those on their way nothing is said. -/
structure PortsKept (s t : State) : Prop where
  outc : ∀ j, (t.outc j).desc = (s.outc j).desc ∧ (t.outc j).src = (s.outc j).src ∧ (t.outc j).credits = (s.outc j).credits

namespace PortsKept
variable {s t u : State}

theorem of_outs (h : t.outs = s.outs) : PortsKept s t := ⟨fun j => by
  have hj : t.outc j = s.outc j := by rw [State.outc, State.outc, h]
  rw [hj]
  exact ⟨rfl, rfl, rfl⟩⟩

theorem refl (s : State) : PortsKept s s := of_outs rfl

theorem trans (h : PortsKept s t) (g : PortsKept t u) : PortsKept s u := ⟨fun j =>
  have ⟨hdesc, hsrc, hcredits⟩ := h.outc j
  have ⟨gdesc, gsrc, gcredits⟩ := g.outc j
  ⟨gdesc.trans hdesc, gsrc.trans hsrc, gcredits.trans hcredits⟩⟩

theorem unitOut (h : PortsKept s t) (place u p : Nat) : unitOut t place u p = unitOut s place u p := by
  have hout (n : Nat) : (decide ((t.outc (place * 64 + n)).src = .unit u p) && descEn (t.outc (place * 64 + n)).desc) =
      (decide ((s.outc (place * 64 + n)).src = .unit u p) && descEn (s.outc (place * 64 + n)).desc) := by
    obtain ⟨hdesc, hsrc, -⟩ := h.outc (place * 64 + n)
    rw [hdesc, hsrc]
  simp only [Machine.unitOut, hout]

theorem canSend (h : PortsKept s t) (i : Nat) : canSend t i = canSend s i := by
  obtain ⟨hdesc, -, hcredits⟩ := h.outc i
  rw [Machine.canSend, Machine.canSend, hdesc, hcredits]

end PortsKept

namespace ChannelsOnly
variable {s t : State} (h : ChannelsOnly s t)
include h

theorem unit (j : Nat) : t.unit j = s.unit j := by
  rw [h]
  rfl

theorem tile (j : Nat) : t.tile j = s.tile j := by
  rw [h]
  rfl

theorem draws : t.draws = s.draws := by rw [h]

theorem mem : t.mem = s.mem := by rw [h]

end ChannelsOnly

section
variable (s : State) (i : Nat)

/-- The credit that a consumed token sends back is on its way, and held by no one. -/
theorem consume_ports : PortsKept s (consume s i) := by
  unfold consume
  split
  · exact .refl s
  · dsimp only
    split
    · exact .of_outs rfl
    · refine ⟨fun j => ?_⟩
      rw [State.setOutc_outc_get]
      split
      case isTrue hj => subst hj; exact ⟨rfl, rfl, rfl⟩
      case isFalse => exact ⟨rfl, rfl, rfl⟩

theorem consume_queue : ((consume s i).inc i).queue = (s.inc i).queue.tail := by
  cases hq : (s.inc i).queue with
  | nil => rw [consume_nil hq, hq]; rfl
  | cons t rest => rw [(consume_spec hq).1]; rfl

theorem sendOn_queue (t : Token) (j : Nat) : ((sendOn s i t).inc j).queue = (s.inc j).queue := by
  unfold sendOn
  dsimp only
  split
  · rfl
  · rw [State.setInc_inc_get]
    split
    case isTrue hj => subst hj; rfl
    case isFalse => rfl

theorem shrinkHead_only (n : Nat) : ChannelsOnly s (shrinkHead s i n) ∧ PortsKept s (shrinkHead s i n) := by
  unfold shrinkHead
  dsimp only
  split <;> exact ⟨rfl, .of_outs rfl⟩

theorem takeLanes_only (n : Nat) : ChannelsOnly s (takeLanes s i n) ∧ PortsKept s (takeLanes s i n) := by
  unfold takeLanes
  split
  · split
    · exact shrinkHead_only s i n
    · exact ⟨consume_only s i, consume_ports s i⟩
  · exact ⟨rfl, .refl s⟩

end

/-! ### What a unit has made (R112, R113) -/

section
variable (s : State) (i : Nat) (g : OpUnit → OpUnit)

@[simp] theorem editUnit_unit : (editUnit s i g).unit i = g (s.unit i) := State.setUnit_unit_self _ _ _
@[simp] theorem editUnit_inc (j : Nat) : (editUnit s i g).inc j = s.inc j := rfl
@[simp] theorem editUnit_outs : (editUnit s i g).outs = s.outs := rfl
@[simp] theorem editUnit_mem : (editUnit s i g).mem = s.mem := rfl
@[simp] theorem editUnit_tile (j : Nat) : (editUnit s i g).tile j = s.tile j := rfl
@[simp] theorem editUnit_draws : (editUnit s i g).draws = s.draws := rfl

theorem editUnit_ports : PortsKept s (editUnit s i g) := .of_outs rfl

end

/-- What leaves of a unit's tokens changes channel ends alone, and no queue. -/
theorem drainList_only (place u : Nat) (l : List (Nat × Token)) (s : State) (blocked : List Nat) :
    ChannelsOnly s (drainList s place u l blocked).1 ∧ ∀ j, ((drainList s place u l blocked).1.inc j).queue = (s.inc j).queue := by
  induction l generalizing s blocked with
  | nil => exact ⟨rfl, fun _ => rfl⟩
  | cons e t ih =>
    obtain ⟨p, tok⟩ := e
    unfold drainList
    split
    · exact ih s blocked
    · split
      · obtain ⟨honly, hqueue⟩ := ih (sendOn s _ tok) blocked
        exact ⟨(sendOn_only ..).trans honly, fun j => (hqueue j).trans (sendOn_queue ..)⟩
      · exact ih s (p :: blocked)

/-- Where no output holds a credit nothing leaves, and the tokens of outputs that are not bound go nowhere. -/
theorem drainList_blocked {s : State} {place u : Nat} (h : ∀ p c, unitOut s place u p = some c → canSend s c = false)
    (l : List (Nat × Token)) (blocked : List Nat) :
    drainList s place u l blocked = (s, l.filter fun e => (unitOut s place u e.1).isSome) := by
  induction l generalizing blocked with
  | nil => rfl
  | cons e t ih =>
    obtain ⟨p, tok⟩ := e
    cases hp : unitOut s place u p with
    | none => simp [drainList, hp, ih]
    | some c => simp [drainList, hp, ih, h p c hp]

section
variable (s : State) (place u : Nat)

/-- Sending what a unit has made changes of it the list of what waits. -/
theorem drain_unit : (drain s place u).unit (place * 64 + u) =
    { s.unit (place * 64 + u) with out := ((drain s place u).unit (place * 64 + u)).out } := by
  unfold drain
  dsimp only
  rw [editUnit_unit, (drainList_only ..).1.unit]

theorem drain_queue (j : Nat) : ((drain s place u).inc j).queue = (s.inc j).queue := (drainList_only ..).2 j

theorem drain_mem : (drain s place u).mem = s.mem :=
  (drainList_only place u (s.unit (place * 64 + u)).out s []).1.mem

/-- Tokens made stand behind those that wait, but for those of outputs that are not bound. -/
theorem emit_unit (ts : List (Nat × Token)) : (emit s place u ts).unit (place * 64 + u) =
    { s.unit (place * 64 + u) with
      out := (s.unit (place * 64 + u)).out ++ ts.filter fun e => (unitOut s place u e.1).isSome } := editUnit_unit _ _ _

@[simp] theorem emit_inc (ts : List (Nat × Token)) (j : Nat) : (emit s place u ts).inc j = s.inc j := rfl

theorem emit_ports (ts : List (Nat × Token)) : PortsKept s (emit s place u ts) := .of_outs rfl

end

/-! ### A unit at which a token waits (R112) -/

section
variable {s t : State} {place u : Nat}

/-- Where nothing waits to be sent, sending changes nothing that is read. -/
theorem drain_empty (h : (s.unit (place * 64 + u)).out = []) : drain s place u = s.setUnit (place * 64 + u) (s.unit (place * 64 + u)) := by
  unfold drain
  dsimp only
  rw [h]
  exact congrArg (s.setUnit (place * 64 + u)) (congrArg (fun l => { s.unit (place * 64 + u) with out := l }) h.symm)

theorem setUnit_unit_same (i j : Nat) : (s.setUnit i (s.unit i)).unit j = s.unit j := by
  rw [State.setUnit_unit_get]
  split
  case isTrue hj => rw [hj]
  case isFalse => rfl

/-- The head of a port depends on the input ends, and on whether a splice waits for the unit. -/
theorem headOf_congr (hins : ∀ j, t.inc j = s.inc j) (hisland : t.island place = s.island place)
    (hunit : t.unit (place * 64 + u) = s.unit (place * 64 + u)) (port : Nat) : headOf t place u port = headOf s place u port := by
  have hin : unitIn t place u port = unitIn s place u port := by simp only [unitIn, hins]
  have hshut (i : Nat) : portShut t place u i = portShut s place u i := by simp only [portShut, hins, hisland, hunit]
  simp only [headOf, hin, hshut, hins]

namespace UnitWaits
variable (h : UnitWaits s place u)
include h

theorem out_empty : (s.unit (place * 64 + u)).out = [] := by
  obtain ⟨-, -, -, -, -, -, hout, -⟩ := h
  exact hout

theorem drain_eq : drain s place u = s.setUnit (place * 64 + u) (s.unit (place * 64 + u)) := drain_empty h.out_empty

theorem drained_unit (j : Nat) : (drain s place u).unit j = s.unit j := by rw [h.drain_eq, setUnit_unit_same]

theorem drained_inc (j : Nat) : (drain s place u).inc j = s.inc j := by rw [h.drain_eq]; rfl

theorem drained_ctx (j : Nat) : (drain s place u).ctx j = s.ctx j := by rw [h.drain_eq]; rfl

theorem drained_tile (j : Nat) : (drain s place u).tile j = s.tile j := by rw [h.drain_eq]; rfl

theorem drained_draws : (drain s place u).draws = s.draws := by rw [h.drain_eq]; rfl

theorem drained_headOf (port : Nat) : headOf (drain s place u) place u port = headOf s place u port :=
  headOf_congr h.drained_inc (by rw [h.drain_eq]; rfl) (h.drained_unit _) port

theorem drained_ports : PortsKept s (drain s place u) := .of_outs (by rw [h.drain_eq]; rfl)

/-- A unit that waits for a token takes it in its next step. -/
theorem unitStep_eq (f : State → State) : unitStep s place u f = drain (f (drain s place u)) place u := by
  have hout := h.out_empty
  have hdrained := h.drained_unit (place * 64 + u)
  obtain ⟨hactive, hfrozen, hstopped, hholds, hspliced, -, -, -⟩ := h
  have hopen : unitOpen s place u = true := by simp [unitOpen, unitReady, hactive, hfrozen, hstopped, hholds, hspliced]
  simp only [unitStep, hopen, hdrained, hout, List.isEmpty_nil, if_true]

/-- What it makes in that step stays with it, but for the tokens of outputs that are not bound. -/
theorem drain_unit_blocked (hports : PortsKept s t) : (drain t place u).unit (place * 64 + u) =
    { t.unit (place * 64 + u) with
      out := (t.unit (place * 64 + u)).out.filter fun e => (unitOut s place u e.1).isSome } := by
  obtain ⟨-, -, -, -, -, -, -, hcredit⟩ := h
  have hblocked := drainList_blocked (s := t) (place := place) (u := u) fun p c hp => by
    rw [hports.canSend]
    exact hcredit p c (by rwa [hports.unitOut] at hp)
  unfold drain
  dsimp only
  rw [editUnit_unit, hblocked]
  simp only [hports.unitOut]

theorem made_out {ts : List (Nat × Token)} (hports : PortsKept s t)
    (hout : (t.unit (place * 64 + u)).out = ts.filter fun e => (unitOut s place u e.1).isSome) :
    ((drain t place u).unit (place * 64 + u)).out = ts.filter fun e => (unitOut s place u e.1).isSome := by
  rw [h.drain_unit_blocked hports]
  dsimp only
  rw [hout, List.filter_filter]
  simp only [Bool.and_self]

/-- The unit has taken the head of its channel and made these tokens, once its step has ended with them in its hands. -/
theorem made {ch : Nat} {ts : List (Nat × Token)} (hports : PortsKept s t) (hqueue : (t.inc ch).queue = (s.inc ch).queue.tail)
    (hout : (t.unit (place * 64 + u)).out = ts.filter fun e => (unitOut s place u e.1).isSome) :
    UnitMade s (drain t place u) place u ch ts := ⟨(drain_queue ..).trans hqueue, h.made_out hports hout⟩

end UnitWaits

end

end Sys2Proof.Machine

/-! ## The units that compute on tokens, and parameter writes (O52) -/

namespace Sys2Proof.Machine
open Sys2Proof

/-! ### What the steps of the units share -/

section
variable {s t : State} {place u ch : Nat}

/-- A unit that has taken its head and holds what it made, the count of its events aside. -/
theorem countUnit_unit (s : State) (i n : Nat) : (countUnit s i n).unit i = { s.unit i with
    cnt := if 2 ^ 24 ≤ (s.unit i).cnt.toNat + n then 0xFFFFFF else (s.unit i).cnt + BitVec.ofNat 24 n } := editUnit_unit _ _ _

@[simp] theorem countUnit_inc (s : State) (i n j : Nat) : (countUnit s i n).inc j = s.inc j := by rw [countUnit, editUnit_inc]
@[simp] theorem countUnit_outs (s : State) (i n : Nat) : (countUnit s i n).outs = s.outs := by rw [countUnit, editUnit_outs]
@[simp] theorem countUnit_mem (s : State) (i n : Nat) : (countUnit s i n).mem = s.mem := by rw [countUnit, editUnit_mem]

theorem consume_unit (s : State) (i j : Nat) : (consume s i).unit j = s.unit j := (consume_only s i).unit j

/-- Tokens made by a unit that has nothing to send. -/
theorem emit_unit_empty (hports : PortsKept s t) (hout : (t.unit (place * 64 + u)).out = []) (ts : List (Nat × Token)) :
    (emit t place u ts).unit (place * 64 + u) =
      { t.unit (place * 64 + u) with out := ts.filter fun e => (unitOut s place u e.1).isSome } := by
  rw [emit_unit, hout]
  simp only [hports.unitOut, List.nil_append]

theorem took_queue (s : State) (place u ch : Nat) (ts : List (Nat × Token)) :
    ((emit (consume s ch) place u ts).inc ch).queue = (s.inc ch).queue.tail := consume_queue s ch

theorem took_ports (hports : PortsKept s t) (ts : List (Nat × Token)) : PortsKept s (emit (consume t ch) place u ts) :=
  (hports.trans (consume_ports t ch)).trans (emit_ports ..)

end

/-! ### REORDER (R119) -/

section
variable {s t : State} {place : Nat}

theorem reorderFlush_none (h : (s.unit (place * 64 + 26)).store = []) (n : Nat) : reorderFlush s place n = s := by
  cases n with
  | zero => rfl
  | succ n => simp only [reorderFlush, h, List.find?_nil]

/-- What is read back from the scratchpad depends on the tile, and on the free values already used. -/
theorem loadToken_congr (htile : t.tile place = s.tile place) (hdraws : t.draws = s.draws) (off : Nat) (lenient : Bool) :
    (loadToken t place off lenient).2 = (loadToken s place off lenient).2 := by
  unfold loadToken
  dsimp only
  rw [htile]
  split
  · split
    · simp only [openToken, hdraws]
    · rfl
  · split
    · simp only [openToken, hdraws]
    · split
      · rfl
      · split <;> rfl

/-- Reading back uses free values and changes nothing else. -/
theorem loadToken_only (s : State) (place off : Nat) (lenient : Bool) :
    (loadToken s place off lenient).1 = { s with draws := (loadToken s place off lenient).1.draws } := by
  unfold loadToken
  dsimp only
  split
  · split <;> rfl
  · split
    · rfl
    · split
      · rfl
      · split <;> rfl

/-- The one token of the window, its number being next, leaves without its number lane. -/
theorem reorderFlush_one {s1 : State} {k off n : Nat} {back : Token} (hstore : (s.unit (place * 64 + 26)).store = [(k, off)])
    (hnext : k = reorderNext (s.unit (place * 64 + 26)))
    (hload : loadToken s place off ((s.unit (place * 64 + 26)).skipping != 0) = (s1, .ok back)) (hlanes : 1 < back.lanes.length) :
    reorderFlush s place (n + 1) = emit (editUnit s1 (place * 64 + 26) fun o =>
      { o with store := o.store.filter (· ≠ (k, off)), i0 := o.i0 + 1, skipping := 0, halfway := false })
      place 26 [(0, back.withLanes (back.lanes.drop 1))] := by
  have hunit : s1.unit (place * 64 + 26) = s.unit (place * 64 + 26) := by
    have h := loadToken_only s place off ((s.unit (place * 64 + 26)).skipping != 0)
    rw [hload] at h
    dsimp only at h
    rw [h]
    rfl
  have hlong : (back.lanes.drop 1).isEmpty = false := by
    rw [List.isEmpty_eq_false_iff, ← List.length_pos_iff, List.length_drop]
    omega
  have hfind : ([(k, off)].find? fun e => decide (e.1 = reorderNext (s.unit (place * 64 + 26)))) = some (k, off) := by simp [hnext]
  simp only [reorderFlush, hstore, hfind, hload, hlong, Bool.false_eq_true, if_false]
  refine reorderFlush_none ?_ n
  rw [emit_unit, editUnit_unit, hunit, hstore]
  simp

end

section
variable {s s1 : State} {die tile ch : Nat}

/-- The state once a number in turn has been taken: its token lies in the window, and nothing else does. -/
def windowed (s : State) (place ch off : Nat) (k : Nat) (tok : Token) : State :=
  editUnit (consume (storeToken s place off (BitVec.ofNat 6 ch) tok) ch) (place * 64 + 26) fun o =>
    { o with store := o.store ++ [(k, off)] }

theorem exec_reorderToken_next {place : Nat} (hplace : placeOf die tile = place) (h : UnitWaits s place 26) {c : BitVec 3}
    {fn key : BitVec 12} {fm n : BitVec 4} {w : W32} {l : List Lane}
    (hhead : headOf s place 26 0 = some (ch, .data c fn fm key n (some w :: l)))
    (hstore : (s.unit (place * 64 + 26)).store = []) (hnext : w.toNat = reorderNext (s.unit (place * 64 + 26))) :
    exec (.reorderToken die tile) s = .next (drain (reorderFlush (windowed (drain s place 26) place ch
      (((s.unit (place * 64 + 26)).p.getD 0 0).toNat * 128 + 144 * (w.toNat % 64)) w.toNat (.data c fn fm key n (some w :: l))) place 64)
      place 26) := by
  subst hplace
  have hstopped : (s.unit (placeOf die tile * 64 + 26)).stopped = false := by
    obtain ⟨-, -, hstopped, -⟩ := h
    exact hstopped
  have hflush : reorderFlush (drain s (placeOf die tile) 26) (placeOf die tile) 64 = drain s (placeOf die tile) 26 :=
    reorderFlush_none (by rw [h.drained_unit, hstore]) 64
  have hlate : ¬ (reorderNext (s.unit (placeOf die tile * 64 + 26)) + 64 ≤ w.toNat) := by omega
  have hearly : ¬ (w.toNat < reorderNext (s.unit (placeOf die tile * 64 + 26))) := by omega
  change execReorderToken die tile s = _
  simp only [execReorderToken, h.unitStep_eq, hflush, h.drained_unit, h.drained_headOf, hhead, hstopped, Bool.false_eq_true, if_false,
    Token.isMark, Token.lanes, List.getD_cons_zero, hlate, hearly, hstore, List.any_nil, or_self]
  rfl

variable (s : State) (place ch off k : Nat) (tok : Token)

theorem windowed_unit : (windowed s place ch off k tok).unit (place * 64 + 26) =
    { s.unit (place * 64 + 26) with store := (s.unit (place * 64 + 26)).store ++ [(k, off)] } := by
  rw [windowed, editUnit_unit, consume_unit]
  rfl

theorem windowed_queue : ((windowed s place ch off k tok).inc ch).queue = (s.inc ch).queue.tail := consume_queue ..

theorem windowed_ports : PortsKept s (windowed s place ch off k tok) := by
  let u := storeToken s place off (BitVec.ofNat 6 ch) tok
  have hu : PortsKept s u := .of_outs rfl
  exact (hu.trans (consume_ports u ch)).trans (editUnit_ports ..)

/-- What stands at its offset is the token that was laid there. -/
theorem windowed_load {t : State} (htile : t.tile place = s.tile place) (hdraws : t.draws = s.draws) (lenient : Bool) :
    (loadToken (windowed t place ch off k tok) place off lenient).2 =
      (loadToken (storeToken s place off (BitVec.ofNat 6 ch) tok) place off lenient).2 := by
  let u := storeToken t place off (BitVec.ofNat 6 ch) tok
  have htok : u.tile place = (storeToken s place off (BitVec.ofNat 6 ch) tok).tile place := by
    simp only [u, storeToken, State.setTile_tile_self, htile]
  have htiles : (windowed t place ch off k tok).tile place = u.tile place := (consume_only u ch).tile place
  have hdrawn : (windowed t place ch off k tok).draws = u.draws := (consume_only u ch).draws
  exact loadToken_congr (htiles.trans htok) (hdrawn.trans hdraws) off lenient

end

/-- REORDER sends the token whose number is next as it reads it back, without its number lane. -/
theorem reorderToken_sends {s : State} {die tile place ch off : Nat} (hplace : placeOf die tile = place) (h : UnitWaits s place 26)
    {c : BitVec 3} {fn key : BitVec 12} {fm n : BitVec 4} {w : W32} {l : List Lane} {back : Token}
    (hhead : headOf s place 26 0 = some (ch, .data c fn fm key n (some w :: l))) (hstore : (s.unit (place * 64 + 26)).store = [])
    (hnext : w.toNat = reorderNext (s.unit (place * 64 + 26)))
    (hoff : ((s.unit (place * 64 + 26)).p.getD 0 0).toNat * 128 + 144 * (w.toNat % 64) = off)
    (hload : (loadToken (storeToken s place off (BitVec.ofNat 6 ch) (.data c fn fm key n (some w :: l))) place off
      ((s.unit (place * 64 + 26)).skipping != 0)).2 = .ok back) (hlanes : 1 < back.lanes.length) :
    ∃ t, exec (.reorderToken die tile) s = .next t ∧ (t.unit (place * 64 + 26)).i0 = (s.unit (place * 64 + 26)).i0 + 1 ∧
      (t.unit (place * 64 + 26)).store = [] ∧ UnitMade s t place 26 ch [(0, back.withLanes (back.lanes.drop 1))] := by
  have hexec := exec_reorderToken_next hplace h hhead hstore hnext
  rw [hoff] at hexec
  let tok : Token := .data c fn fm key n (some w :: l)
  let u := windowed (drain s place 26) place ch off w.toNat tok
  have hunit : u.unit (place * 64 + 26) = { s.unit (place * 64 + 26) with store := [(w.toNat, off)] } := by
    rw [windowed_unit, h.drained_unit, hstore]
    rfl
  have hread : (loadToken u place off ((u.unit (place * 64 + 26)).skipping != 0)).2 = .ok back := by
    rw [hunit, ← hload]
    exact windowed_load s place ch off w.toNat tok (h.drained_tile place) h.drained_draws _
  have honly := loadToken_only u place off ((u.unit (place * 64 + 26)).skipping != 0)
  obtain ⟨s1, hs1⟩ : ∃ s1, loadToken u place off ((u.unit (place * 64 + 26)).skipping != 0) = (s1, .ok back) :=
    ⟨_, Prod.ext rfl hread⟩
  rw [hs1] at honly
  dsimp only at honly
  rw [reorderFlush_one (s := u) (by rw [hunit]) (by rw [hunit]; exact hnext) hs1 hlanes] at hexec
  have hs1unit : s1.unit (place * 64 + 26) = { s.unit (place * 64 + 26) with store := [(w.toNat, off)] } := by
    rw [honly]
    exact hunit
  have houts : s1.outs = u.outs := by rw [honly]
  have hqueue : (s1.inc ch).queue = (s.inc ch).queue.tail := by
    rw [honly]
    exact (windowed_queue (drain s place 26) place ch off w.toNat tok).trans (by rw [h.drained_inc])
  let y := editUnit s1 (place * 64 + 26) fun o =>
    { o with store := o.store.filter (· ≠ (w.toNat, off)), i0 := o.i0 + 1, skipping := 0, halfway := false }
  have hy : PortsKept s y := (h.drained_ports.trans (windowed_ports ..)).trans (.of_outs (s := u) houts)
  have hyunit : y.unit (place * 64 + 26) = { s.unit (place * 64 + 26) with
      store := [], i0 := (s.unit (place * 64 + 26)).i0 + 1, skipping := 0, halfway := false } := by
    rw [editUnit_unit, hs1unit]
    simp
  have hmade := emit_unit_empty (u := 26) hy (by rw [hyunit]; exact h.out_empty) [(0, back.withLanes (back.lanes.drop 1))]
  have hports := hy.trans (emit_ports y place 26 [(0, back.withLanes (back.lanes.drop 1))])
  refine ⟨_, hexec, ?_, ?_, h.made hports hqueue (by rw [hmade])⟩
  all_goals rw [h.drain_unit_blocked hports, hmade, hyunit]

/-! ### GATHER (R120) -/

/-- GATHER once it has made its token of an index token, `n` indices of which were out of range. -/
def gathered (s : State) (place ch : Nat) (tok : Token) (n : Nat) : State :=
  countUnit (editUnit (emit (consume s ch) place 27 [(0, tok)]) (place * 64 + 27) fun o =>
    { o with skipping := 0, halfway := false }) (place * 64 + 27) n

section
variable {s s1 : State} {die tile place ch : Nat}

theorem exec_gatherIndex_data (hplace : placeOf die tile = place) (h : UnitWaits s place 27) {c : BitVec 3} {fn key : BitVec 12}
    {fm n : BitVec 4} {l made : List Lane} {missed : Nat} (hhead : headOf s place 27 0 = some (ch, .data c fn fm key n l))
    (hlanes : gatherLanes (drain s place 27) place (s.unit (place * 64 + 27)) ((s.unit (place * 64 + 27)).skipping != 0) l 0 =
      (s1, made, missed, none)) :
    exec (.gatherIndex die tile) s = .next (drain (gathered s1 place ch (Token.make c fn (unitFmt (s.unit (place * 64 + 27))).code
      (unitKey (s.unit (place * 64 + 27))) 0 made) missed) place 27) := by
  subst hplace
  change execGatherIndex die tile s = _
  simp only [execGatherIndex, h.unitStep_eq, h.drained_unit, h.drained_headOf, hhead, hlanes, gathered]

theorem gathered_unit (s : State) (place ch : Nat) (tok : Token) (n : Nat) :
    (gathered s place ch tok n).unit (place * 64 + 27) = { s.unit (place * 64 + 27) with
      out := (s.unit (place * 64 + 27)).out ++ [(0, tok)].filter fun e => (unitOut (consume s ch) place 27 e.1).isSome
      skipping := 0, halfway := false
      cnt := if 2 ^ 24 ≤ (s.unit (place * 64 + 27)).cnt.toNat + n then 0xFFFFFF
        else (s.unit (place * 64 + 27)).cnt + BitVec.ofNat 24 n } := by
  rw [gathered, countUnit_unit, editUnit_unit, emit_unit, consume_unit]

theorem gathered_queue (s : State) (place ch : Nat) (tok : Token) (n : Nat) :
    ((gathered s place ch tok n).inc ch).queue = (s.inc ch).queue.tail := by
  rw [gathered, countUnit_inc, editUnit_inc, took_queue]

theorem gathered_ports (s : State) (place ch : Nat) (tok : Token) (n : Nat) : PortsKept s (gathered s place ch tok n) :=
  (took_ports (.refl s) [(0, tok)]).trans (.of_outs (by rw [gathered, countUnit_outs, editUnit_outs]))

theorem gathered_mem (s : State) (place ch : Nat) (tok : Token) (n : Nat) : (gathered s place ch tok n).mem = s.mem := by
  rw [gathered, countUnit_mem, editUnit_mem]
  exact (consume_only s ch).mem

/-- A signed index beside an extent: negative, or in order with its bits. -/
theorem index_toInt (w : W32) : w.toInt = if w.getLsbD 31 then (w.toNat : Int) - 4294967296 else (w.toNat : Int) := by
  rw [f32Sign_eq, BitVec.toInt_eq_toNat_cond]
  by_cases hw : 2 ^ 31 ≤ w.toNat
  · rw [if_neg (by omega), if_pos (decide_eq_true hw)]
    rfl
  · rw [if_pos (by omega), if_neg (by simpa using hw)]

theorem gatherLanes_missed (s : State) (place : Nat) (lenient : Bool) {o : OpUnit} {w : W32}
    (h : w.getLsbD 31 = true ∨ extent o 0 ≤ w.toNat) : gatherLanes s place o lenient [some w] 0 = (s, [none], 1, none) := by
  have hout : w.toInt < 0 ∨ (extent o 0 : Int) ≤ w.toInt := by
    have hlt := w.isLt
    rw [index_toInt]
    split
    case isTrue => exact .inl (by omega)
    case isFalse hsign => exact .inr (by have h := h.resolve_left hsign; omega)
  simp only [gatherLanes, hout, if_true]

theorem gatherLanes_found {lenient : Bool} {o : OpUnit} {w v : W32} (hsign : w.getLsbD 31 = false) (hin : w.toNat < extent o 0)
    (hload : gatherElement s (viaUnit s place 27 o) (elemWidth (unitFmt o)) (((unitBase s place o : Int) + (o.p.getD 9 0).toInt +
      (w.toNat : Int) * elemWidth (unitFmt o) / 8) % 2 ^ 56).toNat (w.toNat % 2 == 1) = (s1, .ok v)) :
    gatherLanes s place o lenient [some w] 0 = (s1, [some v], 0, none) := by
  have hindex : w.toInt = w.toNat := by rw [index_toInt, hsign, if_neg Bool.false_ne_true]
  have hgo : ¬ ((w.toNat : Int) < 0 ∨ (extent o 0 : Int) ≤ w.toNat) := by omega
  have hodd : decide ((w.toNat : Int) % 2 = 1) = (w.toNat % 2 == 1) := by
    rw [Bool.eq_iff_iff, decide_eq_true_iff, beq_iff_eq]
    omega
  simp only [gatherLanes, hindex, hgo, if_false, hodd, hload]
  rfl

/-- What a GATHER that had nothing to send has made. -/
theorem gathered_out (hports : PortsKept s s1) (hout : (s1.unit (place * 64 + 27)).out = []) (tok : Token) (n : Nat) :
    ((gathered s1 place ch tok n).unit (place * 64 + 27)).out = [(0, tok)].filter fun e => (unitOut s place 27 e.1).isSome := by
  simp only [gathered_unit, hout, List.nil_append, (hports.trans (consume_ports s1 ch)).unitOut]

theorem gathered_cnt (tok : Token) {n : Nat} (hn : n ≤ 1) (hcnt : n = 1 → (s.unit (place * 64 + 27)).cnt ≠ 0xFFFFFF) :
    ((gathered s place ch tok n).unit (place * 64 + 27)).cnt = (s.unit (place * 64 + 27)).cnt + BitVec.ofNat 24 n := by
  rw [gathered_unit]
  generalize (s.unit (place * 64 + 27)).cnt = cnt at hcnt ⊢
  have hlt := cnt.isLt
  refine if_neg fun hover => ?_
  have hone : n = 1 := by omega
  exact hcnt hone (BitVec.eq_of_toNat_eq (by change cnt.toNat = 2 ^ 24 - 1; omega))

end

/-- An index out of range gives an empty lane, and is counted. -/
theorem gatherIndex_missed {s : State} {die tile place ch : Nat} (hplace : placeOf die tile = place) (h : UnitWaits s place 27)
    {c : BitVec 3} {fn key : BitVec 12} {fm n : BitVec 4} {w : W32} (hhead : headOf s place 27 0 = some (ch, .data c fn fm key n [some w]))
    (hout : w.getLsbD 31 = true ∨ extent (s.unit (place * 64 + 27)) 0 ≤ w.toNat) (hcnt : (s.unit (place * 64 + 27)).cnt ≠ 0xFFFFFF) :
    ∃ t, exec (.gatherIndex die tile) s = .next t ∧ (t.unit (place * 64 + 27)).cnt = (s.unit (place * 64 + 27)).cnt + 1 ∧
      UnitMade s t place 27 ch [(0, Token.make c fn (unitFmt (s.unit (place * 64 + 27))).code (unitKey (s.unit (place * 64 + 27))) 0
        [none])] := by
  refine ⟨_, exec_gatherIndex_data hplace h hhead (gatherLanes_missed _ _ _ hout), ?_,
    h.made (h.drained_ports.trans (gathered_ports ..)) ((gathered_queue ..).trans (by rw [h.drained_inc]))
      (gathered_out h.drained_ports (by rw [h.drained_unit]; exact h.out_empty) _ _)⟩
  rw [drain_unit, gathered_cnt _ (Nat.le_refl 1) (fun _ => by rw [h.drained_unit]; exact hcnt), h.drained_unit]
  rfl

/-- An index in range gives the element that is read. -/
theorem gatherIndex_found {s s1 : State} {die tile place ch : Nat} (hplace : placeOf die tile = place) (h : UnitWaits s place 27)
    {c : BitVec 3} {fn key : BitVec 12} {fm n : BitVec 4} {w v : W32}
    (hhead : headOf s place 27 0 = some (ch, .data c fn fm key n [some w]))
    (hsign : w.getLsbD 31 = false) (hin : w.toNat < extent (s.unit (place * 64 + 27)) 0)
    (hload : let o := s.unit (place * 64 + 27)
      gatherElement (drain s place 27) (viaUnit s place 27 o) (elemWidth (unitFmt o)) (((unitBase s place o : Int) + (o.p.getD 9 0).toInt +
        (w.toNat : Int) * elemWidth (unitFmt o) / 8) % 2 ^ 56).toNat (w.toNat % 2 == 1) = (s1, .ok v)) :
    ∃ t, exec (.gatherIndex die tile) s = .next t ∧ (t.unit (place * 64 + 27)).cnt = (s1.unit (place * 64 + 27)).cnt ∧
      t.mem = s1.mem ∧ (t.inc ch).queue = (s1.inc ch).queue.tail ∧
      (s1.unit (place * 64 + 27) = s.unit (place * 64 + 27) → s1.outs = s.outs →
        (t.unit (place * 64 + 27)).out = [(0, Token.data c fn (unitFmt (s.unit (place * 64 + 27))).code
          (unitKey (s.unit (place * 64 + 27))) 0 [some v])].filter fun e => (unitOut s place 27 e.1).isSome) := by
  have hbase : unitBase (drain s place 27) place (s.unit (place * 64 + 27)) = unitBase s place (s.unit (place * 64 + 27)) := by
    simp only [unitBase, h.drained_ctx]
  have hvia : viaUnit (drain s place 27) place 27 (s.unit (place * 64 + 27)) = viaUnit s place 27 (s.unit (place * 64 + 27)) := by
    simp only [viaUnit, h.drained_ctx]
  dsimp only at hload
  rw [← hbase, ← hvia] at hload
  refine ⟨_, exec_gatherIndex_data hplace h hhead (gatherLanes_found hsign hin hload), ?_, (drain_mem ..).trans (gathered_mem ..),
    (drain_queue ..).trans (gathered_queue ..), fun hunit houts => ?_⟩
  · rw [drain_unit, gathered_cnt _ (Nat.zero_le 1) (fun hn => absurd hn Nat.zero_ne_one)]
    exact BitVec.add_zero _
  · have hports : PortsKept s s1 := .of_outs houts
    exact h.made_out (hports.trans (gathered_ports ..)) (gathered_out hports (by rw [hunit]; exact h.out_empty) _ _)

/-! ### INTERSECT (R122) -/

/-- An entry dropped, or a coordinate remembered, leaves the output ends and what the unit has made. -/
theorem dropEntry_keeps (s : State) (x : Nat × Token × Nat × Token) :
    PortsKept s (dropEntry s x) ∧ ∀ j, (dropEntry s x).unit j = s.unit j := by
  obtain ⟨honly, hports⟩ := takeLanes_only s x.1 1
  obtain ⟨honly', hports'⟩ := takeLanes_only (takeLanes s x.1 1) x.2.2.1 1
  exact ⟨hports.trans hports', fun j => (honly'.unit j).trans (honly.unit j)⟩

theorem take_one_withLanes (c : BitVec 3) (fn : BitVec 12) (fm : BitVec 4) (key : BitVec 12) (n : BitVec 4) (l v : Lane) :
    ((Token.data c fn fm key n [l]).take 1).withLanes [v] = Token.make c fn fm key n [v] := rfl

/-- An entry of one side: its coordinate token and its value token, each of one lane, with the channels that they head. -/
structure SideEntry where
  chan : Nat
  c : BitVec 3
  fn : BitVec 12
  fm : BitVec 4
  key : BitVec 12
  n : BitVec 4
  vchan : Nat
  vc : BitVec 3
  vfn : BitVec 12
  vfm : BitVec 4
  vkey : BitVec 12
  vn : BitVec 4
  value : Lane

/-- The two tokens of an entry with coordinate `w`, as they stand at the heads of its channels. -/
def SideEntry.head (e : SideEntry) (w : W32) : Nat × Token × Nat × Token :=
  (e.chan, .data e.c e.fn e.fm e.key e.n [some w], e.vchan, .data e.vc e.vfn e.vfm e.vkey e.vn [e.value])

theorem sideHead_of_heads {s : State} {place : Nat} {b : Bool} {x y : Nat × Token}
    (hx : headOf s place 28 (if b then 2 else 0) = some x) (hy : headOf s place 28 (if b then 3 else 1) = some y) :
    sideHead s place b = some (x.1, x.2, y.1, y.2) := by
  simp only [sideHead, hx, hy]

theorem cleanSide_sound {s : State} {place : Nat} {b : Bool} {e : SideEntry} {w : W32} (hside : sideHead s place b = some (e.head w))
    (hlast : (s.unit (place * 64 + 28)).last.getD (if b then 1 else 0) none = none) : cleanSide s place b = none := by
  simp only [cleanSide, hside, SideEntry.head, Token.isMark, Token.lanes, List.getD_cons_zero, hlast, Bool.false_eq_true, if_false]

/-- The tokens that INTERSECT makes where both sides stand at one coordinate: it, and the two values. -/
def agreed (x y : SideEntry) (w : W32) : List (Nat × Token) :=
  [(0, Token.make x.c x.fn x.fm x.key x.n [some w]), (1, Token.make x.vc x.vfn x.vfm x.vkey x.vn [x.value]),
    (2, Token.make y.vc y.vfn y.vfm y.vkey y.vn [y.value])]

theorem intersectHeads_agree (s : State) (place : Nat) (x y : SideEntry) (w : W32) :
    intersectHeads s place (x.head w) (y.head w) = setLast (setLast
      (dropEntry (dropEntry (emit s place 28 (agreed x y w)) (x.head w)) (y.head w)) (place * 64 + 28) false (some w))
      (place * 64 + 28) true (some w) := by
  simp only [intersectHeads, SideEntry.head, Token.lanes, List.getD_cons_zero, Option.getD_some, Nat.lt_irrefl, if_false,
    take_one_withLanes, agreed]

theorem exec_intersectPair_agree {s : State} {die tile place : Nat} (hplace : placeOf die tile = place) (h : UnitWaits s place 28)
    {x y : SideEntry} {w : W32} (hlast : (s.unit (place * 64 + 28)).last = [none, none])
    (hx : sideHead (drain s place 28) place false = some (x.head w)) (hy : sideHead (drain s place 28) place true = some (y.head w)) :
    exec (.intersectPair die tile) s =
      .next (drain (intersectHeads (drain s place 28) place (x.head w) (y.head w)) place 28) := by
  subst hplace
  have hcx := cleanSide_sound hx (by rw [h.drained_unit, hlast]; rfl)
  have hcy := cleanSide_sound hy (by rw [h.drained_unit, hlast]; rfl)
  change execIntersectPair die tile s = _
  simp only [execIntersectPair, h.unitStep_eq, hcx, hcy, hx, hy]

/-- INTERSECT emits the coordinate and both values where its sides agree. -/
theorem intersectPair_agrees {s : State} {die tile place : Nat} (hplace : placeOf die tile = place) (h : UnitWaits s place 28)
    {x y : SideEntry} {w : W32} (hlast : (s.unit (place * 64 + 28)).last = [none, none])
    (hx : sideHead s place false = some (x.head w)) (hy : sideHead s place true = some (y.head w)) :
    ∃ t, exec (.intersectPair die tile) s = .next t ∧ (t.unit (place * 64 + 28)).last = [some w, some w] ∧
      (t.unit (place * 64 + 28)).out = (agreed x y w).filter fun e => (unitOut s place 28 e.1).isSome := by
  have hside (b : Bool) : sideHead (drain s place 28) place b = sideHead s place b := by simp only [sideHead, h.drained_headOf]
  have hemit := emit_unit_empty (u := 28) h.drained_ports (by rw [h.drained_unit]; exact h.out_empty) (agreed x y w)
  obtain ⟨hports, hunit⟩ := dropEntry_keeps (emit (drain s place 28) place 28 (agreed x y w)) (x.head w)
  obtain ⟨hports', hunit'⟩ := dropEntry_keeps (dropEntry (emit (drain s place 28) place 28 (agreed x y w)) (x.head w)) (y.head w)
  have hall : PortsKept s (intersectHeads (drain s place 28) place (x.head w) (y.head w)) := by
    rw [intersectHeads_agree]
    exact ((((h.drained_ports.trans (emit_ports ..)).trans hports).trans hports').trans (editUnit_ports ..)).trans (editUnit_ports ..)
  have hmade : (intersectHeads (drain s place 28) place (x.head w) (y.head w)).unit (place * 64 + 28) =
      { s.unit (place * 64 + 28) with
        last := [some w, some w], out := (agreed x y w).filter fun e => (unitOut s place 28 e.1).isSome } := by
    rw [intersectHeads_agree, setLast, editUnit_unit, setLast, editUnit_unit, hunit', hunit, hemit, h.drained_unit]
    simp [hlast]
  refine ⟨_, exec_intersectPair_agree hplace h hlast (by rw [hside, hx]) (by rw [hside, hy]), ?_, h.made_out hall (by rw [hmade])⟩
  rw [drain_unit, hmade]

/-! ### SELECT (R123) -/

theorem addRows_fit {o : OpUnit} {rs : List (List Lane)} (h : o.rows.length + rs.length ≤ 256) : (addRows o rs).rows = o.rows ++ rs :=
  List.take_of_length_le (by rwa [List.length_append])

/-- SELECT in row mode keeps each lane of a data token as a candidate. -/
theorem selectSet_collects {s : State} {die tile place ch : Nat} (hplace : placeOf die tile = place) (h : UnitWaits s place 29)
    {c : BitVec 3} {fn key : BitVec 12} {fm n : BitVec 4} {l : List Lane} (hhead : headOf s place 29 0 = some (ch, .data c fn fm key n l))
    (hmode : ((s.unit (place * 64 + 29)).p.getD 0 0).getLsbD 30 = false)
    (hfit : (s.unit (place * 64 + 29)).rows.length + l.length ≤ 256) :
    ∃ t, exec (.selectSet die tile) s = .next t ∧ UnitMade s t place 29 ch [] ∧
      (t.unit (place * 64 + 29)).rows = (s.unit (place * 64 + 29)).rows ++ l.map fun v => [v] := by
  let t := editUnit (consume (drain s place 29) ch) (place * 64 + 29) fun o =>
    { addRows o (l.map fun v => [v]) with key := if o.rows.isEmpty then key else o.key }
  have hexec : exec (.selectSet die tile) s = .next (drain t place 29) := by
    subst hplace
    change execSelectSet die tile s = _
    simp only [execSelectSet, h.unitStep_eq, h.drained_unit, h.drained_headOf, hhead, hmode, Bool.false_eq_true, if_false, t]
  have hunit : t.unit (place * 64 + 29) = { addRows (s.unit (place * 64 + 29)) (l.map fun v => [v]) with
      key := if (s.unit (place * 64 + 29)).rows.isEmpty then key else (s.unit (place * 64 + 29)).key } := by
    rw [editUnit_unit, consume_unit, h.drained_unit]
  have hports : PortsKept s t := (h.drained_ports.trans (consume_ports ..)).trans (editUnit_ports ..)
  refine ⟨_, hexec, h.made hports ((consume_queue ..).trans (by rw [h.drained_inc])) ?_, ?_⟩
  · rw [hunit]
    exact h.out_empty
  · rw [drain_unit, hunit]
    exact addRows_fit (by rwa [List.length_map])

/-! ### REDUCE (R121) -/

/-- What closing a row at a mark of class `m` leaves of REDUCE, once its result and the mark are made. -/
def reduceClosed (s : State) (place : Nat) (m : MarkClass) : State :=
  let i := place * 64 + 30
  let s := editUnit s i fun o => { o with acc := [], got := false }
  let s := if markLevel m = 0 then s else editUnit s i fun o => { o with n := 0 }
  if m = .eos then endUnit s i else s

theorem reduceClosed_keeps (s : State) (place : Nat) (m : MarkClass) : PortsKept s (reduceClosed s place m) ∧
    (∀ j, (reduceClosed s place m).inc j = s.inc j) ∧
    ((reduceClosed s place m).unit (place * 64 + 30)).out = (s.unit (place * 64 + 30)).out ∧
    ((reduceClosed s place m).unit (place * 64 + 30)).acc = [] := by
  unfold reduceClosed endUnit
  dsimp only
  split <;> split <;> exact ⟨.of_outs rfl, fun _ => rfl, by simp only [editUnit_unit], by simp only [editUnit_unit]⟩

/-- REDUCE closes at a mark of its level, with its result before the mark. -/
theorem reduceToken_closes {s : State} {die tile place ch : Nat} (hplace : placeOf die tile = place) (h : UnitWaits s place 30)
    {c : BitVec 3} {m : MarkClass} {pay : BitVec 12} (hhead : headOf s place 30 0 = some (ch, .mark c m pay))
    (hlevel : markLevel m = (((s.unit (place * 64 + 30)).p.getD 0 0).extractLsb' 4 3).toNat)
    (hacc : (s.unit (place * 64 + 30)).acc ≠ []) :
    ∃ t, exec (.reduceToken die tile) s = .next t ∧ (t.unit (place * 64 + 30)).acc = [] ∧
      UnitMade s t place 30 ch [(0, Token.make c 0 (reduceFmt (s.unit (place * 64 + 30))).code 0 0
        (reduceResult (s.unit (place * 64 + 30)).acc)), (0, .mark c m pay)] := by
  let ts : List (Nat × Token) := [(0, Token.make c 0 (reduceFmt (s.unit (place * 64 + 30))).code 0 0
    (reduceResult (s.unit (place * 64 + 30)).acc)), (0, .mark c m pay)]
  let u := emit (consume (drain s place 30) ch) place 30 ts
  have hexec : exec (.reduceToken die tile) s = .next (drain (reduceClosed u place m) place 30) := by
    subst hplace
    have hfull : (s.unit (placeOf die tile * 64 + 30)).acc.isEmpty = false := by simpa using hacc
    change execReduceToken die tile s = _
    simp only [execReduceToken, h.unitStep_eq, h.drained_unit, h.drained_headOf, hhead, hfull, hlevel, beq_self_eq_true, Bool.true_or,
      Bool.false_eq_true, if_false, if_true, u, ts, reduceClosed]
  obtain ⟨hports, hinc, hout, hclear⟩ := reduceClosed_keeps u place m
  refine ⟨_, hexec, ?_, h.made ((took_ports h.drained_ports ts).trans hports) ?_ ?_⟩
  · rw [drain_unit]
    exact hclear
  · rw [hinc]
    exact (took_queue ..).trans (by rw [h.drained_inc])
  · have hemit := emit_unit_empty (u := 30) (h.drained_ports.trans (consume_ports (drain s place 30) ch))
      (by rw [consume_unit, h.drained_unit]; exact h.out_empty) ts
    rw [hout, hemit]

/-! ### CONVERT (R126, R282) -/

/-- A mark flushes the elements that wait, and passes behind them. -/
def flushed (o : OpUnit) (ty : Fmt) (t : Token) : List (Nat × Token) :=
  let els := o.elts.take (o.elts.length - o.i1)
  (if els.isEmpty then [] else [(0, convertToken ty t.ctx o.key els)]) ++ [(0, t)]

/-- What a mark leaves of CONVERT once the tokens are made. -/
def convertClosed (s : State) (place : Nat) (src : Fmt) (t : Token) : State :=
  let i := place * 64 + 31
  let s := editUnit s i fun o => { o with elts := [], i1 := 0 }
  if t.isEos then
    endUnit (editUnit s i fun o => { o with
      n := 0, acc := [], got := false, skipping := if Fmt.isScaled src && !o.got then 1 else 0 }) i
  else s

theorem convertClosed_keeps (s : State) (place : Nat) (src : Fmt) (t : Token) : PortsKept s (convertClosed s place src t) ∧
    (∀ j, (convertClosed s place src t).inc j = s.inc j) ∧
    ((convertClosed s place src t).unit (place * 64 + 31)).out = (s.unit (place * 64 + 31)).out ∧
    ((convertClosed s place src t).unit (place * 64 + 31)).elts = [] := by
  unfold convertClosed endUnit
  dsimp only
  split <;> exact ⟨.of_outs rfl, fun _ => rfl, by simp only [editUnit_unit], by simp only [editUnit_unit]⟩

theorem convertMark_eq (s : State) (place ch : Nat) (src ty : Fmt) (t : Token) : convertMark s place ch src ty t =
    convertClosed (emit (consume s ch) place 31 (flushed (s.unit (place * 64 + 31)) ty t)) place src t := rfl

/-- CONVERT flushes its pending elements before a mark. -/
theorem convertToken_flushes {s : State} {die tile place ch : Nat} (hplace : placeOf die tile = place) (h : UnitWaits s place 31)
    {c : BitVec 3} {m : MarkClass} {pay : BitVec 12} {ty : Fmt} (hhead : headOf s place 31 0 = some (ch, .mark c m pay))
    (htarget : convertTarget (s.unit (place * 64 + 31)) = some ty) (hskip : (s.unit (place * 64 + 31)).skipping = 0) :
    ∃ t, exec (.convertToken die tile) s = .next t ∧ (t.unit (place * 64 + 31)).elts = [] ∧
      UnitMade s t place 31 ch (flushed (s.unit (place * 64 + 31)) ty (.mark c m pay)) := by
  have hexec : ∃ src, exec (.convertToken die tile) s =
      .next (drain (convertMark (drain s place 31) place ch src ty (.mark c m pay)) place 31) := by
    subst hplace
    change ∃ src, execConvertToken die tile s = _
    simp only [execConvertToken, h.unitStep_eq, h.drained_unit, h.drained_headOf, hhead, htarget, hskip, Nat.zero_ne_one, false_and,
      if_false]
    exact ⟨_, rfl⟩
  obtain ⟨src, hexec⟩ := hexec
  let ts := flushed (s.unit (place * 64 + 31)) ty (.mark c m pay)
  let u := emit (consume (drain s place 31) ch) place 31 ts
  rw [convertMark_eq, h.drained_unit] at hexec
  obtain ⟨hports, hinc, hout, hclear⟩ := convertClosed_keeps u place src (.mark c m pay)
  refine ⟨_, hexec, ?_, h.made ((took_ports h.drained_ports ts).trans hports) ?_ ?_⟩
  · rw [drain_unit]
    exact hclear
  · rw [hinc]
    exact (took_queue ..).trans (by rw [h.drained_inc])
  · have hemit := emit_unit_empty (u := 31) (h.drained_ports.trans (consume_ports (drain s place 31) ch))
      (by rw [consume_unit, h.drained_unit]; exact h.out_empty) ts
    rw [hout, hemit]

/-! ### Parameter writes (R112, R376) -/

/-- A word written into a unit, its oldest write done. -/
theorem exec_parameterWriteEffect_unit {s : State} {die tile place u : Nat} {w : ParamWrite} {rest : List ParamWrite}
    (hplace : placeOf die tile = place) (hu : u ≠ 32) (hwrites : (s.unit (place * 64 + u)).writes = w :: rest)
    (hfrozen : (s.unit (place * 64 + u)).frozen = false) (hgap : unitMidToken s place u = false)
    (hheld : unitHeld s w.ctx (.op die tile u) = false) : let o := s.unit (place * 64 + u)
    let s1 := s.setUnit (place * 64 + u) (if w.word = 16 then { o with cnt := w.value.extractLsb' 0 24, writes := rest }
      else { o with p := o.p.set w.word (writeFields (unitFields u w.word) (o.p.getD w.word 0) w.value), writes := rest })
    exec (.parameterWriteEffect die tile u) s = .next (completeOpset (if u = 22 then grantPlaces s1 place else s1) w) := by
  subst hplace
  change execParameterWriteEffect die tile u s = _
  by_cases hword : w.word = 16 <;>
    simp only [execParameterWriteEffect, hu, hwrites, hfrozen, hgap, hheld, hword, OpUnit.put, Bool.or_self, Bool.false_eq_true, if_false,
      if_true]

/-- A word written into an island at its boundary. -/
theorem exec_parameterWriteEffect_island {s : State} {die tile place : Nat} {w : ParamWrite} {rest : List ParamWrite}
    (hplace : placeOf die tile = place) (hwrites : (s.island place).writes = w :: rest) (hfrozen : (s.island place).frozen = false)
    (hboundary : islandBoundary s place = true) (hheld : islandHeld s w.ctx = false) : let x := s.island place
    exec (.parameterWriteEffect die tile 32) s = .next (completeOpset (s.setIsland place
      (if w.word = 16 then { x with cnt := w.value.extractLsb' 0 24, writes := rest } else { x with
        p := x.p.set w.word (writeFields (islandFields x.engine (oddIsland place) w.word) (x.p.getD w.word 0) w.value), writes := rest }))
      w) := by
  subst hplace
  change execParameterWriteEffect die tile 32 s = _
  by_cases hword : w.word = 16 <;>
    simp only [execParameterWriteEffect, hwrites, hfrozen, hboundary, hheld, hword, Island.put, Bool.not_true, Bool.or_self,
      Bool.false_eq_true, if_false, if_true]

/-! ### The OPSET behind a write (R376) -/

theorem lowestLane_none {l : List Lane} (h : ∀ n, l.getD n none = none) (j : Nat) : lowestLane l j = none := by
  induction l generalizing j with
  | nil => rfl
  | cons a t ih =>
    obtain rfl : a = none := h 0
    exact ih (fun n => h (n + 1)) (j + 1)

/-- The lowest lane with a value stands behind the empty ones. -/
theorem lowestLane_some {l : List Lane} {m : Nat} {v : W32} (hv : l.getD m none = some v) (hempty : ∀ n, n < m → l.getD n none = none)
    (j : Nat) : lowestLane l j = some (j + m, v) := by
  induction l generalizing m j with
  | nil => exact absurd hv (Option.some_ne_none v).symm
  | cons a t ih =>
    cases m with
    | zero =>
      obtain rfl : a = some v := hv
      rfl
    | succ m =>
      obtain rfl : a = none := hempty 0 (Nat.succ_pos m)
      have hrest := ih hv (fun n hn => hempty (n + 1) (Nat.succ_lt_succ hn)) (j + 1)
      rwa [Nat.add_right_comm] at hrest

theorem getD_drop (l : List Lane) (j n : Nat) : (l.drop j).getD n none = l.getD (j + n) none := by
  rw [List.getD_eq_getElem?_getD, List.getElem?_drop, List.getD_eq_getElem?_getD]

theorem focusOn_ctxId (s : State) (id ins frame k : Nat) : (focusOn s id ins frame k).focus.ctxId = id := by
  change ((id / 8 / 256 * 256 + id / 8 % 256) * 8 + id % 8) = id
  omega

section
variable {s : State} {w : ParamWrite}

theorem completeOpset_alone (h : inflightOf (s.ctx w.ctx) w.ins w.frame = none) : completeOpset s w = s := by
  simp only [completeOpset, h]

theorem completeOpset_eq {k u word j : Nat} {d : Dst} {obj : BitVec 6} {wd : BitVec 5}
    (hw : inflightOf (s.ctx w.ctx) w.ins w.frame = some ⟨w.ins, w.frame, k, .parameter u word j⟩)
    (hinstr : Image.instr (s.ctx w.ctx).image w.ins = some (.opset d obj wd)) :
    completeOpset s w = { opsetFrom (focusOn s w.ctx w.ins w.frame k) d u word (j + 1) with focus := s.focus } := by
  simp only [completeOpset, hw, hinstr]
  rfl

end

theorem opsetFrom_ends {s : State} {j : Nat} (h : ∀ m, j ≤ m → (operands s).a.getD m none = none) (d : Dst) (u word : Nat) :
    opsetFrom s d u word j = finishStatus s d (operands s) (statusLanes (operands s).a) := by
  have hnone : lowestLane ((operands s).a.drop j) j = none :=
    lowestLane_none (fun n => by rw [getD_drop]; exact h (j + n) (Nat.le_add_right j n)) j
  simp only [opsetFrom, hnone]

theorem opsetFrom_goesOn {s : State} {j m : Nat} {v : W32} (hjm : j ≤ m) (hv : (operands s).a.getD m none = some v)
    (hempty : ∀ n, j ≤ n → n < m → (operands s).a.getD n none = none) (d : Dst) (u word : Nat) : opsetFrom s d u word j =
      changeWork (queueWrite s s.focus.place u ⟨word, v, s.focus.ctxId, s.focus.ins, s.focus.frame⟩) (.parameter u word m) := by
  obtain ⟨e, rfl⟩ := Nat.exists_eq_add_of_le hjm
  have hnext : lowestLane ((operands s).a.drop j) j = some (j + e, v) :=
    lowestLane_some (by rw [getD_drop]; exact hv)
      (fun n hn => by rw [getD_drop]; exact hempty (j + n) (Nat.le_add_right j n) (Nat.add_lt_add_left hn j)) j
  simp only [opsetFrom, hnext]

/-- Settles O52: each unit under what lets it take its token, then the writes of parameters and the OPSETs behind them. -/
theorem computingUnitsTakeTokens : Obligations.ComputingUnitsTakeTokens := by
  intro s die tile place
  refine ⟨?reorder, ?missed, ?found, ?intersect, ?select, ?reduce, ?convert, ?unit, ?island, ?opset⟩
  case reorder =>
    intro ch c fn fm key n w l back h o hhead hstore hnext off hload hlanes
    exact reorderToken_sends rfl h hhead hstore hnext rfl hload hlanes
  case missed =>
    intro ch c fn fm key n w h o hhead hout hcnt
    exact gatherIndex_missed rfl h hhead hout hcnt
  case found =>
    intro ch c fn fm key n w s1 v h o bits hhead hsign hin _ hload
    exact gatherIndex_found rfl h hhead hsign hin hload
  case intersect =>
    intro w a b c1 c2 c3 c4 ca cb fa fb fva fvb ka kb kva kvb na nb nva nvb cva cvb fna fnb fnva fnvb h hlast h0 h1 h2 h3
    exact intersectPair_agrees (x := ⟨c1, ca, fna, fa, ka, na, c2, cva, fnva, fva, kva, nva, a⟩)
      (y := ⟨c3, cb, fnb, fb, kb, nb, c4, cvb, fnvb, fvb, kvb, nvb, b⟩) rfl h hlast (sideHead_of_heads (b := false) h0 h1)
      (sideHead_of_heads (b := true) h2 h3)
  case select =>
    intro ch c fn fm key n l h o hhead hmode hfit
    exact selectSet_collects rfl h hhead hmode hfit
  case reduce =>
    intro ch c m pay h o hhead hlevel hacc
    exact reduceToken_closes rfl h hhead hlevel hacc
  case convert =>
    intro ch c m pay ty h o hhead htarget hskip
    exact convertToken_flushes rfl h hhead htarget hskip
  case unit =>
    intro u w rest hu o hwrites hfrozen hgap hheld s1
    exact exec_parameterWriteEffect_unit rfl hu hwrites hfrozen hgap hheld
  case island =>
    intro w rest x hwrites hfrozen hboundary hheld s1
    exact exec_parameterWriteEffect_island rfl hwrites hfrozen hboundary hheld
  case opset =>
    intro w
    refine ⟨completeOpset_alone, ?_⟩
    intro k u word j d obj wd hw hinstr x l
    rw [completeOpset_eq hw hinstr]
    refine ⟨fun hends => ?_, fun m v hjm hv hempty => ?_⟩
    · rw [opsetFrom_ends hends]
      rfl
    · rw [opsetFrom_goesOn hjm hv hempty, focusOn_ctxId]
      rfl

end Sys2Proof.Machine

/-! ## A mark at a WRITE whose dimensions are full (O51) -/

namespace Sys2Proof.Machine
open Sys2Proof

/-- A mark that closes dimension `d` of a WRITE, taken: the unit stands where `writeMark` puts it, with nothing made (R115). -/
theorem exec_writeStore_mark {s : State} {die tile place n ch d : Nat} (hplace : placeOf die tile = place) (h : UnitWaits s place (20 + n))
    {c : BitVec 3} {m : MarkClass} {pay : BitVec 12} (hhead : headOf s place (20 + n) 0 = some (ch, .mark c m pay)) (hm : m ≠ .eos)
    (hd : ((List.range 4).find? fun d => decide (dimClass (s.unit (place * 64 + (20 + n))) d = m.code)) = some d) :
    exec (.writeStore die tile n) s = .next (drain (consume ((drain s place (20 + n)).setUnit (place * 64 + (20 + n))
      (writeMark (s.unit (place * 64 + (20 + n))) d)) ch) place (20 + n)) := by
  subst hplace
  change execWriteStore die tile n s = _
  simp only [execWriteStore, h.unitStep_eq, h.drained_headOf, hhead, writeToken, hm, if_false, h.drained_unit, hd]

/-- A WRITE of one row in each of its dimensions 1 and 2, which no mark closes, at the mark that ends its row. -/
def lastRowState : State :=
  { units := [(20, { active := true, p := [0, MarkClass.er.code.zeroExtend 32 <<< 28, 1, 1, 1, 2] })]
    ins := [(4, { desc := 0x8000000000000000, queue := [.mark 0 .er 0], sink := .unit 20 0 })] }

theorem lastRowState_waits : UnitWaits lastRowState (placeOf 0 0) (20 + 0) := by
  refine ⟨rfl, rfl, rfl, rfl, rfl, rfl, rfl, fun p c hc => ?_⟩
  simp [unitOut, lastRowState, State.outc, SMap.get, SMap.find?] at hc

/-- Refutes O51: a mark that closes dimension 0 of a WRITE moves i3 on as well where it fills dimensions 1 and 2 and no mark closes
them, since each then wraps at once and the next position of the shape (R115) is the start of the next index of dimension 3. The clause on
marks has i3 stay in every case. -/
theorem not_streamUnitsMoveTokens : ¬ Obligations.StreamUnitsMoveTokens := by
  intro h
  obtain ⟨-, -, hunits⟩ := h
  obtain ⟨-, hmark, -⟩ := hunits lastRowState 0 0
  have hhead : headOf lastRowState (placeOf 0 0) (20 + 0) 0 = some (4, .mark 0 .er 0) := by decide
  have hexec := exec_writeStore_mark (d := 0) rfl lastRowState_waits hhead (by decide) (by decide)
  obtain ⟨t, ht, -, -, -, -, hi3, -⟩ := hmark 0 4 0 .er 0 (by decide) lastRowState_waits hhead (by decide) (by decide) (by decide)
    (by decide)
  obtain rfl : _ = t := Host.Outcome.next.inj (hexec.symm.trans ht)
  rw [drain_unit] at hi3
  dsimp only at hi3
  rw [consume_unit, State.setUnit_unit_self] at hi3
  revert hi3
  decide

end Sys2Proof.Machine

/-! ## Appends to KV pages and forks of them (O34) -/

namespace Sys2Proof.Machine
open Sys2Proof

/-! ### A KV firing of one lane (R355, R356) -/

section
variable {s s' : State} {f : State → W32 → W32 → State × Except KvFault (Nat × Lane)} {x : XM} {a b : W32} {st : Nat} {p : Lane}

/-- A firing of one lane that does not fault ends with what that lane answers. -/
theorem fireKv_one (done : State → Opnds → List Lane → List Lane → State) (hk : s.focus.k = 1) (ha : (operands s).a = [some a])
    (hb : (operands s).b = [some b]) (hfresh : FreshFiring s) (hf : f s a b = (s', .ok (st, p))) :
    fireKv s f done = done s' (operands s) [p] [some (BitVec.ofNat 32 st)] := by
  have hlanes : kvLanes f (operands s) s [0] = (s', [p], [some (BitVec.ofNat 32 st)], none) := by
    simp [kvLanes, ha, hb, laneAt_single, hf]
  simp [fireKv, resumeHere_fresh hfresh, operands_k, hk, hlanes]

theorem exec_kvap_one (ty : Fmt) (hk : s.focus.k = 1) (ha : (operands s).a = [some a]) (hb : (operands s).b = [some b])
    (hfresh : FreshFiring s) (hf : kvapLane s (viaSlice s x.scope) x a b = (s', .ok (st, p))) :
    exec (.kvap ty x) s = .next (finish s' x.d fmtN32 fmtN32 (statusRun (operands s) [p])
      (statusRun (operands s) [some (BitVec.ofNat 32 st)])) :=
  congrArg Host.Outcome.next (fireKv_one _ hk ha hb hfresh hf)

theorem exec_kvfk_one (hk : s.focus.k = 1) (ha : (operands s).a = [some a]) (hb : (operands s).b = [some b])
    (hfresh : FreshFiring s) (hf : kvfkLane s (viaSlice s x.scope) x a b = (s', .ok (st, p))) :
    exec (.kvfk x) s = .next (finishFork x s' (operands s) [some (BitVec.ofNat 32 st)]) :=
  congrArg Host.Outcome.next (fireKv_one _ hk ha hb hfresh hf)

end

/-! ### The end of a fork (R161) -/

section
variable {s : State} {x : XM} {o : Opnds} {b : W32}

/-- A fork that poisoned nothing ends as any other firing. -/
theorem finishFork_written (hk : o.k = 1) : finishFork x s o [some 0] = finishStatus s x.d o [some 0] := by
  simp [finishFork, hk, laneAt_single]

/-- One whose slot lies in a granule that kept its poison raises POISON there. -/
theorem finishFork_poisoned (hk : o.k = 1) (hb : o.b = [some b]) : finishFork x s o [some 8] =
    faultAt (finishStatus s x.d o [some 8]) codePoison (some (natW64 (effAddr s x b / 8 * 8))) none .stored := by
  simp [finishFork, hk, hb, laneAt_single]

end

/-! ### One append (R164, R165) -/

section
variable {s s' : State} {v : Via} {d : Desc} {row : List Byte}

theorem Desc.bytes_length (d : Desc) : d.bytes.length = 16 := by
  simp [Desc.bytes, Memory.natBytes_length]

/-- A full page takes no row. -/
theorem kvAppend_full (slot i : Nat) (h : d.capacity ≤ d.fill) : kvAppend s v slot i d row = (s, .ok (0x20, none)) :=
  if_pos h

/-- A page with room that no other slot shares takes the row at its fill, once both writes have passed their checks. -/
theorem kvAppend_alone (slot i : Nat) (hroom : d.fill < d.capacity) (halone : d.count < 2)
    (hcheck : checkRuns s v [(d.page + d.fill * d.rowSize, row.length), (descAddr s v.part i, 16)] = (s', .ok ())) :
    kvAppend s v slot i d row =
      (storeRuns s' v (appendRuns s v.part i d row), .ok (0, some (d.first + BitVec.ofNat 32 d.fill))) := by
  have hruns : checkRuns s v ((appendRuns s v.part i d row).map fun r => (r.1, r.2.length)) = (s', .ok ()) := by
    simpa only [appendRuns, List.map_cons, List.map_nil, Desc.bytes_length] using hcheck
  simp only [kvAppend, if_neg (Nat.not_le.2 hroom), if_pos halone, hruns]

end

/-- Settles O34: a firing of one lane ends with the lane's answer, an append with what its page has room for. -/
theorem kvAppendsAndForks : Obligations.KvAppendsAndForks := by
  unfold Obligations.KvAppendsAndForks
  intro s ty x o v
  refine ⟨?lanes, fun slot i d row => kvAppend_full slot i, fun slot i d row s' => kvAppend_alone slot i⟩
  intro a b s' st p hk ha hb _ hfresh
  refine ⟨exec_kvap_one ty hk ha hb hfresh, fun hwritten => ?_, fun hpoisoned => ?_⟩
  · rw [exec_kvfk_one hk ha hb hfresh hwritten]
    exact congrArg Host.Outcome.next (finishFork_written hk)
  · rw [exec_kvfk_one hk ha hb hfresh hpoisoned]
    exact congrArg Host.Outcome.next (finishFork_poisoned hk hb)

end Sys2Proof.Machine

/-! ## Unmap, hand-over, clocks and the report queue (O57) -/

namespace Sys2Proof.SMap

/-- A map that lists each of some numbers with its value, read at one of them. -/
theorem get_map_keys {α : Type} (dflt : α) (f : Nat → α) {l : List Nat} {n : Nat} (h : n ∈ l) :
    get dflt (l.map fun k => (k, f k)) n = f n := by
  induction l with
  | nil => cases h
  | cons k l ih =>
    by_cases hk : k = n
    · simp [get, find?, hk]
    · simpa [get, find?, hk] using ih (List.mem_of_ne_of_mem (Ne.symm hk) h)

end Sys2Proof.SMap

namespace Sys2Proof.Machine
open Sys2Proof

/-! ### A write to gate.unmap (R153) -/

/-- What gate.unmap holds of a write besides go, done and err. -/
def unmapBody (asid : BitVec 8) (v : W64) : W64 :=
  (0 : BitVec 3) ++ asid ++ v.extractLsb' 48 5 ++ (0 : BitVec 8) ++ v.extractLsb' 0 40

section
variable {s : State} {asid : BitVec 8} {v : W64} (hidle : s.unmapReg.getLsbD 63 = false)
include hidle

/-- A write of go 0 keeps done alone (log 25). -/
theorem writeUnmap_stop (hgo : v.getLsbD 63 = false) :
    writeUnmap s asid v = { s with unmapReg := (s.unmapReg &&& 0x4000000000000000) ||| unmapBody asid v } := by
  simp only [writeUnmap, hidle, hgo, unmapBody, Bool.false_eq_true, Bool.not_false, if_true, if_false]

/-- A range that is aligned and not too large is unmapped, and the markers enter. -/
theorem writeUnmap_start (hgo : v.getLsbD 63 = true) (hsize : unmapSize v ≤ 26) (halign : unmapPage v % 2 ^ unmapSize v = 0) :
    writeUnmap s asid v = { s with
      unmapReg := 0x8000000000000000 ||| unmapBody asid v
      unmapRun := some ⟨asid, unmapPage v * 65536, 2 ^ unmapSize v * 65536, streamsOf s asid⟩ } := by
  have hgood : ¬(26 < unmapSize v ∨ unmapPage v % 2 ^ unmapSize v ≠ 0) := by
    rintro (h | h)
    · exact absurd hsize (Nat.not_le.2 h)
    · exact h halign
  simp only [writeUnmap, hidle, hgo, if_neg hgood, unmapBody, Bool.false_eq_true, Bool.not_true, if_false]

/-- Any other range sets err. -/
theorem writeUnmap_refused (hgo : v.getLsbD 63 = true) (hbad : 26 < unmapSize v ∨ unmapPage v % 2 ^ unmapSize v ≠ 0) :
    writeUnmap s asid v = { s with unmapReg := 0x2000000000000000 ||| unmapBody asid v } := by
  simp only [writeUnmap, hidle, hgo, if_pos hbad, unmapBody, Bool.false_eq_true, Bool.not_true, if_false]

end

/-- The host writes gate.unmap for the address space that its value names. -/
theorem exec_unmap_host (s : State) (v : W64) : exec (.unmap 0 v) s = .next (writeUnmap s (v.extractLsb' 53 8) v) := rfl

/-! ### The lines of a range in the banks (R154, R184) -/

theorem CachesOnly.unmapReg {s t : State} (h : CachesOnly s t) : t.unmapReg = s.unmapReg := by rw [h]

theorem l2Fill_tiles (s : State) (part slice : Nat) (asid : BitVec 8) (line pa : Nat) (w : Bool) :
    (l2Fill s part slice asid line pa w).1.tiles = s.tiles := l2Way_tiles s part slice line

theorem l2At_tiles (s : State) (part slice : Nat) (x : Line) : (l2At s part slice x).1.tiles = s.tiles := by
  unfold l2At
  split
  · split
    · rfl
    · rw [l2Fill_tiles, l2Evict_tiles]
  · exact l2Fill_tiles ..

section
variable {place q : Nat} (hq : q ≠ place)
include hq

theorem l1Set_tile_ne (s : State) (g : List Line → List Line) : (l1Set s place g).tile q = s.tile q :=
  State.setTile_tile_ne _ _ _ hq

/-- Writing back a line of one bank leaves the tile of every other. -/
theorem l1WriteBack_tile_ne (s : State) (x : Line) : (l1WriteBack s place x).tile q = s.tile q := by
  refine (l1Set_tile_ne hq _ _).trans ?_
  exact congrArg (fun ts => SMap.get {} ts q) (l2At_tiles (takeSlot s _ _) _ _ x)

theorem l1WriteBackAll_tile_ne (s : State) (p : Line → Bool) : (l1WriteBackAll s place p).tile q = s.tile q := by
  unfold l1WriteBackAll
  generalize (s.tile place).l1.filter (fun l => l.dirty != 0 && p l) = ls
  induction ls generalizing s with
  | nil => rfl
  | cons x ls ih => exact (ih _).trans (l1WriteBack_tile_ne hq s x)

theorem l1Flush_tile_ne (s : State) (p : Line → Bool) : (l1Flush s place p).tile q = s.tile q :=
  (l1Set_tile_ne hq _ _).trans (l1WriteBackAll_tile_ne hq s p)

end

/-- No line of the bank of `q` is picked. -/
def BankFree (p : Line → Bool) (q : Nat) (s : State) : Prop := ∀ l ∈ (s.tile q).l1, p l = false

/-- The flush of one bank empties no other one, and fills none. -/
theorem BankFree.l1Flush {p : Line → Bool} {q : Nat} {s : State} (h : BankFree p q s) (place : Nat) :
    BankFree p q (l1Flush s place p) := by
  by_cases hq : q = place
  · exact hq ▸ l1Flush_bank s place p
  · rwa [BankFree, l1Flush_tile_ne hq]

theorem BankFree.foldl_l1Flush {p : Line → Bool} {q : Nat} (places : List Nat) {s : State} (h : BankFree p q s) :
    BankFree p q (places.foldl (fun s place => Machine.l1Flush s place p) s) := by
  induction places generalizing s with
  | nil => exact h
  | cons place places ih => exact ih (h.l1Flush place)

/-- Flushing banks in turn leaves none of their lines that are picked. -/
theorem foldl_l1Flush_bankFree (p : Line → Bool) (places : List Nat) (s : State) :
    ∀ q ∈ places, BankFree p q (places.foldl (fun s place => l1Flush s place p) s) := by
  induction places generalizing s with
  | nil => simp
  | cons place places ih =>
    exact List.forall_mem_cons.2 ⟨BankFree.foldl_l1Flush places (l1Flush_bank s place p), ih _⟩

/-! ### The lines of a range in the L2 (R154) -/

theorem l2Evict_l2 (s : State) (l : Line) : (l2Evict s l).l2 = s.l2.filter fun x => !x.named l.asid l.line := by
  unfold l2Evict
  dsimp only
  split <;> rfl

/-- Evicting lines in turn leaves lines that were there, under none of their names. -/
theorem mem_foldl_l2Evict {ls : List Line} {s : State} {x : Line} (h : x ∈ (ls.foldl l2Evict s).l2) :
    x ∈ s.l2 ∧ ∀ l ∈ ls, x.named l.asid l.line = false := by
  induction ls generalizing s with
  | nil => exact ⟨h, by simp⟩
  | cons l ls ih =>
    obtain ⟨hx, hrest⟩ := ih h
    rw [l2Evict_l2, List.mem_filter, Bool.not_eq_true'] at hx
    exact ⟨hx.1, List.forall_mem_cons.2 ⟨hx.2, hrest⟩⟩

/-- Evicting the lines that are picked leaves none of them. -/
theorem evicted_not_picked (s : State) (p : Line → Bool) : ∀ x ∈ ((s.l2.filter p).foldl l2Evict s).l2, p x = false := by
  intro x hx
  obtain ⟨hmem, hnamed⟩ := mem_foldl_l2Evict hx
  rw [Bool.eq_false_iff]
  intro hp
  exact absurd (Line.named_iff.2 ⟨rfl, rfl⟩) (Bool.eq_false_iff.1 (hnamed x (List.mem_filter.2 ⟨hmem, hp⟩)))

theorem foldl_l2Evict_tiles (ls : List Line) (s : State) : (ls.foldl l2Evict s).tiles = s.tiles := by
  induction ls generalizing s with
  | nil => rfl
  | cons l ls ih => exact (ih _).trans (l2Evict_tiles s l)

/-! ### A marker emerges (R154, R155) -/

/-- The bank of a context's or operator unit's tile has given up the lines of the range. -/
def markerFlushed (s : State) (r : Unmap) : UnitRef → State
  | .ctx die tile _ | .op die tile _ => l1Flush s (placeOf die tile) r.line
  | _ => s

theorem markerFlushed_only (s : State) (r : Unmap) (u : UnitRef) : CachesOnly s (markerFlushed s r u) := by
  cases u with
  | ctx die tile n => exact l1Flush_only ..
  | op die tile n => exact l1Flush_only ..
  | island die isl => exact .refl s
  | queue die str q => exact .refl s

/-- The marker of a context or of a unit clears the bank of its tile. -/
theorem markerFlushed_bankFree (s : State) (r : Unmap) {u : UnitRef} {die tile n : Nat} (h : u = .ctx die tile n ∨ u = .op die tile n) :
    BankFree r.line (placeOf die tile) (markerFlushed s r u) := by
  obtain rfl | rfl := h
  · exact l1Flush_bank s (placeOf die tile) r.line
  · exact l1Flush_bank s (placeOf die tile) r.line

theorem exec_unmapMarkerPass_pending {s : State} {r : Unmap} {u : UnitRef} (hr : s.unmapRun = some r) (hu : u ∈ r.pending) :
    exec (.unmapMarkerPass u) s =
      .next { markerFlushed s r u with unmapRun := some { r with pending := r.pending.filter (· ≠ u) } } := by
  change execUnmapMarkerPass u s = _
  simp only [execUnmapMarkerPass, hr, List.contains_iff_mem.2 hu, if_true]
  cases u <;> rfl

/-! ### The end of an unmap (R154) -/

/-- Banks and slices have given up the lines of the range. -/
def rangeFlushed (s : State) (r : Unmap) : State :=
  let t := (placesOf s).foldl (fun s p => l1Flush s p r.line) s
  (t.l2.filter r.line).foldl l2Evict t

theorem rangeFlushed_only (s : State) (r : Unmap) : CachesOnly s (rangeFlushed s r) :=
  (CachesOnly.fold (fun s p => l1Flush_only s p r.line) _ s).trans (.fold l2Evict_only _ _)

theorem rangeFlushed_l2 (s : State) (r : Unmap) : ∀ l ∈ (rangeFlushed s r).l2, r.line l = false := evicted_not_picked _ _

theorem rangeFlushed_bankFree (s : State) (r : Unmap) : ∀ q ∈ placesOf s, BankFree r.line q (rangeFlushed s r) := by
  intro q hq
  have htile : (rangeFlushed s r).tile q = ((placesOf s).foldl (fun s p => l1Flush s p r.line) s).tile q :=
    congrArg (fun ts => SMap.get ({} : Tile) ts q) (foldl_l2Evict_tiles _ _)
  rw [BankFree, htile]
  exact foldl_l1Flush_bankFree r.line (placesOf s) s q hq

theorem exec_unmapComplete_passed {s : State} {r : Unmap} (hr : s.unmapRun = some r) (hpending : r.pending = [])
    (hfills : unmapFills s r = false) : exec .unmapComplete s = .next { rangeFlushed s r with
      tlbs := (rangeFlushed s r).tlbs.map fun g => (g.1, g.2.filter fun e => !r.meets e.asid (e.va * 2 ^ e.size) (2 ^ e.size))
      filter := (rangeFlushed s r).filter.filter fun f => !r.meets f.2.1 (f.2.2 * 65536) 65536
      unmapReg := ((rangeFlushed s r).unmapReg &&& 0x1FFFFFFFFFFFFFFF) ||| 0x4000000000000000
      unmapRun := none } := by
  change execUnmapComplete s = _
  simp [execUnmapComplete, hr, hpending, hfills, rangeFlushed]

/-- gate.unmap once an unmap has ended: done stands, go and err do not, and the rest is as it was. -/
theorem unmapReg_done (w : W64) : let d := (w &&& 0x1FFFFFFFFFFFFFFF) ||| 0x4000000000000000
    d.getLsbD 63 = false ∧ d.getLsbD 62 = true ∧ d.getLsbD 61 = false ∧ d.extractLsb' 0 61 = w.extractLsb' 0 61 := by
  have hkept : BitVec.extractLsb' 0 61 (0x1FFFFFFFFFFFFFFF : W64) = BitVec.allOnes 61 := by decide
  have hclear : BitVec.extractLsb' 0 61 (0x4000000000000000 : W64) = 0#61 := by decide
  refine ⟨by simp, by simp, by simp, ?_⟩
  rw [BitVec.extractLsb'_or, BitVec.extractLsb'_and, hkept, hclear, BitVec.and_allOnes, BitVec.or_zero]

/-- What is left of a list of translations meets nothing of the range. -/
theorem filtered_not_meets {r : Unmap} {tlbs : SMap (List TlbEntry)} :
    ∀ g ∈ tlbs.map fun g => (g.1, g.2.filter fun e => !r.meets e.asid (e.va * 2 ^ e.size) (2 ^ e.size)),
      ∀ e ∈ g.2, r.meets e.asid (e.va * 2 ^ e.size) (2 ^ e.size) = false := by
  intro g hg e he
  obtain ⟨x, -, rfl⟩ := List.mem_map.1 hg
  simpa using (List.mem_filter.1 he).2

/-! ### A write to part.kvgive (R260) -/

section
variable {s : State} {part : Nat} {v : W64}

theorem exec_handOver_stop (hlive : (s.part part).live = true) (hgo : v.getLsbD 63 = false) :
    exec (.handOver part v) s = .next (s.setPart part { s.part part with
      kvgive := ((s.part part).kvgive &&& 0x6000000000000000) ||| (v &&& 0x00FFFFFFFFFFFFF8) }) := by
  change execHandOver part v s = _
  simp only [execHandOver, hlive, writeKvgive, hgo, if_true, Bool.not_false]

theorem exec_handOver_go (hlive : (s.part part).live = true) (hgo : v.getLsbD 63 = true) :
    let list := v &&& 0x00FFFFFFFFFFFFF8
    let r := handOver (s.setPart part { s.part part with kvgive := 0x8000000000000000 ||| list }) part list.toNat
    exec (.handOver part v) s = .next (r.1.setPart part { r.1.part part with
      kvgive := (if r.2 then 0x4000000000000000 else 0x6000000000000000) ||| list }) := by
  change execHandOver part v s = _
  simp only [execHandOver, hlive, writeKvgive, hgo, if_true, Bool.not_true, Bool.false_eq_true, if_false]

/-! ### part.clk (R259) -/

theorem exec_clockChange_live (hlive : (s.part part).live = true) : exec (.clockChange part v) s = .next
    (if clkOk (v.extractLsb' 0 12).toNat then
      s.setPart part { s.part part with clkNext := some (clkWritten (s.part part).clk (v.extractLsb' 0 32)) } else s) := by
  have hfield : (v.extractLsb' 0 32).extractLsb' 0 12 = v.extractLsb' 0 12 := by
    simp [BitVec.extractLsb'_extractLsb'_of_le]
  change execClockChange part v s = _
  simp only [execClockChange, hlive, if_true, writeClk, hfield]

theorem exec_clockTakesEffect_idle {c : W32} (hnext : (s.part part).clkNext = some c) (hrunning : (s.part part).running = [])
    (hheld : (s.part part).queue.all Launch.held = true) :
    exec (.clockTakesEffect part) s = .next (recomputeFabric (s.setPart part { s.part part with
      clk := c, clkNext := none, queue := (s.part part).queue.map fun l => { l with held := false } })) := by
  change execClockTakesEffect part s = _
  simp [execClockTakesEffect, hnext, hrunning, hheld]

/-- The highest of equal clocks. -/
theorem foldl_max_of_all_eq {l : List Nat} {c : Nat} (hsome : l ≠ []) (h : ∀ n ∈ l, n = c) : l.foldl max 0 = c := by
  rw [List.eq_replicate_of_mem h]
  obtain ⟨n, hn⟩ := Nat.exists_eq_add_one_of_ne_zero (mt List.eq_nil_of_length_eq_zero hsome)
  rw [hn]
  clear hn
  induction n with
  | zero => exact Nat.zero_max c
  | succ n ih => rw [List.replicate_succ', List.foldl_append, ih]; exact Nat.max_self c

/-- A die on which one partition alone owns tiles runs its fabric at that partition's clock. -/
theorem recomputeFabric_one_owner {d : Nat} (hd : d < 4) (hone : ∀ o ∈ s.owners, o.1 / 256 = d → o.2 = part)
    (hsome : ∃ o ∈ s.owners, o.1 / 256 = d) : SMap.get 0 (recomputeFabric s).fabric d = (s.part part).clk.toNat := by
  have hall : ∀ n ∈ (s.owners.filter fun o => o.1 / 256 = d).map (fun o => (s.part o.2).clk.toNat),
      n = (s.part part).clk.toNat := by
    intro n hn
    obtain ⟨o, ho, rfl⟩ := List.mem_map.1 hn
    obtain ⟨hmem, hdie⟩ := List.mem_filter.1 ho
    rw [hone o hmem (of_decide_eq_true hdie)]
  have hne : (s.owners.filter fun o => o.1 / 256 = d).map (fun o => (s.part o.2).clk.toNat) ≠ [] := by
    obtain ⟨o, hmem, hdie⟩ := hsome
    exact List.ne_nil_of_mem (List.mem_map_of_mem (List.mem_filter.2 ⟨hmem, decide_eq_true hdie⟩))
  refine (SMap.get_map_keys 0 _ (List.mem_range.2 hd)).trans ((if_neg (mt List.isEmpty_iff.1 hne)).trans ?_)
  exact foldl_max_of_all_eq hne hall

/-! ### A write to rq.cons (R266) -/

/-- With no record waiting for room a write to rq.cons frees entries alone, and one beyond the records there does nothing. -/
theorem exec_reportQueueConsume_live (hlive : (s.part part).live = true) (hwaiting : (s.part part).waiting = []) :
    exec (.reportQueueConsume part v) s = .next
      (if (v.extractLsb' 0 32 - (s.part part).cons).toNat ≤ ((s.part part).prod - (s.part part).cons).toNat then
        s.setPart part { s.part part with cons := v.extractLsb' 0 32 } else s) := by
  change execReportQueueConsume part v s = _
  simp only [execReportQueueConsume, hlive, if_true, writeCons, hwaiting, List.length_nil, admitReports]

end

/-- Settles O57: each write and each event as its equation gives it, with what the flushes of a range leave in banks and slices. -/
theorem unmapClocksAndQueues : Obligations.UnmapClocksAndQueues := by
  unfold Obligations.UnmapClocksAndQueues
  intro s
  refine ⟨?write, ?marker, ?complete, ?registers⟩
  case write =>
    intro v hidle asid body
    rw [exec_unmap_host]
    refine ⟨fun hgo => ?stop, fun hgo => ⟨fun hsize halign => ?start, fun hbad => ?refused⟩⟩
    case stop => exact congrArg _ (writeUnmap_stop hidle hgo)
    case start => exact congrArg _ (writeUnmap_start hidle hgo hsize halign)
    case refused => exact congrArg _ (writeUnmap_refused hidle hgo hbad)
  case marker =>
    intro r u hr hu
    have honly := markerFlushed_only s r u
    exact ⟨_, exec_unmapMarkerPass_pending hr hu, rfl, honly.ctxs, honly.parts, honly.unmapReg,
      fun die tile n h => markerFlushed_bankFree s r h⟩
  case complete =>
    intro r hr hpending hfills
    have honly := rangeFlushed_only s r
    obtain ⟨hgo, hdone, herr, hrest⟩ := unmapReg_done (rangeFlushed s r).unmapReg
    exact ⟨_, exec_unmapComplete_passed hr hpending hfills, rfl, hgo, hdone, herr, hrest.trans (by rw [honly.unmapReg]), honly.ctxs,
      rangeFlushed_l2 s r, rangeFlushed_bankFree s r, filtered_not_meets⟩
  case registers =>
    intro part p hlive
    refine ⟨?give, fun v => exec_clockChange_live hlive, ?clock, fun v hwaiting => exec_reportQueueConsume_live hlive hwaiting⟩
    case give =>
      intro v list r
      exact ⟨exec_handOver_stop hlive, fun hgo => ⟨_, exec_handOver_go hlive hgo, rfl, rfl, by rw [State.setPart_part_self]⟩⟩
    case clock =>
      intro c hnext hrunning hheld
      refine ⟨_, exec_clockTakesEffect_idle hnext hrunning hheld, rfl, State.setPart_part_self .., fun d hd hone hsome => ?_⟩
      exact (recomputeFabric_one_owner (s := s.setPart part _) hd hone hsome).trans (by rw [State.setPart_part_self])

end Sys2Proof.Machine

/-! ## The handler table (O48) -/

namespace Sys2Proof.Machine
open Sys2Proof

/-! ### The frames that an entry allocates (R90, R91, R223) -/

/-- The ports of instruction `ins` that an entry will fill are free in the frame that its context allocates next (R91). -/
def HeadClear (c : Ctx) (ins : Nat) (p : Port) : Prop :=
  ∀ fr ∈ c.frames, fr.num < c.ahead ∨ fr.num = c.ahead ∧ ¬ PortTaken fr ins p

/-- A frame once an allocation has given it its depth, word and ordinals. -/
def entered (fr old : Frame) : Frame :=
  { old with depth := fr.depth, word := fr.word, o1 := fr.o1, o2 := fr.o2, o3 := fr.o3, o4 := fr.o4 }

/-- A context with its frame at the allocation head allocated, without the carry frame behind it. -/
def withHead (c : Ctx) (fr : Frame) : Ctx :=
  if (c.find c.ahead).isSome then c.update c.ahead (entered fr) else { c with frames := c.frames ++ [entered fr { num := c.ahead }] }

/-- A context after one allocation. -/
def allocatedCtx (c : Ctx) (fr : Frame) : Ctx :=
  { c with
    frames := (withHead c fr).frames ++ if c.carries then [{ num := c.ahead + 1 }] else []
    ahead := c.ahead + 1 }

theorem allocate_ctx_self (s : State) (place c : Nat) (fr : Frame) :
    (allocate s place c fr).ctx (place * 8 + c) = allocatedCtx (s.ctx (place * 8 + c)) fr := by
  unfold allocate
  dsimp only
  rw [(noteBound_only ..).ctx, State.setCtx_ctx_self]
  unfold allocatedCtx withHead
  split <;> split <;> simp [Ctx.update, entered]

theorem noteBound_queue (s : State) (place c num : Nat) (word : Option Nat) (n j : Nat) :
    ((noteBound s place c num word n).inc j).queue = (s.inc j).queue := by
  induction n with
  | zero => rfl
  | succ n ih =>
    unfold noteBound
    dsimp only
    split
    · split
      · rw [State.setInc_inc_get]
        split
        · next h =>
          subst h
          exact ih
        · exact ih
      · exact ih
    · exact ih

theorem allocate_queue (s : State) (place c : Nat) (fr : Frame) (j : Nat) :
    ((allocate s place c fr).inc j).queue = (s.inc j).queue :=
  noteBound_queue ..

section
variable {c : Ctx} {ins : Nat} {p : Port} (fr : Frame)

theorem find_append (c : Ctx) (l : List Frame) (n : Nat) :
    ({ c with frames := c.frames ++ l } : Ctx).find n = (c.find n).or (l.find? fun f => f.num = n) :=
  List.find?_append

/-- The frames before the allocation head are left as they are. -/
theorem allocatedCtx_find_lt {n : Nat} (h : n < c.ahead) : (allocatedCtx c fr).find n = c.find n := by
  have hhead : (withHead c fr).find n = c.find n := by
    unfold withHead
    split
    · exact find_update_ne c _ (fun _ => rfl) (by omega)
    · rw [find_append]
      simp [entered, h.ne']
  have hcarry : (if c.carries then [({ num := c.ahead + 1 } : Frame)] else []).find? (fun f => f.num = n) = none := by
    split <;> simp; omega
  have happend := find_append (withHead c fr) (if c.carries then [{ num := c.ahead + 1 }] else []) n
  rw [hcarry, Option.or_none] at happend
  exact happend.trans hhead

theorem not_portTaken_new (n : Nat) : ¬ PortTaken { num := n } ins p := by
  simp [PortTaken, slotAt]

/-- The frame at the allocation head is allocated with its ports free. -/
theorem allocatedCtx_find_head (h : HeadClear c ins p) :
    ∃ old, ¬ PortTaken old ins p ∧ (allocatedCtx c fr).find c.ahead = some (entered fr old) := by
  have hhead : ∃ old, ¬ PortTaken old ins p ∧ (withHead c fr).find c.ahead = some (entered fr old) := by
    unfold withHead
    cases hfind : c.find c.ahead with
    | some old =>
      refine ⟨old, ?_, ?_⟩
      · obtain hlt | ⟨-, hfree⟩ := h old (List.mem_of_find?_eq_some hfind)
        · exact absurd (num_of_find hfind) hlt.ne
        · exact hfree
      · rw [if_pos Option.isSome_some, find_update_self c _ (entered fr) fun _ => rfl, hfind]
        rfl
    | none =>
      refine ⟨{ num := c.ahead }, not_portTaken_new _, ?_⟩
      rw [if_neg (by simp), find_append, hfind]
      simp [entered]
  obtain ⟨old, hfree, hfind⟩ := hhead
  refine ⟨old, hfree, (find_append (withHead c fr) (if c.carries then [{ num := c.ahead + 1 }] else []) _).trans ?_⟩
  rw [hfind, Option.some_or]

theorem HeadClear.allocated (h : HeadClear c ins p) : HeadClear (allocatedCtx c fr) ins p := by
  intro g hg
  change g.num < c.ahead + 1 ∨ g.num = c.ahead + 1 ∧ ¬ PortTaken g ins p
  obtain hg | hg := List.mem_append.1 hg
  · left
    have hle : ∀ f ∈ c.frames, f.num ≤ c.ahead := fun f hf => (h f hf).elim (·.le) (·.1.le)
    unfold withHead at hg
    split at hg
    · obtain ⟨f, hf, rfl⟩ := List.mem_map.1 hg
      have hnum : (if f.num = c.ahead then entered fr f else f).num = f.num := by split <;> rfl
      rw [hnum]
      exact Nat.lt_succ_of_le (hle f hf)
    · obtain hf | hf := List.mem_append.1 hg
      · exact Nat.lt_succ_of_le (hle g hf)
      · rw [List.mem_singleton.1 hf]
        exact Nat.lt_succ_self _
  · right
    split at hg
    · rw [List.mem_singleton.1 hg]
      exact ⟨rfl, not_portTaken_new _⟩
    · exact absurd hg List.not_mem_nil

end

/-- Of context `id`, `k` frames with depth 0 and ordinals 0 have been allocated in which a port is free; the older ones, the stops and
the queues of the channels stand as they were. -/
structure FramesMade (s t : State) (id ins : Nat) (p : Port) (k : Nat) : Prop where
  ahead : (t.ctx id).ahead = (s.ctx id).ahead + k
  stops : (t.ctx id).stops = (s.ctx id).stops
  queue : ∀ j, (t.inc j).queue = (s.inc j).queue
  kept : ∀ n, n < (s.ctx id).ahead → (t.ctx id).find n = (s.ctx id).find n
  made : ∀ m, m < k → ∃ old, ¬ PortTaken old ins p ∧ (t.ctx id).find ((s.ctx id).ahead + m) = some (entered entryFrame old)

section
variable {s t u : State} {place c id ins : Nat} {p : Port}

theorem FramesMade.refl (s : State) (id ins : Nat) (p : Port) : FramesMade s s id ins p 0 :=
  ⟨rfl, rfl, fun _ => rfl, fun _ _ => rfl, fun _ h => absurd h (Nat.not_lt_zero _)⟩

theorem FramesMade.trans {j k : Nat} (h : FramesMade s t id ins p j) (g : FramesMade t u id ins p k) :
    FramesMade s u id ins p (j + k) where
  ahead := by rw [g.ahead, h.ahead, Nat.add_assoc]
  stops := g.stops.trans h.stops
  queue i := (g.queue i).trans (h.queue i)
  kept n hn := (g.kept n (by rw [h.ahead]; omega)).trans (h.kept n hn)
  made m hm := by
    by_cases hj : m < j
    · obtain ⟨old, hfree, hfind⟩ := h.made m hj
      exact ⟨old, hfree, (g.kept _ (by rw [h.ahead]; omega)).trans hfind⟩
    · obtain ⟨old, hfree, hfind⟩ := g.made (m - j) (by omega)
      refine ⟨old, hfree, ?_⟩
      rw [← hfind, h.ahead]
      congr 1
      omega

theorem allocate_framesMade (h : HeadClear (s.ctx (place * 8 + c)) ins p) :
    FramesMade s (allocate s place c entryFrame) (place * 8 + c) ins p 1 where
  ahead := by rw [allocate_ctx_self]; rfl
  stops := by rw [allocate_ctx_self]; rfl
  queue j := allocate_queue ..
  kept n hn := by rw [allocate_ctx_self]; exact allocatedCtx_find_lt _ hn
  made m hm := by
    obtain rfl : m = 0 := by omega
    rw [allocate_ctx_self]
    exact allocatedCtx_find_head _ h

/-- An entry allocates as many frames as it counts, and no more than it asks for (R223). -/
theorem entryFrames_framesMade (h : HeadClear (s.ctx (place * 8 + c)) ins p) (n done : Nat) :
    ∃ k, (entryFrames s place c n done).2 = done + k ∧ k ≤ n ∧
      FramesMade s (entryFrames s place c n done).1 (place * 8 + c) ins p k := by
  induction n generalizing s done with
  | zero => exact ⟨0, rfl, Nat.le_refl 0, .refl ..⟩
  | succ n ih =>
    unfold entryFrames
    split
    · have hclear : HeadClear ((allocate s place c entryFrame).ctx (place * 8 + c)) ins p := by
        rw [allocate_ctx_self]
        exact h.allocated _
      obtain ⟨k, hcount, hle, hmade⟩ := ih hclear (done + 1)
      exact ⟨1 + k, by rw [hcount]; omega, by omega, (allocate_framesMade h).trans hmade⟩
    · exact ⟨0, rfl, Nat.zero_le _, .refl ..⟩

theorem entryFrames_one (h : mayAllocate s place c 0 = true) :
    entryFrames s place c 1 0 = (allocate s place c entryFrame, 1) := by
  simp [entryFrames, h]

end

/-! ### The run that an entry delivers to them (R87, R223) -/

/-- Lane `m` of a run that an entry delivered from frame `first` on: its frame stands at depth 0 with ordinals 0. -/
def EntrySlot (c : Ctx) (first ins : Nat) (p : Port) (m : Nat) (y : Slot) : Prop :=
  ∃ fr, c.find (first + m) = some fr ∧ fr.depth = 0 ∧ fr.o1 = 0 ∧ fr.o2 = 0 ∧ fr.o3 = 0 ∧ fr.o4 = 0 ∧
    slotAt fr ins p = some y ∧ y.start = decide (m = 0)

/-- A run for free ports has no duplicate. -/
theorem putRun_free_dup {c : Ctx} {num ins : Nat} {p : Port} (fmt : BitVec 4) (key : BitVec 12) (count : BitVec 4) (start : Bool)
    (l : List Lane) (h : ∀ m, m < l.length → ∃ fr, c.find (num + m) = some fr ∧ ¬ PortTaken fr ins p) :
    (putRun c num ins p fmt key count start l).2 = none := by
  induction l generalizing c num start with
  | nil => rfl
  | cons a t ih =>
    obtain ⟨fr, hfind, hfree⟩ := h 0 (Nat.succ_pos _)
    rw [Nat.add_zero] at hfind
    simp only [putRun]
    rw [putLane_free_dup hfind hfree]
    refine ih _ fun m hm => ?_
    obtain ⟨fr, hfind, hfree⟩ := h (m + 1) (Nat.succ_lt_succ hm)
    rw [Nat.add_comm m 1, ← Nat.add_assoc] at hfind
    exact ⟨fr, (putLane_find_ne (by omega) ..).trans hfind, hfree⟩

/-- A run for free ports leaves the stops of its context. -/
theorem deliverRun_free_stops {s : State} {id num : Nat} {ins : BitVec 7} {p : Port} {l : List Lane}
    (h : ∀ m, m < l.length → ∃ fr, (s.ctx id).find (num + m) = some fr ∧ ¬ PortTaken fr ins.toNat p) (fmt : BitVec 4)
    (key : BitVec 12) (count : BitVec 4) : ((deliverRun s id num ins p fmt key count l).ctx id).stops = (s.ctx id).stops := by
  unfold deliverRun
  dsimp only
  rw [putRun_free_dup _ _ _ _ l h, raiseDup, State.setCtx_ctx_self, putRun_frame]

theorem portTaken_entered {fr old : Frame} {ins : Nat} {p : Port} : PortTaken (entered fr old) ins p ↔ PortTaken old ins p := Iff.rfl

section
variable {s t u : State} {id : Nat} {i : BitVec 7} {p : Port} {key : BitVec 12} {fmt : BitVec 4} {l : List Lane}

/-- The lanes of a run stand in the frames that their entry has allocated for them, and nothing has stopped. -/
structure RunEntered (s t : State) (id : Nat) (i : BitVec 7) (p : Port) (fmt : BitVec 4) (key : BitVec 12) (l : List Lane) : Prop where
  ahead : (t.ctx id).ahead = (s.ctx id).ahead + l.length
  stops : (t.ctx id).stops = (s.ctx id).stops
  slots : ∀ m, m < l.length → ∃ y, EntrySlot (t.ctx id) (s.ctx id).ahead i.toNat p m y ∧ y.lane = l.getD m none ∧ y.key = key ∧
    y.fmt = if l.all Option.isNone then 0 else fmt

theorem FramesMade.runEntered (h : FramesMade s t id i.toNat p l.length) (count : BitVec 4) :
    RunEntered s (deliverRun t id (s.ctx id).ahead i p fmt key count l) id i p fmt key l where
  ahead := (deliverRun_keeps ..).2.2.trans h.ahead
  stops := (deliverRun_free_stops (fun m hm => by
    obtain ⟨old, hfree, hfind⟩ := h.made m hm
    exact ⟨_, hfind, hfree⟩) fmt key count).trans h.stops
  slots m hm := by
    obtain ⟨old, hfree, hfind⟩ := h.made m hm
    obtain ⟨fin, hput⟩ := putRun_free (fmt := if l.all Option.isNone then 0 else fmt) (key := key) l m hm hfind hfree
      (if l.all Option.isNone then 0 else count) true
    have hslot : slotAt (entered entryFrame old) i.toNat p = none := not_not.1 fun hs => hfree (.inr hs)
    exact ⟨_, ⟨_, (deliverRun_find ..).trans hput, rfl, rfl, rfl, rfl, rfl, slotAt_append hslot rfl rfl, rfl⟩, rfl, rfl, rfl⟩

/-- What follows the delivery leaves the frames, the allocation head and the stops. -/
theorem RunEntered.after (h : RunEntered s t id i p fmt key l) (hframes : (u.ctx id).frames = (t.ctx id).frames)
    (hahead : (u.ctx id).ahead = (t.ctx id).ahead) (hstops : (u.ctx id).stops = (t.ctx id).stops) :
    RunEntered s u id i p fmt key l where
  ahead := hahead.trans h.ahead
  stops := hstops.trans h.stops
  slots m hm := by
    have hfind : (u.ctx id).find = (t.ctx id).find := by
      funext n
      rw [Ctx.find, Ctx.find, hframes]
    unfold EntrySlot
    rw [hfind]
    exact h.slots m hm

end

/-! ### The end of a service: the head token goes, or its tail stays (R223) -/

theorem consume_queue_rest {s : State} {i : Nat} {t : Token} {rest : List Token} (h : (s.inc i).queue = t :: rest) :
    ((consume s i).inc i).queue = rest := by
  rw [(consume_spec h).1]

theorem shrinkHead_eq {s : State} {i : Nat} {t : Token} {rest : List Token} (h : (s.inc i).queue = t :: rest) (n : Nat) :
    shrinkHead s i n = s.setInc i { s.inc i with queue := t.drop n :: rest, cut := true } := by
  unfold shrinkHead
  simp only [h]

/-- Noting that the entries of a context have closed changes its sequencer's state alone. -/
theorem noteClosing_eq (s : State) (id : Nat) :
    noteClosing s id = s.setCtx id { s.ctx id with seq := ((noteClosing s id).ctx id).seq } ∨ noteClosing s id = s := by
  unfold noteClosing editSeq
  split
  · left
    dsimp only
    rw [State.setCtx_setCtx, State.setCtx_ctx_self, Ctx.accept_seq, State.setCtx_ctx_self]
  · exact .inr rfl

theorem noteClosing_inc (s : State) (id j : Nat) : (noteClosing s id).inc j = s.inc j := by
  obtain h | h := noteClosing_eq s id <;> rw [h]
  rfl

theorem noteClosing_ctx (s : State) (id : Nat) :
    (noteClosing s id).ctx id = { s.ctx id with seq := ((noteClosing s id).ctx id).seq } := by
  obtain h | h := noteClosing_eq s id
  · rw [h, State.setCtx_ctx_self]
  · rw [h]

section
variable {s : State} {place ch : Nat} {i : BitVec 7} {p : Port}

theorem deliverEntry_port {w : W64} (h : htabTarget w = some (.same i p)) (s : State) (id num : Nat) (t : Token) :
    deliverEntry s id num w t = deliverRun s id num i p t.fmt t.key t.count t.lanes := by
  simp only [deliverEntry, h]

/-- The lanes of a lead entry's run that have frames enter them, and the others stay queued (R223). -/
theorem serveEntry_lead {c : BitVec 3} {fn key : BitVec 12} {fm ct : BitVec 4} {lanes : List Lane} {rest : List Token} {k : Nat}
    (htarget : htabTarget (entryOf s place ch) = some (.same i p)) (hlead : htabLead (entryOf s place ch) = true)
    (hclear : HeadClear (s.ctx (place * 8 + htabCtx (entryOf s place ch))) i.toNat p)
    (hqueue : (s.inc (place * 64 + ch)).queue = .data c fn fm key ct lanes :: rest)
    (hk : (entryFrames s place (htabCtx (entryOf s place ch)) lanes.length 0).2 = k) :
    let t := serveEntry s place ch (.data c fn fm key ct lanes)
    k ≤ lanes.length ∧
    (t.inc (place * 64 + ch)).queue = (if k = lanes.length then rest else .data c fn fm key ct (lanes.drop k) :: rest) ∧
    RunEntered s t (place * 8 + htabCtx (entryOf s place ch)) i p fm key (lanes.take k) := by
  obtain ⟨k', hcount, hle, hmade⟩ := entryFrames_framesMade hclear lanes.length 0
  obtain rfl : k = k' := by omega
  have hserve : serveEntry s place ch (.data c fn fm key ct lanes) =
      (let v := deliverRun (entryFrames s place (htabCtx (entryOf s place ch)) lanes.length 0).1
        (place * 8 + htabCtx (entryOf s place ch)) (s.ctx (place * 8 + htabCtx (entryOf s place ch))).ahead i p fm key
        (if k < lanes.length then 0 else ct) (lanes.take k)
      if k = lanes.length then consume v (place * 64 + ch) else shrinkHead v (place * 64 + ch) k) := by
    simp only [serveEntry, hlead, if_true, Token.isMark, Bool.false_eq_true, if_false, Token.lanes, hk, deliverEntry_port htarget]
    rfl
  dsimp only
  rw [hserve]
  generalize hu : (entryFrames s place (htabCtx (entryOf s place ch)) lanes.length 0).1 = u at hmade
  have hlen : (lanes.take k).length = k := by rw [List.length_take]; omega
  rw [← hlen] at hmade
  have hrun := hmade.runEntered (fmt := fm) (key := key) (if k < lanes.length then 0 else ct)
  have hq : ((deliverRun u (place * 8 + htabCtx (entryOf s place ch)) (s.ctx (place * 8 + htabCtx (entryOf s place ch))).ahead i p fm
      key (if k < lanes.length then 0 else ct) (lanes.take k)).inc (place * 64 + ch)).queue = .data c fn fm key ct lanes :: rest := by
    rw [State.inc, (deliverRun_only ..).ins]
    exact (hmade.queue _).trans hqueue
  generalize deliverRun u _ _ i p fm key _ (lanes.take k) = v at hrun hq
  refine ⟨hle, ?_⟩
  dsimp only
  split
  · refine ⟨consume_queue_rest hq, hrun.after ?_ ?_ ?_⟩ <;> rw [(consume_only v _).ctx]
  · rw [shrinkHead_eq hq, State.setInc_inc_self]
    exact ⟨rfl, hrun.after rfl rfl rfl⟩

/-- A lead entry counts a mark and consumes it (R238, R411). -/
theorem serveEntry_lead_mark {tok : Token} {rest : List Token} (hlead : htabLead (entryOf s place ch) = true) (hmark : tok.isMark = true)
    (hqueue : (s.inc (place * 64 + ch)).queue = tok :: rest) : let t := serveEntry s place ch tok
    (t.inc (place * 64 + ch)).queue = rest ∧
      (t.ctx (place * 8 + htabCtx (entryOf s place ch))).ahead = (s.ctx (place * 8 + htabCtx (entryOf s place ch))).ahead := by
  have hserve : serveEntry s place ch tok = noteClosing (consume (countMark s (place * 8 + htabCtx (entryOf s place ch)))
      (place * 64 + ch)) (place * 8 + htabCtx (entryOf s place ch)) := by
    simp only [serveEntry, hlead, hmark, if_true]
  dsimp only
  rw [hserve, noteClosing_inc, noteClosing_ctx, (consume_only ..).ctx, countMark]
  exact ⟨consume_queue_rest hqueue, by rw [State.setCtx_ctx_self]⟩

/-- The lane count that an entry without `lead` delivers for a token: 0 for a mark. -/
def bellCount (tok : Token) : W32 := if tok.isMark then 0 else BitVec.ofNat 32 tok.lanes.length

/-- An entry without `lead` consumes its token, and one frame takes the token's lane count (R223). -/
theorem serveEntry_bell {tok : Token} {rest : List Token} (htarget : htabTarget (entryOf s place ch) = some (.same i p))
    (hlead : htabLead (entryOf s place ch) = false) (hclear : HeadClear (s.ctx (place * 8 + htabCtx (entryOf s place ch))) i.toNat p)
    (hqueue : (s.inc (place * 64 + ch)).queue = tok :: rest) : let t := serveEntry s place ch tok
    (t.inc (place * 64 + ch)).queue = rest ∧ (mayAllocate s place (htabCtx (entryOf s place ch)) 0 = true →
      RunEntered s t (place * 8 + htabCtx (entryOf s place ch)) i p fmtN32 0 [some (bellCount tok)]) := by
  generalize hcx : htabCtx (entryOf s place ch) = cx at *
  obtain ⟨u, hu⟩ : ∃ u, (entryFrames s place cx 1 0).1 = u := ⟨_, rfl⟩
  obtain ⟨v, hv⟩ : ∃ v, deliverRun u (place * 8 + cx) (s.ctx (place * 8 + cx)).ahead i p fmtN32 0 0 [some (bellCount tok)] = v :=
    ⟨_, rfl⟩
  have hserve : serveEntry s place ch tok = noteClosing (consume (if tok.isMark then countMark v (place * 8 + cx) else v)
      (place * 64 + ch)) (place * 8 + cx) := by
    simp only [serveEntry, hlead, Bool.false_eq_true, if_false, deliverEntry_port htarget, hcx, hu]
    rw [← hv]
    rfl
  have hq : (v.inc (place * 64 + ch)).queue = tok :: rest := by
    obtain ⟨k, -, -, hmade⟩ := entryFrames_framesMade hclear 1 0
    rw [← hv, State.inc, (deliverRun_only ..).ins, ← hu]
    exact (hmade.queue _).trans hqueue
  have hcounted : ∀ w : State, w = (if tok.isMark then countMark v (place * 8 + cx) else v) → (w.inc (place * 64 + ch)).queue = tok :: rest ∧
      (w.ctx (place * 8 + cx)).frames = (v.ctx (place * 8 + cx)).frames ∧ (w.ctx (place * 8 + cx)).ahead = (v.ctx (place * 8 + cx)).ahead ∧
      (w.ctx (place * 8 + cx)).stops = (v.ctx (place * 8 + cx)).stops := by
    rintro w rfl
    split
    · rw [countMark, State.setCtx_ctx_self]
      exact ⟨hq, rfl, rfl, rfl⟩
    · exact ⟨hq, rfl, rfl, rfl⟩
  obtain ⟨hwq, hframes, hahead, hstops⟩ := hcounted _ rfl
  dsimp only
  rw [hserve, noteClosing_inc]
  refine ⟨consume_queue_rest hwq, fun hroom => ?_⟩
  replace hu : allocate s place cx entryFrame = u := by rw [← hu, entryFrames_one hroom]
  have hrun : RunEntered s v (place * 8 + cx) i p fmtN32 0 [some (bellCount tok)] := by
    rw [← hv, ← hu]
    exact (allocate_framesMade hclear).runEntered (l := [some (bellCount tok)]) 0
  refine hrun.after ?_ ?_ ?_ <;> rw [noteClosing_ctx, (consume_only ..).ctx]
  exacts [hframes, hahead, hstops]

end

/-- The head token of the entry that is picked is served (R222). -/
theorem exec_handlerTableServe {s s1 : State} {die tile place ch : Nat} {tok : Token} {rest : List Token} (hplace : placeOf die tile = place)
    (hs1 : noteEntryWaits s place 8 = s1)
    (hbest : bestOf (entryBefore s1 place) ((List.range 64).filter fun ch => runnable s1 place ch && servable s1 place ch) = some ch)
    (hqueue : (s1.inc (place * 64 + ch)).queue = tok :: rest) :
    exec (.handlerTableServe die tile) s = .next (serveEntry s1 place ch tok) := by
  subst hplace hs1
  change execHandlerTableServe die tile s = _
  simp only [execHandlerTableServe, hbest, hqueue]

/-- Settles O48: an entry's frames are allocated with their ports free, so each lane of the run it delivers stands in its own. -/
theorem handlerTableServesItsEntries : Obligations.HandlerTableServesItsEntries := by
  unfold Obligations.HandlerTableServesItsEntries
  refine ⟨fun s die tile ch tok rest => exec_handlerTableServe rfl rfl, ?_⟩
  intro s place ch i p rest w id x htarget hahead made
  have hclear : HeadClear (s.ctx id) i.toNat p := by
    intro fr hfr
    refine (hahead fr hfr).imp_right fun ⟨hnum, hfired, hslots⟩ => ⟨hnum, ?_⟩
    rintro (h | h)
    · exact Bool.false_ne_true (hfired.symm.trans h)
    · refine h (List.find?_eq_none.2 fun y hy => ?_)
      simpa using hslots y hy
  have bell {tok : Token} {t : State} (h : RunEntered s t id i p fmtN32 0 [some (bellCount tok)]) :
      (t.ctx id).ahead = x.ahead + 1 ∧ (t.ctx id).stops = x.stops ∧ ∃ y, made t 0 y ∧ y.lane = some (bellCount tok) ∧ y.fmt = 3 := by
    obtain ⟨y, hslot, hlane, -, hfmt⟩ := h.slots 0 Nat.one_pos
    exact ⟨h.ahead, h.stops, y, hslot, hlane, hfmt⟩
  refine ⟨fun c fn fm key ct lanes hqueue _ => ⟨?lead, ?other⟩, fun c cl pay hqueue => ?mark⟩
  case lead =>
    intro k hlead hk hpos
    obtain ⟨hle, hrest, hrun⟩ := serveEntry_lead htarget hlead hclear hqueue hk
    have hlen : (lanes.take k).length = k := by rw [List.length_take]; omega
    refine ⟨hrest, hrun.ahead.trans (by rw [hlen]), hrun.stops, fun m hm => ?_⟩
    obtain ⟨y, hslot, hlane, hkey, hfmt⟩ := hrun.slots m (by omega)
    refine ⟨y, hslot, hlane.trans ?_, hkey, hfmt⟩
    simp [List.getD_eq_getElem?_getD, hm]
  case other =>
    intro hlead hroom
    obtain ⟨hrest, hrun⟩ := serveEntry_bell htarget hlead hclear hqueue
    exact ⟨hrest, bell (hrun hroom)⟩
  case mark =>
    refine ⟨?_, fun hlead => (serveEntry_lead_mark hlead rfl hqueue).2, fun hlead hroom => ?_⟩
    · cases hlead : htabLead w
      · exact (serveEntry_bell htarget hlead hclear hqueue).1
      · exact (serveEntry_lead_mark hlead rfl hqueue).1
    · obtain ⟨hnum, -, hslot⟩ := bell ((serveEntry_bell htarget hlead hclear hqueue).2 hroom)
      exact ⟨hnum, hslot⟩

end Sys2Proof.Machine

/-! ## Launches: queued, started, placed and begun (O54) -/

namespace Sys2Proof.Machine
open Sys2Proof

/-! ### part.trigger and the start of a launch (R213, R214, R215) -/

section
variable {s : State} {part : Nat}

theorem acceptTrigger_eq (s : State) (part : Nat) (v : W64) : acceptTrigger s part v = s.setPart part
    (if 16 ≤ (s.part part).queue.length + (s.part part).running.length then { s.part part with ovf := true }
      else { s.part part with queue := (s.part part).queue ++
        [⟨triggerSlot v, triggerRs v, triggerList v, (s.part part).clkNext.isSome⟩] }) := by
  unfold acceptTrigger
  exact (apply_ite (s.setPart part) _ _ _).symm

theorem exec_launch_live {v : W64} (hlive : (s.part part).live = true) (hrs : triggerRs v = false) :
    exec (.launch part v) s = .next (acceptTrigger s part v) :=
  if_pos (by rw [hlive, hrs]; rfl)

theorem exec_restore_live {v : W64} (hlive : (s.part part).live = true) (hrs : triggerRs v = true) :
    exec (.restore part v) s = .next (acceptTrigger s part v) :=
  if_pos (by rw [hlive, hrs]; rfl)

/-- Reading a patch list changes what belongs to memory alone. -/
theorem readPatches_only (s : State) (part : Nat) (g : GraphImage) (va n : Nat) : CachesOnly s (readPatches s part g va n).1 := by
  induction n generalizing s va with
  | zero => rfl
  | succ n ih =>
    have hread := partRead_only s part va 16
    unfold AccessOnly at hread
    unfold readPatches
    split <;> rename_i heq <;> rw [heq] at hread
    · exact hread
    · rename_i t b
      dsimp only
      split
      · exact hread
      · split
        · exact hread
        · split
          · exact hread
          · split
            · have hrest := ih t (va + 16)
              split <;> rename_i heq2 <;> rw [heq2] at hrest <;> exact hread.trans hrest
            · exact hread

/-- So does reading all that a queued launch names. -/
theorem launchSource_only (s : State) (part : Nat) (l : Launch) : CachesOnly s (launchSource s part l).1 := by
  unfold launchSource
  dsimp only
  split
  · have hhead := partRead_only s part l.plist 64
    unfold AccessOnly at hhead
    split <;> rename_i heq <;> rw [heq] at hhead
    · exact hhead
    · rename_i t h
      split
      · exact hhead
      · split
        · exact hhead
        · have hall := partRead_only t part l.plist (leNat ((h.drop (8 * 2)).take 8))
          unfold AccessOnly at hall
          split <;> rename_i heq2 <;> rw [heq2] at hall <;> exact hhead.trans hall
  · split
    · rfl
    · split
      · rfl
      · rename_i g _ _
        have hlist := readPatches_only s part g l.plist 256
        split <;> rename_i heq <;> rw [heq] at hlist <;> exact hlist

theorem CachesOnly.part_eq {s t : State} (h : CachesOnly s t) (i : Nat) : t.part i = s.part i := by rw [State.part, State.part, h.parts]

/-- The running launch that the head of a partition's queue becomes. -/
def begun (p : Part) (part slot : Nat) (l : Launch) (g : GraphImage) (image : List Byte) (refused : Option Nat) : Running :=
  { id := p.nextId * 32 + part, launch := { l with slot := slot }, graph := prepared g, ctxs := graphCtxs (prepared g), image := image
    refused := refused }

theorem beginLaunch_eq (s : State) (part slot : Nat) (l : Launch) (g : GraphImage) (image : List Byte) (refused : Option Nat) :
    beginLaunch s part slot l g image refused = s.setPart part { s.part part with
      queue := (s.part part).queue.drop 1, running := (s.part part).running ++ [begun (s.part part) part slot l g image refused]
      nextId := (s.part part).nextId + 1 } := rfl

section
variable {l : Launch} {rest : List Launch} (hqueue : (s.part part).queue = l :: rest) (hckpt : ckptHolds s part l = false)
  (hfreeing : (s.part part).freeing = false) (hheld : l.held = false)
include hqueue hckpt hfreeing hheld

theorem exec_launchStart : exec (.launchStart part) s = match launchSource s part l with
    | (t, slot, .error st) => .next (beginLaunch t part slot l {} [] (some st))
    | (t, slot, .ok (g, image)) => if canStart s part g then .next (beginLaunch t part slot l g image none) else .next s := by
  change execLaunchStart part s = _
  simp only [execLaunchStart, hqueue, hckpt, hfreeing, hheld, Bool.or_false, Bool.false_eq_true, if_false] <;> rfl

end

/-- What the start of a launch leaves in its partition. -/
theorem beginLaunch_part {s1 : State} {l : Launch} {rest : List Launch} (hpart : s1.part part = s.part part)
    (hqueue : (s.part part).queue = l :: rest) (slot : Nat) (g : GraphImage) (image : List Byte) (refused : Option Nat) :
    let t := beginLaunch s1 part slot l g image refused
    t = s1.setPart part (t.part part) ∧
      (t.part part).running = (s.part part).running ++ [begun (s.part part) part slot l g image refused] ∧ (t.part part).queue = rest := by
  dsimp only
  rw [beginLaunch_eq, hpart, State.setPart_part_self, hqueue]
  exact ⟨rfl, rfl, rfl⟩

theorem launchSource_noGraph {l : Launch} (hrs : l.rs = false) (hslot : SMap.find? (s.part part).slots l.slot = none) :
    launchSource s part l = (s, l.slot, .error 3) := by
  simp only [launchSource, hrs, Bool.false_eq_true, if_false, hslot]

theorem launchSource_plain {l : Launch} {g : GraphImage} (hrs : l.rs = false)
    (hslot : SMap.find? (s.part part).slots l.slot = some g) (hlist : l.plist = 0) :
    launchSource s part l = (s, l.slot, .ok (g, [])) := by
  simp only [launchSource, hrs, Bool.false_eq_true, if_false, hslot, hlist, if_true]

theorem canStart_idle {g : GraphImage} (h : ∀ id ∈ graphCtxs g, (s.ctx id).active = false) : canStart s part g = true :=
  List.all_eq_true.2 fun id hid => by simp [ctxFree, h id hid]

end

/-! ### Edits of a running launch -/

section
variable {s : State} {part id : Nat} {g : Running → Running}

theorem editRunning_part_self : ((editRunning s part id g).part part).running =
    (s.part part).running.map fun r => if r.id = id then g r else r := by
  unfold editRunning
  rw [State.setPart_part_self]

/-- A running launch that an edit has reached. -/
theorem mem_editRunning {q : Running} (hq : q ∈ ((editRunning s part id g).part part).running)
    (hqid : q.id = id) : ∃ r, q = g r := by
  rw [editRunning_part_self] at hq
  obtain ⟨r, -, rfl⟩ := List.mem_map.1 hq
  by_cases hr : r.id = id
  · exact ⟨r, if_pos hr⟩
  · rw [if_neg hr] at hqid
    exact absurd hqid hr

theorem editRunning_ctx (s : State) (part id : Nat) (g : Running → Running) (j : Nat) : (editRunning s part id g).ctx j = s.ctx j := rfl

theorem editRunning_streamer (s : State) (part id : Nat) (g : Running → Running) (i : Nat) :
    (editRunning s part id g).streamer i = s.streamer i := rfl

end

/-! ### A placement that is refused (R216) -/

theorem withdrawLaunch_parts (s : State) (part id : Nat) : (withdrawLaunch s part id).parts = s.parts := by
  unfold withdrawLaunch
  dsimp only
  rw [markSpliced_parts, State.mapIslands_parts, State.mapUnits_parts, State.mapCtxs_parts]

theorem withdrawLaunch_part (s : State) (part id i : Nat) : (withdrawLaunch s part id).part i = s.part i := by
  rw [State.part, withdrawLaunch_parts]
  rfl

/-- A tile off the grid or of another partition is found (R216). -/
theorem dieCheck_badGround {s : State} {part : Nat} (g : GraphImage) {d : DieConf}
    (h : ∃ x ∈ d.tiles, d.holds x = false ∨ SMap.find? s.owners (d.place x) ≠ some part) : dieCheck s part g d ≠ none := by
  obtain ⟨x, hx, hbad⟩ := h
  have hfound : (d.tiles.find? fun t => !(d.holds t && decide (SMap.find? s.owners (d.place t) = some part))).isSome = true := by
    refine List.find?_isSome.2 ⟨x, hx, ?_⟩
    obtain hbad | hbad := hbad <;> simp [hbad]
  obtain ⟨y, hy⟩ := Option.isSome_iff_exists.1 hfound
  have hground : groundCheck s part d = some ⟨d.die * 256 + d.place y % 256, 0, 17, 0, none⟩ := by
    unfold groundCheck firstRefused
    rw [hy]
    rfl
  unfold dieCheck firstRefused
  rw [hground]
  exact Option.some_ne_none _

/-- The record of a refused placement. -/
def offenceRecord (s : State) (part : Nat) (o : Offence) (detail : W64) : Record :=
  { code := codeIllegal, source := sourceAt o.place o.unit, ctx := BitVec.ofNat 3 o.ctx, frame := 0
    index := BitVec.ofNat 12 o.index, part := BitVec.ofNat 5 part, time := s.time (o.place / 256), aux := 0, detail := detail, snap := 0 }

theorem reportRecord_none_room {s : State} {part : Nat} (hroom : QueueHasRoom (s.part part)) (r : Record) :
    reportRecord s part r none = reported s part r :=
  if_pos ⟨hroom.1, List.isEmpty_iff.2 hroom.2⟩

/-- A record that kills no context enters the report queue or waits for room. -/
theorem reportRecord_none_eq (s : State) (part : Nat) (r : Record) :
    reportRecord s part r none = { s with parts := (reportRecord s part r none).parts, msix := (reportRecord s part r none).msix } := by
  by_cases hroom : QueueHasRoom (s.part part)
  · rw [reportRecord_none_room hroom]
    rfl
  · rw [reportRecord_full hroom]
    rfl

theorem reported_part (s : State) (part : Nat) (r : Record) : (reported s part r).part part = { s.part part with
    reports := SMap.set (s.part part).reports ((s.part part).prod.toNat % 64) r, prod := (s.part part).prod + 1 } :=
  State.setPart_part_self ..

/-- The record goes to the owner; its detail is the offence's reason, where that has one. -/
theorem reportOffence_eq (s : State) (part : Nat) (o : Offence) : ∃ n detail, (∀ k, o.reason = some k → detail = natW64 k) ∧
    reportOffence s part o = reportRecord { s with draws := n } part (offenceRecord s part o detail) none := by
  unfold reportOffence
  cases o.reason with
  | none => exact ⟨_, _, by simp, rfl⟩
  | some k => exact ⟨s.draws, _, by simp, rfl⟩

theorem reportOffence_memory (s : State) (part : Nat) (o : Offence) :
    (reportOffence s part o).mem = s.mem ∧ (reportOffence s part o).l2 = s.l2 := by
  obtain ⟨n, detail, -, h⟩ := reportOffence_eq s part o
  rw [h, reportRecord_none_eq]
  exact ⟨rfl, rfl⟩

/-- A launch of which one die's part is refused, withdrawn. -/
def refusedPlacement (s : State) (part id : Nat) : State :=
  withdrawLaunch (editRunning s part id fun r => { r with refused := some 4 }) part id

theorem refusedPlacement_refused {s : State} {part id : Nat} : ∀ q ∈ ((refusedPlacement s part id).part part).running, q.id = id →
    q.refused = some 4 := by
  intro q hq hid
  rw [refusedPlacement, withdrawLaunch_part] at hq
  obtain ⟨r, rfl⟩ := mem_editRunning hq hid
  rfl

theorem refusedPlacement_memory (s : State) (part id : Nat) :
    (refusedPlacement s part id).mem = s.mem ∧ (refusedPlacement s part id).l2 = s.l2 := by
  unfold refusedPlacement withdrawLaunch markSpliced editRunning
  simp

/-- Of the partition's report queue a withdrawal changes nothing. -/
theorem refusedPlacement_part (s : State) (part id : Nat) : (refusedPlacement s part id).part part =
    { s.part part with running := ((refusedPlacement s part id).part part).running } := by
  rw [refusedPlacement, withdrawLaunch_part]
  exact (editRunning_running ..).part part

/-! ### What a placement configures (R190, R216) -/

section
variable (s : State) (g : GraphImage) (place : Nat) (fresh : Bool)

theorem configureIn_only (x : ChanConf) : ChannelsOnly s (configureIn s g place fresh x) := rfl

theorem configureOut_only (x : ChanConf) : ChannelsOnly s (configureOut s g place fresh x) := rfl

theorem ChannelsOnly.fold {α : Type} {f : State → α → State} (hf : ∀ s a, ChannelsOnly s (f s a)) (l : List α) (s : State) :
    ChannelsOnly s (l.foldl f s) := by
  induction l generalizing s with
  | nil => exact .refl s
  | cons a l ih => exact (hf s a).trans (ih _)

theorem configureChans_only (ins outs : List ChanConf) : ChannelsOnly s (configureChans s g place fresh ins outs) :=
  (ChannelsOnly.fold (fun s x => configureIn_only s g place fresh x) ins s).trans
    (.fold (fun s x => configureOut_only s g place fresh x) outs _)

theorem loadRegion_ctxs (k : CtxConf) : (loadRegion s place k).ctxs = s.ctxs := by
  unfold loadRegion
  split <;> rfl

/-- A context that is configured is active for its launch, with the records that stood of it where it is not fresh; no other context
changes. -/
theorem configureCtx_spec (part id : Nat) (t : TileConf) (c : Nat) (k : CtxConf) : ∃ x : Ctx, x.active = true ∧ x.launch = id ∧
    x.stops = (if fresh then [] else (s.ctx (place * 8 + c)).stops) ∧
    ∀ j, (configureCtx s g part id place t fresh c k).ctx j = if j = place * 8 + c then x else s.ctx j := by
  have hset : ∃ (x : Ctx) (ins outs : List ChanConf), configureCtx s g part id place t fresh c k =
      configureChans (loadEntries (loadRegion (s.setCtx (place * 8 + c) x) place k) place c t) g place fresh ins outs ∧
      x.active = true ∧ x.launch = id ∧ x.stops = if fresh then [] else (s.ctx (place * 8 + c)).stops :=
    ⟨_, _, _, rfl, rfl, rfl, rfl⟩
  obtain ⟨x, ins, outs, hset, hactive, hlaunch, hstops⟩ := hset
  refine ⟨x, hactive, hlaunch, hstops, fun j => ?_⟩
  rw [hset, (configureChans_only ..).ctx]
  change SMap.get {} (loadRegion _ place k).ctxs j = _
  rw [loadRegion_ctxs]
  exact State.setCtx_ctx_get ..

theorem configureUnit_ctxs (id : Nat) (t : TileConf) (u : UnitConf) : (configureUnit s g id place t fresh u).ctxs = s.ctxs := by
  unfold configureUnit
  dsimp only
  rw [configureChans_only]
  split
  · split
    · split <;> split <;> rfl
    · split <;> rfl
  · rfl

theorem configureTile_ctxs (d : DieConf) (t : TileConf) : (configureTile s g d t).ctxs = s.ctxs := by
  unfold configureTile
  dsimp only
  split
  · rfl
  · split
    · rfl
    · exact (l1Flush_only _ _ _).ctxs

end

/-- Some contexts that were idle are active for a launch now; no other context has changed. -/
def Activates (launch : Nat) (s t : State) : Prop :=
  ∀ j, t.ctx j = s.ctx j ∨ (s.ctx j).active = false ∧ (t.ctx j).active = true ∧ (t.ctx j).launch = launch

namespace Activates
variable {s t u : State} {id : Nat}

theorem of_ctxs (h : t.ctxs = s.ctxs) : Activates id s t := fun j => .inl (by rw [State.ctx, State.ctx, h])

theorem active {j : Nat} (h : Activates id s t) (ha : (s.ctx j).active = true) : (t.ctx j).active = true := by
  obtain hj | ⟨-, hj, -⟩ := h j
  · rw [hj]; exact ha
  · exact hj

theorem trans (h : Activates id s t) (g : Activates id t u) : Activates id s u := by
  intro j
  obtain hg | ⟨hidle, hactive, hlaunch⟩ := g j
  · rw [hg]; exact h j
  · obtain hh | ⟨-, hbusy, -⟩ := h j
    · rw [hh] at hidle
      exact .inr ⟨hidle, hactive, hlaunch⟩
    · exact absurd (hidle.symm.trans hbusy) Bool.false_ne_true

theorem fold {α : Type} {f : State → α → State} (hf : ∀ s a, Activates id s (f s a)) (l : List α) (s : State) :
    Activates id s (l.foldl f s) := by
  induction l generalizing s with
  | nil => exact of_ctxs rfl
  | cons a l ih => exact (hf s a).trans (ih (f s a))

end Activates

/-- What each step of a fold brings about for its own entry, and no later step undoes, holds for every entry at the end. -/
theorem foldl_brings {α : Type} {f : State → α → State} {P : α → State → Prop} (hbrings : ∀ s a, P a (f s a))
    (hkeeps : ∀ s a b, P a s → P a (f s b)) (l : List α) (s : State) : ∀ a ∈ l, P a (l.foldl f s) := by
  have hstays (a : α) : ∀ (l : List α) (s : State), P a s → P a (l.foldl f s) := by
    intro l
    induction l with
    | nil => exact fun _ h => h
    | cons b l ih => exact fun s h => ih (f s b) (hkeeps s a b h)
  induction l generalizing s with
  | nil => exact fun a ha => absurd ha List.not_mem_nil
  | cons b l ih =>
    intro a ha
    obtain rfl | ha := List.mem_cons.1 ha
    · exact hstays a l (f s a) (hbrings s a)
    · exact ih (f s b) a ha

section
variable (g : GraphImage) (part id : Nat)

theorem placeCtx_activates (place : Nat) (t : TileConf) (s : State) (k : Nat × CtxConf) :
    Activates id s (placeCtx g part id place t s k) ∧ ((placeCtx g part id place t s k).ctx (place * 8 + k.1)).active = true := by
  unfold placeCtx
  split
  · next h => exact ⟨.of_ctxs rfl, h⟩
  · next h =>
    obtain ⟨x, hactive, hlaunch, -, hctx⟩ := configureCtx_spec s g place true part id t k.1 k.2
    refine ⟨fun j => ?_, by rw [hctx, if_pos rfl]; exact hactive⟩
    rw [hctx]
    split
    · next hj => exact .inr ⟨by rw [hj]; exact Bool.not_eq_true _ ▸ h, hactive, hlaunch⟩
    · exact .inl rfl

theorem placeUnit_ctxs (place : Nat) (t : TileConf) (s : State) (u : UnitConf) : (placeUnit g part id place t s u).ctxs = s.ctxs := by
  unfold placeUnit
  extract_lets idle
  split
  · exact configureUnit_ctxs ..
  · rfl

/-- A tile's part of a placement: afterwards each context that the graph configures there is active. -/
theorem placeTile_activates (d : DieConf) (s : State) (t : TileConf) : Activates id s (placeTile g part id d s t) ∧
    ∀ k ∈ t.ctxs, ((placeTile g part id d s t).ctx (d.place t * 8 + k.1)).active = true := by
  have hunits : Activates id s (t.units.foldl (placeUnit g part id (d.place t) t) (configureTile s g d t)) :=
    (Activates.of_ctxs (configureTile_ctxs s g d t)).trans (.fold (fun s u => .of_ctxs (placeUnit_ctxs ..)) _ _)
  refine ⟨hunits.trans (.fold (fun s k => (placeCtx_activates g part id (d.place t) t s k).1) _ _), ?_⟩
  exact foldl_brings (P := fun (k : Nat × CtxConf) (s : State) => (s.ctx (d.place t * 8 + k.1)).active = true)
    (fun s k => (placeCtx_activates g part id (d.place t) t s k).2)
    (fun s k k' h => (placeCtx_activates g part id (d.place t) t s k').1.active h) t.ctxs _

theorem placeStream_ctxs (d : DieConf) (s : State) (q : StreamConf) : (placeStream g d s q).ctxs = s.ctxs := rfl

/-- A die's part of a placement, its streams behind its tiles. -/
theorem placeDie_activates (d : DieConf) (s : State) :
    let t := markSpliced (d.streams.foldl (placeStream g d) (d.tiles.foldl (placeTile g part id d) s))
    Activates id s t ∧ ∀ x ∈ d.tiles, ∀ k ∈ x.ctxs, (t.ctx (d.place x * 8 + k.1)).active = true := by
  have hstreams (u : State) : Activates id u (markSpliced (d.streams.foldl (placeStream g d) u)) :=
    (Activates.fold (fun s q => .of_ctxs (placeStream_ctxs g d s q)) d.streams u).trans (.of_ctxs rfl)
  have htiles (s : State) (x : TileConf) := placeTile_activates g part id d s x
  refine ⟨(Activates.fold (fun s x => (htiles s x).1) _ _).trans (hstreams _), fun x hx k hk => (hstreams _).active ?_⟩
  exact foldl_brings (P := fun (x : TileConf) (s : State) => ∀ k ∈ x.ctxs, (s.ctx (d.place x * 8 + k.1)).active = true)
    (fun s x => (htiles s x).2) (fun s x y h k hk => (htiles s y).1.active (h k hk)) d.tiles s x hx k hk

end

/-! ### PLACEMENT (R216) -/

/-- The launch whose part a die's scheduler looks at next. -/
def placedNext (s : State) (part die : Nat) : Option Running :=
  (s.part part).running.find? fun r => r.refused.isNone && !r.killed && !r.acked.contains die && (r.graph.die? die).isSome

/-- Every context of a die's part that is in use of the partition is the launch's own, or holds it in its splice buffer. -/
def PartFree (s : State) (part : Nat) (r : Running) (d : DieConf) : Prop :=
  ∀ id ∈ dieCtxs d, (s.ctx id).active = true → (s.ctx id).part = part →
    (s.ctx id).launch = r.id ∨ (s.ctx id).splice.any (fun x => x.1 == r.id) = true

section
variable {s : State} {part die : Nat} {r : Running} {d : DieConf} (hnext : placedNext s part die = some r)
  (hdie : r.graph.die? die = some d) (hfree : PartFree s part r d)
include hnext hdie hfree

theorem exec_placement_eq : exec (.placement part die) s = match dieCheck s part r.graph d with
    | some o => .next (refusedPlacement (reportOffence s part o) part r.id)
    | none =>
      if !recordsFit s part r.graph r.image die then .next (refusedPlacement s part r.id)
      else
        let s := (storePlaces s part r).foldl l1InvalidateClean s
        let s := markSpliced (d.streams.foldl (placeStream r.graph d) (d.tiles.foldl (placeTile r.graph part r.id d) s))
        let s := editRunning s part r.id fun r => { r with acked := die :: r.acked }
        let all := r.graph.dies.all fun d => d.die == die || r.acked.contains d.die
        .next (if all ∧ !r.image.isEmpty then restoreImage s r.graph r.id r.image else s) := by
  have hready : ((dieCtxs d).all fun id => !(s.ctx id).active || (s.ctx id).part != part || (s.ctx id).launch == r.id ||
      (s.ctx id).splice.any fun x => x.1 == r.id) = true := by
    refine List.all_eq_true.2 fun id hid => ?_
    have h := hfree id hid
    grind
  unfold placedNext at hnext
  change execPlacement part die s = _
  simp only [execPlacement, hnext, hdie, hready, Bool.not_true, Bool.false_eq_true, if_false]
  rfl

theorem exec_placement_offence {o : Offence} (hcheck : dieCheck s part r.graph d = some o) :
    exec (.placement part die) s = .next (refusedPlacement (reportOffence s part o) part r.id) := by
  rw [exec_placement_eq hnext hdie hfree, hcheck]

theorem exec_placement_misfit (hcheck : dieCheck s part r.graph d = none)
    (hfit : recordsFit s part r.graph r.image die = false) :
    exec (.placement part die) s = .next (refusedPlacement s part r.id) := by
  rw [exec_placement_eq hnext hdie hfree, hcheck]
  simp only [hfit, Bool.not_false, if_true]

/-- A launch that restores nothing is configured and acknowledged. -/
theorem exec_placement_done (hcheck : dieCheck s part r.graph d = none) (himage : r.image = []) :
    exec (.placement part die) s = .next (editRunning (markSpliced (d.streams.foldl (placeStream r.graph d)
      (d.tiles.foldl (placeTile r.graph part r.id d) ((storePlaces s part r).foldl l1InvalidateClean s)))) part r.id
      fun r => { r with acked := die :: r.acked }) := by
  have hfit : recordsFit s part r.graph [] die = true := rfl
  rw [exec_placement_eq hnext hdie hfree, hcheck]
  simp only [himage, hfit, Bool.not_true, Bool.false_eq_true, if_false, List.isEmpty_nil, and_false]

end

/-! ### SOURCE START (R218) -/

/-- Every queue of a die's part of a graph is armed once the start has reached it. -/
theorem armStreams_armed (g : GraphImage) (d : DieConf) (s : State) : ∀ q ∈ d.streams,
    ∃ z, SMap.find? ((d.streams.foldl (armStream g d) s).streamer (streamerId d.die q.str)).queues q.queue = some z ∧
      z.armed.isSome = true := by
  refine foldl_brings (P := fun (q : StreamConf) (s : State) =>
    ∃ z, SMap.find? (s.streamer (streamerId d.die q.str)).queues q.queue = some z ∧ z.armed.isSome = true)
    (fun s q => ?_) (fun s q b h => ?_) d.streams s
  · rw [armStream, State.setStreamer_streamer_self]
    exact ⟨_, SMap.find?_set_self .., rfl⟩
  · rw [armStream, State.setStreamer_streamer_get]
    split
    · next hs =>
      dsimp only
      by_cases hq : q.queue = b.queue
      · rw [hq]
        exact ⟨_, SMap.find?_set_self .., rfl⟩
      · rw [SMap.find?_set_ne _ _ hq, ← hs]
        exact h
    · exact h

theorem armStreams_ctxs (g : GraphImage) (d : DieConf) (l : List StreamConf) (s : State) : (l.foldl (armStream g d) s).ctxs = s.ctxs := by
  induction l generalizing s with
  | nil => rfl
  | cons q l ih => exact ih _

/-- A context that an edit of every context would leave alone stands as it was. -/
theorem mapCtxs_ctx_fixed {s : State} {f : Nat → Ctx → Ctx} {j : Nat} (h : f j (s.ctx j) = s.ctx j) :
    (s.mapCtxs f).ctx j = s.ctx j := by
  unfold State.ctx SMap.get at h ⊢
  unfold State.mapCtxs
  dsimp only
  rw [SMap.find?_map]
  cases hfind : SMap.find? s.ctxs j with
  | none => rfl
  | some c =>
    rw [hfind] at h
    exact h

section
variable (s : State) (id die : Nat)

theorem startPlaces_ctxs_started : ∀ e ∈ (startPlaces s id die).ctxs, e.2.launch = id → e.1 / 2048 = die → e.2.started = true := by
  intro e he hlaunch hdie
  obtain ⟨x, -, rfl⟩ := List.mem_map.1 he
  dsimp only at hlaunch hdie ⊢
  split at hlaunch
  · next hx => rw [if_pos hx]
  · next hx => exact absurd ⟨hlaunch, hdie⟩ hx

theorem startPlaces_units_started : ∀ e ∈ (startPlaces s id die).units, e.2.launch = id → e.1 / 16384 = die → e.1 % 64 < 20 →
    e.2.started = true := by
  intro e he hlaunch hdie hu
  obtain ⟨x, -, rfl⟩ := List.mem_map.1 he
  dsimp only at hlaunch hdie hu ⊢
  split at hlaunch
  · next hx => rw [if_pos hx]
  · next hx => exact absurd ⟨hlaunch, hdie, hu⟩ hx

theorem startPlaces_streamer (i : Nat) : (startPlaces s id die).streamer i = s.streamer i := rfl

theorem startPlaces_ctx_other {j : Nat} (h : (s.ctx j).launch ≠ id) : (startPlaces s id die).ctx j = s.ctx j := by
  unfold startPlaces
  rw [State.mapUnits_ctx]
  exact mapCtxs_ctx_fixed (if_neg fun hc => h hc.1)

end

/-- A die that the start reaches: its queues are armed where no image has them, its places are started. -/
def startedDie (s : State) (die : Nat) (r : Running) (d : DieConf) : State :=
  startPlaces (if r.image.isEmpty then d.streams.foldl (armStream r.graph d) s else s) r.id die

theorem exec_sourceStart {s : State} {part die : Nat} {r : Running} {d : DieConf}
    (hnext : ((s.part part).running.find? fun r => r.refused.isNone && !r.started.contains die && (r.graph.die? die).isSome &&
      (r.others || (farPackages s r.graph).isEmpty) && r.graph.dies.all fun d => r.acked.contains d.die) = some r)
    (hdie : r.graph.die? die = some d) : exec (.sourceStart part die) s =
      .next (editRunning (startedDie s die r d) part r.id fun r => { r with started := die :: r.started }) := by
  change execSourceStart part die s = _
  simp only [execSourceStart, hnext, hdie]
  rfl

/-- Settles O54: each event as its equation gives it, with what the folds over the tiles and streams of a die leave. -/
theorem launchesStartAndArePlaced : Obligations.LaunchesStartAndArePlaced := by
  unfold Obligations.LaunchesStartAndArePlaced
  intro s part p
  refine ⟨?trigger, ?start, fun l => launchSource_noGraph, fun l g => launchSource_plain, fun g => canStart_idle,
    fun g d => dieCheck_badGround g, ?placement, ?source⟩
  case trigger =>
    intro v hlive t
    have ht : acceptTrigger s part v = t := acceptTrigger_eq s part v
    rw [← ht]
    exact ⟨exec_launch_live hlive, exec_restore_live hlive⟩
  case start =>
    intro l rest s1 slot src hqueue hckpt hfreeing hheld hsource
    have hexec := exec_launchStart hqueue hckpt hfreeing hheld
    have hpart : s1.part part = p := by
      have honly := launchSource_only s part l
      rw [hsource] at honly
      exact CachesOnly.part_eq honly part
    rw [hsource] at hexec
    refine ⟨fun st hsrc => ?_, fun g image hsrc hstart => ?_, fun g image hsrc hstart => ?_⟩ <;> subst hsrc
    · obtain ⟨hset, hrunning, hrest⟩ := beginLaunch_part hpart hqueue slot {} [] (some st)
      exact ⟨_, _, hexec, hset, hrunning, hrest, rfl, rfl⟩
    · exact hexec.trans (if_neg (by rw [hstart]; exact Bool.false_ne_true))
    · obtain ⟨hset, hrunning, hrest⟩ := beginLaunch_part hpart hqueue slot g image none
      exact ⟨_, _, hexec.trans (if_pos hstart), hset, hrunning, hrest, rfl, rfl, rfl, rfl, rfl, rfl⟩
  case placement =>
    intro die r d hnext hdie hfree
    refine ⟨fun o hcheck => ?offence, fun hcheck hfit => ?misfit, fun hcheck himage => ?done⟩
    case offence =>
      obtain ⟨hmem, hl2⟩ := reportOffence_memory s part o
      obtain ⟨hmem', hl2'⟩ := refusedPlacement_memory (reportOffence s part o) part r.id
      refine ⟨_, exec_placement_offence hnext hdie hfree hcheck, hmem'.trans hmem, hl2'.trans hl2, refusedPlacement_refused,
        fun hfew hwaiting => ?_⟩
      obtain ⟨n, detail, hdetail, hreport⟩ := reportOffence_eq s part o
      rw [refusedPlacement_part, hreport, reportRecord_none_room (s := { s with draws := n }) ⟨hfew, hwaiting⟩, reported_part]
      exact ⟨rfl, _, SMap.find?_set_self .., rfl, rfl, rfl, rfl, rfl, hdetail⟩
    case misfit => exact ⟨_, exec_placement_misfit hnext hdie hfree hcheck hfit, refusedPlacement_refused⟩
    case done =>
      refine ⟨_, exec_placement_done hnext hdie hfree hcheck himage, fun q hq hid => ?_, fun x hx k hk => ?_⟩
      · obtain ⟨r', rfl⟩ := mem_editRunning hq hid
        exact List.mem_cons_self
      · have hclean : Activates r.id s ((storePlaces s part r).foldl l1InvalidateClean s) :=
          .of_ctxs (CachesOnly.fold (f := l1InvalidateClean) (fun _ _ => rfl) _ s).ctxs
        obtain ⟨hplaced, hactive⟩ := placeDie_activates r.graph part r.id d ((storePlaces s part r).foldl l1InvalidateClean s)
        rw [editRunning_ctx]
        refine ⟨hactive x hx k hk, fun hidle => ?_⟩
        obtain hsame | ⟨-, -, hlaunch⟩ := hclean.trans hplaced (d.place x * 8 + k.1)
        · exact absurd ((congrArg Ctx.active hsame).symm.trans (hactive x hx k hk)) (by rw [hidle]; exact Bool.false_ne_true)
        · exact hlaunch
  case source =>
    intro die r d hnext hdie
    refine ⟨_, exec_sourceStart hnext hdie, fun q hq hid => ?_, startPlaces_ctxs_started _ _ _, startPlaces_units_started _ _ _,
      fun himage q hq => ?_, fun id hother => ?_⟩
    · obtain ⟨r', rfl⟩ := mem_editRunning hq hid
      exact List.mem_cons_self
    · have harmed := armStreams_armed r.graph d s q hq
      rw [editRunning_streamer, startedDie, startPlaces_streamer, himage, List.isEmpty_nil, if_pos rfl]
      exact harmed
    · have hsame : (if r.image.isEmpty then d.streams.foldl (armStream r.graph d) s else s).ctx id = s.ctx id := by
        split
        · rw [State.ctx, armStreams_ctxs]
          rfl
        · rfl
      rw [editRunning_ctx, startedDie, startPlaces_ctx_other _ _ _ (by rw [hsame]; exact hother), hsame]

end Sys2Proof.Machine

/-! ## A splice behind a drain while a record of the context stands (O55) -/

namespace Sys2Proof.Machine
open Sys2Proof

theorem loadRegion_parts (s : State) (place : Nat) (k : CtxConf) : (loadRegion s place k).parts = s.parts := by
  unfold loadRegion
  split <;> rfl

theorem configureCtx_parts (s : State) (g : GraphImage) (part id place : Nat) (t : TileConf) (fresh : Bool) (c : Nat) (k : CtxConf) :
    (configureCtx s g part id place t fresh c k).parts = s.parts := by
  unfold configureCtx
  dsimp only
  rw [(configureChans_only ..).parts]
  exact loadRegion_parts ..

/-- An image of no bytes restores nothing. -/
theorem restoreLate_plain {r : Running} (himage : r.image = []) (place : Nat) (p : ImageRec → Bool) (ctxs : Bool) (s : State) :
    restoreLate r place p ctxs s = s := by
  have hrecords : imageRecords [] = [] := rfl
  unfold restoreLate
  rw [himage, hrecords]
  rfl

section
variable {s : State} {r : Running} (himage : r.image = []) (t : TileConf) (id : Nat) (k : CtxConf)
include himage

/-- A context that takes a configuration behind a drain keeps the records that stand of it. -/
theorem applyCtx_stops : ((applyCtx s r t id k).ctx id).stops = (s.ctx id).stops := by
  obtain ⟨x, -, -, hstops, hctx⟩ := configureCtx_spec s r.graph (id / 8) false (s.ctx id).part r.id t (id % 8) k
  rw [Nat.div_add_mod' id 8] at hstops hctx
  unfold applyCtx
  dsimp only
  rw [restoreLate_plain himage, State.setCtx_ctx_self, hctx, if_pos rfl]
  exact hstops

theorem applyCtx_parts : (applyCtx s r t id k).parts = s.parts := by
  unfold applyCtx
  dsimp only
  rw [restoreLate_plain himage, State.setCtx_parts, configureCtx_parts]

end

/-- Where no unit waits for its parameters, none takes them. -/
theorem applyUnits_none {s : State} {part : Nat} (place : Nat) (h : ∀ r ∈ (s.part part).running, r.later = []) :
    applyUnits part place s = markSpliced s := by
  unfold applyUnits
  congr 1
  generalize (s.part part).running = l at h
  induction l with
  | nil => rfl
  | cons r l ih =>
    rw [List.foldl_cons, h r List.mem_cons_self]
    have hnone : (if (r.refused.isSome || r.killed || r.preempted) = true then s else
        (([] : List (Nat × Nat)).filter fun x => x.1 == place || (x.2 == 32 && x.1 == matePlace place)).foldl (applyUnit part r) s) = s :=
      ite_self s
    rw [hnone]
    exact ih fun q hq => h q (List.mem_cons_of_mem r hq)

/-- A drained context whose inputs have ended takes the configuration of its splice buffer (R220). -/
theorem exec_spliceApply {s : State} {die tile ctx id l : Nat} {k : CtxConf} {r : Running} {d : DieConf} {x : TileConf}
    (hid : ctxId die tile ctx = id) (hsplice : (s.ctx id).splice = some (l, k)) (hrun : runningOf s (s.ctx id).part l = some r)
    (hconf : tileConfAt r (id / 8) = some (d, x)) (hdrained : drained s id = true)
    (hinputs : ∀ n ∈ ctxInputs s id, (s.inc (id / 8 * 64 + n)).eos = true) (hregion : regionFree s (id / 8) ctx k = true) :
    let u := applyCtx s r x id k
    exec (.spliceApply die tile ctx) s = .next (applyUnits ((SMap.find? u.owners (id / 8)).getD (s.ctx id).part) (id / 8) u) := by
  have hall : ((ctxInputs s id).all fun n => (s.inc (id / 8 * 64 + n)).eos) = true := List.all_eq_true.2 hinputs
  subst hid
  change execSpliceApply die tile ctx s = _
  simp only [execSpliceApply, hsplice, hrun, hconf, hdrained, hall, hregion, Bool.and_self, if_true]

/-- A record of a copy that its context has issued, without an answer. -/
def copyRecord : Stop := { record := ⟨codePoison, 0, 0, 0, 0, 0, 0, 0, 0, 0⟩, site := .copy 0 0 0 0, base := none }

/-- A running launch of one context, on tile 0 of die 0. -/
def oneCtxRun (id : Nat) : Running :=
  { id := id, launch := ⟨0, false, 0, false⟩
    graph := { dies := [{ die := 0, ox := 0, oy := 0, tiles := [{ x := 0, y := 0, ctxs := [(0, {})] }] }] } }

/-- Context 0 has drained, with a record of a copy of its unanswered, and the next launch waits in its splice buffer. -/
def recordStands : State :=
  { parts := [(0, { running := [oneCtxRun 32, oneCtxRun 64] })]
    ctxs := [(0, { active := true, launch := 32, seq := { run := .accepted }, stops := [copyRecord], splice := some (64, {}) })] }

theorem recordStands_later (part : Nat) : ∀ r ∈ (recordStands.part part).running, r.later = [] := by
  unfold State.part SMap.get
  by_cases h : part = 0
  · subst h
    decide
  · have hnone : SMap.find? recordStands.parts part = none := if_neg (Ne.symm h)
    rw [hnone]
    exact fun _ h => absurd h List.not_mem_nil

/-- Refutes O55: a splice leaves the records of its context as they stand, for that of a copy still waits for its answer (R227), and a
drained context may have one, since a drain asks only for accepted grammar, committed frames, an empty output buffer and the units' EOS
(R219). The clause on the splice has no stop stand afterwards. -/
theorem not_splicesApplyAndLaunchesFinish : ¬ Obligations.SplicesApplyAndLaunchesFinish := by
  intro h
  obtain ⟨-, hsplice, -⟩ := h recordStands
  have hdrained : drained recordStands 0 = true := by decide +kernel
  have hinputs : ctxInputs recordStands 0 = [] := by decide +kernel
  have hended : ∀ n ∈ ctxInputs recordStands 0, (recordStands.inc (0 / 8 * 64 + n)).eos = true := by
    rw [hinputs]
    exact fun _ h => absurd h List.not_mem_nil
  have hexec := exec_spliceApply (s := recordStands) (die := 0) (tile := 0) (ctx := 0) rfl rfl rfl rfl hdrained hended rfl
  obtain ⟨t, ht, -, -, hctx⟩ := hsplice 0 0 0 64 {} (oneCtxRun 64) _ _ (by decide) rfl rfl rfl hdrained hended rfl
  obtain rfl : _ = t := Host.Outcome.next.inj (hexec.symm.trans ht)
  obtain ⟨-, -, -, -, -, -, -, -, -, -, hstops, -⟩ := hctx rfl
  rw [applyUnits_none] at hstops
  · exact List.cons_ne_nil _ _ ((applyCtx_stops (s := recordStands) (r := oneCtxRun 64) rfl _ 0 {}).symm.trans hstops)
  · rw [State.part, applyCtx_parts rfl]
    exact recordStands_later _

end Sys2Proof.Machine

/-! ## Snapshots and Vigil (O56) -/

namespace Sys2Proof.Machine
open Sys2Proof

/-! ### Requests (R233, R399) -/

/-- Of each partition only its snapshots differ. -/
def SnapsOnly (s t : State) : Prop :=
  t = { s with parts := t.parts } ∧ ∀ i, t.part i = { s.part i with snaps := (t.part i).snaps }

namespace SnapsOnly
variable {s t u : State}

theorem refl (s : State) : SnapsOnly s s := ⟨rfl, fun _ => rfl⟩

theorem trans (h : SnapsOnly s t) (g : SnapsOnly t u) : SnapsOnly s u :=
  ⟨by rw [g.1, h.1], fun i => by rw [g.2 i, h.2 i]⟩

theorem set (s : State) (part : Nat) (l : List Snapshot) : SnapsOnly s (s.setPart part { s.part part with snaps := l }) := by
  refine ⟨rfl, fun i => ?_⟩
  by_cases hi : i = part
  · subst hi
    rw [State.setPart_part_self]
  · rw [State.setPart_part_ne _ _ _ hi]

end SnapsOnly

theorem injectNext_only (s : State) (part launch : Nat) : SnapsOnly s (injectNext s part launch) := by
  unfold injectNext
  dsimp only
  split
  · exact .refl s
  · split
    · exact .refl s
    · split
      · exact .refl s
      · exact .set ..

theorem dropSnap_only (s : State) (part : Nat) (x : Snapshot) : SnapsOnly s (dropSnap s part x) :=
  (SnapsOnly.set s part _).trans (injectNext_only ..)

/-- A snapshot as its request queues it, and as it is once it has begun. -/
def askedSnap (launch va : Nat) (pre : Bool) (issuer : Option Nat) : Snapshot :=
  { launch := launch, va := va % 2 ^ 56, pre := pre, issuer := issuer }

def begunSnap (s : State) (part : Nat) (g : GraphImage) (x : Snapshot) : Snapshot :=
  let all := graphUnits s part x.launch g
  { x with injected := true, time := s.almanac, all := all, units := all, inject := all.filter (isInjected s all) }

theorem findIdx?_append_last {α : Type} {p : α → Bool} {l : List α} {a : α} (hl : ∀ x ∈ l, p x = false) (ha : p a = true) :
    (l ++ [a]).findIdx? p = some l.length := by
  have hnone : l.findIdx? p = none := List.findIdx?_eq_none_iff.2 hl
  simp [List.findIdx?_append, hnone, ha]

theorem modify_append_last {α : Type} (l : List α) (a : α) (f : α → α) : (l ++ [a]).modify l.length f = l ++ [f a] :=
  List.modifyTailIdx_add (List.modifyHead f) 0 l [a]

/-- The last snapshot of a partition begins when it is the first of its graph. -/
theorem injectNext_last {s : State} {part : Nat} {x : Snapshot} {r : Running} {l : List Snapshot} (hsnaps : (s.part part).snaps = l ++ [x])
    (hrun : runningOf s part x.launch = some r) (hwaits : x.injected = false) (hfirst : ∀ y ∈ l, y.launch ≠ x.launch) :
    injectNext s part x.launch = s.setPart part { s.part part with snaps := l ++ [begunSnap s part r.graph x] } := by
  have hnone : ((s.part part).snaps.any fun y => y.launch == x.launch && y.injected) = false := by
    rw [hsnaps]
    refine List.any_eq_false.2 fun y hy => ?_
    obtain hy | hy := List.mem_append.1 hy
    · simp [hfirst y hy]
    · rw [List.mem_singleton.1 hy, hwaits]
      simp
  have hidx : ((s.part part).snaps.findIdx? fun y => y.launch == x.launch) = some l.length := by
    rw [hsnaps]
    exact findIdx?_append_last (fun y hy => beq_false_of_ne (hfirst y hy)) (beq_self_eq_true _)
  unfold injectNext
  simp only [hrun, hnone, hidx, Bool.false_eq_true, if_false]
  rw [hsnaps, modify_append_last]
  rfl

/-- A request for the first snapshot of a running launch, by its slot (log 23). -/
theorem exec_snapshotRequest_first {s : State} {part slot va : Nat} {pre : Bool} {r : Running} (hckpt : s.ckptRun = none)
    (hfind : ((s.part part).running.find? fun r => r.launch.slot = slot) = some r) (hfirst : ∀ x ∈ (s.part part).snaps, x.launch ≠ r.id) :
    ∃ x, exec (.snapshotRequest part slot pre va) s = .next (s.setPart part { s.part part with snaps := (s.part part).snaps ++ [x] }) ∧
      x.launch = r.id ∧ x.injected = true ∧ x.pre = pre ∧ x.va = va % 2 ^ 56 ∧ x.issuer = none ∧ x.time = s.almanac ∧ x.nrec = 0 ∧
      x.size = 64 := by
  obtain ⟨q, hq⟩ : ∃ q, runningOf s part r.id = some q := by
    refine Option.isSome_iff_exists.1 (List.find?_isSome.2 ⟨r, List.mem_of_find?_eq_some hfind, ?_⟩)
    simp
  have hq' (x : Part) (hx : x.running = (s.part part).running) : runningOf (s.setPart part x) part r.id = some q := by
    rw [runningOf, State.setPart_part_self, hx]
    exact hq
  have hasked : requestSnapshot s part r.id pre va none = injectNext
      (s.setPart part { s.part part with snaps := (s.part part).snaps ++ [askedSnap r.id va pre none] }) part r.id := by
    simp only [requestSnapshot, hq]
    rfl
  have hbegun := injectNext_last (s := s.setPart part { s.part part with snaps := (s.part part).snaps ++ [askedSnap r.id va pre none] })
    (x := askedSnap r.id va pre none) (l := (s.part part).snaps) (by rw [State.setPart_part_self]) (hq' _ rfl) rfl hfirst
  have hexec : exec (.snapshotRequest part slot pre va) s = .next (requestSnapshot s part r.id pre va none) := by
    change execSnapshotRequest part slot pre va s = _
    simp only [execSnapshotRequest, hckpt, hfind, Option.isSome_none, Bool.false_eq_true, if_false]
  refine ⟨begunSnap (s.setPart part { s.part part with snaps := (s.part part).snaps ++ [askedSnap r.id va pre none] }) part q.graph (askedSnap r.id va pre none),
    hexec.trans (congrArg _ (hasked.trans (hbegun.trans ?_))), rfl, rfl, rfl, rfl, rfl, rfl, rfl, rfl⟩
  rw [State.setPart_part_self, State.setPart_setPart]

/-! ### Freezing (R234) -/

theorem refFrozen_congr {s t : State} (hctxs : t.ctxs = s.ctxs) (hunits : t.units = s.units) (hislands : t.islands = s.islands)
    (hstreamers : t.streamers = s.streamers) (u : UnitRef) : refFrozen t u = refFrozen s u := by
  cases u <;> simp only [refFrozen, State.ctx, State.unit, State.island, State.streamer, hctxs, hunits, hislands, hstreamers]

theorem find?_frozenQueue {m : SMap Queue} {q : Nat} {y : Queue} {b : Bool} (h : SMap.find? m q = some y) :
    SMap.find? (m.map fun e => if e.1 = q then (q, { e.2 with frozen := b }) else e) q = some { y with frozen := b } := by
  induction m with
  | nil => exact absurd h (Option.some_ne_none y).symm
  | cons e m ih =>
    obtain ⟨k, x⟩ := e
    by_cases hk : k = q
    · rw [SMap.find?, if_pos hk] at h
      simp [SMap.find?, hk, Option.some.inj h]
    · rw [SMap.find?, if_neg hk] at h
      simpa [SMap.find?, hk] using ih h

theorem setFrozen_frozen (s : State) (u : UnitRef)
    (hqueue : ∀ d str q, u = .queue d str q → SMap.find? (s.streamer (streamerId d str)).queues q ≠ none) :
    refFrozen (setFrozen s u true) u = true := by
  cases u with
  | ctx d t c => simp only [refFrozen, setFrozen, State.setCtx_ctx_self]
  | op d t n => simp only [refFrozen, setFrozen, editUnit_unit]
  | island d i =>
    change ((editIsland s (islandPlace d i) _).island (islandPlace d i)).frozen = true
    rw [editIsland, State.setIsland_island_self]
  | queue d str q =>
    obtain ⟨y, hy⟩ := Option.ne_none_iff_exists'.1 (hqueue d str q rfl)
    change (SMap.get {} ((s.setStreamer (streamerId d str) _).streamer (streamerId d str)).queues q).frozen = true
    rw [State.setStreamer_streamer_self]
    dsimp only
    rw [SMap.get, find?_frozenQueue hy]
    rfl

/-- The markers of a unit go to channels and engines; nothing freezes or thaws by their leaving. -/
theorem sendMarkers_refFrozen (s : State) (all : List UnitRef) (u v : UnitRef) : refFrozen (sendMarkers s all u) v = refFrozen s v := by
  have hsends (s : State) (d e k : Nat) (x : RingItem) : refFrozen (sendItem s d e k x) v = refFrozen s v := by
    unfold sendItem
    split <;> exact refFrozen_congr rfl rfl rfl rfl v
  unfold sendMarkers
  extract_lets t
  have ht : ChannelsOnly s t := by
    refine ChannelsOnly.fold (fun s i => ?_) _ s
    dsimp only
    split <;> rfl
  have hfrozen : refFrozen t v = refFrozen s v := refFrozen_congr (by rw [ht]) (by rw [ht]) (by rw [ht]) (by rw [ht]) v
  clear_value t
  cases u with
  | island d i =>
    dsimp only
    split
    · split
      · split
        · exact (hsends ..).trans hfrozen
        · exact hfrozen
      · exact hfrozen
    · exact hfrozen
  | ctx d t c => exact hfrozen
  | op d t n => exact hfrozen
  | queue d str q => exact hfrozen

/-! ### What the freezing of a context leaves: the arrivals of a full episode complete, and every context lives on (R287, R321) -/

/-- Every context is active and killed as it was. -/
def LivesKept (s t : State) : Prop := ∀ j, (t.ctx j).active = (s.ctx j).active ∧ (t.ctx j).killed = (s.ctx j).killed

namespace LivesKept
variable {s t u : State}

theorem of_ctxs (h : t.ctxs = s.ctxs) : LivesKept s t := fun j => by rw [State.ctx, State.ctx, h]; exact ⟨rfl, rfl⟩

theorem trans (h : LivesKept s t) (g : LivesKept t u) : LivesKept s u := fun j => ⟨(g j).1.trans (h j).1, (g j).2.trans (h j).2⟩

theorem fold {α : Type} {f : State → α → State} (hf : ∀ s a, LivesKept s (f s a)) (l : List α) (s : State) : LivesKept s (l.foldl f s) := by
  induction l generalizing s with
  | nil => exact of_ctxs rfl
  | cons a l ih => exact (hf s a).trans (ih (f s a))

/-- What changes one context alone, and leaves that one active and killed as it was. -/
theorem of_contextOnly {id : Nat} (h : ContextOnly s t id) (ha : (t.ctx id).active = (s.ctx id).active)
    (hk : (t.ctx id).killed = (s.ctx id).killed) : LivesKept s t := by
  intro j
  by_cases hj : j = id
  · subst hj
    exact ⟨ha, hk⟩
  · rw [h.2 j hj]
    exact ⟨rfl, rfl⟩

theorem of_sendFrame (h : ContextOnly s t s.focus.ctxId) (c : Ctx) (hc : c.active = s.here.active ∧ c.killed = s.here.killed)
    (hframe : SendFrame c t.here) : LivesKept s t := by
  rw [h.here] at hframe
  have ha := congrArg Ctx.active hframe
  have hk := congrArg Ctx.killed hframe
  exact of_contextOnly h (ha.trans hc.1) (hk.trans hc.2)

end LivesKept

theorem withFocus_lives (s : State) (id ins frame k : Nat) {f : State → State} (hf : ∀ s, LivesKept s (f s)) :
    LivesKept s (withFocus s id ins frame k f) :=
  hf (focusOn s id ins frame k)

theorem sendLane_lives (s : State) (d : Dst) (j : Nat) (v : Lane) : LivesKept s (sendLane s d j v) :=
  .of_sendFrame (sendLane_keeps ..).1 s.here ⟨rfl, rfl⟩ (sendLane_keeps ..).2

theorem finishLanes_lives (s : State) (d : Dst) (l : List Lane) : LivesKept s (finishLanes s d l) :=
  .of_sendFrame (finish_only ..) (markFired s.here s.focus.ins s.focus.frame s.focus.k) ⟨rfl, rfl⟩ (finish_here ..)

theorem completeArrival_lives (s : State) (scope : Scope) (a : Nat × Nat × Nat × Nat) : LivesKept s (completeArrival s scope a) := by
  obtain ⟨id, ins, frame, lane⟩ := a
  have hacquired : LivesKept s (acquireAt s { place := id / 8, part := (s.ctx id).part, l1 := true, scope := scope }) :=
    .of_ctxs (acquireAt_only ..).ctxs
  unfold completeArrival
  dsimp only
  split
  · split
    · have hsent (u : State) (k : Nat) (d : Dst) (v : Lane) : LivesKept u (withFocus u id ins frame k fun s => sendLane s d lane v) :=
        withFocus_lives u id ins frame k fun s => sendLane_lives s d lane v
      split
      · exact hacquired.trans (LivesKept.trans (hsent _ _ _ _) (withFocus_lives _ _ _ _ _ fun s => finishLanes_lives s _ _))
      · refine hacquired.trans (LivesKept.trans (hsent _ _ _ _) (.of_contextOnly (.setCtx ..) ?_ ?_)) <;> rw [State.setCtx_ctx_self]
    · exact hacquired
  · exact hacquired

theorem fillEpisode_lives (s : State) (ep : Nat) : LivesKept s (fillEpisode s ep) := by
  unfold fillEpisode
  split
  · exact .of_ctxs rfl
  · split
    · exact .of_ctxs rfl
    · exact (LivesKept.of_ctxs (s := s) rfl).trans (.fold (fun s a => completeArrival_lives s _ a) _ _)

/-- A context that freezes lives on. -/
theorem freezeCtx_ctx (s : State) (id : Nat) : ((freezeCtx s id).ctx id).frozen = true ∧
    ((freezeCtx s id).ctx id).active = (s.ctx id).active ∧ ((freezeCtx s id).ctx id).killed = (s.ctx id).killed := by
  have hset : ∃ (full : List Episode) (c : Ctx), let u := withdrawArrivals (full.foldl (fun s e => fillEpisode s e.id) s) id
      freezeCtx s id = dropWrites (u.setCtx id c) id ∧ c.frozen = true ∧ c.active = (u.ctx id).active ∧ c.killed = (u.ctx id).killed :=
    ⟨_, _, rfl, rfl, rfl, rfl⟩
  obtain ⟨full, c, hfreeze, hf, ha, hk⟩ := hset
  have hfull : LivesKept s (withdrawArrivals (full.foldl (fun s e => fillEpisode s e.id) s) id) :=
    (LivesKept.fold (fun s e => fillEpisode_lives s e.id) full s).trans (.of_ctxs rfl)
  have hctx : (freezeCtx s id).ctx id = c := by
    rw [hfreeze, dropWrites, State.mapIslands_ctx, State.mapUnits_ctx, State.setCtx_ctx_self]
  rw [hctx]
  exact ⟨hf, ha.trans (hfull id).1, hk.trans (hfull id).2⟩

/-! ### Markers (R234) -/

/-- A unit that freezes is frozen. -/
theorem freezeRef_frozen (s : State) (all : List UnitRef) (u : UnitRef)
    (hqueue : ∀ d str q, u = .queue d str q → SMap.find? (s.streamer (streamerId d str)).queues q ≠ none) :
    refFrozen (freezeRef s all u) u = true := by
  unfold freezeRef
  split
  · assumption
  · rw [sendMarkers_refFrozen]
    cases u with
    | ctx d t c => exact (freezeCtx_ctx ..).1
    | op d t n => exact setFrozen_frozen _ _ hqueue
    | island d i => exact setFrozen_frozen _ _ hqueue
    | queue d str q => exact setFrozen_frozen _ _ hqueue

section
variable {s : State} {u : UnitRef} {part ch : Nat} {x : Snapshot} (hsnap : snapshotOf s u = some (part, x))
  (hleft : x.recorded u = false)
include hsnap hleft

/-- The marker of a source is injected: it freezes (R233). -/
theorem exec_marker_injected (hinject : u ∈ x.inject) : exec (.lanternMarkerArrival u ch) s =
    .next (freezeRef (editSnap s part x fun y => { y with inject := y.inject.filter (· ≠ u) }) x.all u) := by
  have hcontains : x.inject.contains u = true := List.contains_iff_mem.2 hinject
  change execLanternMarkerArrival u ch s = _
  simp only [execLanternMarkerArrival, hsnap, hleft, hcontains, Bool.false_eq_true, if_false, if_true]

/-- A marker on a channel freezes its consumer. -/
theorem exec_marker_channel {i : Nat} {m : W32} (hi : refPlace u * 64 + ch = i) (hinject : u ∉ x.inject) (hch : ch < 64)
    (hcoming : (s.inc i).coming = some m) (hconsumer : consumerRef s i = some u) : exec (.lanternMarkerArrival u ch) s =
    .next (freezeRef (s.setInc i { s.inc i with coming := none, marker := some m }) x.all u) := by
  have hcontains : x.inject.contains u = false := by simpa using hinject
  subst hi
  change execLanternMarkerArrival u ch s = _
  simp only [execLanternMarkerArrival, hsnap, hleft, hcontains, Bool.false_eq_true, if_false, hch.ne, hcoming, hconsumer, if_true]

end

theorem refOutputs_congr {s t : State} (h : t.outs = s.outs) (u : UnitRef) : refOutputs t u = refOutputs s u := by
  simp only [refOutputs, State.outc, h]

/-- A unit of a tile without outputs, which has not frozen, freezes and sends no marker. -/
theorem freezeRef_op {s : State} {die tile n : Nat} (hthawed : (s.unit (unitId die tile n)).frozen = false)
    (houts : refOutputs s (.op die tile n) = []) (all : List UnitRef) : freezeRef s all (.op die tile n) =
      s.setUnit (unitId die tile n) { s.unit (unitId die tile n) with frozen := true } := by
  have hnone : refOutputs (setFrozen s (.op die tile n) true) (.op die tile n) = [] :=
    (refOutputs_congr (editUnit_outs ..) _).trans houts
  have hfrozen : ¬ refFrozen s (.op die tile n) = true := by
    rw [refFrozen, hthawed]
    exact Bool.false_ne_true
  unfold freezeRef
  rw [if_neg hfrozen]
  dsimp only [sendMarkers]
  rw [hnone, List.foldl_nil]
  rfl

/-! ### Records (R234, R305) -/

theorem setFrozen_refDead (s : State) (u : UnitRef) (b : Bool) (v : UnitRef) : refDead (setFrozen s u b) v = refDead s v := by
  cases v with
  | ctx d t c =>
    cases u with
    | ctx d' t' c' =>
      simp only [refDead, setFrozen, State.setCtx_ctx_get]
      split
      · next h => rw [h]
      · rfl
    | op _ _ _ => rfl
    | island _ _ => rfl
    | queue _ _ _ => rfl
  | op _ _ _ => rfl
  | island _ _ => rfl
  | queue _ _ _ => rfl

theorem refDead_congr {s t : State} (h : t.ctxs = s.ctxs) (u : UnitRef) : refDead t u = refDead s u := by
  cases u <;> simp only [refDead, State.ctx, h]

/-- A thaw kills nothing and brings nothing back. -/
theorem thawRef_refDead (s : State) (u v : UnitRef) : refDead (thawRef s u) v = refDead s v := by
  have hmarkers (s : State) (l : List Nat) : (l.foldl (fun s i => s.setInc i { s.inc i with marker := none }) s).ctxs = s.ctxs := by
    rw [ChannelsOnly.fold (fun s i => (rfl : ChannelsOnly s (s.setInc i { s.inc i with marker := none }))) l s]
  have hctxs : (thawRef s u).ctxs = (setFrozen s u false).ctxs := by
    unfold thawRef
    extract_lets t
    have ht : t.ctxs = (setFrozen s u false).ctxs := hmarkers ..
    cases u with
    | island d i =>
      dsimp only
      split <;> exact ht
    | ctx _ _ _ => exact ht
    | op _ _ _ => exact ht
    | queue _ _ _ => exact ht
  rw [refDead_congr hctxs, setFrozen_refDead]

/-- Records wait while the first unit that has none lives (R305, log 40). -/
theorem flush_waits {s : State} {part : Nat} {x : Snapshot} {v : UnitRef} {rest : List UnitRef} (hunits : x.units = v :: rest)
    (hsaved : (x.saved.find? fun e => e.1 = v) = none) (hlive : refDead s v = false) :
    flush s part x = editSnap s part x fun _ => x := by
  unfold flush flushRecords
  simp only [hunits, hsaved, hlive, Bool.false_eq_true, if_false]

/-- A unit whose channels are caught up has its record taken, and thaws in checkpoint mode. -/
theorem exec_unitSaveComplete {s : State} {u : UnitRef} {part : Nat} {x : Snapshot} {r : Running}
    (hsnap : snapshotOf s u = some (part, x)) (hrun : runningOf s part x.launch = some r) (hlive : refDead s u = false)
    (hleft : x.recorded u = false) (hinject : u ∉ x.inject) (hready : saveReady s x.all u = true) :
    exec (.unitSaveComplete u) s = .next (flush (if x.pre then s else thawRef s u) part { x with
      saved := x.saved ++ [(u, recordBytes s r.graph u ((refInputs s u).map (caughtOf s x.all)))]
      rest := x.rest ++ restBytes s r.graph u }) := by
  have hcontains : x.inject.contains u = false := by simpa using hinject
  change execUnitSaveComplete u s = _
  simp only [execUnitSaveComplete, hsnap, hrun, hlive, hleft, hcontains, hready, Bool.not_true, Bool.or_false, Bool.false_eq_true, if_false]

/-! ### The end of a snapshot (R231, R234, R235) -/

/-- The end of an image is written: what the records leave out, and then the header. -/
theorem writeEnd_ok {s t0 t1 : State} {part : Nat} {r : Running} {x : Snapshot}
    (hrest : x.rest = [] ∧ t0 = s ∨ x.rest ≠ [] ∧ partWrite s part (x.va + x.size) x.rest = (t0, .ok ()))
    (hheader : partWrite t0 part x.va (imageHeader r.graph x.pre.toNat r.launch.slot x.nrec (x.size + x.rest.length) x.time) =
      (t1, .ok ())) : writeEnd s part r x = (t1, .ok ()) := by
  unfold writeEnd
  dsimp only
  obtain ⟨hnone, rfl⟩ | ⟨hsome, hwrite⟩ := hrest
  · rw [if_pos (List.isEmpty_iff.2 hnone)]
    exact hheader
  · rw [if_neg (mt List.isEmpty_iff.1 hsome), hwrite]
    exact hheader

/-- A snapshot that no context has asked for is reported to the owner of its partition. -/
theorem reportLantern_owner (s : State) (part : Nat) {x : Snapshot} (hissuer : x.issuer = none) (snap : W64) :
    ∃ (n : Nat) (y : Record), reportLantern s part x snap none none = reportRecord { s with draws := n } part y none ∧
      y.code = codeLantern ∧ y.snap = snap := by
  unfold reportLantern
  rw [hissuer]
  exact ⟨_, _, rfl, rfl, rfl⟩

theorem exec_snapshotComplete_checkpoint {s t1 : State} {part : Nat} {x : Snapshot} {r : Running}
    (hfind : ((s.part part).snaps.find? fun x => x.injected && x.units.isEmpty && !x.whole) = some x)
    (hrun : runningOf s part x.launch = some r) (hpre : x.pre = false) (hckpt : x.ckpt = false)
    (hwrite : writeEnd s part r x = (t1, .ok ())) : exec (.snapshotComplete part) s =
      .next (dropSnap (reportLantern t1 part x (natW64 x.va) none none) part x) := by
  change execSnapshotComplete part s = _
  simp only [execSnapshotComplete, hfind, hrun, hwrite, hpre, hckpt, Bool.false_eq_true, if_false]

/-! ### Vigil (R238 to R240) -/

theorem busyStalled_lives {s : State} {id : Nat} (h : busyStalled s id = true) :
    (s.ctx id).active = true ∧ (s.ctx id).killed = false := by
  unfold busyStalled at h
  simp only [Bool.and_eq_true, Bool.not_eq_true'] at h
  obtain ⟨⟨⟨⟨⟨⟨⟨hactive, hkilled⟩, -⟩, -⟩, -⟩, -⟩, -⟩, -⟩ := h
  exact ⟨hactive, hkilled⟩

section
variable {s : State} {id : Nat} {c : Ctx}

/-- The counters of a window stand as they did when it began. -/
def SameCounts (y : Watch) (c : Ctx) : Prop := y.firings = c.firings ∧ y.commits = c.commits ∧ y.marks = c.marks

theorem watchTick_idle (h : busyStalled s id = false) : watchTick s id c = none := by
  simp only [watchTick, h, Bool.not_false, if_true]

theorem watchTick_goesOn {y : Watch} (h : busyStalled s id = true) (hy : c.watch = some y) (hsame : SameCounts y c) :
    watchTick s id c = some y := by
  simp only [watchTick, h, Bool.not_true, Bool.false_eq_true, if_false, hy]
  exact if_pos hsame

theorem watchTick_begins (h : busyStalled s id = true) (hnew : ∀ y, c.watch = some y → ¬ SameCounts y c) :
    watchTick s id c = some ⟨(s.time (id / 2048)).toNat, c.firings, c.commits, c.marks, ((s.part c.part).vigil.extractLsb' 58 6).toNat⟩ := by
  simp only [watchTick, h, Bool.not_true, Bool.false_eq_true, if_false]
  cases hy : c.watch with
  | none => rfl
  | some y => exact if_neg (hnew y hy)

/-- At a tick every context has the window that watchTick gives it. -/
theorem watchAll_watch (s : State) (id : Nat) : ((watchAll s).ctx id).watch = watchTick s id (s.ctx id) := by
  have hfind : SMap.find? (watchAll s).ctxs id = (SMap.find? s.ctxs id).map fun c => { c with watch := watchTick s id c } :=
    SMap.find?_map s.ctxs (fun n c => { c with watch := watchTick s n c }) id
  unfold State.ctx SMap.get
  rw [hfind]
  cases hc : SMap.find? s.ctxs id with
  | none =>
    have hidle : busyStalled s id = false := by
      refine Bool.eq_false_iff.2 fun h => ?_
      have hactive := (busyStalled_lives h).1
      rw [State.ctx, SMap.get, hc] at hactive
      exact Bool.false_ne_true hactive
    rw [watchTick_idle hidle]
    rfl
  | some c => rfl

end

theorem exec_vigilExpiry {s : State} {die tile ctx id : Nat} (hid : ctxId die tile ctx = id) :
    exec (.vigilExpiry die tile ctx) s = match watchTick s id (s.ctx id) with
      | some w => if w.since + 2 ^ w.lw ≤ (s.time die).toNat then .next (vigilKill s id) else .next s
      | none => .next s := by
  subst hid
  rfl

theorem foldl_accessOnly {α : Type} {s : State} {f : Acc Unit → α → Acc Unit} (hf : ∀ r a, AccessOnly s r → AccessOnly s (f r a))
    (l : List α) (r : Acc Unit) (hr : AccessOnly s r) : AccessOnly s (l.foldl f r) := by
  induction l generalizing r with
  | nil => exact hr
  | cons a l ih => exact ih (f r a) (hf r a hr)

theorem checkRuns_only (s : State) (v : Via) (l : List (Nat × Nat)) : AccessOnly s (checkRuns s v l) := by
  induction l generalizing s with
  | nil => rfl
  | cons e l ih =>
    obtain ⟨va, n⟩ := e
    unfold checkRuns
    generalize hfold : List.foldl _ _ _ = w
    have hrun : AccessOnly s w := by
      rw [← hfold]
      refine foldl_accessOnly ?_ _ _ (CachesOnly.refl s)
      rintro ⟨t, e | _⟩ i hr
      · exact hr
      · exact hr.trans (checkWrite_only ..)
    obtain ⟨t, e | _⟩ := w
    · exact hrun
    · exact hrun.trans (ih t)

/-- A write for a partition changes what belongs to memory alone. -/
theorem partWrite_only (s : State) (part va : Nat) (bs : List Byte) : AccessOnly s (partWrite s part va bs) := by
  unfold AccessOnly partWrite
  split
  · rfl
  · have hcheck := checkRuns_only s (viaPart s part .system) [(va, bs.length)]
    unfold AccessOnly at hcheck
    split <;> rename_i heq <;> rw [heq] at hcheck
    · exact hcheck
    · exact hcheck.trans (storeBytes_only ..)

/-- A kill leaves no frame of its context, and marks it. -/
theorem killContext_ctx {s : State} {id : Nat} (ha : (s.ctx id).active = true) (hk : (s.ctx id).killed = false) :
    ((killContext s id).ctx id).killed = true ∧ ((killContext s id).ctx id).frames = [] := by
  have hlive : ((s.ctx id).killed || !(s.ctx id).active) = false := by rw [ha, hk]; rfl
  have hkill : ∃ c : Ctx, killContext s id = sinkInputs (queueEos ((killBegun s id).setCtx id c) id false 64) id 64 ∧
      c.killed = true ∧ c.frames = [] := by
    unfold killContext
    dsimp only
    rw [hlive, if_neg Bool.false_ne_true]
    exact ⟨_, rfl, rfl, rfl⟩
  obtain ⟨c, hkill, hkilled, hframes⟩ := hkill
  rw [hkill, (sinkInputs_only ..).ctx, queueEos_ctx, State.setCtx_ctx_self]
  exact ⟨hkilled, hframes⟩

theorem reportRecord_none_ctx (s : State) (part : Nat) (r : Record) (j : Nat) : (reportRecord s part r none).ctx j = s.ctx j := by
  rw [reportRecord_none_eq]
  rfl

/-- Vigil's kill: the context freezes for its image, is killed, and is reported to the owner of its partition (R240). -/
theorem vigilKill_eq (s : State) (id : Nat) : ∃ u, CachesOnly (freezeCtx s id) u ∧ ∃ (n : Nat) (r : Record),
    vigilKill s id = reportRecord { killContext u id with draws := n } (s.ctx id).part r none := by
  have hwrite := partWrite_only (freezeCtx s id) (s.ctx id).part (((s.part (s.ctx id).part).vigil.extractLsb' 12 44).toNat * 4096)
    (vigilImage (freezeCtx s id) (s.ctx id).part id)
  unfold AccessOnly at hwrite
  unfold vigilKill
  dsimp only
  split <;> rename_i heq <;> rw [heq] at hwrite
  all_goals
    refine ⟨_, hwrite, ?_⟩
    generalize killContext _ id = k
    exact ⟨_, _, rfl⟩

theorem vigilKill_ctx {s : State} {id : Nat} (ha : (s.ctx id).active = true) (hk : (s.ctx id).killed = false) :
    ((vigilKill s id).ctx id).killed = true ∧ ((vigilKill s id).ctx id).frames = [] := by
  obtain ⟨u, honly, n, r, hvigil⟩ := vigilKill_eq s id
  obtain ⟨-, hactive, hkilled⟩ := freezeCtx_ctx s id
  have hctx : u.ctx id = (freezeCtx s id).ctx id := by rw [State.ctx, State.ctx, honly.ctxs]
  rw [hvigil, reportRecord_none_ctx]
  exact killContext_ctx (by rw [hctx, hactive, ha]) (by rw [hctx, hkilled, hk])

/-- Settles O56: each event as its equation gives it, with what freezing, a thaw and a kill leave. -/
theorem snapshotsFreezeSaveAndComplete : Obligations.SnapshotsFreezeSaveAndComplete := by
  unfold Obligations.SnapshotsFreezeSaveAndComplete
  intro s
  refine ⟨?request, ?injected, ?marker, ?save, ?complete, ?tick, ?expiry⟩
  case request =>
    intro part slot pre va r p hckpt hfind hfirst
    obtain ⟨x, hexec, hx⟩ := exec_snapshotRequest_first (pre := pre) (va := va) hckpt hfind hfirst
    exact ⟨_, x, hexec, by rw [State.setPart_part_self], by rw [State.setPart_part_self], hx⟩
  case injected =>
    intro u part x ch hsnap hleft hinject hqueue
    exact ⟨_, exec_marker_injected hsnap hleft hinject, freezeRef_frozen _ _ _ hqueue⟩
  case marker =>
    intro die tile n part x ch m u i hsnap hleft hinject hch hcoming hconsumer hthawed houts
    rw [exec_marker_channel hsnap hleft rfl hinject hch hcoming hconsumer]
    exact congrArg _ (freezeRef_op (s := s.setInc i { s.inc i with coming := none, marker := some m }) hthawed
      ((refOutputs_congr (s := s) rfl _).trans houts) _)
  case save =>
    intro u v part x r rest hsnap hrun hlive hleft hinject hready hunits hne hsaved hfirst
    rw [exec_unitSaveComplete hsnap hrun hlive hleft hinject hready]
    have hnone : ((x.saved ++ [(u, recordBytes s r.graph u ((refInputs s u).map (caughtOf s x.all)))]).find? fun e => e.1 = v) = none := by
      rw [List.find?_append, hsaved]
      simp [hne.symm]
    have hfirst' : refDead (if x.pre then s else thawRef s u) v = false := by
      split
      · exact hfirst
      · rw [thawRef_refDead, hfirst]
    exact congrArg _ (flush_waits hunits hnone hfirst')
  case complete =>
    intro part x r t0 t1 p hfind hrun hpre hckpt hissuer hrest hheader p1 hfew hwaiting
    obtain ⟨n, y, hreport, hcode, hsnap⟩ := reportLantern_owner t1 part hissuer (natW64 x.va)
    have hexec := exec_snapshotComplete_checkpoint hfind hrun hpre hckpt (writeEnd_ok hrest hheader)
    rw [hreport, reportRecord_none_room (s := { t1 with draws := n }) ⟨hfew, hwaiting⟩] at hexec
    obtain ⟨hrest', hparts⟩ := dropSnap_only (reported { t1 with draws := n } part y) part x
    refine ⟨_, y, hexec, ?_⟩
    rw [hparts part, reported_part, hrest']
    exact ⟨rfl, rfl, rfl, SMap.find?_set_self .., hcode, hsnap, rfl⟩
  case tick =>
    intro id c w
    have hw : w = watchTick s id c := watchAll_watch s id
    rw [hw]
    refine ⟨watchTick_idle, fun hstalled => ⟨fun y hy hf hc hm => ?_, watchTick_begins hstalled⟩⟩
    exact watchTick_goesOn hstalled hy ⟨hf, hc, hm⟩
  case expiry =>
    intro die tile ctx id c
    have hexec := exec_vigilExpiry (s := s) (die := die) (tile := tile) (ctx := ctx) (id := id) rfl
    refine ⟨fun hidle => ?_, fun y hstalled hy hf hc hm => ⟨fun hdue => ?_, fun hearly => ?_⟩⟩
    · rw [hexec, watchTick_idle hidle]
    · obtain ⟨hactive, hkilled⟩ := busyStalled_lives hstalled
      rw [watchTick_goesOn hstalled hy ⟨hf, hc, hm⟩] at hexec
      exact ⟨_, hexec.trans (if_pos hdue), vigilKill_ctx hactive hkilled⟩
    · rw [watchTick_goesOn hstalled hy ⟨hf, hc, hm⟩] at hexec
      exact hexec.trans (if_neg (Nat.not_le.2 hearly))

end Sys2Proof.Machine

/-! ## The events of an attention engine (O40) -/

namespace Sys2Proof.Machine
open Sys2Proof

/-! ### One engine of the state -/

@[simp] theorem getEngine_setEngine (s : State) (die e : Nat) (x : Engine) : getEngine (s.setEngine (engineId die e) x) die e = x :=
  State.setEngine_engine_self ..

@[simp] theorem getEngine_editEngine (s : State) (die e : Nat) (f : Engine → Engine) :
    getEngine (editEngine s die e f) die e = f (getEngine s die e) :=
  getEngine_setEngine ..

@[simp] theorem getEngine_editIsland (s : State) (p : Nat) (f : Island → Island) (die e : Nat) :
    getEngine (editIsland s p f) die e = getEngine s die e := rfl

theorem ChannelsOnly.getEngine {s t : State} (h : ChannelsOnly s t) (die e : Nat) : getEngine t die e = getEngine s die e := by
  rw [h]
  rfl

theorem ChannelsOnly.queryRows {s t : State} (h : ChannelsOnly s t) (die e : Nat) : queryRows t die e = queryRows s die e := by
  rw [h]
  rfl

section
variable {s : State} {die e : Nat}

/-- With no rotation armed there is no move to make (R250). -/
theorem rotationMove_unarmed (h : (getEngine s die e).rot = none) : rotationMove s die e = s := by
  unfold rotationMove
  rw [h]

/-! ### What arrives from the ring (R249) -/

/-- Slot `k` once the header `h` has come: its grant is used, and its block has no rows yet. -/
def headedSlot (g : Engine) (k : Nat) (h : W64) : RingSlot :=
  { g.slots.getD k {} with
    granted := false, header := some h, rows := 0, closed := false
    doubled := g.slots.any fun y => y.header.any fun z => headerStep z == headerStep h }

theorem landItem_header {k : Nat} {h : W64} {rest : List (Nat × RingItem)} (harr : (getEngine s die e).arriving = (k, .header h) :: rest) :
    landItem s die e = s.setEngine (engineId die e) { getEngine s die e with
      arriving := rest, slots := (getEngine s die e).slots.set k (headedSlot (getEngine s die e) k h) } := by
  unfold landItem
  simp only [harr]
  rfl

/-- A header lands, and nothing else happens while no rotation is armed. -/
theorem exec_ringRowArrival_header {k : Nat} {h : W64} {rest : List (Nat × RingItem)}
    (hthawed : (s.island (enginePlace die e)).frozen = false) (hrot : (getEngine s die e).rot = none)
    (harr : (getEngine s die e).arriving = (k, .header h) :: rest) :
    exec (.ringRowArrival die e) s = .next (s.setEngine (engineId die e) { getEngine s die e with
      arriving := rest, slots := (getEngine s die e).slots.set k (headedSlot (getEngine s die e) k h) }) := by
  change execRingRowArrival die e s = _
  unfold execRingRowArrival
  rw [hthawed, if_neg Bool.false_ne_true, landItem_header harr, rotationMove_unarmed (by rw [getEngine_setEngine, hrot])]

theorem exec_grantArrival_unarmed {k : Nat} {rest : List Nat} (hgrants : (getEngine s die e).grants = k :: rest)
    (hrot : (getEngine s die e).rot = none) :
    exec (.grantArrival die e) s = .next (s.setEngine (engineId die e)
      { getEngine s die e with grants := rest, held := (getEngine s die e).held ++ [k] }) := by
  change execGrantArrival die e s = _
  unfold execGrantArrival
  simp only [hgrants]
  rw [rotationMove_unarmed (by rw [getEngine_setEngine, hrot])]

/-! ### The query latch (R245, R297) -/

theorem islandDrain_nothing {p : Nat} (h : (s.island p).out = []) (n : Nat) : islandDrain s p n = s := by
  cases n with
  | zero => rfl
  | succ n =>
    unfold islandDrain
    rw [h]

/-- What an output stage sends leaves every engine as it is. -/
theorem islandDrain_getEngine (s : State) (p n : Nat) (die e : Nat) : getEngine (islandDrain s p n) die e = getEngine s die e := by
  induction n generalizing s with
  | zero => rfl
  | succ n ih =>
    unfold islandDrain
    split
    · split
      · rw [ih, getEngine_editIsland, (sendOn_only ..).getEngine]
      · rfl
    · rfl

/-- With no ATTN accepted, none goes on: the engine is written back as it stands. -/
theorem runJobs_nothing (h : (getEngine s die e).jobs = []) (n : Nat) :
    runJobs s die e (n + 1) = s.setEngine (engineId die e) (getEngine s die e) := by
  have hlive : liveJobs s (getEngine s die e) = [] := by rw [liveJobs, h, List.filter_nil]
  unfold runJobs
  simp only [hlive, List.find?_nil]
  rw [← h]

/-- An engine whose latch has `nq` query rows, once it has taken a token of q. -/
def tookQuery (nq : Nat) (g : Engine) : Token → Engine
  | .data _ _ _ _ n l => { g with row := g.row ++ queryLanes n l }
  | .mark _ .er _ => { g with query := g.query ++ [queryElts g.row], row := [] }
  | .mark _ .eg _ => { g with query := (g.query ++ List.replicate nq (List.replicate 128 0)).take nq, row := [], latched := true }
  | _ => g

theorem tookQuery_jobs (nq : Nat) (g : Engine) (tok : Token) : (tookQuery nq g tok).jobs = g.jobs := by
  unfold tookQuery
  split <;> rfl

theorem latchToken_getEngine (s : State) (die e ch : Nat) (tok : Token) :
    getEngine (latchToken s die e ch tok) die e = tookQuery (queryRows s die e) (getEngine s die e) tok := by
  have hengine := (consume_only s ch).getEngine die e
  have hrows := (consume_only s ch).queryRows die e
  unfold latchToken tookQuery
  split <;> simp [hengine, hrows]

/-- The latch of engine `e` is open, no ATTN waits at it, and its output stage is empty. -/
structure LatchOpen (s : State) (die e : Nat) : Prop where
  engaged : engaged s die e = true
  thawed : (s.island (enginePlace die e)).frozen = false
  drained : (s.island (enginePlace die e)).out = []
  jobs : (getEngine s die e).jobs = []
  opened : (getEngine s die e).latched = false

/-- An open latch takes the token at the head of q. -/
theorem LatchOpen.exec_queryRowLatch {ch : Nat} {tok : Token} (h : LatchOpen s die e)
    (hhead : headOf s (enginePlace die e) 32 0 = some (ch, tok)) :
    ∃ t, exec (.queryRowLatch die e) s = .next t ∧ getEngine t die e = tookQuery (queryRows s die e) (getEngine s die e) tok := by
  have hrun : runJobs (islandDrain s (enginePlace die e) 16) die e 64 = s.setEngine (engineId die e) (getEngine s die e) := by
    rw [islandDrain_nothing h.drained, runJobs_nothing h.jobs]
  have hhead' : headOf (s.setEngine (engineId die e) (getEngine s die e)) (enginePlace die e) 32 0 = some (ch, tok) := hhead
  have hexec : exec (.queryRowLatch die e) s = .next (runJobs (islandDrain
      (latchToken (s.setEngine (engineId die e) (getEngine s die e)) die e ch tok) (enginePlace die e) 16) die e 64) := by
    change execQueryRowLatch die e s = _
    unfold execQueryRowLatch
    simp [h.engaged, h.thawed, hrun, h.opened, hhead']
  have htook : getEngine (islandDrain (latchToken (s.setEngine (engineId die e) (getEngine s die e)) die e ch tok)
      (enginePlace die e) 16) die e = tookQuery (queryRows s die e) (getEngine s die e) tok := by
    rw [islandDrain_getEngine, latchToken_getEngine, getEngine_setEngine]
    rfl
  refine ⟨_, hexec, ?_⟩
  rw [runJobs_nothing (by rw [htook, tookQuery_jobs, h.jobs]), getEngine_setEngine, htook]

/-! ### The end of a rotation (R248, R295) -/

/-- The rotation `r` of engine `e` has applied its last step, and nothing holds it. -/
structure RotationEnds (s : State) (die e : Nat) (r : Rotation) : Prop where
  armed : (getEngine s die e).rot = some r
  emitting : r.emitting = true
  latched : (getEngine s die e).latched = true
  goes : rotationStopped s die e r = false
  thawed : (s.island (enginePlace die e)).frozen = false
  ctxThawed : (s.ctx r.ctx).frozen = false

/-- It emits and ends, and the ROTA that waited for it answers its done lanes. -/
theorem RotationEnds.exec_rotationEmit {r : Rotation} {w : Inflight} {i : Instr} (h : RotationEnds s die e r) {s1 : State}
    (hs1 : endRotation (emitOutput s die e r.ctx) die e = s1) (hw : inflightOf (s1.ctx r.ctx) r.ins r.frame = some w)
    (hi : Image.instr (s1.ctx r.ctx).image r.ins = some i) :
    exec (.rotationEmit die e) s = .next (withFocus (s1.setCtx r.ctx
        { s1.ctx r.ctx with inflight := (s1.ctx r.ctx).inflight.filter (· ≠ w) }) r.ctx r.ins r.frame w.k fun s =>
      finishN32 s (dstOf i) (statusLanes (operands s).a)) := by
  change execRotationEmit die e s = _
  unfold execRotationEmit
  simp [h.armed, h.emitting, h.latched, h.goes, h.thawed, h.ctxThawed, hs1, hw, hi]

end

/-! ### Requests to a chain (R257, R258) -/

section
variable {s : State} {die tile q pos lo : Nat} {rest : List (Nat × Nat × Nat)}
  (hchain : (s.tile (placeOf die tile)).chain = (q, pos, lo) :: rest)
include hchain

theorem exec_chainPositionRequest_unchained (hen : (s.tile (placeOf die tile)).limit.getLsbD 63 = false) :
    exec (.chainPositionRequest die tile) s =
      .next (answerChain (s.setTile (placeOf die tile) { s.tile (placeOf die tile) with chain := rest }) die q (.ok none)) := by
  change execChainPositionRequest die tile s = _
  unfold execChainPositionRequest
  simp only [hchain, hen, Bool.not_false, if_true]

theorem exec_chainPositionRequest_forwarded (hen : (s.tile (placeOf die tile)).limit.getLsbD 63 = true)
    (hlast : (s.tile (placeOf die tile)).limit.getLsbD 62 = false)
    (hpos : ((s.tile (placeOf die tile)).limit.extractLsb' 0 32).toNat < pos) {s1 : State}
    (hs1 : s.setTile (placeOf die tile) { s.tile (placeOf die tile) with chain := rest } = s1) {next : Nat}
    (hnext : placeOf die ((s.tile (placeOf die tile)).limit.extractLsb' 54 8).toNat = next) :
    exec (.chainPositionRequest die tile) s = .next (s1.setTile next { s1.tile next with
      chain := (s1.tile next).chain ++ [(q, pos, ((s.tile (placeOf die tile)).limit.extractLsb' 0 32).toNat + 1)] }) := by
  change execChainPositionRequest die tile s = _
  unfold execChainPositionRequest
  simp only [hchain, hen, hlast, Nat.not_le.2 hpos, hs1, hnext, Bool.not_true, Bool.false_eq_true, if_false]

end

/-- Settles O40: what arrives while no rotation is armed, an open latch, a rotation behind its last step, and a chain's two ways on. -/
theorem carillonEventsAct : Obligations.CarillonEventsAct := by
  unfold Obligations.CarillonEventsAct
  intro s die e g p
  refine ⟨?header, ?grant, ?query, ?emits, ?chain⟩
  case header =>
    intro k h rest hthawed hrot harr hk
    have hslot : (g.slots.set k (headedSlot g k h)).getD k {} = headedSlot g k h := by simp [hk]
    refine ⟨_, exec_ringRowArrival_header hthawed hrot harr, rfl, ?_⟩
    rw [getEngine_setEngine]
    dsimp only
    rw [hslot]
    exact ⟨rfl, rfl, rfl, rfl⟩
  case grant =>
    intro k rest hgrants hrot
    exact exec_grantArrival_unarmed hgrants hrot
  case query =>
    intro ch tok hengaged hthawed hdrained hjobs hopened hhead
    obtain ⟨t, hexec, ht⟩ := LatchOpen.exec_queryRowLatch ⟨hengaged, hthawed, hdrained, hjobs, hopened⟩ hhead
    refine ⟨?_, ?_, ?_⟩
    · rintro c f fm k n l rfl
      exact ⟨t, hexec, by rw [ht]; exact ⟨rfl, hopened⟩⟩
    · rintro c pay rfl
      exact ⟨t, hexec, by rw [ht]; exact ⟨hopened, rfl, rfl⟩⟩
    · rintro c pay rfl
      exact ⟨t, hexec, by rw [ht]; exact ⟨rfl, rfl⟩⟩
  case emits =>
    intro r w i hrot hemitting hlatched hgoes hthawed hctx s1 hw hi
    exact RotationEnds.exec_rotationEmit ⟨hrot, hemitting, hlatched, hgoes, hthawed, hctx⟩ rfl hw hi
  case chain =>
    intro tile q pos lo rest tl hchain s1
    exact ⟨exec_chainPositionRequest_unchained hchain, fun hen hlast hpos =>
      exec_chainPositionRequest_forwarded hchain hen hlast hpos rfl rfl⟩

end Sys2Proof.Machine

/-! ## Checkpoints and restores (O58) -/

namespace Sys2Proof.Machine
open Sys2Proof

/-! ### What differs in the partitions alone -/

/-- Of the whole state only the partitions differ. -/
def PartsOnly (s t : State) : Prop := t = { s with parts := t.parts }

namespace PartsOnly
variable {s t u : State}

theorem refl (s : State) : PartsOnly s s := rfl

theorem trans (h : PartsOnly s t) (g : PartsOnly t u) : PartsOnly s u := by
  unfold PartsOnly at *
  rw [g, h]

theorem fold {α : Type} {f : State → α → State} (hf : ∀ s a, PartsOnly s (f s a)) (l : List α) (s : State) :
    PartsOnly s (l.foldl f s) := by
  induction l generalizing s with
  | nil => exact .refl s
  | cons a l ih => exact (hf s a).trans (ih _)

theorem ckpt (h : PartsOnly s t) : t.ckpt = s.ckpt := by rw [h]
theorem ckptRun (h : PartsOnly s t) : t.ckptRun = s.ckptRun := by rw [h]
theorem storage (h : PartsOnly s t) : t.storage = s.storage := by rw [h]
theorem ctxs (h : PartsOnly s t) : t.ctxs = s.ctxs := by rw [h]
theorem tiles (h : PartsOnly s t) : t.tiles = s.tiles := by rw [h]
theorem mem (h : PartsOnly s t) : t.mem = s.mem := by rw [h]
theorem dramPoison (h : PartsOnly s t) : t.dramPoison = s.dramPoison := by rw [h]
theorem l2 (h : PartsOnly s t) : t.l2 = s.l2 := by rw [h]
theorem tlbs (h : PartsOnly s t) : t.tlbs = s.tlbs := by rw [h]

theorem setPart (s : State) (part : Nat) (p : Part) : PartsOnly s (s.setPart part p) := rfl

end PartsOnly

theorem requeue_only (s : State) (n : Nat) (images : List (Nat × Nat)) : PartsOnly s (requeue s n images) := .setPart ..

theorem restoreSlotsTo_only (s : State) (x : Stream) (n : Nat) : PartsOnly s (restoreSlotsTo s x n) :=
  .fold (fun _ _ => .setPart ..) _ _

/-! ### host.ckpt (R270) -/

/-- The fields of host.ckpt that a write leaves, with go, done and err clear. -/
def ckptFields (s : State) (v : W64) : W64 :=
  (0 : BitVec 3) ++ (if v.getLsbD 60 then s.ckpt.extractLsb' 56 5 else v.extractLsb' 56 5) ++ v.extractLsb' 55 1 ++ (0 : BitVec 55)

/-- The ring ports that a checkpoint or restore started by a write takes. -/
def ckptPorts (s : State) (v : W64) : Nat :=
  min ((if v.getLsbD 60 then s.ckpt.extractLsb' 56 5 else v.extractLsb' 56 5).toNat + 1) (freePorts s).length

theorem ckptFields_flags (s : State) (v : W64) {i : Nat} (h : 61 ≤ i) : (ckptFields s v).getLsbD i = false := by
  unfold ckptFields
  generalize (if v.getLsbD 60 then s.ckpt.extractLsb' 56 5 else v.extractLsb' 56 5) = ports
  simp only [BitVec.getLsbD_append]
  grind

/-- With go clear the flags of a write are those that stood before. -/
theorem ckptFields_stop (s : State) (v w : W64) : let x := (w &&& 0x6000000000000000) ||| ckptFields s v
    x.getLsbD 63 = false ∧ x.extractLsb' 61 2 = w.extractLsb' 61 2 := by
  have hflags : (ckptFields s v).extractLsb' 61 2 = 0 := by
    ext i hi
    rw [BitVec.getElem_extractLsb', ckptFields_flags s v (Nat.le_add_right 61 i)]
    simp
  have hkept : BitVec.extractLsb' 61 2 (0x6000000000000000 : W64) = BitVec.allOnes 2 := by decide
  refine ⟨by rw [BitVec.getLsbD_or, ckptFields_flags s v (by decide)]; simp, ?_⟩
  rw [BitVec.extractLsb'_or, BitVec.extractLsb'_and, hkept, hflags, BitVec.and_allOnes]
  exact BitVec.or_zero

theorem ckptFields_go (s : State) (v : W64) : ((0x8000000000000000 : W64) ||| ckptFields s v).getLsbD 63 = true := by simp

/-- When a checkpoint or restore ends go is clear, and one of done and err is set. -/
theorem endCkpt_flags (s : State) (ok : Bool) : (endCkpt s ok).ckpt.getLsbD 63 = false ∧
    (endCkpt s ok).ckpt.getLsbD 62 = ok ∧ (endCkpt s ok).ckpt.getLsbD 61 = !ok := by
  cases ok <;> simp [endCkpt]

section
variable {s : State} {v : W64}

/-- CHECKPOINT and CHECKPOINT_RESTORE are writes with rst 0 and 1. -/
theorem exec_checkpoint (s : State) (v : W64) :
    ∃ w : W64, exec (.checkpoint v) s = .next (writeCkpt s w) ∧ w.getLsbD 63 = v.getLsbD 63 ∧ w.getLsbD 55 = false :=
  ⟨v &&& ~~~(0x0080000000000000 : W64), rfl, by simp, by simp⟩

theorem exec_checkpointRestore (s : State) (v : W64) :
    ∃ w : W64, exec (.checkpointRestore v) s = .next (writeCkpt s w) ∧ w.getLsbD 63 = v.getLsbD 63 ∧ w.getLsbD 55 = true :=
  ⟨v ||| 0x0080000000000000, rfl, by simp, by simp⟩

theorem writeCkpt_busy (hgo : s.ckpt.getLsbD 63 = true) : writeCkpt s v = s := by simp only [writeCkpt, hgo, if_true]

theorem writeCkpt_stop (hidle : s.ckpt.getLsbD 63 = false) (hgo : v.getLsbD 63 = false) :
    writeCkpt s v = { s with ckpt := (s.ckpt &&& 0x6000000000000000) ||| ckptFields s v } := by
  simp only [writeCkpt, hidle, hgo, Bool.false_eq_true, if_false, Bool.not_false, if_true, ckptFields]

/-- The state in which a write with go has been taken. -/
def ckptGone (s : State) (v : W64) : State := { s with ckpt := 0x8000000000000000 ||| ckptFields s v }

theorem writeCkpt_go (hidle : s.ckpt.getLsbD 63 = false) (hgo : v.getLsbD 63 = true) : writeCkpt s v =
    if ckptPorts s v = 0 then endCkpt (ckptGone s v) false
    else if !v.getLsbD 55 then beginCheckpoint (ckptGone s v) (ckptPorts s v)
    else if mayRestore s then { ckptGone s v with ckptRun := some { restore := true, ports := ckptPorts s v, time := s.almanac } }
    else endCkpt (ckptGone s v) false := by
  simp only [writeCkpt, hidle, hgo, Bool.false_eq_true, if_false, Bool.not_true]
  rfl

theorem ckptPorts_eq_zero : ckptPorts s v = 0 ↔ freePorts s = [] := by
  unfold ckptPorts
  rw [← List.length_eq_zero_iff]
  omega

theorem ckptPorts_le : ckptPorts s v ≤ (freePorts s).length := Nat.min_le_right ..

end

/-! ### The first step of a checkpoint (R270) -/

/-- host.ckpt, the checkpoint under way, main memory and the storage node stand as they did. -/
structure CkptKept (s t : State) : Prop where
  ckpt : t.ckpt = s.ckpt
  run : t.ckptRun = s.ckptRun
  mem : t.mem = s.mem
  storage : t.storage = s.storage

namespace CkptKept
variable {s t u : State}

theorem refl (s : State) : CkptKept s s := ⟨rfl, rfl, rfl, rfl⟩

theorem trans (h : CkptKept s t) (g : CkptKept t u) : CkptKept s u :=
  ⟨g.ckpt.trans h.ckpt, g.run.trans h.run, g.mem.trans h.mem, g.storage.trans h.storage⟩

theorem fold {α : Type} {f : State → α → State} (hf : ∀ s a, CkptKept s (f s a)) (l : List α) (s : State) :
    CkptKept s (l.foldl f s) := by
  induction l generalizing s with
  | nil => exact .refl s
  | cons a l ih => exact (hf s a).trans (ih _)

theorem of_partsOnly (h : PartsOnly s t) : CkptKept s t := ⟨h.ckpt, h.ckptRun, h.mem, h.storage⟩

theorem setCtx (s : State) (id : Nat) (c : Ctx) : CkptKept s (s.setCtx id c) := ⟨rfl, rfl, rfl, rfl⟩

theorem of_channelsOnly (h : ChannelsOnly s t) : CkptKept s t := by
  constructor <;> rw [h]

end CkptKept

theorem askImage_only (s : State) (part : Nat) : PartsOnly s (askImage s part) := by
  unfold askImage
  dsimp only
  split
  · exact .refl s
  · split
    · exact .refl s
    · exact (PartsOnly.setPart ..).trans (injectNext_only ..).1

theorem refuseSuccessors_ckpt (s : State) (part launch : Nat) : CkptKept s (refuseSuccessors s part launch) := by
  have hmarked (s : State) (f : Nat → Ctx → Ctx) : CkptKept s (markSpliced (s.mapCtxs f)) := ⟨rfl, rfl, rfl, rfl⟩
  have hrefused (l : List Nat) (g : Running → Running) : CkptKept s (l.foldl (fun s id => editRunning s part id g) s) :=
    .of_partsOnly (.fold (fun _ _ => .setPart ..) l s)
  unfold refuseSuccessors
  dsimp only
  split
  · exact .refl s
  · exact (hrefused ..).trans (hmarked ..)

theorem dropInputs_only (s : State) (id n : Nat) : ChannelsOnly s (dropInputs s id n) := by
  induction n with
  | zero => exact .refl s
  | succ n ih =>
    unfold dropInputs
    dsimp only
    split
    · exact ih.trans rfl
    · exact ih

theorem preemptRef_ckpt (s : State) (u : UnitRef) : CkptKept s (preemptRef s u) := by
  cases u with
  | ctx d t c =>
    have hwithdrawn : CkptKept s (withdrawArrivals s (ctxId d t c)) := ⟨rfl, rfl, rfl, rfl⟩
    exact (hwithdrawn.trans (.of_channelsOnly (dropInputs_only _ (ctxId d t c) 64))).trans (.setCtx ..)
  | op d t n => exact ⟨rfl, rfl, rfl, rfl⟩
  | island d i =>
    unfold preemptRef
    dsimp only
    split <;> exact ⟨rfl, rfl, rfl, rfl⟩
  | queue d str q => exact ⟨rfl, rfl, rfl, rfl⟩

theorem preemptGraph_ckpt (s : State) (part : Nat) (x : Snapshot) : CkptKept s (preemptGraph s part x) := by
  have hfrozen := (refuseSuccessors_ckpt s part x.launch).trans (.fold preemptRef_ckpt x.all _)
  exact hfrozen.trans ⟨rfl, rfl, rfl, rfl⟩

/-- Asking for images and pre-empting graphs leaves the checkpoint itself as it was. -/
theorem checkpointStep_ckpt (s : State) : CkptKept s (checkpointStep s) := by
  have hasked : CkptKept s (s.parts.foldl (fun s e => askImage s e.1) s) :=
    .of_partsOnly (.fold (fun s (e : Nat × Part) => askImage_only s e.1) _ s)
  unfold checkpointStep
  split
  · split
    · exact .refl s
    · dsimp only
      split
      · refine hasked.trans (.fold (fun s e => ?_) _ _)
        split
        · exact preemptGraph_ckpt ..
        · exact .refl s
      · exact hasked
  · exact .refl s

theorem beginCheckpoint_ckpt (s : State) (ports : Nat) :
    CkptKept { s with ckptRun := some { restore := false, ports := ports, time := s.almanac } } (beginCheckpoint s ports) :=
  checkpointStep_ckpt _

/-! ### The stream is written (R270, R271) -/

/-- Where no line of the L2 is dirty main memory holds all of the stream already. -/
theorem writeBackL2_clean {s : State} (h : ∀ l ∈ s.l2, l.dirty = 0) : writeBackL2 s = s := by
  have hnone : (s.l2.filter fun l => l.dirty != 0) = [] := List.filter_eq_nil_iff.2 fun l hl => by simp [h l hl]
  have hsame : (s.l2.map fun l => { l with dirty := 0 }) = s.l2 := by
    refine (List.map_congr_left fun l hl => ?_).trans (List.map_id s.l2)
    rw [id, ← h l hl]
  unfold writeBackL2
  dsimp only
  rw [hnone, List.foldl_nil, hsame]

/-- The restores of a partition's images. -/
def restores (images : List (Nat × Nat)) : List Launch := images.map fun x => ⟨x.1, true, x.2, false⟩

/-- The partitions of a stream have the restores of their images queued. -/
def requeueAll (l : List (Nat × BitVec 8 × List Byte × List (Nat × Nat))) (s : State) : State :=
  l.foldl (fun s e => requeue s e.1 e.2.2.2) s

theorem requeue_queue (s : State) (n : Nat) (images : List (Nat × Nat)) :
    ((requeue s n images).part n).queue = restores images ++ (s.part n).queue := congrArg Part.queue (State.setPart_part_self ..)

theorem requeue_part_ne {n i : Nat} (h : i ≠ n) (s : State) (images : List (Nat × Nat)) :
    (requeue s n images).part i = s.part i := State.setPart_part_ne _ _ _ h

section
variable {l : List (Nat × BitVec 8 × List Byte × List (Nat × Nat))}

theorem requeueAll_only (s : State) : PartsOnly s (requeueAll l s) := .fold (fun _ _ => requeue_only ..) l s

theorem requeueAll_part_other {n : Nat} (h : ∀ e ∈ l, e.1 ≠ n) (s : State) : (requeueAll l s).part n = s.part n := by
  induction l generalizing s with
  | nil => rfl
  | cons e l ih =>
    obtain ⟨he, hl⟩ := List.forall_mem_cons.1 h
    exact (ih hl _).trans (requeue_part_ne he.symm ..)

/-- Each partition of a stream has its restores queued once, before its own launches. -/
theorem requeueAll_queue (hl : (l.map (·.1)).Nodup) (s : State) :
    ∀ e ∈ l, ((requeueAll l s).part e.1).queue = restores e.2.2.2 ++ (s.part e.1).queue := by
  induction l generalizing s with
  | nil => simp
  | cons a l ih =>
    obtain ⟨hnew, hrest⟩ := List.nodup_cons.1 hl
    have hother : ∀ e ∈ l, e.1 ≠ a.1 := fun e he h => hnew (List.mem_map.2 ⟨e, he, h⟩)
    refine List.forall_mem_cons.2 ⟨?_, fun e he => ?_⟩
    · change ((requeueAll l (requeue s a.1 a.2.2.2)).part a.1).queue = _
      rw [requeueAll_part_other hother, requeue_queue]
    · exact (ih hrest _ e he).trans (by rw [requeue_part_ne (hother e he)])

end

/-- The stream names each live partition once. -/
theorem makeStream_nodup (s : State) (k : Checkpoint) : ((makeStream s k).parts.map (·.1)).Nodup := by
  have hnames : (makeStream s k).parts.map (·.1) = (List.range 32).filter (livePart s) := by
    simp [makeStream, Function.comp_def, storedPart]
  rw [hnames]
  exact List.nodup_range.filter _

theorem storedPart_mem {s : State} {n : Nat} (k : Checkpoint) (hn : n < 32) (hlive : (s.part n).live = true) :
    storedPart s k n ∈ (makeStream s k).parts :=
  List.mem_map_of_mem (List.mem_filter.2 ⟨List.mem_range.2 hn, hlive⟩)

theorem makeStream_slots (s : State) (k : Checkpoint) : ∀ e ∈ (makeStream s k).slots, e.2 = (s.part e.1).slots := by
  intro e he
  obtain ⟨n, -, rfl⟩ := List.mem_map.1 he
  rfl

/-- The storage node holds the stream, or none where a write of it has failed (log 61). -/
def streamWritten (s : State) (k : Checkpoint) : State :=
  { s with storage := if k.failed then none else some (makeStream s k), ckptRun := some { k with written := some !k.failed } }

section
variable {s : State} {k : Checkpoint} (hrun : s.ckptRun = some k)
include hrun

/-- The state when the writing of the stream has ended. -/
theorem exec_checkpointWriteComplete_stream (hck : k.restore = false) (hunwritten : k.written = none)
    (hidle : ∀ e ∈ s.parts, e.2.running = []) (hclean : ∀ l ∈ s.l2, l.dirty = 0) : exec .checkpointWriteComplete s =
      .next (requeueAll (makeStream s k).parts (streamWritten s k)) := by
  have hnone : (s.parts.any fun e => !e.2.running.isEmpty) = false := List.any_eq_false.2 fun e he => by simp [hidle e he]
  change execCheckpointWriteComplete s = _
  simp only [execCheckpointWriteComplete, streamWritten, requeueAll, hrun, hck, hunwritten, hnone, Bool.false_eq_true, if_false,
    writeBackL2_clean hclean]

theorem exec_checkpointWriteComplete_end {good : Bool} (hck : k.restore = false) (hwritten : k.written = some good) :
    exec .checkpointWriteComplete s = .next (if k.images.all (restored s) then endCkpt s good else s) := by
  change execCheckpointWriteComplete s = _
  simp only [execCheckpointWriteComplete, hrun, hck, hwritten, Bool.false_eq_true, if_false]

end

/-! ### A stream is read back (R271) -/

namespace Memory

/-- Writing the same byte to an address as often as it is listed. -/
theorem read_foldl_write {l : List Host.Cell} {f : Host.Cell → Byte} {a : Nat} {v : Byte} (h : ∀ c ∈ l, c.1 = a → f c = v)
    (m : Memory) : read (l.foldl (fun m c => m.write c.1 (f c)) m) a = if (l.any fun c => c.1 == a) then v else read m a := by
  induction l generalizing m with
  | nil => rfl
  | cons c l ih =>
    obtain ⟨hc, hl⟩ := List.forall_mem_cons.1 h
    rw [List.foldl_cons, ih hl, read_write, List.any_cons]
    by_cases hca : c.1 = a
    · simp [hca, hc hca]
    · simp [hca, Ne.symm hca]

theorem read_unlisted {m : Memory} {a : Nat} (h : ∀ c ∈ m, c.1 ≠ a) : read m a = initialByte := by
  induction m with
  | nil => rfl
  | cons c m ih =>
    obtain ⟨hc, hm⟩ := List.forall_mem_cons.1 h
    rw [read, if_neg hc, ih hm]

/-- In a canonical memory a listed cell is what its address reads as. -/
theorem read_of_mem {m : Memory} (hm : wf m) : ∀ c ∈ m, read m c.1 = c.2 := by
  induction m with
  | nil => simp
  | cons c m ih =>
    obtain ⟨hlow, -, hwf⟩ := wf_cons.1 hm
    refine List.forall_mem_cons.2 ⟨read_cons_self .., fun d hd => ?_⟩
    rw [read, if_neg (hlow d hd).ne, ih hwf d hd]

/-- The addresses that `p` picks are cleared, and then take what another memory lists there. -/
def overlay (p : Nat → Bool) (m x : Memory) : Memory :=
  (x.filter fun c => p c.1).foldl (fun m c => m.write c.1 c.2)
    ((m.filter fun c => p c.1).foldl (fun m c => m.write c.1 initialByte) m)

theorem any_filter_of_not {p : Nat → Bool} {a : Nat} (hp : p a = false) (m : Memory) :
    ((m.filter fun c => p c.1).any fun c => c.1 == a) = false := by
  refine List.any_eq_false.2 fun c hc => ?_
  have hpc : p c.1 = true := (List.mem_filter.1 hc).2
  simp only [beq_iff_eq]
  rintro rfl
  exact absurd (hp.symm.trans hpc) Bool.false_ne_true

theorem any_filter_of_picked {p : Nat → Bool} {a : Nat} (hp : p a = true) (m : Memory) :
    ((m.filter fun c => p c.1).any fun c => c.1 == a) = m.any fun c => c.1 == a := by
  rw [List.any_filter]
  congr 1
  funext c
  by_cases hc : c.1 = a
  · simp [hc, hp]
  · simp [hc]

/-- A picked address reads as in the other memory, any other as before. -/
theorem read_overlay {x : Memory} (hx : wf x) (p : Nat → Bool) (m : Memory) (a : Nat) :
    read (overlay p m x) a = if p a then read x a else read m a := by
  have hlisted : ∀ c ∈ x.filter (fun c => p c.1), c.1 = a → c.2 = read x a := by
    rintro c hc rfl
    exact (read_of_mem hx c (List.mem_filter.1 hc).1).symm
  have hunlisted (m : Memory) (h : (m.any fun c => c.1 == a) = false) : read m a = initialByte :=
    read_unlisted fun c hc => by simpa using List.any_eq_false.1 h c hc
  rw [overlay, read_foldl_write (f := fun c => c.2) hlisted, read_foldl_write (f := fun _ => initialByte) fun _ _ _ => rfl]
  cases hp : p a with
  | false => simp [any_filter_of_not hp]
  | true =>
    rw [any_filter_of_picked hp, any_filter_of_picked hp]
    cases hxa : x.any fun c => c.1 == a with
    | true => rfl
    | false =>
      cases hma : m.any fun c => c.1 == a with
      | true => simp [hunlisted x hxa]
      | false => simp [hunlisted x hxa, hunlisted m hma]

end Memory

/-- The caches are empty and main memory is that of the stream. -/
def memoryRestored (s : State) (x : Stream) : State :=
  { restoreSlots s x with
    mem := x.mem, dramPoison := x.poison, l2 := [], filter := [], tlbs := []
    tiles := (restoreSlots s x).tiles.map fun e => (e.1, { e.2 with l1 := [] }) }

/-- The addresses of main memory that a failing read reaches. -/
def readReached (s : State) (pa : Nat) : Bool := decide (8192 + schedulerBytes + streamPlace pa < Config.storageReach s.draws)

theorem memoryRestored_l1 (s : State) (x : Stream) (p : Nat) : ((memoryRestored s x).tile p).l1 = [] :=
  SMap.get_of_forall (p := fun t : Tile => t.l1 = []) (fun e he => by
    obtain ⟨y, -, rfl⟩ := List.mem_map.1 he
    rfl) rfl p

section
variable {s : State} {k : Checkpoint} {x : Stream} (hrun : s.ckptRun = some k) (hrestore : k.restore = true)
  (hstored : s.storage = some x)
include hrun hrestore hstored

theorem exec_checkpointReadComplete_ok : exec (.checkpointReadComplete true) s =
    .next (endCkpt (requeueAll x.parts (memoryRestored s x)) true) := by
  change execCheckpointReadComplete true s = _
  simp only [execCheckpointReadComplete, hrun, hstored, hrestore, Bool.not_true, Bool.false_eq_true, if_false, if_true]
  rfl

/-- A read that fails leaves main memory the stream's as far as it has come. -/
theorem exec_checkpointReadComplete_failed : ∃ t, exec (.checkpointReadComplete false) s = .next (endCkpt t false) ∧
    t.ctxs = s.ctxs ∧ t.mem = Memory.overlay (readReached s) s.mem x.mem := by
  refine ⟨?t, ?exec, ?ctxs, ?mem⟩
  case exec =>
    change execCheckpointReadComplete false s = _
    simp only [execCheckpointReadComplete, hrun, hstored, hrestore, Bool.not_true, Bool.false_eq_true, if_false]
    rfl
  case ctxs => exact (restoreSlotsTo_only ..).ctxs
  case mem => exact congrArg (fun m => Memory.overlay (readReached s) m x.mem) (restoreSlotsTo_only ..).mem

end

/-- Settles O58: each write and each event as its equation gives it, with the queues of a stream's partitions and the bytes that a
failed read has reached. -/
theorem checkpointsAndRestores : Obligations.CheckpointsAndRestores := by
  unfold Obligations.CheckpointsAndRestores
  intro s
  refine ⟨?busy, ?stop, ?noPort, ?start, ?written, ?ended, fun k => rfl, ?read⟩
  case busy =>
    intro v hbusy
    obtain ⟨w, hckpt, -, -⟩ := exec_checkpoint s v
    obtain ⟨x, hrst, -, -⟩ := exec_checkpointRestore s v
    rw [hckpt, hrst, writeCkpt_busy hbusy, writeCkpt_busy hbusy]
    exact ⟨rfl, rfl⟩
  case stop =>
    intro v hidle hgo
    obtain ⟨w, hckpt, hwgo, -⟩ := exec_checkpoint s v
    rw [hckpt, writeCkpt_stop hidle (hwgo.trans hgo)]
    exact ⟨_, rfl, rfl, ckptFields_stop ..⟩
  case noPort =>
    intro v hidle hgo hports
    obtain ⟨w, hckpt, hwgo, -⟩ := exec_checkpoint s v
    rw [hckpt, writeCkpt_go hidle (hwgo.trans hgo), if_pos (ckptPorts_eq_zero.2 hports)]
    exact ⟨_, rfl, rfl, endCkpt_flags ..⟩
  case start =>
    intro v hidle hgo hports
    have hsome (w : W64) : ckptPorts s w ≠ 0 := mt ckptPorts_eq_zero.1 hports
    constructor
    · obtain ⟨w, hckpt, hwgo, hplain⟩ := exec_checkpoint s v
      have hkept := beginCheckpoint_ckpt (ckptGone s w) (ckptPorts s w)
      rw [hckpt, writeCkpt_go hidle (hwgo.trans hgo), if_neg (hsome w), hplain, Bool.not_false, if_pos rfl]
      refine ⟨_, _, rfl, ?_, hkept.run, rfl, rfl, Nat.one_le_iff_ne_zero.2 (hsome w), ckptPorts_le, hkept.mem, hkept.storage⟩
      rw [hkept.ckpt]
      exact ckptFields_go ..
    · obtain ⟨w, hrst, hwgo, hrestore⟩ := exec_checkpointRestore s v
      rw [hrst, writeCkpt_go hidle (hwgo.trans hgo), if_neg (hsome w), hrestore, Bool.not_true, if_neg Bool.false_ne_true]
      split
      · exact ⟨_, rfl, rfl, ckptFields_go .., _, rfl, rfl, rfl⟩
      · obtain ⟨hend, -, herr⟩ := endCkpt_flags (ckptGone s w) false
        exact ⟨_, rfl, rfl, hend, herr, rfl⟩
  case written =>
    intro k hrun hck hunwritten hidle hclean
    have honly := requeueAll_only (l := (makeStream s k).parts) (streamWritten s k)
    refine ⟨_, exec_checkpointWriteComplete_stream hrun hck hunwritten hidle hclean, honly.ckptRun, honly.ckpt, honly.mem,
      fun hok => ?_, fun n hn hlive => ?_⟩
    · exact ⟨makeStream s k, honly.storage.trans (by simp [streamWritten, hok]), rfl, rfl, rfl, rfl, makeStream_slots s k⟩
    · refine (requeueAll_queue (makeStream_nodup s k) _ _ (storedPart_mem k hn hlive)).trans ?_
      rw [restores, storedPart, List.map_map]
      rfl
  case ended =>
    intro k good hrun hck hwritten
    rw [exec_checkpointWriteComplete_end hrun hck hwritten]
    refine ⟨fun hleft => by rw [hleft, if_neg Bool.false_ne_true], fun hall => ?_⟩
    rw [hall, if_pos rfl]
    exact ⟨_, rfl, rfl, endCkpt_flags ..⟩
  case read =>
    intro k x hrun hrestore hstored
    constructor
    · have honly := requeueAll_only (l := x.parts) (memoryRestored s x)
      obtain ⟨hend, hdone, -⟩ := endCkpt_flags (requeueAll x.parts (memoryRestored s x)) true
      refine ⟨_, exec_checkpointReadComplete_ok hrun hrestore hstored, honly.mem, honly.dramPoison, honly.l2, honly.tlbs, fun p => ?_,
        rfl, hend, hdone⟩
      exact (congrArg (fun m => (SMap.get ({} : Tile) m p).l1) honly.tiles).trans (memoryRestored_l1 s x p)
    · obtain ⟨t, hexec, hctxs, hmem⟩ := exec_checkpointReadComplete_failed hrun hrestore hstored
      obtain ⟨hend, -, herr⟩ := endCkpt_flags t false
      refine ⟨_, hexec, rfl, hend, herr, hctxs, fun _ hx a => ?_⟩
      have hread : Memory.read (endCkpt t false).mem a = if readReached s a then Memory.read x.mem a else Memory.read s.mem a := by
        rw [← Memory.read_overlay hx, ← hmem]
        rfl
      rw [hread]
      split
      · exact .inr rfl
      · exact .inl rfl

end Sys2Proof.Machine

/-! ## Mailbox commands and register writes (O59) -/

namespace Sys2Proof.SMap

theorem mem_of_find?_eq_some {α : Type} {m : SMap α} {n : Nat} {v : α} (h : find? m n = some v) : (n, v) ∈ m := by
  induction m with
  | nil => exact absurd h.symm (Option.some_ne_none v)
  | cons e m ih =>
    obtain ⟨k, x⟩ := e
    by_cases hk : k = n
    · rw [find?, if_pos hk] at h
      rw [hk, Option.some.inj h]
      exact List.mem_cons_self
    · rw [find?, if_neg hk] at h
      exact List.mem_cons_of_mem _ (ih h)

end Sys2Proof.SMap

namespace Sys2Proof.Machine
open Sys2Proof

/-! ### The end of a command (R264) -/

/-- Done, status and op of mbx.cmd once a command has ended. -/
theorem finishedCmd_fields (st op : BitVec 8) : let w : W64 := (0x40 : BitVec 8) ++ st ++ (0 : BitVec 40) ++ op
    w.getLsbD 63 = false ∧ w.getLsbD 62 = true ∧ w.extractLsb' 48 8 = st := by
  refine ⟨by simp only [BitVec.getLsbD_append]; rfl, by simp only [BitVec.getLsbD_append]; rfl, ?_⟩
  ext i hi
  simp only [BitVec.getElem_extractLsb', BitVec.getLsbD_append]
  grind

theorem finishCommand_mailbox (s : State) (fn : Nat) (st : BitVec 8) : mailbox (finishCommand s fn st) fn =
    { mailbox s fn with cmd := (0x40 : BitVec 8) ++ st ++ (0 : BitVec 40) ++ (mailbox s fn).cmd.extractLsb' 0 8 } :=
  SMap.get_set_self ..

/-- What a command that ends leaves: everything but its mailbox and the signals raised. -/
theorem finishCommand_eq (s : State) (fn : Nat) (st : BitVec 8) : finishCommand s fn st =
    { s with mailboxes := (finishCommand s fn st).mailboxes, msix := s.msix ++ [(fn, if fn = 0 then 0 else 3)] } := rfl

/-! ### PSETUP (R265) -/

/-- The tiles of a list are given to a partition. -/
def giveTiles (part : Nat) (l : List Nat) (owners : SMap Nat) : SMap Nat := l.foldl (fun o p => SMap.set o p part) owners

theorem find?_giveTiles (part : Nat) (l : List Nat) (owners : SMap Nat) (p : Nat) :
    SMap.find? (giveTiles part l owners) p = if p ∈ l then some part else SMap.find? owners p := by
  induction l generalizing owners with
  | nil => rfl
  | cons q l ih =>
    refine (ih _).trans ?_
    by_cases hp : p = q
    · simp [hp, SMap.find?_set_self]
    · simp [hp, SMap.find?_set_ne]

section
variable (s : State) (x : Setup) (b : List Byte) (grants : List (Nat × Nat × Bool × Nat))

theorem setUpPart_part_self : (setUpPart s x b grants).part x.part =
    { live := true, asid := x.asid, bound := x.bound, smem := x.smem, rports := x.rports, ways := x.ways, bw := x.bw
      vcw := x.vcw, clk := x.clk, kvpool := x.word 4, vigil := x.word 5, setup := b, nextId := (s.part x.part).nextId } :=
  State.setPart_part_self ..

theorem setUpPart_part_ne {n : Nat} (h : n ≠ x.part) : (setUpPart s x b grants).part n = s.part n := State.setPart_part_ne _ _ _ h

theorem setUpPart_roots : (setUpPart s x b grants).roots = SMap.set s.roots x.asid.toNat (rootEntry (x.word 1)) := rfl

theorem setUpPart_owners : (setUpPart s x b grants).owners = giveTiles x.part x.places s.owners := rfl

end

theorem exec_psetup {s : State} {m : Mailbox} (hm : command s 0 1 = some m) : exec .psetup s =
    .next (finishCommand (setUp s (arg m 0).toNat).1 0 (setUp s (arg m 0).toNat).2) := by
  change execPsetup s = _
  simp only [execPsetup, hm]

/-! ### What a kill leaves of the contexts (R232) -/

/-- Contexts may be killed, and stay so; each is as active as before, for the same partition. -/
structure KillsOnly (s t : State) : Prop where
  active : ∀ j, (t.ctx j).active = (s.ctx j).active
  part : ∀ j, (t.ctx j).part = (s.ctx j).part
  killed : ∀ j, (s.ctx j).killed = true → (t.ctx j).killed = true

namespace KillsOnly
variable {s t u : State}

theorem of_ctxs (h : t.ctxs = s.ctxs) : KillsOnly s t := by
  have hctx (j : Nat) : t.ctx j = s.ctx j := by rw [State.ctx, State.ctx, h]
  exact ⟨fun j => by rw [hctx], fun j => by rw [hctx], fun j hj => by rwa [hctx]⟩

theorem trans (h : KillsOnly s t) (g : KillsOnly t u) : KillsOnly s u :=
  ⟨fun j => (g.active j).trans (h.active j), fun j => (g.part j).trans (h.part j), fun j hj => g.killed j (h.killed j hj)⟩

theorem fold {α : Type} {f : State → α → State} (hf : ∀ s a, KillsOnly s (f s a)) (l : List α) (s : State) :
    KillsOnly s (l.foldl f s) := by
  induction l generalizing s with
  | nil => exact of_ctxs rfl
  | cons a l ih => exact (hf s a).trans (ih _)

/-- One context is written, killed or not. -/
theorem setCtx (s : State) (id : Nat) {c : Ctx} (ha : c.active = (s.ctx id).active) (hp : c.part = (s.ctx id).part)
    (hk : (s.ctx id).killed = true → c.killed = true) : KillsOnly s (s.setCtx id c) := by
  constructor <;> intro j <;> rw [State.setCtx_ctx_get] <;> split
  · next h => rw [h, ha]
  · rfl
  · next h => rw [h, hp]
  · rfl
  · next h => rw [h]; exact hk
  · exact fun h => h

/-- Every context is edited in what is left of it. -/
theorem mapCtxs (s : State) {f : Nat → Ctx → Ctx}
    (hf : ∀ n c, (f n c).active = c.active ∧ (f n c).part = c.part ∧ (f n c).killed = c.killed) : KillsOnly s (s.mapCtxs f) := by
  have hctx (j : Nat) : let c := (s.mapCtxs f).ctx j
      c.active = (s.ctx j).active ∧ c.part = (s.ctx j).part ∧ c.killed = (s.ctx j).killed := by
    unfold State.ctx SMap.get State.mapCtxs
    dsimp only
    rw [SMap.find?_map s.ctxs f]
    cases SMap.find? s.ctxs j with
    | none => exact ⟨rfl, rfl, rfl⟩
    | some c => exact hf j c
  exact ⟨fun j => (hctx j).1, fun j => (hctx j).2.1, fun j hj => (hctx j).2.2.trans hj⟩

theorem of_contextOnly {id : Nat} (h : ContextOnly s t id) (out : List OutEntry) (hctx : t.ctx id = { s.ctx id with out := out }) :
    KillsOnly s t := by
  constructor <;> intro j <;> by_cases hj : j = id
  · rw [hj, hctx]
  · rw [h.2 j hj]
  · rw [hj, hctx]
  · rw [h.2 j hj]
  · rw [hj, hctx]; exact fun h => h
  · rw [h.2 j hj]; exact fun h => h

end KillsOnly

theorem sendItem_ctxs (s : State) (die e k : Nat) (x : RingItem) : (sendItem s die e k x).ctxs = s.ctxs := by
  unfold sendItem
  split <;> rfl

theorem closeSends_ctxs (s : State) (l : List (Nat × Nat × Nat)) : (closeSends s l).ctxs = s.ctxs := by
  induction l generalizing s with
  | nil => rfl
  | cons x l ih => exact (ih _).trans (sendItem_ctxs ..)

theorem markSpliced_ctxs (s : State) : (markSpliced s).ctxs = s.ctxs := rfl

/-- Refusing what waits behind a launch empties splice buffers alone. -/
theorem refuseSuccessors_kills (s : State) (part launch : Nat) : KillsOnly s (refuseSuccessors s part launch) := by
  unfold refuseSuccessors
  dsimp only
  split
  · exact .of_ctxs rfl
  · have hrefused : KillsOnly s ((successors s part launch).foldl
        (fun s id => editRunning s part id fun r => { r with refused := some 4 }) s) :=
      .fold (fun s id => .of_ctxs (rfl : (editRunning s part id _).ctxs = s.ctxs)) _ s
    refine (hrefused.trans (.mapCtxs _ fun _ c => ?_)).trans (.of_ctxs (markSpliced_ctxs _))
    split <;> exact ⟨rfl, rfl, rfl⟩

theorem markKilled_kills (s : State) (id : Nat) : KillsOnly s (markKilled s id) :=
  have hedited : KillsOnly s (editRunning s (s.ctx id).part (s.ctx id).launch fun r => { r with killed := true }) := .of_ctxs rfl
  hedited.trans (refuseSuccessors_kills ..)

theorem endRotation_ctxs (s : State) (die e : Nat) : (endRotation s die e).ctxs = s.ctxs := by
  unfold endRotation withdrawGrants
  dsimp only
  split <;> rfl

theorem abandonUnits_ctxs (s : State) (id : Nat) : (abandonUnits s id).ctxs = s.ctxs := by
  have hended (l : List (Nat × Engine)) (s : State) : (l.foldl (fun s e => endRotation s (e.1 / 32) (e.1 % 32)) s).ctxs = s.ctxs := by
    induction l generalizing s with
    | nil => rfl
    | cons e l ih => exact (ih _).trans (endRotation_ctxs ..)
  unfold abandonUnits
  dsimp only
  split <;> exact hended ..

theorem withdrawArrivals_ctxs (s : State) (id : Nat) : (withdrawArrivals s id).ctxs = s.ctxs := rfl
theorem abandonCopies_ctxs (s : State) (id : Nat) : (abandonCopies s id).ctxs = s.ctxs := rfl

theorem killBegun_kills (s : State) (id : Nat) : KillsOnly s (killBegun s id) :=
  have hmarked := (KillsOnly.of_ctxs (closeSends_ctxs s (openSends (s.ctx id) id))).trans (markKilled_kills _ id)
  have hwithdrawn := hmarked.trans (.of_ctxs (withdrawArrivals_ctxs _ id))
  (hwithdrawn.trans (.of_ctxs (abandonUnits_ctxs _ id))).trans (.of_ctxs (abandonCopies_ctxs _ id))

theorem killContext_idle {s : State} {id : Nat} (h : ¬ ((s.ctx id).active = true ∧ (s.ctx id).killed = false)) :
    killContext s id = s := by
  have hidle : ((s.ctx id).killed || !(s.ctx id).active) = true := by
    cases hk : (s.ctx id).killed with
    | true => rfl
    | false => simpa [hk] using h
  simp only [killContext, hidle, if_true]

/-- A context that a kill has emptied. -/
def killedCtx (c : Ctx) : Ctx :=
  { c with killed := true, frozen := false, frames := [], chead := c.ahead, out := c.out.filter (·.released), splice := none,
           stops := [], inflight := [], resumes := [], ages := [], halting := none, answering := none,
           seq := { c.seq with closing := false, wait := none, entry := none, gwait := none, goal := none } }

theorem killedCtx_active (c : Ctx) : (killedCtx c).active = c.active := rfl
theorem killedCtx_part (c : Ctx) : (killedCtx c).part = c.part := rfl
theorem killedCtx_killed (c : Ctx) : (killedCtx c).killed = true := rfl

theorem killContext_eq {s : State} {id : Nat} (ha : (s.ctx id).active = true) (hk : (s.ctx id).killed = false) : killContext s id =
    sinkInputs (queueEos ((killBegun s id).setCtx id (killedCtx ((killBegun s id).ctx id))) id false 64) id 64 := by
  have hlive : ((s.ctx id).killed || !(s.ctx id).active) = false := by rw [ha, hk]; rfl
  unfold killContext
  dsimp only
  rw [hlive, if_neg Bool.false_ne_true, ← killBegun]
  rfl

theorem killContext_kills (s : State) (id : Nat) : KillsOnly s (killContext s id) := by
  by_cases h : (s.ctx id).active = true ∧ (s.ctx id).killed = false
  · have hset := (killBegun_kills s id).trans (.setCtx _ id (killedCtx_active _) (killedCtx_part _) fun _ => killedCtx_killed _)
    have hended := hset.trans (.of_contextOnly (queueEos_only _ id false 64) _ (queueEos_ctx _ id false 64))
    rw [killContext_eq h.1 h.2]
    exact hended.trans (.of_ctxs (by rw [sinkInputs_only]))
  · rw [killContext_idle h]
    exact .of_ctxs rfl

theorem killContext_running (s : State) (id : Nat) : RunningOnly s (killContext s id) := by
  by_cases h : (s.ctx id).active = true ∧ (s.ctx id).killed = false
  · exact (killContext_spec h.1 h.2).1
  · rw [killContext_idle h]
    exact .of_parts rfl

/-- No context that is active is left unkilled once a kill has named it. -/
theorem killContext_active {s : State} {id : Nat} (h : ((killContext s id).ctx id).active = true) :
    ((killContext s id).ctx id).killed = true := by
  have hactive : (s.ctx id).active = true := ((killContext_kills s id).active id).symm.trans h
  cases hk : (s.ctx id).killed with
  | true => exact (killContext_kills s id).killed id hk
  | false => exact (killContext_spec hactive hk).2

theorem killContexts_active (l : List (Nat × Ctx)) (s : State) : let t := l.foldl (fun s e => killContext s e.1) s
    ∀ e ∈ l, (t.ctx e.1).active = true → (t.ctx e.1).killed = true := by
  refine foldl_brings (P := fun e s => (s.ctx e.1).active = true → (s.ctx e.1).killed = true)
    (fun s e => killContext_active) (fun s e b h hactive => ?_) l s
  exact (killContext_kills s b.1).killed e.1 (h (((killContext_kills s b.1).active e.1).symm.trans hactive))

/-- An active context is listed. -/
theorem mem_ctxs_of_active {s : State} {id : Nat} (h : (s.ctx id).active = true) : (id, s.ctx id) ∈ s.ctxs := by
  unfold State.ctx SMap.get at h ⊢
  cases hfind : SMap.find? s.ctxs id with
  | none =>
    rw [hfind] at h
    exact absurd h Bool.false_ne_true
  | some c => exact SMap.mem_of_find?_eq_some hfind

/-! ### PFREE and the release (R264, R265) -/

/-- The contexts of a partition are killed. -/
def ctxsKilled (s : State) (part : Nat) : State :=
  (s.ctxs.filter fun e => e.2.active && e.2.part == part && !e.2.killed).foldl (fun s e => killContext s e.1) s

theorem killGraphs_eq (s : State) (part : Nat) : killGraphs s part = (ctxsKilled s part).setPart part
    { (ctxsKilled s part).part part with running := ((ctxsKilled s part).part part).running.map fun r => { r with killed := true } } := rfl

theorem ctxsKilled_running (s : State) (part : Nat) : RunningOnly s (ctxsKilled s part) :=
  .fold (fun s (e : Nat × Ctx) => killContext_running s e.1) _ s

theorem ctxsKilled_kills (s : State) (part : Nat) : KillsOnly s (ctxsKilled s part) :=
  .fold (fun s (e : Nat × Ctx) => killContext_kills s e.1) _ s

/-- Every running launch of the partition is killed, and nothing else of it has changed. -/
theorem killGraphs_part (s : State) (part : Nat) : ∃ l : List Running,
    (killGraphs s part).part part = { s.part part with running := l } ∧ ∀ r ∈ l, r.killed = true := by
  refine ⟨((ctxsKilled s part).part part).running.map fun r => { r with killed := true }, ?_, fun r hr => ?_⟩
  · rw [killGraphs_eq, State.setPart_part_self, (ctxsKilled_running s part).part part]
  · obtain ⟨q, -, rfl⟩ := List.mem_map.1 hr
    rfl

/-- Every active context of the partition is killed. -/
theorem killGraphs_ctx {s : State} {part id : Nat} (hactive : ((killGraphs s part).ctx id).active = true)
    (hpart : ((killGraphs s part).ctx id).part = part) : ((killGraphs s part).ctx id).killed = true := by
  have hkills : KillsOnly s (killGraphs s part) := (ctxsKilled_kills s part).trans (.of_ctxs (by rw [killGraphs_eq, State.setPart_ctxs]))
  have hwas : (s.ctx id).active = true := (hkills.active id).symm.trans hactive
  have hmine : (s.ctx id).part = part := (hkills.part id).symm.trans hpart
  cases hk : (s.ctx id).killed with
  | true => exact hkills.killed id hk
  | false =>
    refine killContexts_active _ s _ (List.mem_filter.2 ⟨mem_ctxs_of_active hwas, ?_⟩) hactive
    simp [hwas, hmine, hk]

section
variable {s : State} {m : Mailbox} {part : Nat}

theorem exec_pfree_idle (hm : command s 0 2 = some m) (hpart : ((arg m 0).extractLsb' 0 5).toNat = part)
    (hlive : (s.part part).live = false) : exec .pfree s = .next (finishCommand s 0 0x04) := by
  change execPfree s = _
  simp only [execPfree, hm, hpart, hlive, Bool.not_false, if_true]

theorem exec_pfree (hm : command s 0 2 = some m) (hpart : ((arg m 0).extractLsb' 0 5).toNat = part)
    (hlive : (s.part part).live = true) (hfirst : (s.part part).freeing = false) : exec .pfree s =
      .next (killGraphs (s.setPart part { s.part part with queue := [], freeing := true }) part) := by
  change execPfree s = _
  simp only [execPfree, hm, hpart, hlive, hfirst, Bool.not_true, Bool.false_eq_true, if_false]

/-- The state of a partition's release, before its command ends. -/
def partReleased (s : State) (part : Nat) : State :=
  recomputeFabric { s.setPart part { nextId := (s.part part).nextId } with
    roots := SMap.erase s.roots (s.part part).asid.toNat
    owners := List.filter (fun o => o.2 ≠ part) s.owners
    streamGrants := s.streamGrants.filter fun g => g.2.2.2.2 ≠ part
    mailboxes := SMap.erase s.mailboxes (part + 1) }

theorem exec_partitionRelease (hlive : (s.part part).live = true) (hfreeing : (s.part part).freeing = true)
    (hdrained : (s.part part).running = []) :
    exec (.partitionRelease part) s = .next (finishCommand (partReleased s part) 0 0x00) := by
  change execPartitionRelease part s = _
  simp only [execPartitionRelease, hlive, hfreeing, hdrained, List.isEmpty_nil, Bool.and_true, if_true]
  rfl

/-! ### ROOT (R264) -/

/-- The address of a page table, whose reserved bits are clear. -/
theorem rootEntry_aligned {pa : W64} (hlow : pa.extractLsb' 0 16 = 0) (hhigh : pa.extractLsb' 52 12 = 0) :
    rootEntry pa = if pa = 0 then 0 else 0x8000000000000000 ||| pa := by
  have hmask : pa &&& 0x000FFFFFFFFF0000 = pa := by
    have hbits : ∀ i < 64, (0x000FFFFFFFFF0000 : W64).getLsbD i = decide (16 ≤ i ∧ i < 52) := by decide
    have hclearLow (i : Nat) (hi : i < 16) : pa.getLsbD i = false := by
      simpa [hi] using congrArg (fun x : BitVec 16 => x.getLsbD i) hlow
    have hclearHigh (i : Nat) (hi : 52 ≤ i) (htop : i < 64) : pa.getLsbD i = false := by
      have hbit : decide (i - 52 < 12) = true := decide_eq_true (by omega)
      simpa [hbit, Nat.add_sub_cancel' hi] using congrArg (fun x : BitVec 12 => x.getLsbD (i - 52)) hhigh
    refine BitVec.eq_of_getLsbD_eq fun i hi => ?_
    rw [BitVec.getLsbD_and, hbits i hi]
    by_cases hlow : i < 16
    · rw [hclearLow i hlow, Bool.false_and]
    · by_cases hhigh : 52 ≤ i
      · rw [hclearHigh i hhigh hi, Bool.false_and]
      · simp [Nat.not_lt.1 hlow, Nat.not_le.1 hhigh]
  rw [rootEntry, hmask]

theorem exec_root (hm : command s 0 3 = some m) (hlow : (arg m 1).extractLsb' 0 16 = 0) (hhigh : (arg m 1).extractLsb' 52 12 = 0) :
    exec .root s = .next (finishCommand { s with
      roots := SMap.set s.roots ((arg m 0).extractLsb' 0 8).toNat (rootEntry (arg m 1))
      tlbs := s.tlbs.map fun g => (g.1, g.2.filter fun e => e.asid != (arg m 0).extractLsb' 0 8) } 0 0x00) := by
  change execRoot s = _
  simp only [execRoot, hm, hlow, hhigh, ne_eq, not_true_eq_false, or_self, if_false]

/-! ### INSTALL and REMOVE (R212, R264) -/

theorem exec_install (hm : command s (part + 1) 0x10 = some m) : exec (.install part) s =
    let r := install s part ((arg m 0).extractLsb' 0 6).toNat (arg m 1).toNat (arg m 2).toNat
    .next (finishCommand r.1 (part + 1) r.2) := by
  change execInstall part s = _
  simp only [execInstall, hm]

theorem install_busy {slot bus len : Nat} (h : slotBusy (s.part part) slot = true) : install s part slot bus len = (s, 0x04) := by
  simp only [install, h, if_true]

/-- An image without data of its own is installed where the host's memory can be read. -/
theorem install_free {slot bus : Nat} {g : GraphImage} (hfree : slotBusy (s.part part) slot = false)
    (hfind : SMap.find? s.busImages bus = some g) (hdata : g.data = [])
    (hfits : slotBytes (s.part part) slot + g.size ≤ (s.part part).smem) :
    install s part slot bus g.size = if Config.hostReadable bus g.size then
      (s.setPart part { s.part part with slots := SMap.set (s.part part).slots slot g }, 0x00) else (s, 0x06) := by
  cases hread : Config.hostReadable bus g.size with
  | false => simp only [install, hfree, hread, Bool.false_eq_true, if_false, Bool.not_false, if_true]
  | true =>
    simp only [install, hfree, hread, hfind, hdata, writeData, Nat.not_lt.2 hfits, Bool.false_eq_true, if_false, Bool.not_true,
      ne_eq, not_true_eq_false, or_self, if_true]

theorem exec_remove (hm : command s (part + 1) 0x11 = some m) : exec (.remove part) s =
    .next (if slotBusy (s.part part) ((arg m 0).extractLsb' 0 6).toNat then finishCommand s (part + 1) 0x04
      else finishCommand (s.setPart part { s.part part with
        slots := SMap.erase (s.part part).slots ((arg m 0).extractLsb' 0 6).toNat }) (part + 1) 0x00) := by
  change execRemove part s = _
  simp only [execRemove, hm]
  split <;> rfl

/-! ### FWLOAD (R269) -/

theorem exec_fwload_unread (hm : command s 0 4 = some m) (hread : hostBytes s (arg m 0).toNat (arg m 1).toNat = none) :
    exec .fwload s = .next (finishCommand s 0 0x06) := by
  change execFwload s = _
  simp only [execFwload, hm, hread]

theorem exec_fwload_read {b : List Byte} (hm : command s 0 4 = some m) (hread : hostBytes s (arg m 0).toNat (arg m 1).toNat = some b) :
    exec .fwload s = .next (if verifies b then finishCommand { s with flash := b } 0 0x00 else finishCommand s 0 0x05) := by
  change execFwload s = _
  simp only [execFwload, hm, hread]

/-! ### The BAR0 window (R263) -/

theorem barWrite_vigil (hpart : part < 32) (hlive : (s.part part).live = true) (v : W64) : barWrite s (part + 1) 0x50 v =
    s.setPart part { s.part part with vigil := vigilWritten (s.part part).vigil v } := by
  have hfn : ¬ (32 < part + 1 ∨ 0x50 % 8 ≠ 0) := by omega
  rw [barWrite, if_neg hfn, if_neg (Nat.succ_ne_zero part)]
  simp [vfWrite, hlive]

theorem barRead_vigil (hlive : (s.part part).live = true) : barRead s (part + 1) 0x50 = (s.part part).vigil := by
  rw [barRead, if_neg (Nat.succ_ne_zero part)]
  simp [vfRead, hlive]

/-- A write to the high half of part.vigil keeps the low half. -/
theorem barWriteHalf_vigil (hpart : part < 32) (hlive : (s.part part).live = true) (v : W64) : barWriteHalf s (part + 1) 0x54 v =
    s.setPart part { s.part part with
      vigil := vigilWritten (s.part part).vigil (v.extractLsb' 0 32 ++ (s.part part).vigil.extractLsb' 0 32) } := by
  have hreaches : halfReaches (part + 1) 0x54 = true := by simp [halfReaches]
  rw [← barWrite_vigil hpart hlive, ← barRead_vigil hlive]
  simp [barWriteHalf, hreaches]

end

/-- Settles O59: each command as its equation gives it, and what a kill of a partition's contexts leaves behind PFREE. -/
theorem commandsAndRegisters : Obligations.CommandsAndRegisters := by
  unfold Obligations.CommandsAndRegisters
  intro s
  refine ⟨?finish, ?psetup, ?setUp, ?pfree, ?release, ?root, ?busy, ?install, ?remove, ?fwload, ?window⟩
  case finish =>
    intro fn st t
    obtain ⟨hgo, hdone, hstatus⟩ := finishedCmd_fields st ((mailbox s fn).cmd.extractLsb' 0 8)
    refine ⟨finishCommand_eq .., ?_⟩
    rw [finishCommand_mailbox]
    exact ⟨hgo, hdone, hstatus, rfl⟩
  case psetup =>
    intro m hm
    rw [exec_psetup hm, setUp]
    cases hostBytes s (arg m 0).toNat 256 with
    | none => rfl
    | some b =>
      dsimp only
      split
      · rfl
      · split
        · rfl
        · cases readGrants s ⟨wordsOf b 32⟩ with
          | none => rfl
          | some ws =>
            dsimp only
            cases grantsOf ws with
            | none => rfl
            | some grants =>
              dsimp only
              split <;> rfl
  case setUp =>
    intro x b grants t
    refine ⟨?_, ?_, ?_, ?_, fun p hp => ?_, fun p hp => ?_, fun n hn => setUpPart_part_ne s x b grants hn⟩
    · rw [setUpPart_part_self]
    · rw [setUpPart_part_self]
    · rw [setUpPart_part_self]
    · rw [setUpPart_roots, SMap.get_set_self]
    · rw [setUpPart_owners, find?_giveTiles, if_pos hp]
    · rw [setUpPart_owners, find?_giveTiles, if_neg hp]
  case pfree =>
    intro m hm part
    refine ⟨exec_pfree_idle hm rfl, fun hlive hfirst => ?_⟩
    obtain ⟨l, hpart, hkilled⟩ := killGraphs_part (s.setPart part { s.part part with queue := [], freeing := true }) part
    rw [State.setPart_part_self] at hpart
    refine ⟨_, exec_pfree hm rfl hlive hfirst, ?_, ?_, ?_, fun id => killGraphs_ctx⟩
    · rw [hpart]
    · rw [hpart]
    · rw [hpart]
      exact hkilled
  case release =>
    intro part hlive hfreeing hdrained
    refine ⟨_, exec_partitionRelease hlive hfreeing hdrained, ?_, fun o ho => ?_, SMap.find?_erase_self .., fun g hg => ?_,
      fun q hq => ?_⟩
    · exact congrArg Part.live (State.setPart_part_self s part _)
    · simpa using (List.mem_filter.1 ho).2
    · simpa using (List.mem_filter.1 hg).2
    · exact State.setPart_part_ne s part _ hq
  case root =>
    intro m hm asid pa hlow hhigh
    refine ⟨_, exec_root hm hlow hhigh, rfl, ?_, fun j hj => SMap.find?_set_ne _ _ hj, fun g hg e he => ?_⟩
    · exact (SMap.get_set_self ..).trans (rootEntry_aligned hlow hhigh)
    · obtain ⟨y, -, rfl⟩ := List.mem_map.1 hg
      simpa using (List.mem_filter.1 he).2
  case busy =>
    intro part m hm hbusy
    rw [exec_install hm, install_busy hbusy]
  case install =>
    intro part m g p slot hm hfree hfind hsize hdata hfits
    rw [exec_install hm, ← hsize, install_free hfree hfind hdata hfits]
    split <;> rfl
  case remove =>
    intro part m p slot hm
    exact exec_remove hm
  case fwload =>
    intro m hm
    cases hread : hostBytes s (arg m 0).toNat (arg m 1).toNat with
    | none => exact exec_fwload_unread hm hread
    | some b => exact exec_fwload_read hm hread
  case window =>
    intro part v hpart p hlive
    exact ⟨congrArg _ (barWrite_vigil hpart hlive v), congrArg _ (barWriteHalf_vigil hpart hlive v)⟩

end Sys2Proof.Machine

/-! ## Boot, time, health and heat (O60) -/

namespace Sys2Proof.Machine
open Sys2Proof

/-! ### Boot (R267) -/

theorem exec_deviceReset (s : State) : exec .deviceReset s = .next { State.reset with
    agenda := s.agenda, turns := s.turns, draws := s.draws, flash := s.flash, storage := s.storage, hostMem := s.hostMem
    busImages := s.busImages, hot := s.hot, stage := if verifies s.flash then 4 else 2
    version := if verifies s.flash then (imageWord s.flash).extractLsb' 32 16 else 0 } := by
  change execDeviceReset s = _
  unfold execDeviceReset
  split <;> rfl

theorem exec_recoveryFetchComplete_idle {s : State} {b : List Byte} (h : s.stage ≠ 2) :
    exec (.recoveryFetchComplete b) s = .next s := if_pos h

theorem exec_recoveryFetchComplete {s : State} {b : List Byte} (h : s.stage = 2) : exec (.recoveryFetchComplete b) s = .next
    (if verifies b then { s with fetches := s.fetches + 1, flash := b, stage := 4, version := (imageWord b).extractLsb' 32 16 }
     else { s with fetches := s.fetches + 1, failures := s.failures + 1, stage := if s.failures + 1 < 3 then 2 else 5 }) := by
  change execRecoveryFetchComplete b s = _
  simp only [execRecoveryFetchComplete, h, ne_eq, not_true_eq_false, if_false]
  split <;> rfl

/-! ### Almanac copies (R272) -/

/-- A copy that the hub's count corrects: the later of the two. -/
theorem corrected_toNat (c a : W64) : (if c.toNat ≤ a.toNat then a else c).toNat = max c.toNat a.toNat := by
  split
  · next h => exact (max_eq_right h).symm
  · next h => exact (max_eq_left (Nat.le_of_not_le h)).symm

theorem getD_modify_self {l : List W64} {n : Nat} (h : n < l.length) (f : W64 → W64) : (l.modify n f).getD n 0 = f (l.getD n 0) := by
  simp [List.getD_eq_getElem?_getD, h]

theorem getD_modify_ne {n j : Nat} (h : j ≠ n) (l : List W64) (f : W64 → W64) : (l.modify n f).getD j 0 = l.getD j 0 := by
  simp [List.getD_eq_getElem?_getD, h.symm]

/-! ### Health (R273) -/

/-- The entry that an evaluation publishes for a source. -/
def healthWord (turn src : Nat) : W32 :=
  Config.lifeDays turn src ++ BitVec.ofNat 8 src ++ (0 : BitVec 7) ++ BitVec.ofBool (decide ((Config.lifeDays turn src).toNat < 180))

/-- The days, the source, the reserved bits and the alert of an entry. -/
theorem healthWord_fields (turn src : Nat) : (healthWord turn src).extractLsb' 16 16 = Config.lifeDays turn src ∧
    (healthWord turn src).extractLsb' 8 8 = BitVec.ofNat 8 src ∧ (healthWord turn src).extractLsb' 1 7 = 0 ∧
    (healthWord turn src).getLsbD 0 = decide ((Config.lifeDays turn src).toNat < 180) := by
  have hfields (a : BitVec 16) (b : BitVec 8) (c : BitVec 7) (d : Bool) : let w := a ++ b ++ c ++ BitVec.ofBool d
      w.extractLsb' 16 16 = a ∧ w.extractLsb' 8 8 = b ∧ w.extractLsb' 1 7 = c ∧ w.getLsbD 0 = d := by
    refine ⟨?_, ?_, ?_, by rw [BitVec.getLsbD_append]; cases d <;> rfl⟩ <;>
      · ext i hi
        simp only [BitVec.getElem_extractLsb', BitVec.getLsbD_append]
        grind
  exact hfields ..

/-- Of the whole state only the health entries and the signals raised differ. -/
def HealthOnly (s t : State) : Prop := t = { s with health := t.health, msix := t.msix }

theorem HealthOnly.trans {s t u : State} (h : HealthOnly s t) (g : HealthOnly t u) : HealthOnly s u := by
  unfold HealthOnly at *
  rw [g, h]

theorem HealthOnly.fold {α : Type} {f : State → α → State} (hf : ∀ s a, HealthOnly s (f s a)) (l : List α) (s : State) :
    HealthOnly s (l.foldl f s) := by
  induction l generalizing s with
  | nil => rfl
  | cons a l ih => exact (hf s a).trans (ih _)

theorem foldl_signal_eq (l : List Nat) (f g : Nat → Nat) (s : State) :
    l.foldl (fun s n => signal s (f n) (g n)) s = { s with msix := (l.foldl (fun s n => signal s (f n) (g n)) s).msix } := by
  induction l generalizing s with
  | nil => rfl
  | cons n l ih => exact ih _

/-- Publishing writes one entry, and signals at most. -/
theorem publishHealth_eq (turn : Nat) (s : State) (src : Nat) : publishHealth turn s src =
    { s with health := SMap.set s.health src (healthWord turn src), msix := (publishHealth turn s src).msix } := by
  unfold publishHealth
  dsimp only
  split
  · exact foldl_signal_eq _ (· + 1) (fun _ => 2) _
  · rfl

theorem publishHealth_only (turn : Nat) (s : State) (src : Nat) : HealthOnly s (publishHealth turn s src) := by
  rw [publishHealth_eq]
  rfl

theorem publishHealth_health (turn : Nat) (s : State) (src : Nat) :
    (publishHealth turn s src).health = SMap.set s.health src (healthWord turn src) := by
  rw [publishHealth_eq]

/-- Every source of an evaluation has its entry afterwards: another source's leaves it. -/
theorem foldl_publishHealth_entry (turn : Nat) (l : List Nat) (s : State) : ∀ src ∈ l,
    SMap.find? (l.foldl (publishHealth turn) s).health src = some (healthWord turn src) := by
  refine foldl_brings (P := fun src s => SMap.find? s.health src = some (healthWord turn src)) (fun s src => ?_) (fun s src b h => ?_) l s
  · rw [publishHealth_health, SMap.find?_set_self]
  · rw [publishHealth_health]
    by_cases hb : src = b
    · rw [hb, SMap.find?_set_self]
    · rw [SMap.find?_set_ne _ _ hb, h]

theorem exec_healthEvaluation (s : State) : exec .healthEvaluation s =
    .next (((List.range 80).filter healthSource).foldl (publishHealth s.draws) { s with draws := s.draws + 1 }) := rfl

/-! ### Heat (R274) -/

theorem exec_thermalLimit (s : State) (src : W16) :
    exec (.thermalLimit src) s = .next { s with hot := if s.hot.contains src then s.hot else s.hot ++ [src] } := by
  change execThermalLimit src s = _
  unfold execThermalLimit
  split <;> rfl

/-- Settles O60: each event as its equation gives it, with what publishing the entries of all sources leaves. -/
theorem bootTimeAndHealth : Obligations.BootTimeAndHealth := by
  unfold Obligations.BootTimeAndHealth
  intro s
  refine ⟨⟨_, exec_deviceReset s, rfl, rfl, rfl⟩, fun b => exec_recoveryFetchComplete_idle, fun b => exec_recoveryFetchComplete,
    ?correction, ?health, ?heat⟩
  case correction =>
    intro die hdie
    refine ⟨_, rfl, rfl, ?_, fun j hj => getD_modify_ne hj ..⟩
    exact (congrArg BitVec.toNat (getD_modify_self hdie _)).trans (corrected_toNat ..)
  case health =>
    have hrest : HealthOnly { s with draws := s.draws + 1 } _ := .fold (publishHealth_only s.draws) ((List.range 80).filter healthSource) _
    refine ⟨_, exec_healthEvaluation s, ?_, fun src hsrc hsource => ?_⟩
    · rw [hrest]
    · obtain ⟨hdays, hnumber, hreserved, halert⟩ := healthWord_fields s.draws src
      refine ⟨_, foldl_publishHealth_entry _ _ _ src (List.mem_filter.2 ⟨List.mem_range.2 hsrc, hsource⟩), ?_, hreserved, ?_⟩
      · rw [hnumber, BitVec.toNat_ofNat, Nat.mod_eq_of_lt (by omega)]
      · rw [hdays, halert, decide_eq_true_iff]
  case heat =>
    intro src
    refine ⟨⟨_, exec_thermalLimit s src, rfl, fun x => ?_⟩, _, rfl, rfl, fun x => ?_⟩
    · dsimp only
      split
      · next h => exact ⟨.inr, fun hx => hx.elim (fun hx => hx ▸ List.contains_iff_mem.1 h) id⟩
      · simp [or_comm]
    · simp [and_comm]

end Sys2Proof.Machine
